-- ==== Sys2Proof/Word.lean ====
section
/-!
DEFINITION. Sys2Proof/Word.lean: the word types of the machine and the one map every sparse store of the model is built from.
-/

namespace Sys2Proof

/-- A 32-bit register word (00 R8). -/
abbrev Word := BitVec 32
/-- A byte. -/
abbrev Byte := BitVec 8
/-- A 64-bit value: a register pair or a double word. -/
abbrev DWord := BitVec 64

/-- A finite map from natural numbers, held as a list of pairs with strictly rising keys. -/
abbrev AMap (α : Type) := List (Nat × α)

namespace AMap

variable {α : Type}

/-- The entry at `k`, if the map lists one. -/
def find? : AMap α → Nat → Option α
  | [], _ => none
  | (j, x) :: r, k => if j = k then some x else find? r k

/-- What the map holds at `k`; `d` is what an unlisted key reads as. -/
def get (d : α) (m : AMap α) (k : Nat) : α := (find? m k).getD d

/-- The map without an entry at `k`. -/
def erase : AMap α → Nat → AMap α
  | [], _ => []
  | (j, x) :: r, k => if j = k then erase r k else (j, x) :: erase r k

/-- The map with `x` listed at `k`, in its place by key. -/
def insert : AMap α → Nat → α → AMap α
  | [], k, x => [(k, x)]
  | (j, y) :: r, k, x =>
    if k < j then (k, x) :: (j, y) :: r
    else if j = k then (k, x) :: r
    else (j, y) :: insert r k x

/-- The map with the value at `k` set to `x`: writing what an unlisted key reads as removes the entry. -/
def set [DecidableEq α] (d : α) (m : AMap α) (k : Nat) (x : α) : AMap α :=
  if x = d then erase m k else insert m k x

/-- The listed keys, in rising order. -/
def keys (m : AMap α) : List Nat := m.map Prod.fst

/-- Every listed key is above `k`. -/
def Above (k : Nat) (m : AMap α) : Prop := ∀ e ∈ m, k < e.1

/-- The keys rise strictly. -/
def sorted : AMap α → Bool
  | [] => true
  | [_] => true
  | (j, _) :: (k, y) :: r => decide (j < k) && sorted ((k, y) :: r)

/-- The canonical form of a map whose unlisted keys read as `d`: keys rise strictly and no entry equals `d`. -/
def wf [DecidableEq α] (d : α) (m : AMap α) : Bool := sorted m && m.all (fun e => decide (e.2 ≠ d))

end AMap

/-- Bits `hi..lo` of a number. -/
def bitsOf (n hi lo : Nat) : Nat := (n >>> lo) % 2 ^ (hi + 1 - lo)

/-- Bit `k` of a number. -/
def bitAt (n k : Nat) : Bool := (n >>> k) % 2 == 1

end Sys2Proof
end

