-- ==== Sys2Proof/Config.lean ====
section
/-!
DEFINITION. Sys2Proof/Config.lean: what one ES1 fixes, and the values the spec leaves open. An open value is an opaque
constant: nothing can evaluate it, so whatever is proved holds for every value of it (log 8).
-/

namespace Sys2Proof.Config

/-! ## Fixed figures of the package (01 Tables 1.1-1.2) -/

def numCores : Nat := 4096
def numDies : Nat := 16
def coreLines : Nat := 5632

/-! ## Free values (log 8) -/

/-- Fresh bits of a core's noise source at the `n`-th draw (06 R168). -/
opaque freshBits : Nat → BitVec 32
/-- A result bit pattern the manual bounds but does not fix: function number, operand (06 R160). -/
opaque approxBits : Nat → BitVec 32 → BitVec 32
/-- The witness launch seed of a launch: the signs behind `z` and `w` (13 R352, R357), by launch and TID. -/
opaque signZ : Nat → BitVec 32 → BitVec 64
opaque signW : Nat → BitVec 32 → BitVec 64
/-- The scan point of a launch (13 R357, R370), below the Mersenne prime. -/
opaque scanPoint : Nat → Nat
/-- The checker's modular point of an epoch's tests, and the signs behind `w` of a solve record (13 R357), by launch, the
record's number in the launch, and row. -/
opaque modPoint : Nat → Nat → Nat
opaque solveSign : Nat → Nat → Nat → Bool
/-- The spot check that the checker draws of so many records of an epoch (13 R359): by launch, epoch and the check's number. -/
opaque spotPick : Nat → Nat → Nat → Nat
/-- Whether a spot check fails whose operands were not loaded by an `MLD` as they stand: the spec gives no place to read them again
from. By launch, epoch, team, wave and SEQ. -/
opaque spotFails : Nat → Nat → Nat → Nat → Nat → Bool
/-- The free frame of a stack that a `CLAIM` takes for a page of so many address bits at a draw, if one is left (08 R200, R216). -/
opaque freeFrame : Nat → Nat → Nat → Option Nat
/-- Whether device memory has room for an extension of a launch's random log at a draw, and the `k`-th frame of a launch's log
(06 R170): where the log lies is the front die's. -/
opaque logRoom : Nat → Nat → Bool
opaque logFrame : Nat → Nat → Nat
/-- The ML-DSA-87 signature of a list of bytes by a key pair made from a seed, in 4,627 bytes. -/
opaque signBytes : BitVec 512 → List Byte → List Byte
/-- The contents of an SPDM response that the manual names without its bytes: response code, measurement slots, nonce. -/
opaque spdmBody : Nat → List (BitVec 512) → BitVec 256 → List Byte

/-- The fused 256-bit root key (16 R428). -/
opaque rootKey : BitVec 256
/-- The fused minimum of the security version of each boot object, by its measurement slot (16 R426). -/
opaque minVersion : Nat → Nat
/-- What an ML-KEM-1024 key pair made from a seed gives: the shared key that a ciphertext of 1,568 bytes carries (16 R429). -/
opaque decapsulate : BitVec 512 → List Byte → BitVec 256
/-- The ML-KEM-1024 ciphertext of a key for a member package at a replacement of the domain key (16 R435). -/
opaque encapsulate : Nat → BitVec 256 → List Byte
/-- The domain key of a number (16 R435). -/
opaque domainKey : Nat → BitVec 256
/-- AES-256-GCM under a key and a nonce: the plaintext of a ciphertext whose tag verifies (16 R429). -/
opaque gcmOpen : BitVec 256 → Nat → List Byte → BitVec 128 → Option (List Byte)
/-- AES-256-XTS of one 32-byte unit under a key pair and a tweak: its ciphertext, and its plaintext (16 R430). -/
opaque xtsSeal : BitVec 512 → Nat → List Byte → List Byte
opaque xtsOpen : BitVec 512 → Nat → List Byte → List Byte
/-- The registry identifier under which ML-DSA-87 is offered, and the type byte of a DMTF measurement block (16 R427). -/
opaque extAsym : BitVec 32
opaque measType : Nat → Byte
/-- The port by which a package is reached (16 R435). -/
opaque linkPort : Nat → Nat
/-- PAYLOAD of a journal entry whose fields the manual names without their bits (16 Table 16.4): kind and fields. -/
opaque journalPayload : Nat → List Nat → BitVec 96
/-- A fault-record entry, whose fields R438 of 16 names without their bits: time, unit, kind, launch, epoch or SEQ. -/
opaque faultEntry : Nat → Nat → Nat → List Nat → BitVec 256

/-- Whether another package's page has been released to the outside, at a draw: its home decides (00 R4, 13 R365). -/
opaque farReleased : Nat → Nat → Bool
/-- The frames behind a stage queue's storage, by launch and queue, and behind a team's context image, by stack and team context
(15 R409, 14 R398). -/
opaque queueFrames : Nat → Nat → List Nat
opaque imageFrames : Nat → Nat → List Nat
/-- How many filler units hold a shortage of so many milliamperes, by the package's fused calibration (17 R452). -/
opaque fillerUnits : Nat → Nat
/-- The energy in µJ that so many filler units take in a µs (17 R453). -/
opaque fillerEnergy : Nat → Nat

end Sys2Proof.Config
end

