-- ==== Sys2Proof/Machine/Num.lean ====
section
/-!
DEFINITION. Sys2Proof/Machine/Num.lean: number formats and rounding (03 R64-R85): exact rationals, the binary and decimal
element formats, the rounding helpers with their conditions, exact sums, and the reference values behind the bounds of 06
Table 6.5. Conditions are a mask: 1 invalid, 2 divide-by-zero, 4 overflow, 8 underflow, 16 inexact (06 R147).
-/

namespace Sys2Proof.Machine

open Sys2Proof

/-! ## Exact rationals -/

/-- An exact rational: numerator and positive denominator. -/
structure Q where
  n : Int
  d : Nat
  deriving DecidableEq, Repr

namespace Q
def ofInt (k : Int) : Q := ⟨k, 1⟩
def neg (a : Q) : Q := ⟨-a.n, a.d⟩
def abs (a : Q) : Q := ⟨a.n.natAbs, a.d⟩
def mul (a b : Q) : Q := ⟨a.n * b.n, a.d * b.d⟩
/-- The sum over the least common denominator. -/
def add (a b : Q) : Q :=
  if a.d = b.d then ⟨a.n + b.n, a.d⟩
  else
    let m := Nat.lcm a.d b.d
    ⟨a.n * (m / a.d : Nat) + b.n * (m / b.d : Nat), m⟩
def sub (a b : Q) : Q := a.add b.neg
/-- The inverse of a number that is not 0. -/
def inv (a : Q) : Q := ⟨if a.n < 0 then -(a.d : Int) else a.d, a.n.natAbs⟩
def le (a b : Q) : Bool := decide (a.n * b.d ≤ b.n * a.d)
def lt (a b : Q) : Bool := decide (a.n * b.d < b.n * a.d)
def eq (a b : Q) : Bool := decide (a.n * b.d = b.n * a.d)
/-- 2^k and 10^k for any integer k. -/
def pow2 (k : Int) : Q := if 0 ≤ k then ⟨2 ^ k.toNat, 1⟩ else ⟨1, 2 ^ (-k).toNat⟩
def pow10 (k : Int) : Q := if 0 ≤ k then ⟨10 ^ k.toNat, 1⟩ else ⟨1, 10 ^ (-k).toNat⟩
end Q

/-- An exact value of a format: NaN, an infinity, a signed zero, or a rational that is not 0. -/
inductive FV where
  | nan
  | inf (neg : Bool)
  | zero (neg : Bool)
  | fin (q : Q)
  deriving DecidableEq, Repr

/-- A rational as a value; an exact zero is +0. -/
def FV.ofQ (q : Q) : FV := if q.n = 0 then .zero false else .fin q
def FV.ofInt (k : Int) : FV := FV.ofQ (Q.ofInt k)
def FV.neg : FV → FV
  | .nan => .nan
  | .inf b => .inf !b
  | .zero b => .zero !b
  | .fin q => .fin q.neg
def FV.isNan : FV → Bool | .nan => true | _ => false
def FV.isNeg : FV → Bool
  | .nan => false
  | .inf b => b
  | .zero b => b
  | .fin q => decide (q.n < 0)
/-- Finite and not zero. -/
def FV.isFin : FV → Bool | .fin _ => true | _ => false
def FV.isZero : FV → Bool | .zero _ => true | _ => false

/-- Equal as numbers: zeros of either sign are equal, NaN equals nothing. -/
def FV.same : FV → FV → Bool
  | .inf a, .inf b => a == b
  | .zero _, .zero _ => true
  | .fin a, .fin b => a.eq b
  | _, _ => false

/-- Less than, for values that are no NaN. -/
def FV.lt : FV → FV → Bool
  | .inf true, .inf false => true
  | .inf true, .zero _ => true
  | .inf true, .fin _ => true
  | .zero _, .inf false => true
  | .fin _, .inf false => true
  | .zero _, .fin q => decide (0 < q.n)
  | .fin q, .zero _ => decide (q.n < 0)
  | .fin a, .fin b => a.lt b
  | _, _ => false

/-! ## Conditions and rounding modes -/

def cInvalid : Nat := 1
def cDivZero : Nat := 2
def cOverflow : Nat := 4
def cUnderflow : Nat := 8
def cInexact : Nat := 16

/-- Rounding modes: 0 nearest-even, 1 towards zero, 2 up, 3 down (R69). -/
abbrev RM := Nat

/-- Does a magnitude `f + r/d` round up to `f + 1`? -/
def roundsUp (mode : RM) (neg : Bool) (f r d : Nat) : Bool :=
  match mode with
  | 0 => decide (d < 2 * r) || (decide (2 * r = d) && f % 2 == 1)
  | 1 => false
  | 2 => decide (r ≠ 0) && !neg
  | _ => decide (r ≠ 0) && neg

/-- floor(log2 (n/d)) of a positive rational. -/
def log2Floor (n d : Nat) : Int :=
  let e : Int := (Nat.log2 n : Int) - Nat.log2 d
  if 0 ≤ e then (if d * 2 ^ e.toNat ≤ n then e else e - 1)
  else if d ≤ n * 2 ^ (-e).toNat then e else e - 1

/-- The magnitude n/d in units of 2^u: whole units, rest and its divisor. -/
def inUnits (n d : Nat) (u : Int) : Nat × Nat × Nat :=
  let n' := if 0 ≤ u then n else n * 2 ^ (-u).toNat
  let d' := if 0 ≤ u then d * 2 ^ u.toNat else d
  (n' / d', n' % d', d')

/-! ## Binary formats (R64, R65, R70, R71) -/

structure Fmt where
  expBits : Nat
  fracBits : Nat
  deriving DecidableEq, Repr

def fp32 : Fmt := ⟨8, 23⟩
def fp16 : Fmt := ⟨5, 10⟩
def bf16 : Fmt := ⟨8, 7⟩

namespace Fmt

def emin (f : Fmt) : Int := 2 - 2 ^ (f.expBits - 1)
/-- Exponent of the unit of the subnormals. -/
def umin (f : Fmt) : Int := f.emin - f.fracBits
def signBit (f : Fmt) : Nat := 2 ^ (f.expBits + f.fracBits)
def infBits (f : Fmt) : Nat := (2 ^ f.expBits - 1) * 2 ^ f.fracBits
def nanBits (f : Fmt) : Nat := f.infBits + 2 ^ (f.fracBits - 1)
def signed (f : Fmt) (neg : Bool) (m : Nat) : Nat := if neg then f.signBit + m else m

/-- The exact value of a pattern. -/
def decode (f : Fmt) (x : Nat) : FV :=
  let neg := bitAt x (f.expBits + f.fracBits)
  let e := bitsOf x (f.expBits + f.fracBits - 1) f.fracBits
  let m := x % 2 ^ f.fracBits
  if e = 2 ^ f.expBits - 1 then (if m = 0 then .inf neg else .nan)
  else if e = 0 && m = 0 then .zero neg
  else
    let k := if e = 0 then m else 2 ^ f.fracBits + m
    let q := (Q.ofInt (if neg then -(k : Int) else k)).mul (Q.pow2 (f.umin + (if e = 0 then 0 else (e : Int) - 1)))
    .fin q

/-- Is a pattern subnormal? -/
def subnormal (f : Fmt) (x : Nat) : Bool :=
  let m := x % f.signBit
  decide (m < 2 ^ f.fracBits) && decide (m ≠ 0)

/-- `Flush` of a source pattern (R71). -/
def flushIn (f : Fmt) (ftz : Bool) (x : Nat) : Nat := if ftz && f.subnormal x then x - x % f.signBit else x

/-- Round a positive or negative rational, with its conditions. Tininess is detected after rounding. -/
def roundQ (f : Fmt) (mode : RM) (q : Q) : Nat × Nat :=
  let neg := decide (q.n < 0)
  let n := q.n.natAbs
  let e := log2Floor n q.d
  let u := max e f.emin - f.fracBits
  let (k, r, d) := inUnits n q.d u
  let up := roundsUp mode neg k r d
  let k' := if up then k + 1 else k
  let bits := (u - f.umin).toNat * 2 ^ f.fracBits + k'
  if f.infBits ≤ bits then
    let toInf := match mode with
      | 0 => true
      | 1 => false
      | 2 => !neg
      | _ => neg
    (f.signed neg (if toInf then f.infBits else f.infBits - 1), cOverflow + cInexact)
  else
    let inexact := decide (r ≠ 0)
    let tiny :=
      if f.emin ≤ e then false
      else if e < f.emin - 1 then true
      else
        let (k2, r2, d2) := inUnits n q.d (e - f.fracBits)
        decide ((if roundsUp mode neg k2 r2 d2 then k2 + 1 else k2) < 2 ^ (f.fracBits + 1))
    (f.signed neg bits, (if inexact then cInexact else 0) + (if inexact && tiny then cUnderflow else 0))

/-- `RoundFP32`, `RoundFP16`, `RoundBF16` (R70). -/
def round (f : Fmt) (mode : RM) : FV → Nat × Nat
  | .nan => (f.nanBits, 0)
  | .inf neg => (f.signed neg f.infBits, 0)
  | .zero neg => (f.signed neg 0, 0)
  | .fin q => f.roundQ mode q

/-- The rounded result with `.ftz` applied to it (R71). -/
def roundFtz (f : Fmt) (mode : RM) (ftz : Bool) (x : FV) : Nat × Nat :=
  let (b, c) := f.round mode x
  if ftz && f.subnormal b then (b - b % f.signBit, c ||| cUnderflow ||| cInexact) else (b, c)

end Fmt

/-! ## IEEE operations on exact values (06 R151) -/

/-- Sum of two values, and whether the operation is invalid. -/
def fAdd (mode : RM) : FV → FV → FV × Nat
  | .nan, _ => (.nan, 0)
  | _, .nan => (.nan, 0)
  | .inf a, .inf b => if a = b then (.inf a, 0) else (.nan, cInvalid)
  | .inf a, _ => (.inf a, 0)
  | _, .inf b => (.inf b, 0)
  | .zero a, .zero b => if a = b then (.zero a, 0) else (.zero (mode == 3), 0)
  | .zero _, .fin q => (.fin q, 0)
  | .fin q, .zero _ => (.fin q, 0)
  | .fin a, .fin b =>
    let s := a.add b
    if s.n = 0 then (.zero (mode == 3), 0) else (.fin s, 0)

/-- Product of two values, and whether the operation is invalid. -/
def fMul : FV → FV → FV × Nat
  | .nan, _ => (.nan, 0)
  | _, .nan => (.nan, 0)
  | .inf a, .inf b => (.inf (a ^^ b), 0)
  | .inf _, .zero _ => (.nan, cInvalid)
  | .zero _, .inf _ => (.nan, cInvalid)
  | .inf a, .fin q => (.inf (a ^^ decide (q.n < 0)), 0)
  | .fin q, .inf b => (.inf (b ^^ decide (q.n < 0)), 0)
  | .zero a, .zero b => (.zero (a ^^ b), 0)
  | .zero a, .fin q => (.zero (a ^^ decide (q.n < 0)), 0)
  | .fin q, .zero b => (.zero (b ^^ decide (q.n < 0)), 0)
  | .fin a, .fin b => (.fin (a.mul b), 0)

/-- Fused multiply-add: 0 times an infinity is invalid even when the addend is NaN. -/
def fFma (mode : RM) (a b c : FV) : FV × Nat :=
  let (p, i) := fMul a b
  let (s, j) := fAdd mode p c
  (s, i ||| j)

/-- `ExactSum` (R82), with invalid when 0 met an infinity or infinities of both signs met. -/
def exactSum (ts : List (FV × Nat)) : FV × Nat :=
  let bad := ts.any (fun t => t.2 != 0)
  let pos := ts.any (fun t => t.1 == .inf false)
  let negv := ts.any (fun t => t.1 == .inf true)
  let inv := if bad || (pos && negv) then cInvalid else 0
  if ts.any (fun t => t.1.isNan) || bad || (pos && negv) then (.nan, inv)
  else if pos then (.inf false, 0)
  else if negv then (.inf true, 0)
  else (FV.ofQ (ts.foldl (fun a t => match t.1 with | .fin q => a.add q | _ => a) (Q.ofInt 0)), 0)

/-- minimumNumber and maximumNumber, −0 below +0 (06 R152); true when the first operand is the result. -/
def fLess (a b : FV) : Bool :=
  match a, b with
  | .zero x, .zero y => x && !y
  | a, b => a.lt b

/-! ## Rounding to an integer (R73) -/

/-- A rational rounded to an integer. -/
def roundInt (mode : RM) (q : Q) : Int :=
  let neg := decide (q.n < 0)
  let m := q.n.natAbs
  let k := m / q.d
  let k' := if roundsUp mode neg k (m % q.d) q.d then k + 1 else k
  if neg then -(k' : Int) else k'

/-- `ToInt`: the clamped integer and the saturation mark. -/
def toInt (x : FV) (lo hi : Int) (mode : RM) : Int × Bool :=
  match x with
  | .nan => (0, true)
  | .inf neg => (if neg then lo else hi, true)
  | .zero _ => (0, false)
  | .fin q =>
    let k := roundInt mode q
    if k < lo then (lo, true) else if hi < k then (hi, true) else (k, false)

/-- Is a value an integer? -/
def isIntegral : FV → Bool
  | .fin q => q.n.natAbs % q.d == 0
  | .zero _ => true
  | _ => false

/-- `Wrap32`: the value modulo 2^32 and the overflow mark. -/
def wrap32 (k : Int) : Word × Bool := (BitVec.ofInt 32 k, decide (k < -2147483648) || decide (2147483647 < k))

/-! ## DM8 (R66-R68, R72) -/

/-- Leading bits of [5:0] equal to the direction bit. -/
def dm8Run (c d : Nat) : Nat := ((List.range 6).takeWhile (fun i => (c >>> (5 - i)) % 2 == d)).length

/-- Magnitude of a positive code 0x01-0x7E. -/
def dm8Mag (c : Nat) : Q :=
  let d := c / 64 % 2
  let k := dm8Run c d
  if 5 ≤ k then (if d = 1 then Q.pow10 10 else Q.pow10 (-11))
  else
    let n := 4 - k
    let b := (c >>> n) % 2
    let e : Int := if d = 1 then 2 * k + b else -(2 * k + 2) + b
    (⟨2 ^ n + 9 * (c % 2 ^ n), 2 ^ n⟩ : Q).mul (Q.pow10 e)

/-- `DecodeDM8` (R68). -/
def decodeDM8 (c : Nat) : FV :=
  let m := c % 128
  let neg := decide (128 ≤ c % 256)
  if m = 0 then (if neg then .nan else .zero false)
  else if m = 127 then .inf neg
  else .fin (if neg then (dm8Mag m).neg else dm8Mag m)

/-- The largest code 0-0x7E whose magnitude is at most `a` (0 when none is). -/
def dm8Below (a : Q) : Nat := (List.range 127).foldl (fun best c => if c ≠ 0 && (dm8Mag c).le a then c else best) 0

/-- `RoundDM8`: the code and the underflow mark (R72). -/
def roundDM8 (x : FV) (mode : RM) (inf : Bool) : Nat × Bool :=
  match x with
  | .nan => (0x80, false)
  | .inf neg => (if neg then 0xFF else 0x7F, false)
  | .zero _ => (0, false)
  | .fin q =>
    let neg := decide (q.n < 0)
    let sgn := if neg then 0x80 else 0
    let a := q.abs
    let dir := match mode with        -- 0 nearest, 1 down, 2 up, on the magnitude
      | 0 => 0
      | 1 => 1
      | 2 => if neg then 1 else 2
      | _ => if neg then 2 else 1
    if (Q.pow10 10).lt a then (if inf && dir ≠ 1 then sgn + 0x7F else sgn + 0x7E, false)
    else
      let lo := dm8Below a
      let loQ := if lo = 0 then Q.ofInt 0 else dm8Mag lo
      let hiQ := dm8Mag (lo + 1)
      let m :=
        if loQ.eq a then lo
        else if dir = 2 then lo + 1
        else if dir = 1 then lo
        else
          let x := a.sub loQ
          let y := hiQ.sub a
          if x.lt y then lo else if y.lt x then lo + 1 else if lo % 2 = 0 then lo else lo + 1
      if m = 0 then (0, true) else (sgn + m, false)

/-- Conditions of a conversion to DM8 (06 R163). -/
def dm8Conds (x : FV) (code : Nat) (u : Bool) : Nat :=
  match x with
  | .fin q =>
    if u then cUnderflow + cInexact
    else if (Q.pow10 10).lt q.abs then cOverflow + cInexact
    else if (decodeDM8 code).same x then 0 else cInexact
  | _ => 0

/-! ## Format slots (R74-R76, R84) -/

/-- The fields of a format slot (Table 3.4). -/
structure FSlot where
  fmt : Nat
  scale : Nat
  block : Nat      -- elements
  uflow : Bool
  factor : Nat     -- FP32 pattern
  deriving DecidableEq, Repr

def FSlot.ofBits (x : Nat) : FSlot :=
  { fmt := bitsOf x 3 0, scale := bitsOf x 5 4, block := 16 * 2 ^ bitsOf x 7 6, uflow := bitAt x 8, factor := bitsOf x 63 32 }

/-- The slot is one that a launch may bind (R74, R75). -/
def FSlot.legal (x : Nat) : Bool :=
  let f := FSlot.ofBits x
  bitsOf x 31 9 == 0 && bitsOf x 7 6 != 3 && decide (f.scale ≠ 3) && decide (f.fmt ≤ 5) &&
  (if f.scale = 2 then (match fp32.decode f.factor with | .fin _ => true | _ => false) else f.factor == 0) &&
  (f.scale ≠ 1 || (decide (1 ≤ f.fmt) && decide (f.fmt ≤ 3))) && (f.scale ≠ 2 || decide (f.fmt ≤ 3))

/-- A byte as a signed number. -/
def sbyte (x : Nat) : Int := if 128 ≤ x % 256 then (x % 256 : Int) - 256 else (x % 256 : Nat)
/-- A 32-bit pattern as a signed number. -/
def sword (x : Nat) : Int := if 2 ^ 31 ≤ x % 2 ^ 32 then (x % 2 ^ 32 : Int) - 2 ^ 32 else (x % 2 ^ 32 : Nat)

/-- Bytes of an element of a format. -/
def fmtBytes (fmt : Nat) : Nat := match fmt with | 0 => 4 | 1 => 2 | 2 => 2 | 3 => 1 | 4 => 1 | _ => 4

/-- `Dec` of an element pattern (R76). -/
def decElem (fmt x : Nat) : FV :=
  match fmt with
  | 0 => fp32.decode x
  | 1 => fp16.decode x
  | 2 => bf16.decode x
  | 3 => decodeDM8 x
  | 4 => FV.ofInt (sbyte x)
  | _ => FV.ofInt (sword x)

/-- Is a block exponent valid? -/
def scaleOk (e : Int) : Bool := decide (-64 ≤ e) && decide (e ≤ 63)

/-- A value times an exact positive or negative scale; zeros and infinities take the scale's sign. -/
def scaleBy (x : FV) (q : Q) : FV := (fMul x (.fin q)).1

/-- The value an element stands for under its slot (R76): `e` is its block's exponent. -/
def elemValue (f : FSlot) (x : Nat) (e : Int) : FV :=
  match f.scale with
  | 1 => if scaleOk e then scaleBy (decElem f.fmt x) (Q.pow10 e) else .nan
  | 2 => (fMul (decElem f.fmt x) (fp32.decode f.factor)).1
  | _ => decElem f.fmt x

/-- `E` of `SelectScale` (R81): the finite magnitudes, the buffer entry (count, when valid) and the block size. -/
def log10Floor (m : Q) : Int :=
  (List.range 90).foldl (fun (best : Int) (k : Nat) =>
    let e : Int := (k : Int) - 48
    if (Q.pow10 e).le m then e else best) (-48)
def selectScale (xs : List FV) (ent : Option Nat) (block : Nat) : Int :=
  let m := xs.foldl (fun a x => match x with | .fin q => if a.lt q.abs then q.abs else a | _ => a) (Q.ofInt 0)
  let e : Int :=
    if m.n = 0 then 0
    else
      let e0 := log10Floor m - 1
      match ent with
      | some c => e0 - min 3 (8 * c / block)
      | none => e0
  max (-64) (min 63 e)

/-- The fed-back conversion of an accumulator element to an operand element (R84), as its exact value. -/
def feedback (fmt x : Nat) : FV :=
  match fmt with
  | 1 | 2 =>
    let f := if fmt = 1 then fp16 else bf16
    match fp32.decode x with
    | .nan => .nan
    | v =>
      let b := (f.round 0 v).1
      f.decode (if b % f.signBit = f.infBits then b - 1 else b)
  | 3 =>
    match fp32.decode x with
    | .inf neg => decodeDM8 (if neg then 0xFE else 0x7E)
    | v => decodeDM8 (roundDM8 v 0 false).1
  | 4 => FV.ofInt (toInt (FV.ofInt (sword x)) (-128) 127 0).1
  | _ => fp32.decode x

/-! ## Reference values of the special functions (06 R160) -/

/-- Integer square root by bits, from bit `b` down. -/
def isqrt : Nat → Nat → Nat → Nat
  | 0, _, r => r
  | b + 1, n, r => if (r + 2 ^ b) * (r + 2 ^ b) ≤ n then isqrt b n (r + 2 ^ b) else isqrt b n r

/-- A rational whose rounding in any mode is that of the square root of a positive rational with a power-of-two
denominator: exact where the root is, else halfway between neighbours of a fine grid. -/
def sqrtQ (q : Q) : Q :=
  let e := log2Floor q.n.natAbs q.d
  let h : Int := 60 - e / 2
  let (k, r, _) := inUnits q.n.natAbs q.d (-2 * h)
  let s := isqrt 64 k 0
  if s * s = k && r = 0 then (Q.ofInt s).mul (Q.pow2 (-h)) else (Q.ofInt (2 * s + 1)).mul (Q.pow2 (-h - 1))

/-- One unit of the fixed-point scale of the reference values. -/
def one : Int := 2 ^ 96
def fixMul (a b : Int) : Int := a * b / one
/-- A rational in fixed point. -/
def fixOf (q : Q) : Int := q.n * one / q.d
def ofFix (x : Int) : Q := ⟨x, 2 ^ 96⟩

/-- 2 * Σ z^(2k+1)/(2k+1): the logarithm of (1+z)/(1−z), summed over `n` terms. -/
def lnSeries : Nat → Nat → Int → Int → Int
  | 0, _, _, _ => 0
  | n + 1, k, p, z2 => 2 * p / (2 * k + 1 : Nat) + lnSeries n (k + 1) (fixMul p z2) z2
def ln2 : Int := let z := one / 3; lnSeries 40 0 z (fixMul z z)
/-- Σ x^k/k!, alternating for sine and cosine by the step chosen. -/
def expSeries : Nat → Nat → Int → Int → Int
  | 0, _, _, _ => 0
  | n + 1, k, p, x => p + expSeries n (k + 1) (fixMul p x / (k + 1 : Nat)) x
def trigSeries : Nat → Nat → Int → Int → Int
  | 0, _, _, _ => 0
  | n + 1, k, p, x2 => p + trigSeries n (k + 2) (-(fixMul p x2) / ((k + 1) * (k + 2) : Nat)) x2

/-- π by 16 atan(1/5) − 4 atan(1/239). -/
def atanInv : Nat → Nat → Nat → Int → Int
  | 0, _, _, _ => 0
  | n + 1, k, m, p => p / (2 * k + 1 : Nat) - atanInv n (k + 1) m (p / (m * m : Nat))
def piFix : Int := 16 * atanInv 45 0 5 (one / 5) - 4 * atanInv 15 0 239 (one / 239)

/-- 2^x for x in [0, 1), in fixed point. -/
def exp2Frac (x : Int) : Int := expSeries 40 0 one (fixMul x ln2)
/-- floor of a rational. -/
def floorQ (q : Q) : Int := q.n / q.d

/-- 2^q. -/
def exp2Q (q : Q) : Q :=
  let k := floorQ q
  (ofFix (exp2Frac (fixOf (q.sub (Q.ofInt k))))).mul (Q.pow2 k)

/-- log2 of a positive rational. -/
def log2Q (q : Q) : Q :=
  let e := log2Floor q.n.natAbs q.d
  let m := q.mul (Q.pow2 (-e))
  let z := fixOf ((m.sub (Q.ofInt 1)).mul (m.add (Q.ofInt 1)).inv)
  (Q.ofInt e).add (ofFix (lnSeries 45 0 z (fixMul z z) * one / ln2))

/-- sin(π x) for x in [0, 2), by quadrant. -/
def sinPiPos (x : Q) : Q :=
  let half := Q.mk 1 2
  let r (y : Q) : Q :=
    let t := fixMul (fixOf y) piFix
    ofFix (trigSeries 20 1 t (fixMul t t))
  if x.le half then r x
  else if x.le (Q.mk 3 2) then (r ((Q.ofInt 1).sub x))
  else r (x.sub (Q.ofInt 2))
def sinPiQ (x : Q) : Q := sinPiPos (x.sub (Q.ofInt (2 * floorQ (x.mul (Q.mk 1 2)))))
def cosPiQ (x : Q) : Q := sinPiQ (x.add (Q.mk 1 2))

/-- tanh of a rational of magnitude below 16: (E − 1)/(E + 1) with E = e^(2x). -/
def tanhQ (x : Q) : Q :=
  let e := exp2Q ((x.mul (Q.ofInt 2)).mul (ofFix ln2).inv)
  (e.sub (Q.ofInt 1)).mul (e.add (Q.ofInt 1)).inv

/-- One FP32 ulp at a value: at zero and among the subnormals 2^-149. -/
def ulpQ (q : Q) : Q :=
  if q.n = 0 then Q.pow2 (-149) else Q.pow2 (max (log2Floor q.n.natAbs q.d) (-126) - 23)

/-- Is an FP32 pattern finite and within `k` ulp of a reference value, or within an absolute error? -/
def withinBound (bits : Nat) (ref : Q) (k : Nat) (absErr : Q) : Bool :=
  match fp32.decode bits with
  | .nan => false
  | .inf _ => false
  | v =>
    let q := match v with | .fin q => q | _ => Q.ofInt 0
    let err := (q.sub ref).abs
    err.le ((Q.ofInt k).mul (ulpQ ref)) || err.le absErr

end Sys2Proof.Machine
end

