-- ==== Sys2Proof/Machine/Flags.lean ====
section
/-!
DEFINITION. Sys2Proof/Machine/Flags.lean: every condition an instruction computes: carry and borrow, saturation, the
conditions of `ISETP` and `FSETP`, their fold with a predicate, and the classes of `FCLASS`.
-/

namespace Sys2Proof.Machine

open Sys2Proof

/-- A 32-bit result from an exact one: modulo 2^32, or saturated to the signed or the unsigned range (05 R130, R131). -/
def sat32 (sat zx : Bool) (exact : Int) : Word :=
  if !sat then BitVec.ofInt 32 exact
  else if zx then BitVec.ofInt 32 (max 0 (min 4294967295 exact))
  else BitVec.ofInt 32 (max (-2147483648) (min 2147483647 exact))

/-- The value of a word, signed or unsigned. -/
def intOf {n : Nat} (zx : Bool) (a : BitVec n) : Int := if zx then a.toNat else a.toInt

/-- The carry or borrow of an exact sum or difference of unsigned values (05 R130). -/
def carryOut (n : Nat) (exact : Int) : Bool := decide ((2 : Int) ^ n ≤ exact) || decide (exact < 0)

/-- The conditions of `ISETP` (05 Table 5.7). -/
def intCond {n : Nat} (c : Nat) (a b : BitVec n) : Bool :=
  match c with
  | 0 => a == b
  | 1 => a != b
  | 2 => decide (a.toInt < b.toInt)
  | 3 => decide (a.toInt ≤ b.toInt)
  | 4 => decide (b.toInt < a.toInt)
  | 5 => decide (b.toInt ≤ a.toInt)
  | 6 => decide (a.toNat < b.toNat)
  | 7 => decide (a.toNat ≤ b.toNat)
  | 8 => decide (b.toNat < a.toNat)
  | 9 => decide (b.toNat ≤ a.toNat)
  | 10 => false
  | 11 => true
  | 12 => (a &&& b) != 0
  | _ => (a &&& b) == 0

/-- The relation of an ordered comparison, 0-5: eq, ne, lt, le, gt, ge. -/
def floatRel (c : Nat) (a b : FV) : Bool :=
  match c with
  | 0 => a.same b
  | 1 => !a.same b
  | 2 => a.lt b
  | 3 => a.lt b || a.same b
  | 4 => b.lt a
  | _ => b.lt a || a.same b

/-- The conditions of `FSETP` (06 Table 6.4). -/
def floatCond (c : Nat) (a b : FV) : Bool :=
  let un := a.isNan || b.isNan
  if c ≤ 5 then !un && floatRel c a b
  else if c ≤ 11 then un || floatRel (c - 6) a b
  else if c = 12 then !un
  else un

/-- The fold of a comparison with a predicate (05 R138): 0 none, 1 and, 2 or, 3 xor. -/
def combine (comb : Nat) (t q : Bool) : Bool :=
  match comb with
  | 0 => t
  | 1 => t && q
  | 2 => t || q
  | _ => t ^^ q

/-- The class number of an FP32 pattern (06 R154). -/
def classOf (x : Nat) : Nat :=
  let neg := bitAt x 31
  let e := bitsOf x 30 23
  let m := x % 2 ^ 23
  if e = 255 then (if m = 0 then (if neg then 2 else 9) else if bitAt m 22 then 1 else 0)
  else if e = 0 then (if m = 0 then (if neg then 5 else 6) else if neg then 4 else 7)
  else if neg then 3 else 8

end Sys2Proof.Machine
end

