-- ==== Sys2Proof/Syntax.lean ====
section
/-!
DEFINITION. Sys2Proof/Syntax.lean: the operands and the ONE instruction type of the ES1. Every row of
spec/opcode_table.json is a constructor: the instruction forms carry the fields of their encoding, the events (steps of
the machine that no word encodes) carry what the event is about.
-/

namespace Sys2Proof

/-- The length of an instruction word (02 Table 2.1); pad words are no instructions. -/
inductive Len where
  | w64 | w96 | w128
  deriving DecidableEq, Repr

/-- Bytes of a word of this length. -/
def Len.bytes : Len → Nat
  | .w64 => 8 | .w96 => 12 | .w128 => 16

/-- A predicate number `p0`-`p15` (00 R8). -/
abbrev Pred := BitVec 4

/-- An accumulator tile `m0`-`m7`. -/
abbrev Tile := BitVec 3

/-- The fields every frame carries (02 Table 2.2): length, stall count, guard and its negation. -/
structure Hdr where
  len : Len
  stall : BitVec 4
  guard : Pred
  gneg : Bool
  deriving DecidableEq, Repr

/-- A 9-bit operand field (02 Table 2.4). -/
inductive Opnd where
  | v (n : BitVec 8)   -- 0-255
  | s (n : BitVec 6)   -- 256-319
  | y (n : BitVec 5)   -- 320-351
  | e (n : BitVec 3)   -- 352-359
  | c (n : BitVec 4)   -- 360-375, the inline constants of Table 2.6
  deriving DecidableEq, Repr

/-- A crossbar pattern (02 Table 2.5). -/
inductive Pat where
  | ident
  | rot (k : BitVec 5)
  | bc (k : BitVec 5)
  | xor (k : BitVec 5)
  | mir (k : BitVec 5)
  deriving DecidableEq, Repr

/-- A source field: a register and the pattern it is read through (02 Table 2.3). -/
structure Src where
  reg : Opnd
  pat : Pat
  deriving DecidableEq, Repr

/-- Source B: a source field, or IMM at 128 bits (02 R39). -/
inductive SrcB where
  | reg (x : Src)
  | imm (w : Word)
  deriving DecidableEq, Repr

/-- A memory operand `[base + index*2^scale + off]` with its qualifier (08 R187, R204). -/
structure MemOp where
  base : Src
  index : Src
  off : Word
  scale : BitVec 3
  idx64 : Bool
  qual : BitVec 3
  deriving DecidableEq, Repr

/-- The factor of `MSCL` (11 Table 11.7): a coefficient register, or a scalar. -/
inductive CoefOp where
  | coef (n : BitVec 4)
  | scalar (o : Opnd)
  deriving DecidableEq, Repr

/-- The slot of `TWIN`: a literal, or an `s` register (11 R324). -/
inductive SlotOp where
  | lit (n : BitVec 5)
  | reg (n : BitVec 6)
  deriving DecidableEq, Repr

/-- A 12-bit count: a literal, or an `s` register (`MITER` limit, `WBEGIN` count). -/
inductive LimOp where
  | lit (n : BitVec 12)
  | reg (n : BitVec 6)
  deriving DecidableEq, Repr

/-- One slot of a pair word (02 Table 2.11). -/
structure PSlot where
  smod : BitVec 6
  gneg : Bool
  guard : Pred
  sc : Opnd
  sb : Opnd
  sa : Opnd
  sd : Opnd
  sop : BitVec 7
  deriving DecidableEq, Repr

/-- One object of the boot chain (16 Table 16.1): its measurement slot, its digest, and whether it verified. -/
structure BootObject where
  slot : Nat
  digest : BitVec 512
  version : Nat
  verified : Bool
  deriving DecidableEq, Repr

/-- What a write of a host register carries: 32 bits or 64 (15 R424). -/
inductive HostData where
  | word (v : Word)
  | dword (v : DWord)
  deriving DecidableEq, Repr

/-- The certificate slot and the nonce of a request that is signed over a nonce (16 R427). -/
structure SpdmAsk where
  certSlot : Nat
  nonce : BitVec 256
  deriving DecidableEq, Repr

/-- What a candidate package showed (16 R435 step 1): its measurements, and whether the challenges were answered truly both ways. -/
structure PeerProof where
  ms : List (BitVec 512)
  authentic : Bool
  deriving DecidableEq, Repr

/-- A sealed-region import request (16 R429 step 1), with its ML-KEM-1024 ciphertext and the digest of the public key under
which its signature verified. -/
structure ImportReq where
  region : Nat
  pages : Nat
  rate : Nat
  burst : Nat
  ownerKeyHash : BitVec 512
  frames : List Nat
  kem : List Byte
  signer : Option (BitVec 512)
  deriving DecidableEq, Repr

/-- What a received flit group brings (16 R435, 15 R423): a write, a read, an atomic (operation and width as 08 Tables 8.8
and 8.9), a request at a chunk record (10 R274), an operation, a credit or a wait at a barrier object (10 R276, R277), the
registration of a monitor (04 R116), the arrival of a collective command at its group record (10 R271), or a response to one of
our tags, with a version word for each part of the access there, 0 where it is not staged; from a line's home word of a write
there, and the state of a version of a staging page, as its word (09 R256). -/
inductive FlitBody where
  | write (addr : Nat) (bytes : List Byte) (poisoned : Bool)
  | read (addr : Nat) (n : Nat)
  | atom (addr : Nat) (flt : Bool) (op : Nat) (bytes : Nat) (data : List Word)
  | chunk (addr : Nat)
  | bbinit (addr : Nat) (count : DWord)
  | bbadd (addr : Nat) (value : DWord)
  | credit (addr : Nat) (n : Nat)
  | bbwait (addr : Nat)
  | monitor (addr : Nat)
  | coll (addr : Nat) (rank : Nat) (src : List Byte) (poisoned : Bool)
  | response (id : Nat) (bytes : List Byte) (poisoned : Bool) (versions : List Word)
  | written (addr : Nat) (n : Nat)
  | state (page : Nat) (version : Word)
  deriving DecidableEq, Repr

/-- A flit group received on a scale-up link: its sender and port, its group counter, the number of the domain key it came
under, whether its tag verified. -/
structure FlitGroup where
  sender : BitVec 12
  port : Nat
  counter : Nat
  key : Nat
  tagOk : Bool
  body : FlitBody
  deriving DecidableEq, Repr

/-- The instructions and events of the ES1: one constructor per row of the opcode table. -/
inductive Instr where
  -- instruction forms, in the table's order
  /-- BRA. R108: relative branch to PC + sext(IMM). -/
  | bra (h : Hdr) (off : Word)
  /-- CALL. R108: push PC+16, then branch. -/
  | call (h : Hdr) (off : Word)
  /-- BRI. R109: branch to the 64-bit target of a pair or constant. -/
  | bri (h : Hdr) (a : Src)
  /-- CALLI. R109: push PC+8, then branch to the pair's target. -/
  | calli (h : Hdr) (a : Src)
  /-- RET. R110: pop the return address and transfer. -/
  | ret (h : Hdr)
  /-- EXIT. R111: end the executing threads. -/
  | exit (h : Hdr)
  /-- NOP. R112: changes no state. -/
  | nop (h : Hdr)
  /-- STALL. R112: holds the next instruction for n clk. -/
  | stall (h : Hdr) (n : BitVec 16)
  /-- YIELD. R113: holds the thread until a later regroup boundary. -/
  | yield (h : Hdr) (n : BitVec 6)
  /-- COLL. R114: the explicit reconvergence point. -/
  | coll (h : Hdr)
  /-- REGION. R115: enters an idempotent region. -/
  | region (h : Hdr)
  /-- MARM. R116: arms the monitor. -/
  | marm (h : Hdr) (m : MemOp) (hint : BitVec 2)
  /-- MWAIT_T. R117: parks until the hit flag or the limit; traps on the limit. -/
  | mwaitT (h : Hdr) (n : BitVec 11)
  /-- MWAIT_P. R117: parks until the hit flag or the limit; writes the outcome. -/
  | mwaitP (h : Hdr) (pd : Pred) (n : BitVec 11)
  /-- WAITSB. R118: holds until pending results of the classes commit. -/
  | waitsb (h : Hdr) (mask : BitVec 5)
  /-- IADD. R130. -/
  | iadd (h : Hdr) (d : Opnd) (a : Src) (b : SrcB) (sat : Bool) (zx : Bool) (co : Pred)
  /-- ISUB. R130. -/
  | isub (h : Hdr) (d : Opnd) (a : Src) (b : SrcB) (sat : Bool) (zx : Bool) (co : Pred)
  /-- IADDC. R130. -/
  | iaddc (h : Hdr) (d : Opnd) (a : Src) (b : SrcB) (pi : Pred) (co : Pred)
  /-- IMUL. R131. -/
  | imul (h : Hdr) (d : Opnd) (a : Src) (b : SrcB) (sat : Bool) (zx : Bool)
  /-- IMULH. R131. -/
  | imulh (h : Hdr) (d : Opnd) (a : Src) (b : SrcB) (zx : Bool)
  /-- IMAD. R131. -/
  | imad (h : Hdr) (d : Opnd) (a : Src) (b : SrcB) (c : Src) (sat : Bool) (zx : Bool)
  /-- IMADW. R131. -/
  | imadw (h : Hdr) (d : Opnd) (a : Src) (b : SrcB) (c : Src) (zx : Bool)
  /-- IADD64. R130. -/
  | iadd64 (h : Hdr) (d : Opnd) (a : Src) (b : SrcB) (co : Pred)
  /-- ISUB64. R130. -/
  | isub64 (h : Hdr) (d : Opnd) (a : Src) (b : SrcB) (co : Pred)
  /-- IMIN. R132. -/
  | imin (h : Hdr) (d : Opnd) (a : Src) (b : SrcB) (zx : Bool)
  /-- IMAX. R132. -/
  | imax (h : Hdr) (d : Opnd) (a : Src) (b : SrcB) (zx : Bool)
  /-- IABS. R132. -/
  | iabs (h : Hdr) (d : Opnd) (a : Src)
  /-- INEG. R132. -/
  | ineg (h : Hdr) (d : Opnd) (a : Src)
  /-- AND. R133. -/
  | and (h : Hdr) (d : Opnd) (a : Src) (b : SrcB)
  /-- OR. R133. -/
  | or (h : Hdr) (d : Opnd) (a : Src) (b : SrcB)
  /-- XOR. R133. -/
  | xor (h : Hdr) (d : Opnd) (a : Src) (b : SrcB)
  /-- ANDN. R133. -/
  | andn (h : Hdr) (d : Opnd) (a : Src) (b : SrcB)
  /-- NOT. R133. -/
  | not (h : Hdr) (d : Opnd) (a : Src)
  /-- SHL. R133. -/
  | shl (h : Hdr) (d : Opnd) (a : Src) (b : SrcB) (wrap : Bool)
  /-- SHR. R133. -/
  | shr (h : Hdr) (d : Opnd) (a : Src) (b : SrcB) (wrap : Bool)
  /-- SAR. R133. -/
  | sar (h : Hdr) (d : Opnd) (a : Src) (b : SrcB) (wrap : Bool)
  /-- ROTL. R133. -/
  | rotl (h : Hdr) (d : Opnd) (a : Src) (b : SrcB)
  /-- SHF_L. R134. -/
  | shfL (h : Hdr) (d : Opnd) (a : Src) (b : SrcB) (c : Src)
  /-- SHF_R. R134. -/
  | shfR (h : Hdr) (d : Opnd) (a : Src) (b : SrcB) (c : Src)
  /-- BFE. R135. -/
  | bfe (h : Hdr) (d : Opnd) (a : Src) (b : SrcB) (zx : Bool)
  /-- BFI. R135. -/
  | bfi (h : Hdr) (d : Opnd) (a : Src) (b : SrcB) (c : Src)
  /-- POPC. R136. -/
  | popc (h : Hdr) (d : Opnd) (a : Src)
  /-- CLZ. R136. -/
  | clz (h : Hdr) (d : Opnd) (a : Src)
  /-- CTZ. R136. -/
  | ctz (h : Hdr) (d : Opnd) (a : Src)
  /-- BREV. R136. -/
  | brev (h : Hdr) (d : Opnd) (a : Src)
  /-- PRMB. R137. -/
  | prmb (h : Hdr) (d : Opnd) (a : Src) (b : SrcB) (c : Src)
  /-- ISETP. R138. -/
  | isetp (h : Hdr) (pd : Pred) (a : Src) (b : SrcB) (pc : Pred) (cond : BitVec 4) (comb : BitVec 2) (cneg : Bool)
  /-- ISETP_64. R138. -/
  | isetp64 (h : Hdr) (pd : Pred) (a : Src) (b : SrcB) (pc : Pred) (cond : BitVec 4) (comb : BitVec 2) (cneg : Bool)
  /-- ISEL. R139. -/
  | isel (h : Hdr) (d : Opnd) (a : Src) (b : Src) (pc : Pred) (sneg : Bool)
  /-- LEA. R143. -/
  | lea (h : Hdr) (d : Opnd) (a : Src) (b : Src) (off : Word) (zx : Bool) (scale : BitVec 3) (idx64 : Bool)
  /-- MOV. R142. -/
  | mov (h : Hdr) (d : Opnd) (a : Src)
  /-- MOV_64. R142. -/
  | mov64 (h : Hdr) (d : Opnd) (a : Src)
  /-- MOVI. R142. -/
  | movi (h : Hdr) (d : Opnd) (imm : Word)
  /-- MOVI_64. R142. -/
  | movi64 (h : Hdr) (d : Opnd) (imm : Word)
  /-- PLOP. R140. -/
  | plop (h : Hdr) (pd : Pred) (pa : Pred) (pb : Pred) (pc : Pred) (lut : BitVec 8)
  /-- PMOV_TO_REGISTER. R141. -/
  | pmovTo (h : Hdr) (d : Opnd)
  /-- PMOV_FROM_REGISTER. R141. -/
  | pmovFrom (h : Hdr) (a : Src) (b : Src)
  /-- GETSR. R144. -/
  | getsr (h : Hdr) (d : Opnd) (num : BitVec 8)
  /-- FADD. R151. -/
  | fadd (h : Hdr) (d : Opnd) (a : Src) (b : SrcB) (rm : BitVec 2) (ftz : Bool)
  /-- FSUB. R151. -/
  | fsub (h : Hdr) (d : Opnd) (a : Src) (b : SrcB) (rm : BitVec 2) (ftz : Bool)
  /-- FMUL. R151. -/
  | fmul (h : Hdr) (d : Opnd) (a : Src) (b : SrcB) (rm : BitVec 2) (ftz : Bool)
  /-- FFMA. R151. -/
  | ffma (h : Hdr) (d : Opnd) (a : Src) (b : SrcB) (c : Src) (rm : BitVec 2) (ftz : Bool)
  /-- FMIN. R152. -/
  | fmin (h : Hdr) (d : Opnd) (a : Src) (b : SrcB) (ftz : Bool)
  /-- FMAX. R152. -/
  | fmax (h : Hdr) (d : Opnd) (a : Src) (b : SrcB) (ftz : Bool)
  /-- FSETP. R153. -/
  | fsetp (h : Hdr) (pd : Pred) (a : Src) (b : SrcB) (pc : Pred) (cond : BitVec 4) (comb : BitVec 2) (cneg : Bool) (ftz : Bool)
  /-- FCLASS. R154. -/
  | fclass (h : Hdr) (pd : Pred) (a : Src) (mask : BitVec 10)
  /-- FRND. R155. -/
  | frnd (h : Hdr) (d : Opnd) (a : Src) (rm : BitVec 2) (ftz : Bool)
  /-- FRND_X. R155. -/
  | frndX (h : Hdr) (d : Opnd) (a : Src) (rm : BitVec 2) (ftz : Bool)
  /-- FSCALB. R156. -/
  | fscalb (h : Hdr) (d : Opnd) (a : Src) (b : Src) (rm : BitVec 2) (ftz : Bool)
  /-- FDSCL. R156. -/
  | fdscl (h : Hdr) (d : Opnd) (a : Src) (b : Src) (rm : BitVec 2) (ftz : Bool)
  /-- FADD2. R157. -/
  | fadd2 (h : Hdr) (d : Opnd) (a : Src) (b : SrcB) (bf : Bool) (rm : BitVec 2) (ftz : Bool)
  /-- FMUL2. R157. -/
  | fmul2 (h : Hdr) (d : Opnd) (a : Src) (b : SrcB) (bf : Bool) (rm : BitVec 2) (ftz : Bool)
  /-- FFMA2. R157. -/
  | ffma2 (h : Hdr) (d : Opnd) (a : Src) (b : SrcB) (c : Src) (bf : Bool) (rm : BitVec 2) (ftz : Bool)
  /-- FDOT4. R158. -/
  | fdot4 (h : Hdr) (kind : BitVec 2) (d : Opnd) (a : Src) (b : Src) (c : Src) (rm : BitVec 2) (ftz : Bool)
  /-- IDOT4. R159. -/
  | idot4 (h : Hdr) (kind : BitVec 2) (d : Opnd) (a : Src) (b : Src) (c : Src) (sat : Bool)
  /-- FRCP. R160. -/
  | frcp (h : Hdr) (d : Opnd) (a : Src) (rm : BitVec 2) (ftz : Bool)
  /-- FRSQ. R160. -/
  | frsq (h : Hdr) (d : Opnd) (a : Src) (ftz : Bool)
  /-- FSQRT. R160. -/
  | fsqrt (h : Hdr) (d : Opnd) (a : Src) (rm : BitVec 2) (ftz : Bool)
  /-- FEXP2. R160. -/
  | fexp2 (h : Hdr) (d : Opnd) (a : Src) (ftz : Bool)
  /-- FLOG2. R160. -/
  | flog2 (h : Hdr) (d : Opnd) (a : Src) (ftz : Bool)
  /-- FSIN. R160. -/
  | fsin (h : Hdr) (d : Opnd) (a : Src) (ftz : Bool)
  /-- FCOS. R160. -/
  | fcos (h : Hdr) (d : Opnd) (a : Src) (ftz : Bool)
  /-- FTANH. R160. -/
  | ftanh (h : Hdr) (d : Opnd) (a : Src) (ftz : Bool)
  /-- CVT. R163. -/
  | cvt (h : Hdr) (d : Opnd) (a : Src) (el : BitVec 2) (dt : BitVec 4) (st : BitVec 4) (rm : BitVec 2) (ftz : Bool) (inf : Bool)
  /-- CVTX. R164. -/
  | cvtx (h : Hdr) (pd : Pred) (d : Opnd) (a : Src) (el : BitVec 2) (dt : BitVec 4) (st : BitVec 4) (rm : BitVec 2) (ftz : Bool) (inf : Bool)
  /-- CVTP. R165. -/
  | cvtp (h : Hdr) (d : Opnd) (a : Src) (b : Src) (bytes : Bool) (dt : BitVec 4) (rm : BitVec 2) (ftz : Bool) (inf : Bool)
  /-- CVTS. R167. -/
  | cvts (h : Hdr) (d : Opnd) (a : Src) (b : Opnd) (c : Opnd) (slot : BitVec 3) (rm : BitVec 2) (ftz : Bool) (inf : Bool)
  /-- CVTS_AUTO. R167. -/
  | cvtsAuto (h : Hdr) (d : Opnd) (a : Src) (b : Opnd) (c : Opnd) (slot : BitVec 3) (rm : BitVec 2) (ftz : Bool) (inf : Bool)
  /-- CVTS_DEC. R167. -/
  | cvtsDec (h : Hdr) (d : Opnd) (a : Src) (c : Opnd) (slot : BitVec 3) (rm : BitVec 2) (ftz : Bool) (inf : Bool)
  /-- RND. R169. -/
  | rnd (h : Hdr) (d : Opnd)
  /-- SHFL_IDX. R177. -/
  | shflIdx (h : Hdr) (d : Opnd) (a : Src) (b : Src) (segw : BitVec 3) (zf : Bool)
  /-- SHFL_UP. R177. -/
  | shflUp (h : Hdr) (d : Opnd) (a : Src) (b : Src) (segw : BitVec 3) (zf : Bool)
  /-- SHFL_DOWN. R177. -/
  | shflDown (h : Hdr) (d : Opnd) (a : Src) (b : Src) (segw : BitVec 3) (zf : Bool)
  /-- SHFL_XOR. R177. -/
  | shflXor (h : Hdr) (d : Opnd) (a : Src) (b : Src) (segw : BitVec 3) (zf : Bool)
  /-- VOTE_ALL. R178. -/
  | voteAll (h : Hdr) (pd : Pred) (pa : Pred) (neg : Bool)
  /-- VOTE_ANY. R178. -/
  | voteAny (h : Hdr) (pd : Pred) (pa : Pred) (neg : Bool)
  /-- VOTE_UNI. R178. -/
  | voteUni (h : Hdr) (pd : Pred) (pa : Pred) (neg : Bool)
  /-- BALLOT. R179. -/
  | ballot (h : Hdr) (d : Opnd) (pa : Pred) (neg : Bool)
  /-- BALLOT_EXEC. R179. -/
  | ballotExec (h : Hdr) (d : Opnd)
  /-- BALLOT_LIVE. R179. -/
  | ballotLive (h : Hdr) (d : Opnd)
  /-- REDUCE. R182. -/
  | reduce (h : Hdr) (d : Opnd) (a : Src) (op : BitVec 4) (rm : BitVec 2) (ftz : Bool)
  /-- SCAN. R182. -/
  | scan (h : Hdr) (d : Opnd) (a : Src) (op : BitVec 4) (rm : BitVec 2) (ftz : Bool)
  /-- SCAN_EXCL. R182. -/
  | scanExcl (h : Hdr) (d : Opnd) (a : Src) (op : BitVec 4) (rm : BitVec 2) (ftz : Bool)
  /-- MATCH. R183. -/
  | matchLanes (h : Hdr) (kind : BitVec 2) (d : Opnd) (a : Src)
  /-- COMPRESS. R184. -/
  | compress (h : Hdr) (d : Opnd) (a : Src) (pm : Pred) (neg : Bool) (z : Bool)
  /-- EXPAND. R185. -/
  | expand (h : Hdr) (d : Opnd) (a : Src) (pm : Pred) (neg : Bool) (z : Bool)
  /-- ELECT. R180. -/
  | elect (h : Hdr) (pd : Pred)
  /-- ELECT_IDX. R180. -/
  | electIdx (h : Hdr) (d : Opnd)
  /-- LD. R209. -/
  | ld (h : Hdr) (d : Opnd) (m : MemOp) (w : BitVec 3) (sx : Bool) (hint : BitVec 2)
  /-- ST. R209. -/
  | st (h : Hdr) (c : Src) (m : MemOp) (w : BitVec 3) (hint : BitVec 2)
  /-- LDV. R209. -/
  | ldv (h : Hdr) (d : Opnd) (m : MemOp) (w : BitVec 3) (hint : BitVec 2)
  /-- STV. R209. -/
  | stv (h : Hdr) (c : Src) (m : MemOp) (w : BitVec 3) (hint : BitVec 2)
  /-- LDVER. R210. -/
  | ldver (h : Hdr) (d : Opnd) (m : MemOp) (hint : BitVec 2)
  /-- ATOM. R211. -/
  | atom (h : Hdr) (d : Opnd) (base : Src) (off : Word) (qual : BitVec 3) (c : Src) (aop : BitVec 4) (scope : BitVec 3) (ord : BitVec 2) (w : BitVec 3)
  /-- ATOMF. R212. -/
  | atomf (h : Hdr) (d : Opnd) (base : Src) (off : Word) (qual : BitVec 3) (c : Src) (fop : BitVec 4) (scope : BitVec 3) (ord : BitVec 2)
  /-- RED. R213. -/
  | red (h : Hdr) (flt : Bool) (base : Src) (off : Word) (qual : BitVec 3) (c : Src) (op : BitVec 4) (scope : BitVec 3) (ord : BitVec 2) (w : BitVec 3)
  /-- FENCE_ACQ. R214. -/
  | fenceAcq (h : Hdr) (scope : BitVec 3)
  /-- FENCE_REL. R214. -/
  | fenceRel (h : Hdr) (scope : BitVec 3)
  /-- FENCE_AR. R214. -/
  | fenceAr (h : Hdr) (scope : BitVec 3)
  /-- FENCE_SC. R214. -/
  | fenceSc (h : Hdr) (scope : BitVec 3)
  /-- PTEST. R215. -/
  | ptest (h : Hdr) (pd : Pred) (m : MemOp)
  /-- CLAIM. R216. -/
  | claim (h : Hdr) (d : Opnd) (m : MemOp) (c : Src)
  /-- REGCLM. R217. -/
  | regclm (h : Hdr) (n : BitVec 9)
  /-- REGREL. R217. -/
  | regrel (h : Hdr) (n : BitVec 9)
  /-- CCTL_WB. R218. -/
  | cctlWb (h : Hdr) (m : MemOp) (hint : BitVec 2) (level : BitVec 2)
  /-- CCTL_INV. R218. -/
  | cctlInv (h : Hdr) (m : MemOp) (hint : BitVec 2) (level : BitVec 2)
  /-- CCTL_WBINV. R218. -/
  | cctlWbinv (h : Hdr) (m : MemOp) (hint : BitVec 2) (level : BitVec 2)
  /-- CCTL_RET. R218. -/
  | cctlRet (h : Hdr) (m : MemOp) (hint : BitVec 2) (level : BitVec 2)
  /-- PREF. R219. -/
  | pref (h : Hdr) (m : MemOp) (hint : BitVec 2) (level : BitVec 2)
  /-- QPUSH. R289. -/
  | qpush (h : Hdr) (e : BitVec 3) (a : Src)
  /-- QPOP. R289. -/
  | qpop (h : Hdr) (d : Opnd) (e : BitVec 3)
  /-- QTRY. R289. -/
  | qtry (h : Hdr) (d : Opnd) (e : BitVec 3) (pd : Pred)
  /-- COPY. R290. -/
  | copy (h : Hdr) (bb : Opnd) (src : Opnd) (dst : Opnd) (size : Opnd) (imm : Word)
  /-- COPY_FILL. R290. -/
  | copyFill (h : Hdr) (bb : Opnd) (pattern : Opnd) (dst : Opnd) (size : Opnd) (imm : Word)
  /-- GATHER. R290. -/
  | gather (h : Hdr) (bb : Opnd) (src : Opnd) (idx : Opnd) (dst : Opnd) (count : Opnd) (esz : BitVec 2) (imm : Word)
  /-- SCATTER. R290. -/
  | scatter (h : Hdr) (bb : Opnd) (src : Opnd) (idx : Opnd) (dst : Opnd) (count : Opnd) (esz : BitVec 2) (imm : Word)
  /-- COLLR. R290. -/
  | collr (h : Hdr) (bb : Opnd) (src : Opnd) (dst : Opnd) (group : Opnd) (rank : Opnd) (imm : Word)
  /-- COLLG. R290. -/
  | collg (h : Hdr) (bb : Opnd) (src : Opnd) (dst : Opnd) (group : Opnd) (rank : Opnd) (imm : Word)
  /-- CHUNK. R291. -/
  | chunk (h : Hdr) (d : Opnd) (base : Opnd) (off : Word)
  /-- BAR. R293. -/
  | bar (h : Hdr) (rtag : BitVec 3)
  /-- BARA. R293. -/
  | bara (h : Hdr) (rtag : BitVec 3)
  /-- BARW. R293. -/
  | barw (h : Hdr) (rtag : BitVec 3)
  /-- BBINIT. R292. -/
  | bbinit (h : Hdr) (base : Opnd) (off : Word) (c : Opnd)
  /-- BBADD. R292. -/
  | bbadd (h : Hdr) (base : Opnd) (off : Word) (c : Opnd)
  /-- BBWAIT. R292. -/
  | bbwait (h : Hdr) (base : Opnd) (off : Word)
  /-- BBWAIT_P. R292. -/
  | bbwaitP (h : Hdr) (pd : Pred) (base : Opnd) (off : Word)
  /-- SQPUSH. R294. -/
  | sqpush (h : Hdr) (q : BitVec 4) (a : Opnd)
  /-- SQPOP. R294. -/
  | sqpop (h : Hdr) (q : BitVec 4) (a : Opnd) (pd : Pred)
  /-- SQCLOSE. R294. -/
  | sqclose (h : Hdr) (q : BitVec 4)
  /-- MMA. R317. -/
  | mma (h : Hdr) (d : Tile) (a : Opnd) (b : Opnd) (c : Opnd) (slot : BitVec 3) (strides : Word)
  /-- MMAF. R317. -/
  | mmaf (h : Hdr) (kind : BitVec 2) (d : Tile) (a : Opnd) (b : Opnd) (c : Opnd) (slot : BitVec 3)
  /-- MZERO. R318. -/
  | mzero (h : Hdr) (d : Tile) (tid : Opnd)
  /-- MLD. R318. -/
  | mld (h : Hdr) (d : Tile) (base : Opnd) (tid : Opnd) (c : Opnd) (slot : BitVec 3) (stride : Word)
  /-- MST. R319. -/
  | mst (h : Hdr) (t : Tile) (base : Opnd) (c : Opnd) (slot : BitVec 3) (rm : BitVec 2) (inf : Bool) (stride : Word)
  /-- MST_AUTO. R319. -/
  | mstAuto (h : Hdr) (t : Tile) (base : Opnd) (c : Opnd) (slot : BitVec 3) (rm : BitVec 2) (inf : Bool) (stride : Word)
  /-- MCVT. R320. -/
  | mcvt (h : Hdr) (d : Tile) (t : Tile) (slot : BitVec 3)
  /-- MTRN. R320. -/
  | mtrn (h : Hdr) (d : Tile) (t : Tile)
  /-- MADD. R320. -/
  | madd (h : Hdr) (d : Tile) (a : Tile) (b : Tile)
  /-- MADD_I. R320. -/
  | maddI (h : Hdr) (d : Tile) (a : Tile) (b : Tile)
  /-- MSCL. R320. -/
  | mscl (h : Hdr) (d : Tile) (t : Tile) (f : CoefOp)
  /-- MSYNC. R322. -/
  | msync (h : Hdr)
  /-- MROW. R321. -/
  | mrow (h : Hdr) (d : Opnd) (t : Tile) (row : Opnd)
  /-- MLIC_ACQ. R323. -/
  | mlicAcq (h : Hdr)
  /-- MLIC_TRY. R323. -/
  | mlicTry (h : Hdr) (pd : Pred)
  /-- MLIC_REL. R323. -/
  | mlicRel (h : Hdr)
  /-- MLIC_GIVE. R323. -/
  | mlicGive (h : Hdr)
  /-- TWIN. R324. -/
  | twin (h : Hdr) (slot : SlotOp) (b : BitVec 8)
  /-- TWIN_OFF. R311. -/
  | twinOff (h : Hdr)
  /-- TXCH. R325. -/
  | txch (h : Hdr) (d : BitVec 8) (y : BitVec 5) (pat : Pat)
  /-- MPOLY. R333. -/
  | mpoly (h : Hdr) (d : Tile) (x : Tile) (n : BitVec 4) (slot : BitVec 3)
  /-- MITER. R331. -/
  | miter (h : Hdr) (kind : BitVec 2) (x : Tile) (w : Tile) (limit : LimOp) (pd : Pred) (slot : BitVec 3) (wide : Bool) (pf : Bool)
  /-- MRES. R336. -/
  | mres (h : Hdr) (kind : BitVec 2) (d : Opnd) (x : Tile) (w : Tile) (slot : BitVec 3) (wide : Bool)
  /-- MCOEF. R337. -/
  | mcoef (h : Hdr) (n : BitVec 4) (base : Opnd) (off : Word) (cnt : BitVec 5)
  /-- MCOEF_S. R337. -/
  | mcoefS (h : Hdr) (n : BitVec 4) (a : Opnd)
  /-- MLS. R338. -/
  | mls (h : Hdr) (d : Opnd)
  /-- MLSW. R338. -/
  | mlsw (h : Hdr) (a : Opnd)
  /-- WBEGIN. R369. -/
  | wbegin (h : Hdr) (cls : BitVec 4) (cnt : LimOp)
  /-- WEMIT. R369. -/
  | wemit (h : Hdr) (a : Src)
  /-- WEND. R369. -/
  | wend (h : Hdr)
  /-- WEND_R. R369. -/
  | wendR (h : Hdr)
  /-- WDIG_ADD. R370. -/
  | wdigAdd (h : Hdr) (a : Src)
  /-- WDIG_EMIT. R370. -/
  | wdigEmit (h : Hdr)
  /-- WDIG_CLR. R370. -/
  | wdigClr (h : Hdr)
  /-- STGSEAL. R371. -/
  | stgseal (h : Hdr) (d : Option (BitVec 6))
  /-- CHKERR. R372. -/
  | chkerr (h : Hdr) (d : Opnd)
  /-- CHKERR_CLR. R372. -/
  | chkerrClr (h : Hdr) (d : Opnd)
  /-- RLOG_ON. R373. -/
  | rlogOn (h : Hdr)
  /-- RLOG_OFF. R373. -/
  | rlogOff (h : Hdr)
  /-- RELREQ. R374. -/
  | relreq (h : Hdr) (d : Opnd) (m : MemOp) (c : Src)
  /-- VSTAT. R375. -/
  | vstat (h : Hdr) (d : Opnd) (m : MemOp)
  /-- TRAP. R385. -/
  | trap (h : Hdr) (code : BitVec 8) (imm : Word)
  /-- RFT_NEXT. R386. -/
  | rftNext (h : Hdr)
  /-- RFT_REGION. R386. -/
  | rftRegion (h : Hdr)
  /-- RFT_RETRY. R386. -/
  | rftRetry (h : Hdr)
  /-- BRK. R387. -/
  | brk (h : Hdr) (code : BitVec 8)
  /-- SNAP. R388. -/
  | snap (h : Hdr)
  /-- SETSR. R389. -/
  | setsr (h : Hdr) (num : BitVec 8) (b : SrcB)
  /-- TLBINV_PAGE. R390. -/
  | tlbinvPage (h : Hdr) (base : Opnd) (off : Word)
  /-- TLBINV_RANGE. R390. -/
  | tlbinvRange (h : Hdr) (base : Opnd) (off : Word) (c : Opnd)
  /-- TLBINV_CTX. R390. -/
  | tlbinvCtx (h : Hdr)
  /-- QUIESCE. R391. -/
  | quiesce (h : Hdr)
  /-- PAIR_WORD. R51-R54: two slot operations in one word. -/
  | pairWord (stall : BitVec 4) (s0 : PSlot) (s1 : PSlot)
  /-- UNASSIGNED_MAJOR_OPCODE. R56, R31: an unassigned or reserved major, or a bad 0b00 word. -/
  | unassignedMajor (len : BitVec 2) (w : BitVec 128)
  -- steps of the machine that no word encodes
  /-- WAVE_SLOT_FREE. R111: an exited wave's slot and lines are freed. -/
  | waveSlotFree (core : Nat) (slot : Nat)
  /-- MWAIT_WAKE. R117: a parked thread whose flag is set wakes. -/
  | mwaitWake (tag : Nat) (wave : Nat) (lane : Nat)
  /-- MWAIT_LIMIT. R117: the limit of a parked thread is reached. -/
  | mwaitLimit (tag : Nat) (wave : Nat) (lane : Nat)
  /-- VARIABLE_RESULT_COMMIT. R48: a variable-latency result commits. -/
  | variableResultCommit (core : Nat) (id : Nat)
  /-- BARRIER_RELEASE. R280: the waiting threads of a completed episode are released. -/
  | barrierRelease (lnch : Nat) (rtag : Nat)
  /-- BBWAIT_WAKE. R277: parked waiters of an object whose COUNT is at or below zero become ready. -/
  | bbwaitWake (addr : Nat)
  /-- STAGE_QUEUE_SERVE. R283: the front die serves a queue's lists. -/
  | stageQueueServe (lnch : Nat) (q : Nat)
  /-- ARRAY_PHASE_START. R295: the head of a matrix queue starts its array phase. -/
  | arrayPhaseStart (core : Nat)
  /-- ARRAY_PHASE_END. R296: the array phase ends and the instruction completes. -/
  | arrayPhaseEnd (core : Nat)
  /-- PIN_GRANT. R198: a slice grants the first queued pin request. -/
  | pinGrant (slice : Nat)
  /-- LICENCE_WAKE_END. R307: WAKE(X) becomes HELD(X). -/
  | licenceWakeEnd (pair : Nat)
  /-- LICENCE_DRAIN_END. R307: DRAIN(X) ends. -/
  | licenceDrainEnd (pair : Nat)
  /-- TWIN_LINE_REFILLED. R248: a twin access to a refilled line proceeds. -/
  | twinLineRefilled (tag : Nat) (wave : Nat) (reg : Nat)
  /-- ITERATION_STEP_END. R331: one step of the running MITER or MPOLY ends. -/
  | iterationStepEnd (core : Nat)
  /-- SEAL_POINT. R349: every wave has arrived; versions are sealed. -/
  | sealPoint (lnch : Nat)
  /-- REGROUP_BOUNDARY. R88: every 4 clk the core forms groups and serves the claim queue. -/
  | regroupBoundary (core : Nat)
  /-- CONVERGENCE_TIMEOUT. R96: the convergence timer exceeds its bound. -/
  | convergenceTimeout (tag : Nat) (wave : Nat)
  /-- ENGINE_COMMAND_ACCEPT. R263: an engine takes a whole command. -/
  | engineCommandAccept (core : Nat) (slot : Nat) (q : BitVec 3)
  /-- ENGINE_COPY. R267. -/
  | engineCopy (core : Nat) (id : Nat)
  /-- ENGINE_FILL. R267. -/
  | engineFill (core : Nat) (id : Nat)
  /-- ENGINE_COPY_2D. R267. -/
  | engineCopy2d (core : Nat) (id : Nat)
  /-- ENGINE_GATHER. R268. -/
  | engineGather (core : Nat) (id : Nat)
  /-- ENGINE_SCATTER. R268. -/
  | engineScatter (core : Nat) (id : Nat)
  /-- COLLECTIVE_REDUCE. R271. -/
  | collectiveReduce (core : Nat) (id : Nat)
  /-- COLLECTIVE_GATHER_ACROSS_RANKS. R271. -/
  | collectiveGather (core : Nat) (id : Nat)
  /-- ENGINE_CHUNK. R274. -/
  | engineChunk (core : Nat) (id : Nat)
  /-- STAGE_PUSH_FROM_MEMORY. R283. -/
  | stagePushFromMemory (core : Nat) (id : Nat)
  /-- STAGE_CLOSE. R283. -/
  | stageClose (core : Nat) (id : Nat)
  /-- STAGE_POP_TO_MEMORY. R283. -/
  | stagePopToMemory (core : Nat) (id : Nat)
  /-- BYTE_LANDING. R244: one element of a command lands. -/
  | byteLanding (core : Nat) (id : Nat) (idx : Nat)
  /-- ENGINE_COMMAND_COMPLETE. R266. -/
  | engineCommandComplete (core : Nat) (id : Nat)
  /-- ENGINE_FAULT. R285: an accepted command faults. -/
  | engineFault (core : Nat) (id : Nat)
  /-- ENGINE_FAULT_TAKEN. R285: the pusher takes a held fault. -/
  | engineFaultTaken (tag : Nat) (wave : Nat) (lane : Nat)
  /-- REGISTER_LINE_REFILL. R191. -/
  | registerLineRefill (tag : Nat) (wave : Nat) (reg : Nat)
  /-- STAGING_READ_RESUME. R253: parked reads of a page choose again. -/
  | stagingReadResume (page : Nat)
  /-- FRAME_FREE_WRITE_RESUME. R345: a write waiting for a frame resumes. -/
  | frameFreeWriteResume (page : Nat)
  /-- LAUNCH. R416. -/
  | launch (slot : Nat)
  /-- TEAM_PLACE. R418. -/
  | teamPlace (lnch : Nat)
  /-- NOISE_HEALTH_FAIL. R168: a health test fails and the source is marked failed. -/
  | noiseHealthFail (core : Nat)
  /-- PAGE_DRAIN_END. R200: every earlier access to a migrating page has been performed. -/
  | pageDrainEnd (page : Nat)
  /-- PAGE_COPY_COMPLETE. R200: the copy ends and the page switches. -/
  | pageCopyComplete (page : Nat)
  /-- SCOREBOARD_MISMATCH. R105: the two scoreboard copies disagree. -/
  | scoreboardMismatch (core : Nat)
  /-- HBM_MASKED_WRITE. R201: a narrow write merges at the base die. -/
  | hbmMaskedWrite (sector : Nat)
  /-- QUIESCENCE_PUBLISH. R258: the front die publishes Q. -/
  | quiescencePublish
  /-- SEALED_BOUND_ROOM. R346: room under the SEALED bound. -/
  | sealedBoundRoom (lnch : Nat)
  /-- EPOCH_PASS. R361. -/
  | epochPass (lnch : Nat) (epoch : Nat)
  /-- VERSION_CHECKED. R361. -/
  | versionChecked (page : Nat) (num : Nat)
  /-- EPOCH_FAIL. R362. -/
  | epochFail (lnch : Nat) (epoch : Nat)
  /-- DISCARDED_LAUNCH_RERUN. R462. -/
  | discardedLaunchRerun (lnch : Nat)
  /-- RELEASE_GRANT. R366: a waiting release request is served. -/
  | releaseGrant (id : Nat)
  /-- HOST_READ. R365. -/
  | hostRead (addr : Nat) (n : Nat)
  /-- EGRESS_TRANSFER. R434. -/
  | egressTransfer (id : Nat)
  /-- STALL_EPISODE_END. R434. -/
  | stallEpisodeEnd (cls : Nat)
  /-- NOTIFY_WRITE. R410. -/
  | notifyWrite (q : Nat) (widx : Word)
  /-- PENDING_SCAN. R411. -/
  | pendingScan
  /-- TIME_SLICE_END. R411. -/
  | timeSliceEnd (slot : Nat)
  /-- ROUTE_TAG_GRANT. R279. -/
  | routeTagGrant (lnch : Nat)
  /-- ARGUMENT_COPY_COMPLETE. R123. -/
  | argumentCopyComplete (lnch : Nat)
  /-- LAUNCH_COMPLETE. R462. -/
  | launchComplete (lnch : Nat)
  /-- WAITV. R414. -/
  | waitv (slot : Nat)
  /-- WAITV_CONDITION_HOLDS. R414. -/
  | waitvConditionHolds (slot : Nat)
  /-- SIGNAL_WRITE. R413. -/
  | signalWrite (slot : Nat)
  /-- SIGNAL_ATOMIC_ADD. R413. -/
  | signalAtomicAdd (slot : Nat)
  /-- SIGNAL_BBADD. R413. -/
  | signalBbadd (slot : Nat)
  /-- TENANT_RECORD_WRITE. R408. -/
  | tenantRecordWrite (slot : Nat)
  /-- TENANT_RESET. R409. -/
  | tenantReset (slot : Nat)
  /-- COPYQ. R414. -/
  | copyq (slot : Nat)
  /-- RELEASE. R413. -/
  | release (slot : Nat)
  /-- BARQ. R413. -/
  | barq (slot : Nat)
  /-- NOPQ. R413. -/
  | nopq (slot : Nat)
  /-- EQHEAD_WRITE. R422. -/
  | eqheadWrite (val : Word)
  /-- FEATACC_WRITE. R420. -/
  | feataccWrite (idx : BitVec 2) (val : Word)
  /-- HOST_REGISTER_WRITE. R424. -/
  | hostRegisterWrite (off : Nat) (val : HostData)
  /-- JOURNAL_ACK. R424. -/
  | journalAck (val : Nat)
  /-- FAULT_RECORD_ACK. R424. -/
  | faultRecordAck (val : Nat)
  /-- CHECKPOINT_REQUEST. R437. -/
  | checkpointRequest (val : DWord)
  /-- JOURNAL_CHECKPOINT. R437. -/
  | journalCheckpoint
  /-- WITNESS_FAULT_INJECTION_WRITE. R355. -/
  | witnessFaultInjectionWrite (val : BitVec 96)
  /-- POWER_ON. R426. -/
  | powerOn (objs : List BootObject)
  /-- GET_VERSION. R427. -/
  | getVersion
  /-- GET_CAPABILITIES. R427. -/
  | getCapabilities
  /-- NEGOTIATE_ALGORITHMS. R427. -/
  | negotiateAlgorithms
  /-- GET_DIGESTS. R427. -/
  | getDigests
  /-- GET_CERTIFICATE. R427. -/
  | getCertificate (certSlot : Nat)
  /-- CHALLENGE. R427. -/
  | challenge (ask : SpdmAsk)
  /-- GET_MEASUREMENTS. R427. -/
  | getMeasurements (index : Nat)
  /-- KEY_EXCHANGE. R427. -/
  | keyExchange (ask : SpdmAsk)
  /-- FINISH. R427. -/
  | finish
  /-- SEALED_REGION_IMPORT. R429. -/
  | sealedRegionImport (req : ImportReq)
  /-- IMPORT_CHUNK. R429. -/
  | importChunk (region : Nat) (ingress : Nat) (tagHi : DWord) (tagLo : DWord)
  /-- REGION_REVOKE. R430. -/
  | regionRevoke (region : Nat) (signer : Option (BitVec 512))
  /-- CAPABILITY_ISSUE. R431. -/
  | capabilityIssue (cap : BitVec 512) (signers : List (BitVec 512))
  /-- DOMAIN_ADMIT. R435. -/
  | domainAdmit (peer : BitVec 12) (proof : PeerProof)
  /-- DOMAIN_KEY_REPLACEMENT. R435. -/
  | domainKeyReplacement
  /-- OLD_KEY_EXPIRY. R435. -/
  | oldKeyExpiry
  /-- DOMAIN_LEAVE. R435. -/
  | domainLeave (peer : BitVec 12)
  /-- LINK_FLIT_GROUP_RECEIVE. R435. -/
  | linkFlitGroupReceive (g : FlitGroup)
  /-- LINK_RECOVERY_PENDING. R402. -/
  | linkRecoveryPending (peer : BitVec 12)
  /-- RESPONSE_TIMEOUT. R402. -/
  | responseTimeout (id : Nat)
  /-- REMOTE_RECOVERY_TIMEOUT. R402. -/
  | remoteRecoveryTimeout (id : Nat)
  /-- DRIVER_MAP_ANSWER. R380. -/
  | driverMapAnswer (tag : Nat) (wave : Nat) (lane : Nat) (mapped : Bool)
  /-- SNAPSHOT_INTERVAL. R392. -/
  | snapshotInterval (tag : Nat)
  /-- PAIR_POINT_COMPARE. R394. -/
  | pairPointCompare (tag : Nat) (wave : Nat)
  /-- DEBUGGER_ATTACH. R2. -/
  | debuggerAttach (die : Nat)
  /-- DEBUGGER_DETACH. R2. -/
  | debuggerDetach (die : Nat)
  /-- DEBUGGER_HALT. R403. -/
  | debuggerHalt (die : Nat)
  /-- DEBUGGER_RESUME. R403. -/
  | debuggerResume (die : Nat)
  /-- DEBUGGER_STEP. R404. -/
  | debuggerStep (core : Nat) (slot : Nat)
  /-- TRACE_CONFIG. R405. -/
  | traceConfig (die : Nat) (cores : List Nat) (lnch : Option Nat) (slot : Option Nat)
  /-- DIE_FAILURE. R406. -/
  | dieFailure (die : Nat) (reachable : Bool)
  /-- LINK_FAILURE. R406. -/
  | linkFailure (die : Nat)
  /-- SENSOR_READING. R454. -/
  | sensorReading (pair : Nat) (upper : BitVec 12) (lower : BitVec 12)
  /-- POOL_SAMPLE, the sample of one tick of 10 µs of front-die time. R445. -/
  | poolSample (tick : Nat)
  /-- VOLTAGE_STEP_COMPLETE. R447. -/
  | voltageStepComplete (cluster : Nat)
  /-- CLOCK_SWITCH_COMPLETE. R447. -/
  | clockSwitchComplete (cluster : Nat) (fifoMax : BitVec 8)
  /-- CURRENT_ESTIMATE. R452. -/
  | currentEstimate (milliAmps : Nat) (tenant : Nat)
  /-- HOST_WRITE. R202. -/
  | hostWrite (addr : Nat) (bytes : List Byte)
  /-- L2_MODE_CHANGE_COMPLETE. R196. -/
  | l2ModeChangeComplete
  deriving DecidableEq, Repr

end Sys2Proof
end

