-- ==== Sys2Proof/WellFormed.lean ====
section
/-!
DEFINITION. Sys2Proof/WellFormed.lean: which instruction terms stand for a word of the ES1 (02 R36-R43, R51-R53 and the
encoding tables of the class chapters). Whatever depends on a wave, a launch or the accepted features is checked at
issue (Machine/Operands.lean), not here.
-/

namespace Sys2Proof

/-! ## Operand kinds -/

def Opnd.isV : Opnd → Bool | .v _ => true | _ => false
def Opnd.isS : Opnd → Bool | .s _ => true | _ => false
def Opnd.isY : Opnd → Bool | .y _ => true | _ => false
def Opnd.isE : Opnd → Bool | .e _ => true | _ => false
def Opnd.isC : Opnd → Bool | .c _ => true | _ => false

/-- `v` or `s`. -/
def Opnd.isVS (o : Opnd) : Bool := o.isV || o.isS
/-- `s` or an inline constant (10 R288, 11 R315). -/
def Opnd.isSC (o : Opnd) : Bool := o.isS || o.isC
/-- The inline constant 0, value 360. -/
def Opnd.zero : Opnd := .c 0
/-- The all-zero operand field, which names `v0` where a register is read and nothing where the field is unused. -/
def Opnd.unused : Opnd := .v 0
/-- The all-zero source field. -/
def Src.unused : Src := ⟨.v 0, .ident⟩

/-- The register number of a `v` or `s` operand is a multiple of `n` (02 R41, 08 R204). -/
def Opnd.aligned (n : Nat) : Opnd → Bool
  | .v k => k.toNat % n == 0
  | .s k => k.toNat % n == 0
  | .y _ => n == 1
  | .e _ => n == 1
  | .c _ => n ≤ 2

/-- An even `s` pair (10 R288, 11 R315). -/
def Opnd.isSPair : Opnd → Bool
  | .s k => k.toNat % 2 == 0
  | _ => false

/-- An even `s` pair, or the inline constant 0, which names no barrier (10 R288). -/
def Opnd.isBarrier : Opnd → Bool
  | .s k => k.toNat % 2 == 0
  | .c k => k == 0
  | _ => false

/-- An `s` register whose number is a multiple of four: `CHUNK`, `MLS`, `MLSW` (10 R291, 12 R338). -/
def Opnd.isSQuad : Opnd → Bool
  | .s k => k.toNat % 4 == 0
  | _ => false

/-- A crossbar parameter is legal for its pattern (02 Table 2.5). -/
def Pat.ok : Pat → Bool
  | .mir k => decide (1 ≤ k.toNat) && decide (k.toNat ≤ 5)
  | _ => true

/-- A source: its pattern is legal, stands on a `v` or `y` only (02 R42), and its `n` registers are aligned (R41). -/
def Src.ok (n : Nat) (a : Src) : Bool :=
  a.pat.ok && (a.pat == .ident || a.reg.isV || a.reg.isY) && a.reg.aligned n

/-- Source B: a legal source below 128 bits and IMM at 128 bits (02 R39, 05 R127). -/
def SrcB.ok (l : Len) (n : Nat) : SrcB → Bool
  | .reg a => a.ok n && decide (l ≠ .w128)
  | .imm _ => decide (l = .w128)

/-- A destination is no inline constant (02 Table 2.4), and its `n` registers are aligned. -/
def Opnd.dstOk (n : Nat) (d : Opnd) : Bool := !d.isC && d.aligned n && !(d.isE && d == .e 7)

/-- A queue register that a word may be popped from (10 Table 10.1). -/
def Opnd.popOk : Opnd → Bool
  | .e n => n == 3 || n == 5 || n == 6 || n == 7
  | _ => true

/-- The `e` operands of an instruction: at most one (10 R262), popped only where Table 10.1 allows. -/
def queueOk (srcs : List Opnd) (d : Option Opnd) : Bool :=
  srcs.all Opnd.popOk && decide ((srcs.filter Opnd.isE).length + (if d.any Opnd.isE then 1 else 0) ≤ 1)

def SrcB.regs : SrcB → List Opnd
  | .reg a => [a.reg]
  | .imm _ => []

/-! ## Shapes shared by the entries -/

/-- No `y` and no `e` (08 R204). -/
def Src.plain (a : Src) : Bool := !a.reg.isY && !a.reg.isE
/-- No `e` (07 R174). -/
def Src.noE (a : Src) : Bool := !a.reg.isE

/-- d, a, b of the arithmetic classes, over `nd`, `na` and `nb` registers. -/
def okDAB (h : Hdr) (nd na nb : Nat) (d : Opnd) (a : Src) (b : SrcB) : Bool :=
  d.dstOk nd && a.ok na && b.ok h.len nb && queueOk (a.reg :: b.regs) (some d)

/-- d, a, b, c of the arithmetic classes. -/
def okDABC (h : Hdr) (nd na nb nc : Nat) (d : Opnd) (a : Src) (b : SrcB) (c : Src) : Bool :=
  d.dstOk nd && a.ok na && b.ok h.len nb && c.ok nc && queueOk (a.reg :: c.reg :: b.regs) (some d)

/-- d, a. -/
def okDA (nd na : Nat) (d : Opnd) (a : Src) : Bool :=
  d.dstOk nd && a.ok na && queueOk [a.reg] (some d)

/-- A comparison's sources and fold: COMB 0 takes no source predicate and no negation (05 R138). -/
def okCmp (h : Hdr) (n : Nat) (a : Src) (b : SrcB) (pc : Pred) (comb : BitVec 2) (cneg : Bool) : Bool :=
  a.ok n && b.ok h.len n && queueOk (a.reg :: b.regs) none &&
    (comb != 0 || (pc == 0 && !cneg))

/-- A memory operand (08 R187, R204): base an even pair or the constant 0, index a `v`, `s`, pair or constant,
SCALE 0-4, QUAL 0-5, an offset only at 128 bits. -/
def MemOp.ok (l : Len) (m : MemOp) : Bool :=
  m.base.ok 2 && m.base.plain && (!m.base.reg.isC || m.base.reg == .zero) &&
  m.index.ok (if m.idx64 then 2 else 1) && m.index.plain &&
  decide (m.scale.toNat ≤ 4) && decide (m.qual.toNat ≤ 5) && (l == .w128 || m.off == 0)

/-- A memory operand limited to QUAL 0, `.g` and, where `lOk`, `.l`. -/
def MemOp.qualIn (m : MemOp) (qs : List Nat) : Bool := qs.contains m.qual.toNat

/-- The data or destination registers of a memory instruction: `v` or `s`, aligned to their number. -/
def Opnd.memReg (n : Nat) (o : Opnd) : Bool := o.isVS && o.aligned n
def Src.memData (n : Nat) (a : Src) : Bool := a.ok n && a.plain

/-- An `[sA + off]` operand of the engine class: an even `s` pair, an offset only at 128 bits (10 R288). -/
def okBaseOff (l : Len) (base : Opnd) (off : Word) : Bool :=
  base.isSPair && (l == .w128 || off == 0)

/-- 96 or 128 bits. -/
def Len.mem (l : Len) : Bool := l != .w64

/-- IMM of the push forms (10 R288): bits 17:0 zero, SCOPE below 7. -/
def okPushImm (imm : Word) : Bool :=
  imm.toNat % 2 ^ 18 == 0 && decide ((imm.toNat >>> 21) % 8 ≠ 7)

/-- SHFL (07 R175, R176): a 64-bit form is SEGW 5 without ZF. -/
def okShfl (h : Hdr) (d : Opnd) (a b : Src) (segw : BitVec 3) (zf : Bool) : Bool :=
  d.dstOk 1 && !d.isE && a.ok 1 && a.noE && b.ok 1 && b.noE &&
    (match h.len with
     | .w64 => segw == 5 && !zf
     | .w96 => decide (1 ≤ segw.toNat) && decide (segw.toNat ≤ 5)
     | .w128 => false)

/-- REDUCE and SCAN (07 R176): OP 0-10, RM and FTZ on the float operations only. -/
def okTree (h : Hdr) (d : Opnd) (a : Src) (op : BitVec 4) (rm : BitVec 2) (ftz : Bool) : Bool :=
  h.len == .w96 && d.dstOk 1 && !d.isE && a.ok 1 && a.noE && decide (op.toNat ≤ 10) &&
    (decide (8 ≤ op.toNat) || (rm == 0 && !ftz))

/-- Widths of ATOM operations (08 Table 8.8). -/
def okAtomW (aop : BitVec 4) (w : BitVec 3) : Bool :=
  if aop.toNat == 8 || aop.toNat == 9 then decide (2 ≤ w.toNat) && decide (w.toNat ≤ 4)
  else decide (aop.toNat ≤ 11) && (w == 2 || w == 3)

/-- An atomic's base: an even pair or the constant 0; no index; QUAL 0-5; offset only at 128 bits. -/
def okAtomBase (l : Len) (base : Src) (off : Word) (qual : BitVec 3) : Bool :=
  base.ok 2 && base.plain && (!base.reg.isC || base.reg == .zero) &&
  decide (qual.toNat ≤ 5) && (l == .w128 || off == 0)

/-- A conversion's type codes (06 Table 6.7, R163): codes 0-11, an element index the source has, INF on `dm8` only,
pairs for 64-bit types. -/
def typeRegs (t : BitVec 4) : Nat := if 10 ≤ t.toNat then 2 else 1
def okCvt (d : Opnd) (a : Src) (el : BitVec 2) (dt st : BitVec 4) (inf : Bool) : Bool :=
  decide (dt.toNat ≤ 11) && decide (st.toNat ≤ 11) &&
  (if 3 ≤ st.toNat && st.toNat ≤ 5 then true
   else if (1 ≤ st.toNat && st.toNat ≤ 2) || (6 ≤ st.toNat && st.toNat ≤ 7) then decide (el.toNat ≤ 1) else el == 0) &&
  (!inf || dt == 3) && okDA (typeRegs dt) (typeRegs st) d a

/-- A special-function form (06 Table 6.3): 64 bits carries no RM and no FTZ. -/
def okSfu (h : Hdr) (d : Opnd) (a : Src) (rm : BitVec 2) (ftz : Bool) : Bool :=
  (h.len == .w96 || (h.len == .w64 && rm == 0 && !ftz)) && okDA 1 1 d a

/-- The optional modifier fields are absent at 64 bits. -/
def noMod (h : Hdr) (b : Bool) : Bool := h.len != .w64 || b

/-- The destination of CVTS, which its slot's BLOCK sizes at issue: an operand that may be written. -/
def okCvts (h : Hdr) (d : Opnd) (a : Src) : Bool :=
  h.len == .w96 && d.dstOk 1 && a.ok 1 && queueOk [a.reg] (some d)

/-- A stride of MLD and MST: given at 128 bits, a multiple of 32 bytes (11 Table 11.7). -/
def okStride (l : Len) (n : Word) : Bool := (l == .w128 || n == 0) && n.toNat % 32 == 0

/-- The scale operand field of a matrix instruction: an even `s` pair, or the unused field (which one, the slot says). -/
def okScale (c : Opnd) : Bool := c.isSPair || c == .unused

/-- An operand of MMAF: a tile number in bits 2:0, or an even `s` pair (11 R315). -/
def tileOpnd (o : Opnd) : Bool :=
  match o with
  | .v n => decide (n.toNat ≤ 7)
  | _ => false

/-- Tiles from `w` that MITER and MRES use beside X (12 Table 12.2): the working tiles, then the ping tiles. -/
def miterGroup (kind : BitVec 2) (wide : Bool) : Nat :=
  match kind.toNat with
  | 0 => if wide then 3 else 2
  | 1 => if wide then 4 else 3
  | 2 => 3
  | _ => 4

/-- Tiles from `w` of the initial phase alone (12 R336, R341). -/
def mresGroup (kind : BitVec 2) : Nat :=
  match kind.toNat with
  | 0 => 1
  | 1 => 1
  | 2 => 2
  | _ => 3

/-- The tile rules of 12 R341. -/
def okTiles (x w : Tile) (wide : Bool) (n : Nat) : Bool :=
  (!wide || x.toNat % 2 == 0) && decide (w.toNat + n ≤ 8) &&
  (let xs := if wide then [x.toNat, x.toNat + 1] else [x.toNat]
   xs.all (fun t => decide (t < w.toNat) || decide (w.toNat + n ≤ t)))

/-! ## Pair slots (02 R51-R53) -/

/-- Sources a slot opcode uses: 0 none, 1 A, 2 A and B, 3 A, B and C; `none` for an unassigned opcode (Table 2.12). -/
def slotSources (op : Nat) : Option Nat :=
  if op = 0 then some 0
  else if op = 4 ∨ op = 9 ∨ op = 0x13 then some 3
  else if (1 ≤ op ∧ op ≤ 8) ∨ (0x10 ≤ op ∧ op ≤ 0x1D) ∨ op = 0x24 ∨ op = 0x25 then some 2
  else if (0x20 ≤ op ∧ op ≤ 0x23) ∨ op = 0x30 then some 1
  else none

/-- The operands a slot reads. -/
def PSlot.reads (s : PSlot) : List Opnd :=
  match slotSources s.sop.toNat with
  | some 1 => [s.sa]
  | some 2 => [s.sa, s.sb]
  | some 3 => [s.sa, s.sb, s.sc]
  | _ => []

/-- A slot that is an operation, not a slot NOP. -/
def PSlot.isOp (s : PSlot) : Bool := s.sop != 0

/-- Encoding rules of one slot (R35 rule 7): an assigned opcode, unused sources zero, SMOD [2:0] zero, no SMOD on the
integer and move opcodes, no constant destination, and every other field zero in a slot NOP. Rounding bits of an FMIN or
FMAX slot are accepted, and ignored (log 55). -/
def PSlot.encOk (s : PSlot) : Bool :=
  match slotSources s.sop.toNat with
  | none => false
  | some n =>
    (decide (1 ≤ n) || s.sa == .unused) && (decide (2 ≤ n) || s.sb == .unused) && (decide (3 ≤ n) || s.sc == .unused) &&
    s.smod.toNat % 8 == 0 &&
    (if (0x10 ≤ s.sop.toNat && s.sop.toNat ≤ 0x1D) || s.sop.toNat == 0x30 then s.smod == 0 else true) &&
    (if s.sop == 0 then s.sd == .unused && s.smod == 0 && s.guard == 0 && !s.gneg else !s.sd.isC)

/-- The slots an opcode is allowed in (Table 2.12). -/
def slotAllowed (k : Nat) (op : Nat) : Bool :=
  if k = 0 then decide (op ≤ 9) || (decide (0x10 ≤ op) && decide (op ≤ 0x1D))
  else op == 0 || decide (0x10 ≤ op)

/-- The static pairing rules of R53. -/
def pairOk (s0 s1 : PSlot) : Bool :=
  let rs := ((s0.reads ++ s1.reads).filter Opnd.isVS).dedup
  let vs := rs.filterMap (fun o => match o with | .v n => some (n.toNat % 8) | _ => none)
  slotAllowed 0 s0.sop.toNat && slotAllowed 1 s1.sop.toNat &&
  (s0.reads ++ s1.reads).all (fun o => o.isVS || o.isC) &&
  (!s0.isOp || s0.sd.isVS) && (!s1.isOp || s1.sd.isVS) &&
  decide (rs.length ≤ 4) && decide (vs.Nodup) &&
  (!s0.isOp || !s1.isOp || s0.sd != s1.sd)

/-! ## Well-formed instructions -/

/-- Numbers `GETSR` may read: Table 5.1 and Table 14.2. -/
def okGetsr (n : Nat) : Bool := decide (n ≤ 0x1D) || (decide (0x20 ≤ n) && decide (n ≤ 0x2F))

/-- Numbers `SETSR` may write (14 R389): RSSLO, RSSHI, RSPTRH, TNPCLO, TNPCHI, TSCR. -/
def okSetsr (n : Nat) : Bool := [0x10, 0x11, 0x12, 0x23, 0x24, 0x2F].contains n

/-- Majors no instruction has (02 Table 2.14), or the reserved block. -/
def majorUnassigned (m : Nat) : Bool :=
  (decide (0x0E ≤ m) && decide (m ≤ 0x1F)) || (decide (0x46 ≤ m) && decide (m ≤ 0x4F)) ||
  (decide (0x6D ≤ m) && decide (m ≤ 0x7F)) || (decide (0x89 ≤ m) && decide (m ≤ 0x8F)) ||
  (decide (0x9F ≤ m) && decide (m ≤ 0xAF)) || (decide (0xCE ≤ m) && decide (m ≤ 0xD7)) ||
  (decide (0xDE ≤ m) && decide (m ≤ 0xDF)) || m == 0xEF
def majorReserved (m : Nat) : Bool := decide (0xF0 ≤ m) && decide (m ≤ 0xFE)

/-- The pad word (02 Table 2.1). -/
def padWord : Nat := 0xFFFFFFFC

/-- The instruction is one that some word of the ES1 encodes, with every static operand rule of its entry.
Events, which no word encodes, are not. -/
def Instr.wf : Instr → Bool
  -- control (04 Table 4.6)
  | .bra h _ | .call h _ => h.len == .w128
  | .bri h a | .calli h a => h.len == .w64 && a.ok 2 && !a.reg.isY && !a.reg.isE
  | .ret h | .exit h | .coll h | .region h => h.len == .w64
  | .nop _ => true
  | .stall h _ | .yield h _ => h.len == .w64
  | .marm h m _ => h.len.mem && m.ok h.len
  | .mwaitT h n => h.len == .w64 && decide (1 ≤ n.toNat) && decide (n.toNat ≤ 1024)
  | .mwaitP h _ n => h.len == .w64 && decide (1 ≤ n.toNat) && decide (n.toNat ≤ 1024)
  | .waitsb h mask => h.len == .w64 && mask != 0
  -- integer (05 Table 5.5)
  | .iadd h d a b sat zx co | .isub h d a b sat zx co =>
    noMod h (!sat && !zx && co == 0) && (!zx || sat) && okDAB h 1 1 1 d a b
  | .iaddc h d a b _ _ => h.len.mem && okDAB h 1 1 1 d a b
  | .imul h d a b sat zx => noMod h (!sat && !zx) && (!zx || sat) && okDAB h 1 1 1 d a b
  | .imulh h d a b zx => noMod h (!zx) && okDAB h 1 1 1 d a b
  | .imad h d a b c sat zx => h.len.mem && (!zx || sat) && okDABC h 1 1 1 1 d a b c
  | .imadw h d a b c _ => h.len.mem && okDABC h 2 1 1 2 d a b c
  | .iadd64 h d a b co | .isub64 h d a b co => noMod h (co == 0) && okDAB h 2 2 2 d a b
  | .imin h d a b zx | .imax h d a b zx => noMod h (!zx) && okDAB h 1 1 1 d a b
  | .iabs h d a | .ineg h d a | .not h d a | .popc h d a | .clz h d a | .ctz h d a | .brev h d a =>
    h.len == .w64 && okDA 1 1 d a
  | .and h d a b | .or h d a b | .xor h d a b | .andn h d a b | .rotl h d a b => okDAB h 1 1 1 d a b
  | .shl h d a b wrap | .shr h d a b wrap | .sar h d a b wrap => noMod h (!wrap) && okDAB h 1 1 1 d a b
  | .shfL h d a b c | .shfR h d a b c | .bfi h d a b c | .prmb h d a b c => h.len.mem && okDABC h 1 1 1 1 d a b c
  | .bfe h d a b _ => h.len.mem && okDAB h 1 1 1 d a b
  | .isetp h _ a b pc cond comb cneg => h.len.mem && decide (cond.toNat ≤ 13) && okCmp h 1 a b pc comb cneg
  | .isetp64 h _ a b pc cond comb cneg => h.len.mem && decide (cond.toNat ≤ 13) && okCmp h 2 a b pc comb cneg
  | .isel h d a b _ _ => h.len == .w96 && okDAB h 1 1 1 d a (.reg b)
  | .lea h d a b off zx scale idx64 =>
    h.len.mem && d.dstOk 2 && a.ok 2 && b.ok (if idx64 then 2 else 1) && queueOk [a.reg, b.reg] (some d) &&
    decide (scale.toNat ≤ 4) && (h.len == .w128 || off == 0) && !(idx64 && zx)
  | .mov h d a => h.len == .w64 && okDA 1 1 d a
  | .mov64 h d a => h.len == .w64 && okDA 2 2 d a
  | .movi h d _ => h.len == .w128 && d.dstOk 1
  | .movi64 h d _ => h.len == .w128 && d.dstOk 2
  | .plop h _ _ _ _ _ => h.len == .w96
  | .pmovTo h d => h.len == .w64 && d.dstOk 1
  | .pmovFrom h a b => h.len == .w64 && a.ok 1 && b.ok 1 && queueOk [a.reg, b.reg] none
  | .getsr h d num => h.len == .w64 && d.dstOk 1 && okGetsr num.toNat
  -- float (06 Table 6.3)
  | .fadd h d a b rm ftz | .fsub h d a b rm ftz | .fmul h d a b rm ftz =>
    noMod h (rm == 0 && !ftz) && okDAB h 1 1 1 d a b
  | .ffma h d a b c _ _ => h.len.mem && okDABC h 1 1 1 1 d a b c
  | .fmin h d a b ftz | .fmax h d a b ftz => noMod h (!ftz) && okDAB h 1 1 1 d a b
  | .fsetp h _ a b pc cond comb cneg _ => h.len.mem && decide (cond.toNat ≤ 13) && okCmp h 1 a b pc comb cneg
  | .fclass h _ a _ => h.len == .w96 && a.ok 1 && queueOk [a.reg] none
  | .frnd h d a _ _ | .frndX h d a _ _ => h.len == .w96 && okDA 1 1 d a
  | .fscalb h d a b rm ftz | .fdscl h d a b rm ftz =>
    h.len != .w128 && noMod h (rm == 0 && !ftz) && okDAB h 1 1 1 d a (.reg b)
  | .fadd2 h d a b _ rm ftz | .fmul2 h d a b _ rm ftz => noMod h (rm == 0 && !ftz) && okDAB h 1 1 1 d a b
  | .ffma2 h d a b c _ _ _ => h.len.mem && okDABC h 1 1 1 1 d a b c
  | .fdot4 h kind d a b c _ _ =>
    h.len == .w96 && okDABC h 1 (if kind == 3 then 1 else 2) (if kind == 3 then 1 else 2) 1 d a (.reg b) c
  | .idot4 h _ d a b c _ => h.len == .w96 && okDABC h 1 1 1 1 d a (.reg b) c
  | .frcp h d a rm ftz | .fsqrt h d a rm ftz => okSfu h d a rm ftz
  | .frsq h d a ftz | .fexp2 h d a ftz | .flog2 h d a ftz | .fsin h d a ftz | .fcos h d a ftz | .ftanh h d a ftz =>
    okSfu h d a 0 ftz
  | .cvt h d a el dt sr _ _ inf => h.len == .w96 && okCvt d a el dt sr inf
  | .cvtx h _ d a el dt sr _ _ inf => h.len == .w96 && okCvt d a el dt sr inf
  | .cvtp h d a b bytes dt _ _ inf =>
    h.len == .w96 && okDAB h 1 (if bytes then 2 else 1) (if bytes then 2 else 1) d a (.reg b) &&
    (if bytes then dt == 3 || dt == 4 || dt == 5 else dt == 1 || dt == 2) && (!inf || dt == 3)
  | .cvts h d a b c _ _ _ _ | .cvtsAuto h d a b c _ _ _ _ => okCvts h d a && b.isSC && (c.isS || c == .unused)
  | .cvtsDec h d a c _ _ _ _ => okCvts h d a && (c.isS || c == .unused)
  | .rnd h d => h.len == .w64 && d.dstOk 1
  -- cross-lane (07 Table 7.1)
  | .shflIdx h d a b segw zf | .shflUp h d a b segw zf | .shflDown h d a b segw zf | .shflXor h d a b segw zf =>
    okShfl h d a b segw zf
  | .voteAll h _ _ _ | .voteAny h _ _ _ | .voteUni h _ _ _ => h.len == .w64
  | .ballot h d _ _ | .ballotExec h d | .ballotLive h d => h.len == .w64 && d.dstOk 1 && !d.isE
  | .reduce h d a op rm ftz | .scan h d a op rm ftz | .scanExcl h d a op rm ftz => okTree h d a op rm ftz
  | .matchLanes h kind d a =>
    h.len == .w64 && d.dstOk 1 && !d.isE && a.ok (if kind == 2 then 2 else 1) && a.noE && decide (kind.toNat ≤ 2)
  | .compress h d a _ _ _ | .expand h d a _ _ _ => h.len == .w64 && d.dstOk 1 && !d.isE && a.ok 1 && a.noE
  | .elect h _ => h.len == .w64
  | .electIdx h d => h.len == .w64 && d.dstOk 1 && !d.isE
  -- memory (08 Table 8.7)
  | .ld h d m w sx _ =>
    h.len.mem && m.ok h.len && decide (w.toNat ≤ 3) && d.memReg (if w == 3 then 2 else 1) && (!sx || decide (w.toNat ≤ 1))
  | .st h c m w _ => h.len.mem && m.ok h.len && decide (w.toNat ≤ 3) && c.memData (if w == 3 then 2 else 1)
  | .ldv h d m w _ =>
    h.len.mem && m.ok h.len && decide (3 ≤ w.toNat) && decide (w.toNat ≤ 5) && d.memReg (2 ^ (w.toNat - 2))
  | .stv h c m w _ =>
    h.len.mem && m.ok h.len && decide (3 ≤ w.toNat) && decide (w.toNat ≤ 5) && c.memData (2 ^ (w.toNat - 2)) && !c.reg.isC
  | .ldver h d m _ => h.len.mem && m.ok h.len && m.qualIn [0, 1] && d.memReg 2
  | .atom h d base off qual c aop scope _ w =>
    h.len.mem && okAtomBase h.len base off qual && okAtomW aop w && decide (scope.toNat ≤ 6) &&
    d.memReg (2 ^ (w.toNat - 2)) &&
    c.memData (if aop == 9 then 2 * 2 ^ (w.toNat - 2) else 2 ^ (w.toNat - 2))
  | .atomf h d base off qual c fop scope _ =>
    h.len.mem && okAtomBase h.len base off qual && decide (fop.toNat ≤ 4) && decide (scope.toNat ≤ 6) &&
    d.memReg 1 && c.memData 1
  | .red h flt base off qual c op scope _ w =>
    h.len.mem && okAtomBase h.len base off qual && decide (scope.toNat ≤ 6) &&
    (if flt then decide (op.toNat ≤ 4) && w == 2 else okAtomW op w && op != 8 && op != 9) &&
    c.memData (2 ^ (w.toNat - 2))
  | .fenceAcq h scope | .fenceRel h scope | .fenceAr h scope | .fenceSc h scope => h.len == .w64 && decide (scope.toNat ≤ 6)
  | .ptest h _ m => h.len.mem && m.ok h.len
  | .claim h d m c => h.len.mem && m.ok h.len && m.qualIn [0, 1, 4] && d.memReg 1 && c.memData 1
  | .regclm h n | .regrel h n =>
    h.len == .w64 && n.toNat % 8 == 0 && decide (8 ≤ n.toNat) && decide (n.toNat ≤ 248)
  | .cctlWb h m _ level | .cctlInv h m _ level | .cctlWbinv h m _ level | .cctlRet h m _ level | .pref h m _ level =>
    h.len.mem && m.ok h.len && decide (level.toNat ≤ 2)
  -- engines (10 Table 10.10)
  | .qpush h e a => h.len == .w64 && e != 7 && a.ok 1 && !a.reg.isE
  | .qpop h d e => h.len == .w64 && d.dstOk 1 && !d.isE && (Opnd.e e).popOk
  | .qtry h d e _ => h.len == .w64 && d.dstOk 1 && !d.isE && (Opnd.e e).popOk
  | .copy h bb src dst size imm =>
    h.len == .w128 && bb.isBarrier && src.isSPair && dst.isSPair && size.isSC && okPushImm imm
  | .copyFill h bb pattern dst size imm =>
    h.len == .w128 && bb.isBarrier && pattern.isSC && dst.isSPair && size.isSC && okPushImm imm
  | .gather h bb src idx dst count esz imm | .scatter h bb src idx dst count esz imm =>
    h.len == .w128 && bb.isBarrier && src.isSPair && idx.isSPair && dst.isSPair && count.isSC &&
    decide (esz.toNat ≤ 2) && okPushImm imm
  | .collr h bb src dst group rank imm | .collg h bb src dst group rank imm =>
    h.len == .w128 && bb.isBarrier && src.isSPair && dst.isSPair && group.isSPair && rank.isSC && okPushImm imm
  | .chunk h d base off => h.len.mem && d.isSQuad && okBaseOff h.len base off
  | .bar h _ | .bara h _ | .barw h _ => h.len == .w64
  | .bbinit h base off c | .bbadd h base off c => h.len.mem && okBaseOff h.len base off && (c.isSPair || c.isC)
  | .bbwait h base off | .bbwaitP h _ base off => h.len.mem && okBaseOff h.len base off
  | .sqpush h _ a => (h.len == .w64 && a.isV && a.aligned 2) || (h.len == .w96 && a.isSPair)
  | .sqpop h _ a _ => (h.len == .w64 && a.isV && a.aligned 2) || (h.len == .w96 && a.isSPair)
  | .sqclose h _ => h.len == .w64
  -- matrix (11 Table 11.7)
  | .mma h _ a b c _ strides => h.len.mem && a.isSPair && b.isSPair && okScale c && (h.len == .w128 || strides == 0)
  | .mmaf h kind _ a b c _ =>
    h.len == .w96 && okScale c && decide (kind.toNat ≤ 2) &&
    (if kind == 1 then a.isSPair else tileOpnd a) && (if kind == 0 then b.isSPair else tileOpnd b)
  | .mzero h _ tid => h.len == .w64 && tid.isSC
  | .mld h _ base tid c _ stride => h.len.mem && base.isSPair && tid.isSC && okScale c && okStride h.len stride
  | .mst h _ base c _ _ _ stride | .mstAuto h _ base c _ _ _ stride =>
    h.len.mem && base.isSPair && okScale c && okStride h.len stride
  | .mcvt h _ _ _ => h.len == .w96
  | .mtrn h _ _ => h.len == .w64
  | .madd h _ _ _ | .maddI h _ _ _ => h.len == .w96
  | .mscl h _ _ f => h.len == .w96 && (match f with | .coef _ => true | .scalar o => o.isSC)
  | .msync h => h.len == .w64
  | .mrow h d _ row => h.len == .w96 && d.isV && d.aligned 2 && row.isSC
  | .mlicAcq h | .mlicRel h | .mlicGive h => h.len == .w64
  | .mlicTry h _ => h.len == .w64
  | .twin h _ b => h.len == .w64 && b.toNat % 8 == 0 && decide (b.toNat ≤ 224)
  | .twinOff h => h.len == .w64
  | .txch h _ _ pat => h.len == .w64 && pat.ok
  -- iteration (12 Table 12.6)
  | .mpoly h d x _ _ => h.len == .w96 && d != x
  | .miter h kind x w _ _ _ wide _ =>
    h.len == .w96 && (!wide || decide (kind.toNat ≤ 1)) && okTiles x w wide (miterGroup kind wide)
  | .mres h kind d x w _ wide =>
    h.len == .w96 && d.isS && (!wide || decide (kind.toNat ≤ 1)) && okTiles x w wide (mresGroup kind)
  | .mcoef h n base off cnt =>
    h.len.mem && okBaseOff h.len base off && decide (1 ≤ cnt.toNat) && decide (n.toNat + cnt.toNat ≤ 16)
  | .mcoefS h _ a => h.len == .w96 && a.isSC
  | .mls h d => h.len == .w64 && d.isSQuad
  | .mlsw h a => h.len == .w64 && a.isSQuad
  -- witness (13 Table 13.10)
  | .wbegin h cls cnt =>
    h.len == .w96 && decide (3 ≤ cls.toNat) && decide (cls.toNat ≤ 5) && (match cnt with | .lit n => n != 0 | .reg _ => true)
  | .wemit h a => h.len == .w64 && a.ok 1 && a.plain
  | .wend h | .wendR h | .wdigEmit h | .wdigClr h | .rlogOn h | .rlogOff h => h.len == .w64
  | .wdigAdd h a => h.len == .w64 && a.ok 1 && a.reg.isV
  | .stgseal h d => if d.isSome then h.len == .w96 else h.len == .w64
  | .chkerr h d | .chkerrClr h d => h.len == .w64 && d.isVS
  | .relreq h d m c => h.len.mem && m.ok h.len && m.qualIn [0, 1] && d.memReg 1 && c.memData 1
  | .vstat h d m => h.len.mem && m.ok h.len && m.qualIn [0, 1] && d.memReg 1
  -- system (14 Table 14.4)
  | .trap h _ imm => (h.len == .w64 && imm == 0) || h.len == .w128
  | .rftNext h | .rftRegion h | .rftRetry h | .snap h | .quiesce h => h.len == .w64
  | .brk h _ => h.len == .w64
  | .setsr h num b =>
    h.len != .w96 && okSetsr num.toNat && b.ok h.len 1 && b.regs.all (fun o => o.isVS || o.isC)
  | .tlbinvPage h base off => h.len.mem && okBaseOff h.len base off
  | .tlbinvRange h base off c => h.len.mem && okBaseOff h.len base off && c.isSC
  | .tlbinvCtx h => h.len.mem
  -- pair words and unassigned words (02 R51-R56)
  | .pairWord _ s0 s1 => s0.encOk && s1.encOk && pairOk s0 s1
  | .unassignedMajor len w =>
    if len = 0 then decide (w.toNat < 2 ^ 32) && w.toNat % 4 == 0 && w.toNat != padWord
    else decide (w.toNat < 2 ^ (32 * (len.toNat + 1))) && w.toNat % 4 == len.toNat &&
      (majorUnassigned (bitsOf w.toNat 18 11) || majorReserved (bitsOf w.toNat 18 11))
  | _ => false

end Sys2Proof
end

