-- ==== Sys2Proof/Decode.lean ====
section
/-!
DEFINITION. Sys2Proof/Decode.lean: from the bits of a word to an instruction, and back. A word decodes only when the
instruction it spells is well formed and spells exactly that word, so every reserved or unused field that is not zero is
rejected (02 R36-R38). Rejections are named by the rule of the decode order (02 R35) they break.
-/

namespace Sys2Proof

/-- Why a word is no instruction (02 R35 rules 3, 5, 7 and 8). A reserved or unassigned major is an instruction of the
model, since the table has a row for it. -/
inductive Reject where
  /-- Rule 5: an assigned opcode at a length it does not have. -/
  | badLength
  /-- Rule 7: a reserved or unused field, operand value, pattern or kind. -/
  | badField
  /-- Rule 8: a pair-word slot rule. -/
  | badPairing
  /-- A pad word: fetched and discarded (02 R32). -/
  | pad
  /-- Fewer bytes than the length code asks for. -/
  | truncated
  deriving DecidableEq, Repr

/-! ## Operand fields -/

/-- The 9-bit value of an operand (02 Table 2.4). -/
def Opnd.bits : Opnd → BitVec 9
  | .v n => BitVec.ofNat 9 n.toNat
  | .s n => BitVec.ofNat 9 (256 + n.toNat)
  | .y n => BitVec.ofNat 9 (320 + n.toNat)
  | .e n => BitVec.ofNat 9 (352 + n.toNat)
  | .c n => BitVec.ofNat 9 (360 + n.toNat)

/-- The operand of a 9-bit value; 376-511 are reserved. -/
def Opnd.ofBits (x : BitVec 9) : Option Opnd :=
  let n := x.toNat
  if n < 256 then some (.v (BitVec.ofNat 8 n))
  else if n < 320 then some (.s (BitVec.ofNat 6 (n - 256)))
  else if n < 352 then some (.y (BitVec.ofNat 5 (n - 320)))
  else if n < 360 then some (.e (BitVec.ofNat 3 (n - 352)))
  else if n < 376 then some (.c (BitVec.ofNat 4 (n - 360)))
  else none

/-- PARAM and PAT of a crossbar pattern (02 Tables 2.3 and 2.5). -/
def Pat.bits : Pat → BitVec 8
  | .ident => 0#5 ++ 0#3
  | .rot k => k ++ 1#3
  | .bc k => k ++ 2#3
  | .xor k => k ++ 3#3
  | .mir k => k ++ 4#3

/-- The pattern of PARAM and PAT; 101-111 are reserved. -/
def Pat.ofBits (x : BitVec 8) : Option Pat :=
  let k := x.extractLsb' 3 5
  match (x.setWidth 3).toNat with
  | 0 => if k = 0 then some .ident else none
  | 1 => some (.rot k)
  | 2 => some (.bc k)
  | 3 => some (.xor k)
  | 4 => some (.mir k)
  | _ => none

/-- The 17-bit value of a source field. -/
def Src.bits (a : Src) : BitVec 17 := a.pat.bits ++ a.reg.bits

/-- The source of a 17-bit field. -/
def Src.ofBits (x : BitVec 17) : Option Src := do
  let r ← Opnd.ofBits (x.setWidth 9)
  let p ← Pat.ofBits (x.extractLsb' 9 8)
  some ⟨r, p⟩

/-- The SRCB field of a source B; IMM leaves it zero (02 R39). -/
def SrcB.fieldB : SrcB → BitVec 17
  | .reg a => a.bits
  | .imm _ => 0

/-- The IMM field of a source B. -/
def SrcB.immB : SrcB → BitVec 32
  | .reg _ => 0
  | .imm w => w

/-- A predicate field with a negate bit (07 R175). -/
def predField (p : Pred) (neg : Bool) : BitVec 17 := 0#12 ++ BitVec.ofBool neg ++ p

/-! ## The common frame (02 Table 2.2) -/

structure Frame where
  len : Len
  stall : BitVec 4
  guard : BitVec 4
  gneg : Bool
  major : BitVec 8
  dst : BitVec 9
  srca : BitVec 17
  srcb : BitVec 17
  minor : BitVec 2
  srcc : BitVec 17
  mod : BitVec 15
  imm : BitVec 32
  deriving DecidableEq, Repr

/-- A frame with every field but the common ones, MAJOR and MINOR zero. -/
def frame (h : Hdr) (major : BitVec 8) (minor : BitVec 2) : Frame :=
  ⟨h.len, h.stall, h.guard, h.gneg, major, 0, 0, 0, minor, 0, 0, 0⟩

def Frame.hdr (f : Frame) : Hdr := ⟨f.len, f.stall, f.guard, f.gneg⟩

/-- The length code (02 Table 2.1). -/
def Len.code : Len → Nat
  | .w64 => 1 | .w96 => 2 | .w128 => 3

/-- Bits of a word of this length. -/
def Len.bits (l : Len) : Nat := 8 * l.bytes

/-- The word of a frame, as a number: bit 0 is bit 0 of the first 32-bit word. -/
def Frame.word (f : Frame) : Nat :=
  f.len.code + 2 ^ 2 * f.stall.toNat + 2 ^ 6 * f.guard.toNat + 2 ^ 10 * f.gneg.toNat + 2 ^ 11 * f.major.toNat +
  2 ^ 19 * f.dst.toNat + 2 ^ 28 * f.srca.toNat + 2 ^ 45 * f.srcb.toNat + 2 ^ 62 * f.minor.toNat +
  2 ^ 64 * f.srcc.toNat + 2 ^ 81 * f.mod.toNat + 2 ^ 96 * f.imm.toNat

/-- The fields of a word of length `l`; a field above the length reads zero. -/
def Frame.ofWord (l : Len) (w : Nat) : Frame where
  len := l
  stall := BitVec.ofNat 4 (w / 2 ^ 2)
  guard := BitVec.ofNat 4 (w / 2 ^ 6)
  gneg := bitAt w 10
  major := BitVec.ofNat 8 (w / 2 ^ 11)
  dst := BitVec.ofNat 9 (w / 2 ^ 19)
  srca := BitVec.ofNat 17 (w / 2 ^ 28)
  srcb := BitVec.ofNat 17 (w / 2 ^ 45)
  minor := BitVec.ofNat 2 (w / 2 ^ 62)
  srcc := BitVec.ofNat 17 (w / 2 ^ 64)
  mod := BitVec.ofNat 15 (w / 2 ^ 81)
  imm := BitVec.ofNat 32 (w / 2 ^ 96)

/-- MOD of `SHFL`: SEGW and ZF at 96 bits; a 64-bit form has none (07 R176). -/
def segMod (h : Hdr) (segw : BitVec 3) (zf : Bool) : BitVec 15 :=
  if h.len = .w64 then 0 else 0#7 ++ segw ++ BitVec.ofBool zf ++ 0#4

/-- SEGW of a frame; the 64-bit form behaves as 5 (07 R176). -/
def Frame.segw (f : Frame) : BitVec 3 := if f.len = .w64 then 5 else f.mod.extractLsb' 5 3

/-- Source B of a frame: SRCB, or IMM at 128 bits (02 R39). -/
def srcB (f : Frame) : Option SrcB :=
  if f.len = .w128 then some (.imm f.imm) else (Src.ofBits f.srcb).map .reg

/-- The memory operand of a frame (08 R204, Table 8.6). -/
def memOp (f : Frame) : Option MemOp := do
  let b ← Src.ofBits f.srca
  let i ← Src.ofBits f.srcb
  some ⟨b, i, f.imm, f.mod.extractLsb' 8 3, f.mod.getLsbD 7, f.mod.extractLsb' 4 3⟩

/-- The fields of an instruction's word. Pair words, unassigned words and events are not in this frame. -/
def encodeFrame : Instr → Frame
  | .bra h off => { frame h 0x00 0 with imm := off }
  | .call h off => { frame h 0x02 0 with imm := off }
  | .bri h a => { frame h 0x01 0 with srca := a.bits }
  | .calli h a => { frame h 0x03 0 with srca := a.bits }
  | .ret h => frame h 0x04 0
  | .exit h => frame h 0x05 0
  | .nop h => frame h 0x06 0
  | .stall h n => { frame h 0x07 0 with srca := n.setWidth 17 }
  | .yield h n => { frame h 0x08 0 with srca := n.setWidth 17 }
  | .coll h => frame h 0x09 0
  | .region h => frame h 0x0A 0
  | .marm h m hint =>
    { frame h 0x0B 0 with srca := m.base.bits, srcb := m.index.bits, imm := m.off, mod := 0#3 ++ 0#1 ++ m.scale ++ BitVec.ofBool m.idx64 ++ m.qual ++ hint ++ 0#2 }
  | .mwaitT h n => { frame h 0x0C 0 with srca := n.setWidth 17 }
  | .mwaitP h pd n => { frame h 0x0C 1 with dst := pd.setWidth 9, srca := n.setWidth 17 }
  | .waitsb h mask => { frame h 0x0D 0 with srca := mask.setWidth 17 }
  | .iadd h d a b sat zx co =>
    { frame h 0x20 0 with dst := d.bits, srca := a.bits, srcb := b.fieldB, imm := b.immB, mod := BitVec.ofBool sat ++ BitVec.ofBool zx ++ 0#1 ++ co ++ 0#8 }
  | .isub h d a b sat zx co =>
    { frame h 0x21 0 with dst := d.bits, srca := a.bits, srcb := b.fieldB, imm := b.immB, mod := BitVec.ofBool sat ++ BitVec.ofBool zx ++ 0#1 ++ co ++ 0#8 }
  | .iaddc h d a b pi co =>
    { frame h 0x22 0 with dst := d.bits, srca := a.bits, srcb := b.fieldB, imm := b.immB, srcc := pi.setWidth 17, mod := 0#3 ++ co ++ 0#8 }
  | .imul h d a b sat zx =>
    { frame h 0x23 0 with dst := d.bits, srca := a.bits, srcb := b.fieldB, imm := b.immB, mod := BitVec.ofBool sat ++ BitVec.ofBool zx ++ 0#13 }
  | .imulh h d a b zx =>
    { frame h 0x24 0 with dst := d.bits, srca := a.bits, srcb := b.fieldB, imm := b.immB, mod := 0#1 ++ BitVec.ofBool zx ++ 0#13 }
  | .imad h d a b c sat zx =>
    { frame h 0x25 0 with dst := d.bits, srca := a.bits, srcb := b.fieldB, imm := b.immB, srcc := c.bits, mod := BitVec.ofBool sat ++ BitVec.ofBool zx ++ 0#13 }
  | .imadw h d a b c zx =>
    { frame h 0x26 0 with dst := d.bits, srca := a.bits, srcb := b.fieldB, imm := b.immB, srcc := c.bits, mod := 0#1 ++ BitVec.ofBool zx ++ 0#13 }
  | .iadd64 h d a b co =>
    { frame h 0x27 0 with dst := d.bits, srca := a.bits, srcb := b.fieldB, imm := b.immB, mod := 0#3 ++ co ++ 0#8 }
  | .isub64 h d a b co =>
    { frame h 0x28 0 with dst := d.bits, srca := a.bits, srcb := b.fieldB, imm := b.immB, mod := 0#3 ++ co ++ 0#8 }
  | .imin h d a b zx =>
    { frame h 0x29 0 with dst := d.bits, srca := a.bits, srcb := b.fieldB, imm := b.immB, mod := 0#1 ++ BitVec.ofBool zx ++ 0#13 }
  | .imax h d a b zx =>
    { frame h 0x2A 0 with dst := d.bits, srca := a.bits, srcb := b.fieldB, imm := b.immB, mod := 0#1 ++ BitVec.ofBool zx ++ 0#13 }
  | .iabs h d a => { frame h 0x2B 0 with dst := d.bits, srca := a.bits }
  | .ineg h d a => { frame h 0x2C 0 with dst := d.bits, srca := a.bits }
  | .and h d a b => { frame h 0x2D 0 with dst := d.bits, srca := a.bits, srcb := b.fieldB, imm := b.immB }
  | .or h d a b => { frame h 0x2E 0 with dst := d.bits, srca := a.bits, srcb := b.fieldB, imm := b.immB }
  | .xor h d a b => { frame h 0x2F 0 with dst := d.bits, srca := a.bits, srcb := b.fieldB, imm := b.immB }
  | .andn h d a b => { frame h 0x30 0 with dst := d.bits, srca := a.bits, srcb := b.fieldB, imm := b.immB }
  | .not h d a => { frame h 0x31 0 with dst := d.bits, srca := a.bits }
  | .shl h d a b wrap =>
    { frame h 0x32 0 with dst := d.bits, srca := a.bits, srcb := b.fieldB, imm := b.immB, mod := 0#2 ++ BitVec.ofBool wrap ++ 0#12 }
  | .shr h d a b wrap =>
    { frame h 0x33 0 with dst := d.bits, srca := a.bits, srcb := b.fieldB, imm := b.immB, mod := 0#2 ++ BitVec.ofBool wrap ++ 0#12 }
  | .sar h d a b wrap =>
    { frame h 0x34 0 with dst := d.bits, srca := a.bits, srcb := b.fieldB, imm := b.immB, mod := 0#2 ++ BitVec.ofBool wrap ++ 0#12 }
  | .rotl h d a b => { frame h 0x35 0 with dst := d.bits, srca := a.bits, srcb := b.fieldB, imm := b.immB }
  | .shfL h d a b c =>
    { frame h 0x36 0 with dst := d.bits, srca := a.bits, srcb := b.fieldB, imm := b.immB, srcc := c.bits }
  | .shfR h d a b c =>
    { frame h 0x36 1 with dst := d.bits, srca := a.bits, srcb := b.fieldB, imm := b.immB, srcc := c.bits }
  | .bfe h d a b zx =>
    { frame h 0x37 0 with dst := d.bits, srca := a.bits, srcb := b.fieldB, imm := b.immB, mod := 0#1 ++ BitVec.ofBool zx ++ 0#13 }
  | .bfi h d a b c =>
    { frame h 0x38 0 with dst := d.bits, srca := a.bits, srcb := b.fieldB, imm := b.immB, srcc := c.bits }
  | .popc h d a => { frame h 0x39 0 with dst := d.bits, srca := a.bits }
  | .clz h d a => { frame h 0x3A 0 with dst := d.bits, srca := a.bits }
  | .ctz h d a => { frame h 0x3B 0 with dst := d.bits, srca := a.bits }
  | .brev h d a => { frame h 0x3C 0 with dst := d.bits, srca := a.bits }
  | .prmb h d a b c =>
    { frame h 0x3D 0 with dst := d.bits, srca := a.bits, srcb := b.fieldB, imm := b.immB, srcc := c.bits }
  | .isetp h pd a b pc cond comb cneg =>
    { frame h 0x3E 0 with dst := pd.setWidth 9, srca := a.bits, srcb := b.fieldB, imm := b.immB, srcc := pc.setWidth 17, mod := 0#7 ++ cond ++ comb ++ BitVec.ofBool cneg ++ 0#1 }
  | .isetp64 h pd a b pc cond comb cneg =>
    { frame h 0x3E 1 with dst := pd.setWidth 9, srca := a.bits, srcb := b.fieldB, imm := b.immB, srcc := pc.setWidth 17, mod := 0#7 ++ cond ++ comb ++ BitVec.ofBool cneg ++ 0#1 }
  | .isel h d a b pc sneg =>
    { frame h 0x3F 0 with dst := d.bits, srca := a.bits, srcb := b.bits, srcc := pc.setWidth 17, mod := 0#7 ++ BitVec.ofBool sneg ++ 0#7 }
  | .lea h d a b off zx scale idx64 =>
    { frame h 0x40 0 with dst := d.bits, srca := a.bits, srcb := b.bits, imm := off, mod := 0#1 ++ BitVec.ofBool zx ++ 0#5 ++ scale ++ BitVec.ofBool idx64 ++ 0#4 }
  | .mov h d a => { frame h 0x41 0 with dst := d.bits, srca := a.bits }
  | .mov64 h d a => { frame h 0x41 1 with dst := d.bits, srca := a.bits }
  | .movi h d imm => { frame h 0x42 0 with dst := d.bits, imm := imm }
  | .movi64 h d imm => { frame h 0x42 1 with dst := d.bits, imm := imm }
  | .plop h pd pa pb pc lut =>
    { frame h 0x43 0 with dst := pd.setWidth 9, srca := pa.setWidth 17, srcb := pb.setWidth 17, srcc := pc.setWidth 17, mod := 0#7 ++ lut }
  | .pmovTo h d => { frame h 0x44 0 with dst := d.bits }
  | .pmovFrom h a b => { frame h 0x44 1 with srca := a.bits, srcb := b.bits }
  | .getsr h d num => { frame h 0x45 0 with dst := d.bits, srca := num.setWidth 17 }
  | .fadd h d a b rm ftz =>
    { frame h 0x50 0 with dst := d.bits, srca := a.bits, srcb := b.fieldB, imm := b.immB, mod := rm ++ BitVec.ofBool ftz ++ 0#12 }
  | .fsub h d a b rm ftz =>
    { frame h 0x51 0 with dst := d.bits, srca := a.bits, srcb := b.fieldB, imm := b.immB, mod := rm ++ BitVec.ofBool ftz ++ 0#12 }
  | .fmul h d a b rm ftz =>
    { frame h 0x52 0 with dst := d.bits, srca := a.bits, srcb := b.fieldB, imm := b.immB, mod := rm ++ BitVec.ofBool ftz ++ 0#12 }
  | .ffma h d a b c rm ftz =>
    { frame h 0x53 0 with dst := d.bits, srca := a.bits, srcb := b.fieldB, imm := b.immB, srcc := c.bits, mod := rm ++ BitVec.ofBool ftz ++ 0#12 }
  | .fmin h d a b ftz =>
    { frame h 0x54 0 with dst := d.bits, srca := a.bits, srcb := b.fieldB, imm := b.immB, mod := 0#2 ++ BitVec.ofBool ftz ++ 0#12 }
  | .fmax h d a b ftz =>
    { frame h 0x55 0 with dst := d.bits, srca := a.bits, srcb := b.fieldB, imm := b.immB, mod := 0#2 ++ BitVec.ofBool ftz ++ 0#12 }
  | .fsetp h pd a b pc cond comb cneg ftz =>
    { frame h 0x56 0 with dst := pd.setWidth 9, srca := a.bits, srcb := b.fieldB, imm := b.immB, srcc := pc.setWidth 17, mod := 0#2 ++ BitVec.ofBool ftz ++ 0#4 ++ cond ++ comb ++ BitVec.ofBool cneg ++ 0#1 }
  | .fclass h pd a mask => { frame h 0x57 0 with dst := pd.setWidth 9, srca := a.bits, srcb := mask.setWidth 17 }
  | .frnd h d a rm ftz =>
    { frame h 0x58 0 with dst := d.bits, srca := a.bits, mod := rm ++ BitVec.ofBool ftz ++ 0#12 }
  | .frndX h d a rm ftz =>
    { frame h 0x58 1 with dst := d.bits, srca := a.bits, mod := rm ++ BitVec.ofBool ftz ++ 0#12 }
  | .fscalb h d a b rm ftz =>
    { frame h 0x59 0 with dst := d.bits, srca := a.bits, srcb := b.bits, mod := rm ++ BitVec.ofBool ftz ++ 0#12 }
  | .fdscl h d a b rm ftz =>
    { frame h 0x5A 0 with dst := d.bits, srca := a.bits, srcb := b.bits, mod := rm ++ BitVec.ofBool ftz ++ 0#12 }
  | .fadd2 h d a b bf rm ftz =>
    { frame h 0x5B (BitVec.setWidth 2 (BitVec.ofBool bf)) with dst := d.bits, srca := a.bits, srcb := b.fieldB, imm := b.immB, mod := rm ++ BitVec.ofBool ftz ++ 0#12 }
  | .fmul2 h d a b bf rm ftz =>
    { frame h 0x5C (BitVec.setWidth 2 (BitVec.ofBool bf)) with dst := d.bits, srca := a.bits, srcb := b.fieldB, imm := b.immB, mod := rm ++ BitVec.ofBool ftz ++ 0#12 }
  | .ffma2 h d a b c bf rm ftz =>
    { frame h 0x5D (BitVec.setWidth 2 (BitVec.ofBool bf)) with dst := d.bits, srca := a.bits, srcb := b.fieldB, imm := b.immB, srcc := c.bits, mod := rm ++ BitVec.ofBool ftz ++ 0#12 }
  | .fdot4 h kind d a b c rm ftz =>
    { frame h 0x5E kind with dst := d.bits, srca := a.bits, srcb := b.bits, srcc := c.bits, mod := rm ++ BitVec.ofBool ftz ++ 0#12 }
  | .idot4 h kind d a b c sat =>
    { frame h 0x5F kind with dst := d.bits, srca := a.bits, srcb := b.bits, srcc := c.bits, mod := 0#7 ++ BitVec.ofBool sat ++ 0#7 }
  | .frcp h d a rm ftz =>
    { frame h 0x60 0 with dst := d.bits, srca := a.bits, mod := rm ++ BitVec.ofBool ftz ++ 0#12 }
  | .frsq h d a ftz =>
    { frame h 0x61 0 with dst := d.bits, srca := a.bits, mod := 0#2 ++ BitVec.ofBool ftz ++ 0#12 }
  | .fsqrt h d a rm ftz =>
    { frame h 0x62 0 with dst := d.bits, srca := a.bits, mod := rm ++ BitVec.ofBool ftz ++ 0#12 }
  | .fexp2 h d a ftz =>
    { frame h 0x63 0 with dst := d.bits, srca := a.bits, mod := 0#2 ++ BitVec.ofBool ftz ++ 0#12 }
  | .flog2 h d a ftz =>
    { frame h 0x64 0 with dst := d.bits, srca := a.bits, mod := 0#2 ++ BitVec.ofBool ftz ++ 0#12 }
  | .fsin h d a ftz =>
    { frame h 0x65 0 with dst := d.bits, srca := a.bits, mod := 0#2 ++ BitVec.ofBool ftz ++ 0#12 }
  | .fcos h d a ftz =>
    { frame h 0x66 0 with dst := d.bits, srca := a.bits, mod := 0#2 ++ BitVec.ofBool ftz ++ 0#12 }
  | .ftanh h d a ftz =>
    { frame h 0x67 0 with dst := d.bits, srca := a.bits, mod := 0#2 ++ BitVec.ofBool ftz ++ 0#12 }
  | .cvt h d a el dt st rm ftz inf =>
    { frame h 0x68 el with dst := d.bits, srca := a.bits, mod := rm ++ BitVec.ofBool ftz ++ BitVec.ofBool inf ++ 0#3 ++ dt ++ st }
  | .cvtx h pd d a el dt st rm ftz inf =>
    { frame h 0x6B el with dst := d.bits, srca := a.bits, srcb := pd.setWidth 17, mod := rm ++ BitVec.ofBool ftz ++ BitVec.ofBool inf ++ 0#3 ++ dt ++ st }
  | .cvtp h d a b bytes dt rm ftz inf =>
    { frame h 0x6A (BitVec.setWidth 2 (BitVec.ofBool bytes)) with dst := d.bits, srca := a.bits, srcb := b.bits, mod := rm ++ BitVec.ofBool ftz ++ BitVec.ofBool inf ++ 0#3 ++ dt ++ 0#4 }
  | .cvts h d a b c slot rm ftz inf =>
    { frame h 0x69 0 with dst := d.bits, srca := a.bits, srcb := b.bits.setWidth 17, srcc := c.bits.setWidth 17, mod := rm ++ BitVec.ofBool ftz ++ BitVec.ofBool inf ++ slot ++ 0#8 }
  | .cvtsAuto h d a b c slot rm ftz inf =>
    { frame h 0x69 1 with dst := d.bits, srca := a.bits, srcb := b.bits.setWidth 17, srcc := c.bits.setWidth 17, mod := rm ++ BitVec.ofBool ftz ++ BitVec.ofBool inf ++ slot ++ 0#8 }
  | .cvtsDec h d a c slot rm ftz inf =>
    { frame h 0x69 2 with dst := d.bits, srca := a.bits, srcc := c.bits.setWidth 17, mod := rm ++ BitVec.ofBool ftz ++ BitVec.ofBool inf ++ slot ++ 0#8 }
  | .rnd h d => { frame h 0x6C 0 with dst := d.bits }
  | .shflIdx h d a b segw zf =>
    { frame h 0x80 0 with dst := d.bits, srca := a.bits, srcb := b.bits, mod := segMod h segw zf }
  | .shflUp h d a b segw zf =>
    { frame h 0x80 1 with dst := d.bits, srca := a.bits, srcb := b.bits, mod := segMod h segw zf }
  | .shflDown h d a b segw zf =>
    { frame h 0x80 2 with dst := d.bits, srca := a.bits, srcb := b.bits, mod := segMod h segw zf }
  | .shflXor h d a b segw zf =>
    { frame h 0x80 3 with dst := d.bits, srca := a.bits, srcb := b.bits, mod := segMod h segw zf }
  | .voteAll h pd pa neg => { frame h 0x81 0 with dst := pd.setWidth 9, srca := predField pa neg }
  | .voteAny h pd pa neg => { frame h 0x81 1 with dst := pd.setWidth 9, srca := predField pa neg }
  | .voteUni h pd pa neg => { frame h 0x81 2 with dst := pd.setWidth 9, srca := predField pa neg }
  | .ballot h d pa neg => { frame h 0x82 0 with dst := d.bits, srca := predField pa neg }
  | .ballotExec h d => { frame h 0x82 1 with dst := d.bits }
  | .ballotLive h d => { frame h 0x82 2 with dst := d.bits }
  | .reduce h d a op rm ftz =>
    { frame h 0x83 0 with dst := d.bits, srca := a.bits, mod := rm ++ BitVec.ofBool ftz ++ op ++ 0#8 }
  | .scan h d a op rm ftz =>
    { frame h 0x84 0 with dst := d.bits, srca := a.bits, mod := rm ++ BitVec.ofBool ftz ++ op ++ 0#8 }
  | .scanExcl h d a op rm ftz =>
    { frame h 0x84 1 with dst := d.bits, srca := a.bits, mod := rm ++ BitVec.ofBool ftz ++ op ++ 0#8 }
  | .matchLanes h kind d a => { frame h 0x85 kind with dst := d.bits, srca := a.bits }
  | .compress h d a pm neg z =>
    { frame h 0x86 (BitVec.setWidth 2 (BitVec.ofBool z)) with dst := d.bits, srca := a.bits, srcb := predField pm neg }
  | .expand h d a pm neg z =>
    { frame h 0x87 (BitVec.setWidth 2 (BitVec.ofBool z)) with dst := d.bits, srca := a.bits, srcb := predField pm neg }
  | .elect h pd => { frame h 0x88 0 with dst := pd.setWidth 9 }
  | .electIdx h d => { frame h 0x88 1 with dst := d.bits }
  | .ld h d m w sx hint =>
    { frame h 0x90 0 with dst := d.bits, srca := m.base.bits, srcb := m.index.bits, imm := m.off, mod := w ++ BitVec.ofBool sx ++ m.scale ++ BitVec.ofBool m.idx64 ++ m.qual ++ hint ++ 0#2 }
  | .st h c m w hint =>
    { frame h 0x91 0 with srca := m.base.bits, srcb := m.index.bits, imm := m.off, srcc := c.bits, mod := w ++ 0#1 ++ m.scale ++ BitVec.ofBool m.idx64 ++ m.qual ++ hint ++ 0#2 }
  | .ldv h d m w hint =>
    { frame h 0x92 0 with dst := d.bits, srca := m.base.bits, srcb := m.index.bits, imm := m.off, mod := w ++ 0#1 ++ m.scale ++ BitVec.ofBool m.idx64 ++ m.qual ++ hint ++ 0#2 }
  | .stv h c m w hint =>
    { frame h 0x93 0 with srca := m.base.bits, srcb := m.index.bits, imm := m.off, srcc := c.bits, mod := w ++ 0#1 ++ m.scale ++ BitVec.ofBool m.idx64 ++ m.qual ++ hint ++ 0#2 }
  | .ldver h d m hint =>
    { frame h 0x9E 0 with dst := d.bits, srca := m.base.bits, srcb := m.index.bits, imm := m.off, mod := 2#3 ++ 0#1 ++ m.scale ++ BitVec.ofBool m.idx64 ++ m.qual ++ hint ++ 0#2 }
  | .atom h d base off qual c aop scope ord w =>
    { frame h 0x94 0 with dst := d.bits, srca := base.bits, srcb := (scope ++ aop).setWidth 17, srcc := c.bits, imm := off, mod := w ++ 0#5 ++ qual ++ 0#2 ++ ord }
  | .atomf h d base off qual c fop scope ord =>
    { frame h 0x95 0 with dst := d.bits, srca := base.bits, srcb := (scope ++ fop).setWidth 17, srcc := c.bits, imm := off, mod := 2#3 ++ 0#5 ++ qual ++ 0#2 ++ ord }
  | .red h flt base off qual c op scope ord w =>
    { frame h 0x96 (BitVec.setWidth 2 (BitVec.ofBool flt)) with srca := base.bits, srcb := (scope ++ op).setWidth 17, srcc := c.bits, imm := off, mod := w ++ 0#5 ++ qual ++ 0#2 ++ ord }
  | .fenceAcq h scope => { frame h 0x97 0 with srca := scope.setWidth 17 }
  | .fenceRel h scope => { frame h 0x97 1 with srca := scope.setWidth 17 }
  | .fenceAr h scope => { frame h 0x97 2 with srca := scope.setWidth 17 }
  | .fenceSc h scope => { frame h 0x97 3 with srca := scope.setWidth 17 }
  | .ptest h pd m =>
    { frame h 0x98 0 with dst := pd.setWidth 9, srca := m.base.bits, srcb := m.index.bits, imm := m.off, mod := 0#3 ++ 0#1 ++ m.scale ++ BitVec.ofBool m.idx64 ++ m.qual ++ 0#4 }
  | .claim h d m c =>
    { frame h 0x99 0 with dst := d.bits, srca := m.base.bits, srcb := m.index.bits, imm := m.off, srcc := c.bits, mod := 0#3 ++ 0#1 ++ m.scale ++ BitVec.ofBool m.idx64 ++ m.qual ++ 0#4 }
  | .regclm h n => { frame h 0x9A 0 with srca := n.setWidth 17 }
  | .regrel h n => { frame h 0x9B 0 with srca := n.setWidth 17 }
  | .cctlWb h m hint level =>
    { frame h 0x9C 0 with srca := m.base.bits, srcb := m.index.bits, imm := m.off, mod := 0#3 ++ 0#1 ++ m.scale ++ BitVec.ofBool m.idx64 ++ m.qual ++ hint ++ level }
  | .cctlInv h m hint level =>
    { frame h 0x9C 1 with srca := m.base.bits, srcb := m.index.bits, imm := m.off, mod := 0#3 ++ 0#1 ++ m.scale ++ BitVec.ofBool m.idx64 ++ m.qual ++ hint ++ level }
  | .cctlWbinv h m hint level =>
    { frame h 0x9C 2 with srca := m.base.bits, srcb := m.index.bits, imm := m.off, mod := 0#3 ++ 0#1 ++ m.scale ++ BitVec.ofBool m.idx64 ++ m.qual ++ hint ++ level }
  | .cctlRet h m hint level =>
    { frame h 0x9C 3 with srca := m.base.bits, srcb := m.index.bits, imm := m.off, mod := 0#3 ++ 0#1 ++ m.scale ++ BitVec.ofBool m.idx64 ++ m.qual ++ hint ++ level }
  | .pref h m hint level =>
    { frame h 0x9D 0 with srca := m.base.bits, srcb := m.index.bits, imm := m.off, mod := 0#3 ++ 0#1 ++ m.scale ++ BitVec.ofBool m.idx64 ++ m.qual ++ hint ++ level }
  | .qpush h e a => { frame h 0xB0 0 with dst := (Opnd.e e).bits, srca := a.bits }
  | .qpop h d e => { frame h 0xB1 0 with dst := d.bits, srca := (Opnd.e e).bits.setWidth 17 }
  | .qtry h d e pd =>
    { frame h 0xB2 0 with dst := d.bits, srca := (Opnd.e e).bits.setWidth 17, srcb := pd.setWidth 17 }
  | .copy h bb src dst size imm =>
    { frame h 0xB3 0 with dst := bb.bits, srca := src.bits.setWidth 17, srcb := dst.bits.setWidth 17, srcc := size.bits.setWidth 17, imm := imm }
  | .copyFill h bb pattern dst size imm =>
    { frame h 0xB3 1 with dst := bb.bits, srca := pattern.bits.setWidth 17, srcb := dst.bits.setWidth 17, srcc := size.bits.setWidth 17, imm := imm }
  | .gather h bb src idx dst count esz imm =>
    { frame h 0xB4 0 with dst := bb.bits, srca := src.bits.setWidth 17, srcb := idx.bits.setWidth 17, srcc := dst.bits.setWidth 17, imm := imm, mod := count.bits ++ esz ++ 0#4 }
  | .scatter h bb src idx dst count esz imm =>
    { frame h 0xB5 0 with dst := bb.bits, srca := src.bits.setWidth 17, srcb := idx.bits.setWidth 17, srcc := dst.bits.setWidth 17, imm := imm, mod := count.bits ++ esz ++ 0#4 }
  | .collr h bb src dst group rank imm =>
    { frame h 0xB6 0 with dst := bb.bits, srca := src.bits.setWidth 17, srcb := dst.bits.setWidth 17, srcc := group.bits.setWidth 17, imm := imm, mod := rank.bits ++ 0#6 }
  | .collg h bb src dst group rank imm =>
    { frame h 0xB7 0 with dst := bb.bits, srca := src.bits.setWidth 17, srcb := dst.bits.setWidth 17, srcc := group.bits.setWidth 17, imm := imm, mod := rank.bits ++ 0#6 }
  | .chunk h d base off => { frame h 0xB8 0 with dst := d.bits, srca := base.bits.setWidth 17, imm := off }
  | .bar h rtag => { frame h 0xB9 0 with srca := rtag.setWidth 17 }
  | .bara h rtag => { frame h 0xB9 1 with srca := rtag.setWidth 17 }
  | .barw h rtag => { frame h 0xB9 2 with srca := rtag.setWidth 17 }
  | .bbinit h base off c =>
    { frame h 0xBA 0 with srca := base.bits.setWidth 17, imm := off, srcc := c.bits.setWidth 17 }
  | .bbadd h base off c =>
    { frame h 0xBB 0 with srca := base.bits.setWidth 17, imm := off, srcc := c.bits.setWidth 17 }
  | .bbwait h base off => { frame h 0xBC 0 with srca := base.bits.setWidth 17, imm := off }
  | .bbwaitP h pd base off =>
    { frame h 0xBC 1 with dst := pd.setWidth 9, srca := base.bits.setWidth 17, imm := off }
  | .sqpush h q a => { frame h 0xBD 0 with srca := a.bits.setWidth 17, srcb := q.setWidth 17 }
  | .sqpop h q a pd =>
    match h.len with
    | .w64 => { frame h 0xBE 0 with dst := a.bits, srca := pd.setWidth 17, srcb := q.setWidth 17 }
    | _ => { frame h 0xBE 0 with dst := pd.setWidth 9, srca := a.bits.setWidth 17, srcb := q.setWidth 17 }
  | .sqclose h q => { frame h 0xBF 0 with srcb := q.setWidth 17 }
  | .mma h d a b c slot strides =>
    { frame h 0xC0 0 with dst := d.setWidth 9, srca := a.bits.setWidth 17, srcb := b.bits.setWidth 17, srcc := c.bits.setWidth 17, imm := strides, mod := slot ++ 0#12 }
  | .mmaf h kind d a b c slot =>
    { frame h 0xC1 kind with dst := d.setWidth 9, srca := a.bits.setWidth 17, srcb := b.bits.setWidth 17, srcc := c.bits.setWidth 17, mod := slot ++ 0#12 }
  | .mzero h d tid => { frame h 0xC2 0 with dst := d.setWidth 9, srca := tid.bits.setWidth 17 }
  | .mld h d base tid c slot stride =>
    { frame h 0xC3 0 with dst := d.setWidth 9, srca := base.bits.setWidth 17, srcb := tid.bits.setWidth 17, srcc := c.bits.setWidth 17, imm := stride, mod := slot ++ 0#12 }
  | .mst h t base c slot rm inf stride =>
    { frame h 0xC4 0 with dst := t.setWidth 9, srca := base.bits.setWidth 17, srcc := c.bits.setWidth 17, imm := stride, mod := slot ++ rm ++ BitVec.ofBool inf ++ 0#9 }
  | .mstAuto h t base c slot rm inf stride =>
    { frame h 0xC4 1 with dst := t.setWidth 9, srca := base.bits.setWidth 17, srcc := c.bits.setWidth 17, imm := stride, mod := slot ++ rm ++ BitVec.ofBool inf ++ 0#9 }
  | .mcvt h d t slot => { frame h 0xC5 0 with dst := d.setWidth 9, srca := t.setWidth 17, mod := slot ++ 0#12 }
  | .mtrn h d t => { frame h 0xC6 0 with dst := d.setWidth 9, srca := t.setWidth 17 }
  | .madd h d a b => { frame h 0xC7 0 with dst := d.setWidth 9, srca := a.setWidth 17, srcb := b.setWidth 17 }
  | .maddI h d a b => { frame h 0xC7 1 with dst := d.setWidth 9, srca := a.setWidth 17, srcb := b.setWidth 17 }
  | .mscl h d t (.coef n) => { frame h 0xC8 0 with dst := d.setWidth 9, srca := t.setWidth 17, srcb := n.setWidth 17 }
  | .mscl h d t (.scalar o) => { frame h 0xC8 1 with dst := d.setWidth 9, srca := t.setWidth 17, srcb := o.bits.setWidth 17 }
  | .msync h => frame h 0xC9 0
  | .mrow h d t row => { frame h 0xCA 0 with dst := d.bits, srca := t.setWidth 17, srcb := row.bits.setWidth 17 }
  | .mlicAcq h => frame h 0xCB 0
  | .mlicTry h pd => { frame h 0xCB 1 with dst := pd.setWidth 9 }
  | .mlicRel h => frame h 0xCB 2
  | .mlicGive h => frame h 0xCB 3
  | .twin h (.lit n) b => { frame h 0xCC 0 with srca := n.setWidth 17, srcb := b.setWidth 17 }
  | .twin h (.reg n) b => { frame h 0xCC 1 with srca := (Opnd.s n).bits.setWidth 17, srcb := b.setWidth 17 }
  | .twinOff h => frame h 0xCC 2
  | .txch h d y pat => { frame h 0xCD 0 with dst := d.setWidth 9, srca := (Src.mk (.y y) pat).bits }
  | .mpoly h d x n slot =>
    { frame h 0xD8 0 with dst := d.setWidth 9, srca := x.setWidth 17, srcb := n.setWidth 17, mod := slot ++ 0#12 }
  | .miter h kind x w (.lit n) pd slot wide pf =>
    { frame h 0xD9 kind with
        dst := x.setWidth 9, srca := w.setWidth 17, srcb := n.setWidth 17, srcc := pd.setWidth 17,
        mod := slot ++ BitVec.ofBool wide ++ BitVec.ofBool pf ++ 0#1 ++ 0#9 }
  | .miter h kind x w (.reg n) pd slot wide pf =>
    { frame h 0xD9 kind with
        dst := x.setWidth 9, srca := w.setWidth 17, srcb := (Opnd.s n).bits.setWidth 17, srcc := pd.setWidth 17,
        mod := slot ++ BitVec.ofBool wide ++ BitVec.ofBool pf ++ 1#1 ++ 0#9 }
  | .mres h kind d x w slot wide =>
    { frame h 0xDA kind with dst := d.bits, srca := x.setWidth 17, srcb := w.setWidth 17, mod := slot ++ BitVec.ofBool wide ++ 0#11 }
  | .mcoef h n base off cnt =>
    { frame h 0xDB 0 with dst := n.setWidth 9, srca := base.bits.setWidth 17, srcb := cnt.setWidth 17, imm := off }
  | .mcoefS h n a => { frame h 0xDB 1 with dst := n.setWidth 9, srca := a.bits.setWidth 17 }
  | .mls h d => { frame h 0xDC 0 with dst := d.bits }
  | .mlsw h a => { frame h 0xDD 0 with srca := a.bits.setWidth 17 }
  | .wbegin h cls (.lit n) => { frame h 0xE0 0 with srca := cls.setWidth 17, mod := n ++ 0#3 }
  | .wbegin h cls (.reg n) => { frame h 0xE0 1 with srca := cls.setWidth 17, srcb := (Opnd.s n).bits.setWidth 17 }
  | .wemit h a => { frame h 0xE1 0 with srca := a.bits }
  | .wend h => frame h 0xE2 0
  | .wendR h => frame h 0xE2 1
  | .wdigAdd h a => { frame h 0xE3 0 with srca := a.bits }
  | .wdigEmit h => frame h 0xE3 1
  | .wdigClr h => frame h 0xE3 2
  | .stgseal h none => frame h 0xE4 0
  | .stgseal h (some n) => { frame h 0xE4 0 with dst := (Opnd.s n).bits }
  | .chkerr h d => { frame h 0xE5 0 with dst := d.bits }
  | .chkerrClr h d => { frame h 0xE5 1 with dst := d.bits }
  | .rlogOn h => frame h 0xE5 2
  | .rlogOff h => frame h 0xE5 3
  | .relreq h d m c =>
    { frame h 0xE6 0 with dst := d.bits, srca := m.base.bits, srcb := m.index.bits, imm := m.off, srcc := c.bits, mod := 0#4 ++ m.scale ++ BitVec.ofBool m.idx64 ++ m.qual ++ 0#4 }
  | .vstat h d m =>
    { frame h 0xE7 0 with dst := d.bits, srca := m.base.bits, srcb := m.index.bits, imm := m.off, mod := 0#4 ++ m.scale ++ BitVec.ofBool m.idx64 ++ m.qual ++ 0#4 }
  | .trap h code imm => { frame h 0xE8 0 with srca := code.setWidth 17, imm := imm }
  | .rftNext h => frame h 0xE9 0
  | .rftRegion h => frame h 0xE9 1
  | .rftRetry h => frame h 0xE9 2
  | .brk h code => { frame h 0xEA 0 with srca := code.setWidth 17 }
  | .snap h => frame h 0xEB 0
  | .setsr h num b => { frame h 0xEC 0 with srca := num.setWidth 17, srcb := b.fieldB, imm := b.immB }
  | .tlbinvPage h base off => { frame h 0xED 0 with srca := base.bits.setWidth 17, imm := off }
  | .tlbinvRange h base off c =>
    { frame h 0xED 1 with srca := base.bits.setWidth 17, srcc := c.bits.setWidth 17, imm := off }
  | .tlbinvCtx h => frame h 0xED 2
  | .quiesce h => frame h 0xEE 0
  | _ => frame ⟨.w64, 0, 0, false⟩ 0 0

/-- The instruction a frame of the class control and thread (04 Table 4.6) spells, before its static checks. -/
def buildControl (f : Frame) : Option Instr :=
  match f.major.toNat with
  | 0x00 => some (.bra f.hdr (f.imm))
  | 0x01 => do let a ← Src.ofBits f.srca; some (.bri f.hdr a)
  | 0x02 => some (.call f.hdr (f.imm))
  | 0x03 => do let a ← Src.ofBits f.srca; some (.calli f.hdr a)
  | 0x04 => some (.ret f.hdr)
  | 0x05 => some (.exit f.hdr)
  | 0x06 => some (.nop f.hdr)
  | 0x07 => some (.stall f.hdr (f.srca.setWidth 16))
  | 0x08 => some (.yield f.hdr (f.srca.setWidth 6))
  | 0x09 => some (.coll f.hdr)
  | 0x0A => some (.region f.hdr)
  | 0x0B => do let m ← memOp f; some (.marm f.hdr m (f.mod.extractLsb' 2 2))
  | 0x0C => do
    if f.minor == 0 then some (.mwaitT f.hdr (f.srca.setWidth 11))
    else some (.mwaitP f.hdr (f.dst.setWidth 4) (f.srca.setWidth 11))
  | 0x0D => some (.waitsb f.hdr (f.srca.setWidth 5))
  | _ => none

/-- The instruction a frame of the class integer, address and scalar (05 Table 5.5) spells, before its static checks. -/
def buildInteger (f : Frame) : Option Instr :=
  match f.major.toNat with
  | 0x20 => do let d ← Opnd.ofBits f.dst; let a ← Src.ofBits f.srca; let b ← srcB f; some (.iadd f.hdr d a b (f.mod.getLsbD 14) (f.mod.getLsbD 13) (f.mod.extractLsb' 8 4))
  | 0x21 => do let d ← Opnd.ofBits f.dst; let a ← Src.ofBits f.srca; let b ← srcB f; some (.isub f.hdr d a b (f.mod.getLsbD 14) (f.mod.getLsbD 13) (f.mod.extractLsb' 8 4))
  | 0x22 => do let d ← Opnd.ofBits f.dst; let a ← Src.ofBits f.srca; let b ← srcB f; some (.iaddc f.hdr d a b (f.srcc.setWidth 4) (f.mod.extractLsb' 8 4))
  | 0x23 => do let d ← Opnd.ofBits f.dst; let a ← Src.ofBits f.srca; let b ← srcB f; some (.imul f.hdr d a b (f.mod.getLsbD 14) (f.mod.getLsbD 13))
  | 0x24 => do let d ← Opnd.ofBits f.dst; let a ← Src.ofBits f.srca; let b ← srcB f; some (.imulh f.hdr d a b (f.mod.getLsbD 13))
  | 0x25 => do let d ← Opnd.ofBits f.dst; let a ← Src.ofBits f.srca; let b ← srcB f; let c ← Src.ofBits f.srcc; some (.imad f.hdr d a b c (f.mod.getLsbD 14) (f.mod.getLsbD 13))
  | 0x26 => do let d ← Opnd.ofBits f.dst; let a ← Src.ofBits f.srca; let b ← srcB f; let c ← Src.ofBits f.srcc; some (.imadw f.hdr d a b c (f.mod.getLsbD 13))
  | 0x27 => do let d ← Opnd.ofBits f.dst; let a ← Src.ofBits f.srca; let b ← srcB f; some (.iadd64 f.hdr d a b (f.mod.extractLsb' 8 4))
  | 0x28 => do let d ← Opnd.ofBits f.dst; let a ← Src.ofBits f.srca; let b ← srcB f; some (.isub64 f.hdr d a b (f.mod.extractLsb' 8 4))
  | 0x29 => do let d ← Opnd.ofBits f.dst; let a ← Src.ofBits f.srca; let b ← srcB f; some (.imin f.hdr d a b (f.mod.getLsbD 13))
  | 0x2A => do let d ← Opnd.ofBits f.dst; let a ← Src.ofBits f.srca; let b ← srcB f; some (.imax f.hdr d a b (f.mod.getLsbD 13))
  | 0x2B => do let d ← Opnd.ofBits f.dst; let a ← Src.ofBits f.srca; some (.iabs f.hdr d a)
  | 0x2C => do let d ← Opnd.ofBits f.dst; let a ← Src.ofBits f.srca; some (.ineg f.hdr d a)
  | 0x2D => do let d ← Opnd.ofBits f.dst; let a ← Src.ofBits f.srca; let b ← srcB f; some (.and f.hdr d a b)
  | 0x2E => do let d ← Opnd.ofBits f.dst; let a ← Src.ofBits f.srca; let b ← srcB f; some (.or f.hdr d a b)
  | 0x2F => do let d ← Opnd.ofBits f.dst; let a ← Src.ofBits f.srca; let b ← srcB f; some (.xor f.hdr d a b)
  | 0x30 => do let d ← Opnd.ofBits f.dst; let a ← Src.ofBits f.srca; let b ← srcB f; some (.andn f.hdr d a b)
  | 0x31 => do let d ← Opnd.ofBits f.dst; let a ← Src.ofBits f.srca; some (.not f.hdr d a)
  | 0x32 => do let d ← Opnd.ofBits f.dst; let a ← Src.ofBits f.srca; let b ← srcB f; some (.shl f.hdr d a b (f.mod.getLsbD 12))
  | 0x33 => do let d ← Opnd.ofBits f.dst; let a ← Src.ofBits f.srca; let b ← srcB f; some (.shr f.hdr d a b (f.mod.getLsbD 12))
  | 0x34 => do let d ← Opnd.ofBits f.dst; let a ← Src.ofBits f.srca; let b ← srcB f; some (.sar f.hdr d a b (f.mod.getLsbD 12))
  | 0x35 => do let d ← Opnd.ofBits f.dst; let a ← Src.ofBits f.srca; let b ← srcB f; some (.rotl f.hdr d a b)
  | 0x36 => do
    if f.minor == 0 then let d ← Opnd.ofBits f.dst; let a ← Src.ofBits f.srca; let b ← srcB f; let c ← Src.ofBits f.srcc; some (.shfL f.hdr d a b c)
    else let d ← Opnd.ofBits f.dst; let a ← Src.ofBits f.srca; let b ← srcB f; let c ← Src.ofBits f.srcc; some (.shfR f.hdr d a b c)
  | 0x37 => do let d ← Opnd.ofBits f.dst; let a ← Src.ofBits f.srca; let b ← srcB f; some (.bfe f.hdr d a b (f.mod.getLsbD 13))
  | 0x38 => do let d ← Opnd.ofBits f.dst; let a ← Src.ofBits f.srca; let b ← srcB f; let c ← Src.ofBits f.srcc; some (.bfi f.hdr d a b c)
  | 0x39 => do let d ← Opnd.ofBits f.dst; let a ← Src.ofBits f.srca; some (.popc f.hdr d a)
  | 0x3A => do let d ← Opnd.ofBits f.dst; let a ← Src.ofBits f.srca; some (.clz f.hdr d a)
  | 0x3B => do let d ← Opnd.ofBits f.dst; let a ← Src.ofBits f.srca; some (.ctz f.hdr d a)
  | 0x3C => do let d ← Opnd.ofBits f.dst; let a ← Src.ofBits f.srca; some (.brev f.hdr d a)
  | 0x3D => do let d ← Opnd.ofBits f.dst; let a ← Src.ofBits f.srca; let b ← srcB f; let c ← Src.ofBits f.srcc; some (.prmb f.hdr d a b c)
  | 0x3E => do
    if f.minor == 0 then let a ← Src.ofBits f.srca; let b ← srcB f; some (.isetp f.hdr (f.dst.setWidth 4) a b (f.srcc.setWidth 4) (f.mod.extractLsb' 4 4) (f.mod.extractLsb' 2 2) (f.mod.getLsbD 1))
    else let a ← Src.ofBits f.srca; let b ← srcB f; some (.isetp64 f.hdr (f.dst.setWidth 4) a b (f.srcc.setWidth 4) (f.mod.extractLsb' 4 4) (f.mod.extractLsb' 2 2) (f.mod.getLsbD 1))
  | 0x3F => do let d ← Opnd.ofBits f.dst; let a ← Src.ofBits f.srca; let b ← Src.ofBits f.srcb; some (.isel f.hdr d a b (f.srcc.setWidth 4) (f.mod.getLsbD 7))
  | 0x40 => do let d ← Opnd.ofBits f.dst; let a ← Src.ofBits f.srca; let b ← Src.ofBits f.srcb; some (.lea f.hdr d a b (f.imm) (f.mod.getLsbD 13) (f.mod.extractLsb' 5 3) (f.mod.getLsbD 4))
  | 0x41 => do
    if f.minor == 0 then let d ← Opnd.ofBits f.dst; let a ← Src.ofBits f.srca; some (.mov f.hdr d a)
    else let d ← Opnd.ofBits f.dst; let a ← Src.ofBits f.srca; some (.mov64 f.hdr d a)
  | 0x42 => do
    if f.minor == 0 then let d ← Opnd.ofBits f.dst; some (.movi f.hdr d (f.imm))
    else let d ← Opnd.ofBits f.dst; some (.movi64 f.hdr d (f.imm))
  | 0x43 => some (.plop f.hdr (f.dst.setWidth 4) (f.srca.setWidth 4) (f.srcb.setWidth 4) (f.srcc.setWidth 4) (f.mod.extractLsb' 0 8))
  | 0x44 => do
    if f.minor == 0 then let d ← Opnd.ofBits f.dst; some (.pmovTo f.hdr d)
    else let a ← Src.ofBits f.srca; let b ← Src.ofBits f.srcb; some (.pmovFrom f.hdr a b)
  | 0x45 => do let d ← Opnd.ofBits f.dst; some (.getsr f.hdr d (f.srca.setWidth 8))
  | _ => none

/-- The instruction a frame of the class floating-point, conversion and special-function (06 Table 6.3) spells, before its static checks. -/
def buildFloat (f : Frame) : Option Instr :=
  match f.major.toNat with
  | 0x50 => do let d ← Opnd.ofBits f.dst; let a ← Src.ofBits f.srca; let b ← srcB f; some (.fadd f.hdr d a b (f.mod.extractLsb' 13 2) (f.mod.getLsbD 12))
  | 0x51 => do let d ← Opnd.ofBits f.dst; let a ← Src.ofBits f.srca; let b ← srcB f; some (.fsub f.hdr d a b (f.mod.extractLsb' 13 2) (f.mod.getLsbD 12))
  | 0x52 => do let d ← Opnd.ofBits f.dst; let a ← Src.ofBits f.srca; let b ← srcB f; some (.fmul f.hdr d a b (f.mod.extractLsb' 13 2) (f.mod.getLsbD 12))
  | 0x53 => do let d ← Opnd.ofBits f.dst; let a ← Src.ofBits f.srca; let b ← srcB f; let c ← Src.ofBits f.srcc; some (.ffma f.hdr d a b c (f.mod.extractLsb' 13 2) (f.mod.getLsbD 12))
  | 0x54 => do let d ← Opnd.ofBits f.dst; let a ← Src.ofBits f.srca; let b ← srcB f; some (.fmin f.hdr d a b (f.mod.getLsbD 12))
  | 0x55 => do let d ← Opnd.ofBits f.dst; let a ← Src.ofBits f.srca; let b ← srcB f; some (.fmax f.hdr d a b (f.mod.getLsbD 12))
  | 0x56 => do let a ← Src.ofBits f.srca; let b ← srcB f; some (.fsetp f.hdr (f.dst.setWidth 4) a b (f.srcc.setWidth 4) (f.mod.extractLsb' 4 4) (f.mod.extractLsb' 2 2) (f.mod.getLsbD 1) (f.mod.getLsbD 12))
  | 0x57 => do let a ← Src.ofBits f.srca; some (.fclass f.hdr (f.dst.setWidth 4) a (f.srcb.setWidth 10))
  | 0x58 => do
    if f.minor == 0 then let d ← Opnd.ofBits f.dst; let a ← Src.ofBits f.srca; some (.frnd f.hdr d a (f.mod.extractLsb' 13 2) (f.mod.getLsbD 12))
    else let d ← Opnd.ofBits f.dst; let a ← Src.ofBits f.srca; some (.frndX f.hdr d a (f.mod.extractLsb' 13 2) (f.mod.getLsbD 12))
  | 0x59 => do let d ← Opnd.ofBits f.dst; let a ← Src.ofBits f.srca; let b ← Src.ofBits f.srcb; some (.fscalb f.hdr d a b (f.mod.extractLsb' 13 2) (f.mod.getLsbD 12))
  | 0x5A => do let d ← Opnd.ofBits f.dst; let a ← Src.ofBits f.srca; let b ← Src.ofBits f.srcb; some (.fdscl f.hdr d a b (f.mod.extractLsb' 13 2) (f.mod.getLsbD 12))
  | 0x5B => do let d ← Opnd.ofBits f.dst; let a ← Src.ofBits f.srca; let b ← srcB f; some (.fadd2 f.hdr d a b (f.minor.getLsbD 0) (f.mod.extractLsb' 13 2) (f.mod.getLsbD 12))
  | 0x5C => do let d ← Opnd.ofBits f.dst; let a ← Src.ofBits f.srca; let b ← srcB f; some (.fmul2 f.hdr d a b (f.minor.getLsbD 0) (f.mod.extractLsb' 13 2) (f.mod.getLsbD 12))
  | 0x5D => do let d ← Opnd.ofBits f.dst; let a ← Src.ofBits f.srca; let b ← srcB f; let c ← Src.ofBits f.srcc; some (.ffma2 f.hdr d a b c (f.minor.getLsbD 0) (f.mod.extractLsb' 13 2) (f.mod.getLsbD 12))
  | 0x5E => do let d ← Opnd.ofBits f.dst; let a ← Src.ofBits f.srca; let b ← Src.ofBits f.srcb; let c ← Src.ofBits f.srcc; some (.fdot4 f.hdr (f.minor) d a b c (f.mod.extractLsb' 13 2) (f.mod.getLsbD 12))
  | 0x5F => do let d ← Opnd.ofBits f.dst; let a ← Src.ofBits f.srca; let b ← Src.ofBits f.srcb; let c ← Src.ofBits f.srcc; some (.idot4 f.hdr (f.minor) d a b c (f.mod.getLsbD 7))
  | 0x60 => do let d ← Opnd.ofBits f.dst; let a ← Src.ofBits f.srca; some (.frcp f.hdr d a (f.mod.extractLsb' 13 2) (f.mod.getLsbD 12))
  | 0x61 => do let d ← Opnd.ofBits f.dst; let a ← Src.ofBits f.srca; some (.frsq f.hdr d a (f.mod.getLsbD 12))
  | 0x62 => do let d ← Opnd.ofBits f.dst; let a ← Src.ofBits f.srca; some (.fsqrt f.hdr d a (f.mod.extractLsb' 13 2) (f.mod.getLsbD 12))
  | 0x63 => do let d ← Opnd.ofBits f.dst; let a ← Src.ofBits f.srca; some (.fexp2 f.hdr d a (f.mod.getLsbD 12))
  | 0x64 => do let d ← Opnd.ofBits f.dst; let a ← Src.ofBits f.srca; some (.flog2 f.hdr d a (f.mod.getLsbD 12))
  | 0x65 => do let d ← Opnd.ofBits f.dst; let a ← Src.ofBits f.srca; some (.fsin f.hdr d a (f.mod.getLsbD 12))
  | 0x66 => do let d ← Opnd.ofBits f.dst; let a ← Src.ofBits f.srca; some (.fcos f.hdr d a (f.mod.getLsbD 12))
  | 0x67 => do let d ← Opnd.ofBits f.dst; let a ← Src.ofBits f.srca; some (.ftanh f.hdr d a (f.mod.getLsbD 12))
  | 0x68 => do let d ← Opnd.ofBits f.dst; let a ← Src.ofBits f.srca; some (.cvt f.hdr d a (f.minor) (f.mod.extractLsb' 4 4) (f.mod.extractLsb' 0 4) (f.mod.extractLsb' 13 2) (f.mod.getLsbD 12) (f.mod.getLsbD 11))
  | 0x69 => do
    if f.minor == 0 then let d ← Opnd.ofBits f.dst; let a ← Src.ofBits f.srca; let b ← Opnd.ofBits (f.srcb.setWidth 9); let c ← Opnd.ofBits (f.srcc.setWidth 9); some (.cvts f.hdr d a b c (f.mod.extractLsb' 8 3) (f.mod.extractLsb' 13 2) (f.mod.getLsbD 12) (f.mod.getLsbD 11))
    else if f.minor == 1 then let d ← Opnd.ofBits f.dst; let a ← Src.ofBits f.srca; let b ← Opnd.ofBits (f.srcb.setWidth 9); let c ← Opnd.ofBits (f.srcc.setWidth 9); some (.cvtsAuto f.hdr d a b c (f.mod.extractLsb' 8 3) (f.mod.extractLsb' 13 2) (f.mod.getLsbD 12) (f.mod.getLsbD 11))
    else let d ← Opnd.ofBits f.dst; let a ← Src.ofBits f.srca; let c ← Opnd.ofBits (f.srcc.setWidth 9); some (.cvtsDec f.hdr d a c (f.mod.extractLsb' 8 3) (f.mod.extractLsb' 13 2) (f.mod.getLsbD 12) (f.mod.getLsbD 11))
  | 0x6A => do let d ← Opnd.ofBits f.dst; let a ← Src.ofBits f.srca; let b ← Src.ofBits f.srcb; some (.cvtp f.hdr d a b (f.minor.getLsbD 0) (f.mod.extractLsb' 4 4) (f.mod.extractLsb' 13 2) (f.mod.getLsbD 12) (f.mod.getLsbD 11))
  | 0x6B => do let d ← Opnd.ofBits f.dst; let a ← Src.ofBits f.srca; some (.cvtx f.hdr (f.srcb.setWidth 4) d a (f.minor) (f.mod.extractLsb' 4 4) (f.mod.extractLsb' 0 4) (f.mod.extractLsb' 13 2) (f.mod.getLsbD 12) (f.mod.getLsbD 11))
  | 0x6C => do let d ← Opnd.ofBits f.dst; some (.rnd f.hdr d)
  | _ => none

/-- The instruction a frame of the class cross-lane (07 Table 7.1) spells, before its static checks. -/
def buildCross (f : Frame) : Option Instr :=
  match f.major.toNat with
  | 0x80 => do
    if f.minor == 0 then let d ← Opnd.ofBits f.dst; let a ← Src.ofBits f.srca; let b ← Src.ofBits f.srcb; some (.shflIdx f.hdr d a b (f.segw) (f.mod.getLsbD 4))
    else if f.minor == 1 then let d ← Opnd.ofBits f.dst; let a ← Src.ofBits f.srca; let b ← Src.ofBits f.srcb; some (.shflUp f.hdr d a b (f.segw) (f.mod.getLsbD 4))
    else if f.minor == 2 then let d ← Opnd.ofBits f.dst; let a ← Src.ofBits f.srca; let b ← Src.ofBits f.srcb; some (.shflDown f.hdr d a b (f.segw) (f.mod.getLsbD 4))
    else let d ← Opnd.ofBits f.dst; let a ← Src.ofBits f.srca; let b ← Src.ofBits f.srcb; some (.shflXor f.hdr d a b (f.segw) (f.mod.getLsbD 4))
  | 0x81 => do
    if f.minor == 0 then some (.voteAll f.hdr (f.dst.setWidth 4) (f.srca.setWidth 4) (f.srca.getLsbD 4))
    else if f.minor == 1 then some (.voteAny f.hdr (f.dst.setWidth 4) (f.srca.setWidth 4) (f.srca.getLsbD 4))
    else some (.voteUni f.hdr (f.dst.setWidth 4) (f.srca.setWidth 4) (f.srca.getLsbD 4))
  | 0x82 => do
    if f.minor == 0 then let d ← Opnd.ofBits f.dst; some (.ballot f.hdr d (f.srca.setWidth 4) (f.srca.getLsbD 4))
    else if f.minor == 1 then let d ← Opnd.ofBits f.dst; some (.ballotExec f.hdr d)
    else let d ← Opnd.ofBits f.dst; some (.ballotLive f.hdr d)
  | 0x83 => do let d ← Opnd.ofBits f.dst; let a ← Src.ofBits f.srca; some (.reduce f.hdr d a (f.mod.extractLsb' 8 4) (f.mod.extractLsb' 13 2) (f.mod.getLsbD 12))
  | 0x84 => do
    if f.minor == 0 then let d ← Opnd.ofBits f.dst; let a ← Src.ofBits f.srca; some (.scan f.hdr d a (f.mod.extractLsb' 8 4) (f.mod.extractLsb' 13 2) (f.mod.getLsbD 12))
    else let d ← Opnd.ofBits f.dst; let a ← Src.ofBits f.srca; some (.scanExcl f.hdr d a (f.mod.extractLsb' 8 4) (f.mod.extractLsb' 13 2) (f.mod.getLsbD 12))
  | 0x85 => do let d ← Opnd.ofBits f.dst; let a ← Src.ofBits f.srca; some (.matchLanes f.hdr (f.minor) d a)
  | 0x86 => do let d ← Opnd.ofBits f.dst; let a ← Src.ofBits f.srca; some (.compress f.hdr d a (f.srcb.setWidth 4) (f.srcb.getLsbD 4) (f.minor.getLsbD 0))
  | 0x87 => do let d ← Opnd.ofBits f.dst; let a ← Src.ofBits f.srca; some (.expand f.hdr d a (f.srcb.setWidth 4) (f.srcb.getLsbD 4) (f.minor.getLsbD 0))
  | 0x88 => do
    if f.minor == 0 then some (.elect f.hdr (f.dst.setWidth 4))
    else let d ← Opnd.ofBits f.dst; some (.electIdx f.hdr d)
  | _ => none

/-- The instruction a frame of the class memory access (08 Table 8.7) spells, before its static checks. -/
def buildMemory (f : Frame) : Option Instr :=
  match f.major.toNat with
  | 0x90 => do let d ← Opnd.ofBits f.dst; let m ← memOp f; some (.ld f.hdr d m (f.mod.extractLsb' 12 3) (f.mod.getLsbD 11) (f.mod.extractLsb' 2 2))
  | 0x91 => do let m ← memOp f; let c ← Src.ofBits f.srcc; some (.st f.hdr c m (f.mod.extractLsb' 12 3) (f.mod.extractLsb' 2 2))
  | 0x92 => do let d ← Opnd.ofBits f.dst; let m ← memOp f; some (.ldv f.hdr d m (f.mod.extractLsb' 12 3) (f.mod.extractLsb' 2 2))
  | 0x93 => do let m ← memOp f; let c ← Src.ofBits f.srcc; some (.stv f.hdr c m (f.mod.extractLsb' 12 3) (f.mod.extractLsb' 2 2))
  | 0x94 => do let d ← Opnd.ofBits f.dst; let base ← Src.ofBits f.srca; let c ← Src.ofBits f.srcc; some (.atom f.hdr d base (f.imm) (f.mod.extractLsb' 4 3) c (f.srcb.setWidth 4) (f.srcb.extractLsb' 4 3) (f.mod.extractLsb' 0 2) (f.mod.extractLsb' 12 3))
  | 0x95 => do let d ← Opnd.ofBits f.dst; let base ← Src.ofBits f.srca; let c ← Src.ofBits f.srcc; some (.atomf f.hdr d base (f.imm) (f.mod.extractLsb' 4 3) c (f.srcb.setWidth 4) (f.srcb.extractLsb' 4 3) (f.mod.extractLsb' 0 2))
  | 0x96 => do let base ← Src.ofBits f.srca; let c ← Src.ofBits f.srcc; some (.red f.hdr (f.minor.getLsbD 0) base (f.imm) (f.mod.extractLsb' 4 3) c (f.srcb.setWidth 4) (f.srcb.extractLsb' 4 3) (f.mod.extractLsb' 0 2) (f.mod.extractLsb' 12 3))
  | 0x97 => do
    if f.minor == 0 then some (.fenceAcq f.hdr (f.srca.setWidth 3))
    else if f.minor == 1 then some (.fenceRel f.hdr (f.srca.setWidth 3))
    else if f.minor == 2 then some (.fenceAr f.hdr (f.srca.setWidth 3))
    else some (.fenceSc f.hdr (f.srca.setWidth 3))
  | 0x98 => do let m ← memOp f; some (.ptest f.hdr (f.dst.setWidth 4) m)
  | 0x99 => do let d ← Opnd.ofBits f.dst; let m ← memOp f; let c ← Src.ofBits f.srcc; some (.claim f.hdr d m c)
  | 0x9A => some (.regclm f.hdr (f.srca.setWidth 9))
  | 0x9B => some (.regrel f.hdr (f.srca.setWidth 9))
  | 0x9C => do
    if f.minor == 0 then let m ← memOp f; some (.cctlWb f.hdr m (f.mod.extractLsb' 2 2) (f.mod.extractLsb' 0 2))
    else if f.minor == 1 then let m ← memOp f; some (.cctlInv f.hdr m (f.mod.extractLsb' 2 2) (f.mod.extractLsb' 0 2))
    else if f.minor == 2 then let m ← memOp f; some (.cctlWbinv f.hdr m (f.mod.extractLsb' 2 2) (f.mod.extractLsb' 0 2))
    else let m ← memOp f; some (.cctlRet f.hdr m (f.mod.extractLsb' 2 2) (f.mod.extractLsb' 0 2))
  | 0x9D => do let m ← memOp f; some (.pref f.hdr m (f.mod.extractLsb' 2 2) (f.mod.extractLsb' 0 2))
  | 0x9E => do let d ← Opnd.ofBits f.dst; let m ← memOp f; some (.ldver f.hdr d m (f.mod.extractLsb' 2 2))
  | _ => none

/-- The instruction a frame of the class engine, barrier and stage-queue (10 Table 10.10) spells, before its static checks. -/
def buildEngine (f : Frame) : Option Instr :=
  match f.major.toNat with
  | 0xB0 => do let a ← Src.ofBits f.srca; some (.qpush f.hdr ((f.dst - 352#9).setWidth 3) a)
  | 0xB1 => do let d ← Opnd.ofBits f.dst; some (.qpop f.hdr d ((f.srca - 352#17).setWidth 3))
  | 0xB2 => do let d ← Opnd.ofBits f.dst; some (.qtry f.hdr d ((f.srca - 352#17).setWidth 3) (f.srcb.setWidth 4))
  | 0xB3 => do
    if f.minor == 0 then let bb ← Opnd.ofBits f.dst; let src ← Opnd.ofBits (f.srca.setWidth 9); let dst ← Opnd.ofBits (f.srcb.setWidth 9); let size ← Opnd.ofBits (f.srcc.setWidth 9); some (.copy f.hdr bb src dst size (f.imm))
    else let bb ← Opnd.ofBits f.dst; let pattern ← Opnd.ofBits (f.srca.setWidth 9); let dst ← Opnd.ofBits (f.srcb.setWidth 9); let size ← Opnd.ofBits (f.srcc.setWidth 9); some (.copyFill f.hdr bb pattern dst size (f.imm))
  | 0xB4 => do let bb ← Opnd.ofBits f.dst; let src ← Opnd.ofBits (f.srca.setWidth 9); let idx ← Opnd.ofBits (f.srcb.setWidth 9); let dst ← Opnd.ofBits (f.srcc.setWidth 9); let count ← Opnd.ofBits (f.mod.extractLsb' 6 9); some (.gather f.hdr bb src idx dst count (f.mod.extractLsb' 4 2) (f.imm))
  | 0xB5 => do let bb ← Opnd.ofBits f.dst; let src ← Opnd.ofBits (f.srca.setWidth 9); let idx ← Opnd.ofBits (f.srcb.setWidth 9); let dst ← Opnd.ofBits (f.srcc.setWidth 9); let count ← Opnd.ofBits (f.mod.extractLsb' 6 9); some (.scatter f.hdr bb src idx dst count (f.mod.extractLsb' 4 2) (f.imm))
  | 0xB6 => do let bb ← Opnd.ofBits f.dst; let src ← Opnd.ofBits (f.srca.setWidth 9); let dst ← Opnd.ofBits (f.srcb.setWidth 9); let group ← Opnd.ofBits (f.srcc.setWidth 9); let rank ← Opnd.ofBits (f.mod.extractLsb' 6 9); some (.collr f.hdr bb src dst group rank (f.imm))
  | 0xB7 => do let bb ← Opnd.ofBits f.dst; let src ← Opnd.ofBits (f.srca.setWidth 9); let dst ← Opnd.ofBits (f.srcb.setWidth 9); let group ← Opnd.ofBits (f.srcc.setWidth 9); let rank ← Opnd.ofBits (f.mod.extractLsb' 6 9); some (.collg f.hdr bb src dst group rank (f.imm))
  | 0xB8 => do let d ← Opnd.ofBits f.dst; let base ← Opnd.ofBits (f.srca.setWidth 9); some (.chunk f.hdr d base (f.imm))
  | 0xB9 => do
    if f.minor == 0 then some (.bar f.hdr (f.srca.setWidth 3))
    else if f.minor == 1 then some (.bara f.hdr (f.srca.setWidth 3))
    else some (.barw f.hdr (f.srca.setWidth 3))
  | 0xBA => do let base ← Opnd.ofBits (f.srca.setWidth 9); let c ← Opnd.ofBits (f.srcc.setWidth 9); some (.bbinit f.hdr base (f.imm) c)
  | 0xBB => do let base ← Opnd.ofBits (f.srca.setWidth 9); let c ← Opnd.ofBits (f.srcc.setWidth 9); some (.bbadd f.hdr base (f.imm) c)
  | 0xBC => do
    if f.minor == 0 then let base ← Opnd.ofBits (f.srca.setWidth 9); some (.bbwait f.hdr base (f.imm))
    else let base ← Opnd.ofBits (f.srca.setWidth 9); some (.bbwaitP f.hdr (f.dst.setWidth 4) base (f.imm))
  | 0xBD => do let a ← Opnd.ofBits (f.srca.setWidth 9); some (.sqpush f.hdr (f.srcb.setWidth 4) a)
  | 0xBE => do
    match f.len with
    | .w64 => let a ← Opnd.ofBits f.dst; some (.sqpop f.hdr (f.srcb.setWidth 4) a (f.srca.setWidth 4))
    | _ => let a ← Opnd.ofBits (f.srca.setWidth 9); some (.sqpop f.hdr (f.srcb.setWidth 4) a (f.dst.setWidth 4))
  | 0xBF => some (.sqclose f.hdr (f.srcb.setWidth 4))
  | _ => none

/-- The instruction a frame of the class matrix and twin (11 Table 11.7) spells, before its static checks. -/
def buildMatrix (f : Frame) : Option Instr :=
  match f.major.toNat with
  | 0xC0 => do let a ← Opnd.ofBits (f.srca.setWidth 9); let b ← Opnd.ofBits (f.srcb.setWidth 9); let c ← Opnd.ofBits (f.srcc.setWidth 9); some (.mma f.hdr (f.dst.setWidth 3) a b c (f.mod.extractLsb' 12 3) (f.imm))
  | 0xC1 => do let a ← Opnd.ofBits (f.srca.setWidth 9); let b ← Opnd.ofBits (f.srcb.setWidth 9); let c ← Opnd.ofBits (f.srcc.setWidth 9); some (.mmaf f.hdr (f.minor) (f.dst.setWidth 3) a b c (f.mod.extractLsb' 12 3))
  | 0xC2 => do let tid ← Opnd.ofBits (f.srca.setWidth 9); some (.mzero f.hdr (f.dst.setWidth 3) tid)
  | 0xC3 => do let base ← Opnd.ofBits (f.srca.setWidth 9); let tid ← Opnd.ofBits (f.srcb.setWidth 9); let c ← Opnd.ofBits (f.srcc.setWidth 9); some (.mld f.hdr (f.dst.setWidth 3) base tid c (f.mod.extractLsb' 12 3) (f.imm))
  | 0xC4 => do
    if f.minor == 0 then let base ← Opnd.ofBits (f.srca.setWidth 9); let c ← Opnd.ofBits (f.srcc.setWidth 9); some (.mst f.hdr (f.dst.setWidth 3) base c (f.mod.extractLsb' 12 3) (f.mod.extractLsb' 10 2) (f.mod.getLsbD 9) (f.imm))
    else let base ← Opnd.ofBits (f.srca.setWidth 9); let c ← Opnd.ofBits (f.srcc.setWidth 9); some (.mstAuto f.hdr (f.dst.setWidth 3) base c (f.mod.extractLsb' 12 3) (f.mod.extractLsb' 10 2) (f.mod.getLsbD 9) (f.imm))
  | 0xC5 => some (.mcvt f.hdr (f.dst.setWidth 3) (f.srca.setWidth 3) (f.mod.extractLsb' 12 3))
  | 0xC6 => some (.mtrn f.hdr (f.dst.setWidth 3) (f.srca.setWidth 3))
  | 0xC7 => do
    if f.minor == 0 then some (.madd f.hdr (f.dst.setWidth 3) (f.srca.setWidth 3) (f.srcb.setWidth 3))
    else some (.maddI f.hdr (f.dst.setWidth 3) (f.srca.setWidth 3) (f.srcb.setWidth 3))
  | 0xC8 => do
    if f.minor == 0 then some (.mscl f.hdr (f.dst.setWidth 3) (f.srca.setWidth 3) (.coef (f.srcb.setWidth 4)))
    else let o ← Opnd.ofBits (f.srcb.setWidth 9); some (.mscl f.hdr (f.dst.setWidth 3) (f.srca.setWidth 3) (.scalar o))
  | 0xC9 => some (.msync f.hdr)
  | 0xCA => do let d ← Opnd.ofBits f.dst; let row ← Opnd.ofBits (f.srcb.setWidth 9); some (.mrow f.hdr d (f.srca.setWidth 3) row)
  | 0xCB => do
    if f.minor == 0 then some (.mlicAcq f.hdr)
    else if f.minor == 1 then some (.mlicTry f.hdr (f.dst.setWidth 4))
    else if f.minor == 2 then some (.mlicRel f.hdr)
    else some (.mlicGive f.hdr)
  | 0xCC => 
    if f.minor == 0 then some (.twin f.hdr (.lit (f.srca.setWidth 5)) (f.srcb.setWidth 8))
    else if f.minor == 1 then some (.twin f.hdr (.reg (f.srca.setWidth 6)) (f.srcb.setWidth 8))
    else some (.twinOff f.hdr)
  | 0xCD => do let pat ← Pat.ofBits (f.srca.extractLsb' 9 8); some (.txch f.hdr (f.dst.setWidth 8) ((f.srca.setWidth 9 - 320#9).setWidth 5) pat)
  | _ => none

/-- The instruction a frame of the class iteration (12 Table 12.6) spells, before its static checks. -/
def buildIterate (f : Frame) : Option Instr :=
  match f.major.toNat with
  | 0xD8 => some (.mpoly f.hdr (f.dst.setWidth 3) (f.srca.setWidth 3) (f.srcb.setWidth 4) (f.mod.extractLsb' 12 3))
  | 0xD9 => 
    some (.miter f.hdr f.minor (f.dst.setWidth 3) (f.srca.setWidth 3)
      (if f.mod.getLsbD 9 then .reg (f.srcb.setWidth 6) else .lit (f.srcb.setWidth 12)) (f.srcc.setWidth 4)
      (f.mod.extractLsb' 12 3) (f.mod.getLsbD 11) (f.mod.getLsbD 10))
  | 0xDA => do let d ← Opnd.ofBits f.dst; some (.mres f.hdr (f.minor) d (f.srca.setWidth 3) (f.srcb.setWidth 3) (f.mod.extractLsb' 12 3) (f.mod.getLsbD 11))
  | 0xDB => do
    if f.minor == 0 then let base ← Opnd.ofBits (f.srca.setWidth 9); some (.mcoef f.hdr (f.dst.setWidth 4) base (f.imm) (f.srcb.setWidth 5))
    else let a ← Opnd.ofBits (f.srca.setWidth 9); some (.mcoefS f.hdr (f.dst.setWidth 4) a)
  | 0xDC => do let d ← Opnd.ofBits f.dst; some (.mls f.hdr d)
  | 0xDD => do let a ← Opnd.ofBits (f.srca.setWidth 9); some (.mlsw f.hdr a)
  | _ => none

/-- The instruction a frame of the class witness, staging and release (13 Table 13.10) spells, before its static checks. -/
def buildWitness (f : Frame) : Option Instr :=
  match f.major.toNat with
  | 0xE0 => 
    some (.wbegin f.hdr (f.srca.setWidth 4)
      (if f.minor == 1 then .reg (f.srcb.setWidth 6) else .lit (f.mod.extractLsb' 3 12)))
  | 0xE1 => do let a ← Src.ofBits f.srca; some (.wemit f.hdr a)
  | 0xE2 => do
    if f.minor == 0 then some (.wend f.hdr)
    else some (.wendR f.hdr)
  | 0xE3 => do
    if f.minor == 0 then let a ← Src.ofBits f.srca; some (.wdigAdd f.hdr a)
    else if f.minor == 1 then some (.wdigEmit f.hdr)
    else some (.wdigClr f.hdr)
  | 0xE4 => 
    some (.stgseal f.hdr (if f.len == .w96 then some (f.dst.setWidth 6) else none))
  | 0xE5 => do
    if f.minor == 0 then let d ← Opnd.ofBits f.dst; some (.chkerr f.hdr d)
    else if f.minor == 1 then let d ← Opnd.ofBits f.dst; some (.chkerrClr f.hdr d)
    else if f.minor == 2 then some (.rlogOn f.hdr)
    else some (.rlogOff f.hdr)
  | 0xE6 => do let d ← Opnd.ofBits f.dst; let m ← memOp f; let c ← Src.ofBits f.srcc; some (.relreq f.hdr d m c)
  | 0xE7 => do let d ← Opnd.ofBits f.dst; let m ← memOp f; some (.vstat f.hdr d m)
  | _ => none

/-- The instruction a frame of the class system, trap and context (14 Table 14.4) spells, before its static checks. -/
def buildSystem (f : Frame) : Option Instr :=
  match f.major.toNat with
  | 0xE8 => some (.trap f.hdr (f.srca.setWidth 8) (f.imm))
  | 0xE9 => do
    if f.minor == 0 then some (.rftNext f.hdr)
    else if f.minor == 1 then some (.rftRegion f.hdr)
    else some (.rftRetry f.hdr)
  | 0xEA => some (.brk f.hdr (f.srca.setWidth 8))
  | 0xEB => some (.snap f.hdr)
  | 0xEC => do let b ← srcB f; some (.setsr f.hdr (f.srca.setWidth 8) b)
  | 0xED => do
    if f.minor == 0 then let base ← Opnd.ofBits (f.srca.setWidth 9); some (.tlbinvPage f.hdr base (f.imm))
    else if f.minor == 1 then let base ← Opnd.ofBits (f.srca.setWidth 9); let c ← Opnd.ofBits (f.srcc.setWidth 9); some (.tlbinvRange f.hdr base (f.imm) c)
    else some (.tlbinvCtx f.hdr)
  | 0xEE => some (.quiesce f.hdr)
  | _ => none

/-- The instruction a frame spells, before its static checks. -/
def build (f : Frame) : Option Instr :=
  let m := f.major.toNat
  if m ≤ 0x1F then buildControl f
  else if m ≤ 0x4F then buildInteger f
  else if m ≤ 0x7F then buildFloat f
  else if m ≤ 0x8F then buildCross f
  else if m ≤ 0xAF then buildMemory f
  else if m ≤ 0xBF then buildEngine f
  else if m ≤ 0xD7 then buildMatrix f
  else if m ≤ 0xDF then buildIterate f
  else if m ≤ 0xE7 then buildWitness f
  else buildSystem f

/-! ## Pair words (02 Tables 2.10 and 2.11) -/

def PSlot.word (s : PSlot) : Nat :=
  s.sop.toNat + 2 ^ 7 * s.sd.bits.toNat + 2 ^ 16 * s.sa.bits.toNat + 2 ^ 25 * s.sb.bits.toNat +
  2 ^ 34 * s.sc.bits.toNat + 2 ^ 43 * s.guard.toNat + 2 ^ 47 * s.gneg.toNat + 2 ^ 48 * s.smod.toNat

def PSlot.ofWord (w : Nat) : Option PSlot := do
  let sd ← Opnd.ofBits (BitVec.ofNat 9 (w / 2 ^ 7))
  let sa ← Opnd.ofBits (BitVec.ofNat 9 (w / 2 ^ 16))
  let sb ← Opnd.ofBits (BitVec.ofNat 9 (w / 2 ^ 25))
  let sc ← Opnd.ofBits (BitVec.ofNat 9 (w / 2 ^ 34))
  some ⟨BitVec.ofNat 6 (w / 2 ^ 48), bitAt w 47, BitVec.ofNat 4 (w / 2 ^ 43), sc, sb, sa, sd, BitVec.ofNat 7 w⟩

def pairBits (stall : BitVec 4) (s0 s1 : PSlot) : Nat :=
  3 + 2 ^ 2 * stall.toNat + 2 ^ 11 * 0xFF + 2 ^ 19 * s0.word + 2 ^ 73 * s1.word

/-- A pair word: the encoding rules of its slots (rule 7) before the pairing rules (rule 8). -/
def decodePair (w : Nat) : Except Reject Instr :=
  match PSlot.ofWord (w / 2 ^ 19 % 2 ^ 54), PSlot.ofWord (w / 2 ^ 73 % 2 ^ 54) with
  | some s0, some s1 =>
    let st := BitVec.ofNat 4 (w / 2 ^ 2)
    if !(s0.encOk && s1.encOk && pairBits st s0 s1 == w) then .error .badField
    else if pairOk s0 s1 then .ok (.pairWord st s0 s1)
    else .error .badPairing
  | _, _ => .error .badField

/-! ## The decoder and the encoder -/

/-- The word of an instruction, as a number (an event has none and answers 0). -/
def encode : Instr → Nat
  | .pairWord st s0 s1 => pairBits st s0 s1
  | .unassignedMajor _ w => w.toNat
  | i => (encodeFrame i).word

/-- The length of an instruction's word in bytes. -/
def Instr.bytes : Instr → Nat
  | .pairWord _ _ _ => 16
  | .unassignedMajor len _ => 4 * (len.toNat + 1)
  | i => (encodeFrame i).len.bytes

/-- The 32-bit words of an instruction, the one at the lowest address first (02 R31). -/
def encodeWords (i : Instr) : List Word :=
  (List.range (i.bytes / 4)).map (fun k => BitVec.ofNat 32 (encode i / 2 ^ (32 * k)))

/-- The lengths at which an assigned major exists (02 Table 2.7). -/
def majorLens (m : Nat) : List Len :=
  if m ∈ [0x00, 0x02, 0x42, 0xB3, 0xB4, 0xB5, 0xB6, 0xB7, 0xFF] then [.w128]
  else if m ∈ [0x06, 0x20, 0x21, 0x23, 0x24, 0x27, 0x28, 0x29, 0x2A, 0x2D, 0x2E, 0x2F, 0x30, 0x32, 0x33, 0x34, 0x35,
      0x50, 0x51, 0x52, 0x54, 0x55, 0x5B, 0x5C] then [.w64, .w96, .w128]
  else if m ∈ [0x3F, 0x43, 0x57, 0x58, 0x5E, 0x5F, 0x68, 0x69, 0x6A, 0x6B, 0x83, 0x84, 0xC1, 0xC5, 0xC7, 0xC8, 0xCA,
      0xD8, 0xD9, 0xDA, 0xE0] then [.w96]
  else if m ∈ [0x59, 0x5A, 0x60, 0x61, 0x62, 0x63, 0x64, 0x65, 0x66, 0x67, 0x80, 0xBD, 0xBE, 0xE4] then [.w64, .w96]
  else if m ∈ [0xE8, 0xEC] then [.w64, .w128]
  else if m ∈ [0x0B, 0x22, 0x25, 0x26, 0x36, 0x37, 0x38, 0x3D, 0x3E, 0x40, 0x53, 0x56, 0x5D, 0x90, 0x91, 0x92, 0x93,
      0x94, 0x95, 0x96, 0x98, 0x99, 0x9C, 0x9D, 0x9E, 0xB8, 0xBA, 0xBB, 0xBC, 0xC0, 0xC3, 0xC4, 0xDB, 0xE6, 0xE7,
      0xED] then [.w96, .w128]
  else [.w64]

/-- The instruction of a word `w` of length `l`, in the order of 02 R35 (rules 4, 5, 7, 8; rule 6 is the launch's). -/
def decodeWord (l : Len) (w : Nat) : Except Reject Instr :=
  let f := Frame.ofWord l w
  let m := f.major.toNat
  if majorReserved m || majorUnassigned m then .ok (.unassignedMajor (BitVec.ofNat 2 l.code) (BitVec.ofNat 128 w))
  else if !(majorLens m).contains l then .error .badLength
  else if m = 0xFF then decodePair w
  else match build f with
    | some i => if i.wf && encode i == w then .ok i else .error .badField
    | none => .error .badField

/-- The length of a word from its first 32 bits (02 Table 2.1); `none` for code `0b00`. -/
def lenOf (w : Nat) : Option Len :=
  match w % 4 with
  | 1 => some .w64
  | 2 => some .w96
  | 3 => some .w128
  | _ => none

/-- Bytes, the one at the lowest address first, as a number (00 R6). -/
def leNat : List Byte → Nat
  | [] => 0
  | b :: r => b.toNat + 256 * leNat r

/-- The `n` low bytes of a number, the lowest first. -/
def leBytes : Nat → Nat → List Byte
  | 0, _ => []
  | n + 1, w => BitVec.ofNat 8 w :: leBytes n (w / 256)

/-- The instruction that a list of bytes starts with, and the bytes after it. Total on any bytes. -/
def decodeBytes (bs : List Byte) : Except Reject (Instr × List Byte) :=
  if bs.length < 4 then .error .truncated
  else
    let w0 := leNat (bs.take 4)
    match lenOf w0 with
    | none =>
      if w0 = padWord then .error .pad
      else .ok (.unassignedMajor 0 (BitVec.ofNat 128 w0), bs.drop 4)
    | some l =>
      if bs.length < l.bytes then .error .truncated
      else match decodeWord l (leNat (bs.take l.bytes)) with
        | .ok i => .ok (i, bs.drop l.bytes)
        | .error e => .error e

/-- The bytes of an instruction's word. -/
def encodeBytes (i : Instr) : List Byte := leBytes i.bytes (encode i)

/-- What the decoder reads from an instruction whose bits are `w`, numbered as the opcode table numbers them; the bits
above `nbits` are zero. -/
def decodeTableWord (nbits w : Nat) : Option Instr :=
  match decodeBytes (leBytes 16 (w % 2 ^ nbits)) with
  | .ok (i, _) => some i
  | .error _ => none

/-! ## What rule 6 needs: the features a word belongs to (02 R57, 15 Table 15.8) -/

/-- The fields of a major that hold register operands: DST, SRCA, SRCB, SRCC, and MOD[14:6] where an engine command
carries its count or rank there (10 Table 10.10). -/
def regFields (f : Frame) : List Nat :=
  let m := f.major.toNat
  let d := f.dst.toNat
  let a := f.srca.toNat % 512
  let b := if f.len = .w128 then 0 else f.srcb.toNat % 512
  let bm := f.srcb.toNat % 512
  let c := f.srcc.toNat % 512
  if m ∈ [0x01, 0x03] then [a]
  else if m = 0x0B then [a, bm]
  else if m ∈ [0x25, 0x26, 0x36, 0x38, 0x3D, 0x53, 0x5D, 0x5E, 0x5F, 0x69] then [d, a, b, c]
  else if m ∈ [0x3E, 0x56] then [a, b]
  else if m = 0x40 then [d, a, bm]
  else if m = 0x42 || m = 0x45 || m = 0x6C then [d]
  else if m = 0x43 then []
  else if m = 0x44 then (if f.minor == 0 then [d] else [a, b])
  else if m = 0x57 then [a]
  else if m = 0x6B then [d, a]
  else if m ≥ 0x20 && m ≤ 0x6A then [d, a, b]
  else if m = 0x81 then []
  else if m = 0x82 then [d]
  else if m ∈ [0x83, 0x84, 0x85, 0x86, 0x87] then [d, a]
  else if m = 0x88 then (if f.minor == 0 then [] else [d])
  else if m = 0x80 then [d, a, b]
  else if m ∈ [0x90, 0x92, 0x9E, 0xE7] then [d, a, bm]
  else if m ∈ [0x91, 0x93] then [a, bm, c]
  else if m ∈ [0x94, 0x95] then [d, a, c]
  else if m = 0x96 then [a, c]
  else if m ∈ [0x98, 0x9C, 0x9D] then [a, bm]
  else if m ∈ [0x99, 0xE6] then [d, a, bm, c]
  else if m ∈ [0xB0, 0xB1, 0xB2, 0xB8] then [d, a]
  else if m = 0xB3 then [d, a, bm, c]
  else if m ∈ [0xB4, 0xB5, 0xB6, 0xB7] then [d, a, bm, c, (f.mod.extractLsb' 6 9).toNat]
  else if m ∈ [0xBA, 0xBB, 0xBC, 0xE1] then [a, c]
  else if m ∈ [0xC0, 0xC1, 0xC3] then [a, bm, c]
  else if m = 0xC4 then [a, c]
  else if m ∈ [0xC2, 0xDB, 0xDD, 0xBD] then [a]
  else if m = 0xC8 then (if f.minor == 0 then [] else [bm])
  else if m = 0xCA then [d, bm]
  else if m = 0xBE then (if f.len = .w64 then [d] else [a])
  else if m ∈ [0xDA, 0xDC, 0xE5] then [d]
  else if m = 0xE3 then (if f.minor == 0 then [a] else [])
  else if m = 0xED then (if f.minor == 0 then [a] else if f.minor == 1 then [a, c] else [])
  else if m = 0xEC then [b]
  else []

/-- The operand fields of a pair word: SD, SA, SB and SC of each slot. -/
def slotFields (w : Nat) : List Nat :=
  [w / 2 ^ 19, w / 2 ^ 73].flatMap (fun x => [7, 16, 25, 34].map (fun k => x / 2 ^ k % 512))

/-- The feature bits a word needs (15 Table 15.8). -/
def wordFeatures (l : Len) (w : Nat) : List Nat :=
  let f := Frame.ofWord l w
  let m := f.major.toNat
  let rs := if m = 0xFF then slotFields w else regFields f
  let dt := bitsOf w 88 85
  let st := bitsOf w 84 81
  let is (b : Bool) (k : Nat) : List Nat := if b then [k] else []
  is ((m == 0x5E && f.minor == 3) || ((m == 0x68 || m == 0x6B) && (dt == 3 || st == 3)) || (m == 0x6A && dt == 3)) 0 ++
  is (0xD8 ≤ m && m ≤ 0xDD) 1 ++
  is (m == 0xCC || m == 0xCD || rs.any (fun r => 320 ≤ r && r < 352)) 2 ++
  is ((0xE0 ≤ m && m ≤ 0xE3) || m == 0xE6) 6 ++
  is ((0xBD ≤ m && m ≤ 0xBF) || rs.any (fun r => r == 356 || r == 357)) 7 ++
  is (m == 0xB6 || m == 0xB7 || rs.any (fun r => r == 354)) 8 ++
  is (m == 0xB8 || rs.any (fun r => r == 355)) 9

end Sys2Proof
end

