-- ==== Sys2Proof/Machine/Hash.lean ====
section
/-!
DEFINITION. Sys2Proof/Machine/Hash.lean: the codes and digests that the package computes: the check code of a sector (08
R202), CRC-32C of a witness record (13 R350), and SHA3-512 (01 R23, 16 R436), which the spec names and FIPS 202 defines
(log 54).
-/

namespace Sys2Proof.Machine

open Sys2Proof

/-! ## Cyclic codes -/

/-- One bit of the T10-DIF code: polynomial 0x8BB7, not reflected. -/
def t10Bit (c : Nat) : Nat := if c < 2 ^ 15 then c * 2 else (c * 2 - 2 ^ 16) ^^^ 0x8BB7

/-- `f` applied `n` times. -/
def times {α : Type} (f : α → α) : Nat → α → α
  | 0, x => x
  | n + 1, x => times f n (f x)

/-- The check code of bytes in increasing address order: initial value 0, no final XOR (08 R202). -/
def t10 (bs : List Byte) : Nat := bs.foldl (fun c b => times t10Bit 8 (c ^^^ b.toNat * 2 ^ 8)) 0

/-- One bit of the reflected CRC-32C (polynomial 0x1EDC6F41). -/
def crcBit (c : Nat) : Nat := if c % 2 = 0 then c / 2 else c / 2 ^^^ 0x82F63B78

/-- CRC-32C of bytes: initial value and final XOR of ones. -/
def crc32c (bs : List Byte) : Nat := bs.foldl (fun c b => times crcBit 8 (c ^^^ b.toNat)) 0xFFFFFFFF ^^^ 0xFFFFFFFF

/-! ## SHA3-512 (FIPS 202) -/

/-- The state of the permutation: five rows of five lanes. -/
abbrev Rows := List (List DWord)
def Rows.lane (a : Rows) (x y : Nat) : DWord := (a.getD (y % 5) []).getD (x % 5) 0

/-- How far the lane of column `x` and row `y` turns: the places are visited from column 1 of row 0 on, and visit `t` turns by
the `t`-th triangular number. The lane of column 0 and row 0 is never visited and does not turn. -/
def turnFrom (x y : Nat) : Nat → Nat → Nat → Nat → Nat
  | 0, _, _, _ => 0
  | n + 1, t, p, q =>
    if p = x && q = y then t * (t + 1) / 2 % 64 else turnFrom x y n (t + 1) q ((2 * p + 3 * q) % 5)
def turnOf (x y : Nat) : Nat := turnFrom x y 24 1 1 0
def turns : List (List Nat) := (List.range 5).map (fun y => (List.range 5).map (fun x => turnOf x y))

/-- The eight-bit register whose low bits make the constants of the rounds, stepped once. -/
def lfsr (r : Nat) : Nat := if r < 128 then 2 * r else (2 * r) ^^^ 0x171

/-- The constant of the round that finds the register at `r`: seven of its low bits, at positions 2^j - 1. -/
def roundWord (r : Nat) : DWord :=
  BitVec.ofNat 64 ((List.range 7).foldl (fun n j => n + times lfsr j r % 2 * 2 ^ (2 ^ j - 1)) 0)

/-- One round: each lane takes the parities beside its column, turns and moves; then each row is mixed with itself, and the
first lane takes the round's constant. -/
def sha3Round (tn : List (List Nat)) (rc : DWord) (a : Rows) : Rows :=
  let par := (List.range 5).map (fun x => a.foldl (fun c r => c ^^^ r.getD x 0) 0)
  let col (x : Nat) : DWord := par.getD (x % 5) 0
  let moved (x y : Nat) : DWord := (a.lane x y ^^^ col (x + 4) ^^^ (col (x + 1)).rotateLeft 1).rotateLeft ((tn.getD y []).getD (x % 5) 0)
  (List.range 5).map (fun y =>
    let row := (List.range 5).map (fun x => moved (x + 3 * y) x)
    let r (x : Nat) : DWord := row.getD (x % 5) 0
    (List.range 5).map (fun x => r x ^^^ (~~~ r (x + 1) &&& r (x + 2)) ^^^ (if x = 0 && y = 0 then rc else 0)))

/-- The rounds left, with the register of their constants. -/
def sha3Rounds (tn : List (List Nat)) : Nat → Nat → Rows → Rows
  | 0, _, a => a
  | n + 1, r, a => sha3Rounds tn n (times lfsr 7 r) (sha3Round tn (roundWord r) a)

/-- Take in blocks of 72 bytes: each is added to the first nine lanes, and 24 rounds follow. -/
def sha3Blocks : Nat → List Byte → Rows → Rows
  | 0, _, a => a
  | n + 1, bs, a => sha3Blocks n (bs.drop 72) (sha3Rounds turns 24 1 ((List.range 5).map (fun y => (List.range 5).map (fun x =>
      let k := 5 * y + x
      if k < 9 then a.lane x y ^^^ BitVec.ofNat 64 (leNat ((bs.drop (8 * k)).take 8)) else a.lane x y))))

/-- The message with the bits 01 and the padding of rate 576. -/
def sha3Pad (bs : List Byte) : List Byte :=
  match 72 - bs.length % 72 with
  | 1 => bs ++ [0x86]
  | n => bs ++ [0x06] ++ List.replicate (n - 2) 0 ++ [0x80]

/-- SHA3-512 of bytes; byte 0 of the digest is the lowest of the number. -/
def sha3 (bs : List Byte) : BitVec 512 :=
  let p := sha3Pad bs
  let a := sha3Blocks (p.length / 72) p []
  BitVec.ofNat 512 ((List.range 8).foldl (fun n k => n + (a.lane k (k / 5)).toNat * 2 ^ (64 * k)) 0)

/-- HMAC with SHA3-512, whose block is 72 bytes. -/
def hmac (key msg : List Byte) : List Byte :=
  let k := if 72 < key.length then leBytes 64 (sha3 key).toNat else key
  let pad (x : Byte) : List Byte := (k ++ List.replicate (72 - k.length) 0).map (· ^^^ x)
  leBytes 64 (sha3 (pad 0x5C ++ leBytes 64 (sha3 (pad 0x36 ++ msg)).toNat)).toNat

/-- HKDF with HMAC-SHA3-512 (16 R428): one block of 64 bytes for a salt and a label (log 93). -/
def hkdf (salt key label : List Byte) : BitVec 512 := BitVec.ofNat 512 (leNat (hmac (hmac salt key) (label ++ [1])))

end Sys2Proof.Machine
end

