-- ==== Sys2Proof/Machine/State.lean ====
section
/-!
DEFINITION. Sys2Proof/Machine/State.lean: everything the ES1 is in at one moment, as plain data. Threads, waves, teams,
cores and launches are held in sparse maps by number; an unlisted number reads as a stated default.
Thread number `tid` = `wid` * 32 + lane, wave number `wid` = tag * 32 + widx, where tag is the team context's `CTXTAG`.
-/

namespace Sys2Proof.Machine

open Sys2Proof

/-! ## Threads and waves -/

/-- Where a byte lies once its address is decoded and translated (08 R187, R188; 14 R399). -/
inductive Loc where
  | mem (pa : Nat)                                  -- a byte of physical memory, 52-bit address
  | scr (tag off : Nat)                             -- a byte of a team's scratchpad
  | reg (wid n lane byte : Nat)                     -- a byte of a register, through the register window
  | arg (lid off : Nat)                             -- a byte of a launch's argument copy
  | stg (page off : Nat)                            -- a byte of a staging page, by frame number
  | sealed (region pa : Nat)                        -- a byte of memory, read through a page of a sealed region (16 R430)
  deriving DecidableEq, Repr

/-- What a thread waits for. A thread that waits is not ready (04 R88). -/
inductive Park where
  | none
  | mwait (limit : Nat) (pd : Option Pred) (n : Nat) -- 04 R117: until the hit flag or clk `limit`
  | yield (left : Nat)                              -- 04 R113: at most `left` more boundaries
  | waitsb (mask : Nat)                             -- 04 R118
  | presence (tag line : Nat)                       -- 08 R195
  | refill (wid reg : Nat)                          -- 08 R191, 09 R248
  | staging (page : Nat)                            -- 09 R253
  | frame (page : Nat)                              -- 13 R345
  | claim                                           -- 08 R217
  | bbwait (loc : Loc) (pd : Option Pred) (len : Nat) (seen : Option Bool) -- 10 R277: `seen` once released, COUNT being 0
  | barrier (lid rtag episode : Nat) (due : Option Nat) -- 10 R278, R280: `due` once the episode is complete
  | sq (lid q : Nat)                                -- 10 R294
  | seal (n : Nat)                                  -- 13 R349
  | licence                                         -- 11 R309, R323
  | iter                                            -- 12 R332: the wave's `MITER` or `MPOLY` runs
  | quiesce (stamp : Nat)                           -- 14 R391
  | snap                                            -- 14 R388
  | pair                                            -- 14 R394: a pair point
  | firmware (code : Nat)                           -- 14 R380: a system trap waits for the driver
  | ring                                            -- 15 R422: no room to report a fault
  | brk (len : Nat)                                 -- 14 R387: at a `BRK` that halted its die
  | page (frame : Nat)                              -- 08 R200: an access to a page that is moving
  deriving DecidableEq, Repr

/-- What a memory access does at its place (08 R209-R213). -/
inductive MemDo where
  | load (bytes : Nat) (sx : Bool)
  | ver
  | marm                        -- 04 R116: the registration of a monitor at a far home
  | chunk                       -- 10 R274: a request at a far chunk counter
  | bbwait                      -- 10 R277: a wait at a far barrier object
  | eng (cmd : Nat)             -- 14 R402: a remote operation of an engine command
  | coll (cmd : Nat)            -- 10 R271: a collective command that has arrived at a far record
  | entry                       -- 10 R294: the entry of an `SQPUSH`
  | store
  | atom (flt : Bool) (op bytes : Nat)
  | red (flt : Bool) (op bytes : Nat)
  deriving DecidableEq, Repr

/-- One thread's access: what it does, its places with their bytes and addresses, its operand words, and the pending
result (core and number) it delivers to. -/
structure PAcc where
  core : Nat
  tid : Nat
  pc : Nat
  op : MemDo
  pieces : List (Loc × Nat × Nat)
  data : List Word := []
  vres : Option (Nat × Nat) := none
  stamp : Nat := 0              -- 09 R257: the quiescence stamp at issue
  hint : Nat := 0               -- 08 R190, R197
  acq : Bool := false           -- 09 R236: its read is an acquire
  so : Bool := false            -- 09 R226: it reaches an SO page
  deriving DecidableEq, Repr

/-- The trap registers 0x20-0x2F (14 Table 14.2). -/
structure TrapRegs where
  cause : Word := 0
  pc : Nat := 0
  npc : Nat := 0
  ad : DWord := 0
  mask : Word := 0
  info : Word := 0
  rpc : Nat := 0
  rcnt : Word := 0
  rdep : Nat := 0
  wds : Nat := 0
  inTrap : Bool := false
  scr : Word := 0
  deriving DecidableEq, Repr

/-- What firmware receives of a system trap (14 R380): the launch and the thread, the trap registers, and the words that the
owning rule records (14 R382, log 51). -/
structure FwTrap where
  lid : Nat
  tid : Nat
  regs : TrapRegs
  words : List Word
  deriving DecidableEq, Repr

/-- A trap as it is raised: what Table 14.3 records of it. -/
structure TrapInfo where
  code : Nat
  sub : Nat := 0
  ad : DWord := 0
  mask : Word := 0
  info : Word := 0
  words : List Word := []
  deriving DecidableEq, Repr

/-- The record of an engine fault held for its pusher (10 R284, R285). -/
structure HeldFault where
  id : Nat                      -- the command's number: faults are taken in push order
  code : Nat
  sub : Nat
  ad : DWord
  tag : Nat
  pc : Nat
  rpc : Nat
  rcount : Word
  rdepth : Nat
  words : List Word
  info : Word := 0              -- 14 R402: of a timeout, the package
  deriving DecidableEq, Repr

/-- One thread (01 R26). -/
structure Thread where
  pc : Nat := 0
  live : Bool := false
  readyAt : Nat := 0            -- 02 R47: the stall count holds until this clk
  lastIssue : Nat := 0          -- 04 R87
  inTable : Bool := true        -- 04 R86: its PC has an entry of the PC table
  park : Park := .none
  bbStamp : Nat := 0            -- 09 R257: the stamp of the `BBWAIT` it is parked in
  memHold : Option Nat := none  -- 14 R390: memory/engine instructions wait for Q to pass this stamp
  stack : List Nat := []        -- 04 R98: on-chip return addresses, the newest first
  spilled : Nat := 0
  rsptr : Nat := 0
  rpc : Nat := 0                -- 04 Table 4.4
  rcount : Word := 0
  rdepth : Nat := 0
  rvalid : Bool := true
  monitor : Option Loc := none  -- 04 R116: the first byte of the armed line
  monAddr : Nat := 0            -- the armed line's address
  monVa : Option Nat := none    -- its translated address, if it has one (04 R116 case 4)
  armed : Bool := false         -- 04 R117: it has executed `MARM`
  hit : Bool := false
  late : Bool := false          -- the flag was set after the limit of the `MWAIT` it is parked in
  clkhi : Word := 0             -- 05 Table 5.1
  trap : TrapRegs := {}
  arrivals : AMap Nat := []     -- 10 R278: per route tag, the episode of the latest arrival, plus 1
  faults : List HeldFault := [] -- 10 R285, oldest first
  pendTrap : Option TrapInfo := none -- 14 R379: a user trap whose record area must be mapped first
  pendAsync : Option HeldFault := none -- the engine fault it reports
  pendPc : Option Nat := none   -- its PC, where the thread stands at a later instruction (12 R334)
  fenceId : Nat := 0            -- 08 R214: port instructions wait for its commands numbered below this
  fenceTag : Nat := 0           -- 09 R236-R240: and for its far accesses whose response tag is below this
  fencePair : Bool := false     -- 09 R247: so do its twin-window writes
  fenceRes : Nat := 0           -- 08 R214: and, after `FENCE.sc`, for its loads' results numbered below this
  deriving DecidableEq, Repr

/-- The state of a wave's licence (11 R306). -/
inductive Lic where
  | none | wait | hold | saved
  deriving DecidableEq, Repr

/-- A random-log mode (06 R169, R171). -/
inductive RLog where
  | off | record | replay
  deriving DecidableEq, Repr

/-- Where and how a matrix instruction read an operand in memory: what the checker reads again (13 R359, R360). -/
structure TileSrc where
  base : Nat
  slot : Nat
  stride : Nat
  scale : Nat                   -- the base of its scale array
  deriving DecidableEq, Repr

/-- An operand of a product: in memory, or fed back from one or two loaded tiles (11 R299). -/
inductive OpdSrc where
  | mem (x : TileSrc)
  | fed (x : TileSrc) (y : Option TileSrc)
  deriving DecidableEq, Repr

/-- The operands of a product of a chain (13 R359). -/
structure ProdSrc where
  fmt : Nat
  a : OpdSrc
  b : OpdSrc
  deriving DecidableEq, Repr

/-- A witness record while it is open, held or in the stream (13 Table 13.3). -/
structure WRec where
  cls : Nat
  count : Nat
  brk : Bool := false
  mal : Bool := false
  lid : Nat
  team : Nat
  widx : Nat
  seq : Nat
  epoch : Nat
  body : List Word := []
  crc : Word := 0               -- 13 R350: over the prefix and the body, made when the record ends
  prods : Option (List ProdSrc) := none  -- 13 R359: the operands of a chain's products, where all of them can be read again
  src : Option TileSrc := none  -- 13 R360: the source load
  deriving DecidableEq, Repr

/-- An instruction of a matrix unit's queue, with what it read at issue (11 R295, R298, R308). -/
structure MxEntry where
  id : Nat                      -- of its core's numbers
  op : Instr
  wid : Nat
  tid : Nat                     -- the lowest thread of the wave
  pc : Nat
  len : Nat                     -- bytes of the instruction
  issued : Nat                  -- clk
  stamp : Nat := 0              -- 09 R257
  lenClk : Nat                  -- 11 Table 11.1; of an iteration entry, the step that runs
  started : Option Nat := none  -- clk at which the array phase, or the step that runs, started
  srcs : List (Loc × Nat) := [] -- memory operands, as aligned pieces in their order
  mem : Option (List Byte) := none  -- their bytes, once fetched
  outs : List (Loc × Nat × Nat) := []  -- pieces an `MST` stores to, each with its address
  scales : List (Loc × Nat × Nat) := [] -- pieces of the scale array that `MST.auto` writes
  base : Nat := 0               -- address and stride of the tile in memory, and of the scale array
  stride : Nat := 0
  scale : Nat := 0
  loads : List TileSrc := []    -- 13 R359, R360: its memory operands
  vals : List Word := []        -- register and scalar values read at issue
  vres : Option Nat := none     -- the pending result it delivers
  lines : List Nat := []        -- 08 R198: lines to pin, and those pinned
  pins : List Nat := []
  ran : Bool := false           -- 12 R331: an iteration entry has passed its initial phase
  so : Bool := false            -- 09 R226: it reaches an SO page
  stop : Bool := false          -- 12 R334: its wave's licence was revoked while it ran
  deriving DecidableEq, Repr

/-- The twin window of a wave: the identity of its target wave and the base register (11 R311). -/
structure TwinMap where
  lid : Nat
  team : Nat
  widx : Nat
  tag : Nat
  base : Nat
  deriving DecidableEq, Repr

/-- What a header word's push leaves for its command's record (10 R284). -/
structure HdrRec where
  tid : Nat
  pc : Nat
  rpc : Nat
  rcount : Word
  rdepth : Nat
  id : Nat := 0                 -- 09 R243: its command's number, once it is whole
  far : Nat := 0                -- 09 R243: the pusher's far accesses before it have response tags below this
  deriving DecidableEq, Repr

/-- One wave (01 R26). -/
structure Wave where
  core : Nat := 0
  slot : Nat := 0
  age : Nat := 0                -- 04 R88: order of residence on its core
  resident : Bool := false      -- holds a slot of its core
  regs : Nat := 0               -- 05 Table 5.1 REGS
  eq : List (List Word) := List.replicate 8 []  -- 10 R261: words pushed, the oldest first
  er : List (List Word) := List.replicate 8 []  -- 10 R261: words to pop, the oldest first
  eqOk : List Nat := List.replicate 8 0  -- 14 R395: words of each queue pushed before the last pair point that matched
  eqHdr : AMap (List HdrRec) := []  -- per queue: the pushers of the header words in it
  eqRaised : AMap (List (List (Nat × Nat) × List (Nat × Nat))) := []  -- 10 R269, per whole command: (tag, line) raised, and still to raise
  rgncnt : Word := 0            -- 04 R102
  ufbuf : List Byte := List.replicate 64 0      -- 03 R80
  ufbufR : List Byte := List.replicate 64 0
  rci : List Word := List.replicate 32 0        -- 06 R171: call index of each lane
  rciR : List Word := List.replicate 32 0
  logMode : RLog := .off
  timer : Nat := 0              -- 04 R96: clk counted
  timerOn : Option Nat := none  -- clk at which it started or resumed
  timerPc : Nat := 0            -- PC of the earliest arrival
  timerRun : Bool := false      -- it has started for the collective point now ahead
  lic : Lic := .none
  licReq : Nat := 0             -- 11 R307: the number of its latest request, in its pair's order
  licPd : Option (Nat × List Nat) := none  -- 11 R323: an `MLIC.try` that waits writes this predicate in these threads
  twin : Option TwinMap := none
  twinNext : Option (Nat × TwinMap) := none  -- 11 R311: a mapping in force from a clk on
  saved : List MxEntry := []    -- 11 R308
  hash : Nat := 0               -- 13 R370, below 2^61
  hashR : Nat := 0
  openRec : Option WRec := none
  held : List WRec := []        -- 13 R354, oldest first
  seq : Nat := 0
  seqR : Nat := 0
  sealCount : Nat := 0          -- 13 R349
  sealReg : Option (BitVec 6) := none
  claimN : Nat := 0             -- 08 R193: registers claimed, 0 for no claim queued
  claimAt : Nat := 0
  evicted : List Nat := []      -- 08 R191: register lines now in the context image
  ended : Bool := false         -- every thread exited and slot freed (04 R111)
  quiet : Option Nat := none    -- 14 R391: it is held until Q passes this stamp
  snapWait : Bool := false      -- 14 R388: it is held until its team's snapshot is valid
  pairPoint : Nat := 0          -- 14 R394: pair points reached
  pairGo : Bool := false        -- the pair point now at hand has matched
  deriving DecidableEq, Repr

/-! ## Results on their way -/

/-- What a pending register write is aimed at. -/
inductive Tgt where
  | v (tid n : Nat)
  | s (wid n : Nat)
  | p (tid n : Nat)
  | sr (tid n : Nat)             -- a special register that SETSR writes (14 R389)
  | u (wid n : Nat)              -- an entry of a wave's block-underflow buffer (03 R79)
  deriving DecidableEq, Repr

/-- A fixed-latency result on its way (02 R47). -/
structure PWrite where
  core : Nat
  due : Nat
  tgt : Tgt
  val : Word
  wid : Nat := 0                -- the wave that issued it
  issue : Nat := 0              -- the clk at which it issued
  deriving DecidableEq, Repr

/-- A variable-latency result on its way (02 R48), with its `WAITSB` class (04 R118). -/
structure VRes where
  core : Nat
  id : Nat
  cls : Nat
  writes : List (Tgt × Word)
  ready : Bool := true          -- false while the value itself is still to come
  after : Nat := 0              -- 11 R296: it commits at this clk or later
  deriving DecidableEq, Repr

/-! ## Teams -/

/-- A store held for paired execution (14 R395). -/
structure HeldStore where
  tid : Nat
  loc : Loc
  bytes : List Byte
  stamp : Nat := 0
  ea : Nat := 0                 -- its address
  pc : Nat := 0                 -- of its instruction
  deriving DecidableEq, Repr

/-- A spilled accumulator tile with its descriptor (11 R303). -/
structure TileDesc where
  tid : Word := 0
  chain : Nat := 0              -- 11 Table 11.3, 12 Table 12.5
  init : Bool := false
  owner : Nat := 0
  -- what the witness lane keeps of the chain (11 R304, 12 R335)
  cfmt : Nat := 0
  groups : Nat := 0
  alpha : FV := .zero false
  beta : FV := .zero false
  srcBase : Nat := 0
  srcSlot : Nat := 0
  srcStride : Nat := 0
  src : Option TileSrc := none  -- 13 R359, R360: the load that the tile holds
  prods : Option (List ProdSrc) := some []  -- 13 R359: the operands of the chain's products, while all of them can be read again
  iterSlot : Nat := 0
  polyN : Nat := 0
  coefs : List Word := []
  c15 : Word := 0
  wide : Bool := false
  second : Bool := false        -- the tile of columns 64-127 of a wide X
  deriving DecidableEq, Repr

/-- The saved state of a thread and its registers in a snapshot (14 R392). -/
structure ThreadImg where
  tid : Nat
  thread : Thread
  vregs : AMap Word
  preds : AMap Bool
  deriving DecidableEq, Repr

/-- A team snapshot (14 R392). -/
structure Snapshot where
  stamp : Nat
  threads : List ThreadImg
  waves : List (Nat × Wave × AMap Word)
  scratch : AMap Byte
  coefs : List Word
  polyRead : List Word
  loop : BitVec 128
  loopWave : Option Nat
  interval : BitVec 3
  shadow : BitVec 3
  tiles : AMap (TileDesc × AMap Word)
  spilled : AMap (TileDesc × AMap Word)
  pending : AMap Nat            -- presence counts
  stuck : AMap Nat
  vres : List VRes              -- 11 R308: the results that saved matrix entries will deliver
  deriving DecidableEq, Repr

/-- One team context (15 R416, 14 Table 14.6). -/
structure Team where
  lid : Nat := 0
  index : Nat := 0
  core : Nat := 0
  running : Bool := false
  fin : Bool := false          -- the team has ended (04 R111)
  lines : Nat := 0              -- core-store lines allocated besides registers
  pending : AMap Nat := []      -- 10 R269: pending count of each scratchpad line
  interval : BitVec 3 := 0      -- 13 Table 13.2
  shadow : BitVec 3 := 0
  coefs : List Word := List.replicate 16 0      -- 12 R327
  polyRead : List Word := List.replicate 16 0   -- 12 R335: the coefficients that `MPOLY` last read
  loop : BitVec 128 := 0        -- 12 Table 12.1
  loopWave : Option Nat := none
  spillMask : BitVec 8 := 0     -- 11 R303
  spilled : AMap (TileDesc × AMap Word) := []
  extWrite : Bool := false      -- 14 R392
  snapAt : Nat := 0             -- 14 R392: when it was last snapshotted, or started
  snapNew : Option Snapshot := none
  snapOld : Option Snapshot := none
  start : Option Snapshot := none  -- the implied snapshot of team start
  secondary : Option Nat := none   -- tag of the other copy, in paired execution (14 R394)
  isSecond : Bool := false
  stuck : AMap Nat := []        -- 10 R285: raises of a line that faulted commands left
  heldStores : List HeldStore := []
  records : List (Nat × List Byte) := []  -- 14 R394: store records since the last comparison
  atomVals : List (Nat × List Word) := []  -- 14 R395: by widx * 32 + lane, values the primary's atomics returned
  mismatches : Nat := 0
  moveSnap : Bool := false      -- 14 R406: it is snapshotted before it moves
  stopAt : Option Nat := none   -- 14 R392: its waves have been stopped for a snapshot since this clk
  ring : Bool := false          -- 15 R422: it is stalled at an instruction whose fault is still to be reported
  image : Option Nat := none    -- 14 R398: the stack whose vault holds its context image, once that is valid
  moveTo : Option Nat := none   -- 09 R252: the core it moves to once its array entries and commands are done
  deriving DecidableEq, Repr

/-! ## Cores -/

/-- A formed issue group (04 R88). -/
structure Group where
  pc : Nat
  formed : Nat
  members : List Nat            -- thread numbers, in rising lane order
  coll : Bool := false
  since : Nat := 0              -- 04 R91: it has been ready since this clk, or may be from it on
  deriving DecidableEq, Repr

/-- One element of an engine command still to land (09 R244, 10 R267-R272). -/
structure Land where
  loc : Loc
  bytes : List Byte
  poison : Bool := false
  cls : Nat := 0                -- 16 R433: the class mask of the source's frame
  deriving DecidableEq, Repr

/-- An accepted engine command (10 R263, R284). -/
structure Cmd where
  id : Nat
  q : Nat
  wid : Nat
  tid : Nat                     -- the pusher
  pc : Nat
  rpc : Nat
  rcount : Word
  rdepth : Nat
  words : List Word
  started : Bool := false       -- its operation has read its sources
  lands : List (Nat × Land) := []
  lines : List (Nat × Nat) := [] -- (tag, line) whose presence counts it raised
  credited : Nat := 0
  fault : Option (Nat × Nat × Nat) := none  -- code, sub, address
  result : List Word := []      -- words for e3 or e5
  waiting : Bool := false       -- in a list of the front die, or in an episode
  far : Nat := 0                -- 09 R243: its pusher's far accesses before it have response tags below this
  got : List (Nat × List Byte × Bool) := []  -- 14 R402: what other packages have answered: address, bytes, poison
  short : List (Nat × Nat) := [] -- 10 R285: of a faulted command, the lines that it does not write whole
  credit : Bool := false        -- 10 R266: its writes have landed, and its release credits are given and its lines set
  stamp : Nat := 0
  deriving DecidableEq, Repr

/-- An entry of a core's claim queue (08 Table 8.2). A pre-empted wave's entry keeps the slot that the wave had. -/
structure ClaimReq where
  wid : Nat
  slot : Nat
  n : Nat
  at_ : Nat                     -- issue clk
  deriving DecidableEq, Repr

/-- A matrix unit's special-purpose lane state and the rest of a core (01 Table 1.2). -/
structure Core where
  clk : Nat := 0
  arithAt : Nat := 0            -- the clk after the last one in which the arithmetic port issued
  memAt : Nat := 0
  slots : AMap Nat := []        -- slot -> wid
  nextAge : Nat := 0
  groups : List Group := []
  sbmis : Word := 0             -- 04 R105
  free : Nat := 5632            -- 08 Table 8.2
  claims : List ClaimReq := []
  mx : List MxEntry := []       -- 11 R295, head first
  mxFree : Nat := 0             -- clk at which the latest array phase ends
  tiles : AMap TileDesc := []   -- 11 Table 11.3
  cmds : List Cmd := []
  nextId : Nat := 1
  noiseFailed : Bool := false   -- 06 R168
  sfuAt : Nat := 0              -- 06 R145: the special-function unit is free from this clk
  rndAt : Nat := 0              -- 06 R145: the noise source is free from this clk
  tlb : List (Nat × Nat × Nat × Nat) := []  -- 14 R401: space, page base, page bytes, entry
  l1 : List (Nat × Nat) := []   -- 08 R197: lines held with their retention level, the least recently used first
  deriving DecidableEq, Repr

/-- The licence arbiter of a twin pair (11 Table 11.4); `upper` is the side. -/
inductive Arb where
  | free
  | wake (upper : Bool) (since : Nat)
  | held (upper : Bool)
  | drain (upper : Bool)
  deriving DecidableEq, Repr

structure TwinPair where
  arb : Arb := .free
  byGive : Bool := false        -- the last hold ended by MLIC.give
  reqs : Nat := 0               -- 11 R307: requests so far
  upperT : BitVec 12 := 0       -- 17 R454: the pair's two readings
  lowerT : BitVec 12 := 0
  sampled : Bool := false
  steered : Option Bool := none -- 17 R456: the side the licence is steered to
  steerCount : Nat := 0         -- readings in a row with a difference of 48 or less
  steerLast : Option Nat := none -- when it last came to be steered
  loCool : Nat := 0             -- 17 R455, R457: readings in a row of each side at 412 or less, and at 380 or less
  upCool : Nat := 0
  loCold : Nat := 0
  upCold : Nat := 0
  fillers : Option Nat := none  -- 11 R310: the core whose unit runs them
  fromFree : Bool := false      -- 11 R307: its `WAKE` was entered from `FREE`
  deriving DecidableEq, Repr

/-- One cluster's clock and voltage (17) and its translation buffer (14 R401). -/
structure Cluster where
  volt : Nat := 0               -- operating point of the voltage, P0-P7
  clock : Nat := 0
  target : Nat := 0
  pool : Nat := 4
  memb : BitVec 8 := 0
  issb : BitVec 8 := 0
  fifoMax : BitVec 8 := 0
  retired : Bool := false       -- 16 R439
  since : Nat := 0              -- 17 R447: when the step or switch in progress started
  actN : Nat := 0               -- 17 R444: active, issue-bound and memory-bound core-clks of the sample interval
  issN : Nat := 0
  memN : Nat := 0
  phase : Nat := 0              -- 17 R447: 0 idle, 1 voltage rising, 2 clock switching, 3 voltage falling
  src : Nat := 0                -- the clock's point before the transition
  swTo : Nat := 0               -- the point that the clock switches to
  tlb : List (Nat × Nat × Nat × Nat) := []
  deriving DecidableEq, Repr

/-- A trace entry (14 Table 14.10). -/
structure TraceEntry where
  clk : Nat
  pc : Nat
  mask : Word
  trap : Nat
  core : Nat
  slot : Nat
  port : Bool
  late : Bool
  deriving DecidableEq, Repr

/-- One die (14 R403-R406). -/
structure Die where
  online : Bool := true
  lost : Bool := false
  retired : Bool := false       -- 16 R439
  halted : Bool := false
  debugger : Bool := false
  step : Option (Nat × Nat × Bool) := none -- 14 R404: core and wave that step, and whether their group has issued
  stepInfo : Nat := 0           -- why the last step issued nothing: 1 parked, 2 at a collective point, 3 another hold; or 0
  traceCores : List Nat := []
  traceLid : Option Nat := none
  traceSlot : Option Nat := none
  trace : List TraceEntry := []
  traceLost : Nat := 0
  events : List (Nat × List Word) := []  -- 15 R422: the holding buffer, with stamps
  deriving DecidableEq, Repr

/-! ## Memory system -/

/-- A version's state (13 Table 13.1). A freed frame is no version. -/
inductive VState where
  | writing | sealed | checked | released | failed
  deriving DecidableEq, Repr

/-- A version of a staging page (13 R342). -/
structure Version where
  num : Nat
  st : VState
  lid : Nat
  epoch : Nat
  bytes : AMap Byte := []
  poison : AMap Bool := []      -- by sector of the page
  codes : AMap Nat := []        -- 08 R202: by sector of the page
  ecc : AMap Nat := []          -- 08 R201: by sector of the page
  cls : Nat := 0                -- 16 R433: the class mask of its frame
  deriving DecidableEq, Repr

structure StagePage where
  largest : Nat := 0
  versions : List Version := [] -- oldest first
  deriving DecidableEq, Repr

/-- A page migration in progress (08 R200). -/
structure Migration where
  page : Nat                    -- first byte of the old frame
  size : Nat
  target : Nat                  -- first byte of the new frame
  ptes : List Nat               -- physical addresses of the entries to rewrite
  drained : Bool := false
  deriving DecidableEq, Repr

/-- A response tag with its watchdog (14 R402): the access that waits, the far package, and since when. -/
structure RespTag where
  id : Nat
  acc : PAcc
  pkg : Nat
  addr : Nat
  since : Nat := 0
  recovery : Bool := false
  held : Bool := false
  deriving DecidableEq, Repr

/-- A `CLAIM` of one thread at work (08 R216): the pages still to move, those moved, and the pending result. -/
structure ClaimJob where
  core : Nat
  tid : Nat
  vres : Nat
  pages : List Nat              -- virtual addresses
  moved : Nat := 0
  deriving DecidableEq, Repr

/-- A collective command that has arrived at its group record (10 R271), with its source as read and its destination. -/
structure CollArr where
  core : Nat
  cmd : Nat
  rank : Nat
  src : List Byte
  poison : Bool
  dst : List (Loc × Nat × Nat)
  cls : Nat := 0
  far : Option Nat := none      -- the package that it came from, if another
  deriving DecidableEq, Repr

/-- An open collective episode (10 R270-R272): what was read of its group record, and who has arrived. -/
structure CollEp where
  loc : Loc
  lid : Nat
  npart : Nat
  count : Nat
  op : Nat
  kind : Nat
  members : List CollArr := []
  later : List (Nat × Nat × Nat) := []  -- core, command and rank of arrivals for later episodes
  deriving DecidableEq, Repr

/-- A collective episode whose result is on its way to its participants: its record, whose EPOCH advances once they have it. -/
structure Closing where
  loc : Loc
  lid : Nat
  cmds : List (Nat × Nat)       -- core and command of each participant
  deriving DecidableEq, Repr

/-- A line that an L2 slice holds (08 R197, R201). -/
structure L2Line where
  level : Nat
  dirty : Bool := false
  filled : Bool := true         -- false: written, and not filled yet
  deriving DecidableEq, Repr

/-- An answer that leaves for another package: its bytes or a refusal, the poison mark (08 R203), and of staged data the
version's state and number (09 R256). -/
structure LinkAns where
  pkg : Nat
  addr : Nat
  bytes : Option (List Byte)
  poison : Bool := false
  ver : List (Nat × Nat) := []  -- state and number, of each staging page that the bytes come from
  deriving DecidableEq, Repr

structure MemSys where
  l2 : AMap (List (Nat × L2Line)) := []  -- 08 R196: of each slice, the lines held, the least recently used first
  l2Mask : AMap Word := []      -- 08 R201: byte masks of sectors written but not filled, by sector number
  l2Parts : AMap Nat := []      -- 08 R196: of each tenant, its private stacks as a mask; 0 in shared mode
  l2Changing : Option (AMap Nat) := none  -- the partitions that a change in progress brings
  pinq : List (Nat × Nat × Nat) := []  -- 08 R198: slice, core and entry of each request that waits, in arrival order
  migrations : List Migration := []
  episodes : List CollEp := []
  closing : List Closing := []  -- 10 R272
  claims : List ClaimJob := []  -- 08 R216, in order of issue
  nextTag : Nat := 1            -- the next response tag
  stamp : Nat := 0              -- 09 R257: fclk counted
  copy : Nat := 0               -- the copy of the stamp that cores, engines and link ingress hold
  q : Nat := 0                  -- 09 R258
  quarantine : List (Nat × Nat) := []  -- frame, stamp
  tags : List RespTag := []
  eccCorrected : AMap Nat := [] -- 08 R201, per HBM base die
  buckets : AMap (Nat × Nat) := []  -- 15 R419, by 8 * owner + stack: what a byte bucket lacked of being full, and when
  domOnly : AMap Bool := []     -- 13 R365, by 64 KiB frame
  classes : AMap Nat := []      -- 16 R433: the class mask of a frame
  linkOut : List LinkAns := []  -- answers to other packages
  deriving DecidableEq, Repr

/-! ## Launches and queues -/

/-- A wired route tag of a launch (10 R278). -/
structure RTag where
  target : Nat := 0
  count : Nat := 0
  episode : Nat := 0
  hold : Bool := false
  dies : List (Nat × Nat) := [] -- episode and die of each arrival counted
  deriving DecidableEq, Repr

/-- A push, a close or a pop request in a stage queue's lists (10 R283). -/
structure SqReq where
  wid : Nat
  tids : List Nat := []         -- the threads of a waiting instruction
  len : Nat := 0                -- its bytes
  cmd : Option (Nat × Nat) := none  -- or an engine command: its core and number
  isClose : Bool := false
  entry : List Byte := []
  reg : Option Nat := none      -- a pop's destination: `vN`, or places in memory
  pieces : List (Loc × Nat × Nat) := []
  pd : Nat := 0
  poison : Bool := false        -- 08 R203: of a push, a poisoned sector was read
  cls : Nat := 0                -- 16 R433: the class masks of the frames that it read
  tag : Nat := 0                -- 14 R402: the response tag that still brings a part of the entry, or 0
  stamp : Nat := 0              -- 09 R257
  deriving DecidableEq, Repr

structure StageQ where
  entries : List (List Byte × Bool × Nat) := []  -- bytes, poison mark and class mask (16 R433)
  closed : Bool := false
  pushes : List SqReq := []
  pops : List SqReq := []
  deriving DecidableEq, Repr

inductive LState where
  | waiting | running | ending | done | aborted | discarded
  deriving DecidableEq, Repr

/-- The submission of one seal point (13 R349). -/
structure Epoch where
  num : Nat
  records : List WRec
  count : Nat
  poison : Bool
  werr : Bool
  reads : AMap Version := []    -- 13 R357: the version that the checker reads of each page, with its final bytes
  cores : AMap Nat := []        -- the core that each team of the run was last on
  dies : Nat := 0               -- the die set of the run, as a mask
  verdict : Option Bool := none
  deriving DecidableEq, Repr

structure Launch where
  recW : List Nat := List.replicate 32 0        -- 15 Table 15.6, W0-W31
  tenant : Nat := 0
  queue : Nat := 0
  cmdTag : Nat := 0
  evt : Bool := false
  sigAddr : Nat := 0
  sigVal : DWord := 0
  feats : Nat := 0              -- 15 R420
  args : List Byte := []
  argBuf : AMap (List Byte × Bool) := [] -- 05 R123: the parts of the source copied so far, each with its poison mark
  argsDone : Bool := false
  argsPoison : Bool := false
  argsFault : Option (Nat × Nat) := none -- 05 R123: cause and address of a translation fault of the preload
  st : LState := .waiting
  tagsGiven : Bool := false
  nextTeam : Nat := 0
  ended : List Nat := []
  run : Nat := 0                -- runs so far
  sealPoints : Nat := 0         -- seal points passed in this run
  replayTo : Nat := 0           -- 13 R363: epochs below this one are replayed
  stream : List WRec := []      -- records ended in the open epoch
  epochs : List Epoch := []
  passed : Nat := 0             -- epochs that have passed, counted from 1
  reads : AMap Version := []    -- 13 R357: pages read, with the version last obtained
  teamCore : AMap Nat := []     -- the core that each team of this run was last on
  edges : List (Nat × Nat) := []
  failures : List (Nat × Nat × Nat) := []  -- epoch, die mask, result
  rnd : AMap Word := []         -- 06 R169: the random log, by log key
  rndLen : AMap Nat := []       -- entries of each wave's log
  logFreed : Bool := false      -- 06 R170: the log has been freed
  rtags : AMap RTag := []
  sqs : AMap StageQ := []
  dieMap : AMap Nat := []       -- 13 R467: replacement of each die
  iovf : Bool := false
  behind : Option (Nat × Nat) := none  -- 13 R462: of a discarded launch, the producer and the run its re-run waits for
  orphan : Bool := false        -- 10 R286: a command of the open epoch faulted after its pusher had exited
  capClass : Nat := 0           -- sealed regions named by the capability, as a mask
  stopDue : Bool := false       -- 15 R422: a trap ends it once the trap's event is posted
  again : Bool := false         -- 13 R355: its run is a re-execution
  deriving DecidableEq, Repr

/-- A tenant record (15 Table 15.1) as written, and as in effect. -/
structure Tenant where
  bits : BitVec 256 := BitVec.ofNat 256 (10 * 2 ^ 128)
  eff : BitVec 256 := BitVec.ofNat 256 (10 * 2 ^ 128)
  deriving DecidableEq, Repr

/-- A command of a queue that has started and is not complete (15 R414). -/
structure QCmd where
  idx : Nat
  words : List Word
  tenant : Nat := 0
  lid : Nat := 0                -- the launch it started, or 0
  copied : Nat := 0             -- bytes a COPYQ has moved
  waiting : Bool := true
  deriving DecidableEq, Repr

structure Slot where
  queue : Nat
  sliceEnd : Nat := 0
  since : Nat := 0              -- when it was mapped
  cmds : List QCmd := []
  deriving DecidableEq, Repr

structure Front where
  slots : AMap Slot := []
  pending : AMap Bool := []
  orphans : AMap (List QCmd) := []  -- commands in flight of queues now without a slot
  lastMapped : AMap Nat := []   -- 15 R411: per priority
  tenants : AMap Tenant := []
  feataccLo : Nat := 0          -- FEATACC
  everMapped : Bool := false
  featNew : Bool := true        -- 16 R426: the accepted set is to be extended into MS4 at the next mapping
  eqbase : Nat := 0
  eqk : Nat := 0
  eqhead : Word := 0
  eqtail : Word := 0
  slice : Nat := 1000
  qtbase : Nat := 0
  qtn : Nat := 0
  jbase : Nat := 0
  jlogn : Nat := 0
  jckbase : Nat := 0
  frbase : Nat := 0
  frlogn : Nat := 0
  hwbase : Nat := 0
  nextLid : Nat := 1
  nextTag : Nat := 1
  routeFree : Nat := 8          -- 10 R279
  routeWait : List Nat := []
  events : List (Nat × List Word) := []  -- 15 R422: the front die's buffer
  overflowed : Bool := false
  traps : List FwTrap := []     -- 14 R380: the system traps that firmware has received
  answers : List (Nat × Option (List Byte) × Bool) := []  -- host reads: address, bytes or Unsupported Request, the EP bit
  reruns : List Nat := []       -- 13 R462
  deriving DecidableEq, Repr

/-! ## Power, checker, trust -/

structure Pool where
  point : Nat := 0
  throttled : Bool := false
  lastEntry : Option Nat := none -- 17 R455: when it last entered throttle
  ended : Bool := false          -- that throttle has ended
  rising : Bool := false         -- 17 R445: it raises to its class's lowest point after a throttle
  denied : Bool := false         -- 17 R449
  deriving DecidableEq, Repr

structure Power where
  pools : List Pool := List.replicate 5 {}
  plogBase : Nat := 0
  plogK : Nat := 0
  trace : Bool := false
  plogHead : Nat := 0
  plogTail : Nat := 0
  pdeny : Word := 0
  plogDrop : Word := 0
  tfill : AMap Nat := []        -- 17 R453, by tenant
  fillTenant : Nat := 0         -- the tenant that the fillers are charged to
  current : Nat := 0            -- 17 R452: the estimate, in milliamperes
  deferred : Bool := false      -- lowering transitions hold their voltage steps
  sampleAt : Nat := 0           -- 17 R444: when the sample interval began
  deriving DecidableEq, Repr

/-- A journal entry (16 Table 16.3) or a fault-record entry (R438) before it is written; of the latter `tenant` is the
unit and `fields` the launch and the epoch or SEQ. -/
structure LogEntry where
  kind : Nat
  tenant : Nat
  time : Nat
  fields : List Nat
  payload : BitVec 96 := 0
  deriving DecidableEq, Repr

structure Region where
  st : Nat := 0                 -- 16 R429
  size : Nat := 0
  rate : Nat := 0
  burst : Nat := 0
  owner : BitVec 512 := 0
  frames : List Nat := []
  key : BitVec 256 := 0         -- the content key
  chunks : Nat := 0
  level : Nat := 0              -- 16 R434: what its class bucket held at `levelAt`, in 10^-9 bytes
  levelAt : Nat := 0
  stalled : Bool := false
  lastWait : Nat := 0           -- when a transfer of the class last waited
  passed : Nat := 0             -- bytes passed in the episode
  deriving DecidableEq, Repr

/-- An egress transfer waiting for its buckets (16 R434). -/
structure Egress where
  id : Nat
  queue : Nat
  idx : Nat
  mask : Nat := 0
  deriving DecidableEq, Repr

/-- A read by a package outside whose bytes have still to pass the buckets of their classes (16 R434): its answer, and the class masks and
lengths of the parts left. -/
structure LinkRead where
  id : Nat
  ans : LinkAns
  left : List (Nat × Nat)
  mask : Nat := 0
  deriving DecidableEq, Repr

/-- A release request waiting at the checker (13 R366). -/
structure RelReq where
  id : Nat
  pages : List Nat              -- staging pages still to settle, by frame
  done : Nat := 0
  code : Nat := 0
  vres : Option (Nat × Nat) := none  -- core and pending result
  cmd : Option (Nat × Nat) := none   -- queue and command index
  reached : Option (Nat × Nat) := none  -- the launch and the number of the version of the first page that it awaits
  deriving DecidableEq, Repr

/-- A member of the trust domain as the checker's domain table marks it (15 R423, 16 R435). -/
inductive DomMark where
  | absent | outside | member
  deriving DecidableEq, Repr

structure Peer where
  mark : DomMark := .absent
  inCtr : AMap Nat := []        -- 16 R435: of each port, the next group counter from it and to it
  outCtr : AMap Nat := []
  keyCt : List Byte := []       -- the domain key as encapsulated for it
  recovering : Bool := false    -- 14 R402: its links are marked "recovery pending"
  tagFails : Nat := 0           -- groups from it whose tag failed
  deriving DecidableEq, Repr

structure Checker where
  ms : List (BitVec 512) := List.replicate 8 0
  booted : Bool := false
  secVer : Nat := 0             -- 16 R428: the security version of the checker firmware
  session : Bool := false       -- 16 R427: a `KEY_EXCHANGE` awaits its `FINISH`
  bootFailed : Bool := false
  chain : BitVec 512 := 0       -- C of the last entry; before the first one C0 is the journal chain seed (16 R428, R469)
  jwseq : Nat := 0
  jrseq : Nat := 0
  jwait : List LogEntry := []   -- entries that wait for room in the ring
  checkpoints : Nat := 0        -- checkpoints written
  ckptDue : Nat := 0            -- checkpoints still to write
  frwidx : Nat := 0
  frridx : Nat := 0
  fwait : List LogEntry := []
  attrib : AMap (List Nat) := []  -- unit -> times of attributed faults
  fuses : List Nat := []        -- retired units, in fuse-row order: cores, 2^16 + cluster, 2^17 + die
  degraded : Bool := false
  inject : BitVec 96 := 0
  injected : Bool := false
  releases : List RelReq := []
  nextRel : Nat := 1
  regions : AMap Region := []
  egress : List Egress := []
  linkReads : List LinkRead := []
  nextEgress : Nat := 1
  peers : AMap Peer := []
  keyGen : Nat := 0
  oldKey : Option Nat := none
  keySince : Nat := 0
  responses : List (Nat × List Byte) := []  -- the mailbox's answers to the host: code and bytes
  deriving DecidableEq, Repr

/-! ## The whole machine -/

/-- Which agent moves next. The spec orders the agents only where it says so; the agenda is the model's plain-data choice
of an order (log 3). -/
inductive Move where
  | event (i : Instr)           -- this step of the machine
  | run (core : Nat)            -- this core issues, or passes its next clk
  | wait (ns : Nat)             -- wall-clock time passes
  deriving DecidableEq, Repr

/-- The issue group that now issues, and the core the default policy looks at. -/
structure Focus where
  core : Nat := 0
  pc : Nat := 0
  members : List Nat := []
  word : List Word := []        -- the 32-bit words of the instruction as fetched (02 R35)
  deriving DecidableEq, Repr

structure State where
  pkg : Nat := 0
  time : Nat := 0
  threads : AMap Thread := []
  vregs : AMap Word := []       -- tid * 256 + n
  preds : AMap Bool := []       -- tid * 16 + n
  waves : AMap Wave := []
  sregs : AMap Word := []       -- wid * 64 + n
  teams : AMap Team := []
  scratch : AMap Byte := []     -- tag * 2^20 + offset
  cores : AMap Core := []
  tiles : AMap Word := []       -- (core * 8 + tile) * 4096 + 64 * row + column
  pend : List PWrite := []
  held : List PAcc := []        -- accesses of threads that are parked at them
  vres : List VRes := []
  pairs : AMap TwinPair := []   -- by the lower core's number
  clusters : AMap Cluster := []
  dies : AMap Die := []
  mem : List Host.Cell := []    -- by physical address; host memory by 2^64 plus its bus address (01 Table 1.11)
  poison : AMap Bool := []      -- by 32-byte sector
  codes : AMap Nat := []        -- 08 R202: the check code of each 32-byte sector
  ecc : AMap Nat := []          -- 08 R201: damaged granules: 1 its ECC corrects, 2 it does not (log 67)
  stage : AMap StagePage := []  -- by frame number
  msys : MemSys := {}
  launches : AMap Launch := []
  front : Front := {}
  power : Power := {}
  checker : Checker := {}
  focus : Focus := {}
  agenda : List Move := []
  turn : Nat := 0               -- moves that the default policy has made (log 3)
  draws : Nat := 0              -- free values drawn (log 8)
  deriving DecidableEq, Repr

/-- The canonical form of memory: addresses rise strictly, and no listed byte is the 0x00 that an unlisted one reads as (log 5). -/
def Memory.wf (m : List Host.Cell) : Bool := AMap.wf 0 m

/-- Why the machine stops with a fault. -/
inductive Fault where
  /-- Raised by no instruction; kept for an access beyond the 52-bit physical space, which no path of the model makes.
  Safe: nothing follows. -/
  | noSuchAddress
  deriving DecidableEq, Repr

/-- Why an instruction has no meaning here. -/
inductive Refusal where
  /-- Raised by `exec` for an instruction that has no meaning yet. Safe: nothing follows. -/
  | notModelled (mnemonic : String)
  deriving DecidableEq, Repr

/-- The package right after reset: no launch, no queue mapped, every register at its reset value (log 6 names the values
the spec does not give). -/
def State.reset : State := {}

end Sys2Proof.Machine
end

