-- ==== Sys2Proof/Machine/Base.lean ====
section
/-!
DEFINITION. Sys2Proof/Machine/Base.lean: the named operations over the state that every other file rests on: reading and
changing its maps, the launch record, memory, translation, staging versions, host events, the journal and the fault record,
and the power manager's log and pools.
-/

namespace Sys2Proof.Machine

open Sys2Proof

variable {α : Type}

/-- The outcome of a step. -/
abbrev Out := Host.Outcome State Fault Refusal

/-! ## Reading and changing the maps -/

/-- The team context's tag, the wave number and the lane of a thread number. -/
def tagOf (tid : Nat) : Nat := tid / 1024
def widOf (tid : Nat) : Nat := tid / 32
def laneOf (tid : Nat) : Nat := tid % 32
/-- The tag and the `%widx` of a wave number. -/
def tagW (wid : Nat) : Nat := wid / 32
def widxW (wid : Nat) : Nat := wid % 32
/-- The threads of a wave, by lane. -/
def tidsOf (wid : Nat) : List Nat := (List.range 32).map (fun l => wid * 32 + l)

/-- Insertion sort by a key, stable. -/
def insertBy (f : α → Nat) (x : α) : List α → List α
  | [] => [x]
  | y :: r => if f x < f y then x :: y :: r else y :: insertBy f x r
def sortBy (f : α → Nat) (l : List α) : List α := l.foldl (fun acc x => insertBy f x acc) []

namespace State

def th (s : State) (tid : Nat) : Thread := s.threads.get {} tid
def wv (s : State) (wid : Nat) : Wave := s.waves.get {} wid
def tm (s : State) (tag : Nat) : Team := s.teams.get {} tag
def co (s : State) (c : Nat) : Core := s.cores.get {} c
def la (s : State) (lid : Nat) : Launch := s.launches.get {} lid
def tp (s : State) (p : Nat) : TwinPair := s.pairs.get {} p
def cl (s : State) (c : Nat) : Cluster := s.clusters.get {} c
def di (s : State) (d : Nat) : Die := s.dies.get {} d

def vreg (s : State) (tid n : Nat) : Word := s.vregs.get 0 (tid * 256 + n)
def sreg (s : State) (wid n : Nat) : Word := s.sregs.get 0 (wid * 64 + n)
/-- A predicate; `p0` reads true (00 Table 0.3). -/
def pred (s : State) (tid : Nat) (p : Pred) : Bool := p == 0 || s.preds.get false (tid * 16 + p.toNat)

/-- Change the threads of a list. -/
def modThreads (s : State) (tids : List Nat) (f : Nat → Thread → Thread) : State :=
  { s with threads := tids.foldl (fun m t => AMap.set {} m t (f t (m.get {} t))) s.threads }
def modThread (s : State) (tid : Nat) (f : Thread → Thread) : State :=
  { s with threads := AMap.set {} s.threads tid (f (s.th tid)) }
def modWave (s : State) (wid : Nat) (f : Wave → Wave) : State :=
  { s with waves := AMap.set {} s.waves wid (f (s.wv wid)) }
def modTeam (s : State) (tag : Nat) (f : Team → Team) : State :=
  { s with teams := AMap.set {} s.teams tag (f (s.tm tag)) }
def modCore (s : State) (c : Nat) (f : Core → Core) : State :=
  { s with cores := AMap.set {} s.cores c (f (s.co c)) }
def modLaunch (s : State) (lid : Nat) (f : Launch → Launch) : State :=
  { s with launches := AMap.set {} s.launches lid (f (s.la lid)) }
def modPair (s : State) (p : Nat) (f : TwinPair → TwinPair) : State :=
  { s with pairs := AMap.set {} s.pairs p (f (s.tp p)) }
def modCluster (s : State) (c : Nat) (f : Cluster → Cluster) : State :=
  { s with clusters := AMap.set {} s.clusters c (f (s.cl c)) }
def modDie (s : State) (d : Nat) (f : Die → Die) : State :=
  { s with dies := AMap.set {} s.dies d (f (s.di d)) }

def setVreg (s : State) (tid n : Nat) (x : Word) : State :=
  { s with vregs := AMap.set 0 s.vregs (tid * 256 + n) x }
def setSreg (s : State) (wid n : Nat) (x : Word) : State :=
  { s with sregs := AMap.set 0 s.sregs (wid * 64 + n) x }
/-- A write to `p0` is ignored (05 R120). -/
def setPred (s : State) (tid : Nat) (p : Pred) (b : Bool) : State :=
  if p = 0 then s else { s with preds := AMap.set false s.preds (tid * 16 + p.toNat) b }

/-! ## Where a thread runs -/

def coreOf (s : State) (tid : Nat) : Nat := (s.wv (widOf tid)).core
def clkOf (s : State) (c : Nat) : Nat := (s.co c).clk
def lidOf (s : State) (tid : Nat) : Nat := (s.tm (tagOf tid)).lid
def launchOf (s : State) (tid : Nat) : Launch := s.la (s.lidOf tid)

end State

/-- Cluster and index of a core (01 R16); its die, stack and twin (R16, R17). -/
def clusterOf (c : Nat) : Nat := c / 128
def indexOf (c : Nat) : Nat := c % 128
def dieOf (c : Nat) : Nat := c / 256
def stackOf (c : Nat) : Nat := c / 512
def twinOf (c : Nat) : Nat := (clusterOf c ^^^ 2) * 128 + indexOf c
/-- The lower core of the pair, which names the pair; `isUpper` says which side a core is. -/
def pairOf (c : Nat) : Nat := min c (twinOf c)
def isUpper (c : Nat) : Bool := decide (twinOf c < c)

/-- The HBM stack that holds a local physical address of HBM (01 R18, Table 1.11). -/
def hbmOf (pa : Nat) : Nat := pa % 2 ^ 40 / 0xC00000000
/-- The compute stack whose HBM or vault holds a local physical address: HBM stack `h` hangs from stack `h` div 2 (01 R18). -/
def homeStack (pa : Nat) : Nat :=
  let a := pa % 2 ^ 40
  if a < 0xC000000000 then hbmOf pa / 2 else (a - 0xE000000000) / 2 ^ 28 % 8

/-! ## The launch record (15 Table 15.6) -/

namespace Launch

def w (l : Launch) (k : Nat) : Nat := l.recW.getD k 0
def entry (l : Launch) : Nat := bitsOf (l.w 0) 51 0
def handler (l : Launch) : Nat := bitsOf (l.w 1) 51 0
def numWaves (l : Launch) : Nat := bitsOf (l.w 2) 53 48
def gridX (l : Launch) : Nat := bitsOf (l.w 2) 15 0
def gridY (l : Launch) : Nat := bitsOf (l.w 2) 31 16
def gridZ (l : Launch) : Nat := bitsOf (l.w 2) 47 32
def argSize (l : Launch) : Nat := bitsOf (l.w 3) 44 32
def scrLines (l : Launch) : Nat := bitsOf (l.w 3) 21 9
def regs (l : Launch) : Nat := bitsOf (l.w 3) 8 0
def argAddr (l : Launch) : Nat := bitsOf (l.w 4) 51 0
def tlsBase (l : Launch) : Nat := bitsOf (l.w 5) 51 0
def rsOff (l : Launch) : Nat := bitsOf (l.w 6) 47 32
def tlsSize (l : Launch) : Nat := bitsOf (l.w 6) 31 0
def slotBits (l : Launch) (f : Nat) : Nat := l.w (7 + f)
def spot (l : Launch) : Nat := if bitsOf (l.w 15) 59 55 = 0 then 12 else bitsOf (l.w 15) 59 55
def hold (l : Launch) : Nat := bitsOf (l.w 15) 54 44
def rndMax (l : Launch) : Nat := bitsOf (l.w 15) 43 28 + 1
def stages (l : Launch) : Nat := bitsOf (l.w 15) 27 24 + 1
/-- The convergence bound in clk (04 R96). -/
def convBound (l : Launch) : Nat := 2 ^ (if bitsOf (l.w 15) 23 19 = 0 then 20 else bitsOf (l.w 15) 23 19)
/-- The arithmetic-trap enables: invalid, divide-by-zero, overflow, underflow, inexact from bit 0 (06 R147). -/
def atEn (l : Launch) : Nat := bitsOf (l.w 15) 18 14
def mtx (l : Launch) : Bool := bitAt (l.w 15) 13
def debug (l : Launch) : Bool := bitAt (l.w 15) 12
def priv (l : Launch) : Bool := bitAt (l.w 15) 11
def pers (l : Launch) : Bool := bitAt (l.w 15) 10
def lshare (l : Launch) : Bool := bitAt (l.w 15) 9
def accSeal (l : Launch) : Bool := bitAt (l.w 15) 8
def rlogOn (l : Launch) : Bool := bitAt (l.w 15) 7
def sbchk (l : Launch) : Bool := bitAt (l.w 15) 6
def oc (l : Launch) : Nat := bitsOf (l.w 15) 5 4
def paired (l : Launch) : Bool := bitAt (l.w 15) 3
def wclass (l : Launch) : Nat := bitsOf (l.w 15) 2 0
def snapSize (l : Launch) : Nat := bitsOf (l.w 16) 63 32
def snapInt (l : Launch) : Nat := bitsOf (l.w 16) 31 0
def snapBase (l : Launch) : Nat := bitsOf (l.w 17) 51 0
def dieSet (l : Launch) (stg : Nat) : Nat := (l.w (18 + stg / 4) >>> (16 * (stg % 4))) % 2 ^ 16
def tagCount (l : Launch) (t : Nat) : Nat := (l.w (22 + t / 2) >>> (32 * (t % 2))) % 2 ^ 23
def sqDepth (l : Launch) (q : Nat) : Nat := (l.w (26 + q / 4) >>> (16 * (q % 4))) % 2 ^ 11
def cap (l : Launch) : Nat := bitsOf (l.w 30) 51 0
/-- A launch is checked when its record names a witness class (13 R347). -/
def isChecked (l : Launch) : Bool := l.wclass != 0
/-- Writes reach staging pages and scratchpad only (13 R347). -/
def stagingOnly (l : Launch) : Bool := l.isChecked || l.paired
/-- Teams of the launch. -/
def numTeams (l : Launch) : Nat := l.gridX * l.gridY * l.gridZ
/-- The stage of a team (19 R465). -/
def stageOf (l : Launch) (team : Nat) : Nat := team % l.stages
def feat (l : Launch) (k : Nat) : Bool := bitAt l.feats k

/-- Base of the thread-local region of a thread (15 R416). -/
def tlsOf (l : Launch) (team widx lane : Nat) : Nat :=
  (l.tlsBase + ((team * l.numWaves + widx) * 32 + lane) * l.tlsSize) % 2 ^ 52

end Launch

/-- The thread-local base of a thread. -/
def State.tls (s : State) (tid : Nat) : Nat :=
  (s.launchOf tid).tlsOf (s.tm (tagOf tid)).index (widxW (widOf tid)) (laneOf tid)

/-! ## Bytes of memory -/

namespace State

/-- Is a local physical address in the host window of its package (01 Table 1.11)? -/
def inHostWindow (pa : Nat) : Bool := decide (0xF000000000 ≤ pa % 2 ^ 40)

/-- The cell of memory that holds a physical address: byte `o` of this package's host window is the byte of host memory at
bus address HWBASE + `o` (01 Table 1.11). Different addresses have different cells. -/
def cell (s : State) (pa : Nat) : Nat :=
  if pa / 2 ^ 40 = s.pkg && inHostWindow pa then 2 ^ 64 + s.front.hwbase + (pa % 2 ^ 40 - 0xF000000000)
  else if pa < 2 ^ 64 then pa else pa + 2 ^ 64 + s.front.hwbase + 2 ^ 40

/-- A byte of physical memory; a byte nothing has written reads 0x00 (log 5). -/
def byteAt (s : State) (pa : Nat) : Byte := AMap.get 0 s.mem (s.cell pa)

/-- Write bytes from `pa` on. -/
def putMem (m : List Host.Cell) (pa : Nat) : List Byte → List Host.Cell
  | [] => m
  | b :: r => putMem (AMap.set 0 m pa b) (pa + 1) r

/-- Write bytes at the cells of the addresses from `pa` on. -/
def putCells (s : State) (m : List Host.Cell) (pa : Nat) : List Byte → List Host.Cell
  | [] => m
  | b :: r => s.putCells (AMap.set 0 m (s.cell pa) b) (pa + 1) r

/-- The `n` bytes from `pa`, as a little-endian number (00 R6). -/
def rdMem (s : State) (pa n : Nat) : Nat := leNat ((List.range n).map (fun k => s.byteAt (pa + k)))

/-- Sectors that `n` bytes from `a` cover whole. -/
def wholeSectors (a n : Nat) : List Nat :=
  (List.range ((a + n) / 32 - (a + 31) / 32)).map (fun k => (a + 31) / 32 + k)
/-- Sectors that `n` bytes from `a` touch. -/
def sectors (a n : Nat) : List Nat :=
  if n = 0 then [] else (List.range ((a + n - 1) / 32 - a / 32 + 1)).map (fun k => a / 32 + k)

/-- The bytes of sector `k`, where `at_` gives the byte at an address. -/
def sectorBytes (at_ : Nat → Byte) (k : Nat) : List Byte := (List.range 32).map (fun j => at_ (32 * k + j))

/-- Does a sector's stored check code match its bytes (08 R202)? -/
def codeOk (at_ : Nat → Byte) (codes : AMap Nat) (k : Nat) : Bool := codes.get 0 k == t10 (sectorBytes at_ k)

/-- The check codes of sectors that have just been written: the merging level makes the code of the whole sector (R202). -/
def newCodes (at_ : Nat → Byte) (codes : AMap Nat) (ks : List Nat) : AMap Nat :=
  ks.foldl (fun m k => AMap.set 0 m k (t10 (sectorBytes at_ k))) codes

/-- Poison marks after a write of `n` bytes from `a`: a whole sector's is cleared, a sector merged into is poisoned when its
old code did not match or its old granule could not be corrected (R201, R203). -/
def newPoison (at_ : Nat → Byte) (codes ecc : AMap Nat) (poison : AMap Bool) (a n : Nat) : AMap Bool :=
  (sectors a n).foldl (fun m k =>
    if (wholeSectors a n).contains k then AMap.set false m k false
    else if codeOk at_ codes k && ecc.get 0 k != 2 then m else AMap.set false m k true) poison

/-- Damaged granules after a write: each granule written gets new ECC (R201). -/
def newEcc (ecc : AMap Nat) (a n : Nat) : AMap Nat := (sectors a n).foldl AMap.erase ecc

/-- Store bytes in physical memory, with new check codes. A write of a whole sector clears its poison mark; a partial one
leaves it (08 R202, R203). -/
def writeMem (s : State) (pa : Nat) (bs : List Byte) : State :=
  let s1 : State := { s with mem := s.putCells s.mem pa bs }
  { s1 with
    poison := newPoison s.byteAt s.codes s.ecc s.poison pa bs.length
    codes := newCodes s1.byteAt s.codes (sectors pa bs.length)
    ecc := newEcc s.ecc pa bs.length }

/-- A local physical address of this package (01 R466): of a register or descriptor base bits [39:0] count, whatever bits
[51:40] hold (log 52). -/
def localPa (s : State) (a : Nat) : Nat := s.pkg * 2 ^ 40 + a % 2 ^ 40

end State

/-! ## Cached lines (08 R190, R197): lists in order of use, the least recently used first -/

/-- A line is used: it becomes the most recently used one. -/
def useLine (l : List (Nat × α)) (k : Nat) (x : α) : List (Nat × α) := AMap.erase l k ++ [(k, x)]

/-- The victim of a set: the lowest level, then the least recently used (R197). -/
def victim (level : α → Nat) (l : List (Nat × α)) : Option Nat := ((sortBy (fun e => level e.2) l).head?).map Prod.fst

/-- Victims leave until at most `cap` lines are left. -/
def evictOver (level : α → Nat) (cap : Nat) : Nat → List (Nat × α) → List (Nat × α)
  | 0, l => l
  | n + 1, l =>
    if l.length ≤ cap then l
    else match victim level l with
      | some k => evictOver level cap n (AMap.erase l k)
      | none => l

/-- A line is touched with `x`: held lines become the most recently used one; a fill of a full set takes the place of the
victim among its unpinned lines, and waits while there is none (R197). -/
def touchLine (level : α → Nat) (cap : Nat) (pinned : Nat → Bool) (l : List (Nat × α)) (k : Nat) (x : α) : List (Nat × α) :=
  if (AMap.find? l k).isSome || l.length < cap then useLine l k x
  else match victim level (l.filter (fun e => !pinned e.1)) with
    | some v => useLine (AMap.erase l v) k x
    | none => l

/-- The lines that L1 may hold: the 512 of its floor and the free lines of the register pool (08 R189). -/
def Core.l1Room (c : Core) : Nat := 512 + c.free

/-- An acquire at `.cluster` or wider drops the L1 copies of global and vault lines (08 R214): those of physical memory, whose
numbers are below 2^45; an argument line stays. -/
def Core.acquire (c : Core) : Core := { c with l1 := c.l1.filter (fun e => 2 ^ 45 ≤ e.1) }

/-- Lines that were given to another use lose their L1 contents (08 R193). -/
def Core.trimL1 (c : Core) : Core := { c with l1 := evictOver id c.l1Room c.l1.length c.l1 }

/-! ## Monitors (04 R116) -/

/-- The first byte of the 128-byte line of a byte. -/
def Loc.line : Loc → Loc
  | .mem pa => .mem (pa / 128 * 128)
  | .scr tag off => .scr tag (off / 128 * 128)
  | .reg w n _ _ => .reg w n 0 0
  | .arg lid off => .arg lid (off / 128 * 128)
  | .stg p off => .stg p (off / 128 * 128)
  | .sealed _ pa => .mem (pa / 128 * 128)

/-- The byte `k` bytes further on. -/
def Loc.add : Loc → Nat → Loc
  | .mem pa, k => .mem (pa + k)
  | .scr tag off, k => .scr tag (off + k)
  | .reg w n lane b, k =>
    let o := (n * 32 + lane) * 4 + b + k
    .reg w (o / 128) (o / 4 % 32) (o % 4)
  | .arg lid off, k => .arg lid (off + k)
  | .stg p off, k => .stg p (off + k)
  | .sealed r pa, k => .sealed r (pa + k)

/-- A number for a byte, different for different places: how events name an object. -/
def Loc.num : Loc → Nat
  | .mem pa => pa
  | .stg p off => p * 2 ^ 16 + off
  | .scr tag off => 2 ^ 52 + tag * 2 ^ 20 + off
  | .reg w n lane b => 2 ^ 53 + ((w * 256 + n) * 32 + lane) * 4 + b
  | .arg lid off => 2 ^ 60 + lid * 2 ^ 12 + off
  | .sealed _ pa => pa
/-- Is a place this byte of physical memory, plain or sealed? -/
def Loc.isAt (l : Loc) (a : Nat) : Bool := match l with | .mem pa | .sealed _ pa => pa == a | _ => false

/-! ## Sealed regions (16 R428-R430) -/

/-- A key of the package: from the root key, with the security version of the checker firmware as salt (16 R428, log 93). -/
def packageKey (s : State) (label : List Byte) : BitVec 512 :=
  hkdf (leBytes 8 s.checker.secVer) (leBytes 32 Config.rootKey.toNat) label
/-- The seeds of the attestation and of the ML-KEM key pair, and the journal chain seed: "attest", "kem", "journal". -/
def attestKey (s : State) : BitVec 512 := packageKey s [0x61, 0x74, 0x74, 0x65, 0x73, 0x74]
/-- The attestation signature (16 R428). -/
def signBy (s : State) (bs : List Byte) : List Byte := Config.signBytes (attestKey s) bs
def kemKey (s : State) : BitVec 512 := packageKey s [0x6B, 0x65, 0x6D]
def journalSeed (s : State) : BitVec 512 := packageKey s [0x6A, 0x6F, 0x75, 0x72, 0x6E, 0x61, 0x6C]

def regionOf (s : State) (r : Nat) : Region := s.checker.regions.get {} r
def modRegion (s : State) (r : Nat) (f : Region → Region) : State :=
  { s with checker := { s.checker with regions := AMap.set {} s.checker.regions r (f (regionOf s r)) } }

/-- The XTS key pair of a region: from its content key, with label "xts" and its number (16 R430). -/
def xtsKey (x : Region) (r : Nat) : BitVec 512 := hkdf [] (leBytes 32 x.key.toNat) ([0x78, 0x74, 0x73] ++ leBytes 1 r)
/-- The tweak of the sector at a byte of a region: by the place of its frame in the region, wherever that frame now is. -/
def xtsTweak (x : Region) (r pa : Nat) : Nat := r * 2 ^ 40 + (x.frames.idxOf (pa / 2 ^ 16) * 2 ^ 16 + pa % 2 ^ 16) / 32

namespace State

/-- A byte of a sealed region's frame, as the die decrypts it (16 R430). -/
def sealedByte (s : State) (r pa : Nat) : Byte :=
  let x := regionOf s r
  (Config.xtsOpen (xtsKey x r) (xtsTweak x r pa) ((List.range 32).map (fun j => s.byteAt (pa / 32 * 32 + j)))).getD (pa % 32) 0

/-- COUNT of a byte-count barrier object at a place, in two's complement (10 Table 10.8). -/
def countAt (s : State) (l : Loc) : DWord :=
  BitVec.ofNat 64 (leNat ((List.range 8).map (fun k => match l.add k with
    | .mem pa => s.byteAt pa
    | .scr tag off => s.scratch.get 0 (tag * 2 ^ 20 + off)
    | _ => 0)))

/-- A waiter of an object tests COUNT after a write to it (10 R275, R277). Of one in another package the answer comes from there. -/
def testWait (s : State) (ls : List Loc) (t : Thread) : Thread :=
  match t.park with
  | .bbwait l pd len none =>
    if (match l with | .mem pa => pa / 2 ^ 40 == s.pkg | _ => true) && ls.contains l.line && decide ((s.countAt l).toInt ≤ 0) then
      { t with park := .bbwait l pd len (some (s.countAt l == 0)) }
    else t
  | _ => t

/-- Set a thread's hit flag. After the limit of its `MWAIT` has passed the wait does not end as woken (04 R117). -/
def hitThread (s : State) (tid : Nat) (t : Thread) : Thread :=
  { t with
    hit := true
    late := t.late || (match t.park with | .mwait limit _ _ => !t.hit && decide (limit < s.clkOf (s.coreOf tid)) | _ => false) }

/-- After a write to these lines: set the hit flag of every thread whose monitor is on one of them, and let the waiters of
barrier objects there test COUNT. -/
def hitLines (s : State) (ls : List Loc) : State :=
  { s with threads := s.threads.map (fun e =>
      (e.1, s.testWait ls (if (match e.2.monitor with | some m => ls.contains m | none => false) then s.hitThread e.1 e.2
        else e.2))) }

/-- Set the hit flag of every thread of a list that has armed a monitor, be its line in a window (04 R116 cases 2-4). -/
def hitAll (s : State) (p : Nat → Bool) : State :=
  { s with threads := s.threads.map (fun e =>
      if p e.1 && (e.2.monitor.isSome || e.2.armed) then (e.1, s.hitThread e.1 e.2) else e) }

/-- Corrections of single-symbol errors are counted in the base die of the line's HBM (08 R201). -/
def countEcc (s : State) (line n : Nat) : State :=
  let d := hbmOf (line * 128)
  { s with msys := { s.msys with eccCorrected := AMap.set 0 s.msys.eccCorrected d (s.msys.eccCorrected.get 0 d + n) } }

/-- Does L2 hold a line filled? Then its base die is not asked for it. -/
def filledL2 (s : State) (line : Nat) : Bool := s.msys.l2.any (fun e => e.2.any (fun x => x.1 == line && x.2.filled))

/-- A read of `n` bytes, which no core's cache answers, of a frame at `base` with damaged granules `ecc`: what the base die corrects
in it. -/
def countFixes (s : State) (ecc : AMap Nat) (base off n : Nat) : State :=
  ((sectors off n).filter (fun k => ecc.get 0 k == 1 && !s.filledL2 ((base + 32 * k) / 128))).foldl (fun s k =>
    s.countEcc ((base + 32 * k) / 128) 1) s
/-- Such a read of physical memory. -/
def countRead (s : State) (pa n : Nat) : State := s.countFixes s.ecc 0 pa n

/-! ## Translation (14 R399-R401) -/

/-- Causes of a translation fault (14 Table 14.3). -/
def cNonCanon : Nat := 1
def cAperture : Nat := 2
def cVault : Nat := 3
def cUnmapped : Nat := 4
def cPerm : Nat := 5
def cReadOnly : Nat := 6

/-- The translation root of a launch's tenant (15 Table 15.1 ROOT). -/
def rootOf (s : State) (lid : Nat) : Nat :=
  bitsOf (s.front.tenants.get {} (s.la lid).tenant).eff.toNat 115 64

/-- The address space of a launch as the translation buffers tell it from another's: its tenant and root (14 R401). -/
def spaceOf (s : State) (lid : Nat) : Nat := (s.la lid).tenant * 2 ^ 52 + s.rootOf lid

/-- A reserved range of the local physical map (01 Table 1.11). -/
def reservedLocal (a : Nat) : Bool :=
  (0xC000000000 ≤ a && a < 0xE000000000) || (0xE080000000 ≤ a && a < 0xE100000000) ||
  (0xE100004000 ≤ a && a < 0xF000000000)

/-- A page of `2^size` bytes that lies in a reserved range, wholly or in part. The 64 KiB frame of the control range is none,
though reserved bytes follow the range in it: every access to it is a permission fault (log 53). -/
def reservedLeaf (frame size : Nat) : Bool :=
  reservedLocal frame || (frame == 0xE100000000 && decide (16 < size))

/-- The levels of a walk: lowest VA bit, index bits, and log2 of the leaf's size (14 Table 14.7). -/
def walkLevels : List (Nat × Nat × Nat) := [(39, 13, 0), (30, 9, 30), (21, 9, 21), (16, 5, 16)]

/-- Is another package's identifier reachable as memory (15 R423, Table 15.8 bit 4)? -/
def reachable (s : State) (feats pkg : Nat) : Bool :=
  pkg == s.pkg || (bitAt feats 4 && decide ((s.checker.peers.get {} pkg).mark = .member))

/-- The checks of a leaf entry (14 Table 14.8), which do not depend on the access; `walkFrom` makes those of every entry. -/
def leafOk (s : State) (feats pte size : Nat) : Except Nat Unit :=
  let frame := bitsOf pte 51 16 * 2 ^ 16
  let pkg := bitsOf pte 51 40
  if bitsOf pte 55 52 ≠ 0 || bitAt pte 7 || bitsOf pte 15 8 ≠ 0 || frame % 2 ^ size ≠ 0 || bitsOf pte 3 2 = 3 then
    .error cPerm
  else if bitAt pte 4 && size ≠ 16 then .error cPerm
  else if 3072 ≤ pkg then .error cUnmapped
  else if !s.reachable feats pkg then .error cUnmapped
  else if reservedLeaf (frame % 2 ^ 40) size then .error cUnmapped
  else .ok ()

/-- The walk from a table on: the leaf entry and log2 of its page's size, or the fault's cause. Every entry, a leaf or not, may
name only a sealed region of `caps`, and none together with WR (14 R400, 16 R430); a next table whose package bits name another
package, or nothing, is no table (01 R24, log 86). -/
def walkFrom (s : State) (feats caps va : Nat) : List (Nat × Nat × Nat) → Nat → Except Nat (Nat × Nat)
  | [], _ => .error cPerm
  | (lo, nb, size) :: rest, table =>
    let pte := s.rdMem (table + 8 * ((va >>> lo) % 2 ^ nb)) 8
    if !bitAt pte 0 then .error cUnmapped
    else if bitsOf pte 63 56 ≠ 0 && (!bitAt caps (bitsOf pte 63 56) || bitAt pte 5) then .error cPerm
    else if bitAt pte 1 then
      if size = 0 then .error cPerm
      else match s.leafOk feats pte size with
        | .ok _ => .ok (pte, size)
        | .error c => .error c
    else if rest.isEmpty || bitsOf pte 55 52 ≠ 0 || bitAt pte 7 then .error cPerm
    else
      let next := bitsOf pte 51 16 * 2 ^ 16 + bitsOf pte 15 8 * 2 ^ 8
      let align := match rest with
        | [_] => 256
        | _ => 4096
      if next % align ≠ 0 then .error cPerm
      else if next / 2 ^ 40 ≠ s.pkg then .error cUnmapped
      else walkFrom s feats caps va rest next

/-- The physical address of the leaf entry a walk ends at. -/
def walkAddr (s : State) (va : Nat) : List (Nat × Nat × Nat) → Nat → Nat
  | [], table => table
  | (lo, nb, _) :: rest, table =>
    let a := table + 8 * ((va >>> lo) % 2 ^ nb)
    let pte := s.rdMem a 8
    if bitAt pte 1 || !bitAt pte 0 then a
    else walkAddr s va rest (bitsOf pte 51 16 * 2 ^ 16 + bitsOf pte 15 8 * 2 ^ 8)

/-- The entries that a walk reads. -/
def walkReads (s : State) (va : Nat) : List (Nat × Nat × Nat) → Nat → List Nat
  | [], _ => []
  | (lo, nb, _) :: rest, table =>
    let a := table + 8 * ((va >>> lo) % 2 ^ nb)
    let pte := s.rdMem a 8
    a :: (if bitAt pte 1 || !bitAt pte 0 then [] else walkReads s va rest (bitsOf pte 51 16 * 2 ^ 16 + bitsOf pte 15 8 * 2 ^ 8))
/-- What the base dies correct in the reads of a walk. -/
def countWalk (s : State) (lid va : Nat) : State :=
  (s.walkReads va walkLevels (s.rootOf lid)).foldl (fun s a => s.countRead a 8) s

/-- A translation held by a buffer: address space, first address, log2 of its size, entry. -/
def bufFind (b : List (Nat × Nat × Nat × Nat)) (space va : Nat) : Option (Nat × Nat) :=
  match b.find? (fun e => e.1 == space && decide (e.2.1 ≤ va) && decide (va < e.2.1 + 2 ^ e.2.2.1)) with
  | some e => some (e.2.2.2, e.2.2.1)
  | none => none

/-- The walk of an address from a root (14 R399). A root that names another package is no table (log 86). -/
def walkRoot (s : State) (feats caps root va : Nat) : Except Nat (Nat × Nat) :=
  if root / 2 ^ 40 ≠ s.pkg then .error cUnmapped else s.walkFrom feats caps va walkLevels root

/-- The walk of an address of a launch's space. -/
def walkLaunch (s : State) (lid va : Nat) : Except Nat (Nat × Nat) :=
  s.walkRoot (s.la lid).feats (s.la lid).capClass (s.rootOf lid) va

/-- The leaf entry an address translates by: the core's buffer, its cluster's, or a walk (14 R401). -/
def leafOf (s : State) (core lid va : Nat) : Except Nat (Nat × Nat) :=
  match bufFind (s.co core).tlb (s.spaceOf lid) va with
  | some e => .ok e
  | none => match bufFind (s.cl (clusterOf core)).tlb (s.spaceOf lid) va with
    | some e => .ok e
    | none => s.walkLaunch lid va

/-- The set of the cluster buffer that a translation lies in: by the lowest bits of its page number (log 47). -/
def tlbSet (e : Nat × Nat × Nat × Nat) : Nat := e.2.1 / 2 ^ e.2.2.1 % 1024

/-- Fill an 8-way set of a cluster's buffer: the entry longest in a full set leaves. -/
def fillSet (b : List (Nat × Nat × Nat × Nat)) (e : Nat × Nat × Nat × Nat) : List (Nat × Nat × Nat × Nat) :=
  match b.filter (fun x => tlbSet x == tlbSet e) with
  | old :: r => (if 7 ≤ r.length then b.erase old else b) ++ [e]
  | [] => b ++ [e]

/-- Keep a translation in the core's and its cluster's buffers (14 R401); one that neither holds was walked to, in memory. -/
def fillTlb (s : State) (core lid va : Nat) : State :=
  match s.leafOf core lid va with
  | .error _ => s
  | .ok (pte, size) =>
    let e := (s.spaceOf lid, va / 2 ^ size * 2 ^ size, size, pte)
    let near := (bufFind (s.co core).tlb e.1 va).isSome
    let s1 := if near then s
      else s.modCore core (fun c => { c with tlb := (c.tlb ++ [e]).drop (c.tlb.length + 1 - 96) })
    if (bufFind (s.cl (clusterOf core)).tlb e.1 va).isSome then s1
    else (if near then s1 else s1.countWalk lid va).modCluster (clusterOf core) (fun c => { c with tlb := fillSet c.tlb e })

/-- What an access does with the bytes. -/
inductive Acc where
  | read | write | fetch | prefetch
  deriving DecidableEq, Repr

/-- A resolved address: where the byte lies, the page's ordering kind, whether it was translated, and its entry. -/
structure Place where
  loc : Loc
  ord : Nat := 0                -- 09 Table 9.2; 2 is UO
  pte : Nat := 0
  xlated : Bool := false
  deriving DecidableEq, Repr

/-- The place of a physical address under its entry: of a staging page of this package in its versions, of a sealed page through
its region's key. -/
def placeAt (s : State) (pa pte : Nat) : Place :=
  if bitAt pte 4 && pa / 2 ^ 40 = s.pkg then ⟨.stg (pa / 2 ^ 16) (pa % 2 ^ 16), 2, pte, true⟩
  else if bitsOf pte 63 56 ≠ 0 && pa / 2 ^ 40 = s.pkg then ⟨.sealed (bitsOf pte 63 56) pa, bitsOf pte 3 2, pte, true⟩
  else ⟨.mem pa, if bitAt pte 4 then 2 else bitsOf pte 3 2, pte, true⟩

/-- Are the journal's and the fault record's rings open: of a legal size, after the first mapping (16 R436, R438)? -/
def jringOk (s : State) : Bool := decide (14 ≤ s.front.jlogn) && decide (s.front.jlogn ≤ 24) && s.front.everMapped
def fringOk (s : State) : Bool := decide (10 ≤ s.front.frlogn) && decide (s.front.frlogn ≤ 20) && s.front.everMapped

/-- Does a frame hold bytes of the journal ring, the checkpoint area or the fault record, which are mapped to no launch (15 R424)? -/
def checkerFrame (s : State) (pa : Nat) : Bool :=
  let f := s.front
  let holds (base n : Nat) : Bool := decide (base / 2 ^ 16 * 2 ^ 16 ≤ pa % 2 ^ 40) && decide (pa % 2 ^ 40 / 2 ^ 16 * 2 ^ 16 < base + n)
  pa / 2 ^ 40 == s.pkg &&
  ((s.jringOk && (holds f.jbase (64 * 2 ^ f.jlogn) || holds f.jckbase (16 * 8192))) || (s.fringOk && holds f.frbase (32 * 2 ^ f.frlogn)))

/-- Translate a 52-bit address for an access by a core or an engine of a launch (14 R400, 01 R466, 13 R347). The map of the
local space is the same in every package, so the control range and the host window of another package are closed too.
The whole 64 KiB frame of the control range raises "permission", its reserved bytes included (log 53). A package that has left
the domain is unmapped whatever a buffer holds (15 R423). A page of another package is reached over the links whatever its
staging attribute, and its versions are chosen there (log 72). A write to the host window raises "read-only" first where the
page or the launch allows none (log 86). A frame that is the checker's is mapped to no launch: it counts as unmapped (log 99). -/
def translate (s : State) (core lid va : Nat) (acc : Acc) : Except Nat Place :=
  match s.leafOf core lid va with
  | .error c => .error c
  | .ok (pte, size) =>
    let l := s.la lid
    let pa := bitsOf pte 51 16 * 2 ^ 16 + va % 2 ^ size
    let lo := pa % 2 ^ 40
    let sreg := bitsOf pte 63 56
    let stg := bitAt pte 4
    if !s.reachable l.feats (pa / 2 ^ 40) || s.checkerFrame pa then .error cUnmapped
    else if sreg ≠ 0 && !bitAt l.capClass sreg then .error cPerm
    else if acc = .fetch && !bitAt pte 6 then .error cPerm
    else if 0xE100000000 ≤ lo && lo < 0xE100010000 then .error cPerm
    else if acc = .write && !bitAt pte 5 then .error cReadOnly
    else if acc = .write && l.stagingOnly && !stg then .error cReadOnly
    else if acc = .write && inHostWindow pa then .error cPerm
    else .ok (s.placeAt pa pte)

/-! ## Apertures (08 R186-R188) -/

def regWin : Nat := 0xFFFFFFFF00000
def scrWin : Nat := 0xFFFFFFFE00000
def argWin : Nat := 0xFFFFFFFD00000
def cluWin : Nat := 0xFFFFE00000000
def vltWin : Nat := 0xFFFF000000000
def topWin : Nat := 0xFFF0000000000

/-- Does an address of the top of the space lie in no aperture (08 R186)? -/
def reservedVa (a : Nat) : Bool :=
  decide (topWin ≤ a) && !(decide (scrWin ≤ a) && decide (a < scrWin + 2 ^ 20)) && !decide (regWin ≤ a) &&
  !(decide (argWin ≤ a) && decide (a < argWin + 4096)) && !(decide (cluWin ≤ a) && decide (a < cluWin + 2 ^ 32)) &&
  !(decide (vltWin ≤ a) && decide (a < vltWin + 2 ^ 31))

/-- The cause that an address has which an agent without windows of its own reads in a launch's or a tenant's space: the front
die. It has the vault window (08 R186-R188). -/
def plainCause (va : Nat) : Option Nat :=
  if 2 ^ 52 ≤ va then some cNonCanon
  else if topWin ≤ va && !(vltWin ≤ va && va < vltWin + 2 ^ 31) then some cAperture
  else none
/-- Does an address of the vault window map another frame than its own? -/
def offVault (s : State) (va : Nat) (l : Loc) : Bool :=
  decide (vltWin ≤ va) && decide (va < vltWin + 2 ^ 31) && !l.isAt (s.localPa (0xE000000000 + (va - vltWin)))

/-- The register window at offset `o`, for a team on a core (08 R186, R188). -/
def regWindow (s : State) (core tag o : Nat) : Except Nat Place :=
  if 2 ^ 20 ≤ o then .error cAperture
  else match (s.co core).slots.find? (o / 2 ^ 15) with
    | some wid =>
      let n := o / 128 % 256
      if tagW wid ≠ tag || (s.wv wid).regs ≤ n then .error cAperture
      else .ok ⟨.reg wid n (o / 4 % 32) (o % 4), 0, 0, false⟩
    | none => .error cAperture

def scrWindow (s : State) (tag o : Nat) : Except Nat Place :=
  if (s.la (s.tm tag).lid).scrLines * 128 ≤ o then .error cAperture else .ok ⟨.scr tag o, 0, 0, false⟩

def cluWindow (s : State) (core lid o : Nat) : Except Nat Place :=
  if 2 ^ 32 ≤ o then .error cAperture
  else
    let c := clusterOf core * 128 + o / 2 ^ 25
    match (s.co c).slots.find? (o / 2 ^ 20 % 32) with
    | some wid =>
      let tag := tagW wid
      if widxW wid ≠ 0 || (s.tm tag).lid ≠ lid || (s.la lid).scrLines * 128 ≤ o % 2 ^ 20 then .error cAperture
      else .ok ⟨.scr tag (o % 2 ^ 20), 0, 0, false⟩
    | none => .error cAperture

def argWindow (s : State) (lid o : Nat) (acc : Acc) : Except Nat Place :=
  if acc = .write then .error cReadOnly
  else if (s.la lid).argSize ≤ o then .error cAperture
  else .ok ⟨.arg lid o, 0, 0, false⟩

/-- The vault window: its page must map the vault frame of its number (08 R188). -/
def vltWindow (s : State) (core lid o : Nat) (acc : Acc) : Except Nat Place :=
  if 2 ^ 31 ≤ o then .error cAperture
  else match s.translate core lid (vltWin + o) acc with
    | .error c => .error c
    | .ok p =>
      if p.loc.isAt (s.localPa (0xE000000000 + o)) then .ok p else .error cVault

/-- Decode an effective address under its qualifier (08 R187): 0 none, 1 `.g`, 2 `.v`, 3 `.c`, 4 `.l`, 5 `.k`. -/
def place (s : State) (core tag lid tls : Nat) (qual : Nat) (ea : Nat) (acc : Acc) : Except Nat Place :=
  match qual with
  | 0 =>
    if 2 ^ 52 ≤ ea then .error cNonCanon
    else if regWin ≤ ea then s.regWindow core tag (ea - regWin)
    else if scrWin ≤ ea then s.scrWindow tag (ea - scrWin)
    else if argWin ≤ ea && ea < argWin + 4096 then s.argWindow lid (ea - argWin) acc
    else if cluWin ≤ ea && ea < cluWin + 2 ^ 32 then s.cluWindow core lid (ea - cluWin)
    else if vltWin ≤ ea && ea < vltWin + 2 ^ 31 then s.vltWindow core lid (ea - vltWin) acc
    else if topWin ≤ ea then .error cAperture
    else s.translate core lid ea acc
  | 1 => if topWin ≤ ea then .error cAperture else s.translate core lid ea acc
  | 2 => s.vltWindow core lid ea acc
  | 3 => s.cluWindow core lid ea
  | 4 => if reservedVa ((tls + ea) % 2 ^ 52) then .error cAperture else s.translate core lid ((tls + ea) % 2 ^ 52) acc
  | _ => s.regWindow core tag ea

/-- Decode an address for a thread. -/
def placeFor (s : State) (tid qual ea : Nat) (acc : Acc) : Except Nat Place :=
  s.place (s.coreOf tid) (tagOf tid) (s.lidOf tid) (s.tls tid) qual ea acc

/-- Keep the translation an access used, where it used one. -/
def touchTlb (s : State) (tid qual ea : Nat) : State :=
  match s.placeFor tid qual ea .read with
  | .ok p => if p.xlated then
      s.fillTlb (s.coreOf tid) (s.lidOf tid)
        (if qual = 2 then vltWin + ea else if qual = 4 then (s.tls tid + ea) % 2 ^ 52 else ea)
    else s
  | .error _ => s

/-! ## Staging versions (13 R342-R346, 09 R253-R255) -/

def pageOf (s : State) (page : Nat) : StagePage := s.stage.get {} page
def modPage (s : State) (page : Nat) (f : StagePage → StagePage) : State :=
  { s with stage := AMap.set {} s.stage page (f (s.pageOf page)) }

/-- The versions of a page that hold a frame, newest first. A FAILED version has none. -/
def frames (p : StagePage) : List Version := (p.versions.filter (fun v => v.st != .failed)).reverse

/-- The version a read by launch `lid` obtains, own WRITING version first when `own` (09 R253); `none`: it parks. -/
def chooseVersion (s : State) (lid page : Nat) (own acc : Bool) : Option Version :=
  let vs := frames (s.pageOf page)
  match (if own then vs.find? (fun v => v.st == .writing && v.lid == lid) else none) with
  | some v => some v
  | none =>
    match vs.filter (fun v => own || !(v.st == .writing && v.lid == lid)) with
    | [] => none
    | v :: _ =>
      if v.st == .released || v.st == .checked then some v
      else if v.st == .sealed && acc then some v
      else none

/-- The use of another launch's SEALED version records an edge (09 R254; its own versions are ordered by 13 R361, log 13). -/
def noteEdge (s : State) (lid page : Nat) (v : Version) : State :=
  s.modLaunch lid (fun l => { l with
    edges := if v.st == .sealed && v.lid != lid && !l.edges.contains (page, v.num) then l.edges ++ [(page, v.num)] else l.edges })

/-- A read records the version it obtained too (13 R357); a read of the launch's own WRITING version counts as one of what it
seals. -/
def noteRead (s : State) (lid page : Nat) (v : Version) : State :=
  (s.noteEdge lid page v).modLaunch lid (fun l => { l with reads := AMap.insert l.reads page v })

/-- The valid entries of a table of `2^nb` entries: index and entry. -/
def tableEntries (s : State) (nb table : Nat) : List (Nat × Nat) :=
  (List.range (2 ^ nb)).filterMap (fun i =>
    let pte := s.rdMem (table + 8 * i) 8
    if bitAt pte 0 then some (i, pte) else none)
/-- The table that an entry points at. -/
def nextTable (pte : Nat) : Nat := bitsOf pte 51 16 * 2 ^ 16 + bitsOf pte 15 8 * 2 ^ 8

/-- The 64 KiB pages that the tables under a root map: address and entry of each, in rising order. -/
def smallPages (s : State) (root : Nat) : List (Nat × Nat) :=
  (s.tableEntries 13 root).flatMap (fun a => if bitAt a.2 1 then [] else
    (s.tableEntries 9 (nextTable a.2)).flatMap (fun b => if bitAt b.2 1 then [] else
      (s.tableEntries 9 (nextTable b.2)).flatMap (fun c => if bitAt c.2 1 then [] else
        (s.tableEntries 5 (nextTable c.2)).filterMap (fun d =>
          if bitAt d.2 1 then some (a.1 * 2 ^ 39 + b.1 * 2 ^ 30 + c.1 * 2 ^ 21 + d.1 * 2 ^ 16, d.2) else none))))
/-- The address at which a launch's space maps a 64 KiB frame: the lowest one, or 0. -/
def pageVa (s : State) (lid frame : Nat) : Nat :=
  (((s.smallPages (s.rootOf lid)).find? (fun e => bitsOf e.2 51 16 == frame)).map Prod.fst).getD 0
/-- Is a frame that of a staging page: has it had a version, or does the space of a tenant in effect map it so (13 R365, log 72)? -/
def isStaging (s : State) (frame : Nat) : Bool :=
  (s.stage.map Prod.fst).contains frame ||
  s.front.tenants.any (fun e => (s.smallPages (bitsOf e.2.eff.toNat 115 64)).any (fun p => bitAt p.2 4 && bitsOf p.2 51 16 == frame))

/-- What becomes of an access to a staging page that needs a version. -/
inductive Stg where
  | ok (s : State)
  | park (p : Park)
  | exhausted (page : Nat)      -- 13 R342: version number 0x1_0000

/-- The frames of a page that hold a version or are still in quarantine (09 R259, 13 R343): a page has four. -/
def framesUsed (s : State) (page : Nat) : Nat :=
  (frames (s.pageOf page)).length + (s.msys.quarantine.filter (fun q => q.1 == page)).length

/-- Make sure that launch `lid` holds a WRITING version of the page in its open epoch (13 R344, R345). -/
def openVersion (s : State) (lid page : Nat) : Stg :=
  let p := s.pageOf page
  let l := s.la lid
  let epoch := l.sealPoints + 1
  if (frames p).any (fun v => v.st == .writing && v.lid == lid) then .ok s
  else if 4 ≤ s.framesUsed page then .park (.frame page)
  else
    let mk (base : Option Version) : Version :=
      { num := p.largest + 1, st := .writing, lid := lid, epoch := epoch,
        bytes := (base.map Version.bytes).getD [], poison := (base.map Version.poison).getD []
        codes := (base.map Version.codes).getD [], ecc := (base.map Version.ecc).getD []
        cls := (base.map Version.cls).getD 0 }
    let add (s : State) (base : Option Version) : Stg :=
      if 0x10000 ≤ p.largest + 1 then .exhausted page
      else .ok (s.modPage page (fun q => { q with
        largest := p.largest + 1, versions := q.versions ++ [mk base] }))
    if (frames p).isEmpty then add s none
    else match s.chooseVersion lid page false l.accSeal with
      | none => .park (.staging page)
      | some b => add (s.noteEdge lid page b) (some b)

/-- Change the WRITING version of a launch on a page. -/
def modWriting (s : State) (lid page : Nat) (f : Version → Version) : State :=
  s.modPage page (fun p => { p with
    versions := p.versions.map (fun v => if v.st == .writing && v.lid == lid then f v else v) })

/-! ## Reading and writing bytes at a place -/

/-- A byte of a register word. -/
def byteOfWord (w : Word) (b : Nat) : Byte := BitVec.ofNat 8 (w.toNat >>> (8 * b))
def setByteOfWord (w : Word) (b : Nat) (x : Byte) : Word :=
  BitVec.ofNat 32 (w.toNat - (w.toNat >>> (8 * b)) % 256 * 2 ^ (8 * b) + x.toNat * 2 ^ (8 * b))

/-- A byte at a place that needs no version. -/
def rdByte (s : State) : Loc → Byte
  | .mem pa => s.byteAt pa
  | .scr tag off => s.scratch.get 0 (tag * 2 ^ 20 + off)
  | .reg wid n lane b => byteOfWord (s.vreg (wid * 32 + lane) n) b
  | .arg lid off => (s.la lid).args.getD off 0
  | .stg _ _ => 0
  | .sealed r pa => s.sealedByte r pa

/-- The `n` bytes from a place on, as launch `lid` reads them (the version is chosen by `chooseVersion`). -/
def rdBytes (s : State) (lid : Nat) (l : Loc) (n : Nat) : List Byte :=
  match l with
  | .stg page off =>
    match s.chooseVersion lid page true (s.la lid).accSeal with
    | some v => (List.range n).map (fun k => v.bytes.get 0 (off + k))
    | none => List.replicate n 0
  | l => (List.range n).map (fun k => s.rdByte (l.add k))

/-- Is a sector poisoned, by its mark, by a check code that does not match, or as a granule that ECC cannot correct (08 R201,
R203)? -/
def badSector (at_ : Nat → Byte) (codes ecc : AMap Nat) (poison : AMap Bool) (k : Nat) : Bool :=
  poison.get false k || !codeOk at_ codes k || ecc.get 0 k == 2

/-- Does a range of physical memory touch a poisoned sector? -/
def memPoison (s : State) (pa n : Nat) : Bool := (sectors pa n).any (badSector s.byteAt s.codes s.ecc s.poison)

/-- Does a range of a version touch a poisoned sector? -/
def Version.bad (v : Version) (off n : Nat) : Bool := (sectors off n).any (badSector (AMap.get 0 v.bytes) v.codes v.ecc v.poison)

/-- Does a read of `n` bytes consume a poisoned sector (08 R203)? -/
def rdPoison (s : State) (lid : Nat) (l : Loc) (n : Nat) : Bool :=
  match l with
  | .mem pa | .sealed _ pa => s.memPoison pa n
  | .stg page off =>
    match s.chooseVersion lid page true (s.la lid).accSeal with
    | some v => Version.bad v off n
    | none => false
  | _ => false

/-- Store one byte at a place that holds no version. -/
def wrByte (s : State) (l : Loc) (b : Byte) : State :=
  match l with
  | .mem pa => s.writeMem pa [b]
  | .scr tag off => { s with scratch := AMap.set 0 s.scratch (tag * 2 ^ 20 + off) b }
  | .reg wid n lane k => s.setVreg (wid * 32 + lane) n (setByteOfWord (s.vreg (wid * 32 + lane) n) k b)
  | .arg _ _ | .stg _ _ | .sealed _ _ => s

/-! ## Byte buckets (15 R419) -/

/-- The bandwidth budgets that a launch draws on, in bytes per ns, each with its owner: its tenant, or 256 + its number. -/
def budgetsOf (s : State) (lid : Nat) : List (Nat × Nat) :=
  let t := (s.la lid).tenant
  let r := bitsOf (s.front.tenants.get {} t).eff.toNat 175 160
  let own := bitsOf ((s.la lid).w 31) 47 32
  [(t, r), (256 + lid, if own = 0 then r else own)].filter (fun b => b.2 != 0)

/-- What an owner's bucket of a stack lacks of being full now; the bucket holds 10 µs of its rate. -/
def lacks (s : State) (who rate stack : Nat) : Nat :=
  let b := s.msys.buckets.get (0, 0) (who * 8 + stack)
  b.1 - rate * (s.time - b.2)

/-- Bytes that a launch moves through a stack are charged to its buckets. One that is empty already delays the access (log 94). -/
def drawBytes (s : State) (lid stack n : Nat) : State :=
  (s.budgetsOf lid).foldl (fun s b => { s with msys := { s.msys with
    buckets := AMap.set (0, 0) s.msys.buckets (b.1 * 8 + stack) (min (b.2 * 10000) (s.lacks b.1 b.2 stack + n), s.time) } }) s

/-- The bytes of an access at a place: of memory of this package. -/
def drawAt (s : State) (lid : Nat) (l : Loc) (n : Nat) : State :=
  match l with
  | .mem pa | .sealed _ pa => if pa / 2 ^ 40 = s.pkg && !inHostWindow pa then s.drawBytes lid (homeStack pa) n else s
  | .stg page _ => s.drawBytes lid (homeStack (page * 2 ^ 16)) n
  | _ => s

/-- The class mask of what a place holds, as a launch reads it (16 R433). -/
def classAt (s : State) (lid : Nat) (l : Loc) : Nat :=
  match l with
  | .mem pa | .sealed _ pa => s.msys.classes.get 0 (pa / 2 ^ 16)
  | .stg page _ => ((s.chooseVersion lid page true (s.la lid).accSeal).map Version.cls).getD 0
  | _ => 0

/-- Lines a write of `n` bytes touches. -/
def linesOf (l : Loc) (n : Nat) : List Loc := ((List.range n).map (fun k => (l.add k).line)).dedup

/-- The correctable granules that a write of `n` bytes from `a` on reads to merge its bytes into. -/
def mergeFixes (ecc : AMap Nat) (a n : Nat) : Nat :=
  ((sectors a n).filter (fun k => !(wholeSectors a n).contains k && ecc.get 0 k == 1)).length

/-- A narrow write to granules of a line: what the base die corrects as it merges. -/
def countMerge (s : State) (line : Nat) (ecc : AMap Nat) (a n : Nat) : State :=
  if s.filledL2 line then s else s.countEcc line (mergeFixes ecc a n)

/-- The damaged granules of launch `lid`'s own WRITING version of a page. -/
def writingEcc (s : State) (lid page : Nat) : AMap Nat :=
  (((s.pageOf page).versions.find? (fun v => v.st == .writing && v.lid == lid)).map Version.ecc).getD []

/-- A write by launch `lid` of bytes from a place on, its version being open: the bytes, poison, the marks of the frame
(13 R365, 16 R433) and the monitors of the lines (04 R116). -/
def wrBytes (s : State) (lid : Nat) (l : Loc) (bs : List Byte) : State :=
  let s1 := match l with
    | .mem pa =>
      let s0 := (s.countMerge (pa / 128) s.ecc pa bs.length).writeMem pa bs
      let f := pa / 2 ^ 16
      { s0 with msys := { s0.msys with
          domOnly := AMap.set false s0.msys.domOnly f true
          classes := AMap.set 0 s0.msys.classes f (s0.msys.classes.get 0 f ||| (s.la lid).capClass) } }
    | .scr tag off => { s with scratch := State.putMem s.scratch (tag * 2 ^ 20 + off) bs }
    | .stg page off => (s.countMerge (l.num / 128) (s.writingEcc lid page) off bs.length).modWriting lid page (fun v =>
        let b := State.putMem v.bytes off bs
        { v with
          bytes := b
          cls := v.cls ||| (s.la lid).capClass
          poison := newPoison (AMap.get 0 v.bytes) v.codes v.ecc v.poison off bs.length
          ecc := newEcc v.ecc off bs.length
          codes := newCodes (AMap.get 0 b) v.codes (sectors off bs.length) })
    | .reg _ _ _ _ => bs.zipIdx.foldl (fun s (b, k) => s.wrByte (l.add k) b) s
    | .arg _ _ | .sealed _ _ => s
  s1.hitLines (linesOf l bs.length)

/-- A team's external-write bit (14 R392) after a write to a place. -/
def noteWrite (s : State) (tag : Nat) (l : Loc) : State :=
  match l with
  | .mem _ => s.modTeam tag (fun t => { t with extWrite := true })
  | _ => s

/-- Set bits of a team's check-interval register and of its shadow (13 R348). -/
def setInterval (s : State) (tag : Nat) (b : BitVec 3) : State :=
  s.modTeam tag (fun t => { t with interval := t.interval ||| b, shadow := t.shadow ||| b })
def bPoison : BitVec 3 := 1
def bIovf : BitVec 3 := 2
def bWerr : BitVec 3 := 4

/-! ## Paired copies (14 R394) -/

def isPaired (s : State) (tag : Nat) : Bool := (s.tm tag).secondary.isSome || (s.tm tag).isSecond

/-- A store record: address, width exponent, data. -/
def storeRecord (ea w : Nat) (bs : List Byte) : List Byte := leBytes 8 ea ++ leBytes 1 w ++ bs
def addRecord (s : State) (tid ea w : Nat) (bs : List Byte) : State :=
  if s.isPaired (tagOf tid) then
    s.modTeam (tagOf tid) (fun t => { t with records := t.records ++ [(tid, storeRecord ea w bs)] })
  else s

/-! ## Host events (15 R421, R422) -/

/-- An event's 16 words (15 Table 15.9). -/
def eventWords (s : State) (tag tenant cause kind queue lid : Nat) (iovf : Bool) (payload : List Word) : List Word :=
  [BitVec.ofNat 32 (tag * 2 ^ 24 + tenant * 2 ^ 16 + cause * 2 ^ 8 + kind), BitVec.ofNat 32 queue,
   BitVec.ofNat 32 lid, BitVec.ofNat 32 (2 * s.checker.degraded.toNat + iovf.toNat)] ++
  (payload ++ List.replicate 12 0).take 12

/-- Bytes of 32-bit words in memory. -/
def wordBytes (ws : List Word) : List Byte := ws.flatMap (fun w => leBytes 4 w.toNat)

/-- The earliest held event, of the front die first and then of the lower die: its die (or none) and its words. -/
def firstEvent (s : State) : Option (Option Nat × Nat × List Word) :=
  let front := s.front.events.head?.map (fun e => ((none : Option Nat), e.1, e.2))
  let dies := s.dies.filterMap (fun d => d.2.events.head?.map (fun e => (some d.1, e.1, e.2)))
  (front.toList ++ dies).foldl (fun best e => match best with
    | none => some e
    | some b => if e.2.1 < b.2.1 then some e else some b) none

def heldEvents (s : State) : Nat := s.front.events.length + (s.dies.map (fun d => d.2.events.length)).sum

/-- Write one event to the ring and advance TAIL (15 R421). -/
def putEvent (s : State) (ws : List Word) : State :=
  let a := s.localPa (s.front.eqbase + 64 * (s.front.eqtail.toNat % 2 ^ s.front.eqk))
  let s1 := (s.writeMem a (wordBytes ws)).hitLines [.mem (a / 128 * 128)]
  { s1 with front := { s1.front with eqtail := s1.front.eqtail + 1 } }

def ringOk (s : State) : Bool := decide (6 ≤ s.front.eqk) && decide (s.front.eqk ≤ 16)
def ringUsed (s : State) : Nat := (s.front.eqtail - s.front.eqhead).toNat
/-- Is an event that arises now posted at once? Before the ring is set up no context stalls for it. -/
def eventRoom (s : State) : Bool := !s.ringOk || decide (s.ringUsed + s.heldEvents < 2 ^ s.front.eqk - 1)

/-- Post held events while the ring has room, in stamp order; one overflow event a full period (15 R422). -/
def flushEvents : Nat → State → State
  | 0, s => s
  | n + 1, s =>
    match s.firstEvent with
    | none => s
    | some (d, _, ws) =>
      if !s.ringOk then s
      else if s.ringUsed < 2 ^ s.front.eqk - 1 then
        let s1 := match d with
          | none => { s with front := { s.front with events := s.front.events.tail } }
          | some d => s.modDie d (fun x => { x with events := x.events.tail })
        flushEvents n (s1.putEvent ws)
      else if s.front.overflowed then s
      else
        let s1 := s.putEvent (s.eventWords 0 0 0 6 0 0 false [BitVec.ofNat 32 s.heldEvents])
        { s1 with front := { s1.front with overflowed := true } }

/-- An event of the front die arises. -/
def raiseEvent (s : State) (ws : List Word) : State :=
  let s1 := { s with front := { s.front with events := s.front.events ++ [(s.time, ws)] } }
  flushEvents (s1.heldEvents + 1) s1

/-- A trap event of a compute die arises (15 R422). -/
def raiseDieEvent (s : State) (die : Nat) (ws : List Word) : State :=
  let s1 := s.modDie die (fun d => { d with events := d.events ++ [(s.time, ws)] })
  flushEvents (s1.heldEvents + 1) s1

/-! ## The journal and the fault record (16 R436-R439) -/

/-- Is the fault record's ring full (R438)? -/
def recordFull (s : State) : Bool := s.fringOk && decide (2 ^ s.front.frlogn ≤ s.checker.frwidx - s.checker.frridx)
/-- Is the journal ring full (R436)? Events that need an entry wait while it is. -/
def jfull (s : State) : Bool := s.jringOk && decide (2 ^ s.front.jlogn ≤ s.checker.jwseq - s.checker.jrseq)

/-- Bytes 0 to 31 of a journal entry (Table 16.3). -/
def entryHead (e : LogEntry) (seq : Nat) : List Byte :=
  leBytes 8 seq ++ leBytes 8 e.time ++ leBytes 2 e.tenant ++ leBytes 2 e.kind ++ leBytes 12 e.payload.toNat

/-- The last value of the journal chain. -/
def chainOf (s : State) : BitVec 512 := if s.checker.jwseq = 0 then journalSeed s else s.checker.chain

/-- Append one entry to the journal ring; every 4,096th entry makes a checkpoint due (R437). -/
def putJournal (s : State) (e : LogEntry) : State :=
  let seq := s.checker.jwseq
  let hd := entryHead e seq
  let c := sha3 (leBytes 64 s.chainOf.toNat ++ hd)
  let a := s.localPa (s.front.jbase + 64 * (seq % 2 ^ s.front.jlogn))
  let s1 := (s.writeMem a (hd ++ (leBytes 64 c.toNat).take 32)).hitLines [.mem (a / 128 * 128)]
  { s1 with checker := { s1.checker with
      chain := c, jwseq := seq + 1, ckptDue := s1.checker.ckptDue + (if (seq + 1) % 4096 = 0 then 1 else 0) } }

/-- Append the entries that wait, while the ring has room; a checkpoint that is due comes first (R437). -/
def flushJournal : Nat → State → State
  | 0, s => s
  | n + 1, s => match s.checker.jwait with
    | [] => s
    | e :: r => if !s.jringOk || s.jfull || s.checker.ckptDue != 0 then s
      else flushJournal n (({ s with checker := { s.checker with jwait := r } } : State).putJournal e)

/-- Journal an event: tenant 0xFFFF is the package. -/
def journal (s : State) (kind tenant : Nat) (payload : BitVec 96) (fields : List Nat := []) : State :=
  let e : LogEntry := { kind := kind, tenant := tenant, time := s.time, fields := fields, payload := payload }
  let s1 : State := { s with checker := { s.checker with jwait := s.checker.jwait ++ [e] } }
  flushJournal (s1.checker.jwait.length) s1
/-- Journal an event whose payload the manual gives by its fields alone. -/
def journalF (s : State) (kind tenant : Nat) (fields : List Nat) : State :=
  s.journal kind tenant (Config.journalPayload kind fields) fields

/-- Append the fault-record entries that wait, while their ring has room. -/
def flushFaults : Nat → State → State
  | 0, s => s
  | n + 1, s => match s.checker.fwait with
    | [] => s
    | e :: r =>
      if !s.fringOk || s.recordFull then s
      else
        let a := s.localPa (s.front.frbase + 32 * (s.checker.frwidx % 2 ^ s.front.frlogn))
        let s1 := (s.writeMem a (leBytes 32 (Config.faultEntry e.time e.tenant e.kind e.fields).toNat)).hitLines [.mem (a / 128 * 128)]
        flushFaults n { s1 with checker := { s1.checker with fwait := r, frwidx := s1.checker.frwidx + 1 } }

/-- Kinds of fault-record entries, as the model numbers them. -/
def kFailedCheck : Nat := 1
def kPairedMismatch : Nat := 2
def kNoiseFault : Nat := 3
def kLaunchFault : Nat := 4

/-- Units as the model numbers them: a core by its number, a cluster, a die. No unit is 2^18. -/
def uCluster (k : Nat) : Nat := 2 ^ 16 + k
def uDie (d : Nat) : Nat := 2 ^ 17 + d
def uNone : Nat := 2 ^ 18

/-- Add an entry to the fault record. -/
def faultRecord (s : State) (unit kind : Nat) (fields : List Nat) : State :=
  let e : LogEntry := { kind := kind, tenant := unit, time := s.time, fields := fields }
  let s1 : State := { s with checker := { s.checker with fwait := s.checker.fwait ++ [e] } }
  flushFaults s1.checker.fwait.length s1

/-- The die of a unit. -/
def unitDie (u : Nat) : Nat := if 2 ^ 17 ≤ u then u - 2 ^ 17 else if 2 ^ 16 ≤ u then (u - 2 ^ 16) / 2 else dieOf u

/-- Is a unit out of service for good already, itself or with its whole die? -/
def isRetired (s : State) (u : Nat) : Bool :=
  s.checker.fuses.contains u || ((s.di (unitDie u)).retired && decide (128 ≤ s.checker.fuses.length))

/-- Retire a unit: the fuse row, or its whole die when the row is full (R439). While the journal is full it waits (R436). -/
def retire (s : State) (u : Nat) : State :=
  if s.isRetired u || s.jfull then s
  else if s.checker.fuses.length < 128 then
    let s1 : State := { s with checker := { s.checker with fuses := s.checker.fuses ++ [u] } }
    (if 2 ^ 17 ≤ u then s1.modDie (u - 2 ^ 17) (fun d => { d with retired := true })
     else if 2 ^ 16 ≤ u then s1.modCluster (u - 2 ^ 16) (fun c => { c with retired := true }) else s1).journalF 0x0B 0xFFFF [u]
  else
    (({ s with checker := { s.checker with degraded := true } } : State).modDie (unitDie u) (fun d => { d with
      retired := true })).journalF 0x0B 0xFFFF [uDie (unitDie u)]

/-- A day in nanoseconds. -/
def dayNs : Nat := 86400000000000

/-- Charge one unit: the third attribution within 24 hours retires it. -/
def charge (s : State) (u : Nat) : State :=
  let ts := ((s.checker.attrib.get [] u).filter (fun t => decide (s.time < t + dayNs))) ++ [s.time]
  let s1 : State := { s with checker := { s.checker with attrib := AMap.set [] s.checker.attrib u ts } }
  if 3 ≤ ts.length then s1.retire u else s1

/-- Retire the units that three attributions have made due and that waited for the journal. -/
def retireDue (s : State) : State :=
  (s.checker.attrib.filter (fun e => decide (3 ≤ e.2.length))).foldl (fun s e => s.retire e.1) s

/-- Attribute a fault to a core, and with it to its cluster and its die (R438, R439); or to a cluster. -/
def chargeCore (s : State) (c : Nat) : State := ((s.charge c).charge (uCluster (clusterOf c))).charge (uDie (dieOf c))
def chargeCluster (s : State) (k : Nat) : State := s.charge (uCluster k)

/-- Is a core retired, or its cluster, or its die? -/
def retiredCore (s : State) (c : Nat) : Bool :=
  s.checker.fuses.contains c || (s.cl (clusterOf c)).retired || (s.di (dieOf c)).retired

/-! ## The power log and the pools (17 R440-R451) -/

/-- The operating point's voltage in mV and clock in MHz (17 Table 17.1). -/
def pointMv (p : Nat) : Nat := 500 + 50 * p
def pointMhz (p : Nat) : Nat := [1000, 1250, 1500, 1750, 2000, 2250, 2400, 2500].getD p 2500

/-- Classes: start, lowest, highest and floor point (17 Table 17.2); pool 4 is the idle pool. -/
def classStart (k : Nat) : Nat := [7, 5, 3, 2].getD k 0
def classLow (k : Nat) : Nat := [7, 2, 0, 2].getD k 0
def classHigh (k : Nat) : Nat := [7, 7, 5, 2].getD k 0
def classFloor (k : Nat) : Nat := [4, 3, 0, 0].getD k 0

/-- An entry of the power log (17 R451, Table 17.4): dropped and counted while the ring is full, ignored without a ring. -/
def powerLog (s : State) (kind unit src dst memb issb fifo value : Nat) : State :=
  let p := s.power
  if p.plogK < 6 || 16 < p.plogK then s
  else if (p.plogTail + 1) % 2 ^ p.plogK = p.plogHead % 2 ^ p.plogK then
    { s with power := { p with plogDrop := if p.plogDrop = 0xFFFFFFFF then p.plogDrop else p.plogDrop + 1 } }
  else
    let a := s.localPa (p.plogBase + 16 * (p.plogTail % 2 ^ p.plogK))
    let lo := ((((kind * 256 + unit) * 16 + src) * 16 + dst) * 256 + memb) * 2 ^ 32 + ((issb * 256 + fifo) * 2 ^ 16 + value % 2 ^ 16)
    let s1 := (s.writeMem a (leBytes 8 (lo % 2 ^ 64) ++ leBytes 8 s.time)).hitLines [.mem (a / 128 * 128)]
    { s1 with power := { s1.power with plogTail := (p.plogTail + 1) % 2 ^ 32 } }
/-- No point. -/
def noPoint : Nat := 15

/-- The next step of a cluster's transition toward its target (17 R446): a clock switch, which pauses it, or a voltage step. It
starts at `now`. -/
def nextTransition (now : Nat) (c : Cluster) : Cluster :=
  if c.target < c.clock then { c with phase := 2, since := now, swTo := c.target }
  else if c.volt < c.target then { c with phase := 1, since := now }
  else if c.target < c.volt then { c with phase := 3, since := now }
  else if c.clock < c.target then { c with phase := 2, since := now, swTo := c.target }
  else { c with phase := 0, since := now }

/-- A cluster's target point becomes `q`; a step or switch in progress ends first. -/
def retarget (s : State) (k q : Nat) : State :=
  s.modCluster k (fun c =>
    if c.phase = 0 then nextTransition s.time { c with target := q, src := c.clock } else { c with target := q })

def poolAt (s : State) (k : Nat) : Pool := s.power.pools.getD k {}
def modPool (s : State) (k : Nat) (f : Pool → Pool) : State :=
  { s with power := { s.power with pools := s.power.pools.set k (f (s.poolAt k)) } }

/-- The clusters of a pool. -/
def poolClusters (s : State) (k : Nat) : List Nat := (List.range 32).filter (fun c => (s.cl c).pool == k)

/-- A pool's point changes, and with it the target of each of its clusters (17 R443). -/
def setPoint (s : State) (k q : Nat) : State :=
  if (s.poolAt k).point = q then s
  else (s.poolClusters k).foldl (fun s c => s.retarget c q) (s.modPool k (fun p => { p with point := q, denied := false }))

/-- A cluster joins a pool (17 R442, R443): the first one of a class pool gives it the class's start point, capped while the
pool is throttled. -/
def joinPool (s : State) (c k : Nat) : State :=
  if (s.cl c).pool = k then s
  else
    let first := (s.poolClusters k).isEmpty
    let s1 := s.modCluster c (fun x => { x with pool := k })
    let q := if k = 4 then 0
      else
        let q := if first then classStart k else (s.poolAt k).point
        if (s.poolAt k).throttled then min q (classFloor k) else q
    let s2 := if k ≠ 4 && first then s1.modPool k (fun p => { p with point := q, denied := p.denied && p.point == q }) else s1
    (s2.powerLog 5 c noPoint noPoint 0 0 0 k).retarget c q

/-- Teams that a cluster holds. -/
def holdsTeam (s : State) (c : Nat) : Bool := s.teams.any (fun e => !e.2.fin && e.2.core / 128 == c)
/-- A cluster that holds no team any more returns to the idle pool. -/
def leavePool (s : State) (c : Nat) : State := if s.holdsTeam c then s else s.joinPool c 4

end State

/-! ## Freed frames (16 R429, R430) -/

/-- Frames are freed: they enter quarantine with the stamp of now (09 R259), and lose their class masks (16 R433). -/
def quarantineFrames (s : State) (fs : List Nat) : State :=
  { s with msys := { s.msys with
      quarantine := s.msys.quarantine ++ fs.map (fun f => (f, s.msys.stamp))
      classes := fs.foldl AMap.erase s.msys.classes } }

/-- The frames of revoked regions are freed once no launch that may map them is left (16 R430). -/
def freeRevoked (s : State) : State :=
  s.checker.regions.foldl (fun s e =>
    let used := s.launches.any (fun l => bitAt l.2.capClass e.1 &&
      (l.2.st == .waiting || l.2.st == .running || l.2.st == .ending || l.2.st == .discarded))
    if e.2.st != 3 || e.2.frames.isEmpty || used then s
    else quarantineFrames (modRegion s e.1 (fun x => { x with frames := [] })) e.2.frames) s

end Sys2Proof.Machine
end

