-- ==== Sys2Proof/Machine/Cache.lean ====
section
/-!
DEFINITION. Sys2Proof/Machine/Cache.lean: what the caches hold, and one thread's reads and writes at a place: the stores that a
paired copy holds, the versions that an access opens, and what an access waits for (08 R190, R195-R203; 09 R253; 14 R395).
-/

namespace Sys2Proof.Machine

open Sys2Proof

/-- Is a byte another package's? -/
def isFar (s : State) (l : Loc) : Bool := match l with | .mem pa => pa / 2 ^ 40 != s.pkg | _ => false

/-- Free bytes: what another package holds (log 8). -/
def freeBytes (s : State) (n : Nat) : State × List Byte :=
  ({ s with draws := s.draws + n }, (List.range n).map (fun k => (Config.freshBits (s.draws + k)).setWidth 8))

namespace State

/-! ## Caches (R190, R196, R197, R201): what is held and at what level; the bytes are those of memory -/

/-- A vault byte is never held in L2 (R199). -/
def isVault (s : State) (pa : Nat) : Bool :=
  decide (pa / 2 ^ 40 = s.pkg) && decide (0xE000000000 ≤ pa % 2 ^ 40) && decide (pa % 2 ^ 40 < 0xE080000000)

/-- The line number of a place that L1 may hold: not of a register or scratchpad window (R190). -/
def lineNum (l : Loc) : Option Nat :=
  match l with
  | .mem _ | .stg _ _ | .arg _ _ | .sealed _ _ => some (l.num / 128)
  | _ => none

/-- The line number of a place that L2 may hold: L2 lies at the memory's side, so no line of another package. -/
def l2Num (s : State) (l : Loc) : Option Nat :=
  match l with
  | .mem pa | .sealed _ pa => if s.isVault pa || pa / 2 ^ 40 ≠ s.pkg then none else some (pa / 128)
  | .stg _ _ => some (l.num / 128)
  | _ => none

/-- The slice of a line for a launch's tenant (R196): over all stacks, or over those of the tenant's partition. -/
def sliceOf (s : State) (lid line : Nat) : Nat :=
  let pa := line * 128
  let h := bitsOf pa 14 7 ^^^ bitsOf pa 22 15 ^^^ bitsOf pa 30 23 ^^^ bitsOf pa 38 31
  let mask := s.msys.l2Parts.get 0 (s.la lid).tenant
  let parts := (List.range 8).filter (fun k => mask = 0 || bitAt mask k)
  let q := h % (32 * parts.length)
  parts.getD (q / 32) 0 * 32 + q % 32

/-- The lines of a slice, and of the slice that a launch finds a line in. -/
def slice (s : State) (k : Nat) : List (Nat × L2Line) := s.msys.l2.get [] k
def l2Line (s : State) (lid n : Nat) : Option L2Line := AMap.find? (s.slice (s.sliceOf lid n)) n

/-- A line that a queued array instruction holds pinned (R198). -/
def pinnedLine (s : State) (k : Nat) : Bool := s.cores.any (fun c => c.2.mx.any (fun e => e.pins.contains k))

/-- The retention level after an access with a hint: 0 plain, 1 `.ef`, 2 `.el`, 3 `.nl` (R197). A fill has no old level. -/
def levelAfter (old : Option Nat) (hint : Nat) : Nat :=
  match old with
  | none => if hint = 2 then 3 else if hint = 1 then 0 else 1
  | some k => if hint = 2 then 3 else if hint = 1 && k ≠ 3 then 0 else k

/-- A core's L1 touches or fills a line. The spec gives no sets: L1 is one set, and so is each L2 slice (log 68). -/
def touchL1 (s : State) (core n hint : Nat) : State :=
  s.modCore core (fun c => { c with
    l1 := touchLine id c.l1Room (fun _ => false) c.l1 n (levelAfter (AMap.find? c.l1 n) hint) })

/-- Lines of a slice: 2 MiB of 128 bytes (01 R22). -/
def sliceLines : Nat := 16384

/-- The masks of a line's sectors go: they have been merged at the base die, or filled (R201). -/
def dropMasks (s : State) (line : Nat) : State :=
  { s with msys := { s.msys with l2Mask := s.msys.l2Mask.filter (fun e => e.1 / 4 != line) } }

/-- A launch's access touches or fills a line of its slice; the victim of a fill is written back with its masks. Of 16,384 lines
at most 4,096 are pinned (R198), so a fill always finds a victim. -/
def touchL2 (s : State) (lid n hint : Nat) (write : Bool) : State :=
  let k := s.sliceOf lid n
  let ls := s.slice k
  let old := AMap.find? ls n
  let x : L2Line := {
    level := levelAfter (old.map L2Line.level) hint
    dirty := write || (old.map L2Line.dirty).getD false
    filled := !write || (old.map L2Line.filled).getD false }
  let ls' := touchLine L2Line.level sliceLines s.pinnedLine ls n x
  let out := ls.filter (fun e => (AMap.find? ls' e.1).isNone)
  out.foldl (fun s e => s.dropMasks e.1) { s with msys := { s.msys with l2 := AMap.set [] s.msys.l2 k ls' } }

/-- The sector mask of a write to a line that L2 has not filled (R201). -/
def maskSector (s : State) (lid : Nat) (l : Loc) (n : Nat) : State :=
  match s.l2Num l with
  | some line =>
    if (s.l2Line lid line).any L2Line.filled then s
    else
      let m := BitVec.ofNat 32 (((2 ^ n - 1) <<< (l.num % 32)) % 2 ^ 32)
      { s with msys := { s.msys with l2Mask := AMap.set 0 s.msys.l2Mask (l.num / 32) (s.msys.l2Mask.get 0 (l.num / 32) ||| m) } }
  | none => s

/-- The granules of a line whose single-symbol errors the base die corrects as it fills the line (R201). -/
def corrected (s : State) (lid : Nat) (l : Loc) : Nat :=
  let count (ecc : AMap Nat) (line : Nat) : Nat := ((List.range 4).filter (fun j => ecc.get 0 (line * 4 + j) == 1)).length
  match l with
  | .mem pa | .sealed _ pa => count s.ecc (pa / 128)
  | .stg page off => ((s.chooseVersion lid page true (s.la lid).accSeal).map (fun v => count v.ecc (off / 128))).getD 0
  | _ => 0

/-- L2 fetches a line that it does not hold filled. -/
def fillL2 (s : State) (lid hint : Nat) (l : Loc) : State :=
  match s.l2Num l with
  | none => s
  | some k =>
    let s1 := if (s.l2Line lid k).any L2Line.filled then s else s.countEcc k (s.corrected lid l)
    (s1.touchL2 lid k hint false).dropMasks k

/-- A read by a core of a launch passes the caches. -/
def cacheRead (s : State) (core lid hint : Nat) (l : Loc) : State :=
  match lineNum l with
  | none => s
  | some k => (if hint = 3 then s else s.touchL1 core k hint).fillL2 lid hint l

/-- A write of `n` bytes by a core: L1 is write-through and keeps a copy that it holds. A write is performed at `.pair` at its
step, and so drops the line from the twin's L1 (09 R224). -/
def cacheWrite (s : State) (core lid hint : Nat) (l : Loc) (n : Nat) : State :=
  match lineNum l with
  | none => s
  | some k =>
    let s1 := if (AMap.find? (s.co core).l1 k).isSome then s.touchL1 core k hint else s
    let s2 := s1.modCore (twinOf core) (fun c => { c with l1 := AMap.erase c.l1 k })
    match s2.l2Num l with
    | none => s2
    | some k => (s2.maskSector lid l n).touchL2 lid k hint true

/-! ## Paired execution (14 R394, R395) -/

/-- A place outside the copy's own core. -/
def isOut : Loc → Bool | .mem _ => true | .stg _ _ => true | _ => false

/-- The byte that a copy's held stores leave at a place, if any. -/
def heldByte (hs : List HeldStore) (l : Loc) : Option Byte :=
  hs.foldl (fun best h => match (h.bytes.zipIdx.find? (fun b => h.loc.add b.2 == l)) with
    | some b => some b.1
    | none => best) none

/-- Hold lines in use after more stores. -/
def holdLines (hs : List HeldStore) : Nat := (hs.flatMap (fun h => linesOf h.loc h.bytes.length)).dedup.length

/-- Would a copy's hold lines pass its launch's budget with these further stores (14 R395)? -/
def passesHold (s : State) (tag : Nat) (more : List HeldStore) : Bool :=
  s.isPaired tag && decide ((s.la (s.tm tag).lid).hold < holdLines ((s.tm tag).heldStores ++ more.filter (fun h => isOut h.loc)))

/-! ## Reading and writing one thread's pieces -/

/-- The bytes a thread reads from a piece; a paired copy sees its held stores. -/
def readPiece (s : State) (tid : Nat) (l : Loc) (n : Nat) : List Byte :=
  let bs := s.rdBytes (s.lidOf tid) l n
  let hs := (s.tm (tagOf tid)).heldStores
  if hs.isEmpty then bs
  else bs.zipIdx.map (fun (b, k) => (heldByte hs (l.add k)).getD b)

/-- Marks a read leaves: the version it obtained, poison consumed (08 R203), the caches. -/
def readMarks (s : State) (core tid hint : Nat) (l : Loc) (n : Nat) : State :=
  let lid := s.lidOf tid
  let s1 := match l with
    | .stg page _ => match s.chooseVersion lid page true (s.la lid).accSeal with
      | some v => s.noteRead lid page v
      | none => s
    | _ => s
  let s2 := if s.rdPoison lid l n then s1.setInterval (tagOf tid) bPoison else s1
  let hit := (AMap.find? (s.co core).l1 (l.num / 128)).isSome
  (if hit then s2 else s2.drawAt lid l n).cacheRead core lid hint l

/-- A request leaves for another package under a new response tag (14 R402); that of a `BBWAIT` has no time limit (10 R280), and on
a halted die none runs (14 R403). While an acquire or the registration of a monitor is under way, the thread's later port
instructions wait for it (09 R236, 04 R116). -/
def sendTag (s : State) (a : PAcc) (pkg ad : Nat) : State :=
  let id := s.msys.nextTag
  { (s.modThread a.tid (fun t => if a.acq then { t with fenceTag := id + 1 } else t)) with msys := { s.msys with
      nextTag := id + 1
      tags := s.msys.tags ++ [{ id := id, acc := a, pkg := pkg, addr := ad, since := s.time
                                held := a.op == .bbwait || (s.di (dieOf a.core)).halted }] } }

/-- A write of a thread to another package leaves, to an address there. `org` is the PC of its instruction and its stamp (09 R257);
none for the instruction at issue. -/
def sendWrite (s : State) (tid : Nat) (l : Loc) (n ea : Nat) (so : Bool := false) (org : Option (Nat × Nat) := none) : State :=
  let o := org.getD (s.focus.pc, s.msys.copy)
  s.sendTag { core := s.coreOf tid, tid := tid, pc := o.1, op := .store, pieces := [(l, n, ea)], stamp := o.2, so := so }
    (l.num / 2 ^ 40) ea

/-- Write bytes of a thread to a piece whose version is open. A write to another package changes nothing here but monitors; it is
under way there until it is answered. -/
def writeNow (s : State) (tid hint : Nat) (l : Loc) (bs : List Byte) (ea : Nat := 0) (so : Bool := false)
    (org : Option (Nat × Nat) := none) : State :=
  if isFar s l then ((s.noteWrite (tagOf tid) l).hitLines (linesOf l bs.length)).sendWrite tid l bs.length ea so org
  else (((s.wrBytes (s.lidOf tid) l bs).noteWrite (tagOf tid) l).drawAt (s.lidOf tid) l bs.length).cacheWrite (s.coreOf tid) (s.lidOf tid) hint l bs.length

/-- A store of bytes by a thread at a piece whose version is open; a paired copy holds it (14 R395). -/
def writePiece (s : State) (tid hint : Nat) (l : Loc) (bs : List Byte) (ea : Nat := 0) (so : Bool := false)
    (org : Option (Nat × Nat) := none) : State :=
  let o := org.getD (s.focus.pc, s.msys.copy)
  if s.isPaired (tagOf tid) && isOut l then
    s.modTeam (tagOf tid) (fun t => { t with heldStores := t.heldStores ++ [⟨tid, l, bs, o.2, ea, o.1⟩] })
  else s.writeNow tid hint l bs ea so org

/-- Open the version a piece writes. -/
def openPiece (s : State) (tid : Nat) (p : Loc × Nat × Nat) : Stg :=
  match p.1 with
  | .stg page _ => s.openVersion (s.lidOf tid) page
  | _ => .ok s

def openPieces (s : State) (tid : Nat) : List (Loc × Nat × Nat) → Stg
  | [] => .ok s
  | p :: r => match s.openPiece tid p with
    | .ok s1 => openPieces s1 tid r
    | x => x

/-- What makes an access wait, whatever it does: an absent scratchpad line (R195), an evicted register line (R191), a page
that is moving (R200). -/
def waitOf (s : State) (l : Loc) : Option Park :=
  match l with
  | .scr tag off => if (s.tm tag).pending.get 0 (off / 128) = 0 then none else some (.presence tag (off / 128))
  | .reg wid n _ _ => if (s.wv wid).evicted.contains n then some (.refill wid n) else none
  | .mem pa | .sealed _ pa => (s.msys.migrations.find? (fun m => decide (m.page ≤ pa) && decide (pa < m.page + m.size))).map
      (fun m => .page (m.page / 2 ^ 16))
  | .stg page _ => (s.msys.migrations.find? (fun m => decide (m.page ≤ page * 2 ^ 16) && decide (page * 2 ^ 16 < m.page + m.size))).map
      (fun m => .page (m.page / 2 ^ 16))
  | .arg _ _ => none

/-- A read of a staging page that obtains no version waits (09 R253). -/
def waitRead (s : State) (tid : Nat) (l : Loc) : Option Park :=
  match l with
  | .stg page _ =>
    if (s.chooseVersion (s.lidOf tid) page true (s.launchOf tid).accSeal).isNone then some (.staging page) else none
  | _ => none

end State
end Sys2Proof.Machine
end

