-- ==== Sys2Proof/Machine/Links.lean ====
section
/-!
DEFINITION. Sys2Proof/Machine/Links.lean: the other packages: their marks in the domain table, the domain key and the group
counters of the links, and the answers that leave for them (09 R256; 15 R423; 16 R435).
-/

namespace Sys2Proof.Machine

open Sys2Proof State

def peerOf (s : State) (p : Nat) : Peer := s.checker.peers.get {} p
def modPeer (s : State) (p : Nat) (f : Peer → Peer) : State :=
  { s with checker := { s.checker with peers := AMap.set {} s.checker.peers p (f (peerOf s p)) } }

/-! ## The domain key (16 R435) -/

/-- Is this package the coordinator, the member with the lowest identifier? -/
def coordinates (s : State) : Bool := s.checker.peers.all (fun e => e.2.mark != .member || decide (s.pkg < e.1))

/-- The domain key is replaced: counters start again, and the old key is good for 1 ms more. The coordinator encapsulates the new key
to each member; a package that is none loses its own. -/
def replaceKey (coord : Bool) (s : State) : State :=
  let n := s.checker.keyGen + 1
  { s with checker := { s.checker with
      oldKey := some s.checker.keyGen, keyGen := n, keySince := s.time
      peers := s.checker.peers.map (fun e => (e.1, { e.2 with
        inCtr := [], outCtr := []
        keyCt := if e.2.mark != .member then [] else if coord then Config.encapsulate e.1 (Config.domainKey n) else e.2.keyCt })) } }

/-- Does a counter come within `k` of 2^78? -/
def keyNear (s : State) (k : Nat) : Bool :=
  s.checker.peers.any (fun e => (e.2.inCtr ++ e.2.outCtr).any (fun c => decide (2 ^ 78 ≤ c.2 + k)))

/-- Before a counter reaches 2^78 the key is replaced. -/
def keepKey (s : State) : State :=
  if keyNear s 1 then (replaceKey (coordinates s) s).journalF 0x0C 0xFFFF [s.pkg, 3] else s

/-- The nonce of a flit group: its sender, its port and its counter. -/
def groupNonce (sender port counter : Nat) : Nat := (sender * 2 ^ 5 + port) * 2 ^ 79 + counter

/-- Does the group verify? A member's comes under the domain key, or for 1 ms under the old one. -/
def groupOk (s : State) (g : FlitGroup) : Bool :=
  g.tagOk && ((peerOf s g.sender.toNat).mark != .member || g.key == s.checker.keyGen ||
    (s.checker.oldKey == some g.key && decide (s.time < s.checker.keySince + 1000000)))

/-- The counter of a port moves on behind a group received there. -/
def countIn (s : State) (g : FlitGroup) : State :=
  keepKey (modPeer s g.sender.toNat (fun x => { x with
    inCtr := if g.key = s.checker.keyGen then AMap.set 0 x.inCtr g.port (max (x.inCtr.get 0 g.port) (g.counter + 1)) else x.inCtr
    recovering := false }))

/-! ## Answers -/

/-- An answer leaves for another package, by the port that reaches it. -/
def sendOut (s : State) (x : LinkAns) : State :=
  let k := Config.linkPort x.pkg
  keepKey (modPeer { s with msys := { s.msys with linkOut := s.msys.linkOut ++ [x] } } x.pkg (fun p => { p with
    outCtr := AMap.set 0 p.outCtr k (p.outCtr.get 0 k + 1) }))

/-- A part of one frame as another package reads it: its bytes, their poison mark (08 R203), the frame's class mask, and of
staged data the state and number of the version (09 R256). -/
structure LinkPart where
  bytes : List Byte
  poison : Bool := false
  cls : Nat := 0
  ver : Option (Nat × Nat) := none

/-- The answer that parts make. -/
def answerOf (p addr : Nat) (ps : List LinkPart) : LinkAns :=
  { pkg := p, addr := addr, bytes := some (ps.flatMap LinkPart.bytes), poison := ps.any LinkPart.poison
    ver := ps.filterMap LinkPart.ver }

/-- The state of a version as a word names it (08 R210). -/
def stateCode : VState → Nat
  | .writing => 1
  | .sealed => 2
  | .checked => 3
  | .released => 4
  | .failed => 5

/-- Staged data of a version. -/
def stagedPart (v : Version) (off n : Nat) : LinkPart :=
  { bytes := (List.range n).map (fun k => v.bytes.get 0 (off + k)), poison := Version.bad v off n, cls := v.cls
    ver := some (stateCode v.st, v.num) }

end Sys2Proof.Machine
end

