-- ==== Sys2Proof/Machine/Tile.lean ====
section
/-!
DEFINITION. Sys2Proof/Machine/Tile.lean: the arithmetic of the matrix unit on whole tiles: the sums of 03 R83, tile
conversions (11 R317-R320), products, passes and residuals (12 R329, R330), and what the witness lane computes (13 R352).
-/

namespace Sys2Proof.Machine

open Sys2Proof

/-! ## Tiles and matrices -/

/-- An element of a 64×64 tile of 32-bit elements, held row by row. -/
def tel (t : Array Word) (i j : Nat) : Word := t.getD (64 * i + j) 0
def tileOf (f : Nat → Nat → Word) : Array Word := ((List.range 4096).map (fun k => f (k / 64) (k % 64))).toArray
/-- The same with a mark from each element, or-ed. -/
def tileOfMark (f : Nat → Nat → Word × Bool) : Array Word × Bool :=
  let l := (List.range 4096).map (fun k => f (k / 64) (k % 64))
  ((l.map Prod.fst).toArray, l.any Prod.snd)

/-- A matrix of exact values with 64 rows. -/
structure Mat where
  cols : Nat
  els : Array FV
def Mat.el (m : Mat) (i j : Nat) : FV := m.els.getD (i * m.cols + j) (.zero false)
def matOf (cols : Nat) (f : Nat → Nat → FV) : Mat :=
  ⟨cols, ((List.range (64 * cols)).map (fun k => f (k / cols) (k % cols))).toArray⟩

/-- An element of a tile as a value: FP32, or INT32 for an integer chain. -/
def telVal (int : Bool) (t : Array Word) (i j : Nat) : FV :=
  if int then FV.ofInt (sword (tel t i j).toNat) else fp32.decode (tel t i j).toNat

/-! ## Sums (03 R82, R83) -/

/-- Elements of a group of a format. -/
def groupLen (fmt : Nat) : Nat := if fmt = 3 then 32 else 16
/-- Inner dimension of an `MMA` slot. -/
def kOf (fmt : Nat) : Nat := if 3 ≤ fmt then 128 else 64

def groupSum (a b : Nat → FV) (lo n : Nat) : FV := (exactSum ((List.range n).map (fun k => fMul (a (lo + k)) (b (lo + k))))).1

/-- An accumulator element plus a group sum, each rounded once. -/
def accAdd (d : Word) (s : FV) : Word :=
  let r := fp32.decode (fp32.round 0 s).1
  BitVec.ofNat 32 (fp32.round 0 (fAdd 0 (fp32.decode d.toNat) r).1).1

def accFloat (n g : Nat) (a b : Nat → FV) (d : Word) : Word :=
  (List.range g).foldl (fun d i => accAdd d (groupSum a b (n * i) n)) d

def fvInt : FV → Int
  | .fin q => q.n / q.d
  | _ => 0

def accInt (k : Nat) (a b : Nat → FV) (d : Word) : Word × Bool :=
  wrap32 (sword d.toNat + ((List.range k).map (fun i => fvInt (a i) * fvInt (b i))).sum)

/-- D + A·B of a slot's format: `a` by row and inner index, `b` by column and inner index. The mark is an INT32 overflow. -/
def mmaTile (fmt : Nat) (a b : Mat) (d : Array Word) : Array Word × Bool :=
  tileOfMark (fun i j =>
    if fmt = 4 then accInt (kOf fmt) (a.el i) (b.el j) (tel d i j)
    else (accFloat (groupLen fmt) (kOf fmt / groupLen fmt) (a.el i) (b.el j) (tel d i j), false))

/-- A fed-back A operand: the columns of one tile, or of two for an inner dimension of 128. -/
def fedA (fmt : Nat) (t u : Array Word) : Mat :=
  matOf (kOf fmt) (fun i k => feedback fmt (if k < 64 then tel t i k else tel u i (k - 64)).toNat)
/-- A fed-back B operand, by column. -/
def fedB (fmt : Nat) (t u : Array Word) : Mat :=
  matOf (kOf fmt) (fun j k => feedback fmt (if k < 64 then tel t k j else tel u (k - 64) j).toNat)

/-! ## Operands in memory (11 R299) -/

def byteAtK (bs : Array Byte) (k : Nat) : Nat := (bs.getD k 0).toNat
def elAt (bs : Array Byte) (k n : Nat) : Nat := leNat ((List.range n).map (fun i => bs.getD (k + i) 0))

/-- 64 lines of 128 bytes at byte `o` of what was fetched, as element values; scale bytes from `so` on. -/
def memOperand (f : FSlot) (bs : Array Byte) (o so : Nat) : Mat :=
  let es := fmtBytes f.fmt
  let nb := kOf f.fmt / f.block
  matOf (kOf f.fmt) (fun i k => elemValue f (elAt bs (o + 128 * i + k * es) es) (sbyte (byteAtK bs (so + i * nb + k / f.block))))

/-- A loaded tile (R318): 64 rows of 64 elements, then the scale bytes. -/
def loadTile (f : FSlot) (bs : Array Byte) : Array Word :=
  let es := fmtBytes f.fmt
  let so := 64 * 64 * es
  let nb := 64 / f.block
  tileOf (fun i j =>
    let x := elAt bs ((64 * i + j) * es) es
    if f.fmt = 5 || (f.fmt = 0 && f.scale = 0) then BitVec.ofNat 32 x
    else if f.fmt = 4 then BitVec.ofInt 32 (sbyte x)
    else BitVec.ofNat 32 (fp32.round 0 (elemValue f x (sbyte (byteAtK bs (so + i * nb + j / f.block))))).1)

/-! ## Stored tiles (R319) -/

/-- The exact quotient of an element by its scale. -/
def unscaled (f : FSlot) (e : Int) (x : FV) : FV :=
  match f.scale with
  | 1 => scaleBy x (Q.pow10 (-e))
  | 2 => match fp32.decode f.factor with
    | .fin q => scaleBy x q.inv
    | _ => x
  | _ => x

/-- The NaN code of a format. -/
def fmtNan (fmt : Nat) : Nat := match fmt with | 1 => fp16.nanBits | 2 => bf16.nanBits | _ => 0x80

/-- The stored pattern of an element. -/
def storeElem (f : FSlot) (rm : RM) (inf : Bool) (e : Int) (x : Word) : Nat :=
  if f.fmt = 5 || (f.fmt = 0 && f.scale = 0) then x.toNat
  else if f.fmt = 4 then ((toInt (FV.ofInt (sword x.toNat)) (-128) 127 0).1 % 256).toNat
  else if f.scale = 1 && !scaleOk e then fmtNan f.fmt
  else
    let q := unscaled f e (fp32.decode x.toNat)
    match f.fmt with
    | 0 => (fp32.round rm q).1
    | 1 => (fp16.round rm q).1
    | 2 => (bf16.round rm q).1
    | _ => (roundDM8 q rm inf).1

/-- The block exponents that `.auto` chooses for row `i`. -/
def autoScales (f : FSlot) (t : Array Word) (i : Nat) : List Int :=
  (List.range (64 / f.block)).map (fun b =>
    selectScale ((List.range f.block).map (fun k => fp32.decode (tel t i (b * f.block + k)).toNat)) none f.block)

/-- Is a stored pattern non-finite, NaN, or the largest finite magnitude of its format (13 R351 NF)? -/
def atLimit (fmt x : Nat) : Bool :=
  let ieee (f : Fmt) : Bool := decide (f.infBits - 1 ≤ x % f.signBit)
  match fmt with
  | 0 => ieee fp32
  | 1 => ieee fp16
  | 2 => ieee bf16
  | 3 => x == 0x80 || decide (0x7E ≤ x % 128)
  | 4 => x == 0x80 || x == 0x7F
  | _ => x == 0x80000000 || x == 0x7FFFFFFF

/-! ## Transforms (R320) -/

/-- The R84 conversion of an element, placed as FP32 or as INT32. -/
def cvtElem (fmt : Nat) (x : Word) : Word :=
  match fmt with
  | 0 | 5 => x
  | 4 => BitVec.ofInt 32 (fvInt (feedback 4 x.toNat))
  | _ => BitVec.ofNat 32 (fp32.round 0 (feedback fmt x.toNat)).1

def addElem (x y : Word) : Word := BitVec.ofNat 32 (fp32.round 0 (fAdd 0 (fp32.decode x.toNat) (fp32.decode y.toNat)).1).1
def addElemI (x y : Word) : Word × Bool := wrap32 (sword x.toNat + sword y.toNat)
def sclElem (x f : Word) : Word := BitVec.ofNat 32 (fp32.round 0 (fMul (fp32.decode x.toNat) (fp32.decode f.toNat)).1).1

/-! ## Iteration steps (12 R329, R330) -/

/-- A product with the operands converted; `u` by row and inner index, `v` by column and inner index. -/
def iterProduct (fmt inner : Nat) (u v : Nat → Nat → FV) : Array Word :=
  tileOf (fun i j => accFloat (groupLen fmt) (inner / groupLen fmt) (u i) (v j) 0)

/-- A tile converted to a slot's format, once. -/
def fedTile (fmt : Nat) (t : Array Word) : Mat := matOf 64 (fun i j => feedback fmt (tel t i j).toNat)

/-- U·V of 64×64 tiles. -/
def prodUV (fmt : Nat) (u v : Array Word) : Array Word :=
  let a := fedTile fmt u
  let b := fedTile fmt v
  iterProduct fmt 64 a.el (fun j k => b.el k j)

/-- X·Xᵀ of one tile, or of the two of a wide X. -/
def prodXXt (fmt : Nat) (xs : List (Array Word)) : Array Word :=
  let ms := (xs.map (fedTile fmt)).toArray
  let el (i k : Nat) : FV := (ms.getD (k / 64) ⟨64, #[]⟩).el i (k % 64)
  iterProduct fmt (64 * xs.length) el el

/-- An element pass: one rounding of an exact value. -/
def passTile (f : Nat → Nat → FV) : Array Word := tileOf (fun i j => BitVec.ofNat 32 (fp32.round 0 (f i j)).1)
def delta (n : Int) (i j : Nat) : FV := FV.ofInt (if i = j then n else 0)
def telF (t : Array Word) (i j : Nat) : FV := fp32.decode (tel t i j).toNat
/-- c·x + d·y, exact. -/
def axpby (c : Word) (x : FV) (d : Word) (y : FV) : FV :=
  (fAdd 0 (fMul (fp32.decode c.toNat) x).1 (fMul (fp32.decode d.toNat) y).1).1

/-- The residual of a tile against the identity, in its fixed order. -/
def resid (t : Array Word) : Word :=
  let rnd (x : FV) : FV := fp32.decode (fp32.round 0 x).1
  let row (i : Nat) : FV := (List.range 64).foldl (fun s j =>
    let e := rnd (fAdd 0 (telF t i j) (delta 1 i j).neg).1
    rnd (fAdd 0 s (fMul e e).1).1) (.zero false)
  BitVec.ofNat 32 (fp32.round 0 ((List.range 64).foldl (fun r i => rnd (fAdd 0 r (row i)).1) (.zero false))).1

/-- Tiles of an iteration: those of X, and of the working group from `m`W on (Table 12.2). -/
structure IterTiles where
  x : List Nat
  w : Nat
  xp : List Nat
  res : Nat        -- the residual tile
  work : List Nat  -- the working tiles that the instruction writes
  deriving DecidableEq, Repr

def iterTiles (kind x w : Nat) (wide : Bool) : IterTiles :=
  let n := if wide then 2 else 1
  let xp := match kind with | 0 => w + 1 | 1 => w + 2 | 2 => w + 2 | _ => w + 3
  let xps := (List.range n).map (fun k => xp + k)
  { x := (List.range n).map (fun k => x + k)
    w := w
    xp := xps
    res := match kind with | 0 => w | 1 => w | 2 => w + 1 | _ => w + 2
    work := (match kind with | 0 => [w] | 1 => [w, w + 1] | 2 => [w + 1] | _ => [w + 1, w + 2]) ++ xps }

/-- A working store of tiles by number. -/
abbrev TileSet := List (Nat × Array Word)
def TileSet.at (s : TileSet) (m : Nat) : Array Word := ((s.find? (fun e => e.1 == m)).map Prod.snd).getD #[]
def TileSet.put (s : TileSet) (m : Nat) (t : Array Word) : TileSet := (m, t) :: s.filter (fun e => e.1 != m)

/-- The initial phase of a kind on the current X tiles. -/
def iterInit (kind fmt : Nat) (x : List Nat) (w : Nat) (s : TileSet) : TileSet :=
  let x0 := s.at (x.headD 0)
  match kind with
  | 0 | 1 => s.put w (prodXXt fmt (x.map s.at))
  | 2 => s.put (w + 1) (prodUV fmt (s.at w) x0)
  | _ =>
    let y := prodUV fmt (s.at w) x0
    (s.put (w + 1) y).put (w + 2) (prodUV fmt x0 y)

/-- One step of a kind, from the current X tiles into `xp`. -/
def iterStep (kind fmt : Nat) (c : List Word) (x xp : List Nat) (w : Nat) (s : TileSet) : TileSet :=
  let c0 := c.getD 0 0
  let c1 := c.getD 1 0
  let c2 := c.getD 2 0
  let one : Word := 0x3F800000
  let x0 := s.at (x.headD 0)
  let p0 := xp.headD 0
  match kind with
  | 0 =>
    let g := s.at w
    let s1 := (x.zip xp).foldl (fun s' (a, b) =>
      let p := prodUV fmt g (s.at a)
      s'.put b (passTile (fun i j => axpby c0 (telF (s.at a) i j) c1 (telF p i j)))) s
    s1.put w (prodXXt fmt (xp.map s1.at))
  | 1 =>
    let g := s.at w
    let gg := prodUV fmt g g
    let b := passTile (fun i j => axpby c1 (telF g i j) c2 (telF gg i j))
    let s1 := (x.zip xp).foldl (fun s' (a, q) =>
      let p := prodUV fmt b (s.at a)
      s'.put q (passTile (fun i j => axpby c0 (telF (s.at a) i j) one (telF p i j)))) (s.put (w + 1) b)
    s1.put w (prodXXt fmt (xp.map s1.at))
  | 2 =>
    let m := passTile (fun i j => (fAdd 0 (delta 2 i j) (telF (s.at (w + 1)) i j).neg).1)
    let xn := prodUV fmt x0 m
    (s.put p0 xn).put (w + 1) (prodUV fmt (s.at w) xn)
  | _ =>
    let m := passTile (fun i j => (fMul (fAdd 0 (delta 3 i j) (telF (s.at (w + 2)) i j).neg).1 (.fin ⟨1, 2⟩)).1)
    let y := prodUV fmt (s.at (w + 1)) m
    let xn := prodUV fmt m x0
    ((s.put p0 xn).put (w + 1) y).put (w + 2) (prodUV fmt xn y)

/-- Costs of Table 12.3. -/
def iterInitClk (kind fmt : Nat) (wide : Bool) : Nat := if kind = 3 then 608 else if wide && fmt != 3 then 608 else 336
def iterStepClk (kind fmt : Nat) (wide : Bool) : Nat :=
  match kind with
  | 0 => if wide then (if fmt = 3 then 1008 else 1280) else 672
  | 1 => if wide then (if fmt = 3 then 1344 else 1616) else 1008
  | 2 => 672
  | _ => 944

/-- `MPOLY`: the initial Y, and one Horner step (R333). -/
def polyInit (c : Word) : Array Word := tileOf (fun i j => if i = j then c else 0)
def polyStep (fmt : Nat) (c : Word) (y x : Array Word) : Array Word :=
  let p := prodUV fmt y x
  tileOf (fun i j => if i = j then addElem (tel p i i) c else tel p i j)

/-! ## The loop-state register (12 Table 12.1) -/

structure Loop where
  resid : Word
  count : Nat
  limit : Nat
  phase : Nat
  kind : Nat
  wide : Bool
  grow : Bool
  sel : Bool
  xt : Nat
  wt : Nat
  fslot : Nat
  widx : Nat
  deriving DecidableEq, Repr

def Loop.ofBits (b : BitVec 128) : Loop :=
  let n := b.toNat
  { resid := BitVec.ofNat 32 (bitsOf n 127 96), count := bitsOf n 95 84, limit := bitsOf n 83 72, phase := bitsOf n 63 61
    kind := bitsOf n 60 58, wide := bitAt n 57, grow := bitAt n 56, sel := bitAt n 55, xt := bitsOf n 54 52
    wt := bitsOf n 51 49, fslot := bitsOf n 48 46, widx := bitsOf n 45 41 }

def Loop.bits (l : Loop) : BitVec 128 :=
  BitVec.ofNat 128 (l.resid.toNat * 2 ^ 96 + l.count % 4096 * 2 ^ 84 + l.limit % 4096 * 2 ^ 72 + l.phase % 8 * 2 ^ 61 +
    l.kind % 8 * 2 ^ 58 + l.wide.toNat * 2 ^ 57 + l.grow.toNat * 2 ^ 56 + l.sel.toNat * 2 ^ 55 + l.xt % 8 * 2 ^ 52 +
    l.wt % 8 * 2 ^ 49 + l.fslot % 8 * 2 ^ 46 + l.widx % 32 * 2 ^ 41)

/-- What `MLSW` writes: reserved fields zero, a PHASE of 6 or 7 as 0, a KIND of 5 to 7 as PHASE 0 and KIND 0 (R328). -/
def loopWritten (b : BitVec 128) : BitVec 128 :=
  let l := Loop.ofBits b
  (if 5 ≤ l.kind then { l with phase := 0, kind := 0 } else if 6 ≤ l.phase then { l with phase := 0 } else l).bits

/-- Is a number NaN or an infinity? -/
def notFinite (x : Word) : Bool := match fp32.decode x.toNat with | .nan => true | .inf _ => true | _ => false
/-- r ≤ c, false for a NaN. -/
def leF (r c : Word) : Bool :=
  match fp32.decode r.toNat, fp32.decode c.toNat with
  | .nan, _ => false
  | _, .nan => false
  | x, y => !(y.lt x)
/-- The growth test: c14 finite and r > c14 · RESID, exactly. -/
def grew (r c14 old : Word) : Bool :=
  !notFinite c14 &&
  (match (fMul (fp32.decode c14.toNat) (fp32.decode old.toNat)).1, fp32.decode r.toNat with
   | .nan, _ => false
   | _, .nan => false
   | p, x => p.lt x)

/-! ## The witness lane (13 R352) -/

def FV.abs : FV → FV
  | .inf _ => .inf false
  | .zero _ => .zero false
  | .fin q => .fin q.abs
  | .nan => .nan
/-- A sign of a vector in {±1}⁶⁴. -/
def signAt (v : BitVec 64) (i : Nat) : FV := FV.ofInt (if v.getLsbD i then -1 else 1)
def sumF (n : Nat) (f : Nat → FV × Nat) : FV := (exactSum ((List.range n).map f)).1

/-- wᵀ·C·z and |w|ᵀ|C||z| of a 64×64 matrix of values. -/
def alphaOf (w z : BitVec 64) (c : Nat → Nat → FV) : FV :=
  sumF 64 (fun i => fMul (signAt w i) (sumF 64 (fun j => fMul (c i j) (signAt z j))))
def betaOf (c : Nat → Nat → FV) : FV := sumF 64 (fun i => (sumF 64 (fun j => ((c i j).abs, 0)), 0))

/-- wᵀA(Bz) and |w|ᵀ|A||B||z| of a product; `b` by column. -/
def alphaProd (w z : BitVec 64) (a b : Mat) : FV :=
  let bz := ((List.range a.cols).map (fun k => sumF 64 (fun j => fMul (b.el j k) (signAt z j)))).toArray
  sumF 64 (fun i => fMul (signAt w i) (sumF a.cols (fun k => fMul (a.el i k) (bz.getD k (.zero false)))))
def betaProd (a b : Mat) : FV :=
  let bz := ((List.range a.cols).map (fun k => sumF 64 (fun j => ((b.el j k).abs, 0)))).toArray
  sumF 64 (fun i => (sumF a.cols (fun k => fMul (a.el i k).abs (bz.getD k (.zero false))), 0))

def addExact (x y : FV) : FV := (exactSum [(x, 0), (y, 0)]).1

/-- A value rounded to binary64, in two words. -/
def fp64Words (mode : RM) (x : FV) : List Word :=
  let r := ((⟨11, 52⟩ : Fmt).round mode x).1
  [BitVec.ofNat 32 r, BitVec.ofNat 32 (r / 2 ^ 32)]

end Sys2Proof.Machine
end

