-- ==== Sys2Proof/Machine/Ops.lean ====
section
/-!
DEFINITION. Sys2Proof/Machine/Ops.lean: the operations on teams and threads that many steps share: ending teams and
launches, the matrix licence, pre-emption and migration, snapshots, and taking and leaving a trap.
-/

namespace Sys2Proof.Machine

open Sys2Proof

/-! ## Tiles and who owns them (11 R301-R303) -/

/-- The number of a register operand. -/
def regNum : Opnd → Nat
  | .v n => n.toNat
  | .s n => n.toNat
  | _ => 0

/-- A format slot of a launch. -/
def slotF (s : State) (lid n : Nat) : FSlot := FSlot.ofBits ((s.la lid).slotBits n)

/-- The descriptor of a tile. -/
def descOf (s : State) (core m : Nat) : TileDesc := (s.co core).tiles.get {} m
/-- The tiles an instruction names or implies. -/
def tilesNamed (s : State) (lid : Nat) : Instr → List Nat
  | .mma _ d _ _ _ _ _ => [d.toNat]
  | .mmaf _ kind d a b _ slot =>
    let two := decide (3 ≤ (slotF s lid slot.toNat).fmt)
    let src (o : Opnd) : List Nat := if two then [regNum o, regNum o + 1] else [regNum o]
    d.toNat :: ((if kind = 1 then [] else src a) ++ (if kind = 0 then [] else src b))
  | .mzero _ d _ => [d.toNat]
  | .mld _ d _ _ _ _ _ => [d.toNat]
  | .mst _ t _ _ _ _ _ _ => [t.toNat]
  | .mstAuto _ t _ _ _ _ _ _ => [t.toNat]
  | .mcvt _ d t _ => [d.toNat, t.toNat]
  | .mtrn _ d t => [d.toNat, t.toNat]
  | .madd _ d a b => [d.toNat, a.toNat, b.toNat]
  | .maddI _ d a b => [d.toNat, a.toNat, b.toNat]
  | .mscl _ d t _ => [d.toNat, t.toNat]
  | .mrow _ _ t _ => [t.toNat]
  | .mpoly _ d x _ _ => [d.toNat, x.toNat]
  | .miter _ kind x w _ _ _ wide _ => let t := iterTiles kind.toNat x.toNat w.toNat wide; t.x ++ (w.toNat :: t.work)
  | .mres _ kind _ x w _ wide =>
    let t := iterTiles kind.toNat x.toNat w.toNat wide
    t.x ++ (w.toNat :: (t.work.filter (fun m => decide (m ≤ t.res))))
  | _ => []

/-- Foreign tiles of an instruction for a context, as a mask (R303). -/
def foreignMask (s : State) (core tag : Nat) (ms : List Nat) : Nat :=
  ((List.range 8).filter (fun m => ms.contains m &&
    (((descOf s core m).owner != 0 && (descOf s core m).owner != tag) || (s.tm tag).spillMask.getLsbD m))).foldl (fun a m => a + 2 ^ m) 0

namespace State

/-! ## Ending teams and launches -/

/-- The frames of versions go into quarantine (09 R259, R260). -/
def quarantineOf (s : State) (p : Nat → Version → Bool) : State :=
  let out := s.stage.flatMap (fun e => (e.2.versions.filter (fun v => v.st != .failed && p e.1 v)).map (fun _ => (e.1, s.msys.stamp)))
  { s with msys := { s.msys with quarantine := s.msys.quarantine ++ out } }
/-- Versions leave their page, and their frames go into quarantine. -/
def dropVersions (s : State) (p : Nat → Version → Bool) : State :=
  let s1 := s.quarantineOf p
  { s1 with stage := s1.stage.map (fun e => (e.1, { e.2 with versions := e.2.versions.filter (fun v => !p e.1 v) })) }

/-- Free a wave's slot and register lines (04 R111). A formed group that has a thread of it dissolves: groups are never
split (R89, log 57). -/
def freeWave (s : State) (wid : Nat) : State :=
  let w := s.wv wid
  if w.resident then
    (s.modCore w.core (fun c => { c with
        slots := c.slots.erase w.slot, free := c.free + w.regs
        groups := c.groups.filter (fun g => g.members.all (fun t => widOf t ≠ wid)) })).modWave wid
      (fun w => { w with resident := false, lic := .none })
  else s

/-- Clear the tiles a context owns (11 R302). -/
def clearTiles (s : State) (core tag : Nat) : State :=
  let own := (s.co core).tiles.filter (fun e => e.2.owner = tag)
  let s1 := s.modCore core (fun c => { c with tiles := c.tiles.filter (fun e => e.2.owner ≠ tag) })
  { s1 with tiles := s1.tiles.filter (fun e =>
      !own.any (fun o => e.1 / 4096 == core * 8 + o.1)) }

/-- The wave and the team context a pending write is aimed at. -/
def tgtWid : Tgt → Nat
  | .v tid _ => widOf tid
  | .s wid _ => wid
  | .p tid _ => widOf tid
  | .sr tid _ => widOf tid
  | .u wid _ => wid
def tgtTag (g : Tgt) : Nat := tagW (tgtWid g)
/-- A twin-window write: it is aimed at a register of another wave (09 R248). -/
def isForeign (w : PWrite) : Bool := tgtWid w.tgt != w.wid

/-! ## Foreign tiles (11 R303) -/

/-- The elements of a tile that are not +0, and setting them. -/
def tileWords (s : State) (core m : Nat) : AMap Word :=
  (s.tiles.filter (fun e => e.1 / 4096 == core * 8 + m)).map (fun e => (e.1 % 4096, e.2))

def setTileWords (s : State) (core m : Nat) (ws : AMap Word) : State :=
  let rest := s.tiles.filter (fun e => e.1 / 4096 != core * 8 + m)
  { s with tiles := ws.foldl (fun t e => AMap.set 0 t ((core * 8 + m) * 4096 + e.1) e.2) rest }

/-- Spill an owned tile to its owner's context image (step 1). -/
def spillTile (s : State) (core m : Nat) : State :=
  let d := (s.co core).tiles.get {} m
  if d.owner = 0 then s
  else
    let s1 := s.modTeam d.owner (fun t => { t with
      spillMask := t.spillMask ||| BitVec.ofNat 8 (2 ^ m)
      spilled := AMap.insert t.spilled m (d, s.tileWords core m) })
    (s1.setTileWords core m []).modCore core (fun c => { c with tiles := c.tiles.erase m })

/-- Refill a tile for a context from its image, or clear it, and make the context its owner (11 R303 step 2). -/
def refillTile (s : State) (core tag m : Nat) : State :=
  match (s.tm tag).spilled.find? m with
  | some (d, ws) =>
    ((s.setTileWords core m ws).modCore core (fun c => { c with
      tiles := AMap.set {} c.tiles m { d with owner := tag } })).modTeam tag (fun t => { t with
        spillMask := t.spillMask &&& ~~~ BitVec.ofNat 8 (2 ^ m), spilled := t.spilled.erase m })
  | none =>
    (s.setTileWords core m []).modCore core (fun c => { c with
      tiles := AMap.set {} c.tiles m { owner := tag } })

/-- Tiles of a mask are foreign to a context: spill each to its owner and refill it for the context (11 R303). -/
def resolveForeign (s : State) (core tag : Nat) (mask : Nat) : State :=
  (List.range 8).foldl (fun s m => if bitAt mask m then (s.spillTile core m).refillTile core tag m else s) s

/-! ## The matrix licence (11 R306-R309) -/

/-- Waves of a core in a licence state, in the order of their latest requests. -/
def licWaves (s : State) (core : Nat) (x : Lic) : List Nat :=
  sortBy (fun w => (s.wv w).licReq) ((s.waves.filter (fun e => e.2.core == core && e.2.resident && e.2.lic == x)).map Prod.fst)
/-- The core of a side of a pair. -/
def sideCore (p : Nat) (upper : Bool) : Nat := if upper then twinOf p else p
def sideWaits (s : State) (p : Nat) (upper : Bool) : Bool := !(s.licWaves (sideCore p upper) .wait).isEmpty

/-- The side the arbiter takes when it must choose: the cooler by the latest sample, the lower core when they are equal or
before the first sample; a steered pair takes the side steered to (17 R456). -/
def chosenSide (s : State) (p : Nat) : Bool :=
  match (s.tp p).steered with
  | some u => u
  | none => (s.tp p).sampled && decide ((s.tp p).upperT < (s.tp p).lowerT)

/-- The units of a cluster that run fillers. -/
def fillerUnits (s : State) (k : Nat) : Nat := (s.pairs.filter (fun e => e.2.fillers.any (fun c => clusterOf c == k))).length

/-- The fillers of a pair stop: a matrix instruction enters its unit's queue, a WAKE begins, or the hold ends (R310). -/
def stopFillers (s : State) (p : Nat) : State :=
  match (s.tp p).fillers with
  | none => s
  | some c =>
    let s1 := s.modPair p (fun x => { x with fillers := none })
    s1.powerLog 0x0C (clusterOf c) noPoint noPoint 0 0 0 (s1.fillerUnits (clusterOf c))

def startWake (s : State) (p : Nat) (upper : Bool) : State :=
  (s.stopFillers p).modPair p (fun x => { x with arb := .wake upper (s.clkOf (sideCore p upper)), fromFree := false })

/-- A request of a side wakes a `FREE` pair, or makes the arbiter choose again in the clk in which the other side has (R307). -/
def wakeFree (s : State) (p : Nat) (upper : Bool) : State := (s.startWake p upper).modPair p (fun x => { x with fromFree := true })

/-- Did the other side wake this pair from `FREE` in this clk? Then both requests are made of the `FREE` pair. -/
def wokeNow (s : State) (core : Nat) : Bool :=
  match (s.tp (pairOf core)).arb with
  | .wake x t => (s.tp (pairOf core)).fromFree && x != isUpper core && t == s.clkOf core
  | _ => false

/-- The wave of a core in HOLD whose saved entries re-enter next: the one with the oldest. -/
def nextSaved (s : State) (core : Nat) : Option Nat :=
  (sortBy (fun w => ((s.wv w).saved.head?.map MxEntry.id).getD 0)
    ((s.licWaves core .hold).filter (fun w => !(s.wv w).saved.isEmpty))).head?

/-- Saved entries of the waves of a core in HOLD re-enter its unit's queue in their old order while it has room (R309). Their
context reclaims the tiles that others have taken since (R303, log 70). -/
def reenter : Nat → State → Nat → State
  | 0, s, _ => s
  | n + 1, s, core =>
    if 4 ≤ (s.co core).mx.length then s
    else match s.nextSaved core with
      | none => s
      | some w => match (s.wv w).saved with
        | [] => s
        | e :: rest =>
          let s1 := (s.modWave w (fun x => { x with saved := rest })).stopFillers (pairOf core)
          let s2 := s1.resolveForeign core (tagW w) (foreignMask s1 core (tagW w) (tilesNamed s1 (s1.lidOf e.tid) e.op))
          reenter n (s2.modCore core (fun c => { c with mx := c.mx ++ [e] })) core

/-- A wave enters HOLD: its parked threads go on, and an `MLIC.try` writes 1. -/
def licHold (s : State) (wid : Nat) : State :=
  let s1 := (s.modWave wid (fun x => { x with lic := .hold, licPd := none })).modThreads (tidsOf wid) (fun _ t =>
    if t.park = .licence then { t with park := .none } else t)
  match (s.wv wid).licPd with
  | some (p, ts) => ts.foldl (fun s t => s.setPred t (BitVec.ofNat 4 p) true) s1
  | none => s1

/-- A wave is granted the licence: HOLD, and its saved entries re-enter the queue. -/
def licGrant (s : State) (wid : Nat) : State := (s.licHold wid).reenter 4 (s.wv wid).core

/-- The last HOLD wave of a core has left HOLD: the pair drains. -/
def settleHold (s : State) (core : Nat) (give : Bool) : State :=
  match (s.tp (pairOf core)).arb with
  | .held x =>
    if x == isUpper core && (s.licWaves core .hold).isEmpty then
      (s.stopFillers (pairOf core)).modPair (pairOf core) (fun y => { y with arb := .drain x, byGive := give })
    else s
  | _ => s

/-- Take entries out of a unit's queue with their pins and pin requests (R308). -/
def dropEntries (s : State) (core : Nat) (p : MxEntry → Bool) : State :=
  let ids := ((s.co core).mx.filter p).map MxEntry.id
  let s1 := s.modCore core (fun c => { c with mx := c.mx.filter (fun e => !p e) })
  { s1 with msys := { s1.msys with pinq := s1.msys.pinq.filter (fun q => !(q.2.1 == core && ids.contains q.2.2)) } }

/-- Revocation of a wave's licence (R308): an entry whose array phase has not started is saved without its operands, and an
iteration that runs stops after its step (12 R334). -/
def revoke (s : State) (wid : Nat) : State :=
  let w := s.wv wid
  let mine (e : MxEntry) : Bool := e.wid == wid && e.started.isNone
  let out := ((s.co w.core).mx.filter mine).map (fun e => { e with mem := none, pins := [] })
  let s1 := (s.dropEntries w.core mine).modCore w.core (fun c => { c with
    mx := c.mx.map (fun e => if e.wid = wid then { e with stop := true } else e) })
  (s1.modWave wid (fun x => { x with
    lic := if x.lic = .hold || x.lic = .wait then .saved else x.lic, saved := out ++ x.saved })).settleHold w.core false

/-- A wave's request is queued: it waits, behind the requests before it. -/
def licQueue (s : State) (wid : Nat) : State :=
  let p := pairOf (s.wv wid).core
  (s.modPair p (fun x => { x with reqs := x.reqs + 1 })).modWave wid (fun x => { x with lic := .wait, licReq := (s.tp p).reqs })

/-- Steering takes the licence from a core (R308, 17 R456): the HOLD and the WAIT waves of each context that holds it there are
revoked. The contexts run on, so their waves request again before their next instruction (R309). -/
def revokeSide (s : State) (core : Nat) : State :=
  let tags := ((s.licWaves core .hold).map tagW).dedup
  let ws := (s.licWaves core .hold ++ s.licWaves core .wait).filter (fun w => tags.contains (tagW w))
  ws.foldl licQueue (ws.foldl revoke s)

/-- A wave requests the licence (Table 11.4). Of two sides that ask a FREE pair in one clk the chosen one wakes. A request
of the side that a pair is steered to takes a hold from the hotter side (17 R456). -/
def licRequest (s : State) (wid : Nat) : State :=
  let core := (s.wv wid).core
  let p := pairOf core
  let up := isUpper core
  let s1 := s.licQueue wid
  match (s.tp p).arb with
  | .free => s1.wakeFree p up
  | .wake _ _ => if s.wokeNow core then s1.wakeFree p (s.chosenSide p) else s1
  | .held x =>
    if x == up then (if s.sideWaits p (!up) then s1 else s1.licGrant wid)
    else if (s.tp p).steered == some up then s1.revokeSide (sideCore p x)
    else s1
  | .drain _ => s1

/-- A wave leaves HOLD of its own accord (R308). -/
def licEnd (s : State) (wid : Nat) (give : Bool) : State :=
  (s.modWave wid (fun x => { x with lic := .none, licPd := none })).settleHold (s.wv wid).core give

/-- Remove a team from its core: waves, lines, tiles and pending work (04 R111, 15 R409). -/
def dropTeam (s : State) (tag : Nat) : State :=
  let t := s.tm tag
  let wids := (List.range 32).map (fun k => tag * 32 + k)
  let s1 := wids.foldl freeWave s
  let s2 := ((s1.clearTiles t.core tag).modCore t.core (fun c => { c with
    free := if t.running then c.free + t.lines else c.free
    claims := c.claims.filter (fun q => tagW q.wid ≠ tag)
    mx := c.mx.filter (fun e => tagW e.wid ≠ tag) })).settleHold t.core false
  let s3 := (s2.modTeam tag (fun t => { t with
    running := false, fin := true, spillMask := 0, spilled := [], heldStores := [], snapNew := none, snapOld := none
    start := none, moveTo := none, stopAt := none, ring := false, image := none })).leavePool (t.core / 128)
  { s3 with
    threads := s3.threads.filter (fun e => tagOf e.1 ≠ tag)
    scratch := s3.scratch.filter (fun e => e.1 / 2 ^ 20 ≠ tag)
    pend := s3.pend.filter (fun w => tgtTag w.tgt ≠ tag)
    vres := s3.vres.filter (fun r => r.writes.all (fun w => tgtTag w.1 ≠ tag))
    held := s3.held.filter (fun a => tagOf a.tid ≠ tag)
    waves := s3.waves.map (fun e => if tagW e.1 = tag then (e.1, { e.2 with saved := [] }) else e)
    msys := { s3.msys with
      pinq := s3.msys.pinq.filter (fun q =>
        !(q.2.1 == t.core && (s.co t.core).mx.any (fun e => e.id == q.2.2 && tagW e.wid == tag)))
      tags := s3.msys.tags.filter (fun g => tagOf g.acc.tid ≠ tag)
      claims := s3.msys.claims.filter (fun j => tagOf j.tid ≠ tag) } }

/-- The tags of a launch's live teams. -/
def teamsOf (s : State) (lid : Nat) : List Nat :=
  (s.teams.filter (fun e => e.2.lid == lid && !e.2.fin)).map Prod.fst

/-- Release a launch's route tags to the pool (10 R279). -/
def freeRoute (s : State) (lid : Nat) : State :=
  if (s.la lid).tagsGiven then
    let n := ((List.range 8).filter (fun t => (s.la lid).tagCount t ≠ 0)).length
    { (s.modLaunch lid (fun l => { l with tagsGiven := false, rtags := [] })) with
      front := { s.front with routeFree := s.front.routeFree + n } }
  else s

/-- Commands of a launch that wait in a list of the front die or at a group record wait no more. -/
def dropWaiting (s : State) (lid : Nat) : State :=
  let gone (c : Cmd) : Bool := c.waiting && (s.tm (tagW c.wid)).lid == lid
  let out : List (Nat × Nat) := s.cores.flatMap (fun e => (e.2.cmds.filter gone).map (fun c => (e.1, c.id)))
  { s with
    cores := s.cores.map (fun e => (e.1, { e.2 with cmds := e.2.cmds.filter (fun c => !gone c) }))
    msys := { s.msys with episodes := (s.msys.episodes.map (fun p => { p with
      members := p.members.filter (fun m => !out.contains (m.core, m.cmd))
      later := p.later.filter (fun m => !out.contains (m.1, m.2.1)) })).filter (fun p => !p.members.isEmpty) } }

/-- Discard the teams of a launch: its WRITING versions are freed through quarantine (13 R343), its tags released, its queue entries lost. -/
def discardTeams (s : State) (lid : Nat) : State :=
  let s1 := (s.teamsOf lid).foldl dropTeam s
  let s2 := (s1.dropWaiting lid).dropVersions (fun _ v => v.lid == lid && v.st == .writing)
  (s2.freeRoute lid).modLaunch lid (fun l => { l with sqs := [], argsDone := l.argsDone })

/-- End a launch with a fault to its tenant; frames of revoked regions that it alone kept are freed (16 R430). -/
def stopLaunch (s : State) (lid : Nat) : State :=
  freeRevoked ((s.discardTeams lid).modLaunch lid (fun l => { l with st := .aborted, stopDue := false }))

/-- Abort a launch with an event of kind 0x03 and a cause of Table 15.11. The fault record receives the fault too (15 R422). -/
def abortLaunch (s : State) (lid cause : Nat) (payload : List Word) : State :=
  let l := s.la lid
  let s1 := (s.faultRecord uNone kLaunchFault [lid, cause]).stopLaunch lid
  s1.raiseEvent (s1.eventWords l.cmdTag l.tenant cause 3 l.queue lid false payload)

/-- The low and the high word of a 52-bit address (10 R265). -/
def addrLo (a : Nat) : Word := BitVec.ofNat 32 a
def addrHi (a : Nat) : Word := BitVec.ofNat 32 (a / 2 ^ 32)


/-- The version numbers of a staging page are exhausted (13 R342): the launch is aborted with the page's address. -/
def exhaust (s : State) (lid page : Nat) : State :=
  s.abortLaunch lid 0xC0 [addrLo (s.pageVa lid page), addrHi (s.pageVa lid page)]

/-! ## The issuing group -/

/-- The threads of the issuing group, its core's clk, and its launch. -/
def grp (s : State) : List Nat := s.focus.members
def now (s : State) : Nat := (s.co s.focus.core).clk
def lidF (s : State) : Nat := s.lidOf (s.grp.headD 0)
def launchF (s : State) : Launch := s.la s.lidF

/-- The waves of the issuing group, in increasing slot order (10 R262). -/
def wavesF (s : State) : List Nat :=
  sortBy (fun w => (s.wv w).slot) (s.grp.map widOf).dedup

/-- A thread executes when it is live and its guard is true (02 R46). -/
def execs (s : State) (h : Hdr) (tid : Nat) : Bool := (s.th tid).live && (s.pred tid h.guard ^^ h.gneg)
/-- The executing threads of the issuing group, in rising lane order. -/
def xs (s : State) (h : Hdr) : List Nat := s.grp.filter (s.execs h)
/-- The executing threads of one wave of the issuing group. -/
def xsW (s : State) (h : Hdr) (wid : Nat) : List Nat := (s.xs h).filter (fun t => widOf t == wid)
/-- The waves of the group that have an executing lane, in increasing slot order. -/
def wavesX (s : State) (h : Hdr) : List Nat := s.wavesF.filter (fun w => !(s.xsW h w).isEmpty)

/-- A set of lanes as a mask. -/
def laneMask (tids : List Nat) : Word := BitVec.ofNat 32 ((tids.map laneOf).dedup.map (fun l => 2 ^ l)).sum

/-- The issuing group leaves the formed groups of its core. -/
def leave (s : State) : State :=
  s.modCore s.focus.core (fun c => { c with
    groups := c.groups.filter (fun g => !(g.pc == s.focus.pc && g.members == s.focus.members)) })

/-- The issuing group stays formed and is not ready at this clk (04 R90, R91): nothing else happens. -/
def holdGroup (s : State) : State :=
  (s.modThreads s.grp (fun _ t => { t with readyAt := max t.readyAt (s.now + 1) })).modCore s.focus.core (fun c => { c with
    groups := c.groups.map (fun g => if g.pc == s.focus.pc && g.members == s.focus.members then { g with since := s.now + 1 } else g) })

/-! ## Taking a trap (14 R377-R382) and returning from one (14 R386, 04 R104) -/

/-- User traps run the launch's handler; every other code is a system trap (14 Table 14.1). -/
def isUserTrap (code : Nat) : Bool :=
  code ∈ [0x05, 0x06, 0x0A, 0x0B, 0x11, 0x12, 0x14, 0x1B, 0x20, 0x21, 0x22]

/-- The trap registers a thread receives (14 Table 14.2). `async` is the held fault of an asynchronous fault. -/
def trapRegs (s : State) (tid : Nat) (ti : TrapInfo) (pc npc : Nat) (async : Option HeldFault) : TrapRegs :=
  let t := s.th tid
  let rv := match async with | some _ => true | none => t.rvalid
  { cause := BitVec.ofNat 32 ((async.isSome.toNat * 2 + rv.toNat) * 2 ^ 16 + ti.sub % 256 * 2 ^ 8 + ti.code)
    pc := match async with | some f => f.pc | none => pc
    npc := npc
    ad := ti.ad
    mask := ti.mask
    info := ti.info
    rpc := match async with | some f => f.rpc | none => t.rpc
    rcnt := match async with | some f => f.rcount | none => t.rcount
    rdep := match async with | some f => f.rdepth | none => t.rdepth
    wds := if isUserTrap ti.code then ti.words.length else 0
    inTrap := t.trap.inTrap
    scr := t.trap.scr }

/-- The payload of a trap event (15 Table 15.12). -/
def trapPayload (team tid : Nat) (r : TrapRegs) : List Word :=
  [BitVec.ofNat 32 (widxW (widOf tid) * 2 ^ 23 + laneOf tid * 2 ^ 18 + r.cause.toNat % 2 ^ 18),
   addrLo r.pc, addrHi r.pc, BitVec.ofNat 32 r.ad.toNat, BitVec.ofNat 32 (r.ad.toNat / 2 ^ 32), r.mask, r.info,
   addrLo r.rpc, addrHi r.rpc, r.rcnt, BitVec.ofNat 32 r.rdep, BitVec.ofNat 32 team]

/-- Firmware receives the trap registers and the record of a system trap (14 R380, log 51). -/
def firmwareGets (s : State) (tid : Nat) (ti : TrapInfo) (r : TrapRegs) : State :=
  if isUserTrap ti.code then s
  else { s with front := { s.front with traps := s.front.traps ++ [⟨s.lidOf tid, tid, r, ti.words⟩] } }

/-- The thread that a trap's event describes: of those in TMASK, or of all while it is 0, the one in the lowest lane (15 R468). -/
def trapLead (tids : List Nat) (mask : Word) : Nat :=
  match tids.find? (fun t => bitAt mask.toNat (laneOf t)) with
  | some t => t
  | none => tids.headD 0

/-- The record of an abort: the trap's event, with firmware's copy of the trap and the entry of the fault record (15 R422). -/
def reportAbort (s : State) (tid : Nat) (ti : TrapInfo) (r : TrapRegs) : State :=
  (s.firmwareGets tid ti r).faultRecord uNone kLaunchFault [s.lidOf tid, ti.code]

/-- Firmware ends the launch of a thread with a trap event (14 R377, 15 R468). While the event ring is full the die holds the
event: the context of the thread stalls at its instruction, and the launch ends when the event is posted. With the die's buffer
full too, or the fault record (16 R438), the context stalls before its fault is recorded (15 R422). -/
def abortTrap (s : State) (tids : List Nat) (tid : Nat) (ti : TrapInfo) (r : TrapRegs) (async : Option HeldFault) : State :=
  let lid := s.lidOf tid
  let l := s.la lid
  let die := dieOf (s.coreOf tid)
  let ev := s.eventWords l.cmdTag l.tenant ti.code 3 l.queue lid false (trapPayload (s.tm (tagOf tid)).index tid r)
  if decide (16 ≤ (s.di die).events.length) || s.recordFull then
    (s.modThreads tids (fun _ t => { t with park := .ring, pendTrap := some ti, pendAsync := async })).modTeam (tagOf tid) (fun t => { t with
      ring := true })
  else if s.eventRoom then ((s.reportAbort tid ti r).stopLaunch lid).raiseDieEvent die ev
  else (((s.reportAbort tid ti r).modTeam (tagOf tid) (fun t => { t with ring := true })).modLaunch lid (fun l => { l with
      stopDue := true })).raiseDieEvent die ev

/-- The launches whose trap event has been posted meanwhile end now. -/
def stopPosted (s : State) : State :=
  ((s.launches.filter (fun l => l.2.stopDue &&
    s.dies.all (fun d => d.2.events.all (fun e => (e.2.getD 2 0).toNat != l.1)))).map Prod.fst).foldl stopLaunch s

/-- Contexts stalled for a fault that is not yet recorded try again, where there is room for it now. -/
def wakeRing (s : State) : State :=
  let ok (tid : Nat) : Bool := decide ((s.di (dieOf (s.coreOf tid))).events.length < 16) && !s.recordFull
  let ts := (s.threads.filter (fun e => e.2.park == .ring && ok e.1)).map Prod.fst
  (ts.map tagOf).dedup.foldl (fun s g => s.modTeam g (fun t => { t with ring := false }))
    (s.modThreads ts (fun _ t => { t with park := .none }))

/-- HEAD has freed slots of the event ring, or the ring has been set: held events are posted, and what stalled for them goes on. -/
def settleRing (s : State) : State := (flushEvents (s.heldEvents + 1) s).stopPosted.wakeRing

/-- Where the record words go: one place for each word of the trap record area (14 R382), or the fault's cause. -/
def recordPlaces (s : State) (tid n : Nat) : Except Nat (List Place) :=
  (List.range n).foldr (fun k acc => match s.placeFor tid 4 (4 * k) .write, acc with
    | .ok p, .ok ps => .ok (p :: ps)
    | .error c, _ => .error c
    | _, .error c => .error c) (.ok [])

/-- Open the versions that stores to these places need; the first obstacle stops it. -/
def openAll (s : State) (lid : Nat) : List Place → Stg
  | [] => .ok s
  | p :: r =>
    match p.loc with
    | .stg page _ => match s.openVersion lid page with
      | .ok s1 => openAll s1 lid r
      | x => x
    | _ => openAll s lid r

/-- A free slot of a core. -/
def freeSlot (s : State) (core : Nat) : Option Nat :=
  (List.range 32).find? (fun k => ((s.co core).slots.find? k).isNone)

/-- An incoming wave's lines evict those that pre-empted contexts of the core left (08 R191); a context that comes from
another core finds none of its own there. -/
def evictFor (s : State) (core wid : Nat) : State :=
  { s with waves := s.waves.map (fun e =>
      if (e.1 == wid && e.2.core != core) || (e.1 != wid && !e.2.resident && !e.2.ended && e.2.core == core) then
        (e.1, { e.2 with evicted := List.range e.2.regs })
      else e) }

/-- Give a wave a slot of a core. The wave that arrives is the youngest there (04 R88). -/
def seatWave (s : State) (core wid : Nat) : State :=
  match s.freeSlot core with
  | none => s
  | some k =>
    let age := (s.co core).nextAge
    ((s.evictFor core wid).modCore core (fun c => { c with
      slots := c.slots.insert k wid, nextAge := age + 1, free := c.free - (s.wv wid).regs }.trimL1)).modWave wid
      (fun w => { w with core := core, slot := k, age := age, resident := true })

/-- The threads and the waves of a team context. -/
def teamTids (s : State) (tag : Nat) : List Nat := (s.threads.filter (fun e => tagOf e.1 == tag)).map Prod.fst
def teamWids (s : State) (tag : Nat) : List Nat := (s.waves.filter (fun e => tagW e.1 == tag)).map Prod.fst

/-- Write a special register of a thread: RSSLO, RSSHI, RSPTRH, TNPCLO, TNPCHI, TSCR (14 R389, 04 Table 4.3, R100). -/
def setSpecial (s : State) (tid n : Nat) (w : Word) : State :=
  let x := w.toNat
  s.modThread tid (fun t =>
    match n with
    | 0x10 => { t with spilled := min (x / 2 ^ 8) (2 ^ 24 - 9) }
    | 0x11 => { t with rsptr := t.rsptr / 2 ^ 32 * 2 ^ 32 + x / 8 * 8 }
    | 0x12 => { t with rsptr := x % 2 ^ 20 * 2 ^ 32 + t.rsptr % 2 ^ 32 }
    | 0x23 => if t.trap.inTrap then { t with trap := { t.trap with npc := t.trap.npc / 2 ^ 32 * 2 ^ 32 + x } } else t
    | 0x24 => if t.trap.inTrap then { t with trap := { t.trap with npc := x % 2 ^ 20 * 2 ^ 32 + t.trap.npc % 2 ^ 32 } } else t
    | 0x2F => { t with trap := { t.trap with scr := w } }
    | _ => t)

/-- Commit one fixed-latency result. -/
def applyWrite (s : State) (w : PWrite) : State :=
  match w.tgt with
  | .v tid n => s.setVreg tid n w.val
  | .s wid n => s.setSreg wid n w.val
  | .p tid n => s.setPred tid (BitVec.ofNat 4 n) (w.val != 0)
  | .sr tid n => s.setSpecial tid n w.val
  | .u wid n => s.modWave wid (fun x => { x with ufbuf := x.ufbuf.set n (w.val.setWidth 8) })
/-- The mappings of a core's twin windows that are due at a clk come into force (11 R311). -/
def mapTwins (s : State) (p : Nat → Wave → Nat → Bool) : State :=
  { s with waves := s.waves.map (fun e => match e.2.twinNext with
      | some (t, m) => if p e.1 e.2 t then (e.1, { e.2 with twin := some m, twinNext := none }) else e
      | none => e) }

/-- An entry of a block-underflow buffer. -/
def isCount : Tgt → Bool | .u _ _ => true | _ => false

/-- Commit the fixed-latency results that `p` selects, in order of their clk. Of two that reach one register in one clk the
owner's stands over its twin's (09 R248, log 60), and else the later issued (02 R49). An underflow count stands over those of
conversions before its own (03 R79). -/
def commitWrites (s : State) (p : PWrite → Bool) : State :=
  let due := s.pend.filter p
  let beaten (w : PWrite) : Bool := isForeign w && due.any (fun o => !isForeign o && o.tgt == w.tgt && o.due == w.due)
  let passed (w : PWrite) : Bool := isCount w.tgt && due.any (fun o => o.tgt == w.tgt && decide (w.issue < o.issue))
  let s1 := (sortBy (fun w => 2 * w.due + (!isForeign w).toNat) (due.filter (fun w => !passed w))).foldl applyWrite s
  { s1 with pend := s1.pend.filter (fun w => !p w && !beaten w && !passed w) }

/-- Commit every fixed-latency result of a team, those it issued to its twins included (02 R50, 09 R248). -/
def commitTeam (s : State) (tag : Nat) : State :=
  (s.commitWrites (fun w => tgtTag w.tgt == tag || tagW w.wid == tag)).mapTwins (fun w _ _ => tagW w == tag)

/-- What a wave's convergence timer shows at a clk of its core (04 R96). -/
def timerAt (w : Wave) (clk : Nat) : Nat := w.timer + (match w.timerOn with | some c => clk - c | none => 0)

/-- Twin-window writes of variable latency whose values have come are complete before a team of their core stops (09 R248): they
reach the twin's registers. -/
def commitTwins (s : State) (core : Nat) : State :=
  let goes (r : VRes) : Bool := r.core == core && r.ready && r.writes.any (fun w => (s.wv (tgtWid w.1)).core != core)
  let s1 := (s.vres.filter goes).foldl (fun s r => r.writes.foldl (fun s w =>
    s.applyWrite { core := core, due := 0, tgt := w.1, val := w.2 }) s) s
  { s1 with vres := s1.vres.filter (fun r => !goes r) }

/-- The convergence timers of a team's waves stop; each resumes with its wave (04 R96, 14 R392). -/
def stopTimers (s : State) (tag : Nat) : State :=
  let clk := s.clkOf (s.tm tag).core
  { s with waves := s.waves.map (fun e => if tagW e.1 = tag && e.2.resident then
      (e.1, { e.2 with timer := timerAt e.2 clk, timerOn := none }) else e) }
/-- They resume at a clk where they had started. -/
def startStopped (s : State) (tag clk : Nat) : State :=
  { s with waves := s.waves.map (fun e => if tagW e.1 = tag && e.2.resident && e.2.timerRun then
      (e.1, { e.2 with timerOn := some clk }) else e) }

/-- Every wave of a running team stops at its instruction boundary, for a snapshot (14 R392 step 1). -/
def stopTeam (s : State) (tag : Nat) : State :=
  if !(s.tm tag).running || (s.tm tag).stopAt.isSome then s
  else (s.stopTimers tag).modTeam tag (fun t => { t with stopAt := some (s.clkOf t.core) })

/-- The waves of a stopped team continue (step 6): the clk it stood still count for no `MWAIT` limit. -/
def contTeam (s : State) (tag : Nat) : State :=
  match (s.tm tag).stopAt with
  | none => s
  | some c =>
    let s1 := s.modTeam tag (fun t => { t with stopAt := none })
    if !(s.tm tag).running then s1
    else
      let clk := s.clkOf (s.tm tag).core
      { (s1.startStopped tag clk) with threads := s1.threads.map (fun e => if tagOf e.1 = tag then
          (e.1, { e.2 with park := match e.2.park with | .mwait l pd n => .mwait (l + (clk - c)) pd n | p => p }) else e) }

/-- Pre-emption of a team context (14 Table 14.5): its results commit, its licences and array entries are saved,
`MWAIT` threads resume as woken, and it leaves its core's slots. Its image, in the vault under its core, is valid then (R398);
registers stay in it. -/
def preempt (s : State) (tag : Nat) : State :=
  let t := s.tm tag
  if !t.running then s
  else
    let core := t.core
    let s1 := ((s.commitTeam tag).commitTwins core).stopTimers tag
    let wids := (s1.teamWids tag).filter (fun w => (s1.wv w).resident)
    -- step 3: revocation (11 R308)
    let s3 := wids.foldl revoke s1
    -- step 4: parked MWAIT threads resume as woken; every monitor of the team is hit (04 R116 case 2)
    let tids := s3.teamTids tag
    let s4 := (s3.hitAll (fun t => tagOf t == tag)).modThreads tids (fun _ t => { t with readyAt := 0 })
    -- the claims stay queued under the tag (08 R217), and the slots and lines are given up
    let s5 := wids.foldl (fun s w =>
      let x := s.wv w
      (s.modCore core (fun c => { c with
        slots := c.slots.erase x.slot, free := c.free + x.regs
        groups := c.groups.filter (fun g => g.members.all (fun t => widOf t ≠ w)) })).modWave w
        (fun x => { x with resident := false })) s4
    (s5.modCore core (fun c => { c with free := c.free + t.lines })).modTeam tag (fun t => { t with
      running := false, image := some (stackOf core) })

/-- Does a core hold a running team, other than `tag`, of a launch with array instructions (15 R418)? -/
def holdsMtx (s : State) (core tag : Nat) : Bool :=
  s.teams.any (fun e => e.1 != tag && e.2.running && e.2.core == core && (s.la e.2.lid).mtx)

/-- Does a team of so many waves, register lines and other lines fit on a core now (15 R418, 08 R189, 17 R442)? Claims that
its own waves left there do not count. -/
def fitsOn (s : State) (lid tag core waves regs lines : Nat) : Bool :=
  let c := s.co core
  let d := s.di (dieOf core)
  let l := s.la lid
  let k := s.cl (clusterOf core)
  d.online && !d.lost && !s.retiredCore core && decide (c.slots.length + waves ≤ 32) && decide (regs + lines ≤ c.free) &&
  c.claims.all (fun q => tagW q.wid == tag) && (k.pool == 4 || k.pool == l.oc) &&
  !(l.mtx && !l.lshare && (s.holdsMtx core tag || s.holdsMtx (twinOf core) tag))

/-- The waves of a team that have not ended, and the register lines they hold. -/
def openWids (s : State) (tag : Nat) : List Nat := (s.teamWids tag).filter (fun w => !(s.wv w).ended)
def regLines (s : State) (tag : Nat) : Nat := ((s.openWids tag).map (fun w => (s.wv w).regs)).sum

/-- The primary copy of a secondary team (14 R394), and the other copy of a paired team. -/
def primaryOf (s : State) (tag : Nat) : Nat := ((s.teams.filter (fun e => e.2.secondary == some tag)).map Prod.fst).headD 0
def mateOf (s : State) (tag : Nat) : Option Nat :=
  match (s.tm tag).secondary with
  | some t => some t
  | none => if (s.tm tag).isSecond then some (s.primaryOf tag) else none

/-- Does a pre-empted team context fit on a core, with the lines that its waves hold now? A copy keeps off the other copy's
cluster (14 R394), and a snapshot in progress completes first (R392). -/
def fitsTeam (s : State) (tag core : Nat) : Bool :=
  s.fitsOn (s.tm tag).lid tag core (s.openWids tag).length (s.regLines tag) (s.tm tag).lines && (s.tm tag).stopAt.isNone &&
  (match s.mateOf tag with
   | some m => (s.tm m).fin || clusterOf (s.tm m).core != clusterOf core
   | none => true)

/-- The queued claims of a team that resumes (08 R217): they keep their places on the same core, with the waves' new slots;
on another core they are queued afresh. -/
def requeue (s : State) (tag old core clk : Nat) : State :=
  let mine (q : ClaimReq) : Bool := tagW q.wid == tag
  if old = core then
    s.modCore core (fun c => { c with claims := c.claims.map (fun q => if mine q then { q with slot := (s.wv q.wid).slot } else q) })
  else
    let qs := ((s.co old).claims.filter mine).map (fun q => { q with slot := (s.wv q.wid).slot, at_ := clk })
    (s.modCore old (fun c => { c with claims := c.claims.filter (fun q => !mine q) })).modCore core (fun c => { c with
      claims := c.claims ++ qs })

/-- Resume a team context on a core (14 R397): its waves take slots, SAVED waves request the licence again (11 R309),
queued claims follow it (08 R217). -/
def resume (s : State) (tag core : Nat) : State :=
  let wids := s.openWids tag
  let s0 := s.joinPool (clusterOf core) (s.la (s.tm tag).lid).oc
  let s1 := wids.foldl (fun s w => s.seatWave core w) s0
  let clk := s1.clkOf core
  let s2 := (s1.requeue tag (s.tm tag).core core clk).startStopped tag clk
  let tids := s2.teamTids tag
  let s3 := (((s2.modThreads tids (fun _ t => { t with
    readyAt := clk, lastIssue := clk, inTable := false
    park := if t.park = .firmware 0x1A || t.park = .firmware 0x28 then .none else t.park })).modTeam tag (fun t => { t with
    core := core, running := true, moveTo := none, moveSnap := false, image := none })).modLaunch (s.tm tag).lid (fun l => { l with
      teamCore := AMap.insert l.teamCore (s.tm tag).index core })).modCore core (fun c => { c with free := c.free - (s.tm tag).lines }.trimL1)
  (wids.filter (fun w => (s3.wv w).lic == .saved)).foldl licRequest s3

/-- The dies of a stage of a launch, as a mask: in a re-execution each die's replacement (13 R467). -/
def stageDies (l : Launch) (stg : Nat) : Nat :=
  (List.range 16).foldl (fun m d => if bitAt (l.dieSet stg) d then m ||| 2 ^ (l.dieMap.get d d) else m) 0

/-- The home stacks of the pages of a launch's argument-block source; a page of another package or of host memory has none
here. -/
def argStacks (s : State) (lid : Nat) : List Nat :=
  let l := s.la lid
  if l.argSize = 0 then []
  else ((List.range ((l.argAddr + l.argSize - 1) / 2 ^ 16 - l.argAddr / 2 ^ 16 + 1)).filterMap (fun k =>
    let va := (l.argAddr / 2 ^ 16 + k) * 2 ^ 16 % 2 ^ 52
    match s.walkLaunch lid va with
    | .ok (pte, size) =>
      let pa := bitsOf pte 51 16 * 2 ^ 16 + va % 2 ^ size
      if pa / 2 ^ 40 ≠ s.pkg || inHostWindow pa then none else some (homeStack pa)
    | .error _ => none))

/-- The core that the work distributor takes among those that meet `p`: the one whose stack holds the most pages of the
argument-block source, then the lowest (15 R418). -/
def pickCore (s : State) (lid : Nat) (p : Nat → Bool) : Option Nat :=
  let ks := s.argStacks lid
  [2, 1, 0].findSome? (fun n => (List.range Config.numCores).find? (fun c => decide ((ks.filter (· == stackOf c)).length = n) && p c))

/-- The teams that a twin window joins with a team (11 R311), and those of them that run. -/
def joined (s : State) (tag : Nat) : List Nat :=
  let ends (w : Nat × Wave) : List Nat := match w.2.twin with
    | some x => if w.2.ended then [] else if tagW w.1 = tag then [x.tag] else if x.tag = tag then [tagW w.1] else []
    | none => []
  (s.waves.flatMap ends).dedup.filter (fun p => p != tag && !(s.tm p).fin)
def partners (s : State) (tag : Nat) : List Nat := (s.joined tag).filter (fun p => (s.tm p).running)

/-- The core a team goes to, of its stage's dies; of any die when none of those is in service (14 R406, log 12). A core on whose
twin its partner teams fit comes first (11 R313). -/
def placeTo (s : State) (tag : Nat) (p : Nat → Bool) : Option Nat :=
  let t := s.tm tag
  let l := s.la t.lid
  let dies := stageDies l (l.stageOf t.index)
  let alive := (List.range 16).any (fun d => bitAt dies d && (s.di d).online && !(s.di d).lost && !(s.di d).retired)
  let ok (c : Nat) : Bool := c != t.core && p c && s.fitsTeam tag c && (!alive || bitAt dies (dieOf c))
  match s.pickCore t.lid (fun c => ok c && (s.partners tag).all (fun q => (s.tm q).core == twinOf c || s.fitsTeam q (twinOf c))) with
  | some c => some c
  | none => s.pickCore t.lid ok

/-- No array entry, engine command, far access or held store of a team is outstanding on its core (09 R252, 11 R308). -/
def drained (s : State) (tag : Nat) : Bool :=
  let c := s.co (s.tm tag).core
  c.mx.all (fun e => tagW e.wid != tag) && c.cmds.all (fun k => tagW k.wid != tag) &&
  s.msys.tags.all (fun g => tagOf g.acc.tid != tag || g.acc.op == .bbwait) && (s.tm tag).heldStores.isEmpty

/-! ## Snapshots and rollback (14 R392, R393) -/

/-- The waits that a snapshot keeps; a thread in any other wait stands at its instruction, to issue it again. -/
def keepsPark : Park → Bool
  | .mwait _ _ _ | .yield _ | .barrier _ _ _ _ | .seal _ | .licence | .firmware _ | .quiesce _ => true
  | _ => false

/-- A thread as a snapshot holds it. What its fences wait for is complete by then. -/
def imgThread (s : State) (tid : Nat) : Thread :=
  let t := { s.th tid with readyAt := 0, fenceId := 0, fenceTag := 0, fenceRes := 0 }
  match s.held.find? (fun a => a.tid == tid) with
  | some a => { t with park := .none, pc := a.pc }
  | none => { t with park := if keepsPark t.park then t.park else .none }

/-- A wave as a snapshot holds it: its convergence timer as it stands. -/
def imgWave (s : State) (wid : Nat) : Wave :=
  let w := s.wv wid
  { w with timer := timerAt w (s.clkOf w.core), timerOn := none, snapWait := false }

/-- The results that saved entries of a team will deliver. -/
def savedRes (s : State) (tag : Nat) : List VRes :=
  s.vres.filter (fun r => r.core == (s.tm tag).core && !r.ready &&
    (s.teamWids tag).any (fun w => (s.wv w).saved.any (fun e => e.vres == some r.id)))

/-- The tiles that a context owns on its core. -/
def ownedTiles (s : State) (tag : Nat) : AMap (TileDesc × AMap Word) :=
  let c := (s.tm tag).core
  ((s.co c).tiles.filter (fun e => e.2.owner == tag)).map (fun e => (e.1, (e.2, s.tileWords c e.1)))

/-- The state of a team for a snapshot. -/
def snapOf (s : State) (tag : Nat) : Snapshot :=
  let t := s.tm tag
  { stamp := s.msys.stamp
    threads := (s.teamTids tag).map (fun tid =>
      { tid := tid, thread := s.imgThread tid
        vregs := s.vregs.filter (fun e => e.1 / 256 == tid), preds := s.preds.filter (fun e => e.1 / 16 == tid) })
    waves := (s.teamWids tag).map (fun w => (w, s.imgWave w, s.sregs.filter (fun e => e.1 / 64 == w)))
    scratch := s.scratch.filter (fun e => e.1 / 2 ^ 20 == tag)
    coefs := t.coefs, polyRead := t.polyRead, loop := t.loop, loopWave := t.loopWave, interval := t.interval, shadow := t.shadow
    tiles := s.ownedTiles tag, spilled := t.spilled, pending := t.pending, stuck := t.stuck, vres := s.savedRes tag }

/-- A team can be snapshotted: its array entries, its commands and its results on their way are complete. -/
def snapReady (s : State) (tag : Nat) : Bool :=
  let c := s.co (s.tm tag).core
  c.mx.all (fun e => tagW e.wid != tag) && c.cmds.all (fun k => tagW k.wid != tag) &&
  s.vres.all (fun r => !r.ready || r.writes.all (fun w => tgtTag w.1 != tag)) &&
  s.msys.tags.all (fun g => tagOf g.acc.tid != tag || g.acc.op == .bbwait) && s.msys.claims.all (fun j => tagOf j.tid != tag)

/-- Take a snapshot of a team into its older slot: its external-write bit is cleared and its monitors are hit; its waves, `SNAP`
threads among them, continue. A launch that reserves no area has no slot. -/
def takeSnapshot (s : State) (tag : Nat) : State :=
  let s1 := s.commitTeam tag
  let s2 := if (s.la (s.tm tag).lid).snapBase = 0 then s1
    else s1.modTeam tag (fun t => { t with snapOld := t.snapNew, snapNew := some (s1.snapOf tag), extWrite := false })
  let s3 := (s2.modTeam tag (fun t => { t with snapAt := s.time })).contTeam tag
  let s4 : State := { s3 with waves := s3.waves.map (fun e => if tagW e.1 = tag then (e.1, { e.2 with snapWait := false }) else e) }
  (s4.hitAll (fun t => tagOf t == tag)).modThreads (s2.teamTids tag) (fun _ t => if t.park = .snap then { t with park := .none } else t)

/-- A team that leaves a core takes its numbers with it: those of its commands, array entries and results on their way, which its
old core gave out, become numbers of the new core in the same order. -/
def rehome (s : State) (tag old new : Nat) : State :=
  let d := (s.co new).nextId
  let up (n : Nat) : Nat := if n = 0 then 0 else n + d
  let mine (r : VRes) : Bool := r.core == old && r.writes.any (fun w => tgtTag w.1 == tag)
  let ids := (s.vres.filter mine).map VRes.id
  let move (v : Nat × Nat) : Nat × Nat := if v.1 = old && ids.contains v.2 then (new, v.2 + d) else v
  let acc (a : PAcc) : PAcc := if tagOf a.tid = tag then { a with core := new, vres := a.vres.map move } else a
  let s1 := s.modCore new (fun c => { c with nextId := d + (s.co old).nextId })
  { s1 with
    waves := s1.waves.map (fun e => if tagW e.1 = tag then (e.1, { e.2 with
      eqHdr := e.2.eqHdr.map (fun q => (q.1, q.2.map (fun r => { r with id := up r.id })))
      saved := e.2.saved.map (fun x => { x with id := x.id + d, vres := x.vres.map (fun v => (move (old, v)).2) }) }) else e)
    threads := s1.threads.map (fun e => if tagOf e.1 = tag then (e.1, { e.2 with
      park := match e.2.park with
        | .barrier l k x (some due) => .barrier l k x (some (due - s.clkOf old + s.clkOf new))
        | p => p
      fenceId := up e.2.fenceId, fenceRes := up e.2.fenceRes, faults := e.2.faults.map (fun f => { f with id := up f.id }) }) else e)
    vres := s1.vres.map (fun r => if mine r then { r with core := new, id := r.id + d } else r)
    held := s1.held.map acc
    msys := { s1.msys with
      tags := s1.msys.tags.map (fun g => { g with acc := acc g.acc })
      claims := s1.msys.claims.map (fun j => if tagOf j.tid = tag then { j with core := (move (j.core, j.vres)).1, vres := (move (j.core, j.vres)).2 } else j) }
    checker := { s1.checker with releases := s1.checker.releases.map (fun r => { r with vres := r.vres.map move }) } }

/-- The move of a pre-empted team: its tiles are spilled into its image, which goes with it (14 R398), and it resumes. -/
def moveOne (s : State) (tag : Nat) (core : Nat) : State :=
  let old := (s.tm tag).core
  let s0 := if (s.tm tag).moveSnap then s.takeSnapshot tag else s
  let ms := (List.range 8).filter (fun m => ((s0.co old).tiles.get {} m).owner == tag)
  let s1 := ms.foldl (fun s m => s.spillTile old m) s0
  ((if core = old then s1 else s1.rehome tag old core).resume tag core).leavePool (clusterOf old)

/-- The teams that windows join with the first of a list, through one another, each with the core it goes to: partners stand on
twins (11 R313). -/
def windowTeams (s : State) : Nat → List (Nat × Nat) → List (Nat × Nat)
  | 0, l => l
  | n + 1, l => windowTeams s n (l ++ (l.flatMap (fun e => (s.partners e.1).map (fun p => (p, twinOf e.2)))).foldl (fun acc x =>
      if (l ++ acc).any (fun y => y.1 == x.1) then acc else acc ++ [x]) [])

/-- A pre-empted team moves, or waits until it is drained. -/
def moveWhenDrained (s : State) (tag : Nat) (core : Nat) : State :=
  if s.drained tag then s.moveOne tag core else s.modTeam tag (fun t => { t with moveTo := some core })

/-- A team moves, and with it every team that windows join with it, to its new core or that core's twin, where it fits there
(11 R313). -/
def moveNow (s : State) (tag : Nat) (core : Nat) : State :=
  let ps := (s.windowTeams s.teams.length [(tag, core)]).drop 1
  ps.foldl (fun s p =>
    if (s.tm p.1).core != p.2 && s.fitsTeam p.1 p.2 then (s.preempt p.1).moveWhenDrained p.1 p.2 else s) (s.moveOne tag core)

/-- Move a team to another core as a whole (01 R27, 09 R252); it waits for what it has outstanding. A copy that has stores held
runs on until they are performed (14 R395). -/
def migrate (s : State) (tag : Nat) (core : Nat) : State :=
  if !(s.tm tag).heldStores.isEmpty then s.modTeam tag (fun t => { t with moveTo := some core })
  else
    let s1 := s.preempt tag
    if s1.drained tag then s1.moveNow tag core else s1.modTeam tag (fun t => { t with moveTo := some core })

/-- May a team that leaves a core go to another? After a noise-source fault only to one with a healthy source (06 R168). -/
def healthyTo (s : State) (old core : Nat) : Bool := !(s.co old).noiseFailed || !(s.co core).noiseFailed

/-- Teams that wait to move and are drained now move. -/
def settleMoves (s : State) : State :=
  s.teams.foldl (fun s e => match e.2.moveTo with
    | some c =>
      if e.2.fin || !(s.tm e.1).heldStores.isEmpty then s
      else
        let s1 := s.preempt e.1
        if !s1.drained e.1 then s1
        else if c != e.2.core && s1.healthyTo e.2.core c && s1.fitsTeam e.1 c then s1.moveNow e.1 c
        else match s1.placeTo e.1 (s1.healthyTo e.2.core) with
          | some c' => s1.moveNow e.1 c'
          | none => s1
    | none => s) s

/-- Restore a team that runs nowhere from its newest valid snapshot, or from its start (R393). Tiles return through its
image; what was on its way is dropped. -/
def restore (s : State) (tag : Nat) : State :=
  let t := s.tm tag
  match (match t.snapNew with | some x => some x | none => t.start) with
  | none => s
  | some x =>
    let mine (tid : Nat) : Bool := tagOf tid == tag
    let s1 := (s.clearTiles t.core tag).modCore t.core (fun c => { c with
      cmds := c.cmds.filter (fun k => tagW k.wid != tag), mx := c.mx.filter (fun e => tagW e.wid != tag)
      claims := c.claims.filter (fun q => tagW q.wid != tag) })
    let s2 : State := { s1 with
      pend := s1.pend.filter (fun w => tgtTag w.tgt != tag)
      vres := s1.vres.filter (fun r => r.writes.all (fun w => tgtTag w.1 != tag)) ++ x.vres.map (fun r => { r with core := t.core })
      held := s1.held.filter (fun a => !mine a.tid)
      msys := { s1.msys with
        tags := s1.msys.tags.filter (fun g => !mine g.acc.tid)
        claims := s1.msys.claims.filter (fun j => !mine j.tid) }
      scratch := s1.scratch.filter (fun e => e.1 / 2 ^ 20 != tag)
      vregs := s1.vregs.filter (fun e => !mine (e.1 / 256))
      preds := s1.preds.filter (fun e => !mine (e.1 / 16))
      sregs := s1.sregs.filter (fun e => tagW (e.1 / 64) != tag) }
    let s3 := s2.modLaunch t.lid (fun l => { l with sqs := l.sqs.map (fun e => (e.1, { e.2 with
      pushes := e.2.pushes.filter (fun r => tagW r.wid != tag), pops := e.2.pops.filter (fun r => tagW r.wid != tag) })) })
    let past (p : Park) : Bool := match p with
      | .barrier lid rt e _ => decide (e < ((s3.la lid).rtags.get {} rt).episode)
      | _ => false
    let s4 : State := { s3 with
      threads := x.threads.foldl (fun m i => AMap.set {} m i.tid
        { i.thread with park := if past i.thread.park then .none else i.thread.park, hit := i.thread.hit || i.thread.monitor.isSome || i.thread.armed }) s3.threads
      vregs := x.threads.foldl (fun m i => i.vregs.foldl (fun m e => AMap.set 0 m e.1 e.2) m) s3.vregs
      preds := x.threads.foldl (fun m i => i.preds.foldl (fun m e => AMap.set false m e.1 e.2) m) s3.preds
      waves := x.waves.foldl (fun m w => AMap.set {} m w.1 { w.2.1 with
        core := t.core, resident := false, claimN := 0
        lic := if w.2.1.lic = .none then .none else .saved }) s3.waves
      sregs := x.waves.foldl (fun m w => w.2.2.foldl (fun m e => AMap.set 0 m e.1 e.2) m) s3.sregs
      scratch := x.scratch.foldl (fun m e => AMap.set 0 m e.1 e.2) s3.scratch }
    let sp := x.tiles.foldl (fun m e => AMap.insert m e.1 e.2) x.spilled
    s4.modTeam tag (fun t => { t with
      coefs := x.coefs, polyRead := x.polyRead, loop := x.loop, loopWave := x.loopWave, interval := x.interval, shadow := x.shadow, pending := x.pending, stuck := x.stuck
      stopAt := none, ring := t.ring && (s4.la t.lid).stopDue
      spilled := sp, spillMask := BitVec.ofNat 8 ((sp.map (fun e => 2 ^ e.1)).sum), extWrite := false
      heldStores := [], records := [], atomVals := [] })

/-- Roll a team back, on a core or to wait for one (R393). -/
def rollback (s : State) (tag : Nat) (core : Option Nat) : State :=
  let old := (s.tm tag).core
  let s1 := (s.preempt tag).restore tag
  match core with
  | some c => ((if c = old then s1 else s1.rehome tag old c).resume tag c).leavePool (clusterOf old)
  | none => s1.modTeam tag (fun t => { t with moveTo := some old })

/-- Roll a team back: on its core, or on another when its own is out of service or retired, or to wait for one. -/
def replaceTeam (s : State) (tag : Nat) : State :=
  let c := (s.tm tag).core
  if (s.di (dieOf c)).lost || !(s.di (dieOf c)).online || s.retiredCore c then s.rollback tag (s.placeTo tag (fun _ => true))
  else s.rollback tag (some c)

/-- The teams of a list, with the other copies of paired ones. -/
def bothCopies (s : State) (tags : List Nat) : List Nat := (tags ++ tags.filterMap s.mateOf).dedup

/-- The teams that are on a die. -/
def dieTeams (s : State) (die : Nat) : List Nat :=
  (s.teams.filter (fun e => !e.2.fin && (e.2.running || e.2.moveTo.isSome) && dieOf e.2.core == die)).map Prod.fst

/-- Teams leave a die that can still be reached: each is snapshotted and moves to a surviving die (14 R406). A copy that has stores
held can reach no pair point there: both copies go back to their last one (log 87). -/
def evacuate (s : State) (die : Nat) : State :=
  (s.dieTeams die).foldl (fun s tag =>
    if !(s.tm tag).heldStores.isEmpty then (s.bothCopies [tag]).foldl replaceTeam s
    else settleMoves ((s.preempt tag).modTeam tag (fun t => { t with moveTo := some t.core, moveSnap := true }))) s

/-- A retired die is handled as a lost die that can be reached (16 R439). -/
def settleRetired (s : State) : State :=
  ((s.dies.filter (fun d => d.2.retired && d.2.online)).map Prod.fst).foldl (fun s d =>
    (s.modDie d (fun x => { x with online := false })).evacuate d) s

/-- The hold bits of wired route tags: that of every bound tag is set while a halted die has a participant (10 R280, 14 R403). -/
def holdTags (s : State) : State :=
  { s with launches := s.launches.map (fun l =>
      let h := s.teams.any (fun t => t.2.lid == l.1 && !t.2.fin && (s.di (dieOf t.2.core)).halted)
      (l.1, { l.2 with rtags := ((List.range 8).filter (fun k => l.2.tagCount k ≠ 0)).foldl (fun m k =>
        AMap.set {} m k { m.get {} k with hold := h }) l.2.rtags })) }

/-- Actions of journal entries of kind 0x02, as the model numbers them. -/
def aAttach : Nat := 1
def aDetach : Nat := 2
def aHalt : Nat := 3
def aResume : Nat := 4

/-- A debugger halts a die (14 R403): its response tags leave their watchdog, route tags with a participant there are held,
and the halt is journalled. -/
def haltDie (s : State) (die : Nat) : State :=
  let s1 := s.modDie die (fun d => { d with halted := true, step := none })
  let s2 : State := { s1 with msys := { s1.msys with
    tags := s1.msys.tags.map (fun g => if dieOf g.acc.core = die then { g with held := true } else g) } }
  s2.holdTags.journalF 0x02 0xFFFF [die, aHalt]

/-- Place a thread at a PC, ready no earlier than a clk. -/
def goto (t : Thread) (pc at_ : Nat) : Thread := { t with pc := pc % 2 ^ 52, readyAt := at_, inTable := false }

/-- Resume a thread at the region entry of its trap registers (04 R104, 10 R286, 13 R354). -/
def resumeRegion (s : State) (tid at_ : Nat) : State :=
  let t := s.th tid
  let dep := t.trap.rdep
  let spilled := min t.spilled dep
  let keep := min t.stack.length (dep - spilled)
  let s1 := s.modThread tid (fun t => { goto t t.trap.rpc at_ with
    stack := t.stack.drop (t.stack.length - keep)
    rsptr := (t.rsptr + 2 ^ 52 - 8 * (t.spilled - spilled)) % 2 ^ 52
    spilled := spilled
    park := .none
    pendTrap := none, pendAsync := none, pendPc := none
    faults := t.faults.filter (fun f => f.rcount != t.trap.rcnt) })
  let late (g : Tgt) : Bool := isCount g && tgtWid g == widOf tid
  let s2 : State := { s1 with
    pend := s1.pend.filter (fun w => !late w.tgt), vres := s1.vres.map (fun r => { r with writes := r.writes.filter (fun w => !late w.1) }) }
  s2.modWave (widOf tid) (fun w => { w with
    ufbuf := w.ufbufR
    rci := w.rci.set (laneOf tid) (w.rciR.getD (laneOf tid) 0)
    held := [], openRec := none, hash := w.hashR, seq := w.seqR })

/-! ## The random log (06 R170) -/

/-- Records that a wave's log may hold. -/
def logLen (l : Launch) (k : Nat) : Nat := if AMap.get 0 l.rndLen k = 0 then l.rndMax else AMap.get 0 l.rndLen k

/-- Firmware extends a wave's log by RNDMAX records. -/
def extendLog (s : State) (lid k : Nat) : State :=
  s.modLaunch lid (fun x => { x with rndLen := AMap.set 0 x.rndLen k (logLen x k + x.rndMax) })

/-- The frames of a launch's log: a record of 128 bytes and a mask of 4 for each RNDMAX, extensions included. -/
def logFrames (s : State) (lid : Nat) : List Nat :=
  let l := s.la lid
  let recs := l.numTeams * l.numWaves * l.rndMax + (l.rndLen.map (fun e => e.2 - l.rndMax)).sum
  (List.range ((recs * 132 + 2 ^ 16 - 1) / 2 ^ 16)).map (Config.logFrame lid)

/-- The log of a launch is freed once its `LAUNCH` has completed and each of its versions is RELEASED or freed; its frames pass
through quarantine. -/
def freeLog (s : State) (lid : Nat) : State :=
  let l := s.la lid
  let open_ := s.stage.any (fun p => p.2.versions.any (fun v => v.lid == lid && v.st != .released && v.st != .failed))
  if l.logFreed || !(l.st == .done || l.st == .aborted) || open_ then s
  else
    let s1 := s.modLaunch lid (fun x => { x with rnd := [], rndLen := [], logFreed := true })
    if l.isChecked || l.paired || l.rlogOn || !l.rnd.isEmpty then
      { s1 with msys := { s1.msys with quarantine := s1.msys.quarantine ++ (s.logFrames lid).map (fun f => (f, s.msys.stamp)) } }
    else s1
def freeLogs (s : State) : State := (s.launches.map Prod.fst).foldl freeLog s

/-- Firmware moves the team of threads that trapped to a core; they wait where none is found, or until the team can leave. -/
def moveOff (s : State) (tids : List Nat) (tag code : Nat) (core : Option Nat) : State :=
  let wait (s : State) : State := s.modThreads tids (fun _ t => { t with park := .firmware code })
  match core with
  | some c => if (s.tm tag).heldStores.isEmpty then s.migrate tag c else wait (s.migrate tag c)
  | none => wait s

/-- Of a team whose window's partner runs elsewhere: the twin of the partner's core, or else another pair for both (11 R313). -/
def pairCore (s : State) (tag : Nat) : Option Nat :=
  match (s.partners tag).find? (fun p => s.fitsTeam tag (twinOf (s.tm p).core)) with
  | some p => some (twinOf (s.tm p).core)
  | none => s.placeTo tag (fun _ => true)

/-- Write the record words of a trap to their places, as stores of the thread: a paired copy holds and records them. -/
def putWords (s : State) (tid : Nat) (ps : List Place) (ws : List Word) : State :=
  (ps.zip ws).zipIdx.foldl (fun s (x, k) =>
    let ea := (s.tls tid + 4 * k) % 2 ^ 52
    (s.writePiece tid 0 x.1.loc (leBytes 4 x.2.toNat) ea).addRecord tid ea 2 (leBytes 4 x.2.toNat)) s

/-- The record words of a system trap go to the thread's trap record area where it can be written at once, and TRWDS counts them
(14 R382, log 51). -/
def recordSystem (words : List Word) (s : State) (tid : Nat) : State :=
  if words.isEmpty then s
  else match s.recordPlaces tid words.length with
    | .error _ => s
    | .ok ps => match s.openAll (s.lidOf tid) ps with
      | .ok s1 => (s1.putWords tid ps words).modThread tid (fun t => { t with trap := { t.trap with wds := words.length } })
      | _ => s

/-- A system trap (14 R377, R380): the trap registers and the record are written and firmware acts as Table 14.1 gives. -/
def systemTrap (s : State) (tids : List Nat) (ti : TrapInfo) (pc npc : Nat) (async : Option HeldFault) : State :=
  let lead := trapLead tids ti.mask
  let regs := s.trapRegs lead ti pc npc async
  let s0 := tids.foldl (recordSystem ti.words) (s.modThreads tids (fun tid t => { t with trap := s.trapRegs tid ti pc npc async }))
  let s1 := s0.firmwareGets lead ti regs
  let core := s.coreOf lead
  let tag := tagOf lead
  let clk := s.clkOf core
  match ti.code with
  | 0x10 | 0x13 =>
    if async.isSome || tids.all (fun t => (s.th t).rvalid) then
      s1.modThreads tids (fun _ t => { t with park := .firmware ti.code })
    else s0.abortTrap tids lead ti regs async
  | 0x18 => (s1.resolveForeign core tag (ti.words.getD 1 0).toNat).modThreads tids (fun _ t => { t with readyAt := clk + 1 })
  | 0x1A =>
    if ti.sub = 4 then
      s1.moveOff tids tag 0x1A (s1.pairCore tag)
    else s0.abortTrap tids lead ti regs async
  | 0x28 =>
    let s2 := ((s1.faultRecord core kNoiseFault [s1.lidOf lead, 0]).chargeCore core).settleRetired
    s2.moveOff tids tag 0x28 (s2.placeTo tag (fun c => !(s2.co c).noiseFailed))
  | 0x29 =>
    let s2 : State := { s1 with draws := s1.draws + 1 }
    if Config.logRoom (s1.lidOf lead) s1.draws then
      (s2.extendLog (s1.lidOf lead) ((s1.tm tag).index * 32 + widxW (widOf lead))).modThreads tids (fun _ t => { t with readyAt := clk + 1 })
    else s2.abortLaunch (s1.lidOf lead) 0xC3 [BitVec.ofNat 32 (s1.tm tag).index, BitVec.ofNat 32 (widxW (widOf lead))]
  | _ => s0.abortTrap tids lead ti regs async

/-- A user trap in one thread, in the order of 14 R379. `at_` is the clk its handler is ready at. Where its record area does not
translate, the thread waits for the driver in a translation fault, whatever its region record: it will enter the handler then. -/
def userTrap (s : State) (tids : List Nat) (ti : TrapInfo) (pc npc at_ : Nat) (async : Option HeldFault) (tid : Nat) : State :=
  let l := s.launchOf tid
  if (s.th tid).trap.inTrap then s.systemTrap [tid] { code := 0x2C } pc npc none
  else if l.handler = 0 then
    let lead := trapLead tids ti.mask
    s.abortTrap tids lead ti (s.trapRegs lead ti pc npc async) async
  else match s.recordPlaces tid ti.words.length with
    | .error c =>
      let fault : TrapInfo := { code := 0x10, sub := c, ad := BitVec.ofNat 64 (s.tls tid), mask := laneMask [tid] }
      let regs := s.trapRegs tid fault pc npc none
      (s.firmwareGets tid fault regs).modThread tid (fun t => { t with
        trap := regs, park := .firmware 0x10, pendTrap := some ti, pendAsync := async })
    | .ok ps =>
      match s.openAll (s.lidOf tid) ps with
      | .park p => s.modThread tid (fun t => { t with park := p, pendTrap := some ti, pendAsync := async })
      | .exhausted page => s.exhaust (s.lidOf tid) page
      | .ok s1 =>
        (s1.putWords tid ps ti.words).modThread tid (fun t => { goto t l.handler at_ with
          trap := { s.trapRegs tid ti pc npc async with inTrap := true }, pendTrap := none, pendAsync := none, pendPc := none, park := .none })

/-- Take a trap: every thread of the list takes it (14 R378), user traps thread by thread, system traps as one. -/
def takeTrap (s : State) (tids : List Nat) (ti : TrapInfo) (pc npc at_ : Nat) (async : Option HeldFault) : State :=
  if isUserTrap ti.code then tids.foldl (fun s t => if (s.th t).live then s.userTrap tids ti pc npc at_ async t else s) s
  else s.systemTrap tids ti pc npc async

/-- The trace entry of an issue (14 R405). Of a group that mixes waves it shows the slot of the wave in its lowest lane, and a
slot filter lets it pass when any of its waves is in that slot (log 88). -/
def traceEntry (s : State) (memPort : Bool) (trap : Nat) : Option TraceEntry :=
  let d := s.di (dieOf s.focus.core)
  if d.debugger && d.traceCores.contains s.focus.core && s.launchF.debug && d.traceLid.all (· == s.lidF) &&
    d.traceSlot.all (fun k => s.wavesF.any (fun w => (s.wv w).slot == k)) then
    some { clk := s.now, pc := s.focus.pc, mask := laneMask s.grp, trap := trap, core := s.focus.core
           slot := (s.wv (widOf (s.grp.headD 0))).slot, port := memPort, late := false }
  else none

/-- The buffer wraps over its oldest entry. -/
def trace (s : State) (memPort : Bool) (trap : Nat) : State :=
  match s.traceEntry memPort trap with
  | none => s
  | some x => s.modDie (dieOf s.focus.core) (fun d => { d with
      trace := (d.trace ++ [x]).drop (d.trace.length + 1 - 4096)
      traceLost := min (2 ^ 32 - 1) (d.traceLost + (d.trace.length + 1 - 4096)) })

/-- Is a major opcode one of the memory/engine port (04 Table 4.1)? -/
def memMajor (m : Nat) : Bool := (0x0B ≤ m && m ≤ 0x0D) || (0x90 ≤ m && m < 0xF0)

/-- The port of the instruction that the group has taken up; an instruction that could not be fetched counts for the arithmetic
port (log 88). -/
def focusPort (s : State) : Bool := memMajor (bitsOf (s.focus.word.headD 0).toNat 18 11)

/-- A port issues no second group in a clk (04 R90). -/
def takePort (s : State) (mem : Bool) : State :=
  s.modCore s.focus.core (fun c => if mem then { c with memAt := c.clk + 1 } else { c with arithAt := c.clk + 1 })

/-- The convergence timers of waves whose collective group has issued stop, at 0 for their next point (04 R96). -/
def resetTimers (s : State) (wids : List Nat) : State :=
  wids.foldl (fun s w => s.modWave w (fun x => { x with timer := 0, timerOn := none, timerRun := false })) s

/-- The waves of the issuing group, where it is a collective group. -/
def collWaves (s : State) : List Nat :=
  if (s.co s.focus.core).groups.any (fun g => g.coll && g.pc == s.focus.pc && g.members == s.focus.members) then s.wavesF else []

/-- The issuing group takes a trap at its instruction of `len` bytes (14 R378, R379). It has issued: its port is taken for this
clk, its timers stop, and the trace has its entry (14 R405). -/
def raise (s : State) (h : Hdr) (len : Nat) (ti : TrapInfo) : State :=
  (((s.leave.takePort s.focusPort).resetTimers s.collWaves).trace s.focusPort ti.code).takeTrap s.grp ti s.focus.pc
    ((s.focus.pc + len) % 2 ^ 52) (s.now + max h.stall.toNat 4) none

end State
end Sys2Proof.Machine
end

