-- ==== Sys2Proof/Machine/Queue.lean ====
section
/-!
DEFINITION. Sys2Proof/Machine/Queue.lean: the words of engine commands and the queue registers (10 R261-R265), scratchpad
presence (R269), and words pushed to the witness engine (13 R369).
-/

namespace Sys2Proof.Machine

open Sys2Proof

/-! ## Command words (R264, R265) -/

/-- Fields of a header word (Table 10.2). -/
def hTag (h : Word) : Nat := bitsOf h.toNat 31 24
def hScope (h : Word) : Nat := bitsOf h.toNat 23 21
def hRel (h : Word) : Bool := bitAt h.toNat 20
def hCpl (h : Word) : Bool := bitAt h.toNat 18
def hBbv (h : Word) : Bool := bitAt h.toNat 17
def hNw (h : Word) : Nat := bitsOf h.toNat 11 8
def hOp (h : Word) : Nat := bitsOf h.toNat 7 0

/-- Words of the command a header opens. -/
def cmdLen (h : Word) : Nat := 1 + (if hBbv h then 2 else 0) + hNw h

/-- The whole commands at the head of a queue's words, and the words left over. -/
def parseCmds : Nat → List Word → List (List Word) × List Word
  | 0, ws => ([], ws)
  | n + 1, ws => match ws with
    | [] => ([], [])
    | h :: _ =>
      if ws.length < cmdLen h then ([], ws)
      else
        let r := parseCmds n (ws.drop (cmdLen h))
        (ws.take (cmdLen h) :: r.1, r.2)
def wholeCmds (ws : List Word) : List (List Word) := (parseCmds 17 ws).1
def partCmd (ws : List Word) : List Word := (parseCmds 17 ws).2

/-- Body words and barrier address of a command. -/
def cmdBody (ws : List Word) : List Word := ws.drop (1 + (if hBbv (ws.headD 0) then 2 else 0))
def bodyW (ws : List Word) (k : Nat) : Nat := ((cmdBody ws).getD k 0).toNat
/-- A 52-bit address of two words. -/
def addrOf (lo hi : Nat) : Nat := hi % 2 ^ 20 * 2 ^ 32 + lo
def bodyA (ws : List Word) (k : Nat) : Nat := addrOf (bodyW ws k) (bodyW ws (k + 1))
def cmdBarrier (ws : List Word) : Option Nat :=
  if hBbv (ws.headD 0) then some (addrOf (ws.getD 1 0).toNat (ws.getD 2 0).toNat) else none

/-- Table 10.3: NW of an operation of a queue, if it is listed. -/
def opNw (q op : Nat) : Option Nat :=
  match q, op with
  | 0, 1 => some 5
  | 0, 2 => some 4
  | 0, 3 => some 8
  | 1, 1 => some 8
  | 1, 2 => some 8
  | 2, 1 => some 7
  | 2, 2 => some 7
  | 3, 1 => some 2
  | 4, 1 => some 3
  | 4, 2 => some 1
  | 5, 1 => some 3
  | _, _ => none

/-- The index of each address's high word in the body. -/
def addrWords (q op : Nat) : List Nat :=
  match q, op with
  | 0, 1 => [1, 3]
  | 0, 2 => [2]
  | 0, 3 => [1, 3]
  | 1, _ => [1, 3, 5]
  | 2, _ => [1, 4, 6]
  | 3, _ => [1]
  | 4, 1 => [2]
  | 5, _ => [2]
  | _, _ => []

/-- R265: is a whole command malformed? -/
def malformed (q : Nat) (ws : List Word) : Bool :=
  let h := ws.headD 0
  hScope h == 7 || bitsOf h.toNat 16 12 != 0 || opNw q (hOp h) != some (hNw h) ||
  (hBbv h && bitsOf (ws.getD 2 0).toNat 31 20 != 0) ||
  (addrWords q (hOp h)).any (fun k => bitsOf (bodyW ws k) 31 20 != 0) ||
  (q == 1 && !([4, 8, 16].contains (bodyW ws 7))) ||
  ((q == 4 || q == 5) && bitsOf (bodyW ws 0) 31 4 != 0)

/-- Prefix words of a record (Table 13.3). -/
def recPrefix (r : WRec) : List Nat :=
  [r.cls * 2 ^ 28 + r.count * 2 ^ 12 + r.brk.toNat * 2 + r.mal.toNat, r.lid, r.team, r.widx * 2 ^ 27 + r.seq % 2 ^ 27, r.epoch * 2 ^ 16]

/-- A record as it ends, with its CRC over the prefix and body words in order, each as four little-endian bytes (13 R350). -/
def recCrc (r : WRec) : Word := BitVec.ofNat 32 (crc32c ((recPrefix r ++ r.body.map BitVec.toNat).flatMap (leBytes 4)))
def sealRec (r : WRec) : WRec := { r with crc := recCrc r }

namespace State

/-! ## Presence (R195, R269) -/

/-- Scratchpad lines that `n` bytes from an address cover, as a team's context reaches them: its own window and the
cluster window. -/
def scrLinesOf (s : State) (core tag lid a n : Nat) : List (Nat × Nat) :=
  let own :=
    let lo := max a scrWin
    let hi := min (a + n) (scrWin + (s.la lid).scrLines * 128)
    if lo < hi then (List.range ((hi - 1 - scrWin) / 128 - (lo - scrWin) / 128 + 1)).map (fun k => (tag, (lo - scrWin) / 128 + k))
    else []
  let clu :=
    let lo := max a cluWin
    let hi := min (a + n) (cluWin + 2 ^ 32)
    if lo < hi then
      (List.range ((hi - 1 - cluWin) / 2 ^ 20 - (lo - cluWin) / 2 ^ 20 + 1)).flatMap (fun k =>
        let b := (lo - cluWin) / 2 ^ 20 + k
        match s.cluWindow core lid (b * 2 ^ 20) with
        | .ok ⟨.scr t _, _, _, _⟩ =>
          let l := max lo (cluWin + b * 2 ^ 20) - (cluWin + b * 2 ^ 20)
          let h := min hi (cluWin + (b + 1) * 2 ^ 20) - (cluWin + b * 2 ^ 20)
          (List.range ((h - 1) / 128 - l / 128 + 1)).map (fun j => (t, l / 128 + j))
        | _ => [])
    else []
  own ++ clu

/-- A 32-bit word of memory at an address of a thread's context, where it can be read. -/
def peek (s : State) (tid a : Nat) : Nat :=
  match s.placeFor tid 0 a .read with
  | .ok p => leNat (s.rdBytes (s.lidOf tid) p.loc 4)
  | .error _ => 0

/-- The address ranges a command writes whose lines have presence; scatter clears none (R269). -/
def destRanges (s : State) (tid q : Nat) (ws : List Word) : List (Nat × Nat) :=
  match q, hOp (ws.headD 0) with
  | 0, 1 => [(bodyA ws 2, bodyW ws 4)]
  | 0, 2 => [(bodyA ws 1, bodyW ws 3)]
  | 0, 3 => (List.range (bodyW ws 5)).map (fun r => (bodyA ws 2 + r * bodyW ws 7, bodyW ws 4))
  | 1, 1 => [(bodyA ws 4, bodyW ws 6 * bodyW ws 7)]
  | 2, 1 => [(bodyA ws 5, s.peek tid (bodyA ws 0 + 4) * 4)]
  | 2, 2 => [(bodyA ws 5, s.peek tid (bodyA ws 0) * s.peek tid (bodyA ws 0 + 4))]
  | _, _ => []

/-- The lines whose counts a command raises. -/
def raisedLines (s : State) (tid q : Nat) (ws : List Word) : List (Nat × Nat) :=
  if malformed q ws then []
  else ((s.destRanges tid q ws).flatMap (fun r =>
    s.scrLinesOf (s.coreOf tid) (tagOf tid) (s.lidOf tid) r.1 r.2)).dedup

/-- A raise that a faulted command left on a line is taken over by the push that repeats it (R285; DEDUCED, log 11). -/
def takesOver (t : Team) (line : Nat) : Bool := t.stuck.get 0 line != 0
/-- Is there room in every line's count? -/
def canRaise (s : State) (ls : List (Nat × Nat)) : Bool :=
  ls.all (fun l => takesOver (s.tm l.1) l.2 || decide ((s.tm l.1).pending.get 0 l.2 < 15))
def raiseCounts (s : State) (ls : List (Nat × Nat)) : State :=
  ls.foldl (fun s l => s.modTeam l.1 (fun t =>
    if takesOver t l.2 then { t with stuck := AMap.set 0 t.stuck l.2 (t.stuck.get 0 l.2 - 1) }
    else { t with pending := AMap.set 0 t.pending l.2 (t.pending.get 0 l.2 + 1) })) s

/-! ## Pushing words (R262) -/

/-- A word for the wave's open record; with no record open it is discarded and sets WERR (13 R353). -/
def emitWords (s : State) (wid : Nat) (ws : List Word) : State :=
  match (s.wv wid).openRec with
  | some r => s.modWave wid (fun w => { w with openRec := some { r with body := r.body ++ ws } })
  | none => s.setInterval (tagW wid) bWerr

/-- The open record of a wave ends, in the epoch now open; a wrong word count marks it malformed and sets WERR (R353). -/
def endRec (s : State) (wid : Nat) (mal : Bool) : State :=
  match (s.wv wid).openRec with
  | none => s
  | some r =>
    let bad := mal || r.body.length != r.count
    let r' := { r with mal := r.mal || bad, epoch := (s.la r.lid).sealPoints + 1 }
    let s1 := s.modWave wid (fun w => { w with openRec := none, held := w.held ++ [sealRec r'] })
    if bad then s1.setInterval (tagW wid) bWerr else s1

/-- The last thread of a wave has ended: an open record ends malformed, and the wave's records join the stream (13 R354). -/
def waveRecords (s : State) (wid : Nat) : State :=
  let s1 := s.endRec wid true
  (s1.modLaunch (s1.tm (tagW wid)).lid (fun l => { l with stream := l.stream ++ (s1.wv wid).held })).modWave wid (fun w => { w with
    held := [] })

/-- Push one word: a header's pusher is kept (R284), and a command that is now whole clears presence (R269). -/
def pushWord (s : State) (wid q tid : Nat) (w : Word) : State :=
  if q = 6 then s.emitWords wid [w]
  else
    let old := (s.wv wid).eq.getD q []
    let ws := old ++ [w]
    let t := s.th tid
    let s1 := s.modWave wid (fun x => { x with
      eq := x.eq.set q ws
      eqHdr := if (partCmd old).isEmpty then
          AMap.insert x.eqHdr q (x.eqHdr.get [] q ++ [⟨tid, s.focus.pc, t.rpc, t.rcount, t.rdepth, 0, 0⟩])
        else x.eqHdr })
    let s2 := s1.addRecord tid 0 2 (leBytes 4 w.toNat)
    if (wholeCmds ws).length = (wholeCmds old).length then s2
    else
      let ls := s2.raisedLines tid q ((wholeCmds ws).getLastD [])
      let core := (s2.wv wid).core
      let id := (s2.co core).nextId
      ((s2.raiseCounts (ls.filter (fun l => s2.canRaise [l]))).modCore core (fun c => { c with nextId := id + 1 })).modWave wid (fun x => { x with
        eqHdr := AMap.insert x.eqHdr q ((x.eqHdr.get [] q).zipIdx.map (fun r =>
          if r.2 + 1 = (wholeCmds ws).length then { r.1 with id := id, far := s2.msys.nextTag } else r.1))
        eqRaised := AMap.insert x.eqRaised q (x.eqRaised.get [] q ++ [(ls.filter (fun l => s2.canRaise [l]), ls.filter (fun l => !s2.canRaise [l]))]) })

/-- Push words to a queue of a wave, in order. -/
def pushWords (s : State) (wid q tid : Nat) (ws : List Word) : State := ws.foldl (fun s w => s.pushWord wid q tid w) s

/-- Words for a wave to pop. -/
def deliver (s : State) (wid q : Nat) (ws : List Word) : State :=
  s.modWave wid (fun x => { x with er := x.er.set q (x.er.getD q [] ++ ws) })
def popRoom (s : State) (wid q n : Nat) : Bool := decide (((s.wv wid).er.getD q []).length + n ≤ 16)

end State

end Sys2Proof.Machine
end

