-- ==== Sys2Proof/Machine/Operands.lean ====
section
/-!
DEFINITION. Sys2Proof/Machine/Operands.lean: the operand forms (02 R40-R45), the checks every instruction passes before it
issues (02 R35 rule 7, R41, R46-R49, 04 R90, R95), and how an issued instruction leaves the machine (PC, stall, results).
-/

namespace Sys2Proof.Machine

open Sys2Proof

/-- The lane a pattern reads for lane `l` (02 Table 2.5). -/
def patLane (p : Pat) (l : Nat) : Nat :=
  match p with
  | .ident => l
  | .rot k => (l + k.toNat) % 32
  | .bc k => k.toNat
  | .xor k => l ^^^ k.toNat
  | .mir k => l ^^^ (2 ^ k.toNat - 1)

/-- What a word popped from a queue is, by wave and queue (10 R262). -/
abbrev Pops := AMap Word

/-- The sources of a source B. -/
def srcsB : SrcB → List Src
  | .reg a => [a]
  | .imm _ => []

/-- The sign extension of a 32-bit word to 64 bits. -/
def sext64 (w : Word) : DWord := w.signExtend 64

/-- The operand `k` registers further on. -/
def opndPlus (o : Opnd) (k : Nat) : Opnd :=
  match o with
  | .v n => .v (n + BitVec.ofNat 8 k)
  | .s n => .s (n + BitVec.ofNat 6 k)
  | o => o

namespace State

/-! ## Values of operands -/

/-- The 32-bit value of an inline constant in a thread (02 Table 2.6). -/
def constVal (s : State) (tid : Nat) (k : BitVec 4) : Word :=
  let wid := widOf tid
  match k.toNat with
  | 0 => 0
  | 1 => 1
  | 2 => 0xFFFFFFFF
  | 3 => 2
  | 4 => 0x3F000000
  | 5 => 0x3F800000
  | 6 => 0x40000000
  | 7 => 0xBF800000
  | 8 => BitVec.ofNat 32 (laneOf tid)
  | 9 => BitVec.ofNat 32 (s.wv wid).slot
  | 10 => BitVec.ofNat 32 (widxW wid)
  | 11 => BitVec.ofNat 32 (indexOf (s.wv wid).core)
  | 12 => BitVec.ofNat 32 (clusterOf (s.wv wid).core)
  | 13 => 0x7FC00000
  | 14 => 0x7F800000
  | _ => 0x80000000

/-- The thread of the twin wave that a window reaches in the same lane, with the register `y m` names (11 R312). -/
def twinReg (s : State) (tid : Nat) (m : Nat) : Option (Nat × Nat) :=
  match (s.wv (widOf tid)).twin with
  | some w => some ((w.tag * 32 + w.widx) * 32 + laneOf tid, w.base + m)
  | none => none

/-- The first cause of the twin-gone trap for an access to `y m` by a wave (11 R312), or none. -/
def twinCause (s : State) (wid m : Nat) : Option Nat :=
  match (s.wv wid).twin with
  | none => some 0
  | some w =>
    let t := s.wv (w.tag * 32 + w.widx)
    if t.ended then some 2
    else if (s.tm w.tag).running && t.core ≠ twinOf (s.wv wid).core then some 4
    else if t.regs ≤ w.base + m then some 3
    else none

/-- The 32-bit value of an operand in a thread, its words popped from a queue given. -/
def opnd (s : State) (pops : Pops) (tid : Nat) : Opnd → Word
  | .v n => s.vreg tid n.toNat
  | .s n => s.sreg (widOf tid) n.toNat
  | .y m => match s.twinReg tid m.toNat with
    | some (t, n) => s.vreg t n
    | none => 0
  | .e q => AMap.get 0 pops (widOf tid * 8 + q.toNat)
  | .c k => s.constVal tid k

/-- The thread whose lane a source is read from. -/
def lanesrc (tid : Nat) (p : Pat) : Nat := widOf tid * 32 + patLane p (laneOf tid)

/-- A 32-bit source in a thread. `%lane` and the other constants are the reading thread's own. -/
def rd (s : State) (pops : Pops) (tid : Nat) (a : Src) : Word := s.opnd pops (lanesrc tid a.pat) a.reg

/-- A 64-bit source: a pair with its low word first, or a constant (02 R41, R43). -/
def rd64 (s : State) (pops : Pops) (tid : Nat) (a : Src) : DWord :=
  match a.reg with
  | .c k => if k = 2 then 0xFFFFFFFFFFFFFFFF else (s.constVal tid k).setWidth 64
  | r => s.opnd pops (lanesrc tid a.pat) (opndPlus r 1) ++ s.opnd pops (lanesrc tid a.pat) r

/-- Source B at 32 and at 64 bits: IMM stands in its place at 128 bits, sign-extended (02 R39). -/
def rdB (s : State) (pops : Pops) (tid : Nat) : SrcB → Word
  | .reg a => s.rd pops tid a
  | .imm w => w
def rdB64 (s : State) (pops : Pops) (tid : Nat) : SrcB → DWord
  | .reg a => s.rd64 pops tid a
  | .imm w => sext64 w

/-- An `s` pair of a wave as a 64-bit value, and a 52-bit or longer address made of it. -/
def sPair (s : State) (wid : Nat) (o : Opnd) : DWord :=
  match o with
  | .s n => s.sreg wid (n.toNat + 1) ++ s.sreg wid n.toNat
  | .c k => if k = 2 then 0xFFFFFFFFFFFFFFFF else (s.constVal (wid * 32) k).setWidth 64
  | _ => 0
/-- An `s` register or constant of a wave; `%lane` reads as lane 0's (log 61). -/
def sVal (s : State) (wid : Nat) (o : Opnd) : Word :=
  match o with
  | .s n => s.sreg wid n.toNat
  | .c k => s.constVal (wid * 32) k
  | _ => 0

end State

/-! ## What an instruction uses -/

/-- The registers, predicates and queues an instruction uses, for the checks before its issue. -/
structure Uses where
  h : Hdr
  len : Nat
  srcs : List (Src × Nat) := []     -- a source and how many registers it names
  dsts : List (Opnd × Nat) := []
  psrcs : List Pred := []
  pdsts : List Pred := []
  coll : Bool := false              -- collective of its own (04, "Collective points")
  all32 : Bool := false             -- 04 R95
  allLanes : Bool := false          -- 07 R173: reads lines of every lane
  memPort : Bool := false           -- 04 Table 4.1
  lat : Nat := 2                    -- 02 Table 2.8; 0 for a result of variable latency
  pushes : List (Nat × Nat) := []   -- queue and words pushed besides an `e` destination
  rel : Bool := false               -- a release operation of 09 Table 9.3 that a matrix store must precede (11 R298)
  unit : Nat := 0                   -- 06 R145: 1 the special-function unit, 2 the noise source
  region : Bool := false            -- a region entry: it waits for the thread's commands of the region (10 R285)
  acq : Option Nat := none          -- the scope of an atomic's acquire (09 Table 9.3)
  pairRel : Bool := false           -- a release at a scope that contains the twin (09 R247)
  maps : Bool := false              -- it maps the twin window (11 R311)
  noStall : Bool := false           -- its rule lets it raise no undersized stall (04 R111, R114; 11 R322)
  ownLat : Bool := false            -- its rule gives its latency, whatever its pattern (11 R325, log 89)
  deriving DecidableEq, Repr

/-- A crossbar pattern on any source (02 R45). -/
def Uses.patterned (u : Uses) : Bool := u.srcs.any (fun a => a.1.pat != .ident)
def Uses.collective (u : Uses) : Bool := u.coll || u.patterned
/-- The latency of a fixed-latency result (02 Table 2.8). -/
def Uses.latency (u : Uses) : Nat := if u.patterned && !u.ownLat then max u.lat 6 else u.lat
/-- The queue an instruction pops and the one it pushes (10 R262). -/
def Uses.popQ (u : Uses) : Option Nat := u.srcs.findSome? (fun a => match a.1.reg with | .e q => some q.toNat | _ => none)
def Uses.pushQ (u : Uses) : List (Nat × Nat) :=
  u.dsts.filterMap (fun d => match d.1 with | .e q => some (q.toNat, 1) | _ => none) ++ u.pushes

/-- What the checks before issue say. -/
inductive Gate where
  | go
  | hold                            -- not ready (04 R88, R90)
  | park (p : Park)                 -- waits without a time limit
  | trap (t : TrapInfo)
  deriving DecidableEq, Repr

namespace State

/-- The registers a thread reaches through an operand of `n` registers. -/
def tgts (s : State) (tid : Nat) (o : Opnd) (n : Nat) : List Tgt :=
  match o with
  | .v k => (List.range n).map (fun i => .v tid (k.toNat + i))
  | .s k => (List.range n).map (fun i => .s (widOf tid) (k.toNat + i))
  | .y m => match s.twinReg tid m.toNat with
    | some (t, r) => [.v t r]
    | none => []
  | _ => []

/-- Threads whose registers the instruction reads: the executing ones, or every lane of their waves. -/
def readers (s : State) (u : Uses) : List Nat :=
  if u.allLanes then (s.wavesX u.h).flatMap tidsOf else s.xs u.h

/-- What one thread reads, with the operand each register is named by: that of a pair's base, the number of a predicate
(log 59). -/
def readsOf (s : State) (u : Uses) (t : Nat) : List (Tgt × Nat) :=
  u.srcs.flatMap (fun (a, n) => (s.tgts (lanesrc t a.pat) a.reg n).map (fun g => (g, a.reg.bits.toNat)))

/-- Registers read. The guard is read in every thread of the group, another predicate in the executing ones. -/
def readTgts (s : State) (u : Uses) : List (Tgt × Nat) :=
  (s.readers u).flatMap (s.readsOf u) ++ s.grp.map (fun t => (.p t u.h.guard.toNat, u.h.guard.toNat)) ++
  (s.xs u.h).flatMap (fun t => u.psrcs.map (fun p => (.p t p.toNat, p.toNat)))

/-- What one thread writes. -/
def writesOf (s : State) (u : Uses) (t : Nat) : List (Tgt × Nat) :=
  u.dsts.flatMap (fun (d, n) => (s.tgts t d n).map (fun g => (g, d.bits.toNat))) ++
  (u.pdsts.filter (· != 0)).map (fun p => (.p t p.toNat, p.toNat))

/-- Registers written. -/
def writeTgts (s : State) (u : Uses) : List (Tgt × Nat) := (s.xs u.h).flatMap (s.writesOf u)

/-- R41: a `v` operand at or above the allocation of a wave of the group. -/
def overAlloc (s : State) (u : Uses) : Bool :=
  (u.srcs.map (fun a => (a.1.reg, a.2)) ++ u.dsts).any (fun (o, n) => match o with
    | .v k => s.wavesF.any (fun w => decide ((s.wv w).regs < k.toNat + n))
    | _ => false)

/-- 04 R95: the wave's 32 threads are live and the guard is true in all of them. -/
def fullWave (s : State) (h : Hdr) : Bool :=
  s.wavesF.all (fun w => (tidsOf w).all (fun t => (s.th t).live && s.grp.contains t && (s.pred t h.guard ^^ h.gneg)))

/-- 02 R48: a variable-latency result is pending on a register that is read or written. -/
def waitsVar (s : State) (gs : List Tgt) : Bool := s.vres.any (fun r => r.writes.any (fun w => gs.contains w.1))

/-- 10 R262: a queue without room for a push, or without a word to pop. -/
def queueWaits (s : State) (u : Uses) : Bool :=
  (s.wavesX u.h).any (fun w =>
    (match u.popQ with | some q => ((s.wv w).er.getD q []).isEmpty | none => false) ||
    u.pushQ.any (fun (q, n) => decide (16 < ((s.wv w).eq.getD q []).length + n)))

/-- A read of the register now comes before a fixed-latency write to it commits. -/
def earlyRead (s : State) (g : Tgt) : Bool := s.pend.any (fun w => w.tgt == g && decide (s.now < w.due))
/-- The clk at which a write issued now would commit, for the test of R49: one of variable latency at the next clk or later. -/
def commitClk (s : State) (u : Uses) : Nat := if u.lat = 0 || u.popQ.isSome then s.now + 1 else s.now + u.latency
/-- A write of the register issued now would commit no later than an earlier one. When a result of variable latency would
commit is not known at issue: it counts as early while any earlier write is pending (log 59). -/
def earlyWrite (s : State) (u : Uses) (g : Tgt) : Bool :=
  s.pend.any (fun w => w.tgt == g && decide (s.commitClk u ≤ w.due))

/-- 11 R311: `TWIN` is a fixed-latency write to every `y` register. A `y` operand that is read before a mapping comes into force, or
whose write commits no later than it does. -/
def twinSoon (s : State) (u : Uses) : Option Nat :=
  let soon (clk : Nat) (o : Opnd) : Option Nat := match o with
    | .y _ => if (s.wavesX u.h).any (fun w => (s.wv w).twinNext.any (fun m => decide (clk ≤ m.1))) then some o.bits.toNat else none
    | _ => none
  match u.srcs.findSome? (fun a => soon (s.now + 1) a.1.reg) with
  | some n => some n
  | none => u.dsts.findSome? (fun d => soon (s.commitClk u) d.1)

/-- A `TWIN` that would come into force no later than an earlier `y` write of its wave commits: the `y` operand of that write
(log 59). -/
def twinLate (s : State) (u : Uses) : Option Nat :=
  if !u.maps then none
  else (s.wavesX u.h).findSome? (fun w => (s.pend.find? (fun p => p.wid == w && isForeign p && decide (s.now + 2 ≤ p.due))).map (fun p =>
    let n := match p.tgt with | .v _ n => n | _ => 0
    (Opnd.y (BitVec.ofNat 5 (n - ((s.wv w).twin.map TwinMap.base).getD 0))).bits.toNat))

/-- 02 R49 with the checking scoreboard on: the operand whose use comes too early. -/
def undersized (s : State) (u : Uses) : Option Nat :=
  if !s.launchF.sbchk || u.noStall then none
  else match (s.readTgts u).find? (fun g => s.earlyRead g.1) with
    | some g => some g.2
    | none => match (s.twinSoon u).orElse (fun _ => s.twinLate u) with
      | some n => some n
      | none => ((s.writeTgts u).find? (fun g => s.earlyWrite u g.1)).map Prod.snd

/-- The lanes of the group whose own operands come too early. -/
def undersizedLanes (s : State) (u : Uses) : List Nat :=
  s.grp.filter (fun t => s.earlyRead (.p t u.h.guard.toNat) || ((s.xs u.h).contains t &&
    ((s.readsOf u t).any (fun g => s.earlyRead g.1) || u.psrcs.any (fun p => s.earlyRead (.p t p.toNat)) ||
     (s.twinSoon u).isSome || (s.twinLate u).isSome || (s.writesOf u t).any (fun g => s.earlyWrite u g.1))))

/-- The first twin-gone cause of the instruction's `y` operands (11 R312), with the operand and the wave. -/
def twinGone (s : State) (u : Uses) : Option (Nat × Nat × Nat) :=
  ((u.srcs.map (fun a => a.1.reg)) ++ u.dsts.map Prod.fst).findSome? (fun o => match o with
    | .y m => (s.wavesX u.h).findSome? (fun w => (s.twinCause w m.toNat).map (fun c => (c, o.bits.toNat, w)))
    | _ => none)

/-- The executing lanes of the waves whose `y` operands meet a twin-gone cause. -/
def twinLanes (s : State) (u : Uses) (c : Nat) : List Nat :=
  (s.xs u.h).filter (fun t => ((u.srcs.map (fun a => a.1.reg)) ++ u.dsts.map Prod.fst).any (fun o => match o with
    | .y m => s.twinCause (widOf t) m.toNat == some c
    | _ => false))

/-- 09 R248, 11 R312: a twin register that is not resident; its wave's context and line. -/
def twinAway (s : State) (u : Uses) : Option (Nat × Nat) :=
  ((u.srcs.map (fun a => a.1.reg)) ++ u.dsts.map Prod.fst).findSome? (fun o => match o with
    | .y m => (s.wavesX u.h).findSome? (fun w => match (s.wv w).twin with
      | some x =>
        let tw := x.tag * 32 + x.widx
        if !(s.tm x.tag).running || (s.wv tw).evicted.contains (x.base + m.toNat) then some (tw, x.base + m.toNat) else none
      | none => none)
    | _ => none)

/-- 08 R191: a register line of a wave of the group that is in its image still. -/
def lineAway (s : State) (u : Uses) : Option (Nat × Nat) :=
  s.wavesF.findSome? (fun w =>
    if (s.wv w).evicted.isEmpty then none
    else (u.srcs.map (fun a => (a.1.reg, a.2)) ++ u.dsts).findSome? (fun (o, n) => match o with
      | .v k => ((List.range n).map (fun i => k.toNat + i)).findSome? (fun r =>
          if (s.wv w).evicted.contains r then some (w, r) else none)
      | _ => none))

/-- An array entry whose memory accesses are not all made: the fetch of a re-entered entry's operands, or an `MST`'s stores
(11 R298, R308). -/
def accessesLeft (e : MxEntry) : Bool := !e.outs.isEmpty || (e.mem.isNone && !e.srcs.isEmpty)

/-- An engine command that the thread has pushed, whether an engine has accepted it or not, or a matrix instruction's access of its
wave is not complete, with a number below `n` (09 R243: a command stands in program order at its push). -/
def unitOpen (s : State) (tid n : Nat) : Bool :=
  (s.co (s.coreOf tid)).cmds.any (fun c => c.tid == tid && decide (c.id < n)) ||
  (s.wv (widOf tid)).eqHdr.any (fun e => e.2.any (fun r => r.tid == tid && r.id != 0 && decide (r.id < n))) ||
  ((s.co (s.coreOf tid)).mx ++ (s.wv (widOf tid)).saved).any (fun e => e.wid == widOf tid && accessesLeft e && decide (e.id < n))

/-- A load or an atomic of the thread with a number below `n` has not returned. -/
def loadOpen (s : State) (tid n : Nat) : Bool :=
  s.vres.any (fun r => r.core == s.coreOf tid && (r.cls == 0 || r.cls == 4) && decide (r.id < n) &&
    r.writes.any (fun w => match w.1 with | .v t _ | .p t _ | .sr t _ => t == tid | .s v _ | .u v _ => v == widOf tid))

/-- 08 R214, 09 R236: an operation that the thread's last fence or acquire orders is still in flight: an engine command, a matrix
instruction's access, a far access, or, after `FENCE.sc`, a load. -/
def fenced (s : State) (tid : Nat) : Bool :=
  let t := s.th tid
  (t.fenceId != 0 && s.unitOpen tid t.fenceId) || (t.fenceRes != 0 && s.loadOpen tid t.fenceRes) ||
  (t.fenceTag != 0 && s.msys.tags.any (fun g => g.acc.tid == tid && decide (g.id < t.fenceTag)))

/-- 09 R236, R246: a release waits for the matrix accesses of its waves and the far accesses of its threads. -/
def storing (s : State) : Bool :=
  s.wavesF.any (fun w => ((s.co s.focus.core).mx ++ (s.wv w).saved).any (fun e => e.wid == w && accessesLeft e)) ||
  s.msys.tags.any (fun g => s.grp.contains g.acc.tid)

/-- 09 R247: a write of the group through a twin window that has not committed yet. -/
def twinPending (s : State) : Bool :=
  s.wavesF.any (fun w =>
    s.pend.any (fun p => p.wid == w && isForeign p) ||
    (s.wv w).twin.any (fun x => s.vres.any (fun r => r.core == s.focus.core && r.writes.any (fun g => tgtWid g.1 == x.tag * 32 + x.widx))))

/-- A twin-window write of the group that a release fence holds (09 R247). -/
def twinHeld (s : State) (u : Uses) : Bool :=
  u.dsts.any (fun d => match d.1 with | .y _ => true | _ => false) && s.grp.any (fun t => (s.th t).fencePair && s.fenced t)

/-- R285: commands a thread pushed since its region entry that are still in flight. -/
def commandsOpen (s : State) (tid : Nat) : Bool :=
  (s.co (s.coreOf tid)).cmds.any (fun c => c.tid == tid && c.rcount == (s.th tid).rcount) ||
  (s.wv (widOf tid)).eqHdr.any (fun e => e.2.any (fun r => r.tid == tid && r.rcount == (s.th tid).rcount))

/-- The waits of 02 R48, 10 R262, R285, 14 R390 and 06 R145: the group is not ready. -/
def notReady (s : State) (u : Uses) : Bool :=
  s.waitsVar ((s.readTgts u).map Prod.fst) || s.waitsVar ((s.writeTgts u).map Prod.fst) || s.queueWaits u ||
  (u.memPort && (s.msys.l2Changing.isSome || s.grp.any (fun t => (s.th t).memHold.isSome || s.fenced t))) ||
  (u.rel && s.storing) || (u.pairRel && s.twinPending) || s.twinHeld u || (u.region && (s.xs u.h).any s.commandsOpen) ||
  (u.unit == 1 && decide (s.now < (s.co s.focus.core).sfuAt)) ||
  (u.unit == 2 && decide (s.now < (s.co s.focus.core).rndAt))

/-- The word at a PC as a record word: its low 32 bits (log 51). -/
def pcWord (s : State) : Word := addrLo s.focus.pc

/-- The record of a twin-gone trap (11 Table 11.9): the PC, the `y` register or slot, the cause, and the identity that the wave's
window is mapped to, if it is. -/
def twinWords (s : State) (wid n cause : Nat) : List Word :=
  [s.pcWord, BitVec.ofNat 32 n, BitVec.ofNat 32 cause] ++ (match (s.wv wid).twin with
    | some m => [BitVec.ofNat 32 m.lid, BitVec.ofNat 32 m.team, BitVec.ofNat 32 m.widx]
    | none => [])

/-- Illegal encoding with the word recorded (02 R41): every thread of the group takes it. -/
def illegalWord (s : State) : TrapInfo := { code := 0x01, mask := laneMask s.grp, words := s.focus.word }

/-- Threads of the group's waves that 04 R95 does not find live with a true guard. -/
def notFull (s : State) (h : Hdr) : List Nat :=
  (s.wavesF.flatMap tidsOf).filter (fun t => !((s.th t).live && s.grp.contains t && (s.pred t h.guard ^^ h.gneg)))

/-- The checks before an instruction issues: decode traps first (02 R41), then 04 R95, the pair point, the waits, the
undersized stall and the twin window (14 R378). `EXIT`, `COLL` and `MSYNC` raise no undersized stall (log 59). -/
def gate (s : State) (u : Uses) : Gate :=
  if s.overAlloc u then .trap s.illegalWord
  else if u.all32 && !s.fullWave u.h then
    .trap { code := 0x07, mask := laneMask (s.notFull u.h)
            words := [s.pcWord, laneMask (s.grp.filter (fun t => (s.th t).live)), laneMask (s.xs u.h)] }
  else if u.collective && s.launchF.paired && s.wavesF.any (fun w => !(s.wv w).pairGo) then .park .pair
  else match s.lineAway u with
  | some (w, r) => .park (.refill w r)
  | none =>
    if s.notReady u then .hold
    else match s.undersized u with
    | some r => .trap { code := 0x09, mask := laneMask (s.undersizedLanes u), info := BitVec.ofNat 32 r }
    | none => match s.twinGone u with
      | some (c, y, w) => .trap { code := 0x1A, sub := c, mask := laneMask (s.twinLanes u c), words := s.twinWords w y c }
      | none => match s.twinAway u with
        | some (w, r) => .park (.refill w r)
        | none => .go

/-! ## Leaving the machine after an issue -/

/-- An entry of a wave's block-underflow buffer as its next conversion reads it: conversions read and write the buffer in
program order, so a write that has not committed yet counts (03 R79). -/
def ufEntry (s : State) (wid n : Nat) : Nat :=
  let vs := (s.pend.filter (fun w => w.tgt == .u wid n)).map PWrite.val ++
    s.vres.flatMap (fun r => (r.writes.filter (fun w => w.1 == .u wid n)).map Prod.snd)
  match vs.getLast? with
  | some v => v.toNat
  | none => ((s.wv wid).ufbuf.getD n 0).toNat

/-- The group's threads go on to the next instruction, `len` bytes further, held by the stall count (02 R47). -/
def advance (s : State) (h : Hdr) (len : Nat) : State :=
  s.modThreads s.grp (fun _ t => { t with
    pc := (t.pc + len) % 2 ^ 52, readyAt := s.now + max h.stall.toNat 1, lastIssue := s.now, inTable := false })

/-- The group has issued: it leaves the formed groups, its port is taken for this clk, and a collective group's
convergence timers and pair points are reset (04 R90, R96). -/
def issued (s : State) (u : Uses) : State :=
  let s1 := (s.leave.modCore s.focus.core (fun c =>
    if u.unit = 1 then { c with sfuAt := c.clk + 4 } else if u.unit = 2 then { c with rndAt := c.clk + 4 } else c)).takePort u.memPort
  let s2 := if u.collective then s.wavesF.foldl (fun s w => s.modWave w (fun x => { x with pairGo := false })) (s1.resetTimers s.wavesF)
    else s1
  s2.trace u.memPort 0

/-- Pop the words an `e` source takes, one for each wave with an executing lane (10 R262). -/
def popsOf (s : State) (u : Uses) : Pops :=
  match u.popQ with
  | some q => (s.wavesX u.h).map (fun w => (w * 8 + q, ((s.wv w).er.getD q []).headD 0))
  | none => []
def dropPops (s : State) (u : Uses) : State :=
  match u.popQ with
  | some q => (s.wavesX u.h).foldl (fun s w => s.modWave w (fun x => { x with er := x.er.set q ((x.er.getD q []).drop 1) })) s
  | none => s

/-- The wave of the issuing group that a write is of: one to a twin's register is of the wave whose window reaches it. -/
def writerOf (s : State) (g : Tgt) : Nat :=
  if s.wavesF.contains (tgtWid g) then tgtWid g
  else (s.wavesF.find? (fun w => (s.wv w).twin.any (fun x => x.tag * 32 + x.widx == tgtWid g))).getD (tgtWid g)

/-- Schedule fixed-latency writes of the issuing core. -/
def sched (s : State) (lat : Nat) (ws : List (Tgt × Word)) : State :=
  { s with pend := s.pend ++ ws.map (fun w => {
      core := s.focus.core, due := s.now + lat, tgt := w.1, val := w.2, wid := s.writerOf w.1, issue := s.now }) }

/-- Hand out a pending variable-latency result (02 R48) with its `WAITSB` class. -/
def sendVar (s : State) (cls : Nat) (ws : List (Tgt × Word)) : State :=
  if ws.isEmpty then s
  else
    let id := (s.co s.focus.core).nextId
    { (s.modCore s.focus.core (fun c => { c with nextId := c.nextId + 1 })) with
      vres := s.vres ++ [{ core := s.focus.core, id := id, cls := cls, writes := ws }] }

/-- The register writes of a destination in executing threads: `v` and `y` in each lane, `s` by the lowest lane of each
wave (02 Table 2.4). -/
def dstWrites (s : State) (d : Opnd) (outs : List (Nat × List Word)) : List (Tgt × Word) :=
  match d with
  | .v n => outs.flatMap (fun (t, ws) => ws.zipIdx.map (fun (w, i) => (.v t (n.toNat + i), w)))
  | .s n =>
    (outs.filter (fun (t, _) => !(outs.any (fun (t', _) => widOf t' == widOf t && decide (laneOf t' < laneOf t))))).flatMap
      (fun (t, ws) => ws.zipIdx.map (fun (w, i) => (.s (widOf t) (n.toNat + i), w)))
  | .y m => outs.flatMap (fun (t, ws) => match s.twinReg t m.toNat with
      | some (t', r) => ws.take 1 |>.map (fun w => (.v t' r, w))
      | none => [])
  | _ => []

/-- Push an `e` destination: the lowest executing lane of each wave supplies the word (10 R262). -/
def dstPush (s : State) (d : Opnd) (outs : List (Nat × List Word)) : State :=
  match d with
  | .e q => (outs.filter (fun (t, _) => !(outs.any (fun (t', _) => widOf t' == widOf t && decide (laneOf t' < laneOf t))))).foldl
      (fun s (t, ws) => s.pushWords (widOf t) q.toNat t (ws.take 1)) s
  | _ => s

end State

/-! ## The arithmetic mould -/

/-- What an arithmetic instruction produces in a lane: destination words (low first), predicates, conditions (06 R147). -/
structure LaneOut where
  ws : List Word := []
  ps : List (Pred × Bool) := []
  conds : Nat := 0
  deriving DecidableEq, Repr

namespace State

/-- The register and predicate writes of lane results. -/
def outWrites (s : State) (d : Option Opnd) (outs : List (Nat × LaneOut)) : List (Tgt × Word) :=
  (match d with
    | some d => s.dstWrites d (outs.map (fun o => (o.1, o.2.ws)))
    | none => []) ++
  outs.flatMap (fun o => (o.2.ps.filter (fun p => p.1 != 0)).map (fun p => (.p o.1 p.1.toNat, if p.2 then 1 else 0)))

/-- The arithmetic trap of lane results, if a condition that is enabled arose (06 R147, 14 Table 14.3). -/
def arithTrap (s : State) (outs : List (Nat × LaneOut)) : Option TrapInfo :=
  let en := s.launchF.atEn
  let bad := outs.filter (fun (o : Nat × LaneOut) => decide (o.2.conds &&& en ≠ 0))
  if !bad.isEmpty then
    let all := outs.foldl (fun a (o : Nat × LaneOut) => a ||| o.2.conds) 0
    some { code := 0x20, sub := all, mask := laneMask (bad.map Prod.fst),
           words := ((List.range 5).filter (bitAt all)).map (fun k =>
             laneMask ((outs.filter (fun (o : Nat × LaneOut) => bitAt o.2.conds k)).map Prod.fst)) }
  else none

/-- Hold, park or trap the group as its gate says; `go` is what issues. -/
def byGate (s : State) (u : Uses) (go : State → Host.Outcome State Fault Refusal) : Host.Outcome State Fault Refusal :=
  match s.gate u with
  | .go => go s
  | .hold => .next s.holdGroup
  | .park p => .next (s.leave.modThreads s.grp (fun _ t => { t with park := p }))
  | .trap t => .next (s.raise u.h u.len t)

/-- Results of an arithmetic instruction on their way: they commit at its latency. A result that depends on a popped word has
variable latency, in the word's class (10 R262). -/
def results (s : State) (u : Uses) (ws : List (Tgt × Word)) : State :=
  match u.popQ with
  | some q => s.sendVar (if q = 6 then 3 else 1) ws
  | none => s.sched u.latency ws

/-- The state after an arithmetic instruction of the given lane results: queues, results, next PCs. `more` are writes that commit
with its results. -/
def aluDoneWith (s : State) (u : Uses) (d : Option Opnd) (outs : List (Nat × LaneOut)) (more : List (Tgt × Word)) : State :=
  let s1 := (s.issued u).dropPops u
  let s2 := match d with
    | some d => s1.dstPush d (outs.map (fun (o : Nat × LaneOut) => (o.1, o.2.ws)))
    | none => s1
  (s2.results u (s.outWrites d outs ++ more)).advance u.h u.len
def aluDone (s : State) (u : Uses) (d : Option Opnd) (outs : List (Nat × LaneOut)) : State := s.aluDoneWith u d outs []

/-- The lane results of an arithmetic instruction: every lane reads what stood before (00 R10). -/
def laneOuts (s : State) (u : Uses) (f : State → Pops → Nat → LaneOut) : List (Nat × LaneOut) :=
  (s.xs u.h).map (fun t => (t, f s (s.popsOf u) t))

/-- An arithmetic-port instruction computed lane by lane (05, 06): its gate, its lane results, its arithmetic trap. -/
def alu (u : Uses) (d : Option Opnd) (f : State → Pops → Nat → LaneOut) (s : State) : Host.Outcome State Fault Refusal :=
  s.byGate u (fun s =>
    let outs := s.laneOuts u f
    match s.arithTrap outs with
    | some t => .next (s.raise u.h u.len t)
    | none => .next (s.aluDone u d outs))

end State

end Sys2Proof.Machine
end

