-- ==== Sys2Proof/Machine/Uses.lean ====
section
/-!
DEFINITION. Sys2Proof/Machine/Uses.lean: what each instruction form uses, for the checks before its issue: its port (04
Table 4.1), whether it is collective (04 R94, R95), its registers, its latency (02 Table 2.8) and the words it pushes.
An `R` in a comment is a rule of spec/.
-/

namespace Sys2Proof.Machine

open Sys2Proof

/-- A register operand read as it stands. -/
def srcOf (o : Opnd) : Src := ⟨o, .ident⟩
/-- Sources of a source B over `n` registers. -/
def usesB (b : SrcB) (n : Nat) : List (Src × Nat) := (srcsB b).map (fun a => (a, n))

/-- An arithmetic-port instruction. -/
def usesArith (h : Hdr) (lat : Nat) (dsts : List (Opnd × Nat)) (srcs : List (Src × Nat))
    (pdsts psrcs : List Pred := []) : Uses :=
  { h := h, len := h.len.bytes, srcs := srcs, dsts := dsts, pdsts := pdsts, psrcs := psrcs, lat := lat }

/-- A collective instruction of the cross-lane class (07 R172, R173). -/
def usesCross (h : Hdr) (dsts : List (Opnd × Nat)) (srcs : List (Src × Nat)) (pdsts psrcs : List Pred := []) : Uses :=
  { usesArith h 6 dsts srcs pdsts psrcs with coll := true, allLanes := true }

/-- A memory/engine-port instruction; its results have variable latency. -/
def usesPort (h : Hdr) (dsts : List (Opnd × Nat)) (srcs : List (Src × Nat)) (pdsts : List Pred := [])
    (pushes : List (Nat × Nat) := []) : Uses :=
  { h := h, len := h.len.bytes, srcs := srcs, dsts := dsts, pdsts := pdsts, memPort := true, lat := 0, pushes := pushes }

/-- A collective instruction of that port. -/
def usesColl (h : Hdr) (dsts : List (Opnd × Nat) := []) (srcs : List (Src × Nat) := []) (pdsts : List Pred := [])
    (pushes : List (Nat × Nat) := []) : Uses := { usesPort h dsts srcs pdsts pushes with coll := true }

/-- An array instruction: collective with all 32 lanes (04 R95, 11 R316, 12 R339). -/
def usesArray (h : Hdr) (dsts : List (Opnd × Nat) := []) (srcs : List (Src × Nat) := []) (pdsts : List Pred := []) : Uses :=
  { usesColl h dsts srcs pdsts with all32 := true }

/-- The registers of a memory operand. -/
def usesMem (m : MemOp) : List (Src × Nat) := [(m.base, 2), (m.index, if m.idx64 then 2 else 1)]

/-- Registers of a memory width (08 R204): one up to 4 bytes, then one each 4 bytes. -/
def regsOfW (w : Nat) : Nat := 2 ^ (w - 2)

/-- The optional `s` pair of a block scale. -/
def usesScale (c : Opnd) : List (Src × Nat) := if c.isS then [(srcOf c, 2)] else []

/-- Words of a pushed command (10 R265, R290): header, two barrier words when a barrier is named, `nw` body words. -/
def cmdWords (bb : Opnd) (nw : Nat) : Nat := 1 + (if bb.isS then 2 else 0) + nw

/-- A pair-word slot as an instruction of its own (02 R52). -/
def slotUses (stall : BitVec 4) (x : PSlot) : Uses :=
  usesArith ⟨.w128, stall, x.guard, x.gneg⟩ (if x.sop.toNat ≤ 9 || (0x20 ≤ x.sop.toNat && x.sop.toNat ≤ 0x25) then 4 else 2)
    (if x.isOp then [(x.sd, 1)] else []) (x.reads.map (fun o => (srcOf o, 1)))

def usesControl : Instr → Uses
  | .bra h _ | .call h _ | .ret h | .nop h | .stall h _ | .yield h _ => usesArith h 2 [] []
  | .exit h => { usesArith h 2 [] [] with noStall := true }
  | .region h => { usesArith h 2 [] [] with region := true }
  | .coll h => { usesArith h 2 [] [] with coll := true, noStall := true }
  | .bri h a | .calli h a => usesArith h 2 [] [(a, 2)]
  | .marm h m _ => usesPort h [] (usesMem m)
  | .mwaitT h _ | .waitsb h _ => usesPort h [] []
  | .mwaitP h pd _ => { usesPort h [] [] [pd] with lat := 2 }
  | i => usesArith (match i with | .bra h _ => h | _ => ⟨.w64, 0, 0, false⟩) 2 [] []

def usesInteger : Instr → Uses
  | .iadd h d a b _ _ co | .isub h d a b _ _ co => usesArith h 2 [(d, 1)] ((a, 1) :: usesB b 1) [co]
  | .iaddc h d a b pi co => usesArith h 2 [(d, 1)] ((a, 1) :: usesB b 1) [co] [pi]
  | .imul h d a b _ _ | .imulh h d a b _ | .imin h d a b _ | .imax h d a b _ | .and h d a b | .or h d a b | .xor h d a b
  | .andn h d a b | .shl h d a b _ | .shr h d a b _ | .sar h d a b _ | .rotl h d a b | .bfe h d a b _ =>
    usesArith h 2 [(d, 1)] ((a, 1) :: usesB b 1)
  | .imad h d a b c _ _ | .shfL h d a b c | .shfR h d a b c | .bfi h d a b c | .prmb h d a b c =>
    usesArith h 2 [(d, 1)] ((a, 1) :: (c, 1) :: usesB b 1)
  | .imadw h d a b c _ => usesArith h 2 [(d, 2)] ((a, 1) :: (c, 2) :: usesB b 1)
  | .iadd64 h d a b co | .isub64 h d a b co => usesArith h 2 [(d, 2)] ((a, 2) :: usesB b 2) [co]
  | .iabs h d a | .ineg h d a | .not h d a | .popc h d a | .clz h d a | .ctz h d a | .brev h d a | .mov h d a =>
    usesArith h 2 [(d, 1)] [(a, 1)]
  | .isetp h pd a b pc _ _ _ => usesArith h 2 [] ((a, 1) :: usesB b 1) [pd] [pc]
  | .isetp64 h pd a b pc _ _ _ => usesArith h 2 [] ((a, 2) :: usesB b 2) [pd] [pc]
  | .isel h d a b pc _ => usesArith h 2 [(d, 1)] [(a, 1), (b, 1)] [] [pc]
  | .lea h d a b _ _ _ idx64 => usesArith h 2 [(d, 2)] [(a, 2), (b, if idx64 then 2 else 1)]
  | .mov64 h d a => usesArith h 2 [(d, 2)] [(a, 2)]
  | .movi h d _ => usesArith h 2 [(d, 1)] []
  | .movi64 h d _ => usesArith h 2 [(d, 2)] []
  | .plop h pd pa pb pc _ => usesArith h 2 [] [] [pd] [pa, pb, pc]
  | .pmovTo h d => usesArith h 2 [(d, 1)] [] [] ((List.range 16).map (BitVec.ofNat 4))
  | .pmovFrom h a b => usesArith h 2 [] [(a, 1), (b, 1)]
  | .getsr h d _ => usesArith h 2 [(d, 1)] []
  | i => usesControl i

def usesFloat : Instr → Uses
  | .fadd h d a b _ _ | .fsub h d a b _ _ | .fmul h d a b _ _ | .fmin h d a b _ | .fmax h d a b _
  | .fadd2 h d a b _ _ _ | .fmul2 h d a b _ _ _ => usesArith h 4 [(d, 1)] ((a, 1) :: usesB b 1)
  | .ffma h d a b c _ _ | .ffma2 h d a b c _ _ _ => usesArith h 4 [(d, 1)] ((a, 1) :: (c, 1) :: usesB b 1)
  | .fsetp h pd a b pc _ _ _ _ => usesArith h 4 [] ((a, 1) :: usesB b 1) [pd] [pc]
  | .fclass h pd a _ => usesArith h 4 [] [(a, 1)] [pd]
  | .frnd h d a _ _ | .frndX h d a _ _ => usesArith h 4 [(d, 1)] [(a, 1)]
  | .fscalb h d a b _ _ | .fdscl h d a b _ _ => usesArith h 4 [(d, 1)] [(a, 1), (b, 1)]
  | .fdot4 h kind d a b c _ _ =>
    usesArith h 4 [(d, 1)] [(a, if kind = 3 then 1 else 2), (b, if kind = 3 then 1 else 2), (c, 1)]
  | .idot4 h _ d a b c _ => usesArith h 4 [(d, 1)] [(a, 1), (b, 1), (c, 1)]
  | .frcp h d a _ _ | .frsq h d a _ | .fsqrt h d a _ _ | .fexp2 h d a _ | .flog2 h d a _ | .fsin h d a _ | .fcos h d a _
  | .ftanh h d a _ => { usesArith h 8 [(d, 1)] [(a, 1)] with unit := 1 }
  | .cvt h d a _ dt sr _ _ _ => usesArith h 4 [(d, typeRegs dt)] [(a, typeRegs sr)]
  | .cvtx h pd d a _ dt sr _ _ _ => usesArith h 4 [(d, typeRegs dt)] [(a, typeRegs sr)] [pd]
  | .cvtp h d a b bytes _ _ _ _ => usesArith h 4 [(d, 1)] [(a, if bytes then 2 else 1), (b, if bytes then 2 else 1)]
  | .cvts h d a b c _ _ _ _ | .cvtsAuto h d a b c _ _ _ _ =>
    { usesArith h 4 [(d, 1)] ([(a, 1), (srcOf b, 1)] ++ (if c.isS then [(srcOf c, 1)] else [])) with
      coll := true, allLanes := true }
  | .cvtsDec h d a c _ _ _ _ => usesArith h 4 [(d, 1)] ((a, 1) :: (if c.isS then [(srcOf c, 1)] else []))
  | .rnd h d => { usesArith h 8 [(d, 1)] [] with unit := 2 }
  | i => usesInteger i

def usesCrossLane : Instr → Uses
  | .shflIdx h d a b _ _ | .shflUp h d a b _ _ | .shflDown h d a b _ _ | .shflXor h d a b _ _ =>
    usesCross h [(d, 1)] [(a, 1), (b, 1)]
  | .voteAll h pd pa _ | .voteAny h pd pa _ | .voteUni h pd pa _ => usesCross h [] [] [pd] [pa]
  | .ballot h d pa _ => usesCross h [(d, 1)] [] [] [pa]
  | .ballotExec h d | .ballotLive h d | .electIdx h d => usesCross h [(d, 1)] []
  | .reduce h d a _ _ _ | .scan h d a _ _ _ | .scanExcl h d a _ _ _ => usesCross h [(d, 1)] [(a, 1)]
  | .matchLanes h kind d a => usesCross h [(d, 1)] [(a, if kind = 2 then 2 else 1)]
  | .compress h d a pm _ _ | .expand h d a pm _ _ => usesCross h [(d, 1)] [(a, 1)] [] [pm]
  | .elect h pd => usesCross h [] [] [pd]
  | i => usesFloat i

/-- The orders `.rel` and `.ar` of an atomic (08 Table 8.6), and `.acq` and `.ar`. -/
def releases (ord : BitVec 2) : Bool := ord == 2 || ord == 3
def acquires (ord : BitVec 2) : Bool := ord == 1 || ord == 3

/-- Does a scope contain the twin core (09 Table 9.1)? -/
def pairScope (scope : Nat) : Bool := scope == 2 || scope == 5 || scope == 6

/-- The release and the acquire of an atomic. -/
def usesOrd (u : Uses) (scope : BitVec 3) (ord : BitVec 2) : Uses :=
  { u with
    rel := releases ord
    pairRel := releases ord && pairScope scope.toNat
    acq := if acquires ord then some scope.toNat else none }

def usesMemory : Instr → Uses
  | .ld h d m w _ _ => usesPort h [(d, if w = 3 then 2 else 1)] (usesMem m)
  | .st h c m w _ => usesPort h [] ((c, if w = 3 then 2 else 1) :: usesMem m)
  | .ldv h d m w _ => usesPort h [(d, regsOfW w.toNat)] (usesMem m)
  | .stv h c m w _ => usesPort h [] ((c, regsOfW w.toNat) :: usesMem m)
  | .ldver h d m _ => usesPort h [(d, 2)] (usesMem m)
  | .atom h d base _ _ c aop scope ord w =>
    usesOrd (usesPort h [(d, regsOfW w.toNat)] [(c, if aop = 9 then 2 * regsOfW w.toNat else regsOfW w.toNat), (base, 2)]) scope ord
  | .atomf h d base _ _ c _ scope ord => usesOrd (usesPort h [(d, 1)] [(c, 1), (base, 2)]) scope ord
  | .red h _ base _ _ c _ scope ord w => usesOrd (usesPort h [] [(c, regsOfW w.toNat), (base, 2)]) scope ord
  | .fenceAcq h _ => usesPort h [] []
  | .fenceRel h scope | .fenceAr h scope | .fenceSc h scope => { usesPort h [] [] with pairRel := pairScope scope.toNat }
  | .ptest h pd m => { usesPort h [] (usesMem m) [pd] with lat := 8 }
  | .claim h d m c => usesPort h [(d, 1)] ((c, 1) :: usesMem m)
  | .regclm h _ | .regrel h _ => usesColl h
  | .cctlWb h m _ _ | .cctlInv h m _ _ | .cctlWbinv h m _ _ | .cctlRet h m _ _ | .pref h m _ _ => usesPort h [] (usesMem m)
  | i => usesCrossLane i

def usesEngine : Instr → Uses
  | .qpush h e a => usesPort h [] [(a, 1)] [] [(e.toNat, 1)]
  | .qpop h d e => usesPort h [(d, 1)] [(srcOf (.e e), 1)]
  | .qtry h d _ pd => usesPort h [(d, 1)] [] [pd]
  | .copy h bb src dst size _ =>
    usesPort h [] [(srcOf bb, 2), (srcOf src, 2), (srcOf dst, 2), (srcOf size, 1)] [] [(0, cmdWords bb 5)]
  | .copyFill h bb pat dst size _ =>
    usesPort h [] [(srcOf bb, 2), (srcOf pat, 1), (srcOf dst, 2), (srcOf size, 1)] [] [(0, cmdWords bb 4)]
  | .gather h bb src idx dst count _ _ | .scatter h bb src idx dst count _ _ =>
    usesPort h [] [(srcOf bb, 2), (srcOf src, 2), (srcOf idx, 2), (srcOf dst, 2), (srcOf count, 1)] [] [(1, cmdWords bb 8)]
  | .collr h bb src dst group rank _ | .collg h bb src dst group rank _ =>
    usesPort h [] [(srcOf bb, 2), (srcOf src, 2), (srcOf dst, 2), (srcOf group, 2), (srcOf rank, 1)] [] [(2, cmdWords bb 7)]
  | .chunk h d base _ => usesPort h [(d, 4)] [(srcOf base, 2)]
  | .bar h _ | .bara h _ | .sqclose h _ => { usesPort h [] [] with rel := true, pairRel := true }
  | .barw h _ => usesPort h [] []
  | .bbinit h base _ c | .bbadd h base _ c => usesPort h [] [(srcOf base, 2), (srcOf c, 2)]
  | .bbwait h base _ => usesPort h [] [(srcOf base, 2)]
  | .bbwaitP h pd base _ => { usesPort h [] [(srcOf base, 2)] [pd] with lat := 2 }
  | .sqpush h _ a =>
    if h.len = .w64 then { usesColl h [] [(srcOf a, 2)] with allLanes := true, rel := true, pairRel := true }
    else { usesPort h [] [(srcOf a, 2)] with rel := true, pairRel := true }
  | .sqpop h _ a pd => if h.len = .w64 then usesColl h [(a, 2)] [] [pd] else usesPort h [] [(srcOf a, 2)] [pd]
  | i => usesMemory i

def usesMatrix : Instr → Uses
  | .mma h _ a b c _ _ => usesArray h [] ([(srcOf a, 2), (srcOf b, 2)] ++ usesScale c)
  | .mmaf h kind _ a b c _ =>
    usesArray h [] ((if kind = 1 then [(srcOf a, 2)] else []) ++ (if kind = 0 then [(srcOf b, 2)] else []) ++ usesScale c)
  | .mzero h _ tid => usesArray h [] [(srcOf tid, 1)]
  | .mld h _ base tid c _ _ => usesArray h [] ([(srcOf base, 2), (srcOf tid, 1)] ++ usesScale c)
  | .mst h _ base c _ _ _ _ | .mstAuto h _ base c _ _ _ _ => usesArray h [] ((srcOf base, 2) :: usesScale c)
  | .mcvt h _ _ _ | .mtrn h _ _ | .madd h _ _ _ | .maddI h _ _ _ => usesArray h
  | .mscl h _ _ f => usesArray h [] (match f with | .coef _ => [] | .scalar o => [(srcOf o, 1)])
  | .mrow h d _ row => usesArray h [(d, 2)] [(srcOf row, 1)]
  | .msync h => { usesColl h with noStall := true }
  | .mlicAcq h | .mlicRel h | .mlicGive h | .twinOff h => usesColl h
  | .mlicTry h pd => { usesColl h [] [] [pd] with lat := 2 }
  | .twin h slot _ => { usesColl h [] (match slot with | .lit _ => [] | .reg n => [(srcOf (.s n), 1)]) with maps := true }
  | .txch h d y pat => { usesPort h [(.v d, 1), (.y y, 1)] [(srcOf (.v d), 1), (⟨.y y, pat⟩, 1)] with lat := 2, ownLat := true }
  | .mpoly h _ _ _ _ => usesArray h
  | .miter h _ _ _ limit pd _ _ _ =>
    usesArray h [] (match limit with | .lit _ => [] | .reg n => [(srcOf (.s n), 1)]) [pd]
  | .mres h _ d _ _ _ _ => usesArray h [(d, 1)]
  | .mcoef h _ base _ _ => usesArray h [] [(srcOf base, 2)]
  | .mcoefS h _ a => usesArray h [] [(srcOf a, 1)]
  | .mls h d => usesArray h [(d, 4)]
  | .mlsw h a => usesArray h [] [(srcOf a, 4)]
  | i => usesEngine i

def usesWitness : Instr → Uses
  | .wbegin h _ cnt => usesPort h [] (match cnt with | .lit _ => [] | .reg n => [(srcOf (.s n), 1)])
  | .wemit h a => usesPort h [] [(a, 1)]
  | .wend h | .wdigEmit h | .wdigClr h | .rlogOn h | .rlogOff h => usesPort h [] []
  | .wendR h => usesPort h [] [] [] [(6, 1)]
  | .wdigAdd h a => usesColl h [] [(a, 1)]
  | .stgseal h d => usesColl h (match d with | some n => [(.s n, 1)] | none => [])
  | .chkerr h d | .chkerrClr h d => usesPort h [(d, 1)] []
  | .relreq h d m c => usesPort h [(d, 1)] ((c, 1) :: usesMem m)
  | .vstat h d m => usesPort h [(d, 1)] (usesMem m)
  | i => usesMatrix i

/-- What an instruction form uses. An event uses nothing. -/
def usesOf : Instr → Uses
  | .trap h _ _ | .rftNext h | .rftRegion h | .rftRetry h | .brk h _ | .snap h | .tlbinvCtx h | .quiesce h =>
    usesPort h [] []
  | .setsr h _ b => { usesPort h [] (usesB b 1) with lat := 2 }
  | .tlbinvPage h base _ => usesPort h [] [(srcOf base, 2)]
  | .tlbinvRange h base _ c => usesPort h [] [(srcOf base, 2), (srcOf c, 1)]
  | .pairWord stall s0 s1 =>
    { h := ⟨.w128, stall, 0, false⟩, len := 16, psrcs := [s0.guard, s1.guard], lat := 4,
      srcs := (s0.reads ++ s1.reads).map (fun o => (srcOf o, 1)),
      dsts := (if s0.isOp then [(s0.sd, 1)] else []) ++ (if s1.isOp then [(s1.sd, 1)] else []) }
  | i => usesWitness i

end Sys2Proof.Machine
end

