-- ==== Sys2Proof/Machine/Integer.lean ====
section
/-!
DEFINITION. Sys2Proof/Machine/Integer.lean: the integer, address and scalar instructions (05).
-/

namespace Sys2Proof.Machine

open Sys2Proof

/-! ## Results on words -/

/-- A lane result of one word, of two words (low first), or of predicates. -/
def out1 (w : Word) : LaneOut := { ws := [w] }
def out2 (x : DWord) : LaneOut := { ws := [x.setWidth 32, (x >>> 32).setWidth 32] }
def outP (p : Pred) (b : Bool) : LaneOut := { ps := [(p, b)] }

/-- A sum or difference of width 32 with its carry predicate (R130). -/
def addResult (exact sExact : Int) (sat zx : Bool) (co : Pred) : LaneOut :=
  { ws := [sat32 sat zx (if sat && !zx then sExact else exact)], ps := [(co, carryOut 32 exact)] }

/-- Shifts of R133: the amount is the whole word, or its value modulo 32. -/
def shAmount (wrap : Bool) (b : Word) : Nat := if wrap then b.toNat % 32 else b.toNat
def shlResult (a : Word) (n : Nat) : Word := if 32 ≤ n then 0 else a <<< n
def shrResult (a : Word) (n : Nat) : Word := if 32 ≤ n then 0 else a >>> n
def sarResult (a : Word) (n : Nat) : Word := a.sshiftRight (min n 32)

/-- `SHF` (R134): the 64-bit value and the amount. -/
def shfValue (a c : Word) : DWord := c ++ a

/-- `BFE` and `BFI` (R135). -/
def bfeResult (a b : Word) (zx : Bool) : Word :=
  let pos := b.toNat % 256
  let len := min (b.toNat / 256 % 256) 32
  if len = 0 then 0
  else
    let full : Int := intOf zx a
    let f := (full / 2 ^ pos) % 2 ^ len
    if !zx && decide ((2 : Int) ^ (len - 1) ≤ f) then BitVec.ofInt 32 (f - 2 ^ len) else BitVec.ofInt 32 f
def bfiResult (a b c : Word) : Word :=
  let pos := b.toNat % 256
  let len := min (b.toNat / 256 % 256) 32
  if 32 ≤ pos || len = 0 then c
  else
    let m := BitVec.ofNat 32 ((2 ^ len - 1) * 2 ^ pos)
    (c &&& ~~~ m) ||| (BitVec.ofNat 32 (a.toNat * 2 ^ pos) &&& m)

/-- Counts and reversal (R136). -/
def popcResult (a : Word) : Word := BitVec.ofNat 32 ((List.range 32).filter (fun i => a.getLsbD i)).length
def clzResult (a : Word) : Word := BitVec.ofNat 32 ((List.range 32).takeWhile (fun i => !a.getLsbD (31 - i))).length
def ctzResult (a : Word) : Word := BitVec.ofNat 32 ((List.range 32).takeWhile (fun i => !a.getLsbD i)).length
def brevResult (a : Word) : Word :=
  BitVec.ofNat 32 (((List.range 32).filter (fun i => a.getLsbD i)).map (fun i => 2 ^ (31 - i))).sum

/-- `PRMB` (R137). -/
def prmbByte (a c : Word) (ctl : Nat) : Nat :=
  let pool := c ++ a
  let x := pool.toNat / 2 ^ (8 * (ctl % 8)) % 256
  let y := match ctl / 8 % 4 with
    | 0 => x
    | 1 => 0
    | 2 => if 128 ≤ x then 255 else 0
    | _ => if x ≠ 0 then 255 else 0
  if bitAt ctl 5 then 255 - y else y
def prmbResult (a b c : Word) : Word :=
  BitVec.ofNat 32 (((List.range 4).map (fun i => prmbByte a c (b.toNat / 2 ^ (8 * i) % 256) * 2 ^ (8 * i))).sum)

/-- Comparison results folded with a predicate (R138). -/
def cmpOut (s : State) (t : Nat) (pd pc : Pred) (r : Bool) (comb : BitVec 2) (cneg : Bool) : LaneOut :=
  outP pd (combine comb.toNat r (s.pred t pc ^^ cneg))

/-! ## Special registers (R125, R126; 14 Table 14.2) -/

/-- Bits [31:0] of the wave's convergence timer. -/
def convTimer (s : State) (wid : Nat) : Nat :=
  let w := s.wv wid
  w.timer + (match w.timerOn with | some c => s.clkOf w.core - c | none => 0)

/-- A special register of a thread. -/
def State.special (s : State) (tid n : Nat) : Word :=
  let t := s.th tid
  let wid := widOf tid
  let w := s.wv wid
  let team := s.tm (tagOf tid)
  let l := s.launchOf tid
  let r := t.trap
  let clk := s.clkOf w.core
  match n with
  | 0x00 => BitVec.ofNat 32 clk
  | 0x01 => t.clkhi
  | 0x02 => BitVec.ofNat 32 (team.index % l.gridX)
  | 0x03 => BitVec.ofNat 32 (team.index / l.gridX % l.gridY)
  | 0x04 => BitVec.ofNat 32 (team.index / l.gridX / l.gridY)
  | 0x05 => BitVec.ofNat 32 l.gridX
  | 0x06 => BitVec.ofNat 32 l.gridY
  | 0x07 => BitVec.ofNat 32 l.gridZ
  | 0x08 => BitVec.ofNat 32 (l.pers.toNat * 16 + l.stageOf team.index)
  | 0x09 => BitVec.ofNat 32 l.numWaves
  | 0x0A => BitVec.ofNat 32 w.regs
  | 0x0B => BitVec.ofNat 32 (tagOf tid % 2 ^ 16)
  | 0x0C => BitVec.ofNat 32 (s.pkg * 2 ^ 16 + clusterOf w.core * 2 ^ 11 + indexOf w.core * 2 ^ 4)
  | 0x0D => addrLo State.argWin
  | 0x0E => addrHi State.argWin
  | 0x0F => BitVec.ofNat 32 l.argSize
  | 0x10 => BitVec.ofNat 32 (t.spilled * 2 ^ 8 + t.stack.length)
  | 0x11 => BitVec.ofNat 32 (t.rsptr / 8 * 8)
  | 0x12 => addrHi t.rsptr
  | 0x13 => addrLo t.rpc
  | 0x14 => BitVec.ofNat 32 (t.rvalid.toNat * 2 ^ 20 + t.rpc / 2 ^ 32)
  | 0x15 => BitVec.ofNat 32 t.rdepth
  | 0x16 => t.rcount
  | 0x17 => w.rgncnt
  | 0x18 => (s.co w.core).sbmis
  | 0x19 => BitVec.ofNat 32 (convTimer s wid)
  | 0x1A => w.rci.getD (laneOf tid) 0
  | 0x1B => addrLo (s.tls tid)
  | 0x1C => addrHi (s.tls tid)
  | 0x1D => BitVec.ofNat 32 team.lid
  | 0x20 => r.cause
  | 0x21 => addrLo r.pc
  | 0x22 => addrHi r.pc
  | 0x23 => addrLo r.npc
  | 0x24 => addrHi r.npc
  | 0x25 => r.ad.setWidth 32
  | 0x26 => (r.ad >>> 32).setWidth 32
  | 0x27 => r.mask
  | 0x28 => r.info
  | 0x29 => addrLo r.rpc
  | 0x2A => BitVec.ofNat 32 ((bitAt r.cause.toNat 16).toNat * 2 ^ 20 + r.rpc / 2 ^ 32 % 2 ^ 20)
  | 0x2B => r.rcnt
  | 0x2C => BitVec.ofNat 32 r.rdep
  | 0x2D => BitVec.ofNat 32 r.wds
  | 0x2E => BitVec.ofNat 32 r.inTrap.toNat
  | _ => r.scr

/-! ## Arithmetic (R130-R132) -/

def execIadd (h : Hdr) (d : Opnd) (a : Src) (b : SrcB) (sat zx : Bool) (co : Pred) (s : State) : Out :=
  s.alu (usesOf (.iadd h d a b sat zx co)) (some d) (fun s p t =>
    let x := s.rd p t a
    let y := s.rdB p t b
    addResult (x.toNat + y.toNat) (x.toInt + y.toInt) sat zx co)

def execIsub (h : Hdr) (d : Opnd) (a : Src) (b : SrcB) (sat zx : Bool) (co : Pred) (s : State) : Out :=
  s.alu (usesOf (.isub h d a b sat zx co)) (some d) (fun s p t =>
    let x := s.rd p t a
    let y := s.rdB p t b
    addResult (x.toNat - y.toNat) (x.toInt - y.toInt) sat zx co)

def execIaddc (h : Hdr) (d : Opnd) (a : Src) (b : SrcB) (pi co : Pred) (s : State) : Out :=
  s.alu (usesOf (.iaddc h d a b pi co)) (some d) (fun s p t =>
    addResult ((s.rd p t a).toNat + (s.rdB p t b).toNat + (s.pred t pi).toNat) 0 false false co)

def execImul (h : Hdr) (d : Opnd) (a : Src) (b : SrcB) (sat zx : Bool) (s : State) : Out :=
  s.alu (usesOf (.imul h d a b sat zx)) (some d) (fun s p t =>
    out1 (sat32 sat zx (intOf zx (s.rd p t a) * intOf zx (s.rdB p t b))))

def execImulh (h : Hdr) (d : Opnd) (a : Src) (b : SrcB) (zx : Bool) (s : State) : Out :=
  s.alu (usesOf (.imulh h d a b zx)) (some d) (fun s p t =>
    out1 (BitVec.ofInt 32 (intOf zx (s.rd p t a) * intOf zx (s.rdB p t b) / 2 ^ 32)))

def execImad (h : Hdr) (d : Opnd) (a : Src) (b : SrcB) (c : Src) (sat zx : Bool) (s : State) : Out :=
  s.alu (usesOf (.imad h d a b c sat zx)) (some d) (fun s p t =>
    out1 (sat32 sat zx (intOf zx (s.rd p t a) * intOf zx (s.rdB p t b) + intOf zx (s.rd p t c))))

def execImadw (h : Hdr) (d : Opnd) (a : Src) (b : SrcB) (c : Src) (zx : Bool) (s : State) : Out :=
  s.alu (usesOf (.imadw h d a b c zx)) (some d) (fun s p t =>
    out2 (BitVec.ofInt 64 (intOf zx (s.rd p t a) * intOf zx (s.rdB p t b)) + s.rd64 p t c))

def execIadd64 (h : Hdr) (d : Opnd) (a : Src) (b : SrcB) (co : Pred) (s : State) : Out :=
  s.alu (usesOf (.iadd64 h d a b co)) (some d) (fun s p t =>
    let x := s.rd64 p t a
    let y := s.rdB64 p t b
    { ws := (out2 (x + y)).ws, ps := [(co, carryOut 64 (x.toNat + y.toNat))] })

def execIsub64 (h : Hdr) (d : Opnd) (a : Src) (b : SrcB) (co : Pred) (s : State) : Out :=
  s.alu (usesOf (.isub64 h d a b co)) (some d) (fun s p t =>
    let x := s.rd64 p t a
    let y := s.rdB64 p t b
    { ws := (out2 (x - y)).ws, ps := [(co, carryOut 64 ((x.toNat : Int) - y.toNat))] })

def execImin (h : Hdr) (d : Opnd) (a : Src) (b : SrcB) (zx : Bool) (s : State) : Out :=
  s.alu (usesOf (.imin h d a b zx)) (some d) (fun s p t =>
    out1 (if intOf zx (s.rd p t a) ≤ intOf zx (s.rdB p t b) then s.rd p t a else s.rdB p t b))

def execImax (h : Hdr) (d : Opnd) (a : Src) (b : SrcB) (zx : Bool) (s : State) : Out :=
  s.alu (usesOf (.imax h d a b zx)) (some d) (fun s p t =>
    out1 (if intOf zx (s.rd p t a) ≤ intOf zx (s.rdB p t b) then s.rdB p t b else s.rd p t a))

def execIabs (h : Hdr) (d : Opnd) (a : Src) (s : State) : Out :=
  s.alu (usesOf (.iabs h d a)) (some d) (fun s p t => out1 (BitVec.ofNat 32 (s.rd p t a).toInt.natAbs))

def execIneg (h : Hdr) (d : Opnd) (a : Src) (s : State) : Out :=
  s.alu (usesOf (.ineg h d a)) (some d) (fun s p t => out1 (-(s.rd p t a)))

/-! ## Logic, shifts, fields, counts (R133-R137) -/

def execAnd (h : Hdr) (d : Opnd) (a : Src) (b : SrcB) (s : State) : Out :=
  s.alu (usesOf (.and h d a b)) (some d) (fun s p t => out1 (s.rd p t a &&& s.rdB p t b))

def execOr (h : Hdr) (d : Opnd) (a : Src) (b : SrcB) (s : State) : Out :=
  s.alu (usesOf (.or h d a b)) (some d) (fun s p t => out1 (s.rd p t a ||| s.rdB p t b))

def execXor (h : Hdr) (d : Opnd) (a : Src) (b : SrcB) (s : State) : Out :=
  s.alu (usesOf (.xor h d a b)) (some d) (fun s p t => out1 (s.rd p t a ^^^ s.rdB p t b))

def execAndn (h : Hdr) (d : Opnd) (a : Src) (b : SrcB) (s : State) : Out :=
  s.alu (usesOf (.andn h d a b)) (some d) (fun s p t => out1 (s.rd p t a &&& ~~~ s.rdB p t b))

def execNot (h : Hdr) (d : Opnd) (a : Src) (s : State) : Out :=
  s.alu (usesOf (.not h d a)) (some d) (fun s p t => out1 (~~~ s.rd p t a))

def execShl (h : Hdr) (d : Opnd) (a : Src) (b : SrcB) (wrap : Bool) (s : State) : Out :=
  s.alu (usesOf (.shl h d a b wrap)) (some d) (fun s p t => out1 (shlResult (s.rd p t a) (shAmount wrap (s.rdB p t b))))

def execShr (h : Hdr) (d : Opnd) (a : Src) (b : SrcB) (wrap : Bool) (s : State) : Out :=
  s.alu (usesOf (.shr h d a b wrap)) (some d) (fun s p t => out1 (shrResult (s.rd p t a) (shAmount wrap (s.rdB p t b))))

def execSar (h : Hdr) (d : Opnd) (a : Src) (b : SrcB) (wrap : Bool) (s : State) : Out :=
  s.alu (usesOf (.sar h d a b wrap)) (some d) (fun s p t => out1 (sarResult (s.rd p t a) (shAmount wrap (s.rdB p t b))))

def execRotl (h : Hdr) (d : Opnd) (a : Src) (b : SrcB) (s : State) : Out :=
  s.alu (usesOf (.rotl h d a b)) (some d) (fun s p t => out1 ((s.rd p t a).rotateLeft ((s.rdB p t b).toNat % 32)))

def execShfL (h : Hdr) (d : Opnd) (a : Src) (b : SrcB) (c : Src) (s : State) : Out :=
  s.alu (usesOf (.shfL h d a b c)) (some d) (fun s p t =>
    out1 (((shfValue (s.rd p t a) (s.rd p t c) <<< ((s.rdB p t b).toNat % 64)) >>> 32).setWidth 32))

def execShfR (h : Hdr) (d : Opnd) (a : Src) (b : SrcB) (c : Src) (s : State) : Out :=
  s.alu (usesOf (.shfR h d a b c)) (some d) (fun s p t =>
    out1 ((shfValue (s.rd p t a) (s.rd p t c) >>> ((s.rdB p t b).toNat % 64)).setWidth 32))

def execBfe (h : Hdr) (d : Opnd) (a : Src) (b : SrcB) (zx : Bool) (s : State) : Out :=
  s.alu (usesOf (.bfe h d a b zx)) (some d) (fun s p t => out1 (bfeResult (s.rd p t a) (s.rdB p t b) zx))

def execBfi (h : Hdr) (d : Opnd) (a : Src) (b : SrcB) (c : Src) (s : State) : Out :=
  s.alu (usesOf (.bfi h d a b c)) (some d) (fun s p t => out1 (bfiResult (s.rd p t a) (s.rdB p t b) (s.rd p t c)))

def execPopc (h : Hdr) (d : Opnd) (a : Src) (s : State) : Out :=
  s.alu (usesOf (.popc h d a)) (some d) (fun s p t => out1 (popcResult (s.rd p t a)))

def execClz (h : Hdr) (d : Opnd) (a : Src) (s : State) : Out :=
  s.alu (usesOf (.clz h d a)) (some d) (fun s p t => out1 (clzResult (s.rd p t a)))

def execCtz (h : Hdr) (d : Opnd) (a : Src) (s : State) : Out :=
  s.alu (usesOf (.ctz h d a)) (some d) (fun s p t => out1 (ctzResult (s.rd p t a)))

def execBrev (h : Hdr) (d : Opnd) (a : Src) (s : State) : Out :=
  s.alu (usesOf (.brev h d a)) (some d) (fun s p t => out1 (brevResult (s.rd p t a)))

def execPrmb (h : Hdr) (d : Opnd) (a : Src) (b : SrcB) (c : Src) (s : State) : Out :=
  s.alu (usesOf (.prmb h d a b c)) (some d) (fun s p t => out1 (prmbResult (s.rd p t a) (s.rdB p t b) (s.rd p t c)))

/-! ## Comparison, selection, predicates (R138-R141) -/

def execIsetp (h : Hdr) (pd : Pred) (a : Src) (b : SrcB) (pc : Pred) (cond : BitVec 4) (comb : BitVec 2) (cneg : Bool)
    (s : State) : Out :=
  s.alu (usesOf (.isetp h pd a b pc cond comb cneg)) none (fun s p t =>
    cmpOut s t pd pc (intCond cond.toNat (s.rd p t a) (s.rdB p t b)) comb cneg)

def execIsetp64 (h : Hdr) (pd : Pred) (a : Src) (b : SrcB) (pc : Pred) (cond : BitVec 4) (comb : BitVec 2) (cneg : Bool)
    (s : State) : Out :=
  s.alu (usesOf (.isetp64 h pd a b pc cond comb cneg)) none (fun s p t =>
    cmpOut s t pd pc (intCond cond.toNat (s.rd64 p t a) (s.rdB64 p t b)) comb cneg)

def execIsel (h : Hdr) (d : Opnd) (a b : Src) (pc : Pred) (sneg : Bool) (s : State) : Out :=
  s.alu (usesOf (.isel h d a b pc sneg)) (some d) (fun s p t =>
    out1 (if s.pred t pc ^^ sneg then s.rd p t a else s.rd p t b))

def execPlop (h : Hdr) (pd pa pb pc : Pred) (lut : BitVec 8) (s : State) : Out :=
  s.alu (usesOf (.plop h pd pa pb pc lut)) none (fun s _ t =>
    outP pd (lut.getLsbD ((s.pred t pa).toNat + 2 * (s.pred t pb).toNat + 4 * (s.pred t pc).toNat)))

def execPmovTo (h : Hdr) (d : Opnd) (s : State) : Out :=
  s.alu (usesOf (.pmovTo h d)) (some d) (fun s _ t =>
    out1 (BitVec.ofNat 32 ((List.range 16).map (fun i => (s.pred t (BitVec.ofNat 4 i)).toNat * 2 ^ i)).sum))

/-- The predicates `PMOV` writes in some executing lane. -/
def pmovDsts (s : State) (h : Hdr) (a b : Src) : List Pred :=
  ((List.range 16).filter (fun i => i ≠ 0 && (s.xs h).any (fun t => (s.rd (s.popsOf (usesOf (.pmovFrom h a b))) t b).getLsbD i))).map
    (BitVec.ofNat 4)

def execPmovFrom (h : Hdr) (a b : Src) (s : State) : Out :=
  s.alu { usesOf (.pmovFrom h a b) with pdsts := pmovDsts s h a b } none (fun s p t =>
    { ps := ((List.range 16).filter (fun i => i ≠ 0 && (s.rd p t b).getLsbD i)).map
        (fun i => (BitVec.ofNat 4 i, (s.rd p t a).getLsbD i)) })

/-! ## Moves, addresses, special registers (R142-R144) -/

def execLea (h : Hdr) (d : Opnd) (a b : Src) (off : Word) (zx : Bool) (scale : BitVec 3) (idx64 : Bool) (s : State) : Out :=
  s.alu (usesOf (.lea h d a b off zx scale idx64)) (some d) (fun s p t =>
    let x : DWord := if idx64 then s.rd64 p t b else if zx then (s.rd p t b).setWidth 64 else sext64 (s.rd p t b)
    out2 (s.rd64 p t a + (x <<< scale.toNat) + sext64 off))

def execMov (h : Hdr) (d : Opnd) (a : Src) (s : State) : Out :=
  s.alu (usesOf (.mov h d a)) (some d) (fun s p t => out1 (s.rd p t a))

def execMov64 (h : Hdr) (d : Opnd) (a : Src) (s : State) : Out :=
  s.alu (usesOf (.mov64 h d a)) (some d) (fun s p t => out2 (s.rd64 p t a))

def execMovi (h : Hdr) (d : Opnd) (imm : Word) (s : State) : Out :=
  s.alu (usesOf (.movi h d imm)) (some d) (fun _ _ _ => out1 imm)

def execMovi64 (h : Hdr) (d : Opnd) (imm : Word) (s : State) : Out :=
  s.alu (usesOf (.movi64 h d imm)) (some d) (fun _ _ _ => out2 (sext64 imm))

/-- A read of `CLKLO` latches the high half of the count into the clock shadow (R125). -/
def latchClk (s : State) (h : Hdr) (num : Nat) : State :=
  if num = 0 then s.modThreads (s.xs h) (fun t x => { x with clkhi := BitVec.ofNat 32 (s.clkOf (s.coreOf t) / 2 ^ 32) }) else s

def execGetsr (h : Hdr) (d : Opnd) (num : BitVec 8) (s : State) : Out :=
  s.byGate (usesOf (.getsr h d num)) (fun s =>
    let u := usesOf (.getsr h d num)
    .next (latchClk (s.aluDone u (some d) (s.laneOuts u (fun s _ t => out1 (s.special t num.toNat)))) h num.toNat))

end Sys2Proof.Machine
end

