-- ==== Sys2Proof/Machine/Float.lean ====
section
/-!
DEFINITION. Sys2Proof/Machine/Float.lean: FP32 and packed arithmetic, comparison, rounding, dot products and the special
functions (06 R151-R161).
-/

namespace Sys2Proof.Machine

open Sys2Proof

/-! ## Lane results -/

/-- A lane result of one word with its conditions. -/
def outF (r : Nat × Nat) : LaneOut := { ws := [BitVec.ofNat 32 r.1], conds := r.2 }

/-- An FP32 source, flushed under FTZ (R148). -/
def fsrc (ftz : Bool) (w : Word) : FV := fp32.decode (fp32.flushIn ftz w.toNat)

/-- Round an exact FP32 result with its invalid condition (R151). -/
def fround (rm : RM) (ftz : Bool) (x : FV × Nat) : Nat × Nat :=
  let r := fp32.roundFtz rm ftz x.1
  (r.1, r.2 ||| x.2)

/-- Two packed results of a 16-bit format, conditions combined (R157). -/
def outHalves (lo hi : Nat × Nat) : LaneOut := { ws := [BitVec.ofNat 32 (hi.1 * 2 ^ 16 + lo.1)], conds := lo.2 ||| hi.2 }

/-- The format of a packed instruction: FP16, or BF16. -/
def packFmt (bf : Bool) : Fmt := if bf then bf16 else fp16
/-- Element `i` of a packed word, flushed. -/
def half (f : Fmt) (ftz : Bool) (w : Word) (i : Nat) : FV := f.decode (f.flushIn ftz (w.toNat / 2 ^ (16 * i) % 2 ^ 16))
def hround (f : Fmt) (rm : RM) (ftz : Bool) (x : FV × Nat) : Nat × Nat :=
  let r := f.roundFtz rm ftz x.1
  (r.1, r.2 ||| x.2)

/-! ## FP32 arithmetic (R151, R152) -/

def faddResult (rm : RM) (ftz : Bool) (a b : Word) : Nat × Nat := fround rm ftz (fAdd rm (fsrc ftz a) (fsrc ftz b))
def fsubResult (rm : RM) (ftz : Bool) (a b : Word) : Nat × Nat := fround rm ftz (fAdd rm (fsrc ftz a) (fsrc ftz b).neg)
def fmulResult (rm : RM) (ftz : Bool) (a b : Word) : Nat × Nat := fround rm ftz (fMul (fsrc ftz a) (fsrc ftz b))
def ffmaResult (rm : RM) (ftz : Bool) (a b c : Word) : Nat × Nat :=
  fround rm ftz (fFma rm (fsrc ftz a) (fsrc ftz b) (fsrc ftz c))

/-- minimumNumber, or maximumNumber (R152): the chosen operand's bits after the flush. -/
def fminmax (isMax ftz : Bool) (a b : Word) : Nat × Nat :=
  let x := fp32.flushIn ftz a.toNat
  let y := fp32.flushIn ftz b.toNat
  let vx := fp32.decode x
  let vy := fp32.decode y
  (if vx.isNan && vy.isNan then fp32.nanBits
   else if vx.isNan then y
   else if vy.isNan then x
   else if isMax then (if fLess vx vy then y else x)
   else if fLess vy vx then y else x, 0)

def execFadd (h : Hdr) (d : Opnd) (a : Src) (b : SrcB) (rm : BitVec 2) (ftz : Bool) (s : State) : Out :=
  s.alu (usesOf (.fadd h d a b rm ftz)) (some d) (fun s p t => outF (faddResult rm.toNat ftz (s.rd p t a) (s.rdB p t b)))

def execFsub (h : Hdr) (d : Opnd) (a : Src) (b : SrcB) (rm : BitVec 2) (ftz : Bool) (s : State) : Out :=
  s.alu (usesOf (.fsub h d a b rm ftz)) (some d) (fun s p t => outF (fsubResult rm.toNat ftz (s.rd p t a) (s.rdB p t b)))

def execFmul (h : Hdr) (d : Opnd) (a : Src) (b : SrcB) (rm : BitVec 2) (ftz : Bool) (s : State) : Out :=
  s.alu (usesOf (.fmul h d a b rm ftz)) (some d) (fun s p t => outF (fmulResult rm.toNat ftz (s.rd p t a) (s.rdB p t b)))

def execFfma (h : Hdr) (d : Opnd) (a : Src) (b : SrcB) (c : Src) (rm : BitVec 2) (ftz : Bool) (s : State) : Out :=
  s.alu (usesOf (.ffma h d a b c rm ftz)) (some d) (fun s p t =>
    outF (ffmaResult rm.toNat ftz (s.rd p t a) (s.rdB p t b) (s.rd p t c)))

def execFmin (h : Hdr) (d : Opnd) (a : Src) (b : SrcB) (ftz : Bool) (s : State) : Out :=
  s.alu (usesOf (.fmin h d a b ftz)) (some d) (fun s p t => outF (fminmax false ftz (s.rd p t a) (s.rdB p t b)))

def execFmax (h : Hdr) (d : Opnd) (a : Src) (b : SrcB) (ftz : Bool) (s : State) : Out :=
  s.alu (usesOf (.fmax h d a b ftz)) (some d) (fun s p t => outF (fminmax true ftz (s.rd p t a) (s.rdB p t b)))

/-! ## Comparison and classification (R153, R154) -/

def execFsetp (h : Hdr) (pd : Pred) (a : Src) (b : SrcB) (pc : Pred) (cond : BitVec 4) (comb : BitVec 2) (cneg ftz : Bool)
    (s : State) : Out :=
  s.alu (usesOf (.fsetp h pd a b pc cond comb cneg ftz)) none (fun s p t =>
    cmpOut s t pd pc (floatCond cond.toNat (fsrc ftz (s.rd p t a)) (fsrc ftz (s.rdB p t b))) comb cneg)

def execFclass (h : Hdr) (pd : Pred) (a : Src) (mask : BitVec 10) (s : State) : Out :=
  s.alu (usesOf (.fclass h pd a mask)) none (fun s p t => outP pd (mask.getLsbD (classOf (s.rd p t a).toNat)))

/-! ## Rounding to integers and scaling (R155, R156) -/

/-- An integral FP32 value in a rounding mode, keeping the sign; `exact` says whether inexact is raised. -/
def frndResult (rm : RM) (ftz raise : Bool) (a : Word) : Nat × Nat :=
  let x := fp32.flushIn ftz a.toNat
  match fp32.decode x with
  | .nan => (fp32.nanBits, 0)
  | .fin q =>
    let k := roundInt rm q
    let r := if k = 0 then fp32.signed (decide (q.n < 0)) 0 else (fp32.round 1 (FV.ofInt k)).1
    (r, if raise && r ≠ x then cInexact else 0)
  | _ => (x, 0)

/-- a · base^k with one rounding. Beyond ±`cap` the exponent cannot change the rounded result, so it is held there. -/
def fscale (pow : Int → Q) (cap : Int) (rm : RM) (ftz : Bool) (a b : Word) : Nat × Nat :=
  let k := max (-cap) (min cap b.toInt)
  fround rm ftz (match fsrc ftz a with
    | .fin q => .fin (q.mul (pow k))
    | x => x, 0)

def execFrnd (h : Hdr) (d : Opnd) (a : Src) (rm : BitVec 2) (ftz : Bool) (s : State) : Out :=
  s.alu (usesOf (.frnd h d a rm ftz)) (some d) (fun s p t => outF (frndResult rm.toNat ftz false (s.rd p t a)))

def execFrndX (h : Hdr) (d : Opnd) (a : Src) (rm : BitVec 2) (ftz : Bool) (s : State) : Out :=
  s.alu (usesOf (.frndX h d a rm ftz)) (some d) (fun s p t => outF (frndResult rm.toNat ftz true (s.rd p t a)))

def execFscalb (h : Hdr) (d : Opnd) (a b : Src) (rm : BitVec 2) (ftz : Bool) (s : State) : Out :=
  s.alu (usesOf (.fscalb h d a b rm ftz)) (some d) (fun s p t =>
    outF (fscale Q.pow2 500 rm.toNat ftz (s.rd p t a) (s.rd p t b)))

def execFdscl (h : Hdr) (d : Opnd) (a b : Src) (rm : BitVec 2) (ftz : Bool) (s : State) : Out :=
  s.alu (usesOf (.fdscl h d a b rm ftz)) (some d) (fun s p t =>
    outF (fscale Q.pow10 150 rm.toNat ftz (s.rd p t a) (s.rd p t b)))

/-! ## Packed FP16 and BF16 (R157) -/

def pack2 (bf : Bool) (rm : RM) (ftz : Bool) (op : FV → FV → FV × Nat) (a b : Word) : LaneOut :=
  let f := packFmt bf
  let one (i : Nat) : Nat × Nat := hround f rm ftz (op (half f ftz a i) (half f ftz b i))
  outHalves (one 0) (one 1)

def pack3 (bf : Bool) (rm : RM) (ftz : Bool) (a b c : Word) : LaneOut :=
  let f := packFmt bf
  let one (i : Nat) : Nat × Nat := hround f rm ftz (fFma rm (half f ftz a i) (half f ftz b i) (half f ftz c i))
  outHalves (one 0) (one 1)

def execFadd2 (h : Hdr) (d : Opnd) (a : Src) (b : SrcB) (bf : Bool) (rm : BitVec 2) (ftz : Bool) (s : State) : Out :=
  s.alu (usesOf (.fadd2 h d a b bf rm ftz)) (some d) (fun s p t =>
    pack2 bf rm.toNat ftz (fAdd rm.toNat) (s.rd p t a) (s.rdB p t b))

def execFmul2 (h : Hdr) (d : Opnd) (a : Src) (b : SrcB) (bf : Bool) (rm : BitVec 2) (ftz : Bool) (s : State) : Out :=
  s.alu (usesOf (.fmul2 h d a b bf rm ftz)) (some d) (fun s p t => pack2 bf rm.toNat ftz fMul (s.rd p t a) (s.rdB p t b))

def execFfma2 (h : Hdr) (d : Opnd) (a : Src) (b : SrcB) (c : Src) (bf : Bool) (rm : BitVec 2) (ftz : Bool) (s : State) : Out :=
  s.alu (usesOf (.ffma2 h d a b c bf rm ftz)) (some d) (fun s p t =>
    pack3 bf rm.toNat ftz (s.rd p t a) (s.rdB p t b) (s.rd p t c))

/-! ## Dot products (R158, R159) -/

/-- Element products of `FDOT4`: kind 0 FP32 pairs, 1 and 2 the halves of pairs, 3 the bytes of a register. -/
def dotTerms (kind : Nat) (ftz : Bool) (a b : DWord) : List (FV × Nat) :=
  match kind with
  | 0 => (List.range 2).map (fun i =>
      fMul (fsrc ftz ((a >>> (32 * i)).setWidth 32)) (fsrc ftz ((b >>> (32 * i)).setWidth 32)))
  | 3 => (List.range 4).map (fun i => fMul (decodeDM8 (a.toNat / 2 ^ (8 * i) % 256)) (decodeDM8 (b.toNat / 2 ^ (8 * i) % 256)))
  | k =>
    let f := if k = 1 then fp16 else bf16
    (List.range 4).map (fun i =>
      fMul (f.decode (f.flushIn ftz (a.toNat / 2 ^ (16 * i) % 2 ^ 16))) (f.decode (f.flushIn ftz (b.toNat / 2 ^ (16 * i) % 2 ^ 16))))

def fdotResult (kind : Nat) (rm : RM) (ftz : Bool) (a b : DWord) (c : Word) : Nat × Nat :=
  fround rm ftz (exactSum (dotTerms kind ftz a b ++ [(fsrc ftz c, 0)]))

def execFdot4 (h : Hdr) (kind : BitVec 2) (d : Opnd) (a b c : Src) (rm : BitVec 2) (ftz : Bool) (s : State) : Out :=
  s.alu (usesOf (.fdot4 h kind d a b c rm ftz)) (some d) (fun s p t =>
    let x := if kind = 3 then (s.rd p t a).setWidth 64 else s.rd64 p t a
    let y := if kind = 3 then (s.rd p t b).setWidth 64 else s.rd64 p t b
    outF (fdotResult kind.toNat rm.toNat ftz x y (s.rd p t c)))

/-- Byte `i` of a word, signed or unsigned. -/
def byteInt (signed : Bool) (w : Word) (i : Nat) : Int :=
  let b := w.toNat / 2 ^ (8 * i) % 256
  if signed then sbyte b else b

/-- The exact sum of `IDOT4`: kinds 0 ss, 1 uu, 2 su, 3 us. -/
def idotExact (kind : Nat) (a b c : Word) : Int :=
  let sa := kind == 0 || kind == 2
  let sb := kind == 0 || kind == 3
  (List.range 4).foldl (fun n i => n + byteInt sa a i * byteInt sb b i) c.toInt

def execIdot4 (h : Hdr) (kind : BitVec 2) (d : Opnd) (a b c : Src) (sat : Bool) (s : State) : Out :=
  s.alu (usesOf (.idot4 h kind d a b c sat)) (some d) (fun s p t =>
    out1 (sat32 sat false (idotExact kind.toNat (s.rd p t a) (s.rd p t b) (s.rd p t c))))

/-! ## Special functions (R160, R161) -/

/-- The special-function unit's result: fixed where R161 or an exact case fixes it; a reference value otherwise. -/
inductive Sfu where
  | exact (bits conds : Nat)
  | rounded (x : FV)                                  -- correctly rounded in RM, all conditions
  | approx (fn : Nat) (ref : Q) (ulps : Nat) (absErr : Q)
  deriving DecidableEq, Repr

def posInf : Nat := fp32.infBits
def negInf : Nat := fp32.signBit + fp32.infBits
def sfuNan : Sfu := .exact fp32.nanBits 0
def sfuInvalid : Sfu := .exact fp32.nanBits cInvalid
def sfuOne (neg : Bool) : Sfu := .exact (fp32.signed neg 0x3F800000) 0
def sfuZero (neg : Bool) : Sfu := .exact (fp32.signed neg 0) 0

def sfuRcp : FV → Sfu
  | .nan => sfuNan
  | .inf n => sfuZero n
  | .zero n => .exact (fp32.signed n posInf) cDivZero
  | .fin q => .rounded (.fin q.inv)

def sfuSqrt : FV → Sfu
  | .nan => sfuNan
  | .inf n => if n then sfuInvalid else .exact posInf 0
  | .zero n => sfuZero n
  | .fin q => if q.n < 0 then sfuInvalid else .rounded (.fin (sqrtQ q))

/-- Is a positive rational a power of two, and which? -/
def log2Exact (q : Q) : Option Int :=
  let e := log2Floor q.n.natAbs q.d
  if q.eq (Q.pow2 e) then some e else none

def sfuRsq : FV → Sfu
  | .nan => sfuNan
  | .inf n => if n then sfuInvalid else sfuZero false
  | .zero n => .exact (fp32.signed n posInf) cDivZero
  | .fin q =>
    if q.n < 0 then sfuInvalid
    else match log2Exact q with
      | some e => if e % 2 = 0 then .exact (fp32.round 0 (.fin (Q.pow2 (-(e / 2))))).1 0
        else .approx 1 (sqrtQ q.inv) 1 (Q.ofInt 0)
      | none => .approx 1 (sqrtQ q.inv) 1 (Q.ofInt 0)

def sfuExp2 : FV → Sfu
  | .nan => sfuNan
  | .inf n => if n then sfuZero false else .exact posInf 0
  | .zero _ => sfuOne false
  | .fin q =>
    if (Q.ofInt 128).le q then .exact posInf cOverflow
    else if q.lt (Q.ofInt (-149)) then sfuZero false
    else if q.n.natAbs % q.d = 0 then .exact (fp32.round 0 (.fin (Q.pow2 (floorQ q)))).1 0
    else .approx 2 (exp2Q q) 2 (Q.ofInt 0)

def sfuLog2 : FV → Sfu
  | .nan => sfuNan
  | .inf n => if n then sfuInvalid else .exact posInf 0
  | .zero _ => .exact negInf cDivZero
  | .fin q =>
    if q.n < 0 then sfuInvalid
    else match log2Exact q with
      | some e => .exact (fp32.round 0 (FV.ofInt e)).1 0
      | none =>
        if (Q.mk 1 2).le q && q.le (Q.ofInt 2) then .approx 3 (log2Q q) 0 (Q.pow2 (-22))
        else .approx 3 (log2Q q) 2 (Q.ofInt 0)

/-- Twice a rational, when that is an integer. -/
def twiceInt (q : Q) : Option Int := if (2 * q.n.natAbs) % q.d = 0 then some (2 * q.n / q.d) else none

def sfuSin : FV → Sfu
  | .nan => sfuNan
  | .inf _ => sfuInvalid
  | .zero n => sfuZero n
  | .fin q => match twiceInt q with
    | some k => if k % 2 = 0 then sfuZero (decide (q.n < 0)) else sfuOne (k % 4 == 3)
    | none => .approx 4 (sinPiQ q) 2 (Q.pow2 (-22))

def sfuCos : FV → Sfu
  | .nan => sfuNan
  | .inf _ => sfuInvalid
  | .zero _ => sfuOne false
  | .fin q => match twiceInt q with
    | some k => if k % 2 = 0 then sfuOne (k % 4 == 2) else sfuZero false
    | none => .approx 5 (cosPiQ q) 2 (Q.pow2 (-22))

def sfuTanh : FV → Sfu
  | .nan => sfuNan
  | .inf n => sfuOne n
  | .zero n => sfuZero n
  | .fin q => if (Q.ofInt 16).le q.abs then sfuOne (decide (q.n < 0)) else .approx 6 (tanhQ q) 2 (Q.pow2 (-24))

/-- The result bits: a value the manual only bounds is a free value, held to its bound (log 8). -/
def sfuBits (a : Word) : Sfu → RM → Bool → Nat × Nat
  | .exact b c, _, ftz => if ftz && fp32.subnormal b then (b - b % fp32.signBit, c) else (b, c)
  | .rounded x, rm, ftz => fp32.roundFtz rm ftz x
  | .approx fn ref k ab, _, ftz =>
    let free := (Config.approxBits fn a).toNat
    let b := if withinBound free ref k ab then free else (fp32.round 0 (FV.ofQ ref)).1
    (if ftz && fp32.subnormal b then b - b % fp32.signBit else b, 0)

/-- A special-function result in a lane. -/
def sfuOut (f : FV → Sfu) (rm : RM) (ftz : Bool) (a : Word) : LaneOut := outF (sfuBits a (f (fsrc ftz a)) rm ftz)

def execFrcp (h : Hdr) (d : Opnd) (a : Src) (rm : BitVec 2) (ftz : Bool) (s : State) : Out :=
  s.alu (usesOf (.frcp h d a rm ftz)) (some d) (fun s p t => sfuOut sfuRcp rm.toNat ftz (s.rd p t a))

def execFrsq (h : Hdr) (d : Opnd) (a : Src) (ftz : Bool) (s : State) : Out :=
  s.alu (usesOf (.frsq h d a ftz)) (some d) (fun s p t => sfuOut sfuRsq 0 ftz (s.rd p t a))

def execFsqrt (h : Hdr) (d : Opnd) (a : Src) (rm : BitVec 2) (ftz : Bool) (s : State) : Out :=
  s.alu (usesOf (.fsqrt h d a rm ftz)) (some d) (fun s p t => sfuOut sfuSqrt rm.toNat ftz (s.rd p t a))

def execFexp2 (h : Hdr) (d : Opnd) (a : Src) (ftz : Bool) (s : State) : Out :=
  s.alu (usesOf (.fexp2 h d a ftz)) (some d) (fun s p t => sfuOut sfuExp2 0 ftz (s.rd p t a))

def execFlog2 (h : Hdr) (d : Opnd) (a : Src) (ftz : Bool) (s : State) : Out :=
  s.alu (usesOf (.flog2 h d a ftz)) (some d) (fun s p t => sfuOut sfuLog2 0 ftz (s.rd p t a))

def execFsin (h : Hdr) (d : Opnd) (a : Src) (ftz : Bool) (s : State) : Out :=
  s.alu (usesOf (.fsin h d a ftz)) (some d) (fun s p t => sfuOut sfuSin 0 ftz (s.rd p t a))

def execFcos (h : Hdr) (d : Opnd) (a : Src) (ftz : Bool) (s : State) : Out :=
  s.alu (usesOf (.fcos h d a ftz)) (some d) (fun s p t => sfuOut sfuCos 0 ftz (s.rd p t a))

def execFtanh (h : Hdr) (d : Opnd) (a : Src) (ftz : Bool) (s : State) : Out :=
  s.alu (usesOf (.ftanh h d a ftz)) (some d) (fun s p t => sfuOut sfuTanh 0 ftz (s.rd p t a))

end Sys2Proof.Machine
end

