-- ==== Sys2Proof/Machine/Cross.lean ====
section
/-!
DEFINITION. Sys2Proof/Machine/Cross.lean: the cross-lane, vote and reduction instructions (07).
-/

namespace Sys2Proof.Machine

open Sys2Proof

/-! ## The executing set of a wave (R174) -/

/-- The executing threads of the wave of a thread, and a value read in lane `m` of it. -/
def xsOf (s : State) (h : Hdr) (t : Nat) : List Nat := s.xsW h (widOf t)
def inLane (s : State) (t m : Nat) (a : Src) : Word := s.rd [] (widOf t * 32 + m) a
/-- `q` of R178: a predicate with its negation. -/
def qOf (s : State) (t : Nat) (p : Pred) (neg : Bool) : Bool := s.pred t p ^^ neg
/-- Is a thread the lowest of a list? -/
def lowest (xs : List Nat) (t : Nat) : Bool := xs.all (fun u => decide (laneOf t ≤ laneOf u))

/-! ## Shuffle (R177) -/

/-- The source lane of a shuffle in lane `l`: modes 0 idx, 1 up, 2 down, 3 xor. -/
def shflSrc (mode seg l n : Nat) : Option Nat :=
  let base := l - l % seg
  let j := l % seg
  match mode with
  | 0 => some (base + n % seg)
  | 3 => some (base + (j ^^^ (n % seg)))
  | 1 => if n ≤ j then some (base + (j - n)) else none
  | _ => if j + n < seg then some (base + j + n) else none

def shflOut (s : State) (t : Nat) (mode : Nat) (a b : Src) (segw : BitVec 3) (zf : Bool) : LaneOut :=
  match shflSrc mode (2 ^ segw.toNat) (laneOf t) (s.rd [] t b).toNat with
  | some m => out1 (inLane s t m a)
  | none => out1 (if zf then 0 else s.rd [] t a)

def execShflIdx (h : Hdr) (d : Opnd) (a b : Src) (segw : BitVec 3) (zf : Bool) (s : State) : Out :=
  s.alu (usesOf (.shflIdx h d a b segw zf)) (some d) (fun s _ t => shflOut s t 0 a b segw zf)

def execShflUp (h : Hdr) (d : Opnd) (a b : Src) (segw : BitVec 3) (zf : Bool) (s : State) : Out :=
  s.alu (usesOf (.shflUp h d a b segw zf)) (some d) (fun s _ t => shflOut s t 1 a b segw zf)

def execShflDown (h : Hdr) (d : Opnd) (a b : Src) (segw : BitVec 3) (zf : Bool) (s : State) : Out :=
  s.alu (usesOf (.shflDown h d a b segw zf)) (some d) (fun s _ t => shflOut s t 2 a b segw zf)

def execShflXor (h : Hdr) (d : Opnd) (a b : Src) (segw : BitVec 3) (zf : Bool) (s : State) : Out :=
  s.alu (usesOf (.shflXor h d a b segw zf)) (some d) (fun s _ t => shflOut s t 3 a b segw zf)

/-! ## Votes, ballots, election (R178-R180) -/

def execVoteAll (h : Hdr) (pd pa : Pred) (neg : Bool) (s : State) : Out :=
  s.alu (usesOf (.voteAll h pd pa neg)) none (fun s _ t => outP pd ((xsOf s h t).all (fun u => qOf s u pa neg)))

def execVoteAny (h : Hdr) (pd pa : Pred) (neg : Bool) (s : State) : Out :=
  s.alu (usesOf (.voteAny h pd pa neg)) none (fun s _ t => outP pd ((xsOf s h t).any (fun u => qOf s u pa neg)))

def execVoteUni (h : Hdr) (pd pa : Pred) (neg : Bool) (s : State) : Out :=
  s.alu (usesOf (.voteUni h pd pa neg)) none (fun s _ t =>
    outP pd ((xsOf s h t).all (fun u => qOf s u pa neg) || (xsOf s h t).all (fun u => !qOf s u pa neg)))

def execBallot (h : Hdr) (d : Opnd) (pa : Pred) (neg : Bool) (s : State) : Out :=
  s.alu (usesOf (.ballot h d pa neg)) (some d) (fun s _ t =>
    out1 (State.laneMask ((xsOf s h t).filter (fun u => qOf s u pa neg))))

def execBallotExec (h : Hdr) (d : Opnd) (s : State) : Out :=
  s.alu (usesOf (.ballotExec h d)) (some d) (fun s _ t => out1 (State.laneMask (xsOf s h t)))

def execBallotLive (h : Hdr) (d : Opnd) (s : State) : Out :=
  s.alu (usesOf (.ballotLive h d)) (some d) (fun s _ t =>
    out1 (State.laneMask ((tidsOf (widOf t)).filter (fun u => (s.th u).live))))

def execElect (h : Hdr) (pd : Pred) (s : State) : Out :=
  s.alu (usesOf (.elect h pd)) none (fun s _ t => outP pd (lowest (xsOf s h t) t))

def execElectIdx (h : Hdr) (d : Opnd) (s : State) : Out :=
  s.alu (usesOf (.electIdx h d)) (some d) (fun s _ t => out1 (BitVec.ofNat 32 (laneOf (((xsOf s h t).find? (lowest (xsOf s h t))).getD t))))

/-! ## Reductions and scans (R181, R182; 03 R85) -/

/-- One combining step; `none` is the identity, or the empty operand. -/
def combineLanes (op : Nat) (rm : RM) (ftz : Bool) (x y : Option Word) : Option Word × Nat :=
  match x, y with
  | none, y => (y, 0)
  | x, none => (x, 0)
  | some a, some b =>
    match op with
    | 0 => (some (a + b), 0)
    | 1 => (some (if a.toInt ≤ b.toInt then a else b), 0)
    | 2 => (some (if a.toNat ≤ b.toNat then a else b), 0)
    | 3 => (some (if a.toInt ≤ b.toInt then b else a), 0)
    | 4 => (some (if a.toNat ≤ b.toNat then b else a), 0)
    | 5 => (some (a &&& b), 0)
    | 6 => (some (a ||| b), 0)
    | 7 => (some (a ^^^ b), 0)
    | 8 => let r := faddResult rm ftz a b; (some (BitVec.ofNat 32 r.1), r.2)
    | 9 => (some (BitVec.ofNat 32 (fminmax false ftz a b).1), 0)
    | _ => (some (BitVec.ofNat 32 (fminmax true ftz a b).1), 0)

/-- The lane values at the start: a lane outside X contributes the identity; float sources are flushed under FTZ. -/
def treeStart (s : State) (h : Hdr) (t : Nat) (a : Src) (op : Nat) (ftz : Bool) : List (Option Word) :=
  let xs := xsOf s h t
  (List.range 32).map (fun m =>
    if xs.any (fun u => laneOf u == m) then
      let w := inLane s t m a
      some (if 8 ≤ op then BitVec.ofNat 32 (fp32.flushIn ftz w.toNat) else w)
    else none)

/-- A step over all lanes: what lane `l` combines. -/
def treeStep (op : Nat) (rm : RM) (ftz : Bool) (pick : Nat → Option (Nat × Nat)) (v : List (Option Word) × Nat) :
    List (Option Word) × Nat :=
  let rs := (List.range 32).map (fun l => match pick l with
    | some (i, j) => combineLanes op rm ftz (v.1.getD i none) (v.1.getD j none)
    | none => (v.1.getD l none, 0))
  (rs.map Prod.fst, rs.foldl (fun c r => c ||| r.2) v.2)

def reduceTree (op : Nat) (rm : RM) (ftz : Bool) (v : List (Option Word)) : List (Option Word) × Nat :=
  [16, 8, 4, 2, 1].foldl (fun v d => treeStep op rm ftz (fun l => some (min l (l ^^^ d), max l (l ^^^ d))) v) (v, 0)

def scanTree (op : Nat) (rm : RM) (ftz : Bool) (v : List (Option Word)) : List (Option Word) × Nat :=
  [1, 2, 4, 8, 16].foldl (fun v d => treeStep op rm ftz (fun l => if d ≤ l then some (l - d, l) else none) v) (v, 0)

/-- The empty result of `SCAN.excl`: the identity of an integer operation, +0, +Inf or −Inf (R182). -/
def emptyResult (op : Nat) : Word :=
  match op with
  | 1 => 0x7FFFFFFF
  | 2 => 0xFFFFFFFF
  | 3 => 0x80000000
  | 5 => 0xFFFFFFFF
  | 9 => 0x7F800000
  | 10 => 0xFF800000
  | _ => 0

def execReduce (h : Hdr) (d : Opnd) (a : Src) (op : BitVec 4) (rm : BitVec 2) (ftz : Bool) (s : State) : Out :=
  s.alu (usesOf (.reduce h d a op rm ftz)) (some d) (fun s _ t =>
    let r := reduceTree op.toNat rm.toNat ftz (treeStart s h t a op.toNat ftz)
    { ws := [(r.1.getD (laneOf t) none).getD 0], conds := r.2 })

def execScan (h : Hdr) (d : Opnd) (a : Src) (op : BitVec 4) (rm : BitVec 2) (ftz : Bool) (s : State) : Out :=
  s.alu (usesOf (.scan h d a op rm ftz)) (some d) (fun s _ t =>
    let r := scanTree op.toNat rm.toNat ftz (treeStart s h t a op.toNat ftz)
    { ws := [(r.1.getD (laneOf t) none).getD 0], conds := r.2 })

def execScanExcl (h : Hdr) (d : Opnd) (a : Src) (op : BitVec 4) (rm : BitVec 2) (ftz : Bool) (s : State) : Out :=
  s.alu (usesOf (.scanExcl h d a op rm ftz)) (some d) (fun s _ t =>
    let r := scanTree op.toNat rm.toNat ftz (treeStart s h t a op.toNat ftz)
    let prev := if laneOf t = 0 then none else r.1.getD (laneOf t - 1) none
    { ws := [prev.getD (emptyResult op.toNat)], conds := r.2 })

/-! ## Matching, compress, expand (R183-R185) -/

/-- Do two lanes match: kinds 0 bits, 1 FP32 values, 2 the 64 bits of a pair? A lane matches itself. -/
def lanesMatch (s : State) (kind : Nat) (a : Src) (l m : Nat) : Bool :=
  l == m ||
  match kind with
  | 1 => (fp32.decode (s.rd [] l a).toNat).same (fp32.decode (s.rd [] m a).toNat)
  | 2 => s.rd64 [] l a == s.rd64 [] m a
  | _ => s.rd [] l a == s.rd [] m a

def execMatchLanes (h : Hdr) (kind : BitVec 2) (d : Opnd) (a : Src) (s : State) : Out :=
  s.alu (usesOf (.matchLanes h kind d a)) (some d) (fun s _ t =>
    out1 (State.laneMask ((xsOf s h t).filter (lanesMatch s kind.toNat a t))))

/-- The lanes of X with q = 1, in lane order. -/
def chosen (s : State) (h : Hdr) (t : Nat) (pm : Pred) (neg : Bool) : List Nat :=
  (xsOf s h t).filter (fun u => qOf s u pm neg)

def execCompress (h : Hdr) (d : Opnd) (a : Src) (pm : Pred) (neg z : Bool) (s : State) : Out :=
  s.alu (usesOf (.compress h d a pm neg z)) (some d) (fun s _ t =>
    match (chosen s h t pm neg)[laneOf t]? with
    | some u => out1 (s.rd [] u a)
    | none => if z then out1 0 else {})

def execExpand (h : Hdr) (d : Opnd) (a : Src) (pm : Pred) (neg z : Bool) (s : State) : Out :=
  s.alu (usesOf (.expand h d a pm neg z)) (some d) (fun s _ t =>
    if qOf s t pm neg then
      out1 (inLane s t ((chosen s h t pm neg).filter (fun u => decide (laneOf u < laneOf t))).length a)
    else if z then out1 0 else {})

end Sys2Proof.Machine
end

