-- ==== Sys2Proof/Machine/Issue.lean ====
section
/-!
DEFINITION. Sys2Proof/Machine/Issue.lean: how a core comes to issue: fetching a word (02 R31-R35), the regroup boundary
with the PC table, the claim queue and the convergence timers (04 R86-R97, 08 R193, R194), and the choice among the ready
groups of a port (R90, R91).
-/

namespace Sys2Proof.Machine

open Sys2Proof

/-! ## Fetching an instruction -/

/-- What a fetch at a PC yields. -/
inductive Fetched where
  | ok (i : Instr) (ws : List Word)
  | pad
  | trap (t : TrapInfo) (len : Nat)
  | park (p : Park)
  deriving DecidableEq, Repr

/-- A number as `n` 32-bit words, the lowest first. -/
def wordsOf (n w : Nat) : List Word := (List.range n).map (fun k => BitVec.ofNat 32 (w / 2 ^ (32 * k)))

namespace State

/-- Where an instruction lies. The windows other than the vault window hold no instructions (log 9). -/
def fetchPlace (s : State) (core lid pc : Nat) : Except Nat Place :=
  if vltWin ≤ pc && pc < vltWin + 2 ^ 31 then s.vltWindow core lid (pc - vltWin) .fetch
  else if topWin ≤ pc then .error cAperture
  else s.translate core lid pc .fetch

/-- Rules 5 to 8 of 02 R35 for a whole word, with the privilege check of 14 R383 after rule 6. -/
def decodeFor (s : State) (lid : Nat) (l : Len) (w : Nat) : Fetched :=
  let ws := wordsOf (l.bytes / 4) w
  let bad (code sub : Nat) : Fetched := .trap { code := code, sub := sub, words := ws } l.bytes
  let m := bitsOf w 18 11
  match decodeWord l w with
  | .error .badLength => bad 0x01 0
  | r =>
    if !(majorReserved m || majorUnassigned m) && (wordFeatures l w).any (fun k => !(s.la lid).feat k) then bad 0x02 0
    else if (m == 0xED || m == 0xEE) && !(s.la lid).priv then bad 0x02 1
    else match r with
      | .ok i => .ok i ws
      | .error .badPairing => bad 0x03 0
      | .error _ => bad 0x01 0

/-- Fetch the word at a PC for a launch on a core. -/
def fetch (s : State) (core lid pc : Nat) : Fetched :=
  match s.fetchPlace core lid pc with
  | .error c => .trap { code := 0x10, sub := c, ad := BitVec.ofNat 64 pc } 4
  | .ok p =>
    let away : Option Nat := match p.loc with
      | .stg page _ => if (s.chooseVersion lid page true (s.la lid).accSeal).isNone then some page else none
      | _ => none
    match (s.waitOf p.loc).orElse (fun _ => away.map Park.staging) with
    | some k => .park k
    | none =>
      let w0 := leNat (s.rdBytes lid p.loc 4)
      match lenOf w0 with
      | none => if w0 = padWord then .pad else .ok (.unassignedMajor 0 (BitVec.ofNat 128 w0)) (wordsOf 1 w0)
      | some l =>
        if 32 < pc % 32 + l.bytes then .trap { code := 0x04, words := wordsOf 1 w0 } l.bytes
        else s.decodeFor lid l (leNat (s.rdBytes lid p.loc l.bytes))

/-- A fetch keeps its translation, reads its line through L2 (log 68), and counts as a read of the staging version it obtained
(09 R254, 13 R357). -/
def fetchNote (s : State) (core lid pc : Nat) : State :=
  match s.fetchPlace core lid pc with
  | .error _ => s
  | .ok p =>
    let s1 := (if p.xlated then s.fillTlb core lid pc else s).fillL2 lid 0 p.loc
    match p.loc with
    | .stg page _ => match s.chooseVersion lid page true (s.la lid).accSeal with
      | some v => s1.noteRead lid page v
      | none => s1
    | _ => s1

/-- The state with a group taken up for issue. -/
def focusOn (s : State) (core pc : Nat) (tids : List Nat) (ws : List Word) : State :=
  { s with focus := { core := core, pc := pc, members := tids, word := ws } }

/-! ## Time on a core -/

/-- The wave of a core that a debugger steps, and whether its group has issued (14 R404). -/
def stepping (s : State) (c : Nat) : Option (Nat × Bool) :=
  match (s.di (dieOf c)).step with
  | some (k, x) => if k = c then some x else none
  | none => none

/-- A core whose die is halted, or whose cluster switches its clock, does not run, and no more does one whose die is out of
service, once its array is empty (04 R92, 14 R403, R406; 17 R447). -/
def coreStops (s : State) (c : Nat) : Bool :=
  let d := s.di (dieOf c)
  (d.halted && (s.stepping c).isNone) || ((!d.online || d.lost) && (s.co c).mx.isEmpty) || (s.cl (clusterOf c)).phase == 2

/-- Commit the fixed-latency results of a core that are due (02 R47). -/
def commitDue (s : State) (c : Nat) : State :=
  let now := s.clkOf c
  (s.commitWrites (fun w => w.core == c && decide (w.due ≤ now))).mapTwins (fun _ w t => w.core == c && decide (t ≤ now))

/-- Has a thread waited for its barrier until the clk it is due (10 R280)? -/
def barrierDue (s : State) (t : Nat) : Bool :=
  match (s.th t).park with
  | .barrier _ _ _ (some due) => decide (due ≤ s.clkOf (s.coreOf t))
  | _ => false

/-- The waiters of complete episodes that `p` selects go on once they are due, with an acquire at `.pkg` (09 R246). -/
def freeBarriers (s : State) (p : Nat → Bool) : State :=
  let ts := (s.threads.map Prod.fst).filter (fun t => p t && s.barrierDue t)
  (ts.map s.coreOf).dedup.foldl (fun s c => s.modCore c Core.acquire) (s.modThreads ts (fun _ x => { x with park := .none }))

/-! ## Threads of a core -/

/-- Waves in the slots of a core, and their live threads. -/
def coreWids (s : State) (c : Nat) : List Nat := (s.co c).slots.map Prod.snd
def liveTids (s : State) (wid : Nat) : List Nat := (tidsOf wid).filter (fun t => (s.th t).live)
def coreTids (s : State) (c : Nat) : List Nat := (s.coreWids c).flatMap s.liveTids

/-- Ready but for its next instruction (04 R88). Its team is neither stopped for a snapshot (14 R392) nor stalled for a fault that is
still to be reported (15 R422). -/
def freeToGo (s : State) (c tid : Nat) : Bool :=
  let t := s.th tid
  let w := s.wv (widOf tid)
  let k := s.tm (tagOf tid)
  t.live && t.park == .none && t.pendTrap.isNone && t.faults.isEmpty && decide (t.readyAt ≤ s.clkOf c) &&
  k.stopAt.isNone && !k.ring && w.quiet.isNone && !w.snapWait && w.lic != .wait && w.lic != .saved && w.saved.isEmpty

/-- The instruction a thread stands at, where it can be fetched. -/
def nextInstr (s : State) (c tid : Nat) : Option Instr :=
  match s.fetch c (s.lidOf tid) (s.th tid).pc with
  | .ok i _ => some i
  | _ => none

/-- A thread is a candidate (04 R88): it is ready, and so is its instruction (02 R48, 04 R90). -/
def candidate (s : State) (c tid : Nat) : Bool :=
  s.freeToGo c tid && (s.th tid).inTable &&
  (match s.nextInstr c tid with
   | some i => !(s.focusOn c (s.th tid).pc [tid] []).notReady (usesOf i)
   | none => true)

/-! ## The passing of a clk -/

/-- A core is issue-bound in its clk: a port issued, or its matrix unit is in an array phase (17 R444). -/
def issueBound (s : State) (c : Nat) : Bool :=
  let k := s.co c
  k.arithAt == k.clk + 1 || k.memAt == k.clk + 1 ||
  k.mx.any (fun e => match e.started with | some t => decide (k.clk < t + e.lenClk) | none => false)

/-- A thread waits on a memory result of variable latency, an engine pop, a presence bit, `BBWAIT` or a stage-queue operation
(17 R444). -/
def onMemory (s : State) (c tid : Nat) : Bool :=
  let ours (w : Tgt × Word) : Bool := match w.1 with | .v t _ | .p t _ | .sr t _ => t == tid | .s v _ | .u v _ => v == widOf tid
  let res (gs : Option (List Tgt)) : Bool := s.vres.any (fun r => r.core == c && (r.cls == 0 || r.cls == 4) &&
    r.writes.any (fun w => match gs with | some gs => gs.contains w.1 | none => ours w))
  match (s.th tid).park with
  | .presence _ _ | .bbwait _ _ _ _ | .sq _ _ => true
  | .none => s.freeToGo c tid && (match s.nextInstr c tid with
    | some i =>
      let u := usesOf i
      let f := s.focusOn c (s.th tid).pc [tid] []
      (match u.popQ with | some q => ((s.wv (widOf tid)).er.getD q []).isEmpty | none => false) ||
      res (some ((f.readTgts u ++ f.writeTgts u).map Prod.fst))
    | none => false)
  | .waitsb _ => res none
  | _ => s.held.any (fun a => a.tid == tid && !a.vres.isNone)

/-- The clk that passes on a core is counted for its cluster's sample, where a wave is resident on the core (17 R444). -/
def countClk (s : State) (c : Nat) : State :=
  if (s.co c).slots.isEmpty then s
  else
    let iss := s.issueBound c
    let mem := !iss && (s.coreTids c).any (s.onMemory c)
    s.modCluster (clusterOf c) (fun k => { k with
      actN := k.actN + 1, issN := k.issN + iss.toNat, memN := k.memN + mem.toNat })

/-- One clk passes on a core. -/
def tickClk (s : State) (c : Nat) : State :=
  (freeBarriers ((s.countClk c).modCore c (fun k => { k with clk := k.clk + 1 })) (fun t => s.coreOf t == c)).commitDue c

/-- The clk passes on to the next multiple of 4. -/
def toBoundary : Nat → State → Nat → State
  | 0, s, _ => s
  | n + 1, s, c => if s.clkOf c % 4 = 0 then s else toBoundary n (s.tickClk c) c

/-- The set of the PC table a PC belongs to (04 R86). -/
def pcSet (pc : Nat) : Nat := bitsOf pc 5 2 ^^^ bitsOf pc 9 6

/-! ## The steps of a regroup boundary -/

/-- Advance threads that stand at pad words, a fetch block at most (02 R32). -/
def skipPads (s : State) (c : Nat) : Nat → State
  | 0 => s
  | n + 1 =>
    let ts := (s.coreTids c).filter (fun t => s.freeToGo c t &&
      (match s.fetch c (s.lidOf t) (s.th t).pc with | .pad => true | _ => false))
    if ts.isEmpty then s
    else skipPads (s.modThreads ts (fun _ t => { t with pc := (t.pc + 4) % 2 ^ 52, inTable := false })) c n

/-- Held `YIELD` threads at a boundary (04 R113). -/
def serveYield (s : State) (c : Nat) : State :=
  (s.coreTids c).foldl (fun s tid =>
    match (s.th tid).park with
    | .yield left =>
      let others := (s.liveTids (widOf tid)).filter (· != tid)
      if left = 0 || others.all (fun o => (s.th o).pc == (s.th tid).pc) then s.modThread tid (fun t => { t with park := .none })
      else s.modThread tid (fun t => { t with park := .yield (left - 1) })
    | _ => s) s

/-- The oldest waiting threads of the overflow list, by waiting age (04 R87). -/
def overflow (s : State) (c : Nat) : List Nat :=
  sortBy (fun t => (s.th t).lastIssue) ((s.coreTids c).filter (fun t => !(s.th t).inTable))
/-- The PCs that have an entry in a set. -/
def entries (s : State) (c k : Nat) : List Nat :=
  (((s.coreTids c).filter (fun t => (s.th t).inTable && pcSet (s.th t).pc == k)).map (fun t => (s.th t).pc)).dedup
/-- The clk at which the threads of an entry last issued. -/
def entryAge (s : State) (c pc : Nat) : Nat :=
  (((s.coreTids c).filter (fun t => (s.th t).inTable && (s.th t).pc == pc)).map (fun t => (s.th t).lastIssue)).foldl max 0

/-- A thread of a core reaches its PC: all threads there are in the PC's entry, if there is one or a free way (04 R86). -/
def reachPc (s : State) (c tid : Nat) : State :=
  let pc := (s.th tid).pc
  let es := s.entries c (pcSet pc)
  if es.contains pc || decide (es.length < 4) then
    s.modThreads ((s.coreTids c).filter (fun t => (s.th t).pc == pc)) (fun _ t => { t with inTable := true })
  else s

/-- Has a thread come to its PC since an earlier state? One that waits in the overflow list, or has been displaced into it,
has not. -/
def reached (s0 s : State) (tid : Nat) : Bool :=
  let a := s0.th tid
  let b := s.th tid
  let w0 := s0.wv (widOf tid)
  let w := s.wv (widOf tid)
  b.live && !b.inTable && w.resident && (a.pc != b.pc || a.readyAt != b.readyAt || !a.live || !w0.resident || w0.core != w.core)

/-- Threads that have come to a PC since an earlier state reach the PC table, in thread order (log 56). -/
def settlePcs (s0 s : State) : State :=
  ((s.threads.map Prod.fst).filter (reached s0 s)).foldl (fun s t => s.reachPc (s.coreOf t) t) s

/-- Each set admits the PC of its oldest waiting thread: into a free way, else displacing the way that issued least recently
(04 R87). Threads of a displaced entry that sit in a formed group stay in it: groups are never split (R89, log 57). -/
def admitSet (s : State) (c k : Nat) : State :=
  match (s.overflow c).find? (fun t => pcSet (s.th t).pc == k) with
  | none => s
  | some tid =>
    let pc := (s.th tid).pc
    let es := s.entries c k
    let s1 := if es.length < 4 then s
      else match (sortBy (s.entryAge c) es).head? with
        | some old => s.modThreads ((s.coreTids c).filter (fun t => (s.th t).pc == old)) (fun _ t => { t with inTable := false })
        | none => s
    s1.modThreads ((s1.coreTids c).filter (fun t => (s.th t).pc == pc)) (fun _ t => { t with inTable := true })
def admitAll (s : State) (c : Nat) : State := (List.range 16).foldl (fun s k => s.admitSet c k) s

/-- Waits in which a thread stands at its collective instruction, which has issued. -/
def issuedPark : Park → Bool
  | .claim | .sq _ _ | .iter => true
  | _ => false

/-- A thread has a collective point as its next PC (04 R96). -/
def atPoint (s : State) (c tid : Nat) : Bool :=
  !issuedPark (s.th tid).park && (match s.nextInstr c tid with | some i => (usesOf i).collective | none => false)

/-- Convergence timers that start at this boundary (04 R96), by the wave's earliest arrival: of lanes that have arrived in one clk
the lowest one's (log 92). A timer that has started keeps its PC, also over a pre-emption (R106). -/
def startTimers (s : State) (c : Nat) : State :=
  (s.coreWids c).foldl (fun s wid =>
    if (s.wv wid).timerRun || (s.tm (tagW wid)).stopAt.isSome then s
    else match (sortBy (fun t => (s.th t).lastIssue) ((s.liveTids wid).filter (s.atPoint c))).head? with
      | some t => s.modWave wid (fun w => { w with timerRun := true, timerOn := some (s.clkOf c), timerPc := (s.th t).pc })
      | none => s) s

/-- Threads of formed groups of a core. -/
def grouped (s : State) (c : Nat) : List Nat := (s.co c).groups.flatMap Group.members

/-- Put a candidate of a plain instruction in the group of its PC and launch, if its lane is free there (04 R88; log 62). -/
def joinGroup (now : Nat) (pc tid lid : Nat) (lidOf : Nat → Nat) : List Group → List Group
  | [] => [{ pc := pc, formed := now, members := [tid], since := now }]
  | g :: r =>
    if g.pc = pc && !g.coll && lidOf (g.members.headD 0) == lid then
      (if g.members.any (fun m => laneOf m == laneOf tid) then g
       else { g with members := insertBy laneOf tid g.members }) :: r
    else g :: joinGroup now pc tid lid lidOf r

/-- Form groups (04 R88, R94): candidates of the older wave first; a collective group only of a whole live set. -/
def formGroups (s : State) (c : Nat) : State :=
  let now := s.clkOf c
  let wids := sortBy (fun w => (s.wv w).age) (s.coreWids c)
  wids.foldl (fun s wid =>
    let live := s.liveTids wid
    let free := live.filter (fun t => !(s.grouped c).contains t && s.candidate c t)
    let isColl (t : Nat) : Bool := match s.nextInstr c t with | some i => (usesOf i).collective | none => false
    let plain := free.filter (fun t => !isColl t)
    let s1 := plain.foldl (fun s t => s.modCore c (fun k => { k with
        groups := joinGroup now (s.th t).pc t (s.lidOf t) s.lidOf k.groups })) s
    match free with
    | t :: _ =>
      if isColl t && decide (free.length = live.length) && live.all (fun u => (s.th u).pc == (s.th t).pc) then
        s1.modCore c (fun k => { k with
          groups := k.groups ++ [{ pc := (s.th t).pc, formed := now, members := live, coll := true, since := now }] })
      else s1
    | [] => s1) s

/-! ### The register claim queue (08 R193, R194) -/

/-- Lines `v`n.. of a wave set to zero. -/
def zeroRegs (s : State) (wid n k : Nat) : State :=
  { s with vregs := s.vregs.filter (fun e =>
      !(e.1 / 256 / 32 == wid && decide (n ≤ e.1 % 256) && decide (e.1 % 256 < n + k))) }

/-- Serve the claims at the head that FREE covers: lines are allocated and zeroed, the wave goes on behind its `REGCLM`. -/
def serveClaims : Nat → State → Nat → State
  | 0, s, _ => s
  | fuel + 1, s, c =>
    match (s.co c).claims with
    | [] => s
    | q :: rest =>
      if (s.co c).free < q.n then s
      else
        -- a pre-empted wave's new lines stand in its context image (log 58)
        let s1 := s.modCore c (fun k => { k with
          claims := rest, free := if (s.wv q.wid).resident then k.free - q.n else k.free }.trimL1)
        let s2 := (s1.zeroRegs q.wid (s.wv q.wid).regs q.n).modWave q.wid (fun w => { w with regs := w.regs + q.n, claimN := 0 })
        let s3 := s2.modThreads (s.liveTids q.wid) (fun _ t =>
          if t.park = .claim then
            { t with
              park := .none, pc := (t.pc + 8) % 2 ^ 52, inTable := false, lastIssue := s.clkOf c, readyAt := s.clkOf c + 4 }
          else t)
        serveClaims fuel s3 c

/-- The words of the deadlock record (08 Table 8.3). -/
def claimRecord (s : State) (c tag : Nat) : List Word :=
  let q := (s.co c).claims
  BitVec.ofNat 32 (q.length * 2 ^ 13 + (s.co c).free) ::
    q.map (fun e => BitVec.ofNat 32
      ((if tagW e.wid == tag then 2 ^ 16 else 0) + e.n % 256 * 2 ^ 8 + e.slot))

/-- Lines that a wave's `REGREL` returns once the writes to them have committed: its group is formed and waits (08 R194). -/
def relWaits (s : State) (c : Nat) : Nat :=
  ((s.co c).groups.map (fun g => match s.nextInstr c (g.members.headD 0) with
    | some (.regrel h n) =>
      let x := s.focusOn c g.pc g.members []
      let w := widOf (g.members.headD 0)
      if (x.wavesX h).isEmpty || (s.wv w).regs < n.toNat + 8 then 0 else n.toNat
    | _ => 0)).sum

/-- The deadlock test of a team with a queued claim. -/
def claimStuck (s : State) (c tag : Nat) : Bool :=
  let q := (s.co c).claims
  let pre := (q.takeWhile (fun e => tagW e.wid != tag)).length + 1
  let waves := (s.teamWids tag).filter (fun w => !(s.liveTids w).isEmpty)
  (s.tm tag).running && waves.all (fun w => (s.wv w).claimN != 0) &&
  decide ((s.co c).free + s.relWaits c < ((q.take pre).map ClaimReq.n).sum)

def claimDeadlock (s : State) (c : Nat) : State :=
  let tags := ((s.co c).claims.map (fun e => tagW e.wid)).dedup
  tags.foldl (fun s tag =>
    if !s.claimStuck c tag then s
    else
      let words := s.claimRecord c tag
      let wids := (s.teamWids tag).filter (fun w => (s.wv w).claimN != 0)
      let s1 := s.modCore c (fun k => { k with claims := k.claims.filter (fun e => tagW e.wid != tag) })
      wids.foldl (fun s wid =>
        let tids := (s.liveTids wid).filter (fun t => (s.th t).park == .claim)
        let pc := (s.th (tids.headD 0)).pc
        ((s.modWave wid (fun w => { w with claimN := 0 })).modThreads tids (fun _ t => { t with park := .none })).takeTrap
          tids { code := 0x12, mask := laneMask tids, words := words } pc (pc + 8) (s.clkOf c + 4) none) s1) s

/-- Pads are skipped, threads reach the PC table, and each set admits one waiting PC (02 R32, 04 R86, R87). -/
def tablePcs (s : State) (c : Nat) : State :=
  let s1 := s.skipPads c 8
  (s.settlePcs s1).admitAll c

/-- The regroup boundary of a core (04 R88). A boundary falls on the next clk that is a multiple of 4. -/
def boundary (s : State) (c : Nat) : State :=
  let s1 := s.toBoundary 4 c
  let s2 := ((s1.serveClaims 32 c).claimDeadlock c).serveYield c
  let s3 := s1.settlePcs s2
  ((s3.tablePcs c).startTimers c).formGroups c

/-! ## Issue -/

/-- A formed group can issue at this clk: its threads are ready and so is its instruction (04 R90). -/
def groupReady (s : State) (c : Nat) (g : Group) : Bool :=
  g.members.all (fun t => s.freeToGo c t) &&
  (match s.nextInstr c (g.members.headD 0) with
   | some i => !(s.focusOn c g.pc g.members []).notReady (usesOf i)
   | none => true)

/-- The port of a group's instruction (04 Table 4.1); true is memory/engine. A word that does not decode goes by its opcode. -/
def groupPort (s : State) (c : Nat) (g : Group) : Bool :=
  match s.fetch c (s.lidOf (g.members.headD 0)) g.pc with
  | .ok i _ => (usesOf i).memPort
  | .trap t _ => memMajor (bitsOf (t.words.headD 0).toNat 18 11)
  | _ => false

/-- A clk has passed: a formed group that is not ready may be so from the next clk on (04 R91). -/
def noteReady (s : State) (c : Nat) : State :=
  s.modCore c (fun k => { k with groups := k.groups.map (fun g =>
    if s.groupReady c g then g else { g with since := k.clk + 1 }) })

/-- The order of 04 R91 as one number: urgent, collective, other; then age of formation, oldest wave, lower PC. -/
def rankOf (s : State) (c : Nat) (g : Group) : Nat :=
  let cls := if g.since + 512 ≤ s.clkOf c then 0 else if g.coll then 1 else 2
  let age := (g.members.map (fun t => (s.wv (widOf t)).age)).foldl min ((s.wv (widOf (g.members.headD 0))).age)
  ((cls * 2 ^ 64 + g.formed) * 2 ^ 64 + age) * 2 ^ 52 + g.pc

/-- The group a port issues at this clk, if any. -/
def pickGroup (s : State) (c : Nat) (mem : Bool) : Option Group :=
  (sortBy (s.rankOf c) ((s.co c).groups.filter (fun g => s.groupPort c g == mem && s.groupReady c g))).head?

/-- The next group of a core to issue at its clk: the arithmetic port's, then the memory/engine port's (04 R90). -/
def nextGroup (s : State) (c : Nat) : Option Group :=
  let k := s.co c
  match (if k.arithAt ≤ k.clk then s.pickGroup c false else none) with
  | some g => some g
  | none => if k.memAt ≤ k.clk then s.pickGroup c true else none

/-- A thread of a core with a user trap that is still to enter its handler (14 R379). -/
def pendingTrap (s : State) (ts : List Nat) : Option (Nat × TrapInfo) :=
  ts.findSome? (fun t =>
    if (s.th t).park = .none then (s.th t).pendTrap.map (fun ti => (t, ti)) else none)

/-- Enter the handler of a pending user trap again from its first step. -/
def redeliver (s : State) (tid : Nat) (ti : TrapInfo) : State :=
  let at_ := (s.th tid).pc
  let len := match s.nextInstr (s.coreOf tid) tid with | some i => i.bytes | none => 4
  let pc := (s.th tid).pendPc.getD at_
  let npc := if (s.th tid).pendPc.isSome || (s.th tid).pendAsync.isSome then at_ else (at_ + len) % 2 ^ 52
  if isUserTrap ti.code then s.userTrap [tid] ti pc npc (s.clkOf (s.coreOf tid) + 4) (s.th tid).pendAsync tid
  else (s.modThread tid (fun t => { t with pendTrap := none, pendAsync := none, pendPc := none })).systemTrap [tid] ti pc npc
    (s.th tid).pendAsync

/-- Take up a group: what its fetch yields. An instruction to execute, or the state after a fetch that gave none. -/
def takeUp (s : State) (c : Nat) (g : Group) : Sum (Instr × State) State :=
  let lid := s.lidOf (g.members.headD 0)
  let s1 := (s.fetchNote c lid g.pc).focusOn c g.pc g.members []
  match s.fetch c lid g.pc with
  | .ok i ws => .inl (i, s1.focusOn c g.pc g.members ws)
  | .pad => .inr (s1.leave.modThreads g.members (fun _ t => { t with pc := (t.pc + 4) % 2 ^ 52, inTable := false }))
  | .trap t len => .inr ((s1.focusOn c g.pc g.members t.words).raise ⟨.w64, 0, 0, false⟩ len { t with mask := laneMask g.members })
  | .park p => .inr (s1.leave.modThreads g.members (fun _ t => { t with park := p }))

/-- While a debugger steps one wave of a core, the halt goes on for the others: their convergence timers and `MWAIT` limits do
not count (04 R92, 14 R403). -/
def shiftOthers (s : State) (c wid n : Nat) : State :=
  let other (w : Wave) (k : Nat) : Bool := w.core == c && w.resident && k != wid
  { s with
    waves := s.waves.map (fun e => if other e.2 e.1 then (e.1, { e.2 with timerOn := e.2.timerOn.map (· + n) }) else e)
    threads := s.threads.map (fun e => if other (s.wv (widOf e.1)) (widOf e.1) then
        (e.1, { e.2 with park := match e.2.park with | .mwait l pd k => .mwait (l + n) pd k | p => p })
      else e) }

/-- One clk of a step. -/
def stepTick (s : State) (c wid : Nat) : State := (s.tickClk c).shiftOthers c wid 1

/-- Form groups of one wave only, at the core's next boundary (14 R404). -/
def stepBoundary (s : State) (c wid : Nat) : State :=
  let sb := (s.tickClk c).toBoundary 4 c
  let s0 := sb.shiftOthers c wid (sb.clkOf c - s.clkOf c)
  let k := s0.co c
  let rest := k.groups.filter (fun g => g.members.all (fun t => widOf t != wid))
  let s1 := s0.modCore c (fun x => { x with slots := k.slots.filter (fun e => e.2 == wid), groups := [] })
  let s2 := ((s1.serveYield c).tablePcs c).formGroups c
  s2.modCore c (fun x => { x with slots := k.slots, groups := rest ++ x.groups })

/-- Why a stepped wave has no ready group. -/
def whyNoIssue (s : State) (c wid : Nat) : Nat :=
  let ts := s.liveTids wid
  if ts.all (fun t => (s.th t).park != .none) then 1
  else if ts.any (fun t => match s.nextInstr c t with | some i => (usesOf i).collective | none => false) then 2
  else 3

def setStep (s : State) (c : Nat) (x : Option (Nat × Nat × Bool)) (why : Nat) : State :=
  s.modDie (dieOf c) (fun d => { d with step := x, stepInfo := why })

/-- Results and array instructions of a wave that are on their way; the access of a parked thread stands still. -/
def stepBusy (s : State) (c wid : Nat) : Bool :=
  let aims (t : Tgt) : Bool := match t with | .v t _ | .p t _ | .sr t _ => widOf t == wid | .s w _ | .u w _ => w == wid
  s.pend.any (fun w => aims w.tgt) ||
  s.vres.any (fun r => r.writes.any (fun w => aims w.1) && !s.held.any (fun a => a.vres == some (r.core, r.id))) ||
  (s.co c).mx.any (fun e => e.wid == wid)

/-- A step of one wave (14 R404): the group that R91 chooses issues; what is on its way completes; the core halts again. -/
def stepNext (s : State) (c wid : Nat) (issued : Bool) : Sum (Instr × State) State :=
  if issued then
    if s.stepBusy c wid then .inr (s.stepTick c wid) else .inr (s.setStep c none 0)
  else match s.pendingTrap (s.liveTids wid) with
  | some (tid, ti) => .inr ((s.setStep c (some (c, wid, true)) 0).redeliver tid ti)
  | none =>
    let s1 := s.stepBoundary c wid
    match (sortBy (s1.rankOf c) ((s1.co c).groups.filter (fun g => g.members.all (fun t => widOf t == wid) && s1.groupReady c g))).head? with
    | some g => (s1.setStep c (some (c, wid, true)) 0).takeUp c g
    | none => .inr (s1.setStep c none (s1.whyNoIssue c wid))

/-- What a core does next: an instruction to execute, or its next state. -/
def coreNext (s : State) (c : Nat) : Sum (Instr × State) State :=
  if s.coreStops c then .inr s
  else match s.stepping c with
  | some (wid, issued) => s.stepNext c wid issued
  | none => match s.pendingTrap (s.coreTids c) with
  | some (tid, ti) => .inr (s.redeliver tid ti)
  | none =>
    match s.nextGroup c with
    | some g => s.takeUp c g
    | none =>
      let s1 := (s.tickClk c).noteReady c
      if s1.clkOf c % 4 = 0 then .inr (s1.boundary c) else .inr s1

end State

end Sys2Proof.Machine
end

