-- ==== Sys2Proof/Machine/Control.lean ====
section
/-!
DEFINITION. Sys2Proof/Machine/Control.lean: the control and thread instructions (04), and the words that are no
instruction (02 R35, R56).
-/

namespace Sys2Proof.Machine

open Sys2Proof

namespace State

/-! ## Transfers (R93, R108, R109) -/

/-- The cause of the misaligned-target trap for a 64-bit target, cause 0 first (04 Table 4.5). -/
def targetCause (x : DWord) : Option Nat :=
  if x.toNat % 4 ≠ 0 then some 0 else if 2 ^ 52 ≤ x.toNat then some 1 else none

/-- The group's threads go on: those with a target to it, ready under R93, the others to the fall-through. -/
def transfer (s : State) (h : Hdr) (len : Nat) (target : Nat → Option DWord) : State :=
  s.modThreads s.grp (fun tid t => match target tid with
    | some x => { t with pc := x.toNat, readyAt := s.now + max h.stall.toNat 4, lastIssue := s.now, inTable := false }
    | none => { t with
        pc := (t.pc + len) % 2 ^ 52, readyAt := s.now + max h.stall.toNat 1, lastIssue := s.now, inTable := false })

/-- The misaligned-target trap of the lowest failing lane among targets. -/
def targetTrap (s : State) (ts : List (Nat × DWord)) : Option TrapInfo :=
  match ts.find? (fun t => (targetCause t.2).isSome) with
  | none => none
  | some t => some {
      code := 0x05, sub := (targetCause t.2).getD 0, ad := t.2
      mask := laneMask ((s.grp.filter (fun g => ts.any (fun e => e.1 == g && (targetCause e.2).isSome)))) }

/-! ## Return stacks (R98-R100) -/

/-- Where a spilled return address of a thread lies. -/
def spillPlace (s : State) (tid addr : Nat) (acc : Acc) : Except Nat Place :=
  if topWin ≤ addr then .error cAperture else s.translate (s.coreOf tid) (s.lidOf tid) addr acc

/-- What a push or a pop of one thread does: nothing wrong, a trap, or a wait. -/
inductive StackDo where
  | ok (s : State)
  | trap (t : TrapInfo)
  | park (p : Park)
  | exhausted (page : Nat)

/-- The translation fault of a spill or fill (R100). -/
def stackFault (tid addr cause : Nat) : StackDo :=
  .trap { code := 0x10, sub := cause, ad := BitVec.ofNat 64 addr, mask := laneMask [tid] }

/-- Push a return address in a thread (R98): a full on-chip stack first spills its oldest entry, by a store of the thread (R99),
which a paired copy holds and records (14 R394, R395). -/
def pushRet (s : State) (tid ra : Nat) : StackDo :=
  let t := s.th tid
  if t.stack.length < 8 then .ok (s.modThread tid (fun t => { t with stack := ra :: t.stack }))
  else match s.spillPlace tid t.rsptr .write with
    | .error c => stackFault tid t.rsptr c
    | .ok p =>
      let old := leBytes 8 (t.stack.getLastD 0)
      if s.passesHold (tagOf tid) [{ tid := tid, loc := p.loc, bytes := old }] then .trap { code := 0x2D, mask := laneMask [tid] }
      else match s.waitOf p.loc with
      | some k => .park k
      | none => match s.openPiece tid (p.loc, 8, t.rsptr) with
        | .park k => .park k
        | .exhausted page => .exhausted page
        | .ok s1 =>
          let s2 := (s1.writePiece tid 0 p.loc old t.rsptr).addRecord tid t.rsptr 3 old
          .ok (s2.modThread tid (fun t => { t with
            stack := ra :: t.stack.dropLast, rsptr := (t.rsptr + 8) % 2 ^ 52, spilled := t.spilled + 1 }))

/-- The return address a pop would take, and the state after it (R98, R103): a fill is a load of the thread (R99); what another
package holds is free (log 8). -/
def popRet (s : State) (tid : Nat) : Sum (DWord × State) StackDo :=
  let t := s.th tid
  let below := decide (t.spilled + t.stack.length ≤ t.rdepth)
  let clear (t : Thread) : Thread := if below then { t with rvalid := false } else t
  match t.stack with
  | ra :: r => .inl (BitVec.ofNat 64 ra, s.modThread tid (fun t => clear { t with stack := r }))
  | [] =>
    if t.spilled = 0 then .inr (.trap { code := 0x06, mask := laneMask [tid], words := [s.pcWord] })
    else
      let addr := (t.rsptr + 2 ^ 52 - 8) % 2 ^ 52
      match s.spillPlace tid addr .read with
      | .error c => .inr (stackFault tid addr c)
      | .ok p =>
        match (s.waitOf p.loc).orElse (fun _ => s.waitRead tid p.loc) with
        | some k => .inr (.park k)
        | none =>
          if isFar s p.loc then
            let x := freeBytes s 8
            .inl (BitVec.ofNat 64 (leNat x.2), x.1.modThread tid (fun t => clear { t with rsptr := addr, spilled := t.spilled - 1 }))
          else
          .inl (BitVec.ofNat 64 (leNat (s.readPiece tid p.loc 8)),
            (s.readMarks (s.coreOf tid) tid 0 p.loc 8).modThread tid (fun t => clear { t with rsptr := addr, spilled := t.spilled - 1 }))

/-- The trap code of an obstacle. -/
def stackCode : StackDo → Nat
  | .trap t => t.code
  | _ => 0

/-- Stop the group before its instruction, for one thread's obstacle; `same` tells the lanes that meet the same condition. -/
def stackStop (s : State) (u : Uses) (tid : Nat) (same : Nat → Nat) : StackDo → State
  | .ok s1 => s1
  | .trap t => s.raise u.h u.len { t with mask := laneMask ((s.xs u.h).filter (fun k => same k == t.code)) }
  | .park p => s.leave.modThreads s.grp (fun _ t => { t with park := p })
  | .exhausted page => s.exhaust (s.lidOf tid) page

/-- Push for each executing thread in lane order; the first obstacle stops the instruction whole. -/
def pushAll (s : State) (ra : Nat) : List Nat → Sum State (Nat × StackDo)
  | [] => .inl s
  | t :: r => match s.pushRet t ra with
    | .ok s1 => pushAll s1 ra r
    | x => .inr (t, x)

/-- Pop for each executing thread in lane order. -/
def popAll (s : State) : List Nat → Sum (List (Nat × DWord) × State) (Nat × StackDo)
  | [] => .inl ([], s)
  | t :: r => match s.popRet t with
    | .inr x => .inr (t, x)
    | .inl (ra, s1) => match popAll s1 r with
      | .inl (l, s2) => .inl ((t, ra) :: l, s2)
      | .inr x => .inr x

/-- R100: a push would make the thread's stack deeper than 2^24 − 1. -/
def overflows (s : State) (t : Nat) : Bool := decide (2 ^ 24 - 1 < (s.th t).spilled + (s.th t).stack.length + 1)

/-- The return-overflow trap of the threads it holds for. The record has the lowest one's SPILLED and ONCHIP, in every thread
(log 63). -/
def overflowTrap (s : State) (xs : List Nat) : Option TrapInfo :=
  let bad := xs.filter s.overflows
  match bad with
  | [] => none
  | t :: _ => some {
      code := 0x0B, mask := laneMask bad
      words := [s.pcWord, BitVec.ofNat 32 (s.th t).spilled, BitVec.ofNat 32 (s.th t).stack.length] }

/-- The trap of the lowest lane that fails its target check or would overflow its stack, with the lanes before it, whose
spills may still fault (14 R378). -/
def laneStop (s : State) (isCall : Bool) (ts : List (Nat × DWord)) : Option (List Nat × TrapInfo) :=
  let bad (e : Nat × DWord) : Bool := (targetCause e.2).isSome || (isCall && s.overflows e.1)
  match ts.find? bad with
  | none => none
  | some e =>
    (if (targetCause e.2).isSome then s.targetTrap ts else s.overflowTrap (ts.map Prod.fst)).map (fun t =>
      ((ts.takeWhile (fun e => !bad e)).map Prod.fst, t))

/-- A call or a branch of the executing threads to their targets (R108, R109). -/
def jump (s : State) (u : Uses) (isCall : Bool) (target : State → Nat → DWord) : Out :=
  s.byGate u (fun s =>
    let ts := (s.xs u.h).map (fun t => (t, target s t))
    let go (s : State) : State := (s.issued u).transfer u.h u.len (fun t => (ts.find? (fun e => e.1 == t)).map Prod.snd)
    let push (xs : List Nat) : Sum State (Nat × StackDo) :=
      if isCall then s.pushAll ((s.focus.pc + u.len) % 2 ^ 52) xs else .inl s
    let stop (x : Nat × StackDo) : State := s.stackStop u x.1 (fun k => stackCode (s.pushRet k 0)) x.2
    match s.laneStop isCall ts with
    | none => match push (s.xs u.h) with
      | .inl s1 => .next (go s1)
      | .inr x => .next (stop x)
    | some (before, t) => match push before with
      | .inl _ => .next (s.raise u.h u.len t)
      | .inr x => .next (stop x))

/-- A transfer target relative to the instruction. -/
def relTarget (s : State) (off : Word) : DWord := BitVec.ofNat 64 s.focus.pc + sext64 off

end State

def execBra (h : Hdr) (off : Word) (s : State) : Out := s.jump (usesOf (.bra h off)) false (fun s _ => s.relTarget off)

def execCall (h : Hdr) (off : Word) (s : State) : Out := s.jump (usesOf (.call h off)) true (fun s _ => s.relTarget off)

def execBri (h : Hdr) (a : Src) (s : State) : Out := s.jump (usesOf (.bri h a)) false (fun s t => s.rd64 [] t a)

def execCalli (h : Hdr) (a : Src) (s : State) : Out := s.jump (usesOf (.calli h a)) true (fun s t => s.rd64 [] t a)

/-- The addresses that the executing threads would pop, where they can. -/
def State.popTargets (s : State) (xs : List Nat) : List (Nat × DWord) :=
  xs.filterMap (fun t => match s.popRet t with | .inl (ra, _) => some (t, ra) | .inr _ => none)

/-- R110: pop and transfer; a target that fails the checks undoes the pop. The trap is that of the lowest failing lane. -/
def execRet (h : Hdr) (s : State) : Out :=
  let u := usesOf (.ret h)
  s.byGate u (fun s =>
    match s.popAll (s.xs h) with
    | .inr (t, x) =>
      let ts := s.popTargets (s.xs h)
      let before := ((s.xs h).takeWhile (· != t)).any (fun k => ts.any (fun e => e.1 == k && (State.targetCause e.2).isSome))
      match (if before then s.targetTrap ts else none) with
      | some tr => .next (s.raise h u.len tr)
      | none => .next (s.stackStop u t (fun k => match s.popRet k with | .inr y => State.stackCode y | .inl _ => 0) x)
    | .inl (ts, s1) =>
      match s.targetTrap ts with
      | some t => .next (s.raise h u.len t)
      | none => .next ((s1.issued u).transfer h u.len (fun t => (ts.find? (fun e => e.1 == t)).map Prod.snd)))

/-- R111: the executing threads end. Their held stores and commands go on; `WAVE_SLOT_FREE` frees the slot. -/
def execExit (h : Hdr) (s : State) : Out :=
  let u := usesOf (.exit h)
  s.byGate u (fun s =>
    let xs := s.xs h
    let s1 := ((s.issued u).advance h u.len).modThreads xs (fun _ t => { t with
      live := false, monitor := none, armed := false, hit := false, stack := [] })
    .next ((s.wavesX h).foldl (fun x w => if (x.liveTids w).isEmpty then x.waveRecords w else x) s1))

/-- R112. -/
def execNop (h : Hdr) (s : State) : Out :=
  let u := usesOf (.nop h)
  s.byGate u (fun s => .next ((s.issued u).advance h u.len))

/-- R112: the executing threads are held until `t + max(s, n, 1)`. -/
def execStall (h : Hdr) (n : BitVec 16) (s : State) : Out :=
  let u := usesOf (.stall h n)
  s.byGate u (fun s =>
    .next (((s.issued u).advance h u.len).modThreads (s.xs h) (fun _ t => { t with readyAt := max t.readyAt (s.now + n.toNat) })))

/-- R113. -/
def execYield (h : Hdr) (n : BitVec 6) (s : State) : Out :=
  let u := usesOf (.yield h n)
  s.byGate u (fun s =>
    .next (((s.issued u).advance h u.len).modThreads (s.xs h) (fun _ t => { t with park := .yield n.toNat })))

/-- R114: reconvergence is the group's formation; nothing else happens. -/
def execColl (h : Hdr) (s : State) : Out :=
  let u := usesOf (.coll h)
  s.byGate u (fun s => .next ((s.issued u).advance h u.len))

/-- A region entry of a thread at an address with a count (R102). -/
def enterRegion (pc : Nat) (count : Word) (t : Thread) : Thread :=
  { t with rpc := pc, rcount := count, rdepth := t.spilled + t.stack.length, rvalid := true }

/-- The copies a wave keeps at a region entry (R102; 06 R171 copies the call index of the executing lanes only), and the
records the wave held, which enter the stream (13 R354). -/
def copyRegion (s : State) (wid : Nat) (lanes : List Nat) : State :=
  (s.modLaunch (s.tm (tagW wid)).lid (fun l => { l with stream := l.stream ++ (s.wv wid).held })).modWave wid (fun w => { w with
    ufbufR := (List.range 64).map (fun n => BitVec.ofNat 8 (s.ufEntry wid n))
    rciR := lanes.foldl (fun m l => m.set l (w.rci.getD l 0)) w.rciR
    hashR := w.hash, seqR := w.seq, held := [] })

/-- R102, R115: the wave's counter rises once for each wave with an executing lane. -/
def execRegion (h : Hdr) (s : State) : Out :=
  let u := usesOf (.region h)
  s.byGate u (fun s =>
    let s1 := (s.wavesX h).foldl (fun s w =>
      let lanes := (s.xsW h w).map laneOf
      let s2 := copyRegion (s.modWave w (fun x => { x with rgncnt := x.rgncnt + 1 })) w lanes
      s2.modThreads (s.xsW h w) (fun _ t => enterRegion s.focus.pc (s2.wv w).rgncnt t)) s
    .next ((s1.issued u).advance h u.len))

/-- The limit of an `MWAIT` of `n` units at a clk. -/
def mwaitLimitOf (s : State) (n : Nat) : Nat := s.now + n * 1024

/-- R117: a thread whose flag is set, or that has executed no `MARM`, goes on at once; the others park at this instruction. -/
def mwaitExec (u : Uses) (pd : Option Pred) (n : BitVec 11) (s : State) : Out :=
  s.byGate u (fun s =>
    let xs := s.xs u.h
    let wake := xs.filter (fun t => (s.th t).hit || !(s.th t).armed)
    let s1 := (s.issued u).advance u.h u.len
    let s2 := s1.modThreads xs (fun tid t =>
      if wake.contains tid then { t with hit := false, late := false }
      else { t with park := .mwait (mwaitLimitOf s n.toNat) pd n.toNat })
    .next (match pd with
      | some p => if p = 0 then s2 else s2.sched 2 (wake.map (fun t => (.p t p.toNat, 1)))
      | none => s2))

def execMwaitT (h : Hdr) (n : BitVec 11) (s : State) : Out := mwaitExec (usesOf (.mwaitT h n)) none n s

def execMwaitP (h : Hdr) (pd : Pred) (n : BitVec 11) (s : State) : Out := mwaitExec (usesOf (.mwaitP h pd n)) (some pd) n s

/-- Has a thread a pending result of the classes of a mask (R118)? -/
def waitsClasses (s : State) (tid mask : Nat) : Bool :=
  s.vres.any (fun r => bitAt mask r.cls && r.writes.any (fun w => match w.1 with
    | .v t _ => t == tid
    | .p t _ => t == tid
    | .s w _ => w == widOf tid
    | .sr t _ => t == tid
    | .u w _ => w == widOf tid))

/-- R118: the executing threads are held until the results they wait for have committed. -/
def execWaitsb (h : Hdr) (mask : BitVec 5) (s : State) : Out :=
  let u := usesOf (.waitsb h mask)
  s.byGate u (fun s =>
    .next (((s.issued u).advance h u.len).modThreads (s.xs h) (fun tid t =>
      if waitsClasses s tid mask.toNat then { t with park := .waitsb mask.toNat } else t)))

/-- 02 R35 rules 3 to 5, R56: illegal encoding, or illegal instruction for a reserved major. -/
def execUnassignedMajor (len : BitVec 2) (w : BitVec 128) (s : State) : Out :=
  let m := bitsOf w.toNat 18 11
  let code := if len ≠ 0 && majorReserved m then 0x02 else 0x01
  .next (s.raise ⟨.w64, 0, 0, false⟩ (if len = 0 then 4 else 4 * (len.toNat + 1))
    { code := code, mask := State.laneMask s.grp, words := s.focus.word })

end Sys2Proof.Machine
end

