-- ==== Sys2Proof/Machine/Memory.lean ====
section
/-!
DEFINITION. Sys2Proof/Machine/Memory.lean: the memory instructions (08) and `MARM` (04 R116): effective addresses, the
checks of R207, one thread's access at its place, the waits of an access (R191, R195, R200; 09 R253; 13 R345), caches,
`CLAIM`, and the register pool's instructions.
-/

namespace Sys2Proof.Machine

open Sys2Proof

namespace State

/-! ## Effective addresses and operand words -/

/-- R187. -/
def effAddr (s : State) (tid : Nat) (m : MemOp) : DWord :=
  let x := if m.idx64 then s.rd64 [] tid m.index else sext64 (s.rd [] tid m.index)
  s.rd64 [] tid m.base + (x <<< m.scale.toNat) + sext64 m.off

/-- The address of an atomic: a base and an offset. -/
def atomAddr (s : State) (tid : Nat) (base : Src) (off : Word) : DWord := s.rd64 [] tid base + sext64 off

/-- `n` words of a data operand; a constant supplies its 64-bit value (02 R43). -/
def dataWords (s : State) (tid : Nat) (a : Src) (n : Nat) : List Word :=
  (List.range n).map (fun k => match a.reg with
    | .c c => if k = 0 then s.constVal tid c else if c = 2 then 0xFFFFFFFF else 0
    | r => s.opnd [] (lanesrc tid a.pat) (opndPlus r k))

/-! ## Places of an access (R207, R208) -/

/-- The bytes of `n` from an address on that lie on its 64 KiB page. Only a thread-local sum can leave the page in an aligned
access: its base has no alignment (15 Table 15.6). -/
def onPage (s : State) (tid qual : Nat) (ea : DWord) (n : Nat) : Nat :=
  if qual = 4 then min n (2 ^ 16 - (s.tls tid + ea.toNat) % 2 ^ 16) else n

/-- One aligned part of an access: every byte lies where its first and last byte decode to. Where it straddles two pages it is split
(09 R229). -/
def piece (s : State) (tid qual : Nat) (ea : DWord) (n : Nat) (acc : Acc) : Except Nat (List (Loc × Nat × Nat)) :=
  let k := s.onPage tid qual ea n
  match s.placeFor tid qual ea.toNat acc with
  | .error c => .error c
  | .ok p =>
    if k < n then match s.placeFor tid qual (ea + BitVec.ofNat 64 k).toNat acc with
      | .error c => .error c
      | .ok q => .ok [(p.loc, k, ea.toNat), (q.loc, n - k, (ea + BitVec.ofNat 64 k).toNat)]
    else match s.placeFor tid qual (ea + BitVec.ofNat 64 (n - 1)).toNat acc with
      | .error c => .error c
      | .ok _ => .ok [(p.loc, n, ea.toNat)]

/-- The pieces of an access of `n` bytes: a 32-byte access is two halves. -/
def piecesOf (s : State) (tid qual : Nat) (ea : DWord) (n : Nat) (acc : Acc) : Except Nat (List (Loc × Nat × Nat)) :=
  if n ≤ 16 then s.piece tid qual ea n acc
  else match s.piece tid qual ea 16 acc, s.piece tid qual (ea + 16) 16 acc with
    | .ok p, .ok q => .ok (p ++ q)
    | .error c, _ => .error c
    | _, .error c => .error c

def isReg : Loc → Bool | .reg _ _ _ _ => true | _ => false

/-- An atomic reaches no register window (R211). -/
def atomPieces (s : State) (tid qual : Nat) (ea : DWord) (n : Nat) : Except Nat (List (Loc × Nat × Nat)) :=
  match s.piecesOf tid qual ea n .write with
  | .ok ps => if ps.any (fun p => isReg p.1) then .error cAperture else .ok ps
  | .error c => .error c

/-- What the checks of R207 find in one thread. -/
inductive Checked where
  | ok (ps : List (Loc × Nat × Nat))
  | misaligned
  | fault (cause : Nat)

/-- Alignment first, then decode and translation. -/
def checkLane (ea : DWord) (align : Nat) (ps : Except Nat (List (Loc × Nat × Nat))) : Checked :=
  if ea.toNat % align ≠ 0 then .misaligned
  else match ps with
    | .ok l => .ok l
    | .error c => .fault c

def Checked.bad : Checked → Bool
  | .ok _ => false
  | _ => true

/-- The trap of a group's checks: that of the lowest failing lane, with every failing lane in its mask. -/
def checkTrap (wid : Nat) (cs : List (Nat × DWord × Checked)) : Option TrapInfo :=
  let bad := cs.filter (fun c => c.2.2.bad)
  match bad.head? with
  | none => none
  | some (_, ea, .misaligned) => some { code := 0x11, ad := ea, mask := laneMask (bad.map Prod.fst), info := BitVec.ofNat 32 wid }
  | some (_, ea, .fault c) => some { code := 0x10, sub := c, ad := ea, mask := laneMask (bad.map Prod.fst) }
  | some (_, _, .ok _) => none

/-- Split bytes over pieces. -/
def splitBytes : List (Loc × Nat × Nat) → List Byte → List ((Loc × Nat × Nat) × List Byte)
  | [], _ => []
  | p :: r, bs => (p, bs.take p.2.1) :: splitBytes r (bs.drop p.2.1)

end State

/-! ## What each access computes (R209-R213) -/

/-- The register words of a load. -/
def loadWords (bytes : Nat) (sx : Bool) (x : Nat) : List Word :=
  if bytes ≤ 2 then
    [if sx && decide (2 ^ (8 * bytes - 1) ≤ x) then BitVec.ofInt 32 ((x : Int) - 2 ^ (8 * bytes)) else BitVec.ofNat 32 x]
  else (List.range (bytes / 4)).map (fun k => BitVec.ofNat 32 (x / 2 ^ (32 * k)))

/-- A number of `8 * bytes` bits as a signed integer. -/
def signedOf (bytes x : Nat) : Int := if 2 ^ (8 * bytes - 1) ≤ x then (x : Int) - 2 ^ (8 * bytes) else x

/-- Table 8.8: the new value for old value `o`, operand `c` and second operand `c2`. -/
def atomNew (op bytes o c c2 : Nat) : Nat :=
  let m := 2 ^ (8 * bytes)
  match op with
  | 0 => (o + c) % m
  | 1 => if signedOf bytes o ≤ signedOf bytes c then o else c
  | 2 => min o c
  | 3 => if signedOf bytes o ≤ signedOf bytes c then c else o
  | 4 => max o c
  | 5 => o &&& c
  | 6 => o ||| c
  | 7 => o ^^^ c
  | 8 => c
  | 9 => if o = c then c2 else o
  | 10 => if c ≤ o then 0 else o + 1
  | _ => if o = 0 || decide (c < o) then c else o - 1

/-- Table 8.9. -/
def atomfNew (op : Nat) (o c : Word) : Nat :=
  match op with
  | 0 => (faddResult 0 false o c).1
  | 1 => (fminmax false false o c).1
  | 2 => (fminmax true false o c).1
  | 3 => ((pack2 false 0 false (fAdd 0) o c).ws.headD 0).toNat
  | _ => ((pack2 true 0 false (fAdd 0) o c).ws.headD 0).toNat

/-- The number that words make, the lowest first. -/
def wordsNat (ws : List Word) : Nat := ws.foldr (fun w a => w.toNat + 2 ^ 32 * a) 0

/-- The new value of an atomic on an old value, by its operand words. -/
def atomResult (flt : Bool) (op bytes o : Nat) (data : List Word) : Nat :=
  if flt then atomfNew op (BitVec.ofNat 32 o) (data.headD 0)
  else atomNew op bytes o (wordsNat (data.take (bytes / 4))) (wordsNat (data.drop (bytes / 4)))

/-- The version word of R210 for a version. -/
def versionWord (v : Version) : Word := BitVec.ofNat 32 (stateCode v.st * 2 ^ 16 + v.num % 2 ^ 16)

/-- The address of an access, and how many bytes it reaches. -/
def PAcc.ea (a : PAcc) : Nat := (a.pieces.head?.map (fun p => p.2.2)).getD 0
def PAcc.bytes (a : PAcc) : Nat := (a.pieces.map (fun p => p.2.1)).sum

/-- What becomes of one thread's access. -/
inductive Perf where
  | done (s : State) (ws : List Word)
  | park (p : Park)
  | away (pkg addr : Nat)         -- the far package answers later
  | stop (s : State)              -- the launch has been aborted

namespace State

/-- Does an access write? -/
def writes : MemDo → Bool
  | .load _ _ | .ver | .marm | .bbwait | .eng _ | .coll _ | .entry => false
  | _ => true

/-- The first wait of an access. -/
def waitAcc (s : State) (a : PAcc) : Option Park :=
  a.pieces.findSome? (fun p => match s.waitOf p.1 with
    | some k => some k
    | none => if writes a.op then none else s.waitRead a.tid p.1)

/-- A far address of an access (09 R223, 14 R402): its package and address. -/
def farOf (s : State) (a : PAcc) : Option (Nat × Nat) :=
  a.pieces.findSome? (fun p => match p.1 with
    | .mem pa => if pa / 2 ^ 40 = s.pkg then none else some (pa / 2 ^ 40, p.2.2)
    | _ => none)

/-- The words that an access of a far package returns. -/
def answerWords (op : MemDo) (x : Nat) : List Word :=
  match op with
  | .load b sx => loadWords b sx x
  | .ver => loadWords 4 false x ++ [0]
  | .chunk => [BitVec.ofNat 32 x, BitVec.ofNat 32 (x / 2 ^ 32 % 2 ^ 20), BitVec.ofNat 32 (x / 2 ^ 64), BitVec.ofNat 32 (x / 2 ^ 96)]
  | .atom _ _ b => loadWords b false x
  | _ => []

def isAtomic : MemDo → Bool
  | .atom _ _ _ | .red _ _ _ => true
  | _ => false

/-- An atomic of a paired copy at a place outside its core. -/
def pairedAtom (s : State) (a : PAcc) : Bool :=
  isAtomic a.op && s.isPaired (tagOf a.tid) && a.pieces.any (fun p => isOut p.1)

/-- A primary copy keeps the values its atomics returned for the secondary (14 R395). -/
def keepAtom (s : State) (a : PAcc) (ws : List Word) : State :=
  if s.pairedAtom a then
    s.modTeam (tagOf a.tid) (fun t => { t with atomVals := t.atomVals ++ [(a.tid % 1024, ws)] })
  else s

/-- A store of one thread: its bytes at each place, and its store record. -/
def storeAcc (s : State) (a : PAcc) : State :=
  let bs := leBytes a.bytes (wordsNat a.data % 2 ^ (8 * a.bytes))
  ((splitBytes a.pieces bs).foldl (fun s q => s.writePiece a.tid a.hint q.1.1 q.2 q.1.2.2 a.so (some (a.pc, a.stamp))) s).addRecord a.tid a.ea (Nat.log2 a.bytes) bs

/-- The store records of an atomic's operands: a `CAS` has two (log 95). -/
def recordAtom (s : State) (a : PAcc) : State :=
  let n := max a.bytes 4 / 4
  (List.range (a.data.length / n)).foldl (fun s k =>
    s.addRecord a.tid a.ea (Nat.log2 a.bytes) (wordBytes ((a.data.drop (k * n)).take n))) s

/-- The store records of an atomic, and the value that it returned, kept for the other copy. -/
def noteAtom (s : State) (a : PAcc) (ws : List Word) : State := (s.recordAtom a).keepAtom a ws

/-- Writes of an access to another package: they count as the team's external writes (14 R392), -/
def noteFar (s : State) (a : PAcc) : State := a.pieces.foldl (fun s p => s.noteWrite (tagOf a.tid) p.1) s
/-- and the monitors on their lines are hit (04 R116). -/
def hitPieces (s : State) (a : PAcc) : State := a.pieces.foldl (fun s p => s.hitLines (linesOf p.1 p.2.1)) s

/-- Perform one thread's access at its places: wait, or read, compute and write as one (R208, R211). A store to another package
leaves at once, under a tag unless a paired copy holds it; a read of it is answered later. -/
def doAcc (s : State) (a : PAcc) : Perf :=
  match s.waitAcc a with
  | some p => .park p
  | none =>
    match (if writes a.op then s.openPieces a.tid a.pieces else .ok s) with
    | .park p => .park p
    | .exhausted page => .stop (s.exhaust (s.lidOf a.tid) page)
    | .ok s1 =>
      match s.farOf a with
      | some (pkg, ad) => match a.op with
        | .store => .done (s1.storeAcc a) []
        | .red _ _ _ => .done ((((s1.noteFar a).hitPieces a).noteAtom a []).sendTag a pkg ad) []
        | _ => .away pkg ad
      | none =>
        let old := leNat (a.pieces.flatMap (fun p => s1.readPiece a.tid p.1 p.2.1))
        let reads (s : State) : State := a.pieces.foldl (fun s p => s.readMarks a.core a.tid a.hint p.1 p.2.1) s
        let update (flt : Bool) (op b : Nat) : State :=
          (splitBytes a.pieces (leBytes b (atomResult flt op b old a.data))).foldl (fun s q => s.writeNow a.tid a.hint q.1.1 q.2) (reads s1)
        match a.op with
        | .load b sx => .done (reads s1) (loadWords b sx old)
        | .ver =>
          let v := match a.pieces.head? with
            | some (.stg page _, _, _) => (s1.chooseVersion (s1.lidOf a.tid) page true (s1.launchOf a.tid).accSeal).map versionWord
            | _ => none
          .done (reads s1) (loadWords 4 false old ++ [v.getD 0])
        | .marm | .chunk | .bbwait | .eng _ | .coll _ | .entry => .done s1 []
        | .store => .done (s1.storeAcc a) []
        | .atom flt op b => .done ((update flt op b).noteAtom a (loadWords b false old)) (loadWords b false old)
        | .red flt op b => .done ((update flt op b).noteAtom a []) []

/-! ## Results of a group's accesses -/

/-- Hand out a pending result that is not ready yet; its number. -/
def openVar (s : State) (cls : Nat) (ts : List Tgt) : State × Nat :=
  let id := (s.co s.focus.core).nextId
  ({ (s.modCore s.focus.core (fun c => { c with nextId := c.nextId + 1 })) with
     vres := s.vres ++ [{ core := s.focus.core, id := id, cls := cls, writes := ts.map (fun t => (t, 0)), ready := false }] }, id)

/-- The value of a pending result has come. -/
def fillVar (s : State) (core id : Nat) (ws : List Word) : State :=
  { s with vres := s.vres.map (fun r =>
      if r.core == core && r.id == id then
        { r with writes := (r.writes.zip ws).map (fun x => (x.1.1, x.2)), ready := true }
      else r) }

/-- The registers a thread's result goes to: of an `s` destination only the lowest executing lane's (02 Table 2.4). -/
def laneTgts (s : State) (xs : List Nat) (d : Option (Opnd × Nat)) (tid : Nat) : List Tgt :=
  match d with
  | none => []
  | some (o, n) => match o with
    | .s _ => if xs.any (fun t => widOf t == widOf tid && decide (laneOf t < laneOf tid)) then [] else s.tgts tid o n
    | o => s.tgts tid o n

/-- One thread's access of an issuing group: done, its result collected; or it waits, its result pending. -/
def issueAcc (xs : List Nat) (cls : Nat) (d : Option (Opnd × Nat)) (r : State × List (Tgt × Word)) (a : PAcc) :
    State × List (Tgt × Word) :=
  let s := r.1
  if !(s.th a.tid).live then r
  else
    let ts := s.laneTgts xs d a.tid
    match s.doAcc a with
    | .done s1 ws => (s1, r.2 ++ ts.zip ws)
    | .stop s1 => (s1, [])
    | .park p =>
      let (s1, v) := if ts.isEmpty then (s, none) else let x := s.openVar cls ts; (x.1, some (s.focus.core, x.2))
      ({ (s1.modThread a.tid (fun t => { t with park := p })) with held := s1.held ++ [{ a with vres := v }] }, r.2)
    | .away pkg ad =>
      let x := s.openVar cls ts
      ((if isAtomic a.op then (x.1.noteFar a).recordAtom a else x.1).sendTag { a with vres := some (s.focus.core, x.2) } pkg ad, r.2)

/-- A parked access tries again: it completes, waits on, or ends its launch. -/
def retryAcc (s : State) (a : PAcc) : State :=
  let s0 := { s with held := s.held.filter (fun b => b.tid != a.tid) }
  match s0.doAcc a with
  | .done s1 ws =>
    (match a.vres with
      | some (c, id) => s1.fillVar c id ws
      | none => s1).modThread a.tid (fun t => { t with park := .none })
  | .stop s1 => s1
  | .park p => { (s0.modThread a.tid (fun t => { t with park := p })) with held := s0.held ++ [a] }
  | .away pkg ad =>
    let s1 := s0.modThread a.tid (fun t => { t with park := .none })
    (if isAtomic a.op then (s1.noteFar a).recordAtom a else s1).sendTag a pkg ad

/-- The threads parked for a reason go on: those with a waiting access perform it, in the order in which they issued (R209, R211);
another issues its instruction again. -/
def wake (s : State) (p : Park → Bool) : State :=
  let hs := (s.held.map PAcc.tid).filter (fun t => p (s.th t).park)
  let ts := ((s.threads.filter (fun e => p e.2.park)).map Prod.fst).filter (fun t => !hs.contains t)
  (hs ++ ts).foldl (fun s tid =>
    match s.held.find? (fun a => a.tid == tid) with
    | some a => s.retryAcc a
    | none => s.modThread tid (fun t => { t with park := .none })) s

/-! ## The mould of a memory instruction -/

/-- The threads that access: the lowest executing lane of each wave in a scalar form (R206), else every executing lane. -/
def accessors (s : State) (u : Uses) : List Nat :=
  let scalar := u.dsts.any (fun d => d.1.isS) &&
    u.srcs.all (fun a => match a.1.reg with | .s _ => true | .c k => k != 8 | _ => false)
  if scalar then (s.wavesX u.h).filterMap (fun w => (s.xsW u.h w).head?) else s.xs u.h

/-- One thread's access before it is checked: its address and pieces, its operand words. -/
structure LaneAcc where
  ea : DWord
  pieces : Except Nat (List (Loc × Nat × Nat))
  data : List Word := []

/-- Hold lines after a group's stores exceed the launch's budget (14 R395). -/
def overHold (s : State) (as : List PAcc) : Bool :=
  let more := (as.filter (fun b => writes b.op)).flatMap (fun b => b.pieces.map (fun p => { tid := b.tid, loc := p.1, bytes := List.replicate p.2.1 0 }))
  as.any (fun a => s.passesHold (tagOf a.tid) more)

/-- A secondary's atomic takes the value that the primary's returned (14 R395): the value and the state without it. -/
def takeAtom (s : State) (a : PAcc) : Option (List Word × State) :=
  let tag := tagOf a.tid
  let k := a.tid % 1024
  let p := s.primaryOf tag
  match (s.tm p).atomVals.find? (fun e => e.1 == k) with
  | none => none
  | some e => some (e.2, s.modTeam p (fun t => { t with atomVals := t.atomVals.erase e }))

/-- A secondary's atomic. -/
def secondaryAtom (xs : List Nat) (d : Option (Opnd × Nat)) (r : State × List (Tgt × Word)) (a : PAcc) :
    State × List (Tgt × Word) :=
  match r.1.takeAtom a with
  | none => r
  | some (ws, s1) =>
    (s1.recordAtom a, r.2 ++ (s1.laneTgts xs d a.tid).zip ws)

/-- One thread's access, paired copies' atomics apart. -/
def stepAcc (xs : List Nat) (cls : Nat) (d : Option (Opnd × Nat)) (r : State × List (Tgt × Word)) (a : PAcc) :
    State × List (Tgt × Word) :=
  if r.1.pairedAtom a && (r.1.tm (tagOf a.tid)).isSecond then secondaryAtom xs d r a else issueAcc xs cls d r a

/-- A secondary's atomic waits until the primary's has been performed. -/
def awaitsPrimary (s : State) (as : List PAcc) : Bool :=
  as.any (fun a => s.pairedAtom a && (s.tm (tagOf a.tid)).isSecond && (s.takeAtom a).isNone)

/-- The translations that a group used are kept (14 R401). -/
def keepTlb (s : State) (qual : Nat) (eas : List (Nat × DWord)) : State :=
  eas.foldl (fun s e => s.touchTlb e.1 qual e.2.toNat) s

/-- Do two ranges of bytes share one? -/
def locMeets (a : Loc) (n : Nat) (b : Loc) (m : Nat) : Bool :=
  decide (a.num < b.num + m) && decide (b.num < a.num + n)

/-- A matrix store of the wave that still has to write these pieces, or, for a store, an operand not fetched yet (R298). -/
def awaitsUnit (s : State) (wid : Nat) (store : Bool) (ps : List (Loc × Nat)) : Bool :=
  (s.co (s.wv wid).core).mx.any (fun e => e.wid == wid &&
    ((e.outs ++ e.scales).any (fun o => ps.any (fun p => locMeets o.1 o.2.1 p.1 p.2)) ||
     (store && e.mem.isNone && e.srcs.any (fun o => ps.any (fun p => locMeets o.1 o.2 p.1 p.2)))))

/-- Is an address of a thread on an SO page (09 R225)? -/
def onSo (s : State) (tid qual : Nat) (ea : DWord) : Bool :=
  match s.placeFor tid qual ea.toNat .read with
  | .ok p => p.ord == 1
  | .error _ => false

/-- An SO access of the thread that is not performed yet, which its next SO access waits for (09 R226). -/
def soBusy (s : State) (tid : Nat) : Bool :=
  s.msys.tags.any (fun g => g.acc.tid == tid && g.acc.so) ||
  ((s.co (s.coreOf tid)).mx ++ (s.wv (widOf tid)).saved).any (fun e => e.wid == widOf tid && e.so && (e.mem.isNone || !e.outs.isEmpty))

/-- A result on its way to a register of the thread's own wave that the thread reaches through the register window (09 R241). -/
def regBusy (s : State) (tid : Nat) (l : Loc) (n : Nat) : Bool :=
  match l with
  | .reg wid r lane b =>
    let hits (g : Tgt) : Bool := match g with
      | .v t k => widOf t == wid && k == r && decide (lane ≤ laneOf t) && decide (4 * laneOf t < 4 * lane + b + n)
      | _ => false
    wid == widOf tid && (s.pend.any (fun w => hits w.tgt) || s.vres.any (fun v => v.writes.any (fun w => hits w.1)))
  | _ => false

/-- What an access waits for at its issue besides its gate. -/
def accWaits (s : State) (a : PAcc) : Bool :=
  s.awaitsUnit (widOf a.tid) (writes a.op) (a.pieces.map (fun p => (p.1, p.2.1))) || (a.so && s.soBusy a.tid) ||
  a.pieces.any (fun p => s.regBusy a.tid p.1 p.2.1)

/-- The acquire of an atomic at `.cluster` or wider drops the core's L1 copies (08 R214, 09 R236). -/
def acquireAt (s : State) (scope : Option Nat) : State :=
  if scope.any (fun k => decide (3 ≤ k)) then s.modCore s.focus.core Core.acquire else s

/-- A memory instruction: its gate, the checks of every accessing thread, then the accesses in rising lane order (R207, R209).
`w` is the field W that a misaligned access records. -/
def access (u : Uses) (op : MemDo) (qual w align hint cls : Nat) (f : State → Nat → LaneAcc) (s : State) : Out :=
  s.byGate u (fun s =>
    let xs := s.accessors u
    let las := xs.map (fun t => (t, f s t))
    let cs := las.map (fun x => (x.1, x.2.ea, checkLane x.2.ea align x.2.pieces))
    match checkTrap w cs with
    | some t => .next (s.raise u.h u.len t)
    | none =>
      let as : List PAcc := las.map (fun x =>
        { core := s.focus.core, tid := x.1, pc := s.focus.pc, op := op
          pieces := match x.2.pieces with | .ok l => l | .error _ => []
          data := x.2.data, stamp := s.msys.copy, hint := hint, acq := u.acq.isSome
          so := s.onSo x.1 qual x.2.ea || s.onSo x.1 qual (x.2.ea + BitVec.ofNat 64 (2 ^ w - 1)) })
      if s.overHold as then .next (s.raise u.h u.len { code := 0x2D, mask := laneMask (s.xs u.h) })
      else if s.awaitsPrimary as || as.any s.accWaits then .next s.holdGroup
      else
        let s1 := (s.keepTlb qual (las.map (fun x => (x.1, x.2.ea)))).issued u |>.advance u.h u.len
        let r := as.foldl (stepAcc xs cls u.dsts.head?) (s1.acquireAt u.acq, [])
        .next (r.1.sendVar cls r.2))

end State

open State

/-! ## Loads and stores (R209, R210) -/

def execLd (h : Hdr) (d : Opnd) (m : MemOp) (w : BitVec 3) (sx : Bool) (hint : BitVec 2) (s : State) : Out :=
  access (usesOf (.ld h d m w sx hint)) (.load (2 ^ w.toNat) sx) m.qual.toNat w.toNat (2 ^ w.toNat) hint.toNat 0 (fun s t =>
    { ea := s.effAddr t m, pieces := s.piecesOf t m.qual.toNat (s.effAddr t m) (2 ^ w.toNat) .read }) s

def execSt (h : Hdr) (c : Src) (m : MemOp) (w : BitVec 3) (hint : BitVec 2) (s : State) : Out :=
  access (usesOf (.st h c m w hint)) .store m.qual.toNat w.toNat (2 ^ w.toNat) hint.toNat 0 (fun s t =>
    { ea := s.effAddr t m, pieces := s.piecesOf t m.qual.toNat (s.effAddr t m) (2 ^ w.toNat) .write
      data := s.dataWords t c (if w = 3 then 2 else 1) }) s

def execLdv (h : Hdr) (d : Opnd) (m : MemOp) (w : BitVec 3) (hint : BitVec 2) (s : State) : Out :=
  access (usesOf (.ldv h d m w hint)) (.load (2 ^ w.toNat) false) m.qual.toNat w.toNat (min (2 ^ w.toNat) 16) hint.toNat 0 (fun s t =>
    { ea := s.effAddr t m, pieces := s.piecesOf t m.qual.toNat (s.effAddr t m) (2 ^ w.toNat) .read }) s

def execStv (h : Hdr) (c : Src) (m : MemOp) (w : BitVec 3) (hint : BitVec 2) (s : State) : Out :=
  access (usesOf (.stv h c m w hint)) .store m.qual.toNat w.toNat (min (2 ^ w.toNat) 16) hint.toNat 0 (fun s t =>
    { ea := s.effAddr t m, pieces := s.piecesOf t m.qual.toNat (s.effAddr t m) (2 ^ w.toNat) .write
      data := s.dataWords t c (regsOfW w.toNat) }) s

def execLdver (h : Hdr) (d : Opnd) (m : MemOp) (hint : BitVec 2) (s : State) : Out :=
  access (usesOf (.ldver h d m hint)) .ver m.qual.toNat 2 4 hint.toNat 0 (fun s t =>
    { ea := s.effAddr t m, pieces := s.piecesOf t m.qual.toNat (s.effAddr t m) 4 .read }) s

/-! ## Atomics (R211-R213) -/

def execAtom (h : Hdr) (d : Opnd) (base : Src) (off : Word) (qual : BitVec 3) (c : Src) (aop : BitVec 4) (scope : BitVec 3)
    (ord : BitVec 2) (w : BitVec 3) (s : State) : Out :=
  access (usesOf (.atom h d base off qual c aop scope ord w)) (.atom false aop.toNat (2 ^ w.toNat)) qual.toNat w.toNat (2 ^ w.toNat) 0 4
    (fun s t =>
      { ea := s.atomAddr t base off, pieces := s.atomPieces t qual.toNat (s.atomAddr t base off) (2 ^ w.toNat)
        data := s.dataWords t c (if aop = 9 then 2 * regsOfW w.toNat else regsOfW w.toNat) }) s

def execAtomf (h : Hdr) (d : Opnd) (base : Src) (off : Word) (qual : BitVec 3) (c : Src) (fop : BitVec 4) (scope : BitVec 3)
    (ord : BitVec 2) (s : State) : Out :=
  access (usesOf (.atomf h d base off qual c fop scope ord)) (.atom true fop.toNat 4) qual.toNat 2 4 0 4 (fun s t =>
    { ea := s.atomAddr t base off, pieces := s.atomPieces t qual.toNat (s.atomAddr t base off) 4
      data := s.dataWords t c 1 }) s

def execRed (h : Hdr) (flt : Bool) (base : Src) (off : Word) (qual : BitVec 3) (c : Src) (op : BitVec 4) (scope : BitVec 3)
    (ord : BitVec 2) (w : BitVec 3) (s : State) : Out :=
  access (usesOf (.red h flt base off qual c op scope ord w)) (.red flt op.toNat (2 ^ w.toNat)) qual.toNat w.toNat (2 ^ w.toNat) 0 4
    (fun s t =>
      { ea := s.atomAddr t base off, pieces := s.atomPieces t qual.toNat (s.atomAddr t base off) (2 ^ w.toNat)
        data := s.dataWords t c (regsOfW w.toNat) }) s

/-! ## Fences (R214; the accesses of the model are performed at their step, log 4)
Every earlier access of the thread has been performed before the next one, and the steps of the model stand in one order (09 R240);
`.sc` differs from `.ar` in that its thread waits until its earlier loads have returned too (R214). -/

/-- A fence holds the thread's later port instructions until its far accesses have been answered, and at a scope that contains the
twin its later twin-window writes with them (09 R239, R247). A release fence holds them until its engine commands in flight and its
matrix stores are complete too, and `.sc` until its loads have returned. -/
def fenceHold (s : State) (rel sc : Bool) (scope : Nat) (xs : List Nat) : State :=
  s.modThreads xs (fun tid t =>
    let id := (s.co (s.coreOf tid)).nextId
    { t with
      fenceTag := s.msys.nextTag
      fencePair := pairScope scope || (t.fencePair && s.fenced tid)
      fenceId := if rel then id else t.fenceId
      fenceRes := if sc then id else t.fenceRes })

/-- A fence of the executing threads; an acquire at `.cluster` or wider drops the core's L1 copies. -/
def fenceExec (u : Uses) (rel acq sc : Bool) (scope : BitVec 3) (s : State) : Out :=
  s.byGate u (fun s =>
    let xs := s.xs u.h
    let s1 := (s.issued u).advance u.h u.len
    if xs.isEmpty then .next s1
    else .next ((fenceHold s1 rel sc scope.toNat xs).acquireAt (if acq then some scope.toNat else none)))

def execFenceAcq (h : Hdr) (scope : BitVec 3) (s : State) : Out := fenceExec (usesOf (.fenceAcq h scope)) false true false scope s

def execFenceRel (h : Hdr) (scope : BitVec 3) (s : State) : Out := fenceExec (usesOf (.fenceRel h scope)) true false false scope s

def execFenceAr (h : Hdr) (scope : BitVec 3) (s : State) : Out := fenceExec (usesOf (.fenceAr h scope)) true true false scope s

def execFenceSc (h : Hdr) (scope : BitVec 3) (s : State) : Out := fenceExec (usesOf (.fenceSc h scope)) true true true scope s

/-! ## Instructions that take an address but move no data -/

/-- The checked places of an instruction without alignment whose faults are those of a load, then what it does. -/
def atPlaces (u : Uses) (m : MemOp) (acc : Acc) (go : State → List (Nat × Place) → Out) (s : State) : Out :=
  s.byGate u (fun s =>
    let ps := (s.accessors u).map (fun t => (t, s.effAddr t m, s.placeFor t m.qual.toNat (s.effAddr t m).toNat acc))
    match checkTrap 0 (ps.map (fun p => (p.1, p.2.1, checkLane p.2.1 1 (p.2.2.map (fun _ => []))))) with
    | some t => .next (s.raise u.h u.len t)
    | none => go (s.keepTlb m.qual.toNat (ps.map (fun p => (p.1, p.2.1)))) (ps.filterMap (fun p => match p.2.2 with | .ok x => some (p.1, x) | .error _ => none)))

/-- The translated address of an effective address, if the place is translated. -/
def vaOf (s : State) (t : Nat) (m : MemOp) (p : Place) : Option Nat :=
  if !p.xlated then none
  else
    let ea := (s.effAddr t m).toNat
    some (if m.qual = 2 then vltWin + ea else if m.qual = 4 then (s.tls t + ea) % 2 ^ 52 else ea)

/-- Arm a thread's monitor on the line of a place (R116). -/
def armLine (s : State) (t addr : Nat) (va : Option Nat) (l : Loc) : State :=
  s.modThread t (fun x => { x with monitor := some l.line, monAddr := addr, monVa := va, armed := true, hit := false, late := false })

/-- R116. The monitored line of a thread is that of its effective address. A register-window address arms no line. The monitor on
a line of another package is registered there once its response has come (14 R402); the one before it goes at once. -/
def execMarm (h : Hdr) (m : MemOp) (hint : BitVec 2) (s : State) : Out :=
  let u := usesOf (.marm h m hint)
  atPlaces u m .read (fun s ps =>
    .next (ps.foldl (fun s (t, p) =>
      let ad := (s.effAddr t m).toNat / 128 * 128
      if isReg p.loc then s.modThread t (fun x => { x with monitor := none, armed := true, hit := true, late := false })
      else match p.loc with
        | .mem pa =>
          if isFar s p.loc then
            (s.modThread t (fun x => { x with monitor := none, monAddr := ad, monVa := vaOf s t m p, armed := true, hit := false, late := false })).sendTag
              { core := s.focus.core, tid := t, pc := s.focus.pc, op := .marm, pieces := [(p.loc, 1, (s.effAddr t m).toNat)], acq := true
                stamp := s.msys.copy } (pa / 2 ^ 40) (s.effAddr t m).toNat
          else armLine s t ad (vaOf s t m p) p.loc
        | _ => armLine s t ad (vaOf s t m p) p.loc)
      ((s.issued u).advance h u.len))) s

/-- Is the line of a place present (R195, R215)? -/
def present (s : State) (l : Loc) : Bool :=
  match l with
  | .scr tag off => (s.tm tag).pending.get 0 (off / 128) == 0
  | _ => true

/-- R215. -/
def execPtest (h : Hdr) (pd : Pred) (m : MemOp) (s : State) : Out :=
  let u := usesOf (.ptest h pd m)
  atPlaces u m .read (fun s ps =>
    .next (((s.issued u).sched 8 (if pd = 0 then [] else
      ps.map (fun (t, p) => (Tgt.p t pd.toNat, if present s p.loc then (1 : Word) else 0)))).advance h u.len)) s

/-! ## CLAIM (R200, R216) -/

/-- The place that a store of a thread would reach at an address of its space, under a qualifier. -/
def storePlace (s : State) (tid qual va : Nat) : Except Nat Place :=
  s.placeFor tid qual (if qual = 4 then (va + 2 ^ 52 - s.tls tid % 2 ^ 52) % 2 ^ 52 else va) .write

/-- The pages that overlap a range: first virtual address, log2 of the size and entry of each, or the fault that a store there
raises. Bytes of a window, on no page, count as one of size 0. -/
def rangePages (s : State) (tid qual : Nat) : Nat → Nat → Nat → Except Nat (List (Nat × Nat × Nat))
  | 0, _, _ => .ok []
  | fuel + 1, va, stop =>
    if stop ≤ va then .ok []
    else match storePlace s tid qual va with
      | .error c => .error c
      | .ok p =>
        match (if p.xlated then s.leafOf (s.coreOf tid) (s.lidOf tid) va else .ok (0, 0)) with
        | .error c => .error c
        | .ok (_, size) =>
          match rangePages s tid qual fuel (if p.xlated then (va / 2 ^ size + 1) * 2 ^ size else (va / 2 ^ 16 + 1) * 2 ^ 16) stop with
          | .error c => .error c
          | .ok r => .ok ((va / 2 ^ size * 2 ^ size, size, p.pte) :: r)

/-- What a claim of a range finds. -/
inductive ClaimPlan where
  | code (c : Nat)
  | fault (cause : Nat)
  | pages (vas : List Nat)

/-- Does a page of an entry lie on the stack under a core? One of another package does not. -/
def atHome (s : State) (core pte : Nat) : Bool :=
  let pa := bitsOf pte 51 16 * 2 ^ 16
  pa / 2 ^ 40 == s.pkg && homeStack pa == stackOf core

/-- A vault page and a 1 GiB page cannot be claimed, nor a window, which has no page (log 96); a page already at home needs no
move. -/
def claimPlan (s : State) (tid : Nat) (m : MemOp) (size : Nat) : ClaimPlan :=
  let ea := s.effAddr tid m
  let va := if m.qual = 4 then (s.tls tid + ea.toNat) % 2 ^ 52 else ea.toNat
  if size = 0 then .code 0
  else if 2 ^ 30 < size then .code 2
  else match s.placeFor tid m.qual.toNat ea.toNat .write with
    | .error c => .fault c
    | .ok p =>
      if !p.xlated || m.qual = 2 then .code 2
      else match rangePages s tid m.qual.toNat (2 ^ 14 + 2) va (min (va + size) (2 ^ 52)) with
        | .error c => .fault c
        | .ok ps =>
          if ps.any (fun q => q.2.1 == 30 || q.2.1 == 0 || s.isVault (bitsOf q.2.2 51 16 * 2 ^ 16)) then .code 2
          else .pages ((ps.filter (fun q => !atHome s (s.coreOf tid) q.2.2)).map (fun q => q.1))

/-- The status word of R216. -/
def claimStatus (code moved : Nat) : Word := BitVec.ofNat 32 (code * 2 ^ 30 + moved)

/-- Is a page of `2^size` bytes from `pa` on clear of the frames in quarantine (09 R259)? -/
def outOfQuarantine (s : State) (pa size : Nat) : Bool :=
  s.msys.quarantine.all (fun q => q.1 / 2 ^ (size - 16) != pa / 2 ^ size)

/-- A free frame of a stack for a page of `2^size` bytes, by its first byte: which frames are free is the driver's, so it is a
free value (log 8), held to the stack's HBM, to the page's alignment, and to frames that have left quarantine (09 R259); `none`:
the stack has run out. -/
def freeFrame (s : State) (stack size : Nat) : Option Nat :=
  match Config.freeFrame stack size s.draws with
  | some f =>
    if f < 0xC000000000 && homeStack f = stack && f % 2 ^ size = 0 && outOfQuarantine s (s.localPa f) size then some (s.localPa f) else none
  | none => none

/-- Start the migration of the next page of the oldest claim that has none running, or finish that claim (R200, R216). A page that
an earlier claim has brought home meanwhile needs no move. -/
def claimNext : Nat → State → State
  | 0, s => s
  | fuel + 1, s =>
    if !s.msys.migrations.isEmpty then s
    else match s.msys.claims with
      | [] => s
      | j :: rest =>
        let finish (code : Nat) : State :=
          claimNext fuel ({ s with msys := { s.msys with claims := rest } }.fillVar j.core j.vres [claimStatus code j.moved])
        match j.pages with
        | [] => finish 0
        | va :: vas =>
          let lid := s.lidOf j.tid
          match s.leafOf j.core lid va with
          | .error _ => finish 1
          | .ok (pte, size) =>
            if atHome s j.core pte then
              claimNext fuel { s with msys := { s.msys with claims := { j with pages := vas } :: rest } }
            else match freeFrame s (stackOf j.core) size with
            | some f =>
              { s with
                draws := s.draws + 1
                msys := { s.msys with
                  claims := { j with pages := vas } :: rest
                  migrations := [{ page := bitsOf pte 51 16 * 2 ^ 16, size := 2 ^ size, target := f
                                   ptes := [s.walkAddr va walkLevels (s.rootOf lid)] }] } }
            | none => finish 1

def execClaim (h : Hdr) (d : Opnd) (m : MemOp) (c : Src) (s : State) : Out :=
  let u := usesOf (.claim h d m c)
  s.byGate u (fun s =>
    let xs := s.accessors u
    let plans := xs.map (fun t => (t, s.effAddr t m, claimPlan s t m (s.rd [] t c).toNat))
    let bad (p : ClaimPlan) : Checked := match p with | .fault k => .fault k | _ => .ok []
    match checkTrap 0 (plans.map (fun p => (p.1, p.2.1, bad p.2.2))) with
    | some t => .next (s.raise u.h u.len t)
    | none =>
      let s1 := (s.issued u).advance h u.len
      .next (claimNext (xs.length + (plans.map (fun p => match p.2.2 with | .pages vas => vas.length | _ => 0)).sum + 1) (plans.foldl (fun s p =>
        let x := s.openVar 0 (s.laneTgts xs (some (d, 1)) p.1)
        match p.2.2 with
        | .pages vas => { x.1 with msys := { x.1.msys with claims := x.1.msys.claims ++ [⟨s.focus.core, p.1, x.2, vas, 0⟩] } }
        | .code k => x.1.fillVar s.focus.core x.2 [claimStatus k 0]
        | .fault _ => s) s1)))

/-! ## The register pool (R193, R217) -/

/-- The wave of a collective instruction, when a lane of it executes. -/
def execRegrel (h : Hdr) (n : BitVec 9) (s : State) : Out :=
  let u := usesOf (.regrel h n)
  s.byGate u (fun s =>
    match s.wavesX h with
    | [] => .next ((s.issued u).advance h u.len)
    | w :: _ =>
      let regs := (s.wv w).regs
      let mine (t : Tgt) : Bool := match t with
        | .v tid k => widOf tid == w && decide (regs - n.toNat ≤ k)
        | _ => false
      if regs < n.toNat + 8 then .next (s.raise h u.len s.illegalWord)
      else if s.pend.any (fun p => mine p.tgt) || s.vres.any (fun r => r.writes.any (fun x => mine x.1)) then .next s.holdGroup
      else
        let s1 := ((s.issued u).advance h u.len).modThreads s.grp (fun _ t => { t with readyAt := max t.readyAt (s.now + 4) })
        .next (((s1.zeroRegs w (regs - n.toNat) n.toNat).modWave w (fun x => { x with regs := regs - n.toNat })).modCore
          s.focus.core (fun c => { c with free := c.free + n.toNat })))

/-- A claim in its place: by issue clk, then by slot (R193). -/
def queueClaim (q : List ClaimReq) (e : ClaimReq) : List ClaimReq := insertBy (fun x => x.at_ * 32 + x.slot) e q

def execRegclm (h : Hdr) (n : BitVec 9) (s : State) : Out :=
  let u := usesOf (.regclm h n)
  s.byGate u (fun s =>
    match s.wavesX h with
    | [] => .next ((s.issued u).advance h u.len)
    | w :: _ =>
      if 256 < (s.wv w).regs + n.toNat then .next (s.raise h u.len s.illegalWord)
      else
        .next ((((s.issued u).modThreads s.grp (fun _ t => { t with park := .claim, lastIssue := s.now })).modWave w (fun x => { x with
          claimN := n.toNat, claimAt := s.now })).modCore s.focus.core (fun c => { c with
          claims := queueClaim c.claims { wid := w, slot := (s.wv w).slot, n := n.toNat, at_ := s.now } })))

/-! ## Cache control and prefetch (R218, R219) -/

/-- Write a line of a launch's L2 slice back, with its narrow sectors, which go to the base die (R201); `drop` invalidates it. -/
def l2WriteBack (s : State) (lid k : Nat) (drop : Bool) : State :=
  match s.l2Line lid k with
  | none => s
  | some x =>
    let sl := s.sliceOf lid k
    let ls := s.slice sl
    { s.dropMasks k with msys := { (s.dropMasks k).msys with
        l2 := AMap.set [] s.msys.l2 sl (if drop then AMap.erase ls k else ls.map (fun e => if e.1 = k then (k, { x with dirty := false }) else e)) } }

/-- The retention level that `CCTL.ret` gives a line: that of its hint, but level 3 stays until the next fill (R197). -/
def retLevel (old hint : Nat) : Nat := if hint = 2 || old = 3 then 3 else if hint = 1 then 0 else 1

/-- Table 8.10 for one line: operations 0 `.wb`, 1 `.inv`, 2 `.wbinv`, 3 `.ret`; level 0 L1, 1 L2, 2 both. -/
def cctlLine (s : State) (core lid op hint level : Nat) (l : Loc) : State :=
  match lineNum l with
  | none => s
  | some k =>
    let s1 := if level = 1 then s
      else match op with
        | 0 => s
        | 3 => s.modCore core (fun c => { c with l1 := c.l1.map (fun e => if e.1 = k then (k, retLevel e.2 hint) else e) })
        | _ => s.modCore core (fun c => { c with l1 := AMap.erase c.l1 k })
    if level = 0 then s1
    else match s1.l2Num l with
      | none => s1
      | some k => match op with
        | 0 => l2WriteBack s1 lid k false
        | 3 =>
          let sl := s1.sliceOf lid k
          { s1 with msys := { s1.msys with l2 := AMap.set [] s1.msys.l2 sl ((s1.slice sl).map (fun e =>
              if e.1 = k then (k, { e.2 with level := retLevel e.2.level hint }) else e)) } }
        | _ => l2WriteBack s1 lid k true

def cctlExec (u : Uses) (op : Nat) (m : MemOp) (hint level : BitVec 2) (s : State) : Out :=
  atPlaces u m .read (fun s ps =>
    if ps.any (fun p => match lineNum p.2.loc with | some k => pinnedLine s k | none => false) then .next s.holdGroup
    else .next (ps.foldl (fun s p => cctlLine s s.focus.core (s.lidOf p.1) op hint.toNat level.toNat p.2.loc)
      ((s.issued u).advance u.h u.len))) s

def execCctlWb (h : Hdr) (m : MemOp) (hint level : BitVec 2) (s : State) : Out :=
  cctlExec (usesOf (.cctlWb h m hint level)) 0 m hint level s

def execCctlInv (h : Hdr) (m : MemOp) (hint level : BitVec 2) (s : State) : Out :=
  cctlExec (usesOf (.cctlInv h m hint level)) 1 m hint level s

def execCctlWbinv (h : Hdr) (m : MemOp) (hint level : BitVec 2) (s : State) : Out :=
  cctlExec (usesOf (.cctlWbinv h m hint level)) 2 m hint level s

def execCctlRet (h : Hdr) (m : MemOp) (hint level : BitVec 2) (s : State) : Out :=
  cctlExec (usesOf (.cctlRet h m hint level)) 3 m hint level s

/-- A prefetched line: what fails is dropped. A line of another package has no place in this one's L2. -/
def prefLine (s : State) (t : Nat) (m : MemOp) (hint level : Nat) : State :=
  match s.placeFor t m.qual.toNat (s.effAddr t m).toNat .read with
  | .error _ => s
  | .ok p =>
    match lineNum p.loc with
    | none => s
    | some k =>
      let s1 := if level = 1 then s else s.touchL1 s.focus.core k hint
      if level = 0 then s1 else s1.fillL2 (s.lidOf t) hint p.loc

def execPref (h : Hdr) (m : MemOp) (hint level : BitVec 2) (s : State) : Out :=
  let u := usesOf (.pref h m hint level)
  s.byGate u (fun s =>
    .next ((s.xs h).foldl (fun s t => prefLine s t m hint.toNat level.toNat) ((s.issued u).advance h u.len)))

end Sys2Proof.Machine
end

