-- ==== Sys2Proof/Machine/Engine.lean ====
section
/-!
DEFINITION. Sys2Proof/Machine/Engine.lean: the engine, barrier and stage-queue instructions (10 R288-R294), byte-count
barrier objects (R275-R277), chunk counters (R273, R274) and wired barriers (R278-R280).
-/

namespace Sys2Proof.Machine

open Sys2Proof State

/-! ## Queue instructions (R289, R290) -/

/-- The lowest executing thread of a wave. -/
def leader (s : State) (h : Hdr) (w : Nat) : Nat := (s.xsW h w).headD (w * 32)

/-- Push words once for each wave that has an executing lane, in slot order (R262). -/
def pushEach (u : Uses) (q : Nat) (f : State → Nat → List Word) (s : State) : Out :=
  s.byGate u (fun s =>
    let s1 := (s.issued u).advance u.h u.len
    .next ((s.wavesX u.h).foldl (fun x w => x.pushWords w q (leader s u.h w) (f s w)) s1))

def execQpush (h : Hdr) (e : BitVec 3) (a : Src) (s : State) : Out :=
  pushEach (usesOf (.qpush h e a)) e.toNat (fun s w => [s.rd [] (leader s h w) a]) s

/-- The `WAITSB` class of a popped word (04 R118). -/
def popClass (q : Nat) : Nat := if q = 6 then 3 else 1

def execQpop (h : Hdr) (d : Opnd) (e : BitVec 3) (s : State) : Out :=
  let u := usesOf (.qpop h d e)
  s.byGate u (fun s =>
    let pops := s.popsOf u
    let outs := (s.xs h).map (fun t => (t, [AMap.get 0 pops (widOf t * 8 + e.toNat)]))
    .next ((((s.issued u).dropPops u).sendVar (popClass e.toNat) (s.dstWrites d outs)).advance h u.len))

/-- `QTRY` never waits: a wave that finds a word pops it. -/
def execQtry (h : Hdr) (d : Opnd) (e : BitVec 3) (pd : Pred) (s : State) : Out :=
  let u := usesOf (.qtry h d e pd)
  s.byGate u (fun s =>
    let q := e.toNat
    let has (t : Nat) : Bool := !((s.wv (widOf t)).er.getD q []).isEmpty
    let xs := s.xs h
    let outs := (xs.filter has).map (fun t => (t, [((s.wv (widOf t)).er.getD q []).headD 0]))
    let ps := if pd = 0 then [] else xs.map (fun t => (Tgt.p t pd.toNat, if has t then (1 : Word) else 0))
    let s1 := (s.wavesX h).foldl (fun x w => x.modWave w (fun v => { v with er := v.er.set q ((v.er.getD q []).drop 1) })) (s.issued u)
    .next ((s1.sendVar (popClass q) (s.dstWrites d outs ++ ps)).advance h u.len))

/-- Two words of an address pair of a wave. -/
def pairWords (s : State) (w : Nat) (o : Opnd) : List Word := [(s.sPair w o).setWidth 32, (s.sPair w o >>> 32).setWidth 32]

/-- The header of R290: IMM with BBV, NW and OP filled in. -/
def headerOf (imm : Word) (bb : Opnd) (nw op : Nat) : Word :=
  BitVec.ofNat 32 (bitsOf imm.toNat 31 18 * 2 ^ 18 + (if bb.isS then 2 ^ 17 else 0) + nw * 2 ^ 8 + op)
/-- A whole command's words. -/
def commandOf (s : State) (w : Nat) (imm : Word) (bb : Opnd) (nw op : Nat) (body : List Word) : List Word :=
  headerOf imm bb nw op :: ((if bb.isS then pairWords s w bb else []) ++ body)

def execCopy (h : Hdr) (bb src dst size : Opnd) (imm : Word) (s : State) : Out :=
  pushEach (usesOf (.copy h bb src dst size imm)) 0 (fun s w =>
    commandOf s w imm bb 5 1 (pairWords s w src ++ pairWords s w dst ++ [s.sVal w size])) s

def execCopyFill (h : Hdr) (bb pattern dst size : Opnd) (imm : Word) (s : State) : Out :=
  pushEach (usesOf (.copyFill h bb pattern dst size imm)) 0 (fun s w =>
    commandOf s w imm bb 4 2 (s.sVal w pattern :: (pairWords s w dst ++ [s.sVal w size]))) s

/-- Element sizes of ESZ. -/
def eszBytes (esz : BitVec 2) : Word := if esz = 0 then 4 else if esz = 1 then 8 else 16

def execGather (h : Hdr) (bb src idx dst count : Opnd) (esz : BitVec 2) (imm : Word) (s : State) : Out :=
  pushEach (usesOf (.gather h bb src idx dst count esz imm)) 1 (fun s w =>
    commandOf s w imm bb 8 1 (pairWords s w src ++ pairWords s w idx ++ pairWords s w dst ++ [s.sVal w count, eszBytes esz])) s

def execScatter (h : Hdr) (bb src idx dst count : Opnd) (esz : BitVec 2) (imm : Word) (s : State) : Out :=
  pushEach (usesOf (.scatter h bb src idx dst count esz imm)) 1 (fun s w =>
    commandOf s w imm bb 8 2 (pairWords s w src ++ pairWords s w idx ++ pairWords s w dst ++ [s.sVal w count, eszBytes esz])) s

def execCollr (h : Hdr) (bb src dst group rank : Opnd) (imm : Word) (s : State) : Out :=
  pushEach (usesOf (.collr h bb src dst group rank imm)) 2 (fun s w =>
    commandOf s w imm bb 7 1 (pairWords s w group ++ [s.sVal w rank] ++ pairWords s w src ++ pairWords s w dst)) s

def execCollg (h : Hdr) (bb src dst group rank : Opnd) (imm : Word) (s : State) : Out :=
  pushEach (usesOf (.collg h bb src dst group rank imm)) 2 (fun s w =>
    commandOf s w imm bb 7 2 (pairWords s w group ++ [s.sVal w rank] ++ pairWords s w src ++ pairWords s w dst)) s

/-! ## Objects at an `s` base (R273-R277, R291, R292) -/

/-- The address of an object. -/
def baseAddr (s : State) (w : Nat) (base : Opnd) (off : Word) : DWord := s.sPair w base + sext64 off

/-- Where an object lies for an operation on it: aligned to `2^k`, not on a UO page, and in no window but those allowed: a chunk record
in none (R291); a barrier object in the argument window raises the fault of an atomic there (R292; 05 R124). -/
def objectPlace (s : State) (t : Nat) (ea : DWord) (k : Nat) (scr : Bool) : Except TrapInfo Loc :=
  if ea.toNat % 2 ^ k ≠ 0 then .error { code := 0x11, ad := ea, info := BitVec.ofNat 32 k }
  else match s.placeFor t 0 ea.toNat .write with
    | .error c => .error { code := 0x10, sub := if !scr && argWin ≤ ea.toNat && ea.toNat < argWin + 4096 then cAperture else c, ad := ea }
    | .ok p =>
      match p.loc with
      | .reg _ _ _ _ | .arg _ _ => .error { code := 0x10, sub := cAperture, ad := ea }
      | .scr _ _ => if scr then .ok p.loc else .error { code := 0x10, sub := cAperture, ad := ea }
      | _ => if p.ord = 2 then .error { code := 0x10, sub := cPerm, ad := ea } else .ok p.loc

/-- Does an access of a wave's leader at an address of its space reach an SO page, whose last one is still under way (09 R226)? -/
def soHeld (s : State) (t : Nat) (ea : DWord) : Bool := s.onSo t 0 ea && s.soBusy t

/-- An operation on an object, once for each wave with an executing lane: the checks of every wave first, and then the waits of an
atomic there: an SO access still under way, a page that is moving, an absent scratchpad line (09 R226; 08 R195, R200). -/
def onObjects (u : Uses) (base : Opnd) (off : Word) (k : Nat) (scr : Bool) (go : State → List (Nat × Loc) → State) (s : State) : Out :=
  s.byGate u (fun s =>
    let ls := (s.wavesX u.h).map (fun w => (w, objectPlace s (leader s u.h w) (baseAddr s w base off) k scr))
    match ls.findSome? (fun x => match x.2 with | .error t => some t | .ok _ => none) with
    | some t => .next (s.raise u.h u.len { t with mask := laneMask ((s.xs u.h).filter (fun x =>
        ls.any (fun l => l.1 == widOf x && (match l.2 with | .error _ => true | .ok _ => false)))) })
    | none =>
      let os := ls.filterMap (fun x => match x.2 with | .ok l => some (x.1, l) | .error _ => none)
      if (s.wavesX u.h).any (fun w => soHeld s (leader s u.h w) (baseAddr s w base off)) then .next s.holdGroup
      else match os.findSome? (fun x => s.waitOf x.2) with
      | some k => .next (s.leave.modThreads s.grp (fun _ t => { t with park := k }))
      | none => .next (go s os))

/-- The 64 bits of a chunk record or barrier object at an offset. -/
def rdWord64 (s : State) (lid : Nat) (l : Loc) (off : Nat) : Nat := leNat (s.rdBytes lid (l.add off) 8)
def rdWord32 (s : State) (lid : Nat) (l : Loc) (off : Nat) : Nat := leNat (s.rdBytes lid (l.add off) 4)

/-- R274: start, count and remaining of a request at a record, and the state after it. -/
def chunkTake (s : State) (lid : Nat) (l : Loc) : State × (Nat × Nat × Nat) :=
  let next := rdWord64 s lid l 0
  let stop := rdWord64 s lid l 8
  let minch := max 1 (rdWord32 s lid l 16)
  let div := max 1 (rdWord32 s lid l 20)
  let rem := stop - next
  let cnt := if rem = 0 then 0 else min (min rem (max minch ((rem + div - 1) / div))) (2 ^ 32 - 1)
  (s.wrBytes lid l (leBytes 8 ((next + cnt) % 2 ^ 64)), (next, cnt, min (rem - cnt) (2 ^ 32 - 1)))

/-- The result words of a chunk request: start in two words, count, remaining. -/
def chunkWords (r : Nat × Nat × Nat) : List Word :=
  [BitVec.ofNat 32 r.1, addrHi (r.1 % 2 ^ 52), BitVec.ofNat 32 r.2.1, BitVec.ofNat 32 r.2.2]

/-- R291: a request at the record's home; another package answers it under a response tag. -/
def execChunk (h : Hdr) (d base : Opnd) (off : Word) (s : State) : Out :=
  let u := usesOf (.chunk h d base off)
  onObjects u base off 5 false (fun s ls =>
    let s1 := (s.issued u).advance h u.len
    let r := ls.foldl (fun (r : State × List (Tgt × Word)) (w, l) =>
      let lid := (s.tm (tagW w)).lid
      if isFar s l then
        let x := r.1.openVar 1 (s.tgts (w * 32) d 4)
        let ea := (baseAddr s w base off).toNat
        let a : PAcc := { core := s.focus.core, tid := leader s h w, pc := s.focus.pc, op := .chunk, pieces := [(l, 32, ea)]
                          vres := some (s.focus.core, x.2), stamp := s.msys.copy, so := s.onSo (leader s h w) 0 (baseAddr s w base off) }
        (((x.1.noteWrite (tagW w) l).hitLines [l.line]).sendTag a (l.num / 2 ^ 40) ea, r.2)
      else
      let x := chunkTake (if r.1.rdPoison lid l 32 then r.1.setInterval (tagW w) bPoison else r.1) lid l
      (x.1.noteWrite (tagW w) l, r.2 ++ (s.tgts (w * 32) d 4).zip (chunkWords x.2))) (s1, [])
    r.1.sendVar 1 r.2) s

/-! ## Byte-count barriers (R275-R277) -/

/-- After each operation on an object: UNDER once COUNT is below zero. -/
def underBits (old count : Nat) : Nat := if 2 ^ 63 ≤ count then old ||| 1 else old

/-- `BBINIT` at an object. -/
def bbInit (s : State) (lid : Nat) (l : Loc) (c : DWord) : State :=
  let epoch := (rdWord32 s lid l 8 + 1) % 2 ^ 32
  s.wrBytes lid l (leBytes 8 c.toNat ++ leBytes 4 epoch ++ leBytes 52 (underBits 0 c.toNat))

/-- `BBADD` of a signed value at an object; a credit is an addition of its negation, that may come from another package. -/
def bbAdd (s : State) (lid : Nat) (l : Loc) (d : DWord) (remote : Bool) : State :=
  let count := (rdWord64 s lid l 0 + d.toNat) % 2 ^ 64
  let flags := rdWord32 s lid l 12
  let flags := underBits (if remote then flags ||| 2 else flags) count
  (s.wrBytes lid (l.add 12) (leBytes 4 flags)).wrBytes lid l (leBytes 8 count)
def bbCredit (s : State) (lid : Nat) (l : Loc) (n : Nat) : State := bbAdd s lid l (BitVec.ofInt 64 (-(n : Int))) false

/-- An operation of a thread on an object at an address: one of another package is changed there, under a response tag. -/
def atObject (s : State) (t : Nat) (l : Loc) (ea : DWord) (f : State → State) : State :=
  if isFar s l then ((s.noteWrite (tagOf t) l).hitLines [l.line]).sendWrite t l 64 ea.toNat (s.onSo t 0 ea)
  else (f s).noteWrite (tagOf t) l

def execBbinit (h : Hdr) (base : Opnd) (off : Word) (c : Opnd) (s : State) : Out :=
  let u := usesOf (.bbinit h base off c)
  onObjects u base off 6 true (fun s ls =>
    ls.foldl (fun x (w, l) => atObject x (leader s h w) l (baseAddr s w base off) (fun x => bbInit x (s.tm (tagW w)).lid l (s.sPair w c)))
      ((s.issued u).advance h u.len)) s

def execBbadd (h : Hdr) (base : Opnd) (off : Word) (c : Opnd) (s : State) : Out :=
  let u := usesOf (.bbadd h base off c)
  onObjects u base off 6 true (fun s ls =>
    ls.foldl (fun x (w, l) => atObject x (leader s h w) l (baseAddr s w base off) (fun x => bbAdd x (s.tm (tagW w)).lid l (s.sPair w c) false))
      ((s.issued u).advance h u.len)) s

/-- Does a `BBWAIT` find COUNT at 0 or less? What another package's object holds is answered from there. -/
def bbOpen (s : State) (l : Loc) : Bool := !isFar s l && decide ((s.countAt l).toInt ≤ 0)

/-- A thread parks at a barrier object; at one of another package under a response tag. -/
def bbPark (s : State) (l : Loc) (pd : Option Pred) (len ea : Nat) (t : Nat) : State :=
  let s1 := s.modThread t (fun x => { x with park := .bbwait l pd len none, pc := s.focus.pc, bbStamp := s.msys.copy })
  if isFar s l then
    s1.sendTag { core := s.focus.core, tid := t, pc := s.focus.pc, op := .bbwait, pieces := [(l, 64, ea)], stamp := s.msys.copy
                 so := s.onSo t 0 (BitVec.ofNat 64 ea) }
      (l.num / 2 ^ 40) ea
  else s1

/-- R277, R292: a thread that finds COUNT at 0 or less goes on with an acquire (09 R245), the others park at this instruction. -/
def bbwaitExec (u : Uses) (base : Opnd) (off : Word) (pd : Option Pred) (s : State) : Out :=
  onObjects u base off 6 true (fun s ls =>
    let s1 := ((s.issued u).advance u.h u.len).acquireAt (if ls.any (fun x => bbOpen s x.2) then some 5 else none)
    let s2 := ls.foldl (fun x (w, l) =>
      if bbOpen s l then x
      else (s.xsW u.h w).foldl (fun x t => bbPark x l pd u.len (baseAddr s w base off).toNat t) x) s1
    match pd with
    | some p => if p = 0 then s2 else s2.sched 2 (ls.flatMap (fun (w, l) =>
        if bbOpen s l then (s.xsW u.h w).map (fun t => (Tgt.p t p.toNat, if s.countAt l = 0 then (1 : Word) else 0)) else []))
    | none => s2) s

def execBbwait (h : Hdr) (base : Opnd) (off : Word) (s : State) : Out :=
  bbwaitExec (usesOf (.bbwait h base off)) base off none s

def execBbwaitP (h : Hdr) (pd : Pred) (base : Opnd) (off : Word) (s : State) : Out :=
  bbwaitExec (usesOf (.bbwaitP h pd base off)) base off (some pd) s

/-! ## Wired barriers (R278-R280) -/

def rtagOf (s : State) (lid rt : Nat) : RTag := (s.la lid).rtags.get {} rt
def modRtag (s : State) (lid rt : Nat) (f : RTag → RTag) : State :=
  s.modLaunch lid (fun l => { l with rtags := AMap.set {} l.rtags rt (f (l.rtags.get {} rt)) })

/-- The participant count that the launch record binds a tag to; 0 leaves it unbound. -/
def bound (s : State) (lid rt : Nat) : Nat := (s.la lid).tagCount rt

/-- The oldest episode completes: its waiters are released 64 or 160 clk of their core later (R280). -/
def completeEpisode (s : State) (lid rt : Nat) : State :=
  let r := rtagOf s lid rt
  let waits (t : Thread) : Bool := match t.park with
    | .barrier l k e none => l == lid && k == rt && decide (e ≤ r.episode)
    | _ => false
  let ws := (s.threads.filter (fun e => waits e.2)).map Prod.fst
  let dies := ((r.dies.filter (fun d => d.1 == r.episode)).map Prod.snd ++ ws.map (fun t => dieOf (s.coreOf t))).dedup
  let delay := if dies.length ≤ 1 then 64 else 160
  (modRtag s lid rt (fun x => { x with
    episode := x.episode + 1, count := x.count - bound s lid rt, dies := x.dies.filter (fun d => d.1 != r.episode) })).modThreads ws
    (fun t x => match x.park with
      | .barrier l k e _ => { x with park := .barrier l k e (some (s.clkOf (s.coreOf t) + delay)) }
      | _ => x)

/-- Complete every episode whose count is reached, unless a debugger holds the tag. -/
def settleTag (s : State) (lid rt : Nat) : Nat → State
  | 0 => s
  | n + 1 =>
    let r := rtagOf s lid rt
    if r.hold || bound s lid rt = 0 || decide (r.count < bound s lid rt) then s
    else settleTag (completeEpisode s lid rt) lid rt n

/-- A thread waits for an episode. -/
def awaitEpisode (s : State) (lid rt e t : Nat) : State := s.modThread t (fun x => { x with park := .barrier lid rt e none })

/-- One thread arrives, and waits for its episode when `wait`. A secondary copy's arrival is not counted (14 R394). -/
def arrive (rt : Nat) (wait : Bool) (s : State) (t : Nat) : State :=
  let lid := s.lidOf t
  let r := rtagOf s lid rt
  let e := r.episode + r.count / max 1 (bound s lid rt)
  let s1 := s.modThread t (fun x => { x with arrivals := AMap.set 0 x.arrivals rt (e + 1) })
  let s2 := if wait then awaitEpisode s1 lid rt e t else s1
  if (s.tm (tagOf t)).isSecond then s2
  else settleTag (modRtag s2 lid rt (fun x => { x with count := x.count + 1, dies := x.dies ++ [(e, dieOf (s.coreOf t))] })) lid rt 2

/-- A thread waits for the episode of its latest arrival, or for the open one; a complete episode returns at once, with the acquire
at `.pkg` of 09 R246 (in `barExec`). -/
def awaitTag (rt : Nat) (s : State) (t : Nat) : State :=
  let lid := s.lidOf t
  let r := rtagOf s lid rt
  let a := (s.th t).arrivals.get 0 rt
  let e := if a = 0 then r.episode else a - 1
  if e < r.episode then s else awaitEpisode s lid rt e t

/-- The trap of an unbound tag: an engine command fault at the instruction, cause 3 (R293). -/
def engineTrap (s : State) (h : Hdr) (cause : Nat) : TrapInfo := { code := 0x14, sub := cause, mask := laneMask (s.xs h) }

def barExec (u : Uses) (rt : BitVec 3) (arr wait : Bool) (s : State) : Out :=
  s.byGate u (fun s =>
    let xs := s.xs u.h
    if !xs.isEmpty && bound s s.lidF rt.toNat = 0 then .next (s.raise u.h u.len (engineTrap s u.h 3))
    else
      let s1 := (s.issued u).advance u.h u.len
      let s2 := xs.foldl (if arr then arrive rt.toNat wait else awaitTag rt.toNat) s1
      .next (if wait && xs.any (fun t => (s2.th t).park = .none) then s2.acquireAt (some 5) else s2))

def execBar (h : Hdr) (rtag : BitVec 3) (s : State) : Out := barExec (usesOf (.bar h rtag)) rtag true true s

def execBara (h : Hdr) (rtag : BitVec 3) (s : State) : Out := barExec (usesOf (.bara h rtag)) rtag true false s

def execBarw (h : Hdr) (rtag : BitVec 3) (s : State) : Out := barExec (usesOf (.barw h rtag)) rtag false true s

/-! ## Stage queues (R282, R283, R294) -/

def sqOf (s : State) (lid q : Nat) : StageQ := (s.la lid).sqs.get {} q
def modSq (s : State) (lid q : Nat) (f : StageQ → StageQ) : State :=
  s.modLaunch lid (fun l => { l with sqs := AMap.set {} l.sqs q (f (l.sqs.get {} q)) })

/-- The entry of the register form: each lane's two words, every lane as it stands. -/
def entryOf (s : State) (w n : Nat) : List Byte :=
  (tidsOf w).flatMap (fun t => leBytes 4 (s.vreg t n).toNat ++ leBytes 4 (s.vreg t (n + 1)).toNat)

/-- The eight aligned 32-byte pieces of an entry in memory. -/
def entryPieces (s : State) (t : Nat) (ea : DWord) (acc : Acc) : Except TrapInfo (List (Loc × Nat × Nat)) :=
  if ea.toNat % 32 ≠ 0 then .error { code := 0x11, ad := ea, info := 5 }
  else (List.range 8).foldr (fun k r => match r, s.piecesOf t 0 (ea + BitVec.ofNat 64 (32 * k)) 32 acc with
    | .ok ps, .ok p => .ok (p ++ ps)
    | .error e, _ => .error e
    | _, .error c => .error { code := 0x10, sub := c, ad := ea + BitVec.ofNat 64 (32 * k) }) (.ok [])


/-- Park the executing threads of a wave at this instruction, in a stage queue's list. -/
def parkSq (s : State) (tids : List Nat) (lid q pc : Nat) : State :=
  s.modThreads tids (fun _ t => { t with park := .sq lid q, pc := pc })

/-- A wave's commands of `e4` and `e5` that have not joined a list yet: its operations arrive in program order (R283). -/
def sqBehind (s : State) (w : Nat) : Bool :=
  (s.co (s.wv w).core).cmds.any (fun c => c.wid == w && (c.q == 4 || c.q == 5) && !c.started) ||
  [4, 5].any (fun q => ((s.wv w).eqHdr.get [] q).any (fun r => r.id != 0))

/-- Does a stage-queue operation of a wave on memory reach an SO page, with one of its accesses there still under way (09 R226)? -/
def sqSo (s : State) (u : Uses) (a : Opnd) : Bool :=
  u.h.len != .w64 && (s.wavesX u.h).any (fun w => soHeld s (leader s u.h w) (s.sPair w a) || soHeld s (leader s u.h w) (s.sPair w a + 255))

/-- A push joins its queue's list with the entry as read; the parts that lie in another package come under a response tag. -/
def sqpushExec (u : Uses) (q : BitVec 4) (a : Opnd) (s : State) : Out :=
  s.byGate u (fun s =>
    let lid := s.lidF
    if (s.wavesX u.h).isEmpty then .next ((s.issued u).advance u.h u.len)
    else if (s.wavesX u.h).any (sqBehind s) || sqSo s u a then .next s.holdGroup
    else if (s.la lid).sqDepth q.toNat = 0 then .next (s.raise u.h u.len (engineTrap s u.h 5))
    else
      let es := (s.wavesX u.h).map (fun w =>
        if u.h.len = .w64 then (w, (Except.ok (entryOf s w (regNum a)) : Except TrapInfo (List Byte)), [])
        else match entryPieces s (leader s u.h w) (s.sPair w a) .read with
          | .ok ps => (w, .ok (ps.flatMap (fun p => s.readPiece (leader s u.h w) p.1 p.2.1)), ps)
          | .error t => (w, .error t, []))
      match es.findSome? (fun e => match e.2.1 with | .error t => some t | .ok _ => none) with
      | some t => .next (s.raise u.h u.len { t with mask := laneMask ((s.xs u.h).filter (fun x =>
          es.any (fun e => e.1 == widOf x && (match e.2.1 with | .error _ => true | .ok _ => false)))) })
      | none =>
        match es.findSome? (fun e => e.2.2.findSome? (fun p => match s.waitOf p.1 with
            | some k => some k
            | none => s.waitRead (leader s u.h e.1) p.1)) with
        | some k => .next (s.leave.modThreads s.grp (fun _ t => { t with park := k }))
        | none =>
          .next (es.foldl (fun x e => match e.2.1 with
            | .error _ => x
            | .ok bs =>
              let t := leader s u.h e.1
              let near := e.2.2.filter (fun p => !isFar s p.1)
              let x1 := near.foldl (fun x p => x.readMarks s.focus.core t 0 p.1 p.2.1) x
              let x2 := match e.2.2.find? (fun p => isFar s p.1) with
                | some p => x1.sendTag
                    { core := s.focus.core, tid := t, pc := s.focus.pc, op := .entry, pieces := e.2.2, stamp := s.msys.copy
                      so := s.onSo t 0 (s.sPair e.1 a) || s.onSo t 0 (s.sPair e.1 a + 255) } (p.1.num / 2 ^ 40) p.2.2
                | none => x1
              let r : SqReq := {
                wid := e.1, tids := s.xsW u.h e.1, len := u.len, entry := bs
                cls := near.foldl (fun k p => k ||| s.classAt lid p.1) 0
                tag := if near.length = e.2.2.length then 0 else x1.msys.nextTag }
              modSq (parkSq x2 (s.xsW u.h e.1) lid q.toNat s.focus.pc) lid q.toNat (fun k => { k with pushes := k.pushes ++ [r] }))
            ((s.issued u).advance u.h u.len)))

def execSqpush (h : Hdr) (q : BitVec 4) (a : Opnd) (s : State) : Out := sqpushExec (usesOf (.sqpush h q a)) q a s

def execSqpop (h : Hdr) (q : BitVec 4) (a : Opnd) (pd : Pred) (s : State) : Out :=
  let u := usesOf (.sqpop h q a pd)
  s.byGate u (fun s =>
    let lid := s.lidF
    if (s.wavesX h).isEmpty then .next ((s.issued u).advance h u.len)
    else if (s.wavesX h).any (sqBehind s) || sqSo s u a then .next s.holdGroup
    else if (s.la lid).sqDepth q.toNat = 0 then .next (s.raise h u.len (engineTrap s h 5))
    else
      let ds := (s.wavesX h).map (fun w =>
        if h.len = .w64 then (w, (Except.ok [] : Except TrapInfo (List (Loc × Nat × Nat))))
        else (w, entryPieces s (leader s h w) (s.sPair w a) .write))
      match ds.findSome? (fun e => match e.2 with | .error t => some t | .ok _ => none) with
      | some t => .next (s.raise h u.len { t with mask := laneMask ((s.xs h).filter (fun x =>
          ds.any (fun e => e.1 == widOf x && (match e.2 with | .error _ => true | .ok _ => false)))) })
      | none =>
        .next (ds.foldl (fun x e => match e.2 with
          | .error _ => x
          | .ok ps =>
            let r : SqReq := {
              wid := e.1, tids := s.xsW h e.1, len := u.len
              reg := if h.len = .w64 then some (regNum a) else none
              pieces := ps, pd := pd.toNat, stamp := s.msys.copy }
            modSq (parkSq x (s.xsW h e.1) lid q.toNat s.focus.pc) lid q.toNat (fun k => { k with pops := k.pops ++ [r] }))
          ((s.issued u).advance h u.len)))

/-- R294: a close joins the push list; the instruction completes at issue. -/
def execSqclose (h : Hdr) (q : BitVec 4) (s : State) : Out :=
  let u := usesOf (.sqclose h q)
  s.byGate u (fun s =>
    let lid := s.lidF
    if (s.wavesX h).any (sqBehind s) then .next s.holdGroup
    else if !(s.wavesX h).isEmpty && (s.la lid).sqDepth q.toNat = 0 then .next (s.raise h u.len (engineTrap s h 5))
    else .next ((s.wavesX h).foldl (fun x w => modSq x lid q.toNat (fun k => { k with
        pushes := k.pushes ++ [({ wid := w, isClose := true } : SqReq)] })) ((s.issued u).advance h u.len)))

end Sys2Proof.Machine
end

