-- ==== Sys2Proof/Machine/Matrix.lean ====
section
/-!
DEFINITION. Sys2Proof/Machine/Matrix.lean: the matrix unit (11): issue of array instructions with their checks, operand
fetch and pins (08 R198), tiles and their descriptors, what each array phase does, the records of the witness lane
(13 R351), the licence, and the twin window.
-/

namespace Sys2Proof.Machine

open Sys2Proof State

/-! ## Tiles and descriptors (R301, R302) -/

def tileArr (s : State) (core m : Nat) : Array Word :=
  ((List.range 4096).map (fun k => s.tiles.get 0 ((core * 8 + m) * 4096 + k))).toArray
/-- Set every element of a tile. -/
def putTile (s : State) (core m : Nat) (t : Array Word) : State :=
  s.setTileWords core m ((t.toList.zipIdx.map (fun e => (e.2, e.1))).filter (fun e => e.2 != 0))

def modDesc (s : State) (core m : Nat) (f : TileDesc → TileDesc) : State :=
  s.modCore core (fun c => { c with tiles := AMap.set {} c.tiles m (f (c.tiles.get {} m)) })

/-- Chain codes (Table 11.3). -/
def chProduct : Nat := 1
def chBroken : Nat := 2

/-- A new chain of a tile, its owner kept. -/
def freshDesc (d : TileDesc) (tid : Word) : TileDesc := { tid := tid, chain := chProduct, owner := d.owner }
/-- A tile whose chain is PRODUCT with an initial term and no product added (12 R335). -/
def loadedTile (d : TileDesc) : Bool := d.chain == chProduct && d.init && d.groups == 0

/-- A named tile without an owner becomes its context's (R302). -/
def ownTiles (s : State) (core tag : Nat) (ms : List Nat) : State :=
  ms.foldl (fun s m => modDesc s core m (fun d => if d.owner = 0 then { d with owner := tag } else d)) s

/-- Tiles that a SUSPENDED loop state names (12 R328). -/
def suspTiles (b : BitVec 128) : List Nat :=
  let l := Loop.ofBits b
  if l.phase ≠ 2 then []
  else if l.kind = 4 then [l.xt, l.wt]
  else
    let t := iterTiles l.kind l.xt l.wt l.wide
    t.x ++ (l.wt :: t.work)
/-- An instruction that writes a tile of a SUSPENDED state ends the suspension. -/
def clearSusp (s : State) (tag : Nat) (ms : List Nat) : State :=
  if ms.any (fun m => (suspTiles (s.tm tag).loop).contains m) then
    s.modTeam tag (fun t => { t with loop := { Loop.ofBits t.loop with phase := 0 }.bits })
  else s

/-! ## What an array instruction names (R299, R315, R339) -/

/-- A memory operand: its base, the base's alignment, whether only global memory and the vault window may hold it, and its
rows. -/
structure MOpd where
  base : Nat
  align : Nat
  strict : Bool
  rows : List (Nat × Nat)
  deriving DecidableEq, Repr

def rowsOf (base stride bytes n : Nat) : List (Nat × Nat) := (List.range n).map (fun i => ((base + i * stride) % 2 ^ 64, bytes))

def scaleBad (f : FSlot) (c : Opnd) : Bool := if f.scale = 1 then !c.isS else c != .unused
def fmtIn (f : FSlot) (lo hi : Nat) : Bool := decide (lo ≤ f.fmt) && decide (f.fmt ≤ hi)
/-- A stride of a tile in memory is 0 or at least a packed row. -/
def strideBad (f : FSlot) (stride : Word) : Bool := stride != 0 && decide (stride.toNat < 64 * fmtBytes f.fmt)
def oddTile (o : Opnd) : Bool := regNum o % 2 == 1

/-- The word is illegal because of what its slot holds (R315, R319, R340). -/
def slotIllegal (s : State) (lid : Nat) : Instr → Bool
  | .mma _ _ _ _ c slot _ => let f := slotF s lid slot.toNat; !fmtIn f 1 4 || scaleBad f c
  | .mmaf _ kind _ a b c slot =>
    let f := slotF s lid slot.toNat
    !fmtIn f 1 4 || scaleBad f c ||
    (decide (3 ≤ f.fmt) && ((kind != 1 && oddTile a) || (kind != 0 && oddTile b)))
  | .mld _ _ _ _ c slot stride => let f := slotF s lid slot.toNat; !fmtIn f 0 5 || scaleBad f c || strideBad f stride
  | .mst _ _ _ c slot _ inf stride =>
    let f := slotF s lid slot.toNat
    !fmtIn f 0 5 || scaleBad f c || strideBad f stride || (inf && f.fmt != 3)
  | .mstAuto _ _ _ c slot _ inf stride =>
    let f := slotF s lid slot.toNat
    !fmtIn f 0 5 || f.scale != 1 || scaleBad f c || strideBad f stride || (inf && f.fmt != 3)
  | .mcvt _ _ _ slot => !fmtIn (slotF s lid slot.toNat) 0 5
  | .mpoly _ _ _ _ slot => !fmtIn (slotF s lid slot.toNat) 1 3
  | .miter _ _ _ _ _ _ slot _ _ => !fmtIn (slotF s lid slot.toNat) 1 3
  | .mres _ _ _ _ _ slot _ => !fmtIn (slotF s lid slot.toNat) 1 3
  | _ => false

/-- The stride of a tile in memory. -/
def tileStride (f : FSlot) (stride : Word) : Nat := if stride = 0 then 64 * fmtBytes f.fmt else stride.toNat
/-- The scale bytes of 64 rows or columns from a place of the array on. -/
def scaleOpd (s : State) (wid : Nat) (c : Opnd) (off n : Nat) : MOpd :=
  let base := (s.sPair wid c).toNat
  { base := base, align := 1, strict := false, rows := [((base + off) % 2 ^ 64, n)] }

/-- Memory operands read, in the order their bytes are kept. -/
def readOpds (s : State) (lid wid : Nat) : Instr → List MOpd
  | .mma _ _ a b c slot strides =>
    let f := slotF s lid slot.toNat
    let st (n : Nat) : Nat := if n = 0 then 128 else 128 * n
    let nb := kOf f.fmt / f.block
    let pa := (s.sPair wid a).toNat
    let pb := (s.sPair wid b).toNat
    [⟨pa, 128, true, rowsOf pa (st (strides.toNat / 2 ^ 16)) 128 64⟩, ⟨pb, 128, true, rowsOf pb (st (strides.toNat % 2 ^ 16)) 128 64⟩] ++
    (if f.scale = 1 then [scaleOpd s wid c 0 (128 * nb)] else [])
  | .mmaf _ kind _ a b c slot =>
    let f := slotF s lid slot.toNat
    let nb := kOf f.fmt / f.block
    let p := (s.sPair wid (if kind = 0 then b else a)).toNat
    if kind = 2 then []
    else ⟨p, 128, true, rowsOf p 128 128 64⟩ ::
      (if f.scale = 1 then [scaleOpd s wid c (if kind = 0 then 64 * nb else 0) (64 * nb)] else [])
  | .mld _ _ base _ c slot stride =>
    let f := slotF s lid slot.toNat
    let p := (s.sPair wid base).toNat
    ⟨p, 32, false, rowsOf p (tileStride f stride) (64 * fmtBytes f.fmt) 64⟩ ::
      (if f.scale = 1 then [scaleOpd s wid c 0 (64 * (64 / f.block))] else [])
  | .mst _ _ _ c slot _ _ _ =>
    let f := slotF s lid slot.toNat
    if f.scale = 1 then [scaleOpd s wid c 0 (64 * (64 / f.block))] else []
  | .mcoef _ _ base off cnt =>
    let p := (s.sPair wid base + sext64 off).toNat
    [⟨p, 4, false, [(p, 4 * cnt.toNat)]⟩]
  | _ => []

/-- Memory operands written: the tile, and the scale array of `MST.auto`. -/
def writeOpds (s : State) (lid wid : Nat) : Instr → List MOpd
  | .mst _ _ base _ slot _ _ stride =>
    let f := slotF s lid slot.toNat
    let p := (s.sPair wid base).toNat
    [⟨p, 32, false, rowsOf p (tileStride f stride) (64 * fmtBytes f.fmt) 64⟩]
  | .mstAuto _ _ base c slot _ _ stride =>
    let f := slotF s lid slot.toNat
    let p := (s.sPair wid base).toNat
    [⟨p, 32, false, rowsOf p (tileStride f stride) (64 * fmtBytes f.fmt) 64⟩, scaleOpd s wid c 0 (64 * (64 / f.block))]
  | _ => []

/-! ## Checking and fetching operands (R298) -/

/-- A range split at 32-byte boundaries. -/
def granules : Nat → Nat → Nat → List (Nat × Nat)
  | 0, _, _ => []
  | fuel + 1, ea, n =>
    if n = 0 then []
    else
      let k := min n (32 - ea % 32)
      (ea, k) :: granules fuel ((ea + k) % 2 ^ 64) (n - k)
def MOpd.pieces (o : MOpd) : List (Nat × Nat) := o.rows.flatMap (fun r => granules (r.2 / 32 + 2) r.1 r.2)

/-- Where a piece lies, in the places of Table 11.2. -/
def mopdPlace (s : State) (tid : Nat) (strict : Bool) (ea : Nat) (acc : Acc) : Except Nat Loc :=
  match s.placeFor tid 0 ea acc with
  | .error c => .error (if argWin ≤ ea && ea < argWin + 4096 then cAperture else c)
  | .ok p => match p.loc with
    | .reg _ _ _ _ | .arg _ _ => .error cAperture
    | .scr _ _ => if strict then .error cAperture else .ok p.loc
    | l => .ok l

/-- The places of operands, or the trap of the first that fails: alignment first, then translation. -/
def opdPlaces (s : State) (tid : Nat) (xs : List Nat) (acc : Acc) (os : List MOpd) : Except TrapInfo (List (Loc × Nat × Nat)) :=
  match os.find? (fun o => o.base % o.align != 0) with
  | some o => .error { code := 0x11, ad := BitVec.ofNat 64 o.base, mask := laneMask xs }
  | none =>
    (os.flatMap (fun o => o.pieces.map (fun p => (o.strict, p)))).foldr (fun x r =>
      match mopdPlace s tid x.1 x.2.1 acc with
      | .error c => .error { code := 0x10, sub := c, ad := BitVec.ofNat 64 x.2.1, mask := laneMask xs }
      | .ok l => match r with
        | .ok ps => .ok ((l, x.2.2, x.2.1) :: ps)
        | .error e => .error e) (.ok [])

/-- The bytes that an engine or a tile fetch unit reads for a thread at a piece, with the version, poison and cache marks
of the read. -/
def fetchPiece (core tid : Nat) (r : State × List Byte) (p : Loc × Nat) : State × List Byte :=
  let s := r.1
  if isFar s p.1 then
    let x := freeBytes s p.2
    (x.1, r.2 ++ x.2)
  else (s.readMarks core tid 3 p.1 p.2, r.2 ++ s.readPiece tid p.1 p.2)
def fetchAll (s : State) (core tid : Nat) (ps : List (Loc × Nat)) : State × List Byte := ps.foldl (fetchPiece core tid) (s, [])

/-! ## Pins (08 R196, R198) -/

/-- Lines pinned in a slice. -/
def pinnedIn (s : State) (slice : Nat) : List Nat :=
  (s.cores.flatMap (fun c => c.2.mx.flatMap (fun e => e.pins.filter (fun k => s.sliceOf (s.lidOf e.tid) k == slice)))).dedup

def modEntry (s : State) (core id : Nat) (f : MxEntry → MxEntry) : State :=
  s.modCore core (fun c => { c with mx := c.mx.map (fun e => if e.id = id then f e else e) })

/-- The lines of an entry in a slice that are still to be pinned. -/
def wantIn (s : State) (e : MxEntry) (slice : Nat) : List Nat :=
  e.lines.filter (fun k => s.sliceOf (s.lidOf e.tid) k == slice && !e.pins.contains k)
/-- A request fits in its slice. -/
def pinFits (s : State) (slice : Nat) (want : List Nat) : Bool :=
  let have_ := pinnedIn s slice
  decide (have_.length + (want.filter (fun k => !have_.contains k)).length ≤ 4096)

/-- An entry requests its pins slice by slice in increasing slice number; a slice without room queues the request. -/
def requestPins : Nat → State → Nat → Nat → State
  | 0, s, _, _ => s
  | fuel + 1, s, core, id =>
    match (s.co core).mx.find? (fun e => e.id == id) with
    | none => s
    | some e =>
      match sortBy (fun x => x) ((e.lines.filter (fun k => !e.pins.contains k)).map (s.sliceOf (s.lidOf e.tid))) with
      | [] => s
      | sl :: _ =>
        if (s.msys.pinq.all (fun q => q.1 != sl)) && pinFits s sl (wantIn s e sl) then
          requestPins fuel (modEntry s core id (fun x => { x with pins := x.pins ++ wantIn s e sl })) core id
        else { s with msys := { s.msys with pinq := s.msys.pinq ++ [(sl, core, id)] } }

/-! ## Issue (R295, R298, R316) -/

def arbCode : Arb → Nat
  | .free => 0
  | .wake u _ => 1 + 4 * u.toNat
  | .held u => 2 + 4 * u.toNat
  | .drain u => 3 + 4 * u.toNat
def licCode : Lic → Nat
  | .none => 0
  | .wait => 1
  | .hold => 2
  | .saved => 3

/-- Register and scalar values read at issue. -/
def readVals (s : State) (wid : Nat) : Instr → List Word
  | .mzero _ _ tid => [s.sVal wid tid]
  | .mld _ _ _ tid _ _ _ => [s.sVal wid tid]
  | .mscl _ _ _ f => match f with
    | .coef n => [(s.tm (tagW wid)).coefs.getD n.toNat 0]      -- R308, R320 (log 70)
    | .scalar o => [s.sVal wid o]
  | .mrow _ _ _ row => [s.sVal wid row]
  | .miter _ _ _ _ limit _ _ _ _ => match limit with
    | .lit n => [n.setWidth 32]
    | .reg n => [(s.sreg wid n.toNat) &&& 0xFFF]
  | .mcoefS _ _ a => [s.sVal wid a]
  | .mlsw _ a => (List.range 4).map (fun k => s.sreg wid (regNum a + k))
  | _ => []

/-- Length of an array phase (Table 11.1, 12 R336-R338); an iteration entry's is that of its first step. -/
def phaseClk (s : State) (lid : Nat) : Instr → Nat
  | .mma _ _ _ _ _ _ _ => 256
  | .mmaf _ _ _ _ _ _ _ => 272
  | .mzero _ _ _ => 16
  | .mld _ _ _ _ _ _ _ => 128
  | .mst _ _ _ _ _ _ _ _ => 128
  | .mstAuto _ _ _ _ _ _ _ _ => 128
  | .mcvt _ _ _ _ => 64
  | .mtrn _ _ _ => 64
  | .madd _ _ _ _ => 64
  | .maddI _ _ _ _ => 64
  | .mscl _ _ _ _ => 64
  | .mpoly _ _ _ _ _ => 16
  | .miter _ kind _ _ _ _ slot wide _ => iterInitClk kind.toNat (slotF s lid slot.toNat).fmt wide
  | .mres _ kind _ _ _ slot wide => iterInitClk kind.toNat (slotF s lid slot.toNat).fmt wide
  | _ => 8

/-- The base address and stride of the tile of an `MLD` or `MST`. -/
def tileAddr (s : State) (lid wid : Nat) : Instr → Nat × Nat
  | .mld _ _ base _ _ slot stride => ((s.sPair wid base).toNat, if stride = 0 then 0 else tileStride (slotF s lid slot.toNat) stride)
  | .mst _ _ base _ slot _ _ stride => ((s.sPair wid base).toNat, if stride = 0 then 0 else tileStride (slotF s lid slot.toNat) stride)
  | .mstAuto _ _ base _ slot _ _ stride => ((s.sPair wid base).toNat, if stride = 0 then 0 else tileStride (slotF s lid slot.toNat) stride)
  | _ => (0, 0)
/-- The operands in memory that the checker may read again: those of the array's products and loads (13 R359, R360). -/
def loadsOf (s : State) (lid wid : Nat) : Instr → List TileSrc
  | .mma _ _ a b c slot strides =>
    let f := slotF s lid slot.toNat
    let st (n : Nat) : Nat := if n = 0 then 128 else 128 * n
    let sc := (s.sPair wid c).toNat
    [⟨(s.sPair wid a).toNat, slot.toNat, st (strides.toNat / 2 ^ 16), sc⟩,
     ⟨(s.sPair wid b).toNat, slot.toNat, st (strides.toNat % 2 ^ 16), sc + 64 * (kOf f.fmt / f.block)⟩]
  | .mmaf _ kind _ a b c slot =>
    let f := slotF s lid slot.toNat
    [⟨(s.sPair wid (if kind = 0 then b else a)).toNat, slot.toNat, 128,
      (s.sPair wid c).toNat + (if kind = 0 then 64 * (kOf f.fmt / f.block) else 0)⟩]
  | .mld _ _ base _ c slot stride =>
    [⟨(s.sPair wid base).toNat, slot.toNat, tileStride (slotF s lid slot.toNat) stride, (s.sPair wid c).toNat⟩]
  | _ => []
def scaleAddr (s : State) (wid : Nat) : Instr → Nat
  | .mst _ _ _ c _ _ _ _ => (s.sPair wid c).toNat
  | .mstAuto _ _ _ c _ _ _ _ => (s.sPair wid c).toNat
  | _ => 0

/-- The destination registers of an array instruction's pending result. -/
def arrayDst : Instr → Option (Opnd × Nat)
  | .mrow _ d _ _ => some (d, 2)
  | .mres _ _ d _ _ _ _ => some (d, 1)
  | .mls _ d => some (d, 4)
  | _ => none

/-- Does an instruction's fetch pin lines (08 R198)? -/
def pinsLines : Instr → Bool
  | .mma _ _ _ _ _ _ _ => true
  | .mmaf _ _ _ _ _ _ _ => true
  | _ => false
/-- The wave waits at the instruction until it ends (12 R332). -/
def isIter : Instr → Bool
  | .mpoly _ _ _ _ _ => true
  | .miter _ _ _ _ _ _ _ _ _ => true
  | _ => false

/-- The targets of a result: of an `s` destination the wave's, of `v` every lane's. -/
def arrayTgts (s : State) (wid : Nat) (d : Opnd × Nat) : List Tgt :=
  match d.1 with
  | .v _ => (tidsOf wid).flatMap (fun t => s.tgts t d.1 d.2)
  | o => s.tgts (wid * 32) o d.2

/-- Enter an instruction in its unit's queue: operands fetched, pins requested, tiles owned, the wave goes on or waits. -/
def enqueue (s0 : State) (i : Instr) (u : Uses) (wid : Nat) (srcs outs scales : List (Loc × Nat × Nat)) : State :=
  let core := s0.focus.core
  let s := s0.stopFillers (pairOf core)
  let tid := wid * 32
  let lid := s.lidOf tid
  let f := fetchAll s core tid (srcs.map (fun p => (p.1, p.2.1)))
  let s1 := ownTiles (f.1.issued u) core (tagW wid) (tilesNamed s lid i)
  let r := match arrayDst i with
    | some d => let x := s1.openVar 2 (arrayTgts s wid d); (x.1, some x.2)
    | none => (s1, none)
  let id := (r.1.co core).nextId
  let lines := if pinsLines i then (srcs.filterMap (fun p => lineNum p.1)).dedup else []
  let e : MxEntry :=
    { id := id, op := i, wid := wid, tid := tid, pc := s.focus.pc, len := u.len, issued := s.now, stamp := s.msys.copy, lenClk := phaseClk s lid i
      srcs := srcs.map (fun p => (p.1, p.2.1)), mem := some f.2, outs := outs, scales := scales
      base := (tileAddr s lid wid i).1, stride := (tileAddr s lid wid i).2, scale := scaleAddr s wid i
      loads := loadsOf s lid wid i
      vals := readVals s wid i, vres := r.2, lines := lines
      so := (srcs ++ outs ++ scales).any (fun p => s.onSo tid 0 (BitVec.ofNat 64 p.2.2)) }
  let s2 := requestPins 257 (r.1.modCore core (fun c => { c with nextId := id + 1, mx := c.mx ++ [e] })) core id
  if isIter i then s2.modThreads s.grp (fun _ t => { t with park := .iter, lastIssue := s.now })
  else s2.advance u.h u.len

/-- Split the places of writes into the tile's and the scale array's. -/
def splitOuts (os : List MOpd) (ps : List (Loc × Nat × Nat)) : List (Loc × Nat × Nat) × List (Loc × Nat × Nat) :=
  let n := ((os.head?.map (fun o => o.pieces.length)).getD 0)
  (ps.take n, ps.drop n)

/-- The issue of an array instruction: decode checks, R95, room in the queue, licence, ownership, operands (R316). -/
def arrayExec (i : Instr) (s : State) : Out :=
  let u := usesOf i
  if slotIllegal s s.lidF i then .next (s.raise u.h u.len (illegalWord s))
  else s.byGate u (fun s =>
    let wid := s.wavesF.headD 0
    let core := s.focus.core
    let tag := tagW wid
    let lid := s.lidF
    if 4 ≤ (s.co core).mx.length then .next s.holdGroup
    else if (s.wv wid).lic != .hold then
      .next (s.raise u.h u.len { code := 0x19, mask := laneMask s.grp, words := [s.pcWord, BitVec.ofNat 32 (licCode (s.wv wid).lic),
        BitVec.ofNat 32 (arbCode (s.tp (pairOf core)).arb)] })
    else
      let fm := foreignMask s core tag (tilesNamed s lid i)
      if fm ≠ 0 then
        .next (s.raise u.h u.len { code := 0x18, mask := laneMask s.grp, words := s.pcWord :: BitVec.ofNat 32 fm ::
          ((List.range 8).filter (bitAt fm)).map (fun m => BitVec.ofNat 32 ((descOf s core m).owner % 2 ^ 16)) })
      else
        let ws := writeOpds s lid wid i
        match opdPlaces s (wid * 32) s.grp .read (readOpds s lid wid i), opdPlaces s (wid * 32) s.grp .write ws with
        | .error t, _ => .next (s.raise u.h u.len t)
        | _, .error t => .next (s.raise u.h u.len t)
        | .ok srcs, .ok outs =>
          match (srcs ++ outs).findSome? (fun p => s.waitOf p.1), srcs.findSome? (fun p => s.waitRead (wid * 32) p.1) with
          | some k, _ => .next (s.leave.modThreads s.grp (fun _ t => { t with park := k }))
          | _, some k => .next (s.leave.modThreads s.grp (fun _ t => { t with park := k }))
          | none, none =>
            if s.overHold [{ core := core, tid := wid * 32, pc := s.focus.pc, op := .store, pieces := outs }] then
              .next (s.raise u.h u.len { code := 0x2D, mask := laneMask s.grp })
            else if awaitsUnit s wid true (srcs.map (fun p => (p.1, p.2.1))) ||
                ((srcs ++ outs).any (fun p => s.onSo (wid * 32) 0 (BitVec.ofNat 64 p.2.2)) && s.grp.any s.soBusy) then .next s.holdGroup
            else
              let o := splitOuts ws outs
              .next (enqueue s i u wid srcs o.1 o.2))

def execMma (h : Hdr) (d : Tile) (a b c : Opnd) (slot : BitVec 3) (strides : Word) (s : State) : Out :=
  arrayExec (.mma h d a b c slot strides) s

def execMmaf (h : Hdr) (kind : BitVec 2) (d : Tile) (a b c : Opnd) (slot : BitVec 3) (s : State) : Out :=
  arrayExec (.mmaf h kind d a b c slot) s

def execMzero (h : Hdr) (d : Tile) (tid : Opnd) (s : State) : Out := arrayExec (.mzero h d tid) s

def execMld (h : Hdr) (d : Tile) (base tid c : Opnd) (slot : BitVec 3) (stride : Word) (s : State) : Out :=
  arrayExec (.mld h d base tid c slot stride) s

def execMst (h : Hdr) (t : Tile) (base c : Opnd) (slot : BitVec 3) (rm : BitVec 2) (inf : Bool) (stride : Word) (s : State) : Out :=
  arrayExec (.mst h t base c slot rm inf stride) s

def execMstAuto (h : Hdr) (t : Tile) (base c : Opnd) (slot : BitVec 3) (rm : BitVec 2) (inf : Bool) (stride : Word) (s : State) : Out :=
  arrayExec (.mstAuto h t base c slot rm inf stride) s

def execMcvt (h : Hdr) (d t : Tile) (slot : BitVec 3) (s : State) : Out := arrayExec (.mcvt h d t slot) s

def execMtrn (h : Hdr) (d t : Tile) (s : State) : Out := arrayExec (.mtrn h d t) s

def execMadd (h : Hdr) (d a b : Tile) (s : State) : Out := arrayExec (.madd h d a b) s

def execMaddI (h : Hdr) (d a b : Tile) (s : State) : Out := arrayExec (.maddI h d a b) s

def execMscl (h : Hdr) (d t : Tile) (f : CoefOp) (s : State) : Out := arrayExec (.mscl h d t f) s

def execMrow (h : Hdr) (d : Opnd) (t : Tile) (row : Opnd) (s : State) : Out := arrayExec (.mrow h d t row) s

/-! ## Records of the witness lane (R305, 12 R335, 13 R351) -/

/-- A record of a wave that hardware makes; it is held as the wave's own records are (13 R354). -/
def hwRecord (s : State) (wid cls : Nat) (brk : Bool) (body : List Word) (d : TileDesc) : State :=
  let lid := (s.tm (tagW wid)).lid
  let r : WRec :=
    { cls := cls, count := body.length, brk := brk, lid := lid, team := (s.tm (tagW wid)).index, widx := widxW wid
      seq := (s.wv wid).seq, epoch := (s.la lid).sealPoints + 1, body := body, prods := d.prods, src := d.src }
  s.modWave wid (fun w => { w with held := w.held ++ [sealRec r], seq := w.seq + 1 })

/-- Body words of a matrix-product record (13 Table 13.4). -/
def productBody (s : State) (lid slot rm : Nat) (inf nf : Bool) (d : TileDesc) (e : MxEntry) (γ : FV) : List Word :=
  fp64Words 0 d.alpha ++ fp64Words 2 d.beta ++ fp64Words 0 γ ++ [addrLo e.base, addrHi e.base, d.tid,
    BitVec.ofNat 32 (d.groups % 2 ^ 16 * 2 ^ 16 + e.stride / 32 % 2 ^ 16),
    BitVec.ofNat 32 (slot * 2 ^ 29 + d.init.toNat * 2 ^ 28 + rm * 2 ^ 26 + nf.toNat * 2 ^ 25 + inf.toNat * 2 ^ 24 + d.cfmt * 2 ^ 20)] ++
  (if (slotF s lid slot).scale = 1 then [addrLo e.scale, addrHi e.scale] else [])

/-- Body words of an iteration record. -/
def iterBody (d : TileDesc) (e : MxEntry) : List Word :=
  let isPoly := d.chain == 3
  let src := if d.chain = 3 || d.chain = 6 || d.chain = 7 then d.srcBase else 0
  [addrLo e.base, addrHi e.base, addrLo src, addrHi src, d.c15, BitVec.ofNat 32 (if isPoly then d.polyN else 0),
   BitVec.ofNat 32 (d.iterSlot * 2 ^ 29 + (d.chain - 3) * 2 ^ 26 + d.wide.toNat * 2 ^ 25), d.tid,
   BitVec.ofNat 32 (e.stride / 32 % 2 ^ 27),
   if src = 0 then 0 else BitVec.ofNat 32 (d.srcSlot * 2 ^ 29 + d.srcStride / 32 % 2 ^ 27)] ++
  (if isPoly then d.coefs.take (d.polyN + 1) else [])

/-! ## What an array phase does (R297, R317-R321) -/

/-- The stored patterns of an `MST`, row by row, and the exponents of its blocks. -/
structure Stored where
  els : List (List Nat)
  exps : List (List Int)

def storedOf (f : FSlot) (auto : Bool) (rm : RM) (inf : Bool) (t : Array Word) (mem : Array Byte) : Stored :=
  let nb := 64 / f.block
  let exps := (List.range 64).map (fun i =>
    if auto then autoScales f t i
    else (List.range nb).map (fun b => if f.scale = 1 then sbyte (byteAtK mem (i * nb + b)) else 0))
  { exps := exps
    els := (List.range 64).map (fun i => (List.range 64).map (fun j =>
      storeElem f rm inf ((exps.getD i []).getD (j / f.block) 0) (tel t i j))) }

/-- Open the versions that an `MST` writes, if nothing makes it wait. -/
def openOuts (s : State) (tid : Nat) (ps : List (Loc × Nat × Nat)) : Stg :=
  match ps.findSome? (fun p => s.waitOf p.1) with
  | some k => .park k
  | none => s.openPieces tid (ps.filter (fun p => !isFar s p.1))

/-- An entry's store of bytes at pieces in their order. -/
def storeOuts (s : State) (e : MxEntry) (ps : List (Loc × Nat × Nat)) (bs : List Byte) : State :=
  (splitBytes ps bs).foldl (fun s q =>
    (s.writePiece e.tid 0 q.1.1 q.2 q.1.2.2 e.so (some (e.pc, e.stamp))).addRecord e.tid q.1.2.2 (Nat.log2 q.2.length) q.2) s

/-- R319 with R305: an `MST` stores its tile and the witness lane records it. -/
def mstEffect (s : State) (core : Nat) (e : MxEntry) (m slot rm : Nat) (inf auto : Bool) : Option State :=
  let lid := s.lidOf e.tid
  let f := slotF s lid slot
  match openOuts s e.tid (e.outs ++ e.scales) with
  | .park _ => none
  | .exhausted page => some (s.exhaust lid page)
  | .ok s1 =>
    let t := tileArr s core m
    let x := storedOf f auto rm inf t ((e.mem.getD []).toArray)
    let s2 := if auto then storeOuts s1 e e.scales (x.exps.flatMap (fun r => r.map (fun k => BitVec.ofInt 8 k))) else s1
    let s3 := storeOuts s2 e e.outs (x.els.flatMap (fun r => r.flatMap (fun v => leBytes (fmtBytes f.fmt) v)))
    let d := descOf s core m
    let staged := e.outs.any (fun p => match p.1 with | .stg _ _ => true | _ => false)
    let cls := (s.la lid).wclass
    if !staged then some s3
    else if cls = 1 then
      let nf := x.els.any (fun r => r.any (atLimit f.fmt))
      let z := Config.signZ lid d.tid
      let w := Config.signW lid d.tid
      let γ := alphaOf w z (fun i j => elemValue f ((x.els.getD i []).getD j 0) ((x.exps.getD i []).getD (j / f.block) 0))
      some (hwRecord s3 e.wid 1 (d.chain != chProduct || decide (65535 < d.groups)) (productBody s lid slot rm inf nf d e γ) d)
    else if cls = 2 then
      if d.second && decide (3 ≤ d.chain) then some s3
      else
        let brk := !decide (3 ≤ d.chain) || f.fmt != 0 || f.scale != 0 || (d.wide && decide (e.stride < 512))
        some (hwRecord s3 e.wid 2 brk (iterBody d e) d)
    else some s3

/-- The load that a tile holds as it stands. -/
def tileSrc (s : State) (core m : Nat) : Option TileSrc := if loadedTile (descOf s core m) then (descOf s core m).src else none
/-- A fed-back operand, where its tiles hold loads: one, or two for an inner dimension of 128. -/
def fedSrc (s : State) (core fmt m : Nat) : Option OpdSrc :=
  (tileSrc s core m).bind (fun x =>
    if kOf fmt = 64 then some (.fed x none) else (tileSrc s core (m + 1)).map (fun y => .fed x (some y)))
/-- The operands of an entry's product, where both can be read again (13 R359). -/
def prodSrc (s : State) (core fmt : Nat) (e : MxEntry) : Option ProdSrc :=
  let m := e.loads.head?.map OpdSrc.mem
  let both (a b : Option OpdSrc) : Option ProdSrc := a.bind (fun a => b.map (fun b => ⟨fmt, a, b⟩))
  match e.op with
  | .mma _ _ _ _ _ _ _ => both m (e.loads[1]?.map OpdSrc.mem)
  | .mmaf _ kind _ a b _ _ =>
    both (if kind = 1 then m else fedSrc s core fmt (regNum a)) (if kind = 0 then m else fedSrc s core fmt (regNum b))
  | _ => none

/-- A product joins the chain of a tile (R304), with what the checker may read again of it (13 R359). -/
def addProduct (lid fmt : Nat) (a b : Mat) (p : Option ProdSrc) (d : TileDesc) : TileDesc :=
  if d.chain != chProduct || (d.cfmt != 0 && (d.cfmt == 4) != (fmt == 4)) then { d with chain := chBroken }
  else
    let w := Config.signW lid d.tid
    let z := Config.signZ lid d.tid
    { d with
      cfmt := if d.cfmt = 0 then fmt else d.cfmt
      groups := d.groups + (if fmt = 4 then 1 else 4)
      alpha := addExact d.alpha (alphaProd w z a b)
      beta := addExact d.beta (betaProd a b)
      prods := d.prods.bind (fun ps => p.map (fun x => ps ++ [x])) }

/-- D += A·B with its overflow and its chain (R317). -/
def mmaEffect (s : State) (core : Nat) (e : MxEntry) (m fmt : Nat) (a b : Mat) : State :=
  let lid := (s.tm (tagW e.wid)).lid
  let p := prodSrc s core fmt e
  let r := mmaTile fmt a b (tileArr s core m)
  let s1 := putTile s core m r.1
  let s2 := if r.2 then s1.setInterval (tagW e.wid) bIovf else s1
  modDesc s2 core m (addProduct lid fmt a b p)

/-- A transformed tile: its chain is broken (R320). -/
def transform (s : State) (core d : Nat) (t : Array Word) : State :=
  modDesc (putTile s core d t) core d (fun x => { x with chain := chBroken })

/-- The tiles an instruction writes. -/
def tilesWritten : Instr → List Nat
  | .mma _ d _ _ _ _ _ => [d.toNat]
  | .mmaf _ _ d _ _ _ _ => [d.toNat]
  | .mzero _ d _ => [d.toNat]
  | .mld _ d _ _ _ _ _ => [d.toNat]
  | .mcvt _ d _ _ => [d.toNat]
  | .mtrn _ d _ => [d.toNat]
  | .madd _ d _ _ => [d.toNat]
  | .maddI _ d _ _ => [d.toNat]
  | .mscl _ d _ _ => [d.toNat]
  | .mres _ kind _ x w _ wide =>
    let t := iterTiles kind.toNat x.toNat w.toNat wide
    t.work.filter (fun m => decide (m ≤ t.res))
  | _ => []

/-- A pending result gets its value. -/
def fillEntry (s : State) (core : Nat) (e : MxEntry) (ws : List Word) : State :=
  match e.vres with
  | some id => s.fillVar core id ws
  | none => s

/-- What `MRES` computes (12 R336): the initial phase, its residual in the destination. -/
def mresEffect (s : State) (core : Nat) (e : MxEntry) (kind fmt x w : Nat) (wide : Bool) : State :=
  let t := iterTiles kind x w wide
  let ts := iterInit kind fmt t.x w (((t.x ++ [w]).map (fun m => (m, tileArr s core m))))
  let ms := t.work.filter (fun m => decide (m ≤ t.res))
  fillEntry (ms.foldl (fun s m => transform s core m (ts.at m)) s) core e [resid (ts.at t.res)]

/-- The effect of an entry's array phase; `none` while an `MST` waits for a frame, a version or a line. -/
def phaseEffect (s0 : State) (core : Nat) (e : MxEntry) : Option State :=
  let tag := tagW e.wid
  let lid := s0.lidOf e.tid
  let s := clearSusp s0 tag (tilesWritten e.op)
  let bs := (e.mem.getD []).toArray
  let v0 := e.vals.headD 0
  match e.op with
  | .mma _ d _ _ _ slot _ =>
    let f := slotF s lid slot.toNat
    let nb := kOf f.fmt / f.block
    some (mmaEffect s core e d.toNat f.fmt (memOperand f bs 0 16384) (memOperand f bs 8192 (16384 + 64 * nb)))
  | .mmaf _ kind d a b _ slot =>
    let f := slotF s lid slot.toNat
    let t (o : Opnd) (k : Nat) : Array Word := tileArr s core (regNum o + k)
    let ma := if kind = 1 then memOperand f bs 0 8192 else fedA f.fmt (t a 0) (t a 1)
    let mb := if kind = 0 then memOperand f bs 0 8192 else fedB f.fmt (t b 0) (t b 1)
    some (mmaEffect s core e d.toNat f.fmt ma mb)
  | .mzero _ d _ => some (modDesc (putTile s core d.toNat #[]) core d.toNat (fun x => freshDesc x v0))
  | .mld _ d _ _ _ slot _ =>
    let f := slotF s lid slot.toNat
    let t := loadTile f bs
    let c := telVal (decide (4 ≤ f.fmt)) t
    some (modDesc (putTile s core d.toNat t) core d.toNat (fun x => { freshDesc x v0 with
      init := true, src := e.loads.head?, srcBase := e.base, srcSlot := slot.toNat, srcStride := e.stride
      alpha := alphaOf (Config.signW lid v0) (Config.signZ lid v0) c, beta := betaOf c }))
  | .mst _ t _ _ slot rm inf _ => mstEffect s core e t.toNat slot.toNat rm.toNat inf false
  | .mstAuto _ t _ _ slot rm inf _ => mstEffect s core e t.toNat slot.toNat rm.toNat inf true
  | .mcvt _ d t slot =>
    let x := tileArr s core t.toNat
    some (transform s core d.toNat (tileOf (fun i j => cvtElem (slotF s lid slot.toNat).fmt (tel x i j))))
  | .mtrn _ d t =>
    let x := tileArr s core t.toNat
    some (transform s core d.toNat (tileOf (fun i j => tel x j i)))
  | .madd _ d a b =>
    let x := tileArr s core a.toNat
    let y := tileArr s core b.toNat
    some (transform s core d.toNat (tileOf (fun i j => addElem (tel x i j) (tel y i j))))
  | .maddI _ d a b =>
    let x := tileArr s core a.toNat
    let y := tileArr s core b.toNat
    let r := tileOfMark (fun i j => addElemI (tel x i j) (tel y i j))
    let s1 := if r.2 then s.setInterval tag bIovf else s
    some (transform s1 core d.toNat r.1)
  | .mscl _ d t _ =>
    let x := tileArr s core t.toNat
    some (transform s core d.toNat (tileOf (fun i j => sclElem (tel x i j) v0)))
  | .mrow _ _ t _ =>
    let x := tileArr s core t.toNat
    let r := v0.toNat % 64
    some (fillEntry s core e ((List.range 32).flatMap (fun l => [tel x r (2 * l), tel x r (2 * l + 1)])))
  | .mres _ kind _ x w slot wide => some (mresEffect s core e kind.toNat (slotF s lid slot.toNat).fmt x.toNat w.toNat wide)
  | .mcoef _ n _ _ cnt => some (s.modTeam tag (fun t => { t with
      coefs := (List.range cnt.toNat).foldl (fun c k => c.set (n.toNat + k) (BitVec.ofNat 32 (elAt bs (4 * k) 4))) t.coefs }))
  | .mcoefS _ n _ => some (s.modTeam tag (fun t => { t with coefs := t.coefs.set n.toNat v0 }))
  | .mls _ _ => some (fillEntry s core e ((List.range 4).map (fun k => ((s.tm tag).loop >>> (32 * k)).setWidth 32)))
  | .mlsw _ _ =>
    let b : BitVec 128 := BitVec.ofNat 128 (wordsNat e.vals)
    some (s.modTeam tag (fun t => { t with loop := loopWritten b, loopWave := some e.wid }))
  | _ => some s

/-! ## The unit's queue (R295, R296) -/

/-- An entry has left the queue: its pins go, saved entries re-enter, teams that waited for it move. -/
def unitFreed (s : State) (core id : Nat) (at_ : Nat) : State :=
  let s1 := (s.dropEntries core (fun e => e.id == id)).modCore core (fun c => { c with mxFree := max c.mxFree at_ })
  let s2 := (s1.reenter 4 core).settleMoves
  (s2.co core).mx.foldl (fun s e => if e.lines.all e.pins.contains || s.msys.pinq.any (fun q => q.2.1 == core && q.2.2 == e.id) then s
    else requestPins 257 s core e.id) s2

/-- Fetch an entry's operands again after its re-entry (R308), once nothing makes it wait, and request its pins again. -/
def refetch (s : State) (core : Nat) (e : MxEntry) : State :=
  if e.mem.isSome || (e.srcs.findSome? (fun p => s.waitOf p.1)).isSome || (e.srcs.findSome? (fun p => s.waitRead e.tid p.1)).isSome then s
  else
    let f := fetchAll s core e.tid e.srcs
    requestPins 257 (modEntry f.1 core e.id (fun x => { x with mem := some f.2 })) core e.id

/-- The first entry of a queue can start: the array is free, its operands are fetched and pinned. -/
def canStart (s : State) (core : Nat) (e : MxEntry) : Bool :=
  e.started.isNone && e.mem.isSome && decide ((s.co core).mxFree ≤ s.clkOf core) && e.lines.all e.pins.contains

/-- The phase that runs has ended, and so has 12 clk after issue for `MROW` (Table 11.1). -/
def phaseOver (s : State) (core : Nat) (e : MxEntry) : Bool :=
  match e.started with
  | some t => decide (t + e.lenClk ≤ s.clkOf core)
  | none => false

def execArrayPhaseEnd (core : Nat) (s : State) : Out :=
  match (s.co core).mx.head? with
  | none => .next s
  | some e =>
    if isIter e.op || !phaseOver s core e then .next s
    else match phaseEffect s core e with
      | none => .next s
      | some s1 =>
        let s2 := match e.op, e.vres with
          | .mrow _ _ _ _, some id => { s1 with vres := s1.vres.map (fun r =>
              if r.core == core && r.id == id then { r with after := e.issued + 12 } else r) }
          | _, _ => s1
        .next (unitFreed s2 core e.id (s.clkOf core))

/-- A slice grants the request at the head of its list, when it fits, and the fetch goes on to its next slice (08 R198). -/
def execPinGrant (slice : Nat) (s : State) : Out :=
  match s.msys.pinq.find? (fun q => q.1 == slice) with
  | none => .next s
  | some q =>
    match (s.co q.2.1).mx.find? (fun e => e.id == q.2.2) with
    | none => .next { s with msys := { s.msys with pinq := s.msys.pinq.erase q } }
    | some e =>
      if pinFits s slice (wantIn s e slice) then
        let s1 := modEntry { s with msys := { s.msys with pinq := s.msys.pinq.erase q } } q.2.1 e.id
          (fun x => { x with pins := x.pins ++ wantIn s e slice })
        .next (requestPins 257 s1 q.2.1 e.id)
      else .next s

/-! ## Licence instructions and events (R307, R308, R322, R323) -/

/-- Array entries of a wave at work or saved. -/
def hasEntries (s : State) (wid : Nat) : Bool :=
  (s.co (s.wv wid).core).mx.any (fun e => e.wid == wid) || !(s.wv wid).saved.isEmpty

/-- A collective instruction that acts once for its wave when a lane executes, and does nothing otherwise. -/
def onceExec (u : Uses) (go : State → Nat → Out) (s : State) : Out :=
  s.byGate u (fun s => match s.wavesX u.h with
    | [] => .next ((s.issued u).advance u.h u.len)
    | w :: _ => go s w)

/-- R322: the wave is held until its matrix instructions have completed. -/
def execMsync (h : Hdr) (s : State) : Out :=
  let u := usesOf (.msync h)
  onceExec u (fun s w => if hasEntries s w then .next s.holdGroup else .next ((s.issued u).advance h u.len)) s

/-- The wave waits for the licence. -/
def parkLic (s : State) : State := s.modThreads s.grp (fun _ t => { t with park := .licence })

/-- `MLIC.acq`: a wave that is not granted at once parks in WAIT. -/
def execMlicAcq (h : Hdr) (s : State) : Out :=
  let u := usesOf (.mlicAcq h)
  onceExec u (fun s w =>
    let s1 := (s.issued u).advance h u.len
    if (s.wv w).lic = .hold then .next s1 else .next ((parkLic s1).licRequest w)) s

/-- `MLIC.try`: granted in HOLD or at once; on a FREE pair, also in the clk in which the other side wakes it, it waits through the
WAKE; else `pD` := 0. -/
def execMlicTry (h : Hdr) (pd : Pred) (s : State) : Out :=
  let u := usesOf (.mlicTry h pd)
  onceExec u (fun s w =>
    let xs := s.xsW h w
    let s1 := (s.issued u).advance h u.len
    let write (s : State) (b : Word) : State := if pd = 0 then s else s.sched 2 (xs.map (fun t => (Tgt.p t pd.toNat, b)))
    let p := pairOf s.focus.core
    if (s.wv w).lic = .hold then .next (write s1 1)
    else
      let wait := ((parkLic s1).modWave w (fun x => { x with licPd := some (pd.toNat, xs) })).licRequest w
      match (s.tp p).arb with
      | .free => .next wait
      | .held x =>
        if x == isUpper s.focus.core && !s.sideWaits p (!x) then .next (write (s1.licRequest w) 1) else .next (write s1 0)
      | _ => if s.wokeNow s.focus.core then .next wait else .next (write s1 0)) s

/-- `MLIC.rel` and `.give`: the wave leaves HOLD once its matrix instructions have completed. -/
def relExec (u : Uses) (give : Bool) (s : State) : Out :=
  onceExec u (fun s w =>
    if (s.wv w).lic != .hold then .next ((s.issued u).advance u.h u.len)
    else if hasEntries s w then .next s.holdGroup
    else .next (((s.issued u).advance u.h u.len).licEnd w give)) s

def execMlicRel (h : Hdr) (s : State) : Out := relExec (usesOf (.mlicRel h)) false s

def execMlicGive (h : Hdr) (s : State) : Out := relExec (usesOf (.mlicGive h)) true s

/-- WAKE(X) lasts 64 clk; then every WAIT wave of X becomes HOLD, in the order of their requests. Of a side that the pair is steered
away from that grant is revoked at once while the other side waits (17 R456). -/
def execLicenceWakeEnd (pair : Nat) (s : State) : Out :=
  match (s.tp pair).arb with
  | .wake x t =>
    let c := sideCore pair x
    if s.clkOf c < t + 64 then .next s
    else
      let s1 := s.modPair pair (fun y => { y with arb := .held x })
      let s2 := (s1.licWaves c .wait).foldl licHold s1
      if (s.tp pair).steered == some (!x) && s.sideWaits pair (!x) then .next ((s2.revokeSide c).settleHold c false)
      else .next ((s2.reenter 4 c).settleHold c false)
  | _ => .next s

/-- DRAIN(X) ends once X's unit has finished its entries. -/
def execLicenceDrainEnd (pair : Nat) (s : State) : Out :=
  match (s.tp pair).arb with
  | .drain x =>
    let c := sideCore pair x
    if !(s.co c).mx.isEmpty || decide (s.clkOf c < (s.co c).mxFree) then .next s
    else
      let mine := s.sideWaits pair x
      let other := s.sideWaits pair (!x)
      .next (if other && (s.tp pair).byGive then s.startWake pair (!x)
        else if mine && other then s.startWake pair (s.chosenSide pair)
        else if mine then s.startWake pair x
        else if other then s.startWake pair (!x)
        else s.modPair pair (fun y => { y with arb := .free }))
  | _ => .next s

/-! ## The twin window (R311-R313, R324, R325) -/

def execTwin (h : Hdr) (slot : SlotOp) (b : BitVec 8) (s : State) : Out :=
  let u := usesOf (.twin h slot b)
  onceExec u (fun s w =>
    let k := match slot with
      | .lit n => n.toNat
      | .reg n => (s.sreg w n.toNat).toNat % 32
    let found := match (s.co (twinOf s.focus.core)).slots.find? k with
      | some t => if (s.tm (tagW t)).lid = s.lidF then some t else none
      | none => none
    match found with
    | none => .next (s.raise h u.len { code := 0x1A, sub := 1, mask := laneMask (s.xsW h w), words := s.twinWords w k 1 })
    | some t =>
      let m : TwinMap :=
        { lid := s.lidF, team := (s.tm (tagW t)).index, widx := widxW t, tag := tagW t, base := b.toNat }
      .next (((s.issued u).advance h u.len).modWave w (fun x => { x with twinNext := some (s.now + 2, m) }))) s

def execTwinOff (h : Hdr) (s : State) : Out :=
  let u := usesOf (.twinOff h)
  onceExec u (fun s w => .next (((s.issued u).advance h u.len).modWave w (fun x => { x with twin := none, twinNext := none }))) s

/-- Both values are read at issue and both writes commit at issue + 2. -/
def execTxch (h : Hdr) (d : BitVec 8) (y : BitVec 5) (pat : Pat) (s : State) : Out :=
  let u := usesOf (.txch h d y pat)
  s.byGate u (fun s =>
    let xs := s.xs h
    let ws := xs.flatMap (fun t =>
      let src := State.lanesrc t pat
      (Tgt.v t d.toNat, s.opnd [] src (.y y)) ::
        (match s.twinReg src y.toNat with
         | some (t', n) => [(Tgt.v t' n, s.vreg t d.toNat)]
         | none => []))
    .next (((s.issued u).sched u.latency ws).advance h u.len))

end Sys2Proof.Machine
end

