-- ==== Sys2Proof/Machine/Iterate.lean ====
section
/-!
DEFINITION. Sys2Proof/Machine/Iterate.lean: polynomial and iteration instructions (12): the run of `MITER` and `MPOLY` step
by step, their suspension, and the small entries.
-/

namespace Sys2Proof.Machine

open Sys2Proof State

def execMpoly (h : Hdr) (d x : Tile) (n : BitVec 4) (slot : BitVec 3) (s : State) : Out := arrayExec (.mpoly h d x n slot) s

def execMiter (h : Hdr) (kind : BitVec 2) (x w : Tile) (limit : LimOp) (pd : Pred) (slot : BitVec 3) (wide pf : Bool) (s : State) : Out :=
  arrayExec (.miter h kind x w limit pd slot wide pf) s

def execMres (h : Hdr) (kind : BitVec 2) (d : Opnd) (x w : Tile) (slot : BitVec 3) (wide : Bool) (s : State) : Out :=
  arrayExec (.mres h kind d x w slot wide) s

def execMcoef (h : Hdr) (n : BitVec 4) (base : Opnd) (off : Word) (cnt : BitVec 5) (s : State) : Out :=
  arrayExec (.mcoef h n base off cnt) s

def execMcoefS (h : Hdr) (n : BitVec 4) (a : Opnd) (s : State) : Out := arrayExec (.mcoefS h n a) s

def execMls (h : Hdr) (d : Opnd) (s : State) : Out := arrayExec (.mls h d) s

def execMlsw (h : Hdr) (a : Opnd) (s : State) : Out := arrayExec (.mlsw h a) s

/-! ## The run of an iteration entry (R331-R334) -/

/-- What an iteration entry works on. -/
structure IterJob where
  kind : Nat          -- 4 for `MPOLY`
  x : Nat
  w : Nat             -- of `MPOLY`, the destination
  wide : Bool
  slot : Nat
  limit : Nat
  pd : Nat
  pf : Bool
  deriving DecidableEq, Repr

def jobOf (e : MxEntry) : Option IterJob :=
  match e.op with
  | .mpoly _ d x n slot => some ⟨4, x.toNat, d.toNat, false, slot.toNat, n.toNat, 0, true⟩
  | .miter _ kind x w _ pd slot wide pf =>
    some ⟨kind.toNat, x.toNat, w.toNat, wide, slot.toNat, (e.vals.headD 0).toNat % 4096, pd.toNat, pf⟩
  | _ => none

def loopOf (s : State) (wid : Nat) : Loop := Loop.ofBits (s.tm (tagW wid)).loop
def setLoop (s : State) (wid : Nat) (l : Loop) : State :=
  s.modTeam (tagW wid) (fun t => { t with loop := l.bits, loopWave := some wid })

/-- The SUSPENDED state matches an instruction of a wave (R334). -/
def resumes (s : State) (wid : Nat) (j : IterJob) : Bool :=
  let l := loopOf s wid
  l.phase == 2 && (s.tm (tagW wid)).loopWave == some wid && l.kind == j.kind && l.wide == j.wide && l.xt == j.x &&
  l.wt == j.w && l.fslot == j.slot && (j.kind != 4 || l.limit == j.limit)

def stepClk (fmt : Nat) (j : IterJob) : Nat := if j.kind = 4 then 288 else iterStepClk j.kind fmt j.wide

/-- Phase codes of Table 12.1. -/
def phRun : Nat := 1
def phSuspended : Nat := 2
def phPassed : Nat := 3
def phCapped : Nat := 4
def phDiverged : Nat := 5

/-- A tile's chain becomes a code of Table 12.5, with what the witness lane keeps. -/
def keepIter (s : State) (wid : Nat) (j : IterJob) (code : Nat) (src : TileDesc) (second : Bool) (d : TileDesc) : TileDesc :=
  let c := (s.tm (tagW wid)).coefs
  { d with
    chain := code, iterSlot := j.slot, wide := j.wide, c15 := c.getD 15 0, second := second
    src := if code = 4 || code = 5 then none else src.src
    srcBase := if code = 4 || code = 5 then 0 else src.srcBase
    srcSlot := src.srcSlot, srcStride := src.srcStride, polyN := j.limit
    coefs := if code = 3 then (s.tm (tagW wid)).polyRead else c }

/-- The chains after an iteration ends: those of X, and of the working tiles (R331 finish 3 and 4, R333, R335). -/
def iterChains (s : State) (core wid : Nat) (j : IterJob) (phase : Nat) : State :=
  let broken (s : State) (m : Nat) : State := modDesc s core m (fun d => { d with chain := chBroken })
  if j.kind = 4 then
    let x := descOf s core j.x
    if loadedTile x then modDesc s core j.w (keepIter s wid j 3 x false) else broken s j.w
  else
    let t := iterTiles j.kind j.x j.w j.wide
    let a := descOf s core j.w
    let ok := phase == phPassed && (decide (j.kind ≤ 1) || loadedTile a)
    let s1 := t.x.foldl (fun s m => if ok then modDesc s core m (keepIter s wid j (j.kind + 4) a (m != j.x)) else broken s m) s
    t.work.foldl broken s1

/-- The wave leaves its iteration instruction: it goes on behind it at a clk, or stands at it still. -/
def leaveIter (s : State) (e : MxEntry) (behind : Bool) (at_ : Nat) : State :=
  s.modThreads (tidsOf e.wid) (fun _ t => if t.park = .iter then
      (if behind then { t with park := .none, pc := (t.pc + e.len) % 2 ^ 52, readyAt := max t.readyAt at_, inTable := false }
       else { t with park := .none, readyAt := max t.readyAt at_ })
    else t)

/-- `finish` of R331 at the clk at which the last step ended; `prev` is the residual before. -/
def iterFinish (s : State) (core : Nat) (e : MxEntry) (j : IterJob) (phase : Nat) (prev : Word) (now : Nat) : State :=
  let l := loopOf s e.wid
  let t := iterTiles j.kind j.x j.w j.wide
  let swap := j.kind != 4 && l.sel
  let s1 := setLoop s e.wid { l with phase := phase }
  let s2 := if swap then (t.x.zip t.xp).foldl (fun s p => putTile s core p.1 (tileArr s core p.2)) s1 else s1
  let at_ := now + (if swap then 64 * t.x.length else 0)
  let s3 := unitFreed (iterChains s2 core e.wid j phase) core e.id at_
  if phase = phDiverged && !j.pf then
    let s4 := leaveIter s3 e false at_
    let ti : TrapInfo := {
      code := 0x1B, mask := laneMask (s4.liveTids e.wid), info := l.resid
      words := [BitVec.ofNat 32 j.kind, BitVec.ofNat 32 l.count, prev] }
    s4.takeTrap (s4.liveTids e.wid) ti e.pc ((e.pc + e.len) % 2 ^ 52) (at_ + 4) none
  else
    let s4 := if j.kind = 4 then s3
      else (tidsOf e.wid).foldl (fun s t => s.setPred t (BitVec.ofNat 4 j.pd) (phase == phPassed)) s3
    leaveIter s4 e true at_

/-- The entry is suspended at the end of its step: its wave's licence has been revoked since it started, or the wave is to take a
fault (R334). -/
def mustSuspend (s : State) (e : MxEntry) : Bool :=
  e.stop || (s.wv e.wid).lic != .hold || (tidsOf e.wid).any (fun t => !(s.th t).faults.isEmpty || (s.th t).pendTrap.isSome)

/-- The next step of an entry starts, or the loop ends at its cap. -/
def iterNext (s : State) (core : Nat) (e : MxEntry) (j : IterJob) (fmt now : Nat) : State :=
  let l := loopOf s e.wid
  if l.limit ≤ l.count then iterFinish s core e j (if j.kind = 4 then phPassed else phCapped) l.resid now
  else modEntry s core e.id (fun x => { x with started := some now, lenClk := stepClk fmt j, ran := true })

/-- After a step: end, suspend, or go on. Under a debugger's step the loop suspends after one (14 R404). -/
def iterAfter (s : State) (core : Nat) (e : MxEntry) (j : IterJob) (fmt now : Nat) : State :=
  let l := loopOf s e.wid
  if l.limit ≤ l.count then iterNext s core e j fmt now
  else if mustSuspend s e || (e.ran && (s.stepping core).isSome) then
    leaveIter (unitFreed (setLoop s e.wid { l with phase := phSuspended }) core e.id now) e false now
  else iterNext s core e j fmt now

/-- The array phase of an iteration entry starts: resumption, or a fresh start (R331, R333). -/
def iterStart (s : State) (core : Nat) (e : MxEntry) (j : IterJob) : State :=
  let now := s.clkOf core
  let fmt := (slotF s (s.lidOf e.tid) j.slot).fmt
  let l := loopOf s e.wid
  if resumes s e.wid j then iterNext (setLoop s e.wid { l with limit := j.limit, phase := phRun }) core e j fmt now
  else
    let l1 : Loop :=
      { resid := if j.kind = 4 then 0 else l.resid, count := 0, limit := j.limit, phase := phRun, kind := j.kind, wide := j.wide
        grow := false, sel := false, xt := j.x, wt := j.w, fslot := j.slot, widx := widxW e.wid }
    modEntry (setLoop s e.wid l1) core e.id (fun x => { x with started := some now, ran := false })

/-- The step of `MPOLY` that ends: the initial load, or a Horner step. -/
def polyRun (s : State) (core : Nat) (e : MxEntry) (j : IterJob) (fmt now : Nat) : State :=
  let c := (s.tm (tagW e.wid)).coefs
  let l := loopOf s e.wid
  let read (s : State) (k : Nat) : State := s.modTeam (tagW e.wid) (fun t => { t with polyRead := t.polyRead.set k (c.getD k 0) })
  if !e.ran then iterAfter (read (putTile s core j.w (polyInit (c.getD j.limit 0))) j.limit) core e j fmt now
  else
    let step := l.count + 1
    let y := polyStep fmt (c.getD (j.limit - step) 0) (tileArr s core j.w) (tileArr s core j.x)
    iterAfter (setLoop (read (putTile s core j.w y) (j.limit - step)) e.wid { l with count := step }) core e j fmt now

/-- The step of `MITER` that ends, with the tests of R331. -/
def miterRun (s : State) (core : Nat) (e : MxEntry) (j : IterJob) (fmt now : Nat) : State :=
  let c := (s.tm (tagW e.wid)).coefs
  let l := loopOf s e.wid
  let t := iterTiles j.kind j.x j.w j.wide
  let all : TileSet := (t.x ++ (j.w :: t.work)).dedup.map (fun m => (m, tileArr s core m))
  let cur := if l.sel then t.xp else t.x
  let nxt := if l.sel then t.x else t.xp
  let ts := if e.ran then iterStep j.kind fmt c cur nxt j.w all else iterInit j.kind fmt t.x j.w all
  let written := (if e.ran then nxt else []) ++ t.work.filter (fun m => !t.xp.contains m)
  let s1 := written.foldl (fun s m => putTile s core m (ts.at m)) s
  let r := resid (ts.at t.res)
  let prev := l.resid
  let l1 := if e.ran then { l with count := l.count + 1, sel := !l.sel, resid := r } else { l with resid := r }
  if notFinite r then iterFinish (setLoop s1 e.wid l1) core e j phDiverged prev now
  else if leF r (c.getD 15 0) then iterFinish (setLoop s1 e.wid l1) core e j phPassed prev now
  else if !e.ran then iterAfter (setLoop s1 e.wid l1) core e j fmt now
  else
    let g := grew r (c.getD 14 0) prev
    if g && l.grow then iterFinish (setLoop s1 e.wid l1) core e j phDiverged prev now
    else iterAfter (setLoop s1 e.wid { l1 with grow := g }) core e j fmt now

/-- One step of the running `MITER` or `MPOLY` ends. -/
def execIterationStepEnd (core : Nat) (s : State) : Out :=
  match (s.co core).mx.head? with
  | none => .next s
  | some e =>
    match jobOf e with
    | none => .next s
    | some j =>
      if !phaseOver s core e then .next s
      else
        let now := (e.started.getD 0) + e.lenClk
        let fmt := (slotF s (s.lidOf e.tid) j.slot).fmt
        .next (if j.kind = 4 then polyRun s core e j fmt now else miterRun s core e j fmt now)

/-- The head of a matrix queue starts its array phase (11 R295), its operands fetched and pinned. -/
def execArrayPhaseStart (core : Nat) (s0 : State) : Out :=
  let s := (s0.co core).mx.foldl (fun s e => refetch s core e) s0
  match (s.co core).mx.head? with
  | none => .next s
  | some e =>
    if !canStart s core e then .next s
    else match jobOf e with
      | some j => .next (iterStart s core e j)
      | none => .next (modEntry s core e.id (fun x => { x with started := some (s.clkOf core) }))

end Sys2Proof.Machine
end

