-- ==== Sys2Proof/Machine/Witness.lean ====
section
/-!
DEFINITION. Sys2Proof/Machine/Witness.lean: the witness, staging and release instructions (13 R368-R375).
-/

namespace Sys2Proof.Machine

open Sys2Proof State

/-! ## Records (R369) -/

/-- An instruction that acts once for each wave with an executing lane (R368). -/
def eachWave (u : Uses) (go : State → Nat → State) (s : State) : Out :=
  s.byGate u (fun s => .next ((s.wavesX u.h).foldl go ((s.issued u).advance u.h u.len)))

/-- Open a record of a wave; one that is open already ends malformed (R353). -/
def openRecord (s : State) (wid cls count : Nat) : State :=
  let s1 := if (s.wv wid).openRec.isSome then s.endRec wid true else s
  let t := s1.tm (tagW wid)
  let r : WRec :=
    { cls := cls, count := count, mal := count == 0, lid := t.lid, team := t.index, widx := widxW wid
      seq := (s1.wv wid).seq, epoch := (s1.la t.lid).sealPoints + 1 }
  s1.modWave wid (fun w => { w with openRec := some r, seq := w.seq + 1 })

def execWbegin (h : Hdr) (cls : BitVec 4) (cnt : LimOp) (s : State) : Out :=
  eachWave (usesOf (.wbegin h cls cnt)) (fun x w => openRecord x w cls.toNat (match cnt with
    | .lit n => n.toNat
    | .reg n => (s.sreg w n.toNat).toNat % 4096)) s

def execWemit (h : Hdr) (a : Src) (s : State) : Out :=
  eachWave (usesOf (.wemit h a)) (fun x w => x.pushWords w 6 (leader s h w) [s.rd [] (leader s h w) a]) s

/-- `WEND` ends the open record; with none open it sets WERR. -/
def endExec (x : State) (w : Nat) : State :=
  if (x.wv w).openRec.isSome then x.endRec w false else x.setInterval (tagW w) bWerr

def execWend (h : Hdr) (s : State) : Out := eachWave (usesOf (.wend h)) endExec s

/-- The receipt of `WEND.r`: MAL and SEQ of the record, or MAL with the next number when none is open. -/
def receipt (x : State) (w : Nat) : Word :=
  match (x.wv w).openRec with
  | some r => BitVec.ofNat 32 ((r.mal || r.body.length != r.count).toNat * 2 ^ 31 + r.seq % 2 ^ 27)
  | none => BitVec.ofNat 32 (2 ^ 31 + (x.wv w).seq % 2 ^ 27)

def execWendR (h : Hdr) (s : State) : Out :=
  let u := usesOf (.wendR h)
  s.byGate u (fun s =>
    if (s.wavesX h).any (fun w => !s.popRoom w 6 1) then .next s.holdGroup
    else .next ((s.wavesX h).foldl (fun x w => (endExec x w).deliver w 6 [receipt x w]) ((s.issued u).advance h u.len)))

/-! ## Digests (R370) -/

def mersenne61 : Nat := 2 ^ 61 - 1
/-- `Hash` step: H·z + v modulo p. -/
def hashStep (z acc : Nat) (v : Word) : Nat := (acc * z + v.toNat) % mersenne61

def execWdigAdd (h : Hdr) (a : Src) (s : State) : Out :=
  let u := usesOf (.wdigAdd h a)
  s.byGate u (fun s =>
    .next ((s.wavesX h).foldl (fun x w => x.modWave w (fun v => { v with
        hash := (s.xsW h w).foldl (fun acc t => hashStep (Config.scanPoint s.lidF) acc (s.rd [] t a)) v.hash }))
      ((s.issued u).advance h u.len)))

def execWdigEmit (h : Hdr) (s : State) : Out :=
  eachWave (usesOf (.wdigEmit h)) (fun x w =>
    let hv := (x.wv w).hash
    (x.emitWords w [BitVec.ofNat 32 hv, BitVec.ofNat 32 (hv / 2 ^ 32)]).modWave w (fun v => { v with hash := 0 })) s

def execWdigClr (h : Hdr) (s : State) : Out :=
  eachWave (usesOf (.wdigClr h)) (fun x w => x.modWave w (fun v => { v with hash := 0 })) s

/-! ## Seal points, the check-interval register, the log mode (R349, R371-R373) -/

/-- The implied region entry of a wave at an address (R102, R349). -/
def sealRegion (s : State) (wid pc : Nat) : State :=
  let tids := s.liveTids wid
  let s1 := copyRegion (s.modWave wid (fun x => { x with rgncnt := x.rgncnt + 1 })) wid (tids.map laneOf)
  s1.modThreads tids (fun _ t => enterRegion pc (s1.wv wid).rgncnt t)

/-- The wave arrives at its next seal point and waits there; in a launch without checks it only enters a region. -/
def execStgseal (h : Hdr) (d : Option (BitVec 6)) (s : State) : Out :=
  let u := usesOf (.stgseal h d)
  onceExec u (fun s w =>
    let s1 := (s.issued u).advance h u.len
    if !s.launchF.isChecked && !s.launchF.paired then .next (sealRegion s1 w ((s.focus.pc + u.len) % 2 ^ 52))
    else
      let n := (s.wv w).sealCount + 1
      .next ((s1.modWave w (fun x => { x with sealCount := n, sealReg := d })).modThreads s.grp (fun _ t => { t with park := .seal n }))) s

/-- The check-interval registers of a group's contexts, to a destination in every executing lane. -/
def chkerrExec (u : Uses) (d : Opnd) (clr : Bool) (s : State) : Out :=
  s.byGate u (fun s =>
    let xs := s.xs u.h
    let outs := xs.map (fun t => (t, [((s.tm (tagOf t)).interval.setWidth 32 : Word)]))
    let s1 := ((s.issued u).sendVar 3 (s.dstWrites d outs)).advance u.h u.len
    .next (if clr then (xs.map tagOf).dedup.foldl (fun x g => x.modTeam g (fun t => { t with interval := 0 })) s1 else s1))

def execChkerr (h : Hdr) (d : Opnd) (s : State) : Out := chkerrExec (usesOf (.chkerr h d)) d false s

def execChkerrClr (h : Hdr) (d : Opnd) (s : State) : Out := chkerrExec (usesOf (.chkerrClr h d)) d true s

def execRlogOn (h : Hdr) (s : State) : Out :=
  eachWave (usesOf (.rlogOn h)) (fun x w => x.modWave w (fun v => { v with
    logMode := if v.logMode = .replay then .replay else .record })) s

def execRlogOff (h : Hdr) (s : State) : Out :=
  eachWave (usesOf (.rlogOff h)) (fun x w => x.modWave w (fun v => { v with
    logMode := if v.logMode = .replay || (x.la (x.tm (tagW w)).lid).stagingOnly then v.logMode else .off })) s

/-! ## Release requests and version states (R366, R374, R375) -/

/-- The pages that a range reads: the frame and entry of each, or the fault of one. -/
def readPages (s : State) (core lid : Nat) : Nat → Nat → Nat → Except Nat (List (Nat × Bool))
  | 0, _, _ => .ok []
  | fuel + 1, va, stop =>
    if stop ≤ va then .ok []
    else match s.leafOf core lid va, s.translate core lid va .read with
      | .error c, _ => .error c
      | _, .error c => .error c
      | .ok (pte, size), .ok _ =>
        match readPages s core lid fuel ((va / 2 ^ size + 1) * 2 ^ size) stop with
        | .error c => .error c
        | .ok r => .ok ((bitsOf pte 51 16, bitAt pte 4) :: r)

/-- A status word: code and pages released. -/
def relStatus (code n : Nat) : Word := BitVec.ofNat 32 (code * 2 ^ 30 + n)

/-- A request joins the checker's list, or is answered at once: code 3 with a WRITING version of the launch in the range,
0 for a range of no bytes. -/
def askRelease (s : State) (lid : Nat) (pages : List (Nat × Bool)) (vres : Option (Nat × Nat)) (cmd : Option (Nat × Nat)) :
    State × Option Word :=
  let stg := (pages.filter Prod.snd).map Prod.fst
  if stg.any (fun p => (s.pageOf p).versions.any (fun v => v.st == .writing && v.lid == lid)) then (s, some (relStatus 3 0))
  else
    let code := if pages.any (fun p => !p.2) then 1 else 0
    if stg.isEmpty then (s, some (relStatus code 0))
    else
      let r : RelReq := {
        id := s.checker.nextRel, pages := stg, code := code, vres := vres, cmd := cmd }
      ({ s with checker := { s.checker with nextRel := s.checker.nextRel + 1, releases := s.checker.releases ++ [r] } }, none)

def execRelreq (h : Hdr) (d : Opnd) (m : MemOp) (c : Src) (s : State) : Out :=
  let u := usesOf (.relreq h d m c)
  s.byGate u (fun s =>
    let xs := s.accessors u
    let plans := xs.map (fun t =>
      let ea := s.effAddr t m
      let size := (s.rd [] t c).toNat
      match s.placeFor t m.qual.toNat ea.toNat .read with
      | .error k => (t, ea, (Except.error k : Except Nat (List (Nat × Bool))))
      | .ok p =>
        if size = 0 then (t, ea, .ok [])
        else if !p.xlated then (t, ea, .ok [(0, false)])
        else (t, ea, readPages s (s.coreOf t) (s.lidOf t) (2 ^ 16 + 2) ea.toNat (min (ea.toNat + size) (2 ^ 52))))
    match checkTrap 0 (plans.map (fun p => (p.1, p.2.1, match p.2.2 with | .error k => Checked.fault k | .ok _ => .ok []))) with
    | some t => .next (s.raise h u.len t)
    | none =>
      let s1 := (s.issued u).advance h u.len
      .next (plans.foldl (fun s p => match p.2.2 with
        | .error _ => s
        | .ok pages =>
          let x := s.openVar 3 (s.laneTgts xs (some (d, 1)) p.1)
          match askRelease x.1 (s.lidOf p.1) pages (some (s.focus.core, x.2)) none with
          | (s2, some w) => s2.fillVar s.focus.core x.2 [w]
          | (s2, none) => s2) s1))

/-- The state word of the newest version of a page. -/
def newestWord (s : State) (l : Loc) : Word :=
  match l with
  | .stg page _ => (((s.pageOf page).versions.getLast?).map versionWord).getD 0
  | _ => 0

def execVstat (h : Hdr) (d : Opnd) (m : MemOp) (s : State) : Out :=
  let u := usesOf (.vstat h d m)
  atPlaces u m .read (fun s ps =>
    .next ((((s.issued u).advance h u.len)).sendVar 3
      (ps.flatMap (fun (t, p) => (s.laneTgts (s.accessors u) (some (d, 1)) t).zip [newestWord s p.loc])))) s

end Sys2Proof.Machine
end

