-- ==== Sys2Proof/Machine/System.lean ====
section
/-!
DEFINITION. Sys2Proof/Machine/System.lean: the system instructions (14 R383-R391): software traps and breakpoints, the
return from a trap, `SNAP`, `SETSR`, the invalidation of translations, and `QUIESCE`.
-/

namespace Sys2Proof.Machine

open Sys2Proof State

/-! ## TRAP and BRK (R385, R387) -/

def execTrap (h : Hdr) (code : BitVec 8) (imm : Word) (s : State) : Out :=
  let u := usesOf (.trap h code imm)
  s.byGate u (fun s => .next (s.raise h u.len { code := 0x21, sub := code.toNat, mask := laneMask (s.xs h), info := imm }))

/-- A debug launch under a debugger halts its die, with the group stopped at the `BRK`, once the journal has room for the halt;
every other one traps. -/
def execBrk (h : Hdr) (code : BitVec 8) (s : State) : Out :=
  let u := usesOf (.brk h code)
  s.byGate u (fun s =>
    let die := dieOf s.focus.core
    if s.launchF.debug && (s.di die).debugger then
      if s.jfull then .next s.holdGroup
      else .next (((s.issued u).modThreads s.grp (fun _ t => { t with park := .brk u.len, lastIssue := s.now })).haltDie die)
    else .next (s.raise h u.len { code := 0x22, sub := code.toNat, mask := laneMask (s.xs h) }))

/-! ## RFT (R386) -/

/-- Where `.next` (0) and `.retry` (2) continue: an asynchronous fault's `.retry` acts as `.next`. -/
def rftTarget (t : Thread) (kind : Nat) : Nat :=
  if kind = 2 && !bitAt t.trap.cause.toNat 17 then t.trap.pc else t.trap.npc

/-- A thread leaves its handler. -/
def leaveTrap (t : Thread) : Thread := { t with trap := { t.trap with inTrap := false } }

/-- The forms of `RFT`: 0 `.next`, 1 `.region`, 2 `.retry`. -/
def rftExec (u : Uses) (kind : Nat) (s : State) : Out :=
  s.byGate u (fun s =>
    let xs := s.xs u.h
    let out := xs.filter (fun t => !(s.th t).trap.inTrap)
    if !out.isEmpty then .next (s.raise u.h u.len { code := 0x02, sub := 2, mask := laneMask out })
    else if kind = 1 then
      if xs.any (fun t => !bitAt (s.th t).trap.cause.toNat 16) then
        .next (s.abortLaunch s.lidF 0xC8 [addrLo s.focus.pc, addrHi s.focus.pc])
      else
        .next (xs.foldl (fun x t => (x.resumeRegion t (s.now + max u.h.stall.toNat 4)).modThread t leaveTrap)
          ((s.issued u).advance u.h u.len))
    else
      let ts := xs.map (fun t => (t, (BitVec.ofNat 64 (rftTarget (s.th t) kind) : DWord)))
      match s.targetTrap ts with
      | some t => .next (s.raise u.h u.len t)
      | none => .next (((s.issued u).transfer u.h u.len (fun t => (ts.find? (fun e => e.1 == t)).map Prod.snd)).modThreads xs
          (fun _ t => leaveTrap t)))

def execRftNext (h : Hdr) (s : State) : Out := rftExec (usesOf (.rftNext h)) 0 s

def execRftRegion (h : Hdr) (s : State) : Out := rftExec (usesOf (.rftRegion h)) 1 s

def execRftRetry (h : Hdr) (s : State) : Out := rftExec (usesOf (.rftRetry h)) 2 s

/-! ## SNAP and SETSR (R388, R389) -/

/-- The wave waits for a snapshot of its team, where its launch reserves an area for one. -/
def execSnap (h : Hdr) (s : State) : Out :=
  let u := usesOf (.snap h)
  s.byGate u (fun s =>
    let s1 := (s.issued u).advance h u.len
    if s.launchF.snapBase = 0 then .next s1
    else .next (((s.wavesX h).foldl (fun s w => s.modWave w (fun x => { x with snapWait := true })) s1).modThreads
      ((s.wavesX h).flatMap s.liveTids) (fun _ t => if t.park = .none then { t with park := .snap } else t)))

/-- The registers that `SETSR` writes: RSSLO, RSSHI, RSPTRH, TNPCLO, TNPCHI, TSCR. -/
def settable (n : Nat) : Bool := [0x10, 0x11, 0x12, 0x23, 0x24, 0x2F].contains n

def execSetsr (h : Hdr) (num : BitVec 8) (b : SrcB) (s : State) : Out :=
  let u := usesOf (.setsr h num b)
  if !settable num.toNat then .next (s.raise h u.len (illegalWord s))
  else s.byGate u (fun s =>
    .next ((((s.issued u).dropPops u).sched 2 ((s.xs h).map (fun t => (Tgt.sr t num.toNat, s.rdB (s.popsOf u) t b)))).advance h u.len))

/-! ## TLBINV and QUIESCE (R390, R391) -/

/-- The fault of an address that does not decode (08 R187, R188); translation itself raises none. -/
def decodeFault (s : State) (tid ea : Nat) : Option Nat :=
  if 2 ^ 52 ≤ ea then some cNonCanon
  else if ea < topWin then none
  else match s.placeFor tid 0 ea .read with
    | .error c => if c = cAperture then some c else none
    | .ok _ => none

/-- The translation of a monitored line: its address space, page and size. -/
def monEntry (s : State) (tid : Nat) : Option (Nat × Nat × Nat × Nat) :=
  (s.th tid).monVa.map (fun va =>
    let space := s.spaceOf (s.lidOf tid)
    match s.walkLaunch (s.lidOf tid) va with
    | .ok (pte, size) => (space, va / 2 ^ size * 2 ^ size, size, pte)
    | .error _ => (space, va / 2 ^ 16 * 2 ^ 16, 16, 0))

/-- Remove translations from every buffer of the package; the monitors on lines of theirs are hit (04 R116). -/
def dropTlb (s : State) (p : Nat × Nat × Nat × Nat → Bool) : State :=
  ({ s with
    cores := s.cores.map (fun e => (e.1, { e.2 with tlb := e.2.tlb.filter (fun t => !p t) }))
    clusters := s.clusters.map (fun e => (e.1, { e.2 with tlb := e.2.tlb.filter (fun t => !p t) })) } : State).hitAll
      (fun t => (monEntry s t).any p)

/-- Every thread of a wave waits at its next port instruction until Q passes the stamp now. -/
def holdPort (s : State) (wid : Nat) : State :=
  s.modThreads (s.liveTids wid) (fun _ t => { t with memHold := some s.msys.stamp })

/-- The invalidations: `cover` says which range of addresses of the launch's space is covered, none for all of it. -/
def tlbinvExec (u : Uses) (cover : State → Nat → Option (Nat × Nat)) (addr : State → Nat → Option DWord) (s : State) : Out :=
  s.byGate u (fun s =>
    let bad := (s.wavesX u.h).filterMap (fun w => (addr s w).bind (fun ea =>
      (decodeFault s (leader s u.h w) ea.toNat).map (fun c => (w, ea, c))))
    match bad with
    | (w, ea, c) :: _ => .next (s.raise u.h u.len { code := 0x10, sub := c, ad := ea, mask := laneMask [leader s u.h w] })
    | [] =>
      let space := s.spaceOf s.lidF
      .next ((s.wavesX u.h).foldl (fun x w => match cover s w with
        | some (lo, hi) =>
          if hi ≤ lo then x
          else holdPort (dropTlb x (fun t => t.1 == space && decide (t.2.1 < hi) && decide (lo < t.2.1 + 2 ^ t.2.2.1))) w
        | none => holdPort (dropTlb x (fun t => t.1 == space)) w) ((s.issued u).advance u.h u.len)))

def execTlbinvPage (h : Hdr) (base : Opnd) (off : Word) (s : State) : Out :=
  tlbinvExec (usesOf (.tlbinvPage h base off))
    (fun s w => let a := (baseAddr s w base off).toNat; some (a, a + 1)) (fun s w => some (baseAddr s w base off)) s

def execTlbinvRange (h : Hdr) (base : Opnd) (off : Word) (c : Opnd) (s : State) : Out :=
  tlbinvExec (usesOf (.tlbinvRange h base off c))
    (fun s w => let a := (baseAddr s w base off).toNat; some (a, a + (s.rd [] (leader s h w) (srcOf c)).toNat))
    (fun s w => some (baseAddr s w base off)) s

def execTlbinvCtx (h : Hdr) (s : State) : Out := tlbinvExec (usesOf (.tlbinvCtx h)) (fun _ _ => none) (fun _ _ => none) s

/-- The wave waits until Q exceeds the stamp of the issue. -/
def execQuiesce (h : Hdr) (s : State) : Out :=
  let u := usesOf (.quiesce h)
  s.byGate u (fun s =>
    let s1 := (s.wavesX h).foldl (fun x w => x.modWave w (fun y => { y with quiet := some s.msys.copy })) ((s.issued u).advance h u.len)
    .next (s1.modThreads ((s.wavesX h).flatMap s.liveTids) (fun _ t =>
      if t.park = .none then { t with park := .quiesce s.msys.copy } else t)))

end Sys2Proof.Machine
end

