-- ==== Sys2Proof/Machine/Threads.lean ====
section
/-!
DEFINITION. Sys2Proof/Machine/Threads.lean: the steps of cores, waves and threads that no word encodes: wakes and limits,
results that commit, refills, the regroup boundary, the convergence timeout, and the end of a wave (04 R48, R88, R96, R105,
R111, R117; 08 R191; 10 R277, R280; 06 R168).
A step that does not apply leaves the state as it is.
-/

namespace Sys2Proof.Machine

open Sys2Proof State

/-- A thread by team context, wave and lane. -/
def tidAt (tag wave lane : Nat) : Nat := tag * 1024 + wave * 32 + lane
def widAt (tag wave : Nat) : Nat := tag * 32 + wave

/-- A thread takes a trap of its own at a PC: it leaves its parking first. -/
def trapAlone (s : State) (tid : Nat) (ti : TrapInfo) (pc npc : Nat) (async : Option HeldFault) : State :=
  (s.modThread tid (fun t => { t with park := .none, pc := pc })).takeTrap [tid] { ti with mask := if ti.mask = 0 then State.laneMask [tid] else ti.mask }
    pc npc (s.clkOf (s.coreOf tid) + 4) async

/-! ## MWAIT (R117) -/

/-- A parked thread whose hit flag is set goes on; the flag is cleared, and `.p` writes 1. -/
def execMwaitWake (tag wave lane : Nat) (s : State) : Out :=
  let tid := tidAt tag wave lane
  let t := s.th tid
  match t.park with
  | .mwait _ pd _ =>
    if t.live && t.hit && !t.late && (s.tm tag).running then
      let s1 := s.modThread tid (fun t => { t with park := .none, hit := false })
      .next (match pd with | some p => s1.setPred tid p true | none => s1)
    else .next s
  | _ => .next s

/-- The limit is reached with no hit before: `.p` writes 0 and goes on, `.t` traps at its instruction. Each thread that reaches
its limit takes the trap by itself, with its own lane in TMASK (log 64). -/
def execMwaitLimit (tag wave lane : Nat) (s : State) : Out :=
  let tid := tidAt tag wave lane
  let t := s.th tid
  match t.park with
  | .mwait limit pd n =>
    if t.live && (!t.hit || t.late) && (s.tm tag).running && (s.tm tag).stopAt.isNone && decide (limit ≤ s.clkOf (s.coreOf tid)) then
      match pd with
      | some p => .next ((s.modThread tid (fun t => { t with park := .none, late := false })).setPred tid p false)
      | none =>
        .next (trapAlone (s.modThread tid (fun t => { t with late := false })) tid { code := 0x0A, ad := BitVec.ofNat 64 t.monAddr, info := BitVec.ofNat 32 n }
          ((t.pc + 2 ^ 52 - 8) % 2 ^ 52) t.pc none)
    else .next s
  | _ => .next s

/-! ## Results that commit (R48, R118) -/

/-- `WAITSB` threads whose results have all committed go on. -/
def settleWaits (s : State) : State :=
  { s with threads := s.threads.map (fun e => match e.2.park with
      | .waitsb m => if waitsClasses s e.1 m then e else (e.1, { e.2 with park := .none })
      | _ => e) }

/-- A pending result that is ready commits to its registers. -/
def execVariableResultCommit (core id : Nat) (s : State) : Out :=
  match s.vres.find? (fun r => r.core == core && r.id == id && r.ready && decide (r.after ≤ s.clkOf core)) with
  | none => .next s
  | some r =>
    let s1 := r.writes.foldl (fun s w => s.applyWrite { core := core, due := 0, tgt := w.1, val := w.2 }) s
    .next (settleWaits { s1 with
      vres := s1.vres.filter (fun x => !(x.core == core && x.id == id))
      pend := s1.pend.filter (fun w => !(isCount w.tgt && r.writes.any (fun x => x.1 == w.tgt))) })

/-! ## Register lines (08 R191, 09 R248) -/

/-- A line comes back from the context image, and the accesses that wait for it go on. -/
def refillLine (s : State) (tag wave reg : Nat) : State :=
  let wid := widAt tag wave
  (s.modWave wid (fun w => { w with evicted := w.evicted.filter (fun r => r != reg) })).wake
    (fun p => decide (p = .refill wid reg))

def execRegisterLineRefill (tag wave reg : Nat) (s : State) : Out :=
  if (s.tm tag).running && (s.wv (widAt tag wave)).evicted.contains reg then .next (refillLine s tag wave reg) else .next s

/-- A line of a twin's context is back, its context running again; a context that is gone frees the writer to its trap. -/
def execTwinLineRefilled (tag wave reg : Nat) (s : State) : Out :=
  if (s.tm tag).running || (s.wv (widAt tag wave)).ended || (s.tm tag).fin then .next (refillLine s tag wave reg) else .next s

/-! ## Boundaries, convergence, counters -/

/-- The next regroup boundary of a core (R88). -/
def execRegroupBoundary (core : Nat) (s : State) : Out :=
  if s.coreStops core then .next s else .next ((s.tickClk core).boundary core)

/-- What a wave's convergence timer shows (R96). -/
def timerOf (s : State) (wid : Nat) : Nat :=
  timerAt (s.wv wid) (s.clkOf (s.wv wid).core)

/-- Live threads that have arrived at a collective point. -/
def arrivedAt (s : State) (wid : Nat) : List Nat :=
  (s.liveTids wid).filter (fun t => (s.th t).park = .none && s.atPoint (s.wv wid).core t)

/-- The timer has passed the launch's bound: every live thread of the wave takes the trap (R96, Table 4.5). -/
def execConvergenceTimeout (tag wave : Nat) (s : State) : Out :=
  let wid := widAt tag wave
  let w := s.wv wid
  let live := s.liveTids wid
  if (s.tm tag).running && (s.tm tag).stopAt.isNone && w.timerOn.isSome && !live.isEmpty && decide ((s.la (s.tm tag).lid).convBound < timerOf s wid) then
    let t := timerOf s wid
    let words := [addrLo w.timerPc, State.laneMask (arrivedAt s wid), State.laneMask live, BitVec.ofNat 32 t]
    let s1 := s.modWave wid (fun x => { x with timer := 0, timerOn := none, timerRun := false })
    .next (s1.takeTrap live { code := 0x08, mask := State.laneMask live, words := words } w.timerPc w.timerPc (s.clkOf w.core + 4) none)
  else .next s

/-- R105: the instructions of a core whose fixed-latency results have not committed are squashed and issue again, in their
order, from the next clk on (log 65): their results come that much later, and the stall counts of their threads run again.
What they read and what they compute is as before. -/
def reissue (s : State) (core : Nat) : State :=
  match ((s.pend.filter (fun w => w.core == core)).map PWrite.issue).min? with
  | none => s
  | some t =>
    let d := s.clkOf core + 1 - t
    { s with
      pend := s.pend.map (fun w => if w.core == core then { w with due := w.due + d, issue := w.issue + d } else w)
      threads := s.threads.map (fun e =>
        if s.coreOf e.1 == core && (s.wv (widOf e.1)).resident && decide (t ≤ e.2.lastIssue) then
          (e.1, { e.2 with readyAt := e.2.readyAt + d })
        else e) }

def execScoreboardMismatch (core : Nat) (s : State) : Out :=
  .next ((reissue s core).modCore core (fun c => { c with sbmis := if c.sbmis = 0xFFFFFFFF then c.sbmis else c.sbmis + 1 }))

/-- 06 R168. -/
def execNoiseHealthFail (core : Nat) (s : State) : Out := .next (s.modCore core (fun c => { c with noiseFailed := true }))

/-! ## Barrier waits (10 R277, R280) -/

/-- The waiters of a complete episode go on at the clk they are due, as they do when their core's clk comes to it. -/
def execBarrierRelease (lnch rtag : Nat) (s : State) : Out :=
  .next (s.freeBarriers (fun t => match (s.th t).park with
    | .barrier l k _ _ => l == lnch && k == rtag
    | _ => false))

/-- A thread parked at a barrier object goes on behind its `BBWAIT`, with an acquire at `.pkg` or `.dom` (09 R245); `.p` writes
whether COUNT was 0. -/
def releaseBb (s : State) (tid : Nat) : State :=
  match (s.th tid).park with
  | .bbwait _ pd len (some z) =>
    let s1 := (s.modCore (s.coreOf tid) Core.acquire).modThread tid (fun t => { t with park := .none, pc := (t.pc + len) % 2 ^ 52, inTable := false })
    match pd with
    | some p => s1.setPred tid p z
    | none => s1
  | _ => s

/-- The waiters of an object that have found COUNT at 0 or less go on; `addr` is the object's place as a number. -/
def execBbwaitWake (addr : Nat) (s : State) : Out :=
  .next (((s.threads.filter (fun e => match e.2.park with
    | .bbwait l _ _ (some _) => l.num == addr && (s.tm (tagOf e.1)).running
    | _ => false)).map Prod.fst).foldl releaseBb s)

/-! ## The end of a wave (R111) -/

/-- Has a pending result a register of this wave as its target? -/
def aimsAt (wid : Nat) (w : Tgt × Word) : Bool :=
  match w.1 with
  | .v t _ => widOf t == wid
  | .p t _ => widOf t == wid
  | .s v _ => v == wid
  | .sr t _ => widOf t == wid
  | .u v _ => v == wid

/-- Memory, engine, witness or matrix work that a wave issued and that is not complete. -/
def waveBusy (s : State) (wid : Nat) : Bool :=
  let w := s.wv wid
  let k := s.co w.core
  s.held.any (fun a => widOf a.tid == wid) || s.vres.any (fun r => r.writes.any (aimsAt wid)) ||
  s.pend.any (fun p => aimsAt wid (p.tgt, p.val)) ||
  k.cmds.any (fun c => c.wid == wid) || k.mx.any (fun e => e.wid == wid) || !w.saved.isEmpty ||
  s.msys.tags.any (fun g => widOf g.acc.tid == wid) || s.msys.claims.any (fun j => widOf j.tid == wid) ||
  (!(s.tm (tagW wid)).isSecond && w.eq.any (fun q => !(wholeCmds q).isEmpty))

/-- The last team of a launch has ended: its route tags go back to the pool (10 R279). -/
def teamsDone (s : State) (lid : Nat) : Bool :=
  let l := s.la lid
  decide (l.nextTeam = l.numTeams) && (s.teamsOf lid).isEmpty

/-- A team of which every wave has ended ends. -/
def endTeam (s : State) (tag : Nat) : State :=
  let t := s.tm tag
  if (s.teamWids tag).all (fun w => (s.wv w).ended) then
    let s1 := (s.dropTeam tag).modLaunch t.lid (fun l => { l with
      ended := if t.isSecond then l.ended else l.ended ++ [t.index] })
    if teamsDone s1 t.lid then s1.freeRoute t.lid else s1
  else s

/-- The `EXIT` of a wave's last thread ends its HOLD once its matrix instructions are complete (11 R308). -/
def endHold (s : State) (wid : Nat) : State :=
  if (s.wv wid).lic = .hold && (s.co (s.wv wid).core).mx.all (fun e => e.wid != wid) && (s.wv wid).saved.isEmpty then s.licEnd wid false
  else s

/-- A wave whose threads have all exited and whose work is complete gives up its slot and lines. A copy's wave first meets
its last pair point (14 R394). -/
def execWaveSlotFree (core slot : Nat) (s : State) : Out :=
  match (s.co core).slots.find? slot with
  | none => .next s
  | some wid =>
    let tag := tagW wid
    if !(s.liveTids wid).isEmpty then .next s
    else if waveBusy s wid || (s.isPaired tag && !(s.wv wid).pairGo) then .next (endHold s wid)
    else
      let s1 := (endHold s wid).modWave wid (fun x => { x with lic := .none })
      .next (endTeam (((s1.waveRecords wid).freeWave wid).modWave wid (fun w => { w with ended := true })) tag)

end Sys2Proof.Machine
end

