-- ==== Sys2Proof/Machine/Commands.lean ====
section
/-!
DEFINITION. Sys2Proof/Machine/Commands.lean: the steps of the engines (10 R263-R274, R283-R286; 09 R243, R244): acceptance of
a command, its operation, landings, completion and faults, and the service of stage queues.
A command's sources are read when its operation starts; its writes land one element a step.
-/

namespace Sys2Proof.Machine

open Sys2Proof State

/-! ## Accepted commands -/

def cmdAt (s : State) (core id : Nat) : Option Cmd := (s.co core).cmds.find? (fun c => c.id == id)
def modCmd (s : State) (core id : Nat) (f : Cmd → Cmd) : State :=
  s.modCore core (fun k => { k with cmds := k.cmds.map (fun c => if c.id = id then f c else c) })
def delCmd (s : State) (core id : Nat) : State :=
  s.modCore core (fun k => { k with cmds := k.cmds.filter (fun c => c.id != id) })

/-- The launch of a command, and whether its team is gone. -/
def cmdLid (s : State) (c : Cmd) : Nat := (s.tm (tagW c.wid)).lid
def cmdDead (s : State) (c : Cmd) : Bool := (s.tm (tagW c.wid)).fin
def cmdHdr (c : Cmd) : Word := c.words.headD 0

/-- Codes of the engine faults (14 Table 14.1), as code, cause and address. -/
def xlFault (cause addr : Nat) : Nat × Nat × Nat := (0x13, cause, addr)
def cmdFault (cause : Nat) : Nat × Nat × Nat := (0x14, cause, 0)

/-! ## Starting an operation -/

/-- The queues whose commands join a list of the front die, where one wave's operations arrive in its program order (R283). -/
def listed (q : Nat) : Bool := q == 4 || q == 5

/-- The pusher's far accesses that come before the push of a command have been answered. -/
def farDone (s : State) (c : Cmd) : Bool :=
  s.msys.tags.all (fun g => g.acc.tid != c.tid || decide (c.far ≤ g.id) || (match g.acc.op with | .eng _ | .coll _ => true | _ => false))
/-- The command's own operations at other packages have been answered (14 R402). -/
def remoteDone (s : State) (core id : Nat) : Bool :=
  s.msys.tags.all (fun g => g.acc.core != core || (g.acc.op != .eng id && g.acc.op != .coll id))

/-- A command whose operation may start: those of its wave's queue accepted earlier have started (R266), and the wave's
earlier matrix stores are performed. An acquire flag waits for its pusher's far accesses before the push, too (09 R243). -/
def startable (s : State) (core id q op : Nat) : Option Cmd :=
  match cmdAt s core id with
  | none => none
  | some c =>
    let k := s.co core
    if c.q == q && hOp (cmdHdr c) == op && !c.started && c.fault.isNone && (!bitAt (cmdHdr c).toNat 19 || farDone s c) &&
      k.cmds.all (fun d => !(d.wid == c.wid && (d.q == q || (listed d.q && listed q)) && decide (d.id < id)) || d.started) &&
      (!listed q || [4, 5].all (fun e => ((s.wv c.wid).eqHdr.get [] e).all (fun r => r.id == 0 || decide (id < r.id)))) &&
      (k.mx ++ (s.wv c.wid).saved).all (fun e => !(e.wid == c.wid && decide (e.id < id)) || (e.outs.isEmpty && e.scales.isEmpty))
    then some c else none

/-- An acquire flag drops the core's L1 copies at `.cluster` and wider (09 R243). -/
def acquireFlag (s : State) (core : Nat) (c : Cmd) : State :=
  if bitAt (cmdHdr c).toNat 19 && decide (3 ≤ hScope (cmdHdr c)) then s.modCore core Core.acquire else s

/-- Where an address of a command lies (R266): a register-window address faults. -/
def engPlace (s : State) (c : Cmd) (a : Nat) (acc : Acc) : Except Nat Place :=
  match s.placeFor c.tid 0 a acc with
  | .error k => .error k
  | .ok p => match p.loc with
    | .reg _ _ _ _ => .error cAperture
    | _ => .ok p

/-- A record's place: neither in a window of cores or arguments, nor on a UO page. -/
def recordPlace (s : State) (c : Cmd) (a : Nat) : Except Nat Loc :=
  match engPlace s c a .write with
  | .error k => if argWin ≤ a && a < argWin + 4096 then .error cAperture else .error k
  | .ok p => match p.loc with
    | .scr _ _ | .arg _ _ => .error cAperture
    | l => if p.ord = 2 then .error cPerm else .ok l

/-- What is wrong with a command's barrier, if anything (R266, R275). -/
def barrierBad (s : State) (c : Cmd) : Option (Nat × Nat × Nat) :=
  match cmdBarrier c.words with
  | none => none
  | some a =>
    if a % 64 ≠ 0 then some (cmdFault 1)
    else match engPlace s c a .write with
      | .error k => some (xlFault k a)
      | .ok p => if p.ord = 2 then some (xlFault cPerm a) else none
def barrierLoc (s : State) (c : Cmd) : Option Loc :=
  match cmdBarrier c.words with
  | none => none
  | some a => match engPlace s c a .write with
    | .ok p => some p.loc
    | .error _ => none

/-- What an engine's read of an element gives: nothing yet, bytes of another package to ask for, a fault, or the bytes with their
poison and class mask. -/
inductive El where
  | hold
  | ask (l : Loc) (n a : Nat)
  | fault (f : Nat × Nat × Nat)
  | ok (s : State) (bytes : List Byte) (poison : Bool) (cls : Nat)

/-- A page that is moving, or that has no version to read, makes a read wait. -/
def engWaits (s : State) (c : Cmd) (l : Loc) : Bool :=
  (match l with | .scr _ _ => false | _ => (s.waitOf l).isSome) || (s.waitRead c.tid l).isSome

/-- A request of a command to another package, under a response tag (14 R402). -/
def sendEng (s : State) (core : Nat) (c : Cmd) (op : MemDo) (l : Loc) (n a : Nat) : State :=
  s.sendTag { core := core, tid := c.tid, pc := c.pc, op := op, pieces := [(l, n, a)], stamp := s.msys.copy } (l.num / 2 ^ 40) a
/-- Ask for bytes, if the command does not ask for them already. -/
def askFor (s : State) (core : Nat) (c : Cmd) (l : Loc) (n a : Nat) : State :=
  if s.msys.tags.any (fun g => g.acc.core == core && g.acc.op == .eng c.id && g.addr == a) then s
  else sendEng s core c (.eng c.id) l n a

/-- Read `n` bytes for a command; those of another package are asked for first. -/
def readEl (s : State) (core : Nat) (c : Cmd) (a n : Nat) : El :=
  match engPlace s c a .read with
  | .error k => .fault (xlFault k a)
  | .ok p =>
    let l := p.loc
    let lid := cmdLid s c
    if isFar s l then match c.got.find? (fun g => g.1 == a && g.2.1.length == n) with
      | some g => .ok (if g.2.2 then s.setInterval (tagW c.wid) bPoison else s) g.2.1 g.2.2 0
      | none => .ask l n a
    else if engWaits s c l then .hold
    else .ok (s.readMarks core c.tid 3 l n) (s.readPiece c.tid l n) (s.rdPoison lid l n) (s.classAt lid l)

/-- One element: read, then placed. -/
abbrev ElStep := State → Nat → El × Nat

/-- What a run over elements gives. -/
inductive Ran where
  | hold
  | ask (l : Loc) (n a : Nat)
  | ran (s : State) (lands : List (Nat × Land)) (fault : Option (Nat × Nat × Nat))

/-- The elements of a command in rising order, up to the first that faults. `f` gives an element's bytes and its destination. -/
def runEls (c : Cmd) (f : ElStep) : Nat → Nat → State → List (Nat × Land) → Ran
  | 0, _, s, acc => .ran s acc.reverse none
  | n + 1, i, s, acc =>
    match f s i with
    | (.hold, _) => .hold
    | (.ask l k a, _) => .ask l k a
    | (.fault k, _) => .ran s acc.reverse (some k)
    | (.ok s1 bs poi cls, d) =>
      match engPlace s1 c d .write with
      | .error k => .ran s1 acc.reverse (some (xlFault k d))
      | .ok p => if (match p.loc with | .scr _ _ => false | l => (s1.waitOf l).isSome) then .hold else runEls c f n (i + 1) s1 ((i, { loc := p.loc, bytes := bs, poison := poi, cls := cls }) :: acc)

/-- Bytes of a scratchpad line that lie in a command's destination. -/
def lineBytes (s : State) (c : Cmd) (l : Nat × Nat) : Nat :=
  ((s.destRanges c.tid c.q c.words).map (fun r => ((List.range r.2).filter (fun k => match engPlace s c (r.1 + k) .write with
    | .ok p => p.loc.line == .scr l.1 (l.2 * 128)
    | .error _ => false)).length)).sum

/-- Lines that a command which faults does not write whole: they keep their counts raised (R285). -/
def shortLines (s : State) (c : Cmd) (lands : List (Nat × Land)) : List (Nat × Nat) :=
  c.lines.filter (fun l => decide ((lands.map (fun e => if e.2.loc.line == .scr l.1 (l.2 * 128) then e.2.bytes.length else 0)).sum < lineBytes s c l))

/-- Start a moving operation: its alignment, its barrier, then its elements. -/
def startMove (core id q op : Nat) (aligned : List Word → Bool) (count : List Word → Nat) (f : Cmd → ElStep) (s : State) : State :=
  match startable s core id q op with
  | none => s
  | some c =>
    let fail (k : Nat × Nat × Nat) : State := modCmd s core id (fun x => { x with started := true, fault := some k })
    if !aligned c.words then fail (cmdFault 1)
    else match barrierBad s c with
      | some k => fail k
      | none =>
        match runEls c (f c) (count c.words) 0 (acquireFlag s core c) [] with
        | .hold => s
        | .ask l n a => askFor s core c l n a
        | .ran s1 ls k =>
          let short := if k.isNone then [] else shortLines s c ls
          modCmd s1 core id (fun x => { x with
            started := true, lands := ls, fault := k, short := short, lines := x.lines.filter (fun l => !short.contains l) })

/-- An address plus an offset; one past 2^52 fails its check. -/
def body4 (ws : List Word) (ks : List Nat) : Bool := ks.all (fun k => bodyW ws k % 4 == 0)

/-- R267. -/
def copyStartMove (core id : Nat) (s : State) : State :=
  startMove core id 0 1 (fun ws => body4 ws [0, 2, 4]) (fun ws => bodyW ws 4 / 4) (fun c s i =>
    (readEl s core c (bodyA c.words 0 + 4 * i) 4, bodyA c.words 2 + 4 * i)) s

def execEngineCopy (core id : Nat) (s : State) : Out := .next (copyStartMove core id s)

def execEngineFill (core id : Nat) (s : State) : Out :=
  .next (startMove core id 0 2 (fun ws => body4 ws [1, 3]) (fun ws => bodyW ws 3 / 4) (fun c s i =>
    (.ok s (leBytes 4 (bodyW c.words 0)) false 0, bodyA c.words 1 + 4 * i)) s)

def copy2dStartMove (core id : Nat) (s : State) : State :=
  startMove core id 0 3 (fun ws => body4 ws [0, 2, 4, 6, 7]) (fun ws => bodyW ws 4 / 4 * bodyW ws 5) (fun c s i =>
    let per := bodyW c.words 4 / 4
    (readEl s core c (bodyA c.words 0 + i / per * bodyW c.words 6 + 4 * (i % per)) 4,
      bodyA c.words 2 + i / per * bodyW c.words 7 + 4 * (i % per))) s

def execEngineCopy2d (core id : Nat) (s : State) : Out := .next (copy2dStartMove core id s)

/-- The operation of a copy or a copy 2D, as its start event runs it. One that asks another package has begun. -/
def startNow (core id : Nat) (s : State) : Option State :=
  let op := ((cmdAt s core id).map (fun c => hOp (cmdHdr c))).getD 0
  let t := if op = 1 then copyStartMove core id s else copy2dStartMove core id s
  if (cmdAt t core id).any Cmd.started || !remoteDone t core id then some t else none

/-- The places of the elements that a copy or a copy 2D reads and of those that it writes. -/
def copyEls (s : State) (c : Cmd) : List Loc × List Loc :=
  let ws := c.words
  let per := bodyW ws 4 / 4
  let locs (a : Nat) : List Loc := match engPlace s c a .read with | .ok p => [p.loc] | .error _ => []
  let rows (a stride : Nat) : List Loc :=
    if hOp (cmdHdr c) = 1 then (List.range per).flatMap (fun i => locs (a + 4 * i))
    else (List.range (per * bodyW ws 5)).flatMap (fun i => locs (a + i / per * stride + 4 * (i % per)))
  (rows (bodyA ws 0) (bodyW ws 6), rows (bodyA ws 2) (bodyW ws 7))

/-- Do the source and the destination of a copy overlap (R267)? -/
def overlaps (s : State) (c : Cmd) : Bool :=
  c.q == 0 && (hOp (cmdHdr c) == 1 || hOp (cmdHdr c) == 3) && (copyEls s c).1.any (copyEls s c).2.contains

/-- An engine takes a whole command off a queue (R263): at most 64 of a core are in flight. Counts that were full at the push are
raised now (R269). A copy whose source and destination overlap is accepted as it starts, so that it reads what stood at its source
when it was accepted (R267). In paired execution only words pushed before a matched pair point leave, and only the primary's act (14 R395). -/
def execEngineCommandAccept (core slot : Nat) (q : BitVec 3) (s : State) : Out :=
  match (s.co core).slots.find? slot with
  | none => .next s
  | some wid =>
    let w := s.wv wid
    let k := q.toNat
    let tag := tagW wid
    let all := w.eq.getD k []
    match wholeCmds all with
    | [] => .next s
    | ws :: _ =>
      let hdr : HdrRec := (w.eqHdr.get [] k).headD ⟨wid * 32, 0, 0, 0, 0, 0, 0⟩
      let ls := (w.eqRaised.get [] k).headD ([], [])
      if 64 ≤ (s.co core).cmds.length || (s.isPaired tag && decide (w.eqOk.getD k 0 < ws.length)) then .next s
      else if !s.canRaise ls.2 then .next s
      else
          let s1 := s.raiseCounts ls.2
          let s2 := s1.modWave wid (fun x => { x with
            eq := x.eq.set k (all.drop ws.length)
            eqOk := x.eqOk.set k (x.eqOk.getD k 0 - ws.length)
            eqHdr := AMap.set [] x.eqHdr k ((x.eqHdr.get [] k).drop 1)
            eqRaised := AMap.set [] x.eqRaised k ((x.eqRaised.get [] k).drop 1) })
          if (s.tm tag).isSecond then .next s2
          else
            let undeclared := (k == 4 || k == 5) && (s.la (s.tm tag).lid).sqDepth (bodyW ws 0) == 0
            let c : Cmd := {
              id := if hdr.id = 0 then (s2.co core).nextId else hdr.id, q := k, wid := wid, tid := hdr.tid, pc := hdr.pc, rpc := hdr.rpc
              rcount := hdr.rcount, rdepth := hdr.rdepth, words := ws, lines := ls.1 ++ ls.2, stamp := s.msys.copy, far := hdr.far
              started := malformed k ws || undeclared
              fault := if malformed k ws then some (cmdFault 0) else if undeclared then some (cmdFault 5) else none }
            let s3 := s2.modCore core (fun x => { x with cmds := x.cmds ++ [c], nextId := if hdr.id = 0 then x.nextId + 1 else x.nextId })
            if c.fault.isNone && overlaps s3 c then
              match startNow core c.id s3 with
              | some s4 => .next s4
              | none => .next s
            else .next s3

/-- Alignment of gather and scatter: the bases to esize, the index array to 4. -/
def gsAligned (ws : List Word) : Bool :=
  bodyA ws 0 % bodyW ws 7 == 0 && bodyA ws 2 % 4 == 0 && bodyA ws 4 % bodyW ws 7 == 0

/-- The index of element `i`, then its source element. -/
def indexed (s : State) (core : Nat) (c : Cmd) (i : Nat) (go : State → Nat → El × Nat) : El × Nat :=
  match readEl s core c (bodyA c.words 2 + 4 * i) 4 with
  | .ok s1 bs _ _ => go s1 (leNat bs)
  | x => (x, 0)

/-- R268. -/
def execEngineGather (core id : Nat) (s : State) : Out :=
  .next (startMove core id 1 1 gsAligned (fun ws => bodyW ws 6) (fun c s i => indexed s core c i (fun s1 j =>
    let es := bodyW c.words 7
    (readEl s1 core c (bodyA c.words 0 + j * es) es, bodyA c.words 4 + i * es))) s)

def execEngineScatter (core id : Nat) (s : State) : Out :=
  .next (startMove core id 1 2 gsAligned (fun ws => bodyW ws 6) (fun c s i => indexed s core c i (fun s1 j =>
    let es := bodyW c.words 7
    (readEl s1 core c (bodyA c.words 0 + i * es) es, bodyA c.words 4 + j * es))) s)

/-! ## Collectives (R270-R272) -/

/-- The source bytes of a range by words, with poison and class mask. -/
def readRange (core : Nat) (c : Cmd) (a : Nat) : Nat → State → List Byte → Bool → Nat → El
  | 0, s, bs, poi, cls => .ok s bs poi cls
  | n + 1, s, bs, poi, cls => match readEl s core c (a + bs.length) 4 with
    | .ok s1 b p k => readRange core c a n s1 (bs ++ b) (poi || p) (cls ||| k)
    | x => x

/-- The places of a range by words. -/
def placeRange (s : State) (c : Cmd) (a : Nat) : Nat → Nat → List (Loc × Nat × Nat) → Except (Nat × Nat × Nat) (List (Loc × Nat × Nat))
  | 0, _, acc => .ok acc.reverse
  | n + 1, i, acc => match engPlace s c (a + 4 * i) .write with
    | .error k => .error (xlFault k (a + 4 * i))
    | .ok p => placeRange s c a n (i + 1) ((p.loc, 4, a + 4 * i) :: acc)

/-- What the engine finds in the 64 bytes of a group record (Table 10.5); `none` is malformed for a command of `op`. -/
def groupOf (l : Loc) (bs : List Byte) (op : Nat) : Option CollEp :=
  let x := leNat bs
  let npart := bitsOf x 31 0
  let count := bitsOf x 63 32
  let kind := bitsOf x 71 68
  let cop := bitsOf x 67 64
  if bitsOf x 511 128 ≠ 0 || bitsOf x 95 72 ≠ 0 || kind + 1 ≠ op || npart = 0 || 2 ^ 20 < npart then none
  else if kind = 0 && 10 < cop then none
  else if kind = 1 && (cop ≠ 0 || count % 4 ≠ 0) then none
  else some { loc := l, lid := 0, npart := npart, count := count, op := cop, kind := kind }

/-- What the engine reads of a group record of this package. -/
def readGroup (s : State) (l : Loc) (op : Nat) : Option CollEp := groupOf l (s.rdBytes 0 l 64) op

/-- Words of a participant's source, and of its destination. -/
def srcWords (e : CollEp) : Nat := if e.kind = 0 then e.count else e.count / 4
def dstWords (e : CollEp) : Nat := if e.kind = 0 then e.count else e.npart * (e.count / 4)

/-- The open episode at a record. -/
def episodeAt (s : State) (l : Loc) : Option CollEp := s.msys.episodes.find? (fun e => e.loc == l)
def putEpisode (s : State) (e : CollEp) : State :=
  { s with msys := { s.msys with episodes := s.msys.episodes.filter (fun x => x.loc != e.loc) ++
      (if e.members.isEmpty && e.later.isEmpty then [] else [e]) } }

/-- The word `k` of bytes. -/
def wordOfBytes (bs : List Byte) (k : Nat) : Word := BitVec.ofNat 32 (leNat ((bs.drop (4 * k)).take 4))

/-- A float result has the canonical NaN. -/
def canonNaN (op : Nat) (w : Word) : Word := if 8 ≤ op && (fp32.decode w.toNat).isNan then 0x7FC00000 else w

/-- R272: the result of a full episode, ranks in order. -/
def collResult (e : CollEp) : List Byte :=
  let xs := (sortBy CollArr.rank e.members).map CollArr.src
  if e.kind = 0 then
    (List.range e.count).flatMap (fun k =>
      let acc := xs.foldl (fun (a : Option Word) b => (combineLanes e.op 0 false a (some (wordOfBytes b k))).1) none
      leBytes 4 (canonNaN e.op (acc.getD 0)).toNat)
  else xs.flatMap id

/-- EPOCH of a record advances. -/
def advanceEpoch (s : State) (x : Closing) : State :=
  let ep := leNat (s.rdBytes 0 (x.loc.add 12) 4)
  s.wrBytes x.lid (x.loc.add 12) (leBytes 4 ((ep + 1) % 2 ^ 32))

/-- The result of an episode has been written to the destination of every participant. -/
def resultWritten (s : State) (x : Closing) : Bool :=
  x.cmds.all (fun c => match cmdAt s c.1 c.2 with | some k => k.lands.isEmpty | none => true)

/-- EPOCH advances at the records whose participants have their results (R272). -/
def settleClosing (s : State) : State :=
  let done := s.msys.closing.filter (resultWritten s)
  done.foldl advanceEpoch { s with msys := { s.msys with closing := s.msys.closing.filter (fun x => !resultWritten s x) } }

/-- Every rank has arrived: the results are on their way to each participant. -/
def closeEpisode (s : State) (e : CollEp) : State :=
  if e.members.length < e.npart then putEpisode s e
  else
    let res := collResult e
    let poi := e.members.any CollArr.poison
    let cls := e.members.foldl (fun k m => k ||| m.cls) 0
    let s1 := e.members.foldl (fun s m => match m.far with
      | some p => sendOut s { pkg := p, addr := e.loc.num, bytes := some res, poison := poi }
      | none => modCmd s m.core m.cmd (fun c => { c with
          waiting := false
          lands := m.dst.zipIdx.map (fun (d, k) =>
            (k, { loc := d.1, bytes := (res.drop (4 * k)).take 4, poison := poi, cls := cls })) })) s
    let x : Closing := { loc := e.loc, lid := e.lid, cmds := (e.members.filter (fun m => m.far.isNone)).map (fun m => (m.core, m.cmd)) }
    settleClosing (putEpisode { s1 with msys := { s1.msys with closing := s1.msys.closing ++ [x] } } { e with members := [] })

/-- May a command arrive at an episode now? Of one rank only the earliest of those that wait, once no member has it. -/
def mayJoin (e : CollEp) (core id rank : Nat) : Bool :=
  e.members.all (fun m => m.rank != rank) &&
  (match e.later.find? (fun x => x.2.2 == rank) with
   | none => true
   | some x => x.1 == core && x.2.1 == id)

/-- A collective command whose record is another package's: the record is asked for, the ranges are translated and the source is
read, and then the command arrives there with its rank, under a response tag whose answer brings the result (R271, R272). -/
def farColl (core id op : Nat) (l : Loc) (c : Cmd) (s : State) (fail : Nat × Nat × Nat → Out) : Out :=
  let ws := c.words
  if s.msys.tags.any (fun g => g.acc.core == core && g.acc.op == .coll id) then .next s
  else match c.got.find? (fun g => g.1 == bodyA ws 0 && g.2.1.length == 64) with
    | none => .next (askFor s core c l 64 (bodyA ws 0))
    | some g => match groupOf l g.2.1 op with
      | none => fail (cmdFault 0)
      | some e =>
        match readRange core c (bodyA ws 3) (srcWords e) (acquireFlag s core c) [] false 0,
          placeRange s c (bodyA ws 5) (dstWords e) 0 [] with
        | .hold, _ => .next s
        | .ask l k a, _ => .next (askFor s core c l k a)
        | .fault k, _ => fail k
        | .ok _ _ _ _, .error k => fail k
        | .ok s1 _ _ _, .ok _ =>
          if e.npart ≤ bodyW ws 2 then fail (cmdFault 2)
          else .next (sendEng (modCmd s1 core id (fun x => { x with started := true, waiting := true })) core c (.coll id) l 64 (bodyA ws 0))

/-- The result of a collective comes from another package: it is on its way to the command's destination. -/
def farResult (s : State) (core id : Nat) (bytes : List Byte) (poisoned : Bool) : State :=
  match cmdAt s core id with
  | none => s
  | some c => match placeRange s c (bodyA c.words 5) (bytes.length / 4) 0 [] with
    | .error k => modCmd s core id (fun x => { x with waiting := false, fault := some k })
    | .ok dst => modCmd s core id (fun x => { x with
        waiting := false
        lands := dst.zipIdx.map (fun (d, k) => (k, { loc := d.1, bytes := (bytes.drop (4 * k)).take 4, poison := poisoned })) })

/-- R271: a collective command translates its ranges, and then arrives with its rank, or waits for a later episode. -/
def collStart (core id op : Nat) (s : State) : Out :=
  let cmd := match startable s core id 2 op with
    | some c => some c
    | none => match cmdAt s core id with
      | some c => if c.q == 2 && hOp (cmdHdr c) == op && c.waiting &&
          s.msys.episodes.any (fun e => e.later.any (fun x => x.1 == core && x.2.1 == id)) then some c else none
      | none => none
  match cmd with
  | none => .next s
  | some c =>
    let ws := c.words
    let rank := bodyW ws 2
    let fail (k : Nat × Nat × Nat) : Out :=
      let s0 := { s with msys := { s.msys with episodes := s.msys.episodes.map (fun e => { e with
        later := e.later.filter (fun x => !(x.1 == core && x.2.1 == id)) }) } }
      .next (modCmd s0 core id (fun x => { x with started := true, waiting := false, fault := some k }))
    if bodyA ws 0 % 64 ≠ 0 || !body4 ws [3, 5] then fail (cmdFault 1)
    else match barrierBad s c, recordPlace s c (bodyA ws 0) with
      | some k, _ => fail k
      | none, .error k => fail (xlFault k (bodyA ws 0))
      | none, .ok l =>
        if isFar s l then farColl core id op l c s fail
        else if engWaits s c l then .next s
        else
          let epi : Option CollEp := match episodeAt s l with
            | some e => if e.members.isEmpty then (readGroup s l op).map (fun g => { g with later := e.later })
                else if e.kind + 1 = op then some e else none
            | none => readGroup s l op
          match epi with
          | none => fail (cmdFault 0)
          | some e =>
            match readRange core c (bodyA ws 3) (srcWords e) (acquireFlag s core c) [] false 0,
              placeRange s c (bodyA ws 5) (dstWords e) 0 [] with
              | .hold, _ => .next s
              | .ask l k a, _ => .next (askFor s core c l k a)
              | .fault k, _ => fail k
              | .ok _ _ _ _, .error k => fail k
              | .ok s1 src poi cls, .ok dst =>
                if e.npart ≤ rank then fail (cmdFault 2)
                else if mayJoin e core id rank then
                  let a : CollArr := {
                    core := core, cmd := id, rank := rank, src := src, poison := poi, dst := dst, cls := cls }
                  .next (closeEpisode (modCmd s1 core id (fun x => { x with started := true, waiting := true }))
                    { e with
                      lid := if e.members.isEmpty then cmdLid s c else e.lid
                      members := e.members ++ [a]
                      later := e.later.filter (fun x => !(x.1 == core && x.2.1 == id)) })
                else if e.later.any (fun x => x.1 == core && x.2.1 == id) then .next s
                else .next (putEpisode (modCmd s core id (fun x => { x with started := true, waiting := true }))
                  { e with later := e.later ++ [(core, id, rank)] })

def execCollectiveReduce (core id : Nat) (s : State) : Out := collStart core id 1 s

def execCollectiveGather (core id : Nat) (s : State) : Out := collStart core id 2 s

/-! ## Chunk and stage-queue commands (R274, R283) -/

/-- A chunk request of the engine; another package's record is asked for under a response tag. -/
def execEngineChunk (core id : Nat) (s : State) : Out :=
  match startable s core id 3 1 with
  | none => .next s
  | some c =>
    let a := bodyA c.words 0
    let fail (k : Nat × Nat × Nat) : Out := .next (modCmd s core id (fun x => { x with started := true, fault := some k }))
    if a % 32 ≠ 0 then fail (cmdFault 1)
    else match barrierBad s c, recordPlace s c a with
      | some k, _ => fail k
      | none, .error k => fail (xlFault k a)
      | none, .ok l =>
        if isFar s l then
          match c.got.find? (fun g => g.1 == a) with
          | none => .next (askFor (acquireFlag s core c) core c l 32 a)
          | some g =>
            let s1 := if g.2.2 then s.setInterval (tagW c.wid) bPoison else s
            .next (modCmd s1 core id (fun y => { y with started := true, result := answerWords .chunk (leNat g.2.1) }))
        else if engWaits s c l then .next s
        else
          let lid := cmdLid s c
          let s0 := acquireFlag (if s.rdPoison lid l 32 then s.setInterval (tagW c.wid) bPoison else s) core c
          let x := chunkTake s0 lid l
          .next (modCmd (x.1.noteWrite (tagW c.wid) l) core id (fun y => { y with started := true, result := chunkWords x.2 }))

/-- A stage command joins its queue's list: a push with the entry it reads, a close, or a pop with the places it fills. -/
def stageStart (core id q op : Nat) (mk : State → Cmd → Sum El (State × SqReq)) (s : State) : Out :=
  match startable s core id q op with
  | none => .next s
  | some c =>
    let fail (k : Nat × Nat × Nat) : Out := .next (modCmd s core id (fun x => { x with started := true, fault := some k }))
    match barrierBad s c with
    | some k => fail k
    | none => match mk (acquireFlag s core c) c with
      | .inl (.ask l n a) => .next (askFor s core c l n a)
      | .inl (.fault k) => fail k
      | .inl _ => .next s
      | .inr (s1, r) =>
        .next (modSq (modCmd s1 core id (fun x => { x with started := true, waiting := true })) (cmdLid s c) (bodyW c.words 0) (fun k =>
          if q = 4 then { k with pushes := k.pushes ++ [r] } else { k with pops := k.pops ++ [r] }))

/-- 256 bytes from an address, byte by byte, with their poison mark and class masks. -/
def readEntry (core : Nat) (c : Cmd) (a : Nat) : Nat → State → List Byte → Bool → Nat → El
  | 0, s, bs, poi, cls => .ok s bs poi cls
  | n + 1, s, bs, poi, cls => match readEl s core c (a + bs.length) 1 with
    | .ok s1 b p k => readEntry core c a n s1 (bs ++ b) (poi || p) (cls ||| k)
    | x => x

def execStagePushFromMemory (core id : Nat) (s : State) : Out :=
  stageStart core id 4 1 (fun s c =>
    match readEntry core c (bodyA c.words 1) 256 s [] false 0 with
    | .ok s1 bs poi k => .inr (s1, ({
        wid := c.wid, cmd := some (core, id), entry := bs, poison := poi, cls := k } : SqReq))
    | x => .inl x) s

def execStageClose (core id : Nat) (s : State) : Out :=
  stageStart core id 4 2 (fun s c => .inr (s, ({
        wid := c.wid, cmd := some (core, id), isClose := true } : SqReq))) s

def execStagePopToMemory (core id : Nat) (s : State) : Out :=
  stageStart core id 5 1 (fun s c =>
    let ps := (List.range 256).map (fun k => (bodyA c.words 1 + k, engPlace s c (bodyA c.words 1 + k) .write))
    match ps.findSome? (fun p => match p.2 with | .error k => some (xlFault k p.1) | .ok _ => none) with
    | some k => .inl (.fault k)
    | none => .inr (s, ({
        wid := c.wid, cmd := some (core, id)
        pieces := ps.filterMap (fun p => match p.2 with | .ok x => some (x.loc, 1, p.1) | .error _ => none) } : SqReq))) s

/-! ## Landing (09 R244; 08 R195; 10 R266) -/

/-- One raise of a scratchpad line is undone; at 0 the line is present: its monitors are hit (04 R116) and the accesses that wait
for it go on. -/
def lowerLine (s : State) (l : Nat × Nat) : State :=
  let s1 := s.modTeam l.1 (fun t => { t with pending := AMap.set 0 t.pending l.2 (t.pending.get 0 l.2 - 1) })
  if (s1.tm l.1).pending.get 0 l.2 = 0 then
    (s1.hitLines [.scr l.1 (l.2 * 128)]).wake (fun p => decide (p = .presence l.1 l.2))
  else s1

/-- A line of a primary copy, and the same line of the secondary (14 R395). -/
def mirrors (s : State) (l : Nat × Nat) : List (Nat × Nat) :=
  l :: (match (s.tm l.1).secondary with | some t => [(t, l.2)] | none => [])

/-- Set the poison marks of what an element writes, and the class mask of its frame. -/
def landMarks (s : State) (lid : Nat) (d : Land) : State :=
  let n := d.bytes.length
  match d.loc with
  | .mem pa =>
    let f := pa / 2 ^ 16
    { s with
      poison := if d.poison then (sectors pa n).foldl (fun m k => AMap.set false m k true) s.poison else s.poison
      msys := { s.msys with classes := AMap.set 0 s.msys.classes f (s.msys.classes.get 0 f ||| d.cls) } }
  | .stg page off => s.modWriting lid page (fun v => { v with
      cls := v.cls ||| d.cls
      poison := if d.poison then (sectors off n).foldl (fun m k => AMap.set false m k true) v.poison else v.poison })
  | _ => s

/-- The bytes of an element reach their place. What goes to another package hits monitors alone here, and is under way there until it is
answered; what goes to a discarded launch's pages or to a team that is gone changes nothing. -/
def landBytes (s : State) (core : Nat) (c : Cmd) (d : Land) : State :=
  if isFar s d.loc then
    sendEng ((s.noteWrite (tagW c.wid) d.loc).hitLines (linesOf d.loc d.bytes.length)) core c (.eng c.id) d.loc d.bytes.length d.loc.num
  else match d.loc with
    | .scr t off =>
      if (s.tm t).fin then s
      else
        let s1 := s.writeNow c.tid 3 d.loc d.bytes
        match (s.tm t).secondary with
        | some t2 => s1.writeNow c.tid 3 (.scr t2 off) d.bytes
        | none => s1
    | .stg _ _ => if cmdDead s c then s else landMarks (s.writeNow c.tid 3 d.loc d.bytes) (cmdLid s c) d
    | _ => landMarks (s.writeNow c.tid 3 d.loc d.bytes) (cmdLid s c) d

/-- An element may not land yet: its page is moving, or an earlier element of a scatter goes to its place (R268). -/
def landWaits (s : State) (c : Cmd) (idx : Nat) (d : Land) : Bool :=
  (match d.loc with | .scr _ _ => false | l => (s.waitOf l).isSome) ||
  (c.q == 1 && c.lands.any (fun e => decide (e.1 < idx) && e.2.loc == d.loc))

/-- The commands whose bytes are credited (Table 10.3): a chunk request and the stage-queue commands credit none. -/
def credits (c : Cmd) : Bool := decide (c.q < 3)

def execByteLanding (core id idx : Nat) (s : State) : Out :=
  match cmdAt s core id with
  | none => .next s
  | some c => match c.lands.find? (fun e => e.1 == idx) with
    | none => .next s
    | some (_, d) =>
      if landWaits s c idx d then .next s
      else
        let lid := cmdLid s c
        match (match d.loc with
          | .stg page _ => if cmdDead s c then Stg.ok s else s.openVersion lid page
          | _ => .ok s) with
        | .park _ => .next s
        | .exhausted page => .next (s.exhaust lid page)
        | .ok s1 =>
          let n := d.bytes.length
          let s2 := landBytes s1 core c d
          let s3 := if hRel (cmdHdr c) || !credits c then s2
            else match barrierLoc s2 c with
              | some b => if isFar s2 b then sendEng (s2.hitLines [b.line]) core c (.eng id) b 8 b.num else bbCredit s2 lid b n
              | none => s2
          let line := match d.loc with | .scr t off => some (t, off / 128) | _ => none
          let rest := c.lands.filter (fun e => e.1 != idx)
          let last (l : Nat × Nat) : Bool := c.lines.contains l && !rest.any (fun e => match e.2.loc with
            | .scr t off => (t, off / 128) == l
            | _ => false)
          let s4 := modCmd s3 core id (fun x => { x with
            lands := rest, credited := if credits c then x.credited + n else x.credited, lines := x.lines.filter (fun l => !(some l == line && last l)) })
          let s5 := match line with
            | some l => if last l then (mirrors s l).foldl lowerLine s4 else s4
            | none => s4
          .next (settleClosing s5)

/-! ## Completion (R266) -/

/-- The wave and, in paired execution, the same wave of the secondary. -/
def copiesOf (s : State) (wid : Nat) : List Nat :=
  wid :: (match (s.tm (tagW wid)).secondary with | some t => [t * 32 + widxW wid] | none => [])

/-- The writes of a command have all landed: with a release flag its credits come now, and lines that it raised and did not reach
are set. -/
def giveCredits (s : State) (core id : Nat) (c : Cmd) : State :=
  if c.credit then s
  else
    let s1 := if hRel (cmdHdr c) then (match barrierLoc s c with
        | some b => if isFar s b then sendEng (s.hitLines [b.line]) core c (.eng id) b 8 b.num else if c.credited = 0 then s else bbCredit s (cmdLid s c) b c.credited
        | none => s) else s
    (c.lines.flatMap (mirrors s1)).foldl lowerLine (modCmd s1 core id (fun x => { x with credit := true, lines := [] }))

/-- A command whose writes have all landed gives its credits and then completes with its results and its completion word. While
there is no room for these they wait at the core, and the command still counts as in flight (R266). A release flag gives the credits
once its writes at other packages and its pusher's earlier far accesses have been answered (09 R243), and no command completes before
its own operations there have been (14 R402). -/
def execEngineCommandComplete (core id : Nat) (s : State) : Out :=
  match cmdAt s core id with
  | none => .next s
  | some c =>
    let h := cmdHdr c
    let ws := copiesOf s c.wid
    if !c.started || c.fault.isSome || !c.lands.isEmpty || c.waiting ||
      (hRel (cmdHdr c) && !c.credit && !(farDone s c && remoteDone s core id)) then .next s
    else
      let s1 := giveCredits s core id c
      if !remoteDone s1 core id then .next s1
      else if !cmdDead s c && ws.any (fun w => !s.popRoom w c.q c.result.length || (hCpl h && !s.popRoom w 7 1)) then .next s1
      else
        let s2 := delCmd s1 core id
        let word : Word := BitVec.ofNat 32 (hTag h * 2 ^ 24 + c.q * 2 ^ 20)
        let s3 := if cmdDead s c then s2
          else ws.foldl (fun s w =>
            let t := if c.result.isEmpty then s else s.deliver w c.q c.result
            if hCpl h then t.deliver w 7 [word] else t) s2
        .next s3.settleMoves

/-! ## Faults of accepted commands (R285, R286) -/

/-- A thread that waits leaves its wait to take a fault: its instruction is issued again later. -/
def unparkFor (s : State) (tid : Nat) : State :=
  let t := s.th tid
  match t.park with
  | .presence _ _ =>
    match s.held.find? (fun a => a.tid == tid) with
    | some a =>
      let s1 := s.modThread tid (fun t => { t with park := .none, pc := a.pc, inTable := false })
      { s1 with
        held := s1.held.filter (fun b => b.tid != tid)
        vres := s1.vres.filter (fun r => a.vres != some (r.core, r.id)) }
    | none => s.modThread tid (fun t => { t with park := .none })
  | .bbwait _ _ _ _ =>
    let s1 := s.modThread tid (fun t => { t with park := .none })
    { s1 with msys := { s1.msys with tags := s1.msys.tags.filter (fun g => !(g.acc.tid == tid && g.acc.op == .bbwait)) } }
  | .mwait _ _ _ => s.modThread tid (fun t => { t with park := .none, pc := (t.pc + 2 ^ 52 - 8) % 2 ^ 52, inTable := false })
  | .sq lid q =>
    let drop (rs : List SqReq) : List SqReq :=
      (rs.map (fun r => { r with tids := r.tids.filter (· != tid) })).filter (fun r => !r.tids.isEmpty || r.cmd.isSome || r.isClose)
    modSq (s.modThread tid (fun t => { t with park := .none })) lid q (fun k => { k with pushes := drop k.pushes, pops := drop k.pops })
  | _ => s

/-- A command that cannot go on faults once what it had written has landed: its credits are added back, its lines stay
absent, and its pusher holds the fault. -/
def execEngineFault (core id : Nat) (s : State) : Out :=
  match cmdAt s core id with
  | none => .next s
  | some c => match c.fault with
    | none => .next s
    | some (code, sub, addr) =>
      let late := code = 0x2A || code = 0x2B
      if !c.lands.isEmpty then .next s
      else
        let lid := cmdLid s c
        let s1 := if hRel (cmdHdr c) then s
          else match barrierLoc s c with
            | some b => if isFar s b || c.credited = 0 then s else bbAdd s lid b (BitVec.ofNat 64 c.credited) false
            | none => s
        let s2 := (c.lines ++ c.short).foldl (fun s l => s.modTeam l.1 (fun t => { t with stuck := AMap.set 0 t.stuck l.2 (t.stuck.get 0 l.2 + 1) }))
          (settleClosing (delCmd s1 core id))
        let hf : HeldFault := {
          id := id, code := code, sub := if late then 0 else sub, info := if late then BitVec.ofNat 32 sub else 0, ad := BitVec.ofNat 64 addr, tag := hTag (cmdHdr c), pc := c.pc, rpc := c.rpc
          rcount := c.rcount, rdepth := c.rdepth, words := c.words }
        let s3 := if cmdDead s c then s2
          else if (s.th c.tid).live then
            unparkFor (s2.modThread c.tid (fun t => { t with faults := insertBy HeldFault.id hf t.faults })) c.tid
          else if (s.la lid).isChecked then s2.modLaunch lid (fun l => { l with orphan := true })
          else s2.abortLaunch lid 0xC6 [BitVec.ofNat 32 (hTag (cmdHdr c)), BitVec.ofNat 32 sub, addrLo c.pc, addrHi c.pc]
        .next s3.settleMoves

/-- The formed group of a thread that leaves it dissolves: groups are never split (04 R89, log 57). -/
def ungroup (s : State) (tid : Nat) : State :=
  s.modCore (s.coreOf tid) (fun k => { k with groups := k.groups.filter (fun g => !g.members.contains tid) })

/-- The pusher takes the oldest held fault at its next instruction boundary (R285; 14 R378). -/
def execEngineFaultTaken (tag wave lane : Nat) (s : State) : Out :=
  let tid := tidAt tag wave lane
  let t := s.th tid
  match t.faults with
  | [] => .next s
  | f :: rest =>
    if !t.live || t.park != .none || !(s.tm tag).running then .next s
    else
      let s1 := (ungroup s tid).modThread tid (fun t => { t with faults := rest })
      let ti : TrapInfo := {
        code := f.code, sub := f.sub, ad := f.ad, mask := State.laneMask [tid]
        info := if isUserTrap f.code then BitVec.ofNat 32 f.tag else f.info
        words := f.words }
      .next (s1.takeTrap [tid] ti t.pc t.pc (s.clkOf (s.coreOf tid) + 4) (some f))

/-! ## Stage queues (R283, R294) -/

/-- Threads at a stage-queue instruction go on behind it. -/
def pastSq (s : State) (r : SqReq) : State :=
  s.modThreads r.tids (fun _ t => { t with park := .none, pc := (t.pc + r.len) % 2 ^ 52, inTable := false })

/-- The requester of a push or a close is done. -/
def sqDone (s : State) (r : SqReq) : State :=
  match r.cmd with
  | some (c, id) => modCmd s c id (fun x => { x with waiting := false })
  | none => pastSq s r

/-- A push to a closed queue faults with cause 4. -/
def sqFault (s : State) (r : SqReq) : State :=
  match r.cmd with
  | some (c, id) => modCmd s c id (fun x => { x with waiting := false, fault := some (cmdFault 4) })
  | none =>
    let lead := r.tids.headD 0
    let pc := (s.th lead).pc
    (s.modThreads r.tids (fun _ t => { t with park := .none })).takeTrap r.tids { code := 0x14, sub := 4, mask := State.laneMask r.tids } pc
      ((pc + r.len) % 2 ^ 52) (s.clkOf (s.coreOf lead) + 4) none

/-- The push list is served until a push finds the queue full, or waits for a part of its entry that another package holds. -/
def servePushes : Nat → State → Nat → Nat → State
  | 0, s, _, _ => s
  | n + 1, s, lid, q =>
    let k := sqOf s lid q
    match k.pushes with
    | [] => s
    | h :: rest =>
      let s1 := modSq s lid q (fun k => { k with pushes := rest })
      if h.isClose then servePushes n (sqDone (modSq s1 lid q (fun k => { k with closed := true })) h) lid q
      else if k.closed then servePushes n (sqFault s1 h) lid q
      else if h.tag = 0 && k.entries.length < (s.la lid).sqDepth q then
        servePushes n (sqDone (modSq s1 lid q (fun k => { k with entries := k.entries ++ [(h.entry, h.poison, h.cls)] })) h) lid q
      else s

/-- Status and entry for a pop, with the entry's poison mark and class masks: `none` as entry is status 0. `none` as answer: its memory
is not writable yet. The marks go to memory with the bytes (16 R433); a pop to registers consumes the poison (08 R203, log 71). -/
def givePop (s : State) (r : SqReq) (e : Option (List Byte × Bool × Nat)) : Option State :=
  match r.cmd with
  | some (c, id) =>
    some (modCmd s c id (fun x => { x with
      waiting := false
      result := [if e.isSome then 1 else 0]
      lands := match e with
        | none => []
        | some (bs, poi, cls) => r.pieces.zipIdx.map (fun (p, k) =>
            (k, { loc := p.1, bytes := (bs.drop k).take 1, poison := poi, cls := cls })) }))
  | none =>
    let wrote : Option State := match e, r.reg with
      | none, _ => some s
      | some (bs, poi, _), some n =>
        let s1 := r.tids.foldl (fun s t =>
          (s.setVreg t n (wordOfBytes bs (2 * laneOf t))).setVreg t (n + 1) (wordOfBytes bs (2 * laneOf t + 1))) s
        some (if poi then s1.setInterval (tagW r.wid) bPoison else s1)
      | some (bs, poi, cls), none =>
        let t := r.tids.headD (r.wid * 32)
        if r.pieces.any (fun p => (s.waitOf p.1).isSome) then none
        else match s.openPieces t r.pieces with
          | .ok s1 => some ((splitBytes r.pieces bs).foldl (fun s p =>
              let s2 := s.writePiece t 0 p.1.1 p.2 p.1.2.2
              if (s.isPaired (tagOf t) && isOut p.1.1) || isFar s p.1.1 then s2
              else landMarks s2 (s.lidOf t) { loc := p.1.1, bytes := p.2, poison := poi, cls := cls }) s1)
          | .exhausted page => some (s.exhaust (s.lidOf t) page)
          | .park _ => none
    wrote.map (fun s1 =>
      if (s1.tm (tagW r.wid)).fin then s1
      else pastSq ((r.tids.foldl (fun s t => s.setPred t (BitVec.ofNat 4 r.pd) e.isSome) s1).modCore (s1.wv r.wid).core Core.acquire) r)

/-- The pop list is served while entries stand; a closed and empty queue answers every pop with status 0. -/
def servePops : Nat → State → Nat → Nat → State
  | 0, s, _, _ => s
  | n + 1, s, lid, q =>
    let k := sqOf s lid q
    match k.pops with
    | [] => s
    | h :: rest =>
      match k.entries with
      | e :: es =>
        (match givePop (modSq s lid q (fun k => { k with pops := rest, entries := es })) h (some e) with
         | some s1 => servePops n s1 lid q
         | none => s)
      | [] =>
        if k.closed then
          (match givePop (modSq s lid q (fun k => { k with pops := rest })) h none with
           | some s1 => servePops n s1 lid q
           | none => s)
        else s

/-- The front die serves a queue until its lists stand still. -/
def serveQueue : Nat → State → Nat → Nat → State
  | 0, s, _, _ => s
  | n + 1, s, lid, q =>
    let k := sqOf s lid q
    let s1 := servePops (k.pops.length + 1) (servePushes (k.pushes.length + 1) s lid q) lid q
    if (sqOf s1 lid q).pushes.length = k.pushes.length && (sqOf s1 lid q).pops.length = k.pops.length then s1
    else serveQueue n s1 lid q

def execStageQueueServe (lnch q : Nat) (s : State) : Out :=
  let k := sqOf s lnch q
  .next (serveQueue (k.pushes.length + k.pops.length + 1) s lnch q)

end Sys2Proof.Machine
end

