-- ==== Sys2Proof/Machine/Queues.lean ====
section
/-!
DEFINITION. Sys2Proof/Machine/Queues.lean: tenants, user queues and their commands (15 R408, R410, R413-R415): descriptors,
reading, rejecting and completing a command, the addresses of commands, the front die's reads and writes of memory, and the
copies of `COPYQ` with the buckets of 16 R434.
-/

namespace Sys2Proof.Machine

open Sys2Proof State

/-! ## Tenants (R408) -/

def tenantOf (s : State) (t : Nat) : Tenant := s.front.tenants.get {} t
/-- Fields of a tenant record in effect (Table 15.1). -/
def tenantBits (s : State) (t hi lo : Nat) : Nat := bitsOf (tenantOf s t).eff.toNat hi lo
def prioMax (s : State) (t : Nat) : Nat := min 3 (tenantBits s t 146 144)
/-- The watchdog limit in ms. -/
def wdog (s : State) (t : Nat) : Nat := let w := tenantBits s t 143 128; if w = 0 then 10 else w

/-- Is a record valid? Tenant 0 is the driver itself, and alone writes records, so it needs no VALID bit (log 14). -/
def tenantValid (t : Nat) (b : BitVec 256) : Bool :=
  let x := b.toNat
  (t == 0 || bitAt x 0) && bitsOf x 255 192 == 0 && bitsOf x 119 116 == 0 && bitsOf x 63 1 == 0 &&
  [0, 1, 2, 4, 8].contains ((List.range 8).filter (fun k => bitAt x (120 + k))).length

/-- A record as it is written comes into effect at a context boundary of its tenant. -/
def takeRecord (s : State) (t : Nat) : State :=
  { s with front := { s.front with
      tenants := AMap.set {} s.front.tenants t { (tenantOf s t) with eff := (tenantOf s t).bits } } }

/-- The accepted feature set. -/
def accepted (s : State) : Nat := s.front.feataccLo

/-! ## Queue descriptors (R410, Table 15.2) -/

/-- Does queue `q` exist? -/
def hasQueue (s : State) (q : Nat) : Bool := decide (q < s.front.qtn) && decide (q < 65536)
def descAddr (s : State) (q : Nat) : Nat := s.localPa (s.front.qtbase + 64 * q)
def desc (s : State) (q : Nat) : Nat := s.rdMem (descAddr s q) 64
def dWidx (d : Nat) : Nat := bitsOf d 191 160
def dRidx (d : Nat) : Nat := bitsOf d 159 128
def dTenant (d : Nat) : Nat := bitsOf d 127 120
def dPrio (d : Nat) : Nat := bitsOf d 119 118
def dLogsz (d : Nat) : Nat := bitsOf d 117 113
def dState (d : Nat) : Nat := bitsOf d 112 111
def dBase (d : Nat) : Nat := bitsOf d 51 6 * 64
/-- What makes a queue enter ERROR when it is mapped. -/
def dBad (d : Nat) : Bool :=
  bitsOf d 511 192 != 0 || bitsOf d 110 52 != 0 || bitsOf d 5 0 != 0 || decide (dLogsz d < 4) || decide (16 < dLogsz d)

/-- Write bytes at a physical address of the package for the front die: what the base die corrects as it merges them is counted (08
R201), and the monitors on their lines are hit. -/
def frontStore (s : State) (a : Nat) (bs : List Byte) : State :=
  ((s.countMerge (a / 128) s.ecc a bs.length).writeMem a bs).hitLines (linesOf (.mem a) bs.length)

/-- Write a field of a descriptor. -/
def setDesc (s : State) (q hi lo v : Nat) : State :=
  let d := desc s q
  frontStore s (descAddr s q) (leBytes 64 (d - bitsOf d hi lo * 2 ^ lo + v % 2 ^ (hi - lo + 1) * 2 ^ lo))
def setWidx (s : State) (q v : Nat) : State := setDesc s q 191 160 v
def setRidx (s : State) (q v : Nat) : State := setDesc s q 159 128 v
def setQState (s : State) (q v : Nat) : State := setDesc s q 112 111 v

/-- The slot that a queue is mapped on. -/
def slotOf (s : State) (q : Nat) : Option Nat := ((s.front.slots.filter (fun e => e.2.queue == q)).head?).map Prod.fst

def setPending (s : State) (q : Nat) (b : Bool) : State :=
  { s with front := { s.front with pending := AMap.set false s.front.pending q b } }

/-! ## Commands in flight (R414) -/

/-- The commands of a queue that have started. -/
def qcmds (s : State) (q : Nat) : List QCmd :=
  match slotOf s q with
  | some k => match AMap.find? s.front.slots k with | some x => x.cmds | none => []
  | none => s.front.orphans.get [] q
def modQcmds (s : State) (q : Nat) (f : List QCmd → List QCmd) : State :=
  match slotOf s q with
  | some _ => { s with front := { s.front with
      slots := s.front.slots.map (fun e => if e.2.queue = q then (e.1, { e.2 with cmds := f e.2.cmds }) else e) } }
  | none => { s with front := { s.front with orphans := AMap.set [] s.front.orphans q (f (s.front.orphans.get [] q)) } }

/-- A command whose launch has been aborted is complete, without an event of its own. -/
def inFlight (s : State) (c : QCmd) : Bool := !(c.lid != 0 && (s.la c.lid).st == .aborted)
def liveCmds (s : State) (q : Nat) : List QCmd := (qcmds s q).filter (inFlight s)

/-- Teams of a queue's launches that are pre-empted. -/
def stoppedTeams (s : State) (q : Nat) : List Nat :=
  (s.teams.filter (fun e => !e.2.running && !e.2.fin && e.2.moveTo.isNone && (s.la e.2.lid).queue == q &&
    ((s.la e.2.lid).st == .running || (s.la e.2.lid).st == .ending))).map Prod.fst

def cWord (c : QCmd) (k : Nat) : Nat := (c.words.getD k 0).toNat
def cAddr (c : QCmd) (k : Nat) : Nat := addrOf (cWord c k) (cWord c (k + 1))
def cVal (c : QCmd) (k : Nat) : DWord := BitVec.ofNat 64 (cWord c k + 2 ^ 32 * cWord c (k + 1))
def cTag (c : QCmd) : Nat := bitsOf (cWord c 0) 31 24
def cEvt (c : QCmd) : Bool := bitAt (cWord c 0) 18
def cSer (c : QCmd) : Bool := bitAt (cWord c 0) 17
def cCmd (c : QCmd) : Nat := bitsOf (cWord c 0) 7 0

def dropCmd (s : State) (q idx : Nat) : State := modQcmds s q (fun cs => cs.filter (fun c => c.idx != idx))
def modQcmd (s : State) (q idx : Nat) (f : QCmd → QCmd) : State :=
  modQcmds s q (fun cs => cs.map (fun c => if c.idx = idx then f c else c))

/-- What keeps a queue's pending bit set (R410): commands to read, commands in flight, or pre-empted teams. -/
def hasWork (s : State) (q : Nat) : Bool :=
  let d := desc s q
  dWidx d != dRidx d || !(liveCmds s q).isEmpty || !(stoppedTeams s q).isEmpty
def samplePending (s : State) (q : Nat) : State := setPending s q (hasWork s q)

/-- A command completes, with its event where EVT is set (R413); its queue's pending bit follows (R410). -/
def completeCmd (s : State) (q : Nat) (c : QCmd) (iovf : Bool) : State :=
  let s1 := samplePending (dropCmd s q c.idx) q
  if cEvt c then s1.raiseEvent (s1.eventWords (cTag c) c.tenant 0 1 q c.lid iovf []) else s1

/-- A slot is given up; its commands in flight stay with their queue. -/
def freeQSlot (s : State) (k : Nat) : State :=
  match AMap.find? s.front.slots k with
  | none => s
  | some x => { s with front := { s.front with
      slots := s.front.slots.erase k
      orphans := AMap.set [] s.front.orphans x.queue x.cmds } }

/-- The words of a cause of Table 15.11. -/
structure Reject where
  cause : Nat
  words : List Word := []

/-- A command is rejected: no effect, its queue in ERROR, an event of kind 0x02; commands that have started run on (R415). -/
def rejectCmd (s : State) (q : Nat) (c : QCmd) (r : Reject) : State :=
  let s1 := setQState (dropCmd s q c.idx) q 2
  let s2 := match slotOf s1 q with
    | some k => freeQSlot s1 k
    | none => s1
  let s3 := samplePending s2 q
  s3.raiseEvent (s3.eventWords (cTag c) c.tenant r.cause 2 q 0 false r.words)

/-! ## The form of a command (Tables 15.4, 15.5) -/

/-- The last word that a command uses. -/
def lastWord (cmd : Nat) : Nat :=
  match cmd with
  | 1 => 6
  | 2 => 7
  | 3 => 5
  | 4 => 7
  | 5 => 5
  | 6 => 4
  | _ => 0

/-- High words of addresses. -/
def highWords (cmd : Nat) : List Nat :=
  match cmd with
  | 1 => [2, 4]
  | 2 => [2]
  | 3 => [2]
  | 4 => [2, 4, 7]
  | 5 => [2, 5]
  | 6 => [2]
  | _ => []

/-- Words with an alignment of their own: word and alignment (R266, R275, R414, R416). -/
def alignedWords (c : QCmd) : List (Nat × Nat) :=
  match cCmd c with
  | 1 => [(1, 256)]
  | 2 => [(1, if cWord c 7 = 4 then 64 else 8)]
  | 3 => if cWord c 5 = 2 then [(1, 64)] else []
  | 4 => [(1, 4), (3, 4), (5, 4), (6, 64)]
  | 6 => [(1, 64)]
  | _ => []

/-- Is a word of a command offending? -/
def badWord (c : QCmd) (k : Nat) : Bool :=
  let w := cWord c k
  let cmd := cCmd c
  if k = 0 then bitsOf w 23 19 != 0 || bitsOf w 16 8 != 0 || cmd == 0 || decide (7 < cmd)
  else
    (decide (lastWord cmd < k) && w != 0) || ((highWords cmd).contains k && bitsOf w 31 20 != 0) ||
    (cmd == 2 && k == 7 && bitsOf w 31 3 != 0) || (cmd == 3 && k == 5 && bitsOf w 31 2 != 0) ||
    (alignedWords c).any (fun a => a.1 == k && w % a.2 != 0)

/-- Cause 0x80 with the index of the first offending word. -/
def formReject (c : QCmd) : Option Reject :=
  match (List.range 16).find? (badWord c) with
  | some k => some ⟨0x80, [BitVec.ofNat 32 k]⟩
  | none => none

/-- Start the next command of a slot's queue, if it is one of kind `cmd`, may start now, and `go` takes it (R414, R422). -/
def startCmd (slot cmd : Nat) (go : Nat → QCmd → State → Option State) (s : State) : Out :=
  match AMap.find? s.front.slots slot with
  | none => .next s
  | some x =>
    let q := x.queue
    let d := desc s q
    let live := liveCmds s q
    let a := s.localPa (dBase d + 64 * (dRidx d % 2 ^ dLogsz d))
    let c : QCmd := {
      idx := dRidx d, words := (List.range 16).map (fun k => BitVec.ofNat 32 (s.rdMem (a + 4 * k) 4)), tenant := dTenant d }
    if dWidx d = dRidx d || 256 ≤ s.front.events.length || live.any (fun x => cCmd x == 2) ||
      ((cSer c || cCmd c == 3) && !live.isEmpty) then .next s
    else
      let s1 := modQcmds (setRidx s q (dRidx d + 1)) q (fun _ => live ++ [c])
      match formReject c with
      | some r => .next (rejectCmd s1 q c r)
      | none => if cCmd c = cmd then .next ((go q c s1).getD s) else .next s

/-! ## The addresses of commands (R414, R415, R423, R466) -/

/-- Packages marked outside count as reachable: only the destination of a `COPYQ` reaches them. -/
def withOutside (s : State) : State :=
  { s with checker := { s.checker with
      peers := s.checker.peers.map (fun e => (e.1, if e.2.mark = .outside then { e.2 with mark := .member } else e.2)) } }

/-- The physical address and the entry that an address of a tenant's space walks to; `caps` are the sealed regions that an entry may
name. -/
def spaceWalk (s : State) (tenant caps va : Nat) : Except Nat (Nat × Nat) :=
  match plainCause va with
  | some c => .error c
  | none => (s.walkRoot (accepted s) caps (tenantBits s tenant 115 64) va).map (fun e => (bitsOf e.1 51 16 * 2 ^ 16 + va % 2 ^ e.2, e.1))

/-- Where an address lies in a tenant's space, for a read or a write of the front die (08 R186-R188, 01 R466). The rule's list of what
the front die writes in host memory names a `COPYQ` destination alone of the command addresses; a `SIGNAL`, a `BARQ`, a status word
or a launch's signal is let through to it too (log 100). -/
def spacePlace (s : State) (tenant caps va : Nat) (write : Bool) : Except Nat Place :=
  match spaceWalk s tenant caps va with
  | .error c => .error c
  | .ok (pa, pte) =>
    let lo := pa % 2 ^ 40
    if s.checkerFrame pa then .error cUnmapped
    else if 0xE100000000 ≤ lo && lo < 0xE100010000 then .error cPerm
    else if write && !bitAt pte 5 then .error cReadOnly
    else
      let p := s.placeAt pa pte
      if s.offVault va p.loc then .error cVault else .ok p

/-- Where an address of a command lies: a command reaches no sealed region. -/
def cmdPlace (s : State) (tenant va : Nat) (write : Bool) : Except Nat Place := spacePlace s tenant 0 va write
/-- Where an address of a launch's record lies, for the reads of its checks, whatever sealed region it is in. -/
def recPlace (s : State) (tenant va : Nat) : Except Nat Place := spacePlace s tenant (2 ^ 256 - 1) va false

/-- Cause 0x82: an address and its cause. -/
def xlReject (va cause : Nat) : Reject := ⟨0x82, [addrLo va, addrHi va, BitVec.ofNat 32 cause]⟩
/-- Cause 0x88: the command word and its address. -/
def stgReject (word va : Nat) : Reject := ⟨0x88, [BitVec.ofNat 32 word, addrLo va, addrHi va]⟩

/-- The place that a command writes, whose address stands at a word: it must translate, and not to a staging page. -/
def writePlace (s : State) (c : QCmd) (word va : Nat) : Except Reject Place :=
  match cmdPlace s c.tenant va true with
  | .error k => .error (xlReject va k)
  | .ok p => if bitAt p.pte 4 then .error (stgReject word va) else .ok p
/-- A barrier object is on no UO page (10 R275). -/
def notUo (va : Nat) (r : Except Reject Place) : Except Reject Place :=
  r.bind (fun p => if p.ord = 2 then .error (xlReject va cPerm) else .ok p)
/-- The place of a barrier object that a command writes. -/
def objectPlaceQ (s : State) (c : QCmd) (word va : Nat) : Except Reject Place := notUo va (writePlace s c word va)
def readPlace (s : State) (c : QCmd) (va : Nat) : Except Reject Place :=
  match cmdPlace s c.tenant va false with
  | .error k => .error (xlReject va k)
  | .ok p => .ok p

/-- The bytes that a command writes at an address, each at its own place: an address need not be aligned (log 17), and may lie at a
page's end. -/
def bytePlaces (s : State) (c : QCmd) (word va n : Nat) : Except Reject (List Loc) :=
  (List.range n).foldr (fun k acc => match writePlace s c word (va + k), acc with
    | .error r, _ => .error r
    | _, .error r => .error r
    | .ok p, .ok l => .ok (p.loc :: l)) (.ok [])

/-- A range split at 64 KiB. -/
def byFrames : Nat → Nat → Nat → List (Nat × Nat)
  | 0, _, _ => []
  | fuel + 1, a, n => if n = 0 then [] else
      let k := min n (2 ^ 16 - a % 2 ^ 16)
      (a, k) :: byFrames fuel (a + k) (n - k)
def chunksOf (a n : Nat) : List (Nat × Nat) := byFrames (n / 2 ^ 16 + 2) a n

/-- The places of the parts of a range, each with its address, or the first fault. -/
def rangePlaces (f : Nat → Except Reject Place) (a n : Nat) : Except Reject (List (Nat × Nat × Place)) :=
  (chunksOf a n).foldr (fun p acc => match f p.1, acc with
    | .error r, _ => .error r
    | _, .error r => .error r
    | .ok x, .ok l => .ok ((p.1, p.2, x) :: l)) (.ok [])

/-! ## The front die's accesses -/

/-- The bytes that the front die reads at a place: of a staging page as a reader that holds no version and does not accept
sealed inputs (R414); what another package holds is free (log 8). `none`: it waits. -/
def frontRead (s : State) (l : Loc) (n : Nat) : Option (State × List Byte) :=
  if isFar s l then some (freeBytes s n)
  else if (s.waitOf l).isSome then none
  else match l with
    | .stg page off => (s.chooseVersion 0 page false false).map (fun v =>
        (s.countFixes v.ecc (page * 2 ^ 16) off n, (List.range n).map (fun k => v.bytes.get 0 (off + k))))
    | .mem pa | .sealed _ pa => some (s.countRead pa n, s.rdBytes 0 l n)
    | l => some (s, s.rdBytes 0 l n)

/-- Bytes that the front die writes at a place; those for another package leave this one. -/
def frontWrite (s : State) (l : Loc) (bs : List Byte) : State :=
  match l with
  | .mem pa => if isFar s l then s else frontStore s pa bs
  | _ => s

/-- Write bytes one by one. -/
def writeEach (s : State) (ls : List Loc) (bs : List Byte) : State := (ls.zip bs).foldl (fun s x => frontWrite s x.1 [x.2]) s
/-- Write a value where a command's word says, if its places can be written still. -/
def writeWord (s : State) (c : QCmd) (word va : Nat) (bs : List Byte) : State :=
  match bytePlaces s c word va bs.length with
  | .ok ls => writeEach s ls bs
  | .error _ => s

/-- An operation of the front die on a barrier object makes no page domain-only: that is for cores and engines (13 R365). -/
def keepDomain (s r : State) : State := { r with msys := { r.msys with domOnly := s.msys.domOnly } }
def frontBbAdd (s : State) (l : Loc) (d : DWord) : State := if isFar s l then s else keepDomain s (bbAdd s 0 l d false)
def frontBbInit (s : State) (l : Loc) (c : DWord) : State := if isFar s l then s else keepDomain s (bbInit s 0 l c)

/-! ## Class buckets (16 R433, R434) -/

/-- The classes of a mask. -/
def classesOf (mask : Nat) : List Nat := (List.range 256).filter (fun r => bitAt mask r)

/-- What a class's bucket holds now, in 10^-9 bytes: at most its burst, refilled at its rate in bytes a second (log 15). -/
def bucketNow (s : State) (r : Nat) : Nat :=
  let x := regionOf s r
  min (x.burst * 10 ^ 9) (x.level + x.rate * (s.time - x.levelAt))

/-- How many of `n` bytes every bucket of a mask holds, in whole words. -/
def roomFor (s : State) (mask n : Nat) : Nat := (classesOf mask).foldl (fun m r => min m (bucketNow s r / 10 ^ 9 / 4 * 4)) n

/-- Charge bytes to the buckets of a mask. -/
def chargeBytes (s : State) (mask n : Nat) : State :=
  (classesOf mask).foldl (fun s r => modRegion s r (fun x => { x with
    level := bucketNow s r - n * 10 ^ 9, levelAt := s.time, passed := if x.stalled then x.passed + n else x.passed })) s

/-- A transfer waits on the buckets of a mask that are too low: an episode of each such class starts and is journalled. -/
def waitBuckets (s : State) (mask : Nat) : State :=
  ((classesOf mask).filter (fun r => decide (bucketNow s r < 4 * 10 ^ 9))).foldl (fun s r =>
    let s1 := modRegion s r (fun x => { x with lastWait := s.time })
    if (regionOf s r).stalled then s1
    else (modRegion s1 r (fun x => { x with stalled := true, passed := 0 })).journalF 0x06 0xFFFF [r, 0]) s

/-- A transfer no longer waits on the classes of a mask. -/
def leaveWait (s : State) (mask : Nat) : State :=
  (classesOf mask).foldl (fun s r => modRegion s r (fun x => { x with lastWait := s.time })) s

/-! ## COPYQ (R414) -/

/-- The newest RELEASED version of a page. -/
def releasedVersion (s : State) (page : Nat) : Option Version :=
  (s.pageOf page).versions.reverse.find? (fun v => v.st == .released)

/-- Does a destination lie in host memory, of this package or of another, or on a package outside the domain? -/
def leavesDomain (s : State) (l : Loc) : Bool :=
  match l with
  | .mem pa =>
    inHostWindow pa || (pa / 2 ^ 40 != s.pkg && decide ((s.checker.peers.get {} (pa / 2 ^ 40)).mark = .outside))
  | _ => false

/-- Places of the source, the destination and the barrier of a `COPYQ`. -/
def copyPlaces (s : State) (c : QCmd) : Except Reject (List (Nat × Nat × Place) × List (Nat × Nat × Place) × Option Place) :=
  match rangePlaces (readPlace s c) (cAddr c 1) (cWord c 5),
    rangePlaces (writePlace (withOutside s) c 3) (cAddr c 3) (cWord c 5),
    (if cAddr c 6 = 0 then .ok none else (objectPlaceQ s c 6 (cAddr c 6)).map some) with
  | .error r, _, _ => .error r
  | _, .error r, _ => .error r
  | _, _, .error r => .error r
  | .ok a, .ok b, .ok o => .ok (a, b, o)

/-- Cause 0x87: the first source that may not leave the domain. Of another package's page its home says whether it may (log 8). -/
def unreleased (s : State) (src : List (Nat × Nat × Place)) : Option Nat :=
  (src.find? (fun p => match p.2.2.loc with
    | .stg page _ => (releasedVersion s page).isNone
    | .mem pa => if isFar s (.mem pa) then !Config.farReleased s.draws (pa / 2 ^ 16) else s.msys.domOnly.get false (pa / 2 ^ 16)
    | _ => false)).map Prod.fst

/-- What the next bytes of a copy read: bytes, poison by word, class mask. -/
def copySource (s : State) (out : Bool) (l : Loc) (n : Nat) : Option (State × List Byte × List Bool × Nat) :=
  let words := (List.range (n / 4)).map (fun k => 4 * k)
  match l with
  | .stg page off =>
    if (s.waitOf l).isSome then none
    else (if out then releasedVersion s page else s.chooseVersion 0 page false false).map (fun v =>
      (s.countFixes v.ecc (page * 2 ^ 16) off n, (List.range n).map (fun k => v.bytes.get 0 (off + k)),
        words.map (fun k => Version.bad v (off + k) 4), v.cls))
  | .mem pa =>
    (frontRead s l n).map (fun x => (x.1, x.2, words.map (fun k => !isFar s l && s.memPoison (pa + k) 4),
      if isFar s l then 0 else s.msys.classes.get 0 (pa / 2 ^ 16)))
  | _ => none

/-- Store the bytes of a copy with their poison marks and class mask; inside the domain the page becomes domain-only. -/
def copyStore (s : State) (l : Loc) (bs : List Byte) (poi : List Bool) (cls : Nat) : State :=
  match l with
  | .mem pa =>
    if isFar s l then s
    else
      let s1 := frontStore s pa bs
      let marks := (poi.zipIdx.filter Prod.fst).map (fun p => (pa + 4 * p.2) / 32)
      let s2 : State := { s1 with poison := marks.foldl (fun m k => AMap.set false m k true) s1.poison }
      if leavesDomain s l then s2
      else { s2 with msys := { s2.msys with
          domOnly := AMap.set false s2.msys.domOnly (pa / 2 ^ 16) true
          classes := AMap.set 0 s2.msys.classes (pa / 2 ^ 16) (s2.msys.classes.get 0 (pa / 2 ^ 16) ||| cls) } }
  | _ => s

/-- The transfer of a queue command that leaves the domain. -/
def egressOf (s : State) (q idx : Nat) : Option Egress := s.checker.egress.find? (fun e => e.queue == q && e.idx == idx)
def setWaitMask (s : State) (q idx mask : Nat) : State :=
  { s with checker := { s.checker with
      egress := s.checker.egress.map (fun e => if e.queue = q && e.idx = idx then { e with mask := mask } else e) } }

/-- A copy waits no more on the classes it waited on. -/
def endWait (s : State) (q idx : Nat) : State := setWaitMask (leaveWait s (((egressOf s q idx).map Egress.mask).getD 0)) q idx 0

/-- A copy becomes egress. -/
def enlist (s : State) (q idx : Nat) : State :=
  { s with checker := { s.checker with
      egress := s.checker.egress ++ [({ id := s.checker.nextEgress, queue := q, idx := idx } : Egress)]
      nextEgress := s.checker.nextEgress + 1 } }
/-- A copy is egress no more. -/
def delist (s : State) (q idx : Nat) : State :=
  { s with checker := { s.checker with egress := s.checker.egress.filter (fun e => !(e.queue == q && e.idx == idx)) } }

/-- Cause 0x87 with its journal entry, for which there must be room. -/
def rejectEgress (s : State) (q : Nat) (c : QCmd) (va : Nat) : Option State :=
  if s.jfull then none else some ((rejectCmd (delist s q c.idx) q c ⟨0x87, [addrLo va, addrHi va]⟩).journalF 0x08 c.tenant [0, va])

/-- Move the bytes of a copy from where it stands on, part by part, until it is complete, waits for a version or a page, or its
buckets are empty; a full journal stalls what they meter. Each part is held to R414 as it stands then: no byte leaves the domain
that may not, though it might have when the copy started (R4, log 75). -/
def copyRun : Nat → State → Nat → QCmd → State
  | 0, s, _, _ => s
  | fuel + 1, s, q, c =>
    match copyPlaces s c with
    | .error _ => s
    | .ok (src, dst, bar) =>
      let at0 := c.copied
      let size := cWord c 5
      if size ≤ at0 then
        let s1 := match bar with
          | some b => frontBbAdd s b.loc (BitVec.ofInt 64 (-(size : Int)))
          | none => s
        completeCmd (delist (endWait s1 q c.idx) q c.idx) q c false
      else
        let a := cAddr c 1 + at0
        let b := cAddr c 3 + at0
        match src.find? (fun p => decide (p.1 ≤ a) && decide (a < p.1 + p.2.1)), dst.find? (fun p => decide (p.1 ≤ b) && decide (b < p.1 + p.2.1)) with
        | some x, some y =>
          let n := min (x.1 + x.2.1 - a) (y.1 + y.2.1 - b)
          let l := x.2.2.loc.add (a - x.1)
          let m := y.2.2.loc.add (b - y.1)
          let out := (egressOf s q c.idx).isSome || leavesDomain s m
          if (s.waitOf m).isSome then s
          else if leavesDomain s m && (unreleased s [(a, n, { x.2.2 with loc := l })]).isSome then (rejectEgress s q c a).getD s
          else match copySource s out l n with
            | none => s
            | some (s1, bs, poi, cls) =>
              let metered := leavesDomain s m && cls != 0
              let k := if metered then (if s.jfull then 0 else roomFor s cls n) else n
              let s2 := if metered then chargeBytes (endWait s1 q c.idx) cls k else s1
              let s3 := copyStore s2 m (bs.take k) (poi.take (k / 4)) cls
              let c' := { c with copied := at0 + k }
              let s4 := modQcmd (if leavesDomain s m && (egressOf s q c.idx).isNone then enlist s3 q c.idx else s3) q c.idx (fun _ => c')
              if k < n then (if s.jfull then setWaitMask s4 q c.idx cls else waitBuckets (setWaitMask s4 q c.idx cls) cls)
              else copyRun fuel s4 q c'
        | _, _ => s

/-- Enough fuel for a copy: two splits a 64 KiB part. -/
def copyFuel (c : QCmd) : Nat := 2 * (cWord c 5 / 2 ^ 16) + 6

/-- A `COPYQ` starts: an address that does not translate or may not be written rejects it, and so does a source that may not
leave the domain. -/
def copyStart (q : Nat) (c : QCmd) (s : State) : Option State :=
  match copyPlaces s c with
  | .error r => some (rejectCmd s q c r)
  | .ok (src, dst, _) =>
    if dst.any (fun p => leavesDomain s p.2.2.loc) then
      match unreleased s src with
      | some va => rejectEgress s q c va
      | none => some (copyRun (copyFuel c) (enlist s q c.idx) q c)
    else some (copyRun (copyFuel c) s q c)

def execCopyq (slot : Nat) (s : State) : Out := startCmd slot 4 copyStart s

/-! ## Reads by packages outside the domain (13 R365, 16 R433, R434) -/

/-- What a package outside the domain reads of a part of one frame, or a refusal. -/
def outsideFrame (s : State) (pa n : Nat) : Option LinkPart :=
  let f := pa / 2 ^ 16
  if s.isStaging f then (releasedVersion s f).map (fun v => stagedPart v (pa % 2 ^ 16) n)
  else if s.msys.domOnly.get false f then none
  else some { bytes := (List.range n).map (fun k => s.byteAt (pa + k)), poison := s.memPoison pa n, cls := s.msys.classes.get 0 f }

def modLinkReads (s : State) (f : List LinkRead → List LinkRead) : State :=
  { s with checker := { s.checker with linkReads := f s.checker.linkReads } }

/-- The parts of a read pass their buckets in order, and then its answer leaves; where a bucket is empty it waits, and while the journal
is full. -/
def passLink (r : LinkRead) : List (Nat × Nat) → Nat → State → State
  | [], _, s => sendOut (modLinkReads s (fun l => l.filter (fun x => x.id != r.id))) r.ans
  | (cls, n) :: rest, mask, s =>
    if cls = 0 then passLink r rest mask s
    else
      let k := if s.jfull then 0 else roomFor s cls n
      let s1 := chargeBytes (leaveWait s mask) cls k
      if n ≤ k then passLink r rest 0 s1
      else
        let s2 := modLinkReads s1 (fun l => l.map (fun x => if x.id = r.id then { x with left := (cls, n - k) :: rest, mask := cls } else x))
        if s.jfull then s2 else waitBuckets s2 cls

/-- A read that is allowed begins to pass. -/
def startLink (s : State) (ans : LinkAns) (parts : List LinkPart) : State :=
  let r : LinkRead := { id := s.checker.nextEgress, ans := ans, left := parts.map (fun p => (p.cls, p.bytes.length)) }
  passLink r r.left 0 { s with checker := { s.checker with linkReads := s.checker.linkReads ++ [r], nextEgress := s.checker.nextEgress + 1 } }

/-- R434: a transfer that waits goes on as refill allows, a copy or a link read. -/
def execEgressTransfer (id : Nat) (s : State) : Out :=
  match s.checker.egress.find? (fun e => e.id == id), s.checker.linkReads.find? (fun r => r.id == id) with
  | some e, _ => match (qcmds s e.queue).find? (fun c => c.idx == e.idx) with
    | some c => .next (copyRun (copyFuel c) s e.queue c)
    | none => .next s
  | none, some r => .next (passLink r r.left r.mask s)
  | none, none => .next s

/-- The masks of the classes that transfers wait on. -/
def waitMasks (s : State) : List Nat := s.checker.egress.map Egress.mask ++ s.checker.linkReads.map LinkRead.mask

/-- An episode of a class ends once no transfer of it has waited for 100 µs; its end is journalled with the bytes passed. -/
def execStallEpisodeEnd (cls : Nat) (s : State) : Out :=
  let x := regionOf s cls
  if x.stalled && !s.jfull && decide (x.lastWait + 100000 ≤ s.time) && (waitMasks s).all (fun m => !bitAt m cls) then
    .next ((modRegion s cls (fun x => { x with stalled := false })).journalF 0x07 0xFFFF [cls, x.passed])
  else .next s

/-- Copies that wait for a version or for a page that moves try again (09 R253). -/
def retryCopies (s : State) : State :=
  let qs := ((s.front.slots.map (fun e => e.2.queue)) ++ s.front.orphans.map Prod.fst).dedup
  qs.foldl (fun s q => ((qcmds s q).filter (fun c => cCmd c == 4)).foldl (fun s c => copyRun (copyFuel c) s q c) s) s

end Sys2Proof.Machine
end

