-- ==== Sys2Proof/Machine/Memsys.lean ====
section
/-!
DEFINITION. Sys2Proof/Machine/Memsys.lean: the steps of the memory system: waits on staging pages that end, page migration, the
base die's masked writes, quiescence, the L2 mode, and the host's reads and writes of memory (08 R196, R200-R203; 09 R253,
R257-R260; 13 R345, R365; 16 R433).
-/

namespace Sys2Proof.Machine

open Sys2Proof State

/-! ## Waits on staging pages -/

/-- Parked reads of a page choose again (09 R253). -/
def execStagingReadResume (page : Nat) (s : State) : Out :=
  .next (retryCopies (s.wake (fun p => decide (p = .staging page))))

/-- A write that waits for one of a page's four frames tries again once one is free (13 R345). -/
def execFrameFreeWriteResume (page : Nat) (s : State) : Out :=
  if s.framesUsed page < 4 then .next (s.wake (fun p => decide (p = .frame page))) else .next s

/-! ## Migration (08 R200) -/

def inMoved (m : Migration) (pa : Nat) : Bool := decide (m.page ≤ pa) && decide (pa < m.page + m.size)
/-- A key of a map by units of `2^k` bytes, after the move. -/
def movedKey (m : Migration) (unit key : Nat) : Nat :=
  if inMoved m (key * unit) then key - m.page / unit + m.target / unit else key
/-- The number of a frame, after the move. -/
def movedFrame (m : Migration) (f : Nat) : Nat := movedKey m (2 ^ 16) f

/-- Move the entries of a map whose keys count units of bytes. -/
def movedMap {α : Type} (m : Migration) (unit : Nat) (x : AMap α) : AMap α :=
  (x.filter (fun e => inMoved m (e.1 * unit))).foldl (fun y e => y.insert (movedKey m unit e.1) e.2)
    (x.filter (fun e => !inMoved m (e.1 * unit) && !inMoved { m with page := m.target } (e.1 * unit)))

/-- A place after its page has moved. -/
def movedLoc (m : Migration) (l : Loc) : Loc :=
  match l with
  | .mem pa => if m.page ≤ pa && pa < m.page + m.size then .mem (pa - m.page + m.target) else l
  | .sealed r pa => if m.page ≤ pa && pa < m.page + m.size then .sealed r (pa - m.page + m.target) else l
  | .stg p off => .stg (movedFrame m p) off
  | l => l

def movedPieces (m : Migration) (ps : List (Loc × Nat × Nat)) : List (Loc × Nat × Nat) := ps.map (fun p => (movedLoc m p.1, p.2))
def movedAcc (m : Migration) (a : PAcc) : PAcc := { a with pieces := movedPieces m a.pieces }
/-- A waiting request of a stage queue, after the move. -/
def movedReq (m : Migration) (r : SqReq) : SqReq := { r with pieces := movedPieces m r.pieces }
def movedPark (m : Migration) (p : Park) : Park :=
  match p with
  | .bbwait l pd len seen => .bbwait (movedLoc m l) pd len seen
  | .staging f => .staging (movedFrame m f)
  | .frame f => .frame (movedFrame m f)
  | p => p
def movedEntry (m : Migration) (e : MxEntry) : MxEntry := { e with
  srcs := e.srcs.map (fun p => (movedLoc m p.1, p.2)), outs := movedPieces m e.outs, scales := movedPieces m e.scales }
def movedCmd (m : Migration) (c : Cmd) : Cmd := { c with lands := c.lands.map (fun e => (e.1, { e.2 with loc := movedLoc m e.2.loc })) }

def movedThread (m : Migration) (t : Thread) : Thread := { t with park := movedPark m t.park, monitor := t.monitor.map (movedLoc m) }
def movedSnap (m : Migration) (x : Snapshot) : Snapshot := { x with threads := x.threads.map (fun i => { i with thread := movedThread m i.thread }) }
/-- What names a page finds it at its new frames: waits, versions read and depended on, release requests, sealed regions. -/
def movedRefs (m : Migration) (s : State) : State :=
  { s with
    threads := s.threads.map (fun e => (e.1, movedThread m e.2))
    waves := s.waves.map (fun e => (e.1, { e.2 with saved := e.2.saved.map (movedEntry m) }))
    teams := s.teams.map (fun e => (e.1, { e.2 with
      heldStores := e.2.heldStores.map (fun h => { h with loc := movedLoc m h.loc })
      snapNew := e.2.snapNew.map (movedSnap m), snapOld := e.2.snapOld.map (movedSnap m), start := e.2.start.map (movedSnap m) }))
    cores := s.cores.map (fun e => (e.1, { e.2 with mx := e.2.mx.map (movedEntry m), cmds := e.2.cmds.map (movedCmd m) }))
    held := s.held.map (movedAcc m)
    launches := s.launches.map (fun e => (e.1, { e.2 with
      sqs := e.2.sqs.map (fun q => (q.1, { q.2 with pushes := q.2.pushes.map (movedReq m), pops := q.2.pops.map (movedReq m) }))
      edges := e.2.edges.map (fun x => (movedFrame m x.1, x.2))
      reads := movedMap m (2 ^ 16) e.2.reads
      epochs := e.2.epochs.map (fun k => { k with reads := movedMap m (2 ^ 16) k.reads }) }))
    checker := { s.checker with
      releases := s.checker.releases.map (fun r => { r with pages := r.pages.map (movedFrame m) })
      regions := s.checker.regions.map (fun e => (e.1, { e.2 with frames := e.2.frames.map (movedFrame m) })) }
    msys := { s.msys with
      tags := s.msys.tags.map (fun g => { g with acc := movedAcc m g.acc })
      closing := s.msys.closing.map (fun c => { c with loc := movedLoc m c.loc })
      episodes := s.msys.episodes.map (fun e => { e with
        loc := movedLoc m e.loc, members := e.members.map (fun a => { a with dst := movedPieces m a.dst }) }) } }

/-- The migration of a page, by the number of its first old frame. -/
def migrationOf (s : State) (page : Nat) : Option Migration := s.msys.migrations.find? (fun m => m.page / 2 ^ 16 == page)

/-- The drain ends once no array instruction holds a line of the page pinned (R198). Every other access that came before has
been performed at its own step, or waits and will find the page moved. -/
def execPageDrainEnd (page : Nat) (s : State) : Out :=
  match migrationOf s page with
  | none => .next s
  | some m =>
    if s.cores.any (fun c => c.2.mx.any (fun e => e.pins.any (fun k => inMoved m (k * 128)))) then .next s
    else .next { s with msys := { s.msys with migrations := s.msys.migrations.map (fun x => if x = m then { x with drained := true } else x) } }

/-- Rewrite the frame of page-table entries: a write, which hits the monitors of its line (04 R116). -/
def rewritePte (m : Migration) (s : State) (a : Nat) : State :=
  let pte := s.rdMem a 8
  let f := bitsOf pte 51 16
  (s.writeMem a (leBytes 8 (pte - f * 2 ^ 16 + movedFrame m f * 2 ^ 16))).hitLines [.mem (a / 128 * 128)]

/-- The base die reads the granules of the page for the copy (08 R201): it counts those that it corrects, and delivers those that
it cannot correct as poisoned sectors. The new granules are whole. -/
def copyGranules (m : Migration) (s : State) : State :=
  let mine := s.ecc.filter (fun e => inMoved m (e.1 * 32))
  let s1 : State := { s with
    ecc := s.ecc.filter (fun e => !inMoved m (e.1 * 32))
    poison := (mine.filter (fun e => e.2 == 2)).foldl (fun p e => AMap.set false p e.1 true) s.poison }
  (mine.filter (fun e => e.2 == 1)).foldl (fun s e => s.countEcc (e.1 / 4) 1) s1

/-- The bytes of a page of another package come over the links: they are free (log 8). -/
def copyFar (m : Migration) (s : State) : State :=
  if m.page / 2 ^ 40 = s.pkg then s else let x := freeBytes s m.size; x.1.writeMem m.target x.2

/-- The copy is complete: bytes, versions, check marks and masks stand in the new frames, the entry is rewritten, cached
translations and lines go, the old frames enter quarantine, monitors on the page are hit, and what waited goes on. -/
def execPageCopyComplete (page : Nat) (s0 : State) : Out :=
  match migrationOf s0 page with
  | none => .next s0
  | some m =>
    if !m.drained then .next s0
    else
      let s := copyGranules m s0
      let old (pte : Nat) : Bool := inMoved m (bitsOf pte 51 16 * 2 ^ 16)
      let lines (k : Nat) : Bool := inMoved m (k * 128)
      let s1 : State := { s with
        mem := movedMap m 1 s.mem
        poison := movedMap m 32 s.poison
        codes := movedMap m 32 s.codes
        stage := movedMap m (2 ^ 16) s.stage
        cores := s.cores.map (fun c => (c.1, { c.2 with
          tlb := c.2.tlb.filter (fun e => !old e.2.2.2), l1 := c.2.l1.filter (fun e => !lines e.1) }))
        clusters := s.clusters.map (fun c => (c.1, { c.2 with tlb := c.2.tlb.filter (fun e => !old e.2.2.2) }))
        msys := { s.msys with
          migrations := s.msys.migrations.filter (fun x => x != m)
          quarantine := s.msys.quarantine ++ (List.range (m.size / 2 ^ 16)).map (fun k => (m.page / 2 ^ 16 + k, s.msys.stamp))
          l2 := s.msys.l2.map (fun x => (x.1, x.2.filter (fun e => !lines e.1)))
          l2Mask := s.msys.l2Mask.filter (fun e => !inMoved m (e.1 * 32))
          domOnly := movedMap m (2 ^ 16) s.msys.domOnly
          classes := movedMap m (2 ^ 16) s.msys.classes
          claims := match s.msys.claims with
            | j :: r => { j with moved := j.moved + 1 } :: r
            | [] => [] } }
      let s2 := m.ptes.foldl (rewritePte m) (copyFar m s1)
      let on (l : Loc) : Bool := match l with
        | .mem pa | .sealed _ pa => inMoved m pa
        | .stg p _ => inMoved m (p * 2 ^ 16)
        | _ => false
      let s3 := s2.hitAll (fun t => (s2.th t).monitor.any on)
      .next (retryCopies (claimNext (s.msys.claims.length + 1) ((movedRefs m s3).wake (fun p => decide (p = .page (m.page / 2 ^ 16))))))

/-! ## The base die and the L2 (R196, R201) -/

/-- A sector that L2 wrote and did not fill goes to the base die and is merged there; the model's memory holds the merged bytes
from the write on, with the new code and the poison that the merge leaves (R201, R203). -/
def execHbmMaskedWrite (sector : Nat) (s : State) : Out :=
  .next { s with msys := { s.msys with l2Mask := s.msys.l2Mask.erase sector } }

/-- The mode change ends: every slice has been written back and invalidated, and every monitor is hit. -/
def execL2ModeChangeComplete (s : State) : Out :=
  match s.msys.l2Changing with
  | none => .next s
  | some parts =>
    .next ({ s with msys := { s.msys with l2 := [], l2Mask := [], l2Parts := parts, l2Changing := none } }.hitAll (fun _ => true))

/-! ## Quiescence (09 R257-R260) -/

/-- The stamps of accesses that are not performed yet. -/
def pendingStamps (s : State) : List Nat :=
  s.held.map PAcc.stamp ++ s.msys.tags.map (fun g => g.acc.stamp) ++
  s.cores.flatMap (fun c => c.2.cmds.map Cmd.stamp ++ (c.2.mx.filter accessesLeft).map MxEntry.stamp) ++
  s.waves.flatMap (fun w => (w.2.saved.filter accessesLeft).map MxEntry.stamp) ++
  s.teams.flatMap (fun t => t.2.heldStores.map HeldStore.stamp) ++
  s.launches.flatMap (fun l => l.2.sqs.flatMap (fun q =>
    ((q.2.pushes ++ q.2.pops).filter (fun r => !r.pieces.isEmpty)).map SqReq.stamp)) ++
  s.threads.flatMap (fun t => match t.2.park with | .bbwait _ _ _ _ => [t.2.bbStamp] | _ => [])

/-- The front die's stamp moves on by 16 fclk, the copies follow it, and Q is published, the minimum of the reports: an agent with
nothing in flight reports its copy. Pages leave quarantine, and `QUIESCE` and `TLBINV` waits end. -/
def execQuiescencePublish (s : State) : Out :=
  let q := max s.msys.q ((pendingStamps s).foldl min s.msys.copy)
  let s1 : State := { s with msys := { s.msys with
    stamp := s.msys.stamp + 16, copy := s.msys.stamp + 16, q := q, quarantine := s.msys.quarantine.filter (fun e => decide (q ≤ e.2)) } }
  .next (freeLogs { s1 with
    waves := s1.waves.map (fun e => (e.1, { e.2 with quiet := e.2.quiet.filter (fun t => decide (q ≤ t)) }))
    threads := s1.threads.map (fun e => (e.1, { e.2 with
    memHold := match e.2.memHold with | some t => if t < q then none else some t | none => none
    park := match e.2.park with | .quiesce t => if t < q then .none else .quiesce t | p => p })) })

/-! ## The host's reads and writes of memory (13 R365; 16 R433; 08 R202) -/

/-- The bytes that a host read of one frame obtains, and whether a sector of them is poisoned; `none` is refused: no RELEASED
version, a domain-only frame, or a frame of an egress class. -/
def hostFrame (s : State) (pa n : Nat) : Option (List Byte × Bool) :=
  let f := pa / 2 ^ 16
  if s.isStaging f then
    match (s.pageOf f).versions.reverse.find? (fun v => v.st == .released) with
    | some v => if v.cls ≠ 0 then none else some ((List.range n).map (fun k => v.bytes.get 0 (pa % 2 ^ 16 + k)), Version.bad v (pa % 2 ^ 16) n)
    | none => none
  else if s.msys.domOnly.get false f || s.msys.classes.get 0 f ≠ 0 then none
  else some ((List.range n).map (fun k => s.byteAt (pa + k)), s.memPoison pa n)

/-- What the base dies correct as one frame is read from outside (08 R201). -/
def countOut (s : State) (pa n : Nat) : State :=
  match releasedVersion s (pa / 2 ^ 16) with
  | some v => s.countFixes v.ecc (pa / 2 ^ 16 * 2 ^ 16) (pa % 2 ^ 16) n
  | none => s.countRead pa n

/-- Does a part of a range lie on a page that is moving? Then its access stalls (08 R200). -/
def partMoves (s : State) (ps : List (Nat × Nat)) : Bool := ps.any (fun p => (s.waitOf (.mem p.1)).isSome)
/-- The parts of `n` bytes from a local address on, split at 64 KiB. -/
def localParts (s : State) (addr n : Nat) : List (Nat × Nat) := byFrames (n / 2 ^ 16 + 2) (s.localPa addr) n

/-- The port number of the host in a journal entry. -/
def hostPort : Nat := 0

/-- A host read: its bytes, with the EP bit where a sector of them is poisoned (08 R203), or Unsupported Request with a journal
entry, for which there must be room. One of a page that is moving waits. -/
def execHostRead (addr n : Nat) (s : State) : Out :=
  let ps := localParts s addr n
  let parts := ps.map (fun p => hostFrame s p.1 p.2)
  if s.checker.bootFailed || partMoves s ps then .next s
  else if parts.all Option.isSome then
    let s1 := ps.foldl (fun s p => countOut s p.1 p.2) s
    .next { s1 with front := { s1.front with answers := s1.front.answers ++
      [(addr, some (parts.flatMap (fun p => (p.map Prod.fst).getD [])), parts.any (fun p => (p.map Prod.snd).getD false))] } }
  else if s.jfull then .next s
  else
    let s1 : State := { s with front := { s.front with answers := s.front.answers ++ [(addr, none, false)] } }
    .next (s1.journalF 0x08 0xFFFF [hostPort, addr])

/-- A write from outside the package's cores reaches one frame of memory, but not what is the checker's (16 R436). -/
def outerWrite (s : State) (pa : Nat) (bs : List Byte) : State := if s.checkerFrame pa then s else frontStore s pa bs

/-- A host write reaches memory. One of a page that is moving waits. -/
def execHostWrite (addr : Nat) (bytes : List Byte) (s : State) : Out :=
  let ps := localParts s addr bytes.length
  if partMoves s ps then .next s
  else .next (ps.foldl (fun s p => outerWrite s p.1 ((bytes.drop (p.1 - s.localPa addr)).take p.2)) s)

end Sys2Proof.Machine
end

