-- ==== Sys2Proof/Machine/Verdict.lean ====
section
/-!
DEFINITION. Sys2Proof/Machine/Verdict.lean: what the checker computes of an epoch (13 R353, R355-R361): the bytes it reads, the
test of each record, and the verdict.
-/

namespace Sys2Proof.Machine

open Sys2Proof State

/-! ## What the checker reads (R357) -/

/-- The version of a page that the checker reads for an epoch: the one the launch sealed in it (the newest, where a re-execution
has sealed it again), else the one fixed at the seal point. -/
def ckVersion (s : State) (lid : Nat) (e : Epoch) (page : Nat) : Option Version :=
  match (s.pageOf page).versions.reverse.find? (fun v => v.lid == lid && v.epoch == e.num && v.st != .writing && v.st != .failed) with
  | some v => some v
  | none => AMap.find? e.reads page

/-- A byte at an address of a launch, where the launch may read it: a page that a core's read of the launch would reach
(14 R400). The vault window's pages are among them. What another package holds is free (log 8). -/
def ckByte (s : State) (lid : Nat) (e : Epoch) (va : Nat) : Option Byte :=
  let p := if vltWin ≤ va && va < vltWin + 2 ^ 31 then s.vltWindow Config.numCores lid (va - vltWin) .read
    else if topWin ≤ va then .error cAperture
    else s.translate Config.numCores lid va .read
  match p with
  | .error _ => none
  | .ok p => match p.loc with
    | .stg page off => (ckVersion s lid e page).map (fun v => v.bytes.get 0 off)
    | .sealed r pa => some (s.sealedByte r pa)
    | .mem pa => some (if pa / 2 ^ 40 = s.pkg then s.byteAt pa else (Config.freshBits (s.draws + pa)).setWidth 8)
    | _ => none

def ckBytes (s : State) (lid : Nat) (e : Epoch) (va n : Nat) : Option (List Byte) :=
  (List.range n).mapM (fun k => ckByte s lid e (va + k))

/-- `n` words of 4 bytes from an address on. -/
def ckWords (s : State) (lid : Nat) (e : Epoch) (va n : Nat) : Option (Array Nat) :=
  ((List.range n).mapM (fun k => (ckBytes s lid e (va + 4 * k) 4).map leNat)).map List.toArray

/-- 64 rows of `n` bytes at a stride. -/
def ckRows (s : State) (lid : Nat) (e : Epoch) (va stride n : Nat) : Option (Array Byte) :=
  ((List.range 64).mapM (fun i => ckBytes s lid e (va + i * stride) n)).map (fun r => (r.flatMap id).toArray)

/-! ## Exact arithmetic of the tests -/

/-- What the test of one record answers. -/
inductive RecTest where
  | malformed | fail | pass
  deriving DecidableEq, Repr

def passIf (b : Bool) : RecTest := if b then .pass else .fail

/-- The number of a finite value. -/
def finQ? : FV → Option Q
  | .zero _ => some ⟨0, 1⟩
  | .fin q => some q
  | _ => none
def finQ (x : FV) : Q := (finQ? x).getD ⟨0, 1⟩
def finiteFV (x : FV) : Bool := (finQ? x).isSome

def Q.sum (xs : List Q) : Q := xs.foldl Q.add ⟨0, 1⟩
def Q.pow (a : Q) (k : Nat) : Q := ⟨a.n ^ k, a.d ^ k⟩
def Q.scale (a : Q) (k : Int) : Q := a.mul (Q.ofInt k)
def Q.max (a b : Q) : Q := if a.le b then b else a

/-- (1 + 2^-24)^(2g) - 1. -/
def epsOf (g : Nat) : Q := (Q.pow (Q.add ⟨1, 1⟩ (Q.pow2 (-24))) (2 * g)).sub ⟨1, 1⟩

/-- Half the larger gap, or the whole, of a stored code of a format to its neighbours, times its scale (R358). -/
def gapOf (f : FSlot) (rm : RM) (e : Int) (x : Nat) : Q :=
  let bits := 8 * fmtBytes f.fmt
  let m := x % 2 ^ (bits - 1)
  let val (m : Nat) : Option Q := finQ? (decElem f.fmt m)
  let gap : Q :=
    if 4 ≤ f.fmt then ⟨1, 1⟩
    else match val m with
      | none => ⟨0, 1⟩
      | some v =>
        let up := match val (m + 1) with | some u => (u.sub v).abs | none => ⟨0, 1⟩
        let dn := if m = 0 then up else match val (m - 1) with | some u => (v.sub u).abs | none => ⟨0, 1⟩
        Q.max up dn
  let sc : Q := match f.scale with
    | 1 => Q.pow10 e
    | 2 => (finQ (fp32.decode f.factor)).abs
    | _ => ⟨1, 1⟩
  let exact := (f.fmt = 0 && f.scale = 0) || f.fmt = 5 || (f.fmt = 4 && decide (-128 < sbyte x) && decide (sbyte x < 127))
  if exact then ⟨0, 1⟩ else (gap.mul sc).mul (if rm = 0 then ⟨1, 2⟩ else ⟨1, 1⟩)

/-- Body words of a record. -/
def bw (r : WRec) (k : Nat) : Nat := (r.body.getD k 0).toNat
def ba (r : WRec) (k : Nat) : Nat := addrOf (bw r k) (bw r (k + 1))
def fp64Of (r : WRec) (k : Nat) : FV := (⟨11, 52⟩ : Fmt).decode (bw r (k + 1) * 2 ^ 32 + bw r k)

/-! ## Class 1: matrix products (R358) -/

def testProduct (s : State) (lid : Nat) (e : Epoch) (r : WRec) : RecTest :=
  let f := FSlot.ofBits ((s.la lid).slotBits (bitsOf (bw r 10) 31 29))
  let rm := bitsOf (bw r 10) 27 26
  let es := fmtBytes f.fmt
  let stride := if bitsOf (bw r 9) 15 0 = 0 then 64 * es else 32 * bitsOf (bw r 9) 15 0
  let g := bitsOf (bw r 9) 31 16
  let int := bitsOf (bw r 10) 23 20 == 4
  let nb := 64 / f.block
  match ckRows s lid e (ba r 6) stride (64 * es),
    (if f.scale = 1 then (ckBytes s lid e (ba r 11) (64 * nb)).map List.toArray else some #[]) with
  | some bs, some sc =>
    let x (i j : Nat) : Nat := elAt bs (64 * es * i + es * j) es
    let ex (i j : Nat) : Int := sbyte (byteAtK sc (i * nb + j / f.block))
    let tid := r.body.getD 8 0
    let γ := alphaOf (Config.signW lid tid) (Config.signZ lid tid) (fun i j => elemValue f (x i j) (ex i j))
    if fp64Words 0 γ != [r.body.getD 4 0, r.body.getD 5 0] then .malformed
    else if bitAt (bw r 10) 25 then .fail
    else match finQ? (fp64Of r 0), finQ? (fp64Of r 2), finQ? γ with
      | some α, some β, some γ =>
        let ρ := Q.sum ((List.range 4096).map (fun k => gapOf f rm (ex (k / 64) (k % 64)) (x (k / 64) (k % 64))))
        let ε : Q := if int then ⟨0, 1⟩ else epsOf g
        let ν : Q := if int then ⟨0, 1⟩ else (Q.pow2 (-149)).scale 8192
        passIf ((α.sub γ).abs.le (Q.sum [ε.mul β, ρ, (Q.pow2 (-52)).mul β, ν.scale g]))
      | _, _, _ => .fail
  | _, _ => .malformed

/-! ## Class 2: iterations and polynomials (R360) -/

/-- A matrix of numbers by rows. -/
structure QMat where
  rows : Nat
  cols : Nat
  els : Array Q
def QMat.el (m : QMat) (i j : Nat) : Q := m.els.getD (i * m.cols + j) ⟨0, 1⟩
def qmat (rows cols : Nat) (f : Nat → Nat → Q) : QMat :=
  ⟨rows, cols, ((List.range (rows * cols)).map (fun k => f (k / cols) (k % cols))).toArray⟩
/-- A 64-row matrix of finite values. -/
def qmatOf (m : Mat) : Option QMat :=
  if m.els.all finiteFV then some (qmat 64 m.cols (fun i j => finQ (m.el i j))) else none
def QMat.abs (m : QMat) : QMat := ⟨m.rows, m.cols, m.els.map Q.abs⟩
def QMat.tr (m : QMat) : QMat := qmat m.cols m.rows (fun i j => m.el j i)
def QMat.mul (a b : QMat) : QMat :=
  qmat a.rows b.cols (fun i j => Q.sum ((List.range a.cols).map (fun k => (a.el i k).mul (b.el k j))))
def QMat.vec (m : QMat) (v : Nat → Q) : Array Q :=
  ((List.range m.rows).map (fun i => Q.sum ((List.range m.cols).map (fun j => (m.el i j).mul (v j))))).toArray
def qAt (v : Array Q) (i : Nat) : Q := v.getD i ⟨0, 1⟩
/-- ‖v − z‖² over 64 places. -/
def dist2 (v : Array Q) (z : Nat → Q) : Q := Q.sum ((List.range 64).map (fun i => let d := (qAt v i).sub (z i); d.mul d))
def QMat.sumSq (m : QMat) (f : Q → Q) : Q := Q.sum (m.els.toList.map (fun x => (f x).mul (f x)))

/-- The FP32 tiles of a stored X, joined into one matrix converted to a format. -/
def storedX (s : State) (lid : Nat) (e : Epoch) (base stride fmt : Nat) (wide : Bool) : Option Mat :=
  let cols := if wide then 128 else 64
  (ckRows s lid e base stride (4 * cols)).map (fun bs =>
    matOf cols (fun i j => feedback fmt (elAt bs (4 * cols * i + 4 * j) 4)))

/-- A tile as an `MLD` reads it: 64 rows, and its scale array where its slot has one. -/
def ckTile (s : State) (lid : Nat) (e : Epoch) (f : FSlot) (base stride scale : Nat) : Option (Array Word) :=
  (ckRows s lid e base stride (64 * fmtBytes f.fmt)).bind (fun bs =>
    if f.scale = 1 then (ckBytes s lid e scale (64 * (64 / f.block))).map (fun sc => loadTile f (bs ++ sc.toArray))
    else some (loadTile f bs))

/-- The tile of a source load, as its `MLD` read it, converted to a format. -/
def sourceTile (s : State) (lid : Nat) (e : Epoch) (r : WRec) (fmt : Nat) : Option Mat :=
  let f := FSlot.ofBits ((s.la lid).slotBits (bitsOf (bw r 9) 31 29))
  let stride := if bitsOf (bw r 9) 26 0 = 0 then 64 * fmtBytes f.fmt else 32 * bitsOf (bw r 9) 26 0
  (ckTile s lid e f (ba r 2) stride ((r.src.map TileSrc.scale).getD 0)).map (fedTile fmt)

/-- The FP32 word `c15`, or a coefficient, as a number. -/
def coefQ (r : WRec) (k : Nat) : Option Q := finQ? (fp32.decode (bw r k))

def testPoly (r : WRec) (u ε : Q) (y : Mat) (x : Mat) (z : Nat → Q) : RecTest :=
  let n := bitsOf (bw r 5) 3 0
  match qmatOf y, qmatOf x, (List.range (n + 1)).mapM (fun k => coefQ r (10 + k)) with
  | some y, some x, some cs =>
    let c (k : Nat) : Q := cs.getD k ⟨0, 1⟩
    let v0 : Array Q := ((List.range 64).map (fun i => (c n).mul (z i))).toArray
    let v := (List.range n).foldl (fun v t =>
      let k := n - 1 - t
      let w := x.vec (qAt v)
      ((List.range 64).map (fun i => (qAt w i).add ((c k).mul (z i)))).toArray) v0
    let one : Q := ⟨1, 1⟩
    let φ := (((one.add u).mul (one.add ε)).mul (one.add (Q.pow2 (-24)))).sub one
    let a := ((List.range 64).foldl (fun m i => Q.max m (Q.sum ((List.range 64).map (fun j => (x.el i j).abs)))) ⟨0, 1⟩).mul (one.add φ)
    let m0 := (List.range n).foldl (fun m t => (m.mul a).add (c (n - 1 - t)).abs) (c n).abs
    let yz := y.vec z
    let bound := (((Q.pow (one.add φ) n).sub one).mul m0).add ((Q.pow2 (-149)).scale (64 * n))
    passIf ((List.range 64).all (fun i => ((qAt yz i).sub (qAt v i)).abs.le bound))
  | _, _, _ => .fail

/-- The residual test of the iterations (Table 13.9). -/
def testIterKind (kind : Nat) (r : WRec) (u ε : Q) (g : Nat) (x : QMat) (a : QMat) (z : Nat → Q) : RecTest :=
  let tiny (k : Int) : Q := (Q.pow2 (-149)).scale k
  let one : Q := ⟨1, 1⟩
  let sq : Q := if kind ≤ 5 then dist2 (x.vec (qAt (x.tr.vec z))) z
    else if kind = 6 then dist2 (a.vec (qAt (x.vec z))) z
    else dist2 (x.vec (qAt (a.vec (qAt (x.vec z))))) z
  let e2 : Q := if kind ≤ 5 then (x.abs.mul x.abs.tr).sumSq (fun t => (ε.mul t).add (tiny (2 * g)))
    else if kind = 6 then (a.abs.mul x.abs).sumSq (fun t => (ε.mul t).add (tiny 8))
    else
      let k := (((one.add ε).mul (one.add ε)).mul (one.add u)).sub one
      ((x.abs.mul a.abs).mul x.abs).sumSq (fun t => (k.mul t).add (tiny 16))
  let εr := (Q.pow (one.add (Q.pow2 (-24))) 4160).sub one
  match fp32.decode (bw r 4) with
  | .inf neg => passIf (!neg)
  | c => match finQ? c with
    | some c15 => passIf (sq.le (((c15.mul (one.add εr)).add e2).scale 128))
    | none => .fail

def testIter (s : State) (lid : Nat) (e : Epoch) (r : WRec) : RecTest :=
  let fmt := (FSlot.ofBits ((s.la lid).slotBits (bitsOf (bw r 6) 31 29))).fmt
  let kind := bitsOf (bw r 6) 28 26 + 3
  let wide := bitAt (bw r 6) 25
  let stride := if bitsOf (bw r 8) 26 0 = 0 then 256 else 32 * bitsOf (bw r 8) 26 0
  let zb := Config.signZ lid (r.body.getD 7 0)
  let z (i : Nat) : Q := if zb.getLsbD i then ⟨-1, 1⟩ else ⟨1, 1⟩
  let g := (if fmt = 3 then 2 else 4) * (if wide then 2 else 1)
  let ε := epsOf g
  let u : Q := if fmt = 1 then ⟨1, 2048⟩ else if fmt = 2 then ⟨1, 256⟩ else ⟨9, 32⟩
  if kind = 3 then
    match (ckRows s lid e (ba r 0) stride 256).map (fun bs => matOf 64 (fun i j => fp32.decode (elAt bs (256 * i + 4 * j) 4))),
      sourceTile s lid e r fmt with
    | some y, some x => testPoly r u ε y x z
    | _, _ => .malformed
  else
    match storedX s lid e (ba r 0) stride fmt wide, (if 6 ≤ kind then sourceTile s lid e r fmt else some (matOf 64 (fun _ _ => .zero false))) with
    | some x, some a => match qmatOf x, qmatOf a with
      | some x, some a => testIterKind kind r u ε g x a z
      | _, _ => .fail
    | _, _ => .malformed

/-! ## Classes 3-5 (R356, R357) -/

/-- The checker's prime. -/
def modP (k : Int) : Nat := (k % (mersenne61 : Int)).toNat

def testSort (s : State) (lid : Nat) (e : Epoch) (r : WRec) : RecTest :=
  let n := bw r 8
  let ty := bw r 9
  if r.count ≠ 10 || n < 2 || 2 ^ 24 < n || 1 < ty then .malformed
  else match ckWords s lid e (ba r 0) n, ckWords s lid e (ba r 2) n, ckWords s lid e (ba r 4) n, ckWords s lid e (ba r 6) ((n + 31) / 32) with
    | some inp, some out, some perm, some flags =>
      let at_ (a : Array Nat) (i : Nat) : Nat := a.getD i 0
      let key (k : Nat) : Int := if ty = 0 then sword k else k
      let z := Config.modPoint lid e.num
      let prod (a : Array Nat) : Nat := (List.range n).foldl (fun p i =>
        modP (p * ((z : Int) - (if ty = 0 then sword (at_ a i) + 2 ^ 31 else (at_ a i : Int))))) 1
      passIf ((List.range n).all (fun k => (perm.toList.filter (· == k)).length == 1) &&
        (List.range n).all (fun i => at_ out i == at_ inp (at_ perm i)) &&
        (List.range (n - 1)).all (fun i => bitAt (at_ flags (i / 32)) (i % 32) &&
          (decide (key (at_ out i) < key (at_ out (i + 1))) ||
           (at_ out i == at_ out (i + 1) && decide (at_ perm i < at_ perm (i + 1))))) &&
        prod inp == prod out)
    | _, _, _, _ => .malformed

/-- Number of segments of a scan record, and the segments it names. -/
def scanSegs (r : WRec) : List Nat := (List.range ((r.count - 7) / 3)).map (fun k => bw r 6 + k)
def scanOk (r : WRec) : Bool :=
  let n := bw r 4
  let d := bw r 5
  let m := (r.count - 7) / 3
  r.cls == 4 && decide (10 ≤ r.count) && r.count % 3 == 1 && decide (m ≤ 1362) && decide (1 ≤ n) && decide (n ≤ 2 ^ 24) &&
  d % 32 == 0 && decide (32 ≤ d) && decide (d ≤ 2 ^ 16) && decide (bw r 6 + m ≤ (n + d - 1) / d)
/-- The scan records of an epoch that form one witness name every segment once. -/
def scanWhole (e : Epoch) (r : WRec) : Bool :=
  let mates := e.records.filter (fun x => scanOk x && x.body.take 6 == r.body.take 6)
  let segs := mates.flatMap scanSegs
  let k := (bw r 4 + bw r 5 - 1) / bw r 5
  segs.length == k && (List.range k).all (fun i => segs.contains i)

def testScan (s : State) (lid : Nat) (e : Epoch) (r : WRec) : RecTest :=
  if !scanOk r || !scanWhole e r then .malformed
  else
    let n := bw r 4
    let d := bw r 5
    match ckWords s lid e (ba r 0) n, ckWords s lid e (ba r 2) n with
    | some inp, some out =>
      let z := Config.modPoint lid e.num
      passIf ((scanSegs r).zipIdx.all (fun (sg, k) =>
        let js := (List.range (min (sg * d + d) n - sg * d)).map (fun i => sg * d + i)
        let last := js.getLastD 0
        let sum := ((List.range (last + 1)).map (fun j => inp.getD j 0)).sum % 2 ^ 32
        let h := js.foldl (fun acc j => hashStep (Config.scanPoint lid) acc (BitVec.ofNat 32 (out.getD j 0))) 0
        let t := js.foldl (fun acc j =>
          let prev := if j = 0 then 0 else out.getD (j - 1) 0
          let dlt := ((out.getD j 0 : Int) - prev - inp.getD j 0) % 2 ^ 32
          (acc + dlt.toNat * z ^ j) % mersenne61) 0
        bw r (7 + 3 * k) == sum && bw r (8 + 3 * k) + 2 ^ 32 * bw r (9 + 3 * k) == h && t == 0))
    | _, _ => .malformed

def testSolve (s : State) (lid : Nat) (e : Epoch) (r : WRec) : RecTest :=
  let n := bw r 6
  let stride := bw r 7
  match finQ? (fp32.decode (bw r 8)) with
  | none => .malformed
  | some bound =>
    if r.count ≠ 9 || n < 1 || 65536 < n || bound.lt ⟨0, 1⟩ then .malformed
    else match (List.range n).mapM (fun i => ckWords s lid e (ba r 0 + 4 * stride * i) n), ckWords s lid e (ba r 2) n, ckWords s lid e (ba r 4) n with
      | some rows, some x, some b =>
        let q (w : Nat) : Option Q := finQ? (fp32.decode w)
        match (rows.mapM (fun row => row.toList.mapM q)), x.toList.mapM q, b.toList.mapM q with
        | some rows, some x, some b =>
          let tot := Q.sum ((rows.zip b).zipIdx.map (fun (p, i) =>
            ((Q.sum ((p.1.zip x).map (fun y => y.1.mul y.2))).sub p.2).scale (if Config.solveSign lid r.seq i then -1 else 1)))
          passIf (tot.abs.le bound)
        | _, _, _ => .fail
      | _, _, _ => .malformed

/-! ## Reading a record: the fault injection (R355) and the record's own marks (R353) -/

/-- Is this the record that the injection register alters, of a run that is no re-execution? -/
def altered (s : State) (lid : Nat) (e : Epoch) (r : WRec) : Bool :=
  let x := s.checker.inject.toNat
  !s.checker.injected && bitsOf x 95 64 == lid && (bitsOf x 63 60 == 1 || bitsOf x 63 60 == 2) && e.num == 1 && !(s.la lid).again &&
  r.team == 0 && r.widx == 0 && r.seq == bitsOf x 26 0 && decide (bitsOf x 59 48 < 6 + r.count)

/-- CLASS and SEQ as the checker reads them. -/
def readMark (s : State) (lid : Nat) (e : Epoch) (r : WRec) : Nat × Nat :=
  let x := s.checker.inject.toNat
  let w := bitsOf x 59 48
  let p := recPrefix r ++ [(r.body.headD 0).toNat]
  let q := if !altered s lid e r then p
    else if bitsOf x 63 60 = 1 then p.eraseIdx w
    else p.set w ((p.getD w 0) ^^^ 2 ^ bitsOf x 47 43)
  (bitsOf (q.getD 0 0) 31 28, bitsOf (q.getD 3 0) 26 0)

def testRec (s : State) (lid : Nat) (e : Epoch) (r : WRec) : RecTest :=
  if r.mal || r.brk || r.cls != (s.la lid).wclass || r.body.length != r.count || r.crc != recCrc r || altered s lid e r then .malformed
  else match r.cls with
    | 1 => testProduct s lid e r
    | 2 => testIter s lid e r
    | 3 => testSort s lid e r
    | 4 => testScan s lid e r
    | _ => testSolve s lid e r

/-! ## Spot checks (R359) -/

/-- An operand in memory as the array fetched it: 64 lines of 128 bytes, and its scale bytes. -/
def ckOperand (s : State) (lid : Nat) (e : Epoch) (x : TileSrc) : Option Mat :=
  let f := FSlot.ofBits ((s.la lid).slotBits x.slot)
  (ckRows s lid e x.base x.stride 128).bind (fun bs =>
    if f.scale = 1 then (ckBytes s lid e x.scale (64 * (kOf f.fmt / f.block))).map (fun sc => memOperand f (bs ++ sc.toArray) 0 8192)
    else some (memOperand f bs 0 8192))
/-- A tile of a fed-back operand. -/
def ckLoaded (s : State) (lid : Nat) (e : Epoch) (x : TileSrc) : Option (Array Word) :=
  ckTile s lid e (FSlot.ofBits ((s.la lid).slotBits x.slot)) x.base x.stride x.scale
/-- An operand of a product, read again; `fed` joins the tiles of a fed-back one. -/
def readOpd (s : State) (lid : Nat) (e : Epoch) (fed : Array Word → Array Word → Mat) : OpdSrc → Option Mat
  | .mem x => ckOperand s lid e x
  | .fed x none => (ckLoaded s lid e x).map (fun t => fed t #[])
  | .fed x (some y) => (ckLoaded s lid e x).bind (fun t => (ckLoaded s lid e y).map (fed t))

/-- Element (i, j) of a chain's products, and the sum of their magnitudes, exactly; `none` where an operand cannot be read or is not
finite. -/
def spotSum (s : State) (lid : Nat) (e : Epoch) (i j : Nat) (ps : List ProdSrc) : Option (Q × Q) :=
  ps.foldl (fun acc p => acc.bind (fun acc =>
    (readOpd s lid e (fedA p.fmt) p.a).bind (fun a => (readOpd s lid e (fedB p.fmt) p.b).bind (fun b =>
      let xs := (List.range (kOf p.fmt)).map (fun k => (a.el i k, b.el j k))
      if xs.all (fun x => finiteFV x.1 && finiteFV x.2) then
        let qs := xs.map (fun x => (finQ x.1).mul (finQ x.2))
        some (acc.1.add (Q.sum qs), acc.2.add (Q.sum (qs.map Q.abs)))
      else none)))) (some (⟨0, 1⟩, ⟨0, 1⟩))

/-- Does the spot check of an element of a matrix-product record fail? Where an operand of the chain did not come from memory as it
stands, the outcome is free (log 98). -/
def spotFails (s : State) (lid : Nat) (e : Epoch) (r : WRec) (i j : Nat) : Bool :=
  let f := FSlot.ofBits ((s.la lid).slotBits (bitsOf (bw r 10) 31 29))
  let es := fmtBytes f.fmt
  let stride := if bitsOf (bw r 9) 15 0 = 0 then 64 * es else 32 * bitsOf (bw r 9) 15 0
  let g := bitsOf (bw r 9) 31 16
  let nb := 64 / f.block
  match r.prods with
  | none => Config.spotFails lid e.num r.team r.widx r.seq
  | some ps =>
    match ckBytes s lid e (ba r 6 + i * stride + j * es) es,
      (if f.scale = 1 then (ckBytes s lid e (ba r 11 + i * nb + j / f.block) 1).map leNat else some 0), spotSum s lid e i j ps with
    | some bs, some sc, some (p, m) => match finQ? (elemValue f (leNat bs) (sbyte sc)) with
      | some c =>
        let ε : Q := if bitsOf (bw r 10) 23 20 = 4 then ⟨0, 1⟩ else epsOf g
        let h := gapOf f (bitsOf (bw r 10) 27 26) (sbyte sc) (leNat bs)
        !(c.sub p).abs.le (Q.sum [ε.mul m, h, (Q.pow2 (-149)).scale (2 * g)])
      | none => true
    | _, _, _ => true

/-- The records that an epoch's spot checks pick, with the element: one check for each of the launch's rate of records or part of
it, of a matrix product with INIT = 0, drawn by the checker, or none at a draw past the last (log 98). -/
def spotPicks (s : State) (lid : Nat) (e : Epoch) : List (WRec × Nat × Nat) :=
  let rate := 2 ^ (s.la lid).spot
  let rs := e.records.filter (fun r => r.cls == 1 && !bitAt (bw r 10) 28)
  (List.range ((e.records.length + rate - 1) / rate)).filterMap (fun k =>
    let d := Config.spotPick lid e.num k
    (rs[d / 4096 % (rs.length + 1)]?).map (fun r => (r, d / 64 % 64, d % 64)))

/-- Does a spot check of a record fail? -/
def spotFailed (s : State) (lid : Nat) (e : Epoch) (r : WRec) : Bool :=
  (spotPicks s lid e).any (fun x => x.1 == r && spotFails s lid e r x.2.1 x.2.2)

/-! ## Verdicts (R361, R460) -/

/-- RESULT, CLASS, SEQ, and the team of the first failing record. -/
structure Verdict where
  result : Nat
  cls : Nat := 0
  seq : Nat := 0
  team : Option Nat := none
  deriving DecidableEq, Repr

def verdictOf (s : State) (lid : Nat) (e : Epoch) : Verdict :=
  let ts := e.records.map (fun r => (r, testRec s lid e r))
  let mk (n : Nat) (r : WRec) : Verdict :=
    { result := n, cls := (readMark s lid e r).1, seq := (readMark s lid e r).2, team := some r.team }
  match ts.find? (fun t => t.2 == .fail) with
  | some t => mk 1 t.1
  | none => match ts.find? (fun t => t.2 == .malformed) with
    | some t => mk 2 t.1
    | none =>
      if e.count ≠ e.records.length then { result := 3 }
      else match e.records.find? (spotFailed s lid e) with
        | some r => mk 4 r
        | none => if e.poison || e.werr then { result := 5 } else { result := 0 }

end Sys2Proof.Machine
end

