-- ==== Sys2Proof/Machine/Checker.lean ====
section
/-!
DEFINITION. Sys2Proof/Machine/Checker.lean: seal points, verdicts and what follows from them: checked and failed versions,
discarded launches, re-executions and re-runs (13 R346, R349, R361-R364, R467; 09 R254, R255; 18 R460-R462).
-/

namespace Sys2Proof.Machine

open Sys2Proof State

/-! ## Runs of a launch -/

/-- The route tags that a launch's record binds. -/
def tagsNeeded (l : Launch) : Nat := ((List.range 8).filter (fun t => l.tagCount t ≠ 0)).length

/-- A waiting run receives its tags and starts (10 R279): runs in the order in which they came. -/
def grantTags (s : State) (lid : Nat) : State :=
  let l := s.la lid
  let n := tagsNeeded l
  if l.st = .waiting && (n == 0 || s.front.routeWait.headD lid == lid) && decide (n ≤ s.front.routeFree) then
    ({ s with front := { s.front with routeFree := s.front.routeFree - n, routeWait := s.front.routeWait.filter (· != lid) } }).modLaunch
      lid (fun l => { l with tagsGiven := true, st := .running })
  else s

/-- A run starts: at once when its tags are free and no other waits, else behind those that wait. -/
def startRun (s : State) (lid : Nat) : State :=
  grantTags { s with front := { s.front with routeWait := s.front.routeWait.filter (· != lid) ++ [lid] } } lid

/-- The launch goes back to its first instruction for another run: its teams are gone and its run counters are cleared. -/
def resetRun (s : State) (lid : Nat) : State :=
  let s1 := s.discardTeams lid
  let s2 : State := { s1 with
    teams := s1.teams.map (fun e => if e.2.lid = lid then (e.1, { e.2 with shadow := 0 }) else e)
    front := { s1.front with routeWait := s1.front.routeWait.filter (· != lid) } }
  s2.modLaunch lid (fun l => { l with
    st := .waiting, run := l.run + 1, nextTeam := 0, ended := [], sealPoints := 0, stream := [], reads := [], teamCore := []
    sqs := [], orphan := false, behind := none })

/-! ## Seal points (R349) -/

/-- The live waves of a launch's teams. -/
def launchWids (s : State) (lid : Nat) : List Nat :=
  (s.waves.filter (fun w => (s.tm (tagW w.1)).lid == lid && !(s.tm (tagW w.1)).fin && !w.2.ended)).map Prod.fst

/-- Has every wave of the launch arrived at its next seal point? `some true` is kernel end. -/
def sealReady (s : State) (lid : Nat) : Option Bool :=
  let l := s.la lid
  let n := l.sealPoints + 1
  let ws := launchWids s lid
  if l.st != .running || l.nextTeam != l.numTeams then none
  else if (s.teamsOf lid).isEmpty then some true
  else if !ws.isEmpty && (l.isChecked || l.paired) &&
    ws.all (fun w => decide (n ≤ (s.wv w).sealCount) && (!l.paired || (s.wv w).pairGo)) then some false
  else none

/-- Work of a launch that a seal point waits for: commands pushed whole or accepted, array entries, and accesses that are not
performed (09 R256). -/
def launchBusy (s : State) (lid : Nat) : Bool :=
  let mine (wid : Nat) : Bool := (s.tm (tagW wid)).lid == lid
  s.cores.any (fun c => c.2.cmds.any (fun k => mine k.wid) || c.2.mx.any (fun e => mine e.wid && !(s.tm (tagW e.wid)).fin)) ||
  s.waves.any (fun w => mine w.1 && !(s.tm (tagW w.1)).fin &&
    (!w.2.saved.isEmpty || (!(s.tm (tagW w.1)).isSecond && w.2.eqHdr.any (fun q => q.2.any (fun r => r.id != 0))))) ||
  s.held.any (fun a => mine (widOf a.tid)) || s.msys.tags.any (fun g => mine (widOf g.acc.tid))

/-- SEALED versions of the package, and the WRITING ones of a launch (R346). -/
def countVersions (s : State) (p : Version → Bool) : Nat := (s.stage.map (fun e => (e.2.versions.filter p).length)).sum

/-- Change versions in place. -/
def modVersions (s : State) (p : Nat → Version → Bool) (f : Version → Version) : State :=
  { s with stage := s.stage.map (fun e => (e.1, { e.2 with versions := e.2.versions.map (fun v => if p e.1 v then f v else v) })) }

/-- The die set of a launch's run. -/
def runDies (l : Launch) : Nat := (List.range l.stages).foldl (fun m k => m ||| stageDies l k) 0

/-- What stands for a version that a launch read, once its epoch `n` is sealed: of its own WRITING version the one that it
sealed, or at a replayed seal point the one that it kept (R357, R363). -/
def readNow (s : State) (lid n page : Nat) (v : Version) : Option Version :=
  if v.st == .writing && v.lid == lid then
    (s.pageOf page).versions.reverse.find? (fun x => x.lid == lid && x.epoch == n && x.st != .writing && x.st != .failed)
  else some v
def settleReads (s : State) (lid n : Nat) : State :=
  s.modLaunch lid (fun l => { l with reads := l.reads.filterMap (fun e => (readNow s lid n e.1 e.2).map (fun v => (e.1, v))) })

/-- The versions that the checker reads for pages: those last read, else what a read would obtain now (R357). -/
def fixedReads (s : State) (lid : Nat) : AMap Version :=
  s.stage.foldl (fun m e =>
    match AMap.find? m e.1 with
    | some _ => m
    | none => match s.chooseVersion lid e.1 false (s.la lid).accSeal with
      | some v => AMap.insert m e.1 v
      | none => m) (s.la lid).reads

/-- A waiting wave goes on behind its `STGSEAL` in a new region; the 96-bit form delivers the epoch. The numbers of its records
start again (R350); a record that is still open is the new epoch's first (log 74). -/
def passSeal (n : Nat) (s : State) (wid : Nat) : State :=
  let ts := (s.liveTids wid).filter (fun t => (s.th t).park == .seal n)
  match ts with
  | [] => s
  | t :: _ =>
    let core := (s.wv wid).core
    let s0 := s.modWave wid (fun w => { w with
      seq := if w.openRec.isSome then 1 else 0, openRec := w.openRec.map (fun r => { r with seq := 0 }) })
    let s1 := (sealRegion s0 wid (s.th t).pc).modThreads ts (fun _ x => { x with park := .none, inTable := false })
    let s2 := s1.modWave wid (fun w => { w with sealReg := none, pairGo := false })
    match (s.wv wid).sealReg with
    | none => s2
    | some d =>
      let id := (s2.co core).nextId
      { (s2.modCore core (fun c => { c with nextId := id + 1 })) with
        vres := s2.vres ++ [{ core := core, id := id, cls := 3, writes := [(.s wid d.toNat, BitVec.ofNat 32 n)] }] }

/-- The seal point itself. -/
def sealNow (s : State) (lid : Nat) (final : Bool) : State :=
  let l := s.la lid
  let n := l.sealPoints + 1
  let ws := launchWids s lid
  if n = 65536 then
    let pc := match ws.head?.bind (fun w => (s.liveTids w).head?) with
      | some t => ((s.th t).pc + 2 ^ 52 - (if (s.wv (widOf t)).sealReg.isSome then 12 else 8)) % 2 ^ 52
      | none => 0
    s.abortLaunch lid 0xC1 [addrLo pc, addrHi pc]
  else
    let held := ws.flatMap (fun w => (s.wv w).held)
    let mine (e : Nat × Team) : Bool := e.2.lid == lid
    let sh := (s.teams.filter mine).foldl (fun b e => b ||| e.2.shadow) 0
    let s1 : State := { s with
      waves := s.waves.map (fun w => if ws.contains w.1 then (w.1, { w.2 with held := [] }) else w)
      teams := s.teams.map (fun e => if mine e then (e.1, { e.2 with shadow := 0 }) else e) }
    let own (_ : Nat) (v : Version) : Bool := v.lid == lid && v.st == .writing
    let s2 := if n < l.replayTo then settleReads (dropVersions s1 own) lid n
      else
        let s2 := settleReads (modVersions s1 own (fun v => { v with st := .sealed })) lid n
        if !l.isChecked && !l.paired then s2
        else
          let e : Epoch := {
            num := n, records := l.stream ++ held, count := (l.stream ++ held).length
            poison := sh.getLsbD 0, werr := sh.getLsbD 2 || l.orphan
            reads := fixedReads s2 lid, cores := l.teamCore, dies := runDies l
            verdict := if l.isChecked then none else some true }
          s2.modLaunch lid (fun x => { x with epochs := x.epochs ++ [e] })
    let s3 := s2.modLaunch lid (fun x => { x with
      sealPoints := n, stream := [], orphan := false, iovf := x.iovf || sh.getLsbD 1
      st := if final then .ending else x.st })
    ws.foldl (passSeal n) s3

/-- The next seal point of a launch, when every wave has arrived, its work is complete and the bound of R346 allows it. A replayed
seal point seals nothing. -/
def sealStep (s : State) (lid : Nat) : State :=
  match sealReady s lid with
  | none => s
  | some final =>
    if launchBusy s lid || (!decide ((s.la lid).sealPoints + 1 < (s.la lid).replayTo) &&
      decide (2 ^ 20 < countVersions s (fun v => v.st == .sealed) + countVersions s (fun v => v.st == .writing && v.lid == lid))) then s
    else sealNow s lid final

def execSealPoint (lnch : Nat) (s : State) : Out := .next (sealStep s lnch)

def execSealedBoundRoom (lnch : Nat) (s : State) : Out := .next (sealStep s lnch)

/-! ## Verdicts (R361) -/

def epochOf (s : State) (lid k : Nat) : Option Epoch := (s.la lid).epochs.find? (fun e => e.num == k)

/-- PAYLOAD of a verdict's journal entry (R460): bits [255:160] of the entry. -/
def verdictPayload (lid k : Nat) (v : Verdict) : BitVec 96 :=
  BitVec.ofNat 96 (lid % 2 ^ 32 * 2 ^ 64 + k % 2 ^ 16 * 2 ^ 48 + v.result % 256 * 2 ^ 40 + v.cls % 16 * 2 ^ 36 + v.seq % 2 ^ 27 * 2 ^ 9)

/-- The injection register has been applied once its record is read. -/
def noteInjection (s : State) (lid : Nat) (e : Epoch) : State :=
  if e.records.any (altered s lid e) then { s with checker := { s.checker with injected := true } } else s

/-- The verdict of an epoch is pass: it is journalled. -/
def execEpochPass (lnch epoch : Nat) (s : State) : Out :=
  match epochOf s lnch epoch with
  | none => .next s
  | some e =>
    let v := verdictOf s lnch e
    if e.verdict.isSome || v.result ≠ 0 || s.jfull then .next s
    else
      let s1 := (noteInjection s lnch e).modLaunch lnch (fun l => { l with
        epochs := l.epochs.map (fun x => if x.num = epoch then { x with verdict := some true } else x) })
      .next (s1.journal 0x09 (s.la lnch).tenant (verdictPayload lnch epoch v))

/-- A version that launches depend on is CHECKED: their edges to it are satisfied (09 R254). -/
def dropEdges (s : State) (page num : Nat) : State :=
  { s with launches := s.launches.map (fun e => (e.1, { e.2 with edges := e.2.edges.filter (fun x => x != (page, num)) })) }

/-- Every epoch of a launch up to one has passed. -/
def passedTo (l : Launch) (k : Nat) : Bool :=
  (List.range k).all (fun i => l.epochs.any (fun e => e.num == i + 1 && e.verdict == some true))

/-- A SEALED version becomes CHECKED, and older CHECKED or RELEASED versions of its page go. Its launch has no edge left then:
every version that it depends on is CHECKED or RELEASED (09 R254). -/
def execVersionChecked (page num : Nat) (s : State) : Out :=
  match (s.pageOf page).versions.find? (fun v => v.num == num && v.st == .sealed) with
  | none => .next s
  | some v =>
    let l := s.la v.lid
    if passedTo l v.epoch && l.edges.isEmpty then
      let s1 := dropEdges (modVersions s (fun p x => p == page && x.num == num) (fun x => { x with st := .checked })) page num
      .next (dropVersions s1 (fun p x => p == page && decide (x.num < num) && (x.st == .checked || x.st == .released)))
    else .next s

/-! ## Failure (R362, R363; 09 R255) -/

/-- A launch is discarded: its teams and its versions that are not CHECKED go, and its records not yet tested. Its re-run waits
for the next run of the producer; where the version is another package's, for nothing (log 72). An aborted launch only loses
its versions. -/
def discardLaunch (s : State) (lid producer : Nat) : State :=
  let ended := (s.la lid).st == .aborted
  let s1 := if ended then s.modLaunch lid (fun l => { l with epochs := [], edges := [] })
    else (s.discardTeams lid).modLaunch lid (fun l => { l with
      st := .discarded, epochs := [], stream := []
      behind := some (producer, (s.la producer).run + (if producer = lid then 0 else 1)) })
  let s2 := dropVersions s1 (fun _ v => v.lid == lid && (v.st == .sealed || v.st == .writing))
  if ended then s2
  else { s2 with front := { s2.front with
    reruns := s2.front.reruns ++ [lid], routeWait := s2.front.routeWait.filter (· != lid) } }

/-- The launches with an edge to one of these versions, aborted ones too. -/
def dependents (s : State) (gone : List (Nat × Nat)) : List Nat :=
  (s.launches.filter (fun e => e.2.st != .done && e.2.st != .discarded && e.2.edges.any (fun x => gone.contains x))).map Prod.fst

/-- Versions of a launch that would leave the graph with it. -/
def sealedOf (s : State) (lid : Nat) : List (Nat × Nat) :=
  s.stage.flatMap (fun e => (e.2.versions.filter (fun v => v.lid == lid && v.st == .sealed)).map (fun v => (e.1, v.num)))

/-- Discard every launch that depends on these versions, and so on. -/
def discardAll : Nat → State → Nat → List (Nat × Nat) → State
  | 0, s, _, _ => s
  | n + 1, s, producer, gone =>
    match dependents s gone with
    | [] => s
    | ds =>
      let more := ds.flatMap (sealedOf s)
      discardAll n (ds.foldl (fun s d => discardLaunch s d producer) s) producer more

/-- A launch's failures of an epoch, and how often a die was in a failing run's set. -/
def failuresOf (l : Launch) (k : Nat) : List (Nat × Nat × Nat) := l.failures.filter (fun f => f.1 == k)
def dieFailures (l : Launch) (d : Nat) : Nat := (l.failures.filter (fun f => bitAt f.2.1 d)).length

/-- R467: a replacement for each die of the launch's die sets. -/
def replacement (s : State) (l : Launch) : AMap Nat :=
  let all := (List.range 16).filter (fun d => (List.range l.stages).any (fun k => bitAt (l.dieSet k) d))
  let ok (d : Nat) : Bool := (s.di d).online && !(s.di d).lost && !(s.di d).retired
  all.foldl (fun m d =>
    let given := m.map Prod.snd
    let free := (List.range 16).filter (fun x => ok x && !given.contains x)
    match free.find? (fun x => dieFailures l x == 0) with
    | some x => AMap.insert m d x
    | none => match (sortBy (dieFailures l) free).head? with
      | some x => AMap.insert m d x
      | none => m) []

/-- Re-execution from the first instruction (R363): earlier epochs are replayed, this one and later ones made afresh. -/
def reExecute (s : State) (lid k : Nat) : State :=
  let s1 := (resetRun s lid).modLaunch lid (fun l => { l with
    again := true, replayTo := k, epochs := l.epochs.filter (fun e => e.num < k), dieMap := replacement s l })
  startRun s1 lid

/-- Words of the 0xC2 event (15 Table 15.11). -/
def fourFails (l : Launch) (k : Nat) : List Word :=
  let fs := failuresOf l k
  BitVec.ofNat 32 k :: ((fs.map (fun f => BitVec.ofNat 32 f.2.1)).take 4 ++ [BitVec.ofNat 32 ((fs.getLast?.map (fun f => f.2.2)).getD 0)])

/-- The verdict of an epoch is fail. -/
def failEpoch (s : State) (lid : Nat) (e : Epoch) (v : Verdict) : State :=
  let k := e.num
  let bad (_ : Nat) (x : Version) : Bool := x.lid == lid && x.st == .sealed && decide (k ≤ x.epoch)
  let gone := s.stage.flatMap (fun p => (p.2.versions.filter (bad p.1)).map (fun x => (p.1, x.num)))
  let s1 := modVersions (quarantineOf s bad) bad (fun x => { x with st := .failed, bytes := [], poison := [], codes := [], ecc := [], cls := 0 })
  let s2 := s1.modLaunch lid (fun l => { l with
    epochs := l.epochs.filter (fun x => x.num < k), failures := l.failures ++ [(k, e.dies, v.result)] })
  let s3 := discardAll (s2.launches.length + 1) s2 lid gone
  let core := v.team.bind (fun t => AMap.find? e.cores t)
  let s4 := s3.faultRecord (core.getD uNone) kFailedCheck [lid, k, e.dies, v.seq, v.result]
  let s5 := s4.journal 0x09 (s.la lid).tenant (verdictPayload lid k v)
  let s6 := match core with
    | some c => (s5.chargeCore c).settleRetired
    | none => s5
  if 4 ≤ (failuresOf (s6.la lid) k).length then s6.abortLaunch lid 0xC2 (fourFails (s6.la lid) k) else reExecute s6 lid k

def execEpochFail (lnch epoch : Nat) (s : State) : Out :=
  match epochOf s lnch epoch with
  | none => .next s
  | some e =>
    let v := verdictOf s lnch e
    if e.verdict.isSome || v.result = 0 || s.jfull then .next s
    else .next (failEpoch (noteInjection s lnch e) lnch e v)

/-- R462: a discarded launch runs again once the producer's re-execution has started, on its own die sets; one discarded for
another package's version is its own `p`. -/
def execDiscardedLaunchRerun (lnch : Nat) (s : State) : Out :=
  match (s.la lnch).st, (s.la lnch).behind with
  | .discarded, some (p, k) =>
    let pl := s.la p
    if decide (k ≤ pl.run) && (p == lnch || pl.st == .running || pl.st == .ending || pl.st == .done) then
      let s1 := (resetRun s lnch).modLaunch lnch (fun l => { l with
        again := false, edges := [], epochs := [], replayTo := 0, dieMap := [] })
      .next (startRun { s1 with front := { s1.front with reruns := s1.front.reruns.filter (· != lnch) } } lnch)
    else .next s
  | _, _ => .next s

end Sys2Proof.Machine
end

