-- ==== Sys2Proof/Machine/Convert.lean ====
section
/-!
DEFINITION. Sys2Proof/Machine/Convert.lean: conversions between types, packed and slot conversions, random numbers (06
R162-R171), and pair words (02 R51-R54).
-/

namespace Sys2Proof.Machine

open Sys2Proof

/-! ## Types (Table 6.7) -/

/-- The float format of a type code, where it is one. -/
def typeFmt (t : Nat) : Option Fmt :=
  match t with
  | 0 => some fp32
  | 1 => some fp16
  | 2 => some bf16
  | _ => none

/-- Bits of an integer type code 4-11 and whether it is unsigned. -/
def typeBits (t : Nat) : Nat := match t / 2 with | 2 => 8 | 3 => 16 | 4 => 32 | _ => 64
def typeUns (t : Nat) : Bool := t % 2 == 1
/-- Its range. -/
def typeLo (t : Nat) : Int := if typeUns t then 0 else -(2 ^ (typeBits t - 1))
def typeHi (t : Nat) : Int := if typeUns t then 2 ^ typeBits t - 1 else 2 ^ (typeBits t - 1) - 1

/-- Element `el` of a source word pair, as a pattern of its type. -/
def typeElem (t el : Nat) (x : DWord) : Nat :=
  match t with
  | 0 | 8 | 9 => x.toNat % 2 ^ 32
  | 10 | 11 => x.toNat
  | 1 | 2 | 6 | 7 => x.toNat / 2 ^ (16 * el) % 2 ^ 16
  | _ => x.toNat / 2 ^ (8 * el) % 2 ^ 8

/-- The exact value of a pattern of a type. -/
def typeVal (t p : Nat) : FV :=
  match typeFmt t with
  | some f => f.decode p
  | none =>
    if t = 3 then decodeDM8 p
    else if typeUns t then FV.ofInt p
    else FV.ofInt (if 2 ^ (typeBits t - 1) ≤ p then (p : Int) - 2 ^ typeBits t else p)

/-- `Flush` of a pattern of a type. -/
def typeFlush (t : Nat) (ftz : Bool) (p : Nat) : Nat :=
  match typeFmt t with
  | some f => f.flushIn ftz p
  | none => p

/-- A value converted to a type: its pattern and the conditions of R163. -/
def convert (dt : Nat) (rm : RM) (ftz inf : Bool) (x : FV) : Nat × Nat :=
  match typeFmt dt with
  | some f => f.roundFtz rm ftz x
  | none =>
    if dt = 3 then
      let r := roundDM8 x rm inf
      (r.1, dm8Conds x r.1 r.2)
    else
      let r := toInt x (typeLo dt) (typeHi dt) rm
      let inexact := match x with | .fin _ => !isIntegral x | _ => false
      ((r.1 % 2 ^ typeBits dt).toNat, (if r.2 then cInvalid else 0) + (if inexact then cInexact else 0))

/-- The words of a destination of a type: one register, or a pair for 64 bits. -/
def typeWords (dt p : Nat) : List Word := if 10 ≤ dt then (out2 (BitVec.ofNat 64 p)).ws else [BitVec.ofNat 32 p]

/-- `CVT` of a source value (R163). -/
def cvtResult (dt sr el : Nat) (rm : RM) (ftz inf : Bool) (x : DWord) : Nat × Nat :=
  convert dt rm ftz inf (typeVal sr (typeFlush sr ftz (typeElem sr el x)))

/-- Does a result decode back to the exact source value (R164)? A NaN converted to a floating type does. -/
def cvtExact (dt sr el : Nat) (r : Nat) (x : DWord) : Bool :=
  match typeVal sr (typeElem sr el x) with
  | .nan => decide (dt ≤ 3)
  | v => (typeVal dt r).same v

/-- A source of a conversion, 32 or 64 bits wide by its type. -/
def cvtSrc (s : State) (p : Pops) (t : Nat) (sr : BitVec 4) (a : Src) : DWord :=
  if 10 ≤ sr.toNat then s.rd64 p t a else (s.rd p t a).setWidth 64

def execCvt (h : Hdr) (d : Opnd) (a : Src) (el : BitVec 2) (dt sr : BitVec 4) (rm : BitVec 2) (ftz inf : Bool) (s : State) : Out :=
  s.alu (usesOf (.cvt h d a el dt sr rm ftz inf)) (some d) (fun s p t =>
    let r := cvtResult dt.toNat sr.toNat el.toNat rm.toNat ftz inf (cvtSrc s p t sr a)
    { ws := typeWords dt.toNat r.1, conds := r.2 })

def execCvtx (h : Hdr) (pd : Pred) (d : Opnd) (a : Src) (el : BitVec 2) (dt sr : BitVec 4) (rm : BitVec 2) (ftz inf : Bool)
    (s : State) : Out :=
  s.alu (usesOf (.cvtx h pd d a el dt sr rm ftz inf)) (some d) (fun s p t =>
    let x := cvtSrc s p t sr a
    let r := cvtResult dt.toNat sr.toNat el.toNat rm.toNat ftz inf x
    { ws := typeWords dt.toNat r.1, conds := r.2, ps := [(pd, cvtExact dt.toNat sr.toNat el.toNat r.1 x)] })

/-- Conversions packed into one word at a given width, the first lowest (R165). -/
def packed (bits : Nat) (rs : List (Nat × Nat)) : LaneOut :=
  { ws := [BitVec.ofNat 32 (rs.zipIdx.map (fun e => e.1.1 * 2 ^ (bits * e.2))).sum], conds := rs.foldl (fun c r => c ||| r.2) 0 }

/-- FP32 sources converted and packed. -/
def cvtPack (dt : Nat) (bits : Nat) (rm : RM) (ftz inf : Bool) (xs : List Word) : LaneOut :=
  packed bits (xs.map (fun w => convert dt rm ftz inf (fsrc ftz w)))

def execCvtp (h : Hdr) (d : Opnd) (a b : Src) (bytes : Bool) (dt : BitVec 4) (rm : BitVec 2) (ftz inf : Bool) (s : State) : Out :=
  s.alu (usesOf (.cvtp h d a b bytes dt rm ftz inf)) (some d) (fun s p t =>
    if bytes then
      let x := s.rd64 p t a
      let y := s.rd64 p t b
      cvtPack dt.toNat 8 rm.toNat ftz inf [x.setWidth 32, (x >>> 32).setWidth 32, y.setWidth 32, (y >>> 32).setWidth 32]
    else cvtPack dt.toNat 16 rm.toNat ftz inf [s.rd p t a, s.rd p t b])

/-! ## Slot conversions (R166, R167) -/

/-- The word is illegal because of what its slot holds (R75, R166). -/
def cvtsIllegal (f : FSlot) (auto dec : Bool) (a : Src) (c : Opnd) (inf : Bool) (d : Opnd) : Bool :=
  f.fmt == 0 || decide (5 ≤ f.fmt) || (if f.scale = 1 then !c.isS else c != .unused) || (auto && f.scale != 1) ||
  (inf && f.fmt != 3) ||
  (f.block == 64 && (if dec then !(d.aligned 2) || d.isE || d.isY else !(a.reg.aligned 2) || a.reg.isE || a.reg.isY))

/-- The code of an element whose block exponent is invalid: the format's NaN, or 0 for INT8. -/
def nanCode (fmt : Nat) : Nat := match fmt with | 1 => fp16.nanBits | 2 => bf16.nanBits | 3 => 0x80 | _ => 0

/-- An element rounded to a slot's format with its conditions. -/
def roundElem (fmt : Nat) (rm : RM) (ftz inf : Bool) (q : FV) : Nat × Nat :=
  match fmt with
  | 1 => convert 1 rm ftz inf q
  | 2 => convert 2 rm ftz inf q
  | 3 => convert 3 rm ftz inf q
  | _ => convert 4 rm ftz inf q

/-- The scaled value of an element before rounding (R167), exponent given. -/
def scaledElem (f : FSlot) (e : Int) (x : FV) : FV :=
  match f.scale with
  | 1 => scaleBy x (Q.pow10 (-e))
  | 2 => match fp32.decode f.factor with
    | .fin q => scaleBy x q.inv
    | _ => x
  | _ => x

/-- One converted element: its code, its conditions, and whether it counts as an underflow (03 R79). A subnormal source that
`.ftz` flushes to zero counts: the source as read is not zero (log 66). -/
def encodeElem (f : FSlot) (rm : RM) (ftz inf : Bool) (e : Int) (w : Word) : Nat × Nat × Bool :=
  if f.scale = 1 && !scaleOk e then (nanCode f.fmt, cInvalid, false)
  else
    let r := roundElem f.fmt rm ftz inf (scaledElem f e (fsrc ftz w))
    let zero := match decElem f.fmt r.1 with | .zero _ => true | _ => false
    (r.1, r.2, (fp32.decode w.toNat).isFin && zero)

/-- The block of element `k` of lane `l` (Table 6.8). -/
def blockOf (f : FSlot) (l : Nat) : Nat := if f.block = 16 then l / 16 else 0
/-- Elements a lane holds. -/
def elemsPerLane (f : FSlot) : Nat := if f.block = 64 then 2 else 1

/-- What an encoding computes for one wave. -/
structure CvtsWave where
  outs : List (Nat × LaneOut)
  exps : List (Nat × Int)          -- block and its exponent
  counts : List (Nat × Nat)        -- block and its underflow count
  deriving DecidableEq, Repr

/-- The source word of element `k` of a lane. -/
def cvtsWord (s : State) (p : Pops) (t : Nat) (a : Src) (k : Nat) : Word :=
  if k = 0 then s.rd p t a else s.opnd p (lanesrcOf t a) (opndPlus a.reg 1)
where lanesrcOf (t : Nat) (a : Src) : Nat := State.lanesrc t a.pat

/-- Encode the executing lanes of a wave through a slot. -/
def cvtsEncode (s : State) (p : Pops) (wid : Nat) (xs : List Nat) (f : FSlot) (slot : Nat) (auto : Bool) (a : Src)
    (i c : Nat) (rm : RM) (ftz inf : Bool) : CvtsWave :=
  let n := elemsPerLane f
  let blocks := ((xs.map (fun t => blockOf f (laneOf t))).dedup)
  let inBlock (j : Nat) : List Nat := xs.filter (fun t => blockOf f (laneOf t) == j)
  let entry (j : Nat) : Nat := s.ufEntry wid (slot * 8 + (i + j) % 8)
  let expOf (j : Nat) : Int :=
    if auto then
      selectScale ((inBlock j).flatMap (fun t => (List.range n).map (fun k => fsrc ftz (cvtsWord s p t a k))))
        (if 128 ≤ entry j then some (entry j % 128) else none) f.block
    else if f.scale = 1 then sbyte (c / 2 ^ (8 * j)) else 0
  let exps := blocks.map (fun j => (j, expOf j))
  let one (t k : Nat) : Nat × Nat × Bool :=
    encodeElem f rm ftz inf ((exps.find? (fun e => e.1 == blockOf f (laneOf t))).map Prod.snd |>.getD 0) (cvtsWord s p t a k)
  { exps := exps
    counts := blocks.map (fun j =>
      (j, ((inBlock j).flatMap (fun t => (List.range n).filter (fun k => (one t k).2.2))).length))
    outs := xs.map (fun t => (t, packed (8 * fmtBytes f.fmt) ((List.range n).map (fun k => ((one t k).1, (one t k).2.1))))) }

/-- The underflow buffer entries of converted blocks (03 R79). -/
def countUnder (wid slot i : Nat) (cs : List (Nat × Nat)) : List (Tgt × Word) :=
  cs.map (fun e => (.u wid (slot * 8 + (i + e.1) % 8), BitVec.ofNat 32 (128 + e.2)))

/-- A count of a slot of these waves is on its way at variable latency: the next conversion waits for it, as for a register
(02 R48). -/
def countsWait (s : State) (wids : List Nat) (slot : Nat) : Bool :=
  s.vres.any (fun r => r.writes.any (fun w => match w.1 with | .u v n => wids.contains v && n / 8 == slot | _ => false))

/-- The block exponents that `CVTS.auto` writes to an `s` register. -/
def scaleWrites (wid : Nat) (c : Opnd) (exps : List (Nat × Int)) : List (Tgt × Word) :=
  match c with
  | .s n => [(.s wid n.toNat, BitVec.ofNat 32 ((exps.map (fun x => (x.2 % 256).toNat * 2 ^ (8 * x.1))).sum))]
  | _ => []

/-- The encoding forms: gate, results for each wave, arithmetic trap, buffer entries and scale bytes. -/
def cvtsExec (u : Uses) (auto : Bool) (d : Opnd) (a : Src) (b c : Opnd) (slot : Nat) (rm : RM) (ftz inf : Bool)
    (s : State) : Out :=
  let f := FSlot.ofBits (s.launchF.slotBits slot)
  if cvtsIllegal f auto false a c inf d then .next (s.raise u.h u.len { code := 0x01, mask := State.laneMask s.grp, words := s.focus.word })
  else
    let u2 := { u with
      srcs := u.srcs.map (fun x => if x.1 == a then (x.1, elemsPerLane f) else x)
      dsts := if auto then u.dsts ++ [(c, 1)] else u.dsts }
    s.byGate u2 (fun s =>
      let p := s.popsOf u2
      let ws := (s.wavesX u.h).map (fun w => (w, cvtsEncode s p w (s.xsW u.h w) f slot auto a (s.sVal w b).toNat (s.sVal w c).toNat rm ftz inf))
      let outs := ws.flatMap (fun e => e.2.outs)
      if f.uflow && countsWait s (ws.map Prod.fst) slot then .next s.holdGroup
      else match s.arithTrap outs with
      | some t => .next (s.raise u.h u.len t)
      | none =>
        .next (s.aluDoneWith u2 (some d) outs (ws.flatMap (fun e =>
          (if f.uflow then countUnder e.1 slot (s.sVal e.1 b).toNat e.2.counts else []) ++
          (if auto then scaleWrites e.1 c e.2.exps else [])))))

def execCvts (h : Hdr) (d : Opnd) (a : Src) (b c : Opnd) (slot : BitVec 3) (rm : BitVec 2) (ftz inf : Bool) (s : State) : Out :=
  cvtsExec (usesOf (.cvts h d a b c slot rm ftz inf)) false d a b c slot.toNat rm.toNat ftz inf s

def execCvtsAuto (h : Hdr) (d : Opnd) (a : Src) (b c : Opnd) (slot : BitVec 3) (rm : BitVec 2) (ftz inf : Bool) (s : State) : Out :=
  let u := usesOf (.cvtsAuto h d a b c slot rm ftz inf)
  cvtsExec { u with srcs := u.srcs.filter (fun x => x.1 != srcOf c) } true d a b c slot.toNat rm.toNat ftz inf s

/-- The FP32 values of a lane's elements under `.dec` (R167). -/
def cvtsDecode (f : FSlot) (l : Nat) (w c : Nat) (rm : RM) (ftz : Bool) : LaneOut :=
  let bits := 8 * fmtBytes f.fmt
  let e := sbyte (c / 2 ^ (8 * blockOf f l))
  let rs := (List.range (elemsPerLane f)).map (fun k =>
    let x := w / 2 ^ (bits * k) % 2 ^ bits
    let x' := match f.fmt with
      | 1 => fp16.flushIn ftz x
      | 2 => bf16.flushIn ftz x
      | _ => x
    fp32.roundFtz rm ftz (elemValue f x' e))
  { ws := rs.map (fun r => BitVec.ofNat 32 r.1), conds := rs.foldl (fun a r => a ||| r.2) 0 }

def execCvtsDec (h : Hdr) (d : Opnd) (a : Src) (c : Opnd) (slot : BitVec 3) (rm : BitVec 2) (ftz inf : Bool) (s : State) : Out :=
  let u := usesOf (.cvtsDec h d a c slot rm ftz inf)
  let f := FSlot.ofBits (s.launchF.slotBits slot.toNat)
  if cvtsIllegal f false true a c inf d then
    .next (s.raise u.h u.len { code := 0x01, mask := State.laneMask s.grp, words := s.focus.word })
  else
    let u2 := { u with dsts := [(d, elemsPerLane f)] }
    s.alu u2 (some d) (fun s p t =>
      cvtsDecode f (laneOf t) (s.rd p t a).toNat (s.sVal (widOf t) c).toNat rm.toNat ftz)

/-! ## Random numbers (R168-R171) -/

/-- The key of an entry of a launch's random log: team, wave, count, lane. -/
def rndKey (team widx k lane : Nat) : Nat := ((team * 32 + widx) * 2 ^ 33 + k) * 32 + lane
/-- Records a wave's log may hold now. -/
def rndRoom (l : Launch) (team widx : Nat) : Nat := State.logLen l (team * 32 + widx)

/-- The call index of a thread's lane, and the logged value it names, if any. -/
def rndIndex (s : State) (t : Nat) : Nat := ((s.wv (widOf t)).rci.getD (laneOf t) 0).toNat
def rndLogged (s : State) (t : Nat) : Option Word :=
  (s.launchOf t).rnd.find? (rndKey (s.tm (tagOf t)).index (widxW (widOf t)) (rndIndex s t) (laneOf t))
def rndLogs (s : State) (t : Nat) : Bool := (s.wv (widOf t)).logMode != .off

/-- One lane's random word: the logged one, or fresh bits, recorded where logging is on. -/
def rndDraw (acc : State × List (Nat × LaneOut)) (t : Nat) : State × List (Nat × LaneOut) :=
  let s := acc.1
  let bump (s : State) : State := s.modWave (widOf t) (fun w => { w with rci := w.rci.set (laneOf t) (w.rci.getD (laneOf t) 0 + 1) })
  match (if rndLogs s t then rndLogged s t else none) with
  | some v => (bump s, acc.2 ++ [(t, out1 v)])
  | none =>
    let v := Config.freshBits s.draws
    let s1 := { s with draws := s.draws + 1 }
    let s2 := if rndLogs s t then
        s1.modLaunch (s1.lidOf t) (fun l => { l with
          rnd := AMap.insert l.rnd (rndKey (s.tm (tagOf t)).index (widxW (widOf t)) (rndIndex s t) (laneOf t)) v })
      else s1
    (bump s2, acc.2 ++ [(t, out1 v)])

def execRnd (h : Hdr) (d : Opnd) (s : State) : Out :=
  let u := usesOf (.rnd h d)
  s.byGate u (fun s =>
    let xs := s.xs h
    if (s.co s.focus.core).noiseFailed then .next (s.raise h u.len { code := 0x28, mask := State.laneMask xs })
    else if xs.any (fun t => (s.tm (tagOf t)).isSecond && (rndLogged s t).isNone) then .next s.holdGroup
    else
      let full := xs.filter (fun t => rndLogs s t && decide (rndRoom (s.launchOf t) (s.tm (tagOf t)).index (widxW (widOf t)) ≤ rndIndex s t))
      if !full.isEmpty then .next (s.raise h u.len { code := 0x29, mask := State.laneMask full })
      else
        let r := xs.foldl rndDraw (s, [])
        .next (r.1.aluDone u (some d) r.2))

/-! ## Pair words (02 R51-R54) -/

/-- A slot's operation in a lane (Table 2.12). -/
def slotOut (s : State) (x : PSlot) (t : Nat) : LaneOut :=
  let a := s.opnd [] t x.sa
  let b := s.opnd [] t x.sb
  let c := s.opnd [] t x.sc
  let rm := x.smod.toNat / 16
  let ftz := bitAt x.smod.toNat 3
  match x.sop.toNat with
  | 0x01 => outF (faddResult rm ftz a b)
  | 0x02 => outF (fsubResult rm ftz a b)
  | 0x03 => outF (fmulResult rm ftz a b)
  | 0x04 => outF (ffmaResult rm ftz a b c)
  | 0x05 => outF (fminmax false ftz a b)
  | 0x06 => outF (fminmax true ftz a b)
  | 0x07 => pack2 false rm ftz (fAdd rm) a b
  | 0x08 => pack2 false rm ftz fMul a b
  | 0x09 => pack3 false rm ftz a b c
  | 0x10 => out1 (a + b)
  | 0x11 => out1 (a - b)
  | 0x12 => out1 (a * b)
  | 0x13 => out1 (a * b + c)
  | 0x14 => out1 (if a.toInt ≤ b.toInt then a else b)
  | 0x15 => out1 (if a.toInt ≤ b.toInt then b else a)
  | 0x16 => out1 (a &&& b)
  | 0x17 => out1 (a ||| b)
  | 0x18 => out1 (a ^^^ b)
  | 0x19 => out1 (a &&& ~~~ b)
  | 0x1A => out1 (shlResult a b.toNat)
  | 0x1B => out1 (shrResult a b.toNat)
  | 0x1C => out1 (sarResult a b.toNat)
  | 0x1D => out1 (a.rotateLeft (b.toNat % 32))
  | 0x20 => outF (cvtResult 0 8 0 rm ftz false (a.setWidth 64))
  | 0x21 => outF (cvtResult 8 0 0 rm ftz false (a.setWidth 64))
  | 0x22 => outF (cvtResult 0 9 0 rm ftz false (a.setWidth 64))
  | 0x23 => outF (cvtResult 9 0 0 rm ftz false (a.setWidth 64))
  | 0x24 => cvtPack 1 16 rm ftz false [a, b]
  | 0x25 => cvtPack 2 16 rm ftz false [a, b]
  | 0x30 => out1 a
  | _ => {}

/-- The lane results of a slot: the lanes its own guard lets execute. -/
def slotOuts (s : State) (u : Uses) (x : PSlot) : List (Nat × LaneOut) :=
  if x.isOp then (s.xs u.h).map (fun t => (t, slotOut s x t)) else []

/-- Slot 1 commits no earlier than slot 0 (R54); a slot NOP commits nothing. -/
def slot1Lat (stall : BitVec 4) (s0 s1 : PSlot) : Nat :=
  if s0.isOp then max (slotUses stall s0).lat (slotUses stall s1).lat else (slotUses stall s1).lat

/-- Both slots pass their checks before issue, the decode checks of the word first (R35), and read before either writes. -/
def execPairWord (stall : BitVec 4) (s0 s1 : PSlot) (s : State) : Out :=
  let u := usesOf (.pairWord stall s0 s1)
  let u0 := slotUses stall s0
  let u1 := { slotUses stall s1 with lat := slot1Lat stall s0 s1 }
  if s.overAlloc u then .next (s.raise u.h u.len s.illegalWord)
  else s.byGate u0 (fun s =>
    s.byGate u1 (fun s =>
      let o0 := slotOuts s u0 s0
      let o1 := slotOuts s u1 s1
      match s.arithTrap (o0 ++ o1) with
      | some t => .next (s.raise u.h u.len t)
      | none =>
        .next ((((s.issued u).sched u0.lat (s.outWrites (some s0.sd) o0)).sched u1.lat
          (s.outWrites (some s1.sd) o1)).advance u.h u.len)))

end Sys2Proof.Machine
end

