-- ==== Sys2Proof/Machine/Launch.lean ====
section
/-!
DEFINITION. Sys2Proof/Machine/Launch.lean: `LAUNCH` with its checks, the argument copy, placement of teams with their budgets,
and the end of a launch (05 R123; 10 R279; 15 R413, R415-R420; 16 R431, R432; 18 R461, R462).
-/

namespace Sys2Proof.Machine

open Sys2Proof State

/-! ## The launch record's checks (Table 15.6) -/

/-- Cause 0x83. -/
def fieldReject (k : Nat) : Reject := ⟨0x83, [BitVec.ofNat 32 k]⟩

/-- Size of a team's context image in bytes (14 Table 14.6). -/
def imageSize (l : Launch) : Nat :=
  4096 + l.numWaves * (8192 + l.regs * 128) + l.scrLines * 128 + 8 * (16384 + 8)

/-- Is a budget of a launch above its tenant's? -/
def overBudget (own tenant : Nat) : Bool := tenant != 0 && decide (tenant < own)

/-- ENTRY lies on a page that allows no instruction fetch. -/
def entryNoX (s : State) (tenant : Nat) (l : Launch) : Bool :=
  match recPlace s tenant l.entry with
  | .error _ => false
  | .ok p => !bitAt p.pte 6

/-- A word of the record breaks a rule of Table 15.6. -/
def recWordBad (s : State) (tenant : Nat) (l : Launch) (k : Nat) : Bool :=
  let w := l.w k
  let part (n width : Nat) : Nat := (w >>> (n * width)) % 2 ^ width
  match k with
  | 0 => bitsOf w 63 52 != 0 || l.entry % 32 != 0 || entryNoX s tenant l
  | 1 => bitsOf w 63 52 != 0 || l.handler % 4 != 0
  | 2 => bitsOf w 63 54 != 0 || l.numWaves == 0 || decide (32 < l.numWaves) || l.numTeams == 0 || decide (2 ^ 32 ≤ l.numTeams)
  | 3 => bitsOf w 63 45 != 0 || bitsOf w 31 22 != 0 || decide (4096 < l.argSize) || l.argSize % 4 != 0 ||
      decide (5632 < l.scrLines) || decide (l.regs < 8) || decide (256 < l.regs) || l.regs % 8 != 0 ||
      decide (5632 < l.numWaves * l.regs + l.scrLines + (if l.paired then l.hold else 0))
  | 4 | 5 => bitsOf w 63 52 != 0
  | 6 => bitsOf w 63 48 != 0 || l.tlsSize % 256 != 0 || decide (l.tlsSize < 512) || l.rsOff % 8 != 0 || decide (l.rsOff < 256) ||
      decide (l.tlsSize < l.rsOff + 8)
  | 15 => bitsOf w 63 60 != 0 || decide (20 < bitsOf w 59 55) ||
      (if l.paired then decide (l.hold < 8) || decide (1024 < l.hold) else l.hold != 0) ||
      (bitsOf w 23 19 != 0 && (decide (bitsOf w 23 19 < 10) || decide (30 < bitsOf w 23 19))) ||
      (l.priv && tenant != 0) || decide (5 < l.wclass) || (l.paired && l.wclass != 0)
  | 16 => decide (l.snapSize * 1024 < imageSize l)
  | 17 => bitsOf w 63 52 != 0 || (l.snapBase == 0 && (l.paired || l.snapInt != 0))
  | 18 | 19 | 20 | 21 => (List.range 4).any (fun n =>
      if 4 * (k - 18) + n < l.stages then part n 16 == 0 else part n 16 != 0)
  | 22 | 23 | 24 | 25 => (List.range 2).any (fun n => decide (2 ^ 22 < part n 32))
  | 26 | 27 | 28 | 29 => (List.range 4).any (fun n => decide (1024 < part n 16))
  | 30 => bitsOf w 63 52 != 0 || l.cap % 64 != 0
  | 31 => bitsOf w 31 13 != 0 || decide (4096 < bitsOf w 12 0) ||
      overBudget (bitsOf w 63 48) (tenantBits s tenant 191 176) || overBudget (bitsOf w 47 32) (tenantBits s tenant 175 160) ||
      overBudget (bitsOf w 12 0) (tenantBits s tenant 159 147)
  | _ => false

/-- The first word of the record that is rejected: a format slot with cause 0x84, another with 0x83. -/
def recReject (s : State) (tenant : Nat) (l : Launch) : Option Reject :=
  (List.range 32).findSome? (fun k =>
    if 7 ≤ k && k < 15 then (if FSlot.legal (l.w k) then none else some ⟨0x84, [BitVec.ofNat 32 (k - 7)]⟩)
    else if recWordBad s tenant l k then some (fieldReject k) else none)

/-- A feature that the record needs and that is not accepted (Table 15.8). -/
def featReject (feats : Nat) (l : Launch) : Option Reject :=
  let needs : List (Nat × Bool) := [(0, (List.range 8).any (fun k => bitsOf (l.slotBits k) 3 0 == 3)), (3, l.paired), (5, l.cap != 0),
    (6, l.wclass != 0), (7, (List.range 16).any (fun q => l.sqDepth q != 0))]
  (needs.find? (fun n => n.2 && !bitAt feats n.1)).map (fun n => ⟨0x81, [BitVec.ofNat 32 n.1]⟩)

/-- The first address of a range that does not translate in a tenant's space. -/
def rangeReject (s : State) (tenant a n : Nat) : Option Reject :=
  (chunksOf a n).findSome? (fun p => match recPlace s tenant p.1 with
    | .error c => some (xlReject p.1 c)
    | .ok _ => none)

/-! ## Capabilities (16 R431, R432) -/

/-- Bytes of a range in a tenant's space, whatever sealed region they lie in; `none` where one does not translate. -/
def spaceBytes (s : State) (tenant a n : Nat) : Option (List Byte) :=
  (chunksOf a n).foldr (fun p acc => match recPlace s tenant p.1, acc with
    | .ok x, some r => some (s.rdBytes 0 x.loc p.2 ++ r)
    | _, _ => none) (some [])

/-- Regions named by a capability header, as a mask. -/
def capMask (hdr : Nat) : Nat :=
  (List.range 4).foldl (fun m k => let r := (hdr >>> (192 + 8 * k)) % 256; if r = 0 then m else m ||| 2 ^ r) 0

/-- The check of R432 that a capability fails, if any, and the mask of its regions. A reserved bit that is not zero counts as a
signature that fails (log 16). -/
def capCheck (s : State) (tenant : Nat) (l : Launch) : Except Nat Nat :=
  match spaceBytes s tenant l.cap 64, spaceBytes s tenant (l.cap + 64) 4627 with
  | some hb, some sig =>
    let hdr := leNat hb
    let mask := capMask hdr
    let len := bitsOf hdr 255 224
    let code := chunksOf l.entry len
    if sig != signBy s hb || bitsOf hdr 183 128 != 0 || bitsOf hdr 63 0 != 0 then .error 1
    else if bitsOf hdr 191 184 != tenant then .error 2
    else if bitsOf hdr 127 64 < s.time / 10 ^ 9 then .error 3
    else if (classesOf mask).any (fun r => (regionOf s r).st != 2) then .error 4
    else if code.any (fun p => match recPlace s tenant p.1 with | .ok x => bitAt x.pte 5 | .error _ => false) then .error 5
    else if len < 32 || 2 ^ 24 < len || len % 32 != 0 then .error 6
    else match spaceBytes s tenant l.entry len with
      | some bs => if (sha3 bs).toNat % 2 ^ 256 = bitsOf hdr 511 256 then .ok mask else .error 6
      | none => .error 6
  | _, _ => .error 1

/-! ## LAUNCH (R416, R461) -/

/-- The payload of a journal entry of kind 0x0A (18 Table 18.1). -/
def injectPayload (x : Nat) (bind : Bool) : BitVec 96 :=
  BitVec.ofNat 96 (bitsOf x 95 64 * 2 ^ 64 + bitsOf x 63 43 * 2 ^ 43 + bitsOf x 26 0 * 2 ^ 16 + bind.toNat)

/-- Does the injection register wait for the next launch? -/
def injectWaits (s : State) : Bool :=
  let x := s.checker.inject.toNat
  !s.checker.injected && bitsOf x 95 64 == 0 && (bitsOf x 63 60 == 1 || bitsOf x 63 60 == 2)

/-- A waiting fault injection is bound to a launch that starts, and journalled. -/
def bindInjection (s : State) (lid tenant : Nat) : State :=
  if injectWaits s then
    let x := s.checker.inject.toNat % 2 ^ 64 + lid % 2 ^ 32 * 2 ^ 64
    ({ s with checker := { s.checker with inject := BitVec.ofNat 96 x } } : State).journal 0x0A tenant (injectPayload x true)
  else s

/-- The launch that a command and the bytes of its record describe. -/
def launchOfBytes (s : State) (c : QCmd) (bytes : List Byte) : Launch := {
  recW := (List.range 32).map (fun k => leNat ((bytes.drop (8 * k)).take 8))
  tenant := c.tenant, cmdTag := cTag c, evt := cEvt c, sigAddr := cAddr c 3, sigVal := cVal c 5, feats := accepted s, run := 1 }

/-- What the checks of a `LAUNCH` find: a rejection, or the launch with its class mask. -/
def launchCheck (s : State) (c : QCmd) (bytes : List Byte) : Except Reject Launch :=
    let l := launchOfBytes s c bytes
    match recReject s c.tenant l with
    | some r => .error r
    | none => match featReject (accepted s) l with
      | some r => .error r
      | none => match rangeReject s c.tenant l.entry 1 with
        | some r => .error r
        | none => match (if l.sigAddr = 0 then .ok [] else bytePlaces s c 3 l.sigAddr 8) with
          | .error r => .error r
          | .ok _ => if l.cap = 0 then .ok l
            else match rangeReject s c.tenant l.cap (64 + 4627) with
              | some r => .error r
              | none => match capCheck s c.tenant l with
                | .error k => .error ⟨0x85, [BitVec.ofNat 32 k]⟩
                | .ok m => .ok { l with capClass := m }

/-! ## The argument copy (05 R123) -/

/-- One part of the source: its bytes with a mark for poison in its first `k`, a wait, or the fault of an address. -/
inductive ArgPart where
  | ok (s : State) (bytes : List Byte) (poison : Bool)
  | wait
  | fault (cause va : Nat)

def argPart (s : State) (lid va n k : Nat) : ArgPart :=
  match (match plainCause va with | some c => Except.error c | none => s.translate Config.numCores lid va .read) with
  | .error c => .fault c va
  | .ok p =>
    if s.offVault va p.loc then .fault cVault va
    else if isFar s p.loc then let x := freeBytes s n; .ok x.1 x.2 false
    else if (s.waitOf p.loc).isSome then .wait
    else match p.loc with
      | .stg page off => match s.chooseVersion lid page true (s.la lid).accSeal with
        | none => .wait
        | some v => .ok (s.noteRead lid page v) ((List.range n).map (fun k => v.bytes.get 0 (off + k)))
            (k != 0 && Version.bad v off k)
      | l => .ok s (s.rdBytes lid l n) (k != 0 && s.rdPoison lid l k)

/-- Copy the parts that have not been copied: each at once where it can be, whatever the others wait for; the fault of the first
that has one. Only the first 256 bytes are loaded into registers, so poison counts there. -/
def copyParts (lid : Nat) : List (Nat × Nat) → State → Option (Nat × Nat) → State × Option (Nat × Nat)
  | [], s, f => (s, f)
  | p :: r, s, f =>
    let off := p.1 - (s.la lid).argAddr
    if (AMap.find? (s.la lid).argBuf off).isSome then copyParts lid r s f
    else match argPart s lid p.1 p.2 (min p.2 (256 - off)) with
      | .ok s1 b q => copyParts lid r (s1.modLaunch lid (fun l => { l with argBuf := AMap.insert l.argBuf off (b, q) })) f
      | .wait => copyParts lid r s f
      | .fault c va => copyParts lid r s (if f.isSome then f else some (c, va))

/-- Copy the argument block of a launch: parts of it may wait; a translation fault is kept for its waves. -/
def copyArgs (s : State) (lid : Nat) : State :=
  let ps := chunksOf (s.la lid).argAddr (s.la lid).argSize
  let x := copyParts lid ps s none
  match x.2 with
  | some f => x.1.modLaunch lid (fun l => { l with argsDone := true, argsFault := some f })
  | none =>
    let got := (x.1.la lid).argBuf
    if got.length < ps.length then x.1
    else x.1.modLaunch lid (fun l => { l with
      args := got.flatMap (fun e => e.2.1), argsDone := true, argsPoison := got.any (fun e => e.2.2), argsFault := none })

/-- The next launch identifier, which is never 0. -/
def nextLid (n : Nat) : Nat := if (n + 1) % 2 ^ 32 = 0 then 1 else (n + 1) % 2 ^ 32

/-- A `LAUNCH` starts: its launch takes an identifier, the accepted features and its route tags, and its arguments are copied
(05 R123). While the journal is full, one with a capability does not start (16 R436), nor one that a fault injection waits for. A
rejected capability is journalled. -/
def launchWith (q : Nat) (c : QCmd) (s : State) (bytes : List Byte) : Option State :=
  match launchCheck s c bytes with
  | .error r =>
    if r.cause != 0x85 then some (rejectCmd s q c r)
    else if s.jfull then none
    else
      let mask := ((spaceBytes s c.tenant (launchOfBytes s c bytes).cap 64).map (fun b => capMask (leNat b))).getD 0
      some ((rejectCmd s q c r).journalF 0x04 c.tenant [mask, c.tenant, (r.words.headD 0).toNat])
  | .ok l =>
    if s.jfull && (l.cap != 0 || injectWaits s) then none
    else
      let lid := s.front.nextLid
      let s1 : State := { s with
        launches := AMap.set {} s.launches lid { l with queue := q }
        front := { s.front with nextLid := nextLid lid } }
      let s2 := modQcmd s1 q c.idx (fun x => { x with lid := lid })
      let s3 := if l.cap = 0 then s2 else s2.journalF 0x05 c.tenant [lid, l.capClass, 0]
      some (copyArgs (startRun (bindInjection s3 lid c.tenant) lid) lid)

/-- The record is read when the `LAUNCH` starts: its address must translate; on a staging page it waits for a version. -/
def launchStart (q : Nat) (c : QCmd) (s : State) : Option State :=
  match readPlace s c (cAddr c 1) with
  | .error r => some (rejectCmd s q c r)
  | .ok p => match frontRead s p.loc 256 with
    | some (s1, bytes) => launchWith q c s1 bytes
    | none => none

def execLaunch (slot : Nat) (s : State) : Out := startCmd slot 1 launchStart s

/-- The oldest waiting run receives its route tags (10 R279). -/
def execRouteTagGrant (lnch : Nat) (s : State) : Out := .next (grantTags s lnch)

/-- A copy that waited at its `LAUNCH` goes on (R123). -/
def execArgumentCopyComplete (lnch : Nat) (s : State) : Out :=
  let l := s.la lnch
  if (l.st == .waiting || l.st == .running) && l.run != 0 && !l.argsDone then .next (copyArgs s lnch) else .next s

/-- The `s` registers of a wave before its first instruction: the first 256 bytes of the copy. -/
def preload (s : State) (wid : Nat) : State :=
  let l := s.la (s.tm (tagW wid)).lid
  let s1 := (List.range (min l.args.length 256 / 4)).foldl (fun s i =>
    s.setSreg wid i (BitVec.ofNat 32 (leNat ((l.args.drop (4 * i)).take 4)))) s
  if l.argsPoison then s1.setInterval (tagW wid) bPoison else s1

/-! ## Budgets (R419, Table 15.7) -/

/-- The cores that hold running teams of the launches that meet `p`. -/
def heldCores (s : State) (p : Nat → Bool) : List Nat :=
  ((s.teams.filter (fun e => e.2.running && p e.2.lid)).map (fun e => e.2.core)).dedup

/-- A team's estimate in tenths of a watt, rounded up. -/
def teamPower (l : Launch) : Nat := ([30, 20, 14, 8].getD l.oc 0 * l.numWaves + 31) / 32

/-- The power charged to the launches that meet `p`, in tenths of a watt. -/
def chargedPower (s : State) (p : Nat → Bool) : Nat :=
  ((s.teams.filter (fun e => e.2.running && p e.2.lid)).map (fun e => teamPower (s.la e.2.lid))).sum

/-- The fillers that run for a tenant count as 1 W each (17 R453). -/
def fillerPower (s : State) (tenant : Nat) : Nat :=
  if s.power.fillTenant = tenant then 10 * (s.pairs.filter (fun e => e.2.fillers.isSome)).length else 0

/-- A budget has room: 0 is no limit. -/
def within (budget want : Nat) : Bool := budget == 0 || decide (want ≤ budget)

/-- The byte buckets of a core's stack are not empty, the launch's and its tenant's. -/
def bandRoom (s : State) (lid core : Nat) : Bool :=
  (s.budgetsOf lid).all (fun b => decide (s.lacks b.1 b.2 (stackOf core) < b.2 * 10000))

/-- The budgets of a launch and of its tenant have room for a team on a core. -/
def budgetOk (s : State) (lid core : Nat) : Bool :=
  let l := s.la lid
  let mine (k : Nat) : Bool := k == lid
  let ours (k : Nat) : Bool := (s.la k).tenant == l.tenant
  let cores (p : Nat → Bool) : Nat := (heldCores s p).length + 1
  let tc := tenantBits s l.tenant 159 147
  let tp := tenantBits s l.tenant 191 176
  let lc := if bitsOf (l.w 31) 12 0 = 0 then tc else bitsOf (l.w 31) 12 0
  let lp := if bitsOf (l.w 31) 63 48 = 0 then tp else bitsOf (l.w 31) 63 48
  within lc (cores mine) && within tc (cores ours) && within (10 * lp) (chargedPower s mine + teamPower l) &&
  within (10 * tp) (chargedPower s ours + fillerPower s l.tenant + teamPower l) &&
  bandRoom s lid core

/-! ## Placement (R418) -/

/-- Core-store lines of a team besides its registers. -/
def teamLines (l : Launch) : Nat := l.scrLines + (if l.paired then l.hold else 0)

/-- The core that the next team goes to, of its stage's dies. -/
def coreFor (s : State) (lid tag index : Nat) (p : Nat → Bool) : Option Nat :=
  let l := s.la lid
  let dies := stageDies l (l.stageOf index)
  s.pickCore lid (fun c => p c && bitAt dies (dieOf c) && s.fitsOn lid tag c l.numWaves (l.numWaves * l.regs) (teamLines l) && budgetOk s lid c)

/-- The log mode of a wave when its team starts (06 R169, R171; 13 R347, R363; 18 R462). -/
def startLog (l : Launch) (second : Bool) : RLog :=
  if 1 < l.run || second then .replay else if l.isChecked || l.rlogOn || l.paired then .record else .off

/-- A translation fault of the preload is raised at the entry PC before any instruction issues (05 R123). -/
def preloadFault (s : State) (tag : Nat) : State :=
  let l := s.la (s.tm tag).lid
  match l.argsFault with
  | none => s
  | some (c, va) => (List.range l.numWaves).foldl (fun s k =>
      let tids := tidsOf (tag * 32 + k)
      s.systemTrap tids { code := 0x10, sub := c, ad := BitVec.ofNat 64 va, mask := State.laneMask tids } l.entry l.entry none) s

/-- A team starts on a core with a context of its own. -/
def placeTeam (s : State) (lid index core tag : Nat) (second : Bool) (other : Option Nat) : State :=
  let l := s.la lid
  let wids := (List.range l.numWaves).map (fun k => tag * 32 + k)
  let wave : Wave := { core := core, regs := l.regs, logMode := startLog l second }
  let s1 : State := { s with
    teams := AMap.set {} s.teams tag ({
      lid := lid, index := index, core := core, lines := teamLines l, secondary := other, isSecond := second, snapAt := s.time } : Team)
    waves := wids.foldl (fun m w => AMap.set {} m w wave) s.waves }
  let s2 : State := { s1 with
    threads := (wids.flatMap tidsOf).foldl (fun m t => AMap.set {} m t ({
      pc := l.entry, live := true, rpc := l.entry, rsptr := (s1.tls t + l.rsOff) % 2 ^ 52 } : Thread)) s1.threads }
  let s3 := ((wids.foldl preload s2).resume tag core)
  preloadFault (s3.modTeam tag (fun t => { t with start := some (s3.snapOf tag) })) tag

/-- The next context number, counting from `n`, whose CTXTAG, its low 16 bits, is neither 0 nor a live context's (R416, 11 R301). -/
def freeTag (s : State) : Nat → Nat → Nat
  | 0, n => n
  | fuel + 1, n =>
    if n % 2 ^ 16 = 0 || s.teams.any (fun e => !e.2.fin && e.1 % 2 ^ 16 == n % 2 ^ 16) then freeTag s fuel (n + 1) else n

/-- Place the next team of a launch; of a paired launch both copies, on different clusters and, where it can be, dies. -/
def placeNext (s : State) (lid : Nat) : Option State :=
  let l := s.la lid
  let tag := freeTag s (2 ^ 16) s.front.nextTag
  let tag2 := freeTag s (2 ^ 16) (tag + 1)
  match coreFor s lid tag l.nextTeam (fun _ => true) with
  | none => none
  | some c =>
    let go (s : State) (last : Nat) : State :=
      { (s.modLaunch lid (fun l => { l with nextTeam := l.nextTeam + 1 })) with front := { s.front with nextTag := last + 1 } }
    if !l.paired then some (go (placeTeam s lid l.nextTeam c tag false none) tag)
    else
      let s1 := placeTeam s lid l.nextTeam c tag false (some tag2)
      match (match coreFor s1 lid tag2 l.nextTeam (fun d => dieOf d != dieOf c) with
        | some d => some d
        | none => coreFor s1 lid tag2 l.nextTeam (fun d => clusterOf d != clusterOf c)) with
      | none => none
      | some d => some (go (placeTeam s1 lid l.nextTeam d tag2 true none) tag2)

/-- A pre-empted team runs again, on its core or on another (14 R397), on the twin of a running partner's core where it fits there
(11 R313); its unfinished commands come first when it moves. -/
def resumeTeam (s : State) (tag : Nat) : State :=
  let t := s.tm tag
  match ((s.partners tag).map (fun p => twinOf (s.tm p).core)).find? (fun c => c != t.core && s.fitsTeam tag c) with
  | some c => s.migrate tag c
  | none =>
  if s.fitsTeam tag t.core then s.resume tag t.core
  else match s.placeTo tag (fun _ => true) with
    | some c => s.migrate tag c
    | none => s

/-- Teams whose firmware found no core to move them to try again: their threads issue their instruction there. -/
def moveWaiting (s : State) (lid : Nat) : State :=
  (s.teamsOf lid).foldl (fun s tag =>
    let ws := (s.teamTids tag).filter (fun t => match (s.th t).park with | .firmware c => c == 0x1A || c == 0x28 | _ => false)
    if ws.isEmpty then s
    else match s.placeTo tag (fun c => !(s.co c).noiseFailed) with
      | some c => (s.modThreads ws (fun _ t => { t with park := .none })).migrate tag c
      | none => s) s

/-- May teams of a launch be placed now? Not while its queue waits for a slot to go on (R411). -/
def mayPlace (s : State) (l : Launch) : Bool :=
  (slotOf s l.queue).isSome || !s.front.pending.get false l.queue || dState (desc s l.queue) == 2

/-- Commands of ended or discarded teams of a launch are still at work. -/
def oldCommands (s : State) (lid : Nat) : Bool :=
  s.cores.any (fun c => c.2.cmds.any (fun k => (s.tm (tagW k.wid)).lid == lid && (s.tm (tagW k.wid)).fin))

/-- A team whose every live wave waits at a seal point may make room for a team not placed yet (13 R349). -/
def sealedTeam (s : State) (lid : Nat) : Option Nat :=
  (s.teamsOf lid).find? (fun tag => (s.tm tag).running && !s.isPaired tag &&
    (s.teamTids tag).all (fun t => !(s.th t).live || (match (s.th t).park with | .seal _ => true | _ => false)))

/-- Place one team of a launch: one that was pre-empted comes before the next new one, and later ones wait behind it. -/
def execTeamPlace (lnch : Nat) (s0 : State) : Out :=
  let s := moveWaiting s0 lnch
  let l := s.la lnch
  if !(l.st == .running || l.st == .ending) || !mayPlace s l then .next s
  else if l.st == .ending || !l.argsDone || decide (l.numTeams ≤ l.nextTeam) || oldCommands s lnch then
    .next (((stoppedTeams s l.queue).filter (fun t => (s.tm t).lid == lnch)).foldl resumeTeam s)
  else
    let wait := ((stoppedTeams s l.queue).filter (fun t => (s.tm t).lid == lnch &&
      !((s.teamTids t).all (fun u => !(s.th u).live || (match (s.th u).park with | .seal _ => true | _ => false)))))
    match wait with
    | t :: _ => .next (resumeTeam s t)
    | [] => match placeNext s lnch with
      | some s1 => .next s1
      | none => match sealedTeam s lnch with
        | some t => match placeNext (s.preempt t) lnch with
          | some s1 => .next s1
          | none => .next s
        | none => .next s

/-! ## The end of a launch (Table 15.5, R462) -/

/-- The command of a launch that is not complete. -/
def launchCmd (s : State) (lid : Nat) : Option QCmd := (qcmds s (s.la lid).queue).find? (fun c => c.lid == lid)

/-- A launch whose last seal point has passed, and that can no longer be discarded, completes: its signal is written and its
command posts its event. A re-execution has no command left to complete. -/
def execLaunchComplete (lnch : Nat) (s : State) : Out :=
  let l := s.la lnch
  if l.st != .ending || !l.edges.isEmpty || launchBusy s lnch || (l.cap != 0 && s.jfull) then .next s
  else
    let s1 := s.modLaunch lnch (fun l => { l with st := .done })
    match launchCmd s lnch with
    | none => .next (freeRevoked s1)
    | some c =>
      let s2 := if l.sigAddr = 0 then s1 else writeWord s1 c 3 l.sigAddr (leBytes 8 l.sigVal.toNat)
      let s3 := if l.cap = 0 then s2 else s2.journalF 0x05 l.tenant [lnch, l.capClass, 1]
      .next (freeRevoked (completeCmd s3 l.queue c l.iovf))

end Sys2Proof.Machine
end

