-- ==== Sys2Proof/Machine/Qcmds.lean ====
section
/-!
DEFINITION. Sys2Proof/Machine/Qcmds.lean: the queue commands besides `LAUNCH` and `COPYQ` (15 R408, R409, R413, R414), and the
release requests that wait at the checker (13 R366, R374).
-/

namespace Sys2Proof.Machine

open Sys2Proof State

/-! ## NOPQ, BARQ, WAITV (R413, R414) -/

def execNopq (slot : Nat) (s : State) : Out := startCmd slot 7 (fun q c s => some (completeCmd s q c false)) s

/-- `BBINIT` of the count at the object's home. -/
def barqStart (q : Nat) (c : QCmd) (s : State) : Option State :=
  match objectPlaceQ s c 1 (cAddr c 1) with
  | .error r => some (rejectCmd s q c r)
  | .ok p => some (completeCmd (frontBbInit s p.loc (cVal c 3)) q c false)

def execBarq (slot : Nat) (s : State) : Out := startCmd slot 6 barqStart s

/-- Does the condition of a `WAITV` hold for the 64 bits at its address? -/
def condHolds (cond m value mask : Nat) : Bool :=
  match cond with
  | 0 => m &&& mask == value
  | 1 => m &&& mask != value
  | 2 => decide (value ≤ m &&& mask)
  | 3 => decide (m &&& mask < value)
  | _ => decide ((BitVec.ofNat 64 m : DWord).toInt ≤ 0)

/-- Test a `WAITV`: it completes once its condition holds. -/
def testWaitv (q : Nat) (c : QCmd) (s : State) : State :=
  match readPlace s c (cAddr c 1) with
  | .error _ => s
  | .ok p => match frontRead s p.loc 8 with
    | none => s
    | some (s1, bs) =>
      if condHolds (cWord c 7) (leNat bs) (cVal c 3).toNat (cVal c 5).toNat then completeCmd s1 q c false else s1

/-- A condition that is no code rejects it, and so does an address that does not translate; it is tested at once. -/
def waitvStart (q : Nat) (c : QCmd) (s : State) : Option State :=
  if 5 ≤ cWord c 7 then some (rejectCmd s q c ⟨0x86, []⟩)
  else match (if cWord c 7 = 4 then notUo (cAddr c 1) (readPlace s c (cAddr c 1)) else readPlace s c (cAddr c 1)) with
    | .error r => some (rejectCmd s q c r)
    | .ok _ => some (testWaitv q c s)

def execWaitv (slot : Nat) (s : State) : Out := startCmd slot 2 waitvStart s

/-- The condition of a slot's `WAITV` is tested again. -/
def execWaitvConditionHolds (slot : Nat) (s : State) : Out :=
  match AMap.find? s.front.slots slot with
  | none => .next s
  | some x => match x.cmds.find? (fun c => cCmd c == 2) with
    | some c => .next (testWaitv x.queue c s)
    | none => .next s

/-! ## SIGNAL (R408, R413) -/

/-- Where the 64 bits of a `SIGNAL` go: bytes of memory, or an offset of the tenant-table aperture. -/
inductive SigTo where
  | bytes (ls : List Loc)
  | aperture (off : Nat)
  deriving DecidableEq, Repr

/-- The offset in the control range that an address of a tenant-0 `SIGNAL` of OP 0 reaches, if it reaches it. -/
def apertureOff (s : State) (c : QCmd) : Option Nat :=
  if c.tenant ≠ 0 || cWord c 5 ≠ 0 then none
  else match spaceWalk s 0 0 (cAddr c 1) with
    | .error _ => none
    | .ok (pa, pte) =>
      let lo := pa % 2 ^ 40
      if pa / 2 ^ 40 = s.pkg && 0xE100000000 ≤ lo && lo < 0xE100004000 && bitAt pte 5 then some (lo - 0xE100000000) else none

/-- The bytes of a 64-bit write. -/
def sigBytes (s : State) (c : QCmd) : Except Reject (List Loc) := bytePlaces s c 1 (cAddr c 1) 8

def sigTo (s : State) (c : QCmd) : Except Reject SigTo :=
  match apertureOff s c with
  | some off => .ok (.aperture off)
  | none => if cWord c 5 = 2 then (objectPlaceQ s c 1 (cAddr c 1)).map (fun p => .bytes [p.loc]) else (sigBytes s c).map .bytes

/-- The forms of a `SIGNAL`: 0 a write, 1 an add, 2 `BBADD`, 3 a tenant record, 4 the reset word. -/
def sigForm (c : QCmd) (t : SigTo) : Nat :=
  match t with
  | .aperture off => if off < 0x2000 then 3 else if off = 0x2000 then 4 else 0
  | .bytes _ => cWord c 5

/-- The value that a `SIGNAL` with OP 1 leaves at its address. -/
def sigSum (s : State) (ls : List Loc) (v : DWord) : Option (State × List Byte) :=
  match ls.foldl (fun acc l => match acc with
    | none => none
    | some (s, bs) => (frontRead s l 1).map (fun x => (x.1, bs ++ x.2))) (some (s, [])) with
  | none => none
  | some (s1, bs) => some (s1, leBytes 8 ((leNat bs + v.toNat) % 2 ^ 64))

/-- A `SIGNAL` of a form starts; a rejected one is taken by every form. -/
def signalStart (form : Nat) (act : Nat → QCmd → SigTo → State → Option State) (q : Nat) (c : QCmd) (s : State) : Option State :=
  if cWord c 5 = 3 then some (rejectCmd s q c ⟨0x86, []⟩)
  else match sigTo s c with
    | .error r => some (rejectCmd s q c r)
    | .ok t => if sigForm c t = form then act q c t s else none

/-- OP 0: 64 bits are written as a release; an offset of the aperture with no layout holds nothing. -/
def execSignalWrite (slot : Nat) (s : State) : Out :=
  startCmd slot 3 (signalStart 0 (fun q c t s => match t with
    | .bytes ls => some (completeCmd (writeEach s ls (leBytes 8 (cVal c 3).toNat)) q c false)
    | .aperture _ => some (completeCmd s q c false))) s

/-- OP 1: a 64-bit atomic add. -/
def execSignalAtomicAdd (slot : Nat) (s : State) : Out :=
  startCmd slot 3 (signalStart 1 (fun q c t s => match t with
    | .bytes ls => (sigSum s ls (cVal c 3)).map (fun x => completeCmd (writeEach x.1 ls x.2) q c false)
    | .aperture _ => none)) s

/-- OP 2: `BBADD` of the value to the barrier at the address. -/
def execSignalBbadd (slot : Nat) (s : State) : Out :=
  startCmd slot 3 (signalStart 2 (fun q c t s => match t with
    | .bytes (l :: _) => some (completeCmd (frontBbAdd s l (cVal c 3)) q c false)
    | _ => none)) s

/-- Write 64 bits of the tenant table, byte by byte (R424). -/
def writeRecord (s : State) (off : Nat) (v : DWord) : State :=
  (List.range 8).foldl (fun s k =>
    let a := off + k
    let t := a / 32
    let b := (tenantOf s t).bits.toNat
    let sh := 8 * (a % 32)
    let b' := b - (b >>> sh) % 256 * 2 ^ sh + (v.toNat >>> (8 * k)) % 256 * 2 ^ sh
    if t < 256 then { s with front := { s.front with
      tenants := AMap.set {} s.front.tenants t { (tenantOf s t) with bits := BitVec.ofNat 256 b' } } } else s) s

/-- R408: the record as written takes effect at the tenant's next context boundary. -/
def execTenantRecordWrite (slot : Nat) (s : State) : Out :=
  startCmd slot 3 (signalStart 3 (fun q c t s => match t with
    | .aperture off => some (completeCmd (writeRecord s off (cVal c 3)) q c false)
    | .bytes _ => none)) s

/-! ## Tenant reset (R409) -/

/-- The launches of a tenant that have not ended. -/
def tenantLaunches (s : State) (t : Nat) : List Nat :=
  (s.launches.filter (fun e => e.2.tenant == t && e.2.st != .done && e.2.st != .aborted)).map Prod.fst

/-- The queues of the table that belong to a tenant. -/
def tenantQueues (s : State) (t : Nat) : List Nat :=
  (List.range (min s.front.qtn 65536)).filter (fun q => dTenant (desc s q) == t)

/-- A queue of a tenant that is reset: out of the scan and of its slot, its commands gone, in ERROR. -/
def resetQueue (s : State) (q : Nat) : State :=
  let s1 := match slotOf s q with
    | some k => freeQSlot s k
    | none => s
  let s2 := setPending s1 q false
  setQState { s2 with
    front := { s2.front with orphans := s2.front.orphans.erase q }
    checker := { s2.checker with egress := s2.checker.egress.filter (fun e => e.queue != q) } } q 2

/-- The launches of other tenants with an edge to a version that a reset frees, and the page of each. -/
def resetDependents (s : State) (t : Nat) (gone : List (Nat × Nat)) : List (Nat × Nat) :=
  s.launches.filterMap (fun e =>
    if e.2.tenant == t || !(e.2.st == .waiting || e.2.st == .running || e.2.st == .ending) then none
    else (e.2.edges.find? (fun x => gone.contains x)).map (fun x => (e.1, x.1)))

/-- Steps 1 to 5 of R409: queues, teams, versions, storage, events. What depends on a dependent that is aborted is discarded as R255
of 09 says, and stays so. -/
def resetTenant (s : State) (t : Nat) : State :=
  let s1 := (tenantQueues s t).foldl resetQueue s
  let lids := tenantLaunches s1 t
  let frames := lids.flatMap (fun l => (s1.la l).sqs.flatMap (fun q => Config.queueFrames l q.1)) ++
    s1.teams.flatMap (fun e => if lids.contains e.2.lid && !e.2.fin then (e.2.image.map (fun k => Config.imageFrames k e.1)).getD [] else [])
  let s2 := lids.foldl (fun s l => (s.stopLaunch l).modLaunch l (fun x => { x with
    sqs := [], epochs := [], stream := [] })) s1
  let mine (v : Version) : Bool := (s.la v.lid).tenant == t && v.st != .released
  let gone := s2.stage.flatMap (fun p => (p.2.versions.filter (fun v => mine v && v.st == .sealed)).map (fun v => (p.1, v.num)))
  let s3 := lids.foldl freeLog (dropVersions (quarantineFrames s2 frames) (fun _ v => mine v))
  let s4 := { s3 with front := { s3.front with
    reruns := s3.front.reruns.filter (fun l => !lids.contains l), routeWait := s3.front.routeWait.filter (fun l => !lids.contains l) } }
  let s5 := (resetDependents s4 t gone).foldl (fun s e =>
    let va := s.pageVa e.1 e.2
    s.abortLaunch e.1 0xC7 [addrLo va, addrHi va]) s4
  let s6 := (resetDependents s4 t gone).foldl (fun s e =>
    discardAll (s.launches.length + 1) (dropVersions (s.modLaunch e.1 (fun l => { l with epochs := [], edges := [] }))
      (fun _ v => v.lid == e.1 && v.st == .sealed)) e.1 (sealedOf s e.1)) s5
  s6.raiseEvent (s6.eventWords 0 t 0 5 0 0 false [])

/-- The write completes whatever its value; 1 to 255 name the tenant that is reset. -/
def execTenantReset (slot : Nat) (s : State) : Out :=
  startCmd slot 3 (signalStart 4 (fun q c _ s =>
    let v := (cVal c 3).toNat
    let s1 := completeCmd s q c false
    some (if 1 ≤ v && v ≤ 255 then resetTenant s1 v else s1))) s

/-! ## RELEASE and the requests at the checker (13 R366, R374) -/

/-- The status word of a `RELEASE` is written, and the command completes. -/
def releaseDone (s : State) (q : Nat) (c : QCmd) (w : Word) : State :=
  completeCmd (writeWord s c 4 (cAddr c 4) (leBytes 4 w.toNat)) q c false

def releaseStart (q : Nat) (c : QCmd) (s : State) : Option State :=
  if !bitAt (accepted s) 6 then some (rejectCmd s q c ⟨0x81, [6]⟩)
  else match rangePlaces (readPlace s c) (cAddr c 1) (cWord c 3), bytePlaces s c 4 (cAddr c 4) 4 with
    | .error r, _ => some (rejectCmd s q c r)
    | _, .error r => some (rejectCmd s q c r)
    | .ok ps, .ok _ =>
      let pages := ps.map (fun p => match p.2.2.loc with | .stg f _ => (f, true) | _ => (0, false))
      match askRelease s 0 pages none (some (q, c.idx)) with
      | (s1, some w) => some (releaseDone s1 q c w)
      | (s1, none) => some s1

def execRelease (slot : Nat) (s : State) : Out := startCmd slot 5 releaseStart s

/-- The request's first page is settled: released, skipped or refused. -/
def nextPage (s : State) (id : Nat) (f : RelReq → RelReq) : State :=
  { s with checker := { s.checker with releases := s.checker.releases.map (fun r =>
      if r.id = id then { (f r) with pages := r.pages.tail, reached := none } else r) } }

/-- What becomes of the first page of a request now. -/
inductive PageDo where
  | skip
  | grant (num : Nat)
  | counted
  | refuse
  | wait (lid num : Nat)
  deriving DecidableEq, Repr

/-- The newest non-FAILED version decides, but not one older than that which the request awaits: of a version that became FAILED its
launch's re-execution is awaited. -/
def pageDo (s : State) (page : Nat) (reached : Option (Nat × Nat)) : PageDo :=
  let await (x : Nat × Nat) : PageDo := if (s.la x.1).st == .aborted then .refuse else .wait x.1 x.2
  let vs := (s.pageOf page).versions
  match vs.reverse.find? (fun v => v.st != .failed && reached.all (fun x => decide (x.2 ≤ v.num))) with
  | some v => match v.st with
    | .checked => .grant v.num
    | .released => .counted
    | _ => await (v.lid, v.num)
  | none => match reached.orElse (fun _ => vs.getLast?.map (fun v => (v.lid, v.num))) with
    | none => .skip
    | some x => await x

/-- A request whose pages are settled is answered. -/
def answerRelease (s : State) (r : RelReq) : State :=
  let w := relStatus r.code r.done
  let s1 : State := { s with checker := { s.checker with releases := s.checker.releases.filter (fun x => x.id != r.id) } }
  match r.vres, r.cmd with
  | some (core, id), _ => s1.fillVar core id [w]
  | none, some (q, idx) => match (qcmds s1 q).find? (fun c => c.idx == idx) with
    | some c => releaseDone s1 q c w
    | none => s1
  | none, none => s1

/-- Serve a release request: its first page is released once its newest version is CHECKED; the older versions that it
supersedes go. -/
def execReleaseGrant (id : Nat) (s : State) : Out :=
  match s.checker.releases.find? (fun r => r.id == id) with
  | none => .next s
  | some r => match r.pages with
    | [] => .next (answerRelease s r)
    | page :: _ =>
      let settle (s : State) (f : RelReq → RelReq) : State :=
        let s1 := nextPage s id f
        match s1.checker.releases.find? (fun r => r.id == id) with
        | some x => if x.pages.isEmpty then answerRelease s1 x else s1
        | none => s1
      match pageDo s page r.reached with
      | .skip => .next (settle s (fun r => r))
      | .grant n =>
        let s1 := modVersions s (fun p v => p == page && v.num == n) (fun v => { v with st := .released })
        let s2 := dropVersions s1 (fun p v => p == page && decide (v.num < n) && (v.st == .checked || v.st == .released))
        .next (settle s2 (fun r => { r with done := r.done + 1 }))
      | .counted => .next (settle s (fun r => { r with done := r.done + 1 }))
      | .refuse => .next (settle s (fun r => { r with code := 2 }))
      | .wait l n => .next { s with checker := { s.checker with releases := s.checker.releases.map (fun x =>
          if x.id = id then { x with reached := some (l, n) } else x) } }

end Sys2Proof.Machine
end

