-- ==== Sys2Proof/Machine/Hostq.lean ====
section
/-!
DEFINITION. Sys2Proof/Machine/Hostq.lean: the host's side of the front die: notify writes, the queue scheduler with its time
slices, host registers, the event ring, and the acknowledgement of the checker's rings (15 R410-R412, R420-R424; 16 R426,
R436-R438; 17 R450).
-/

namespace Sys2Proof.Machine

open Sys2Proof State

/-! ## Notify writes (R410) -/

def execNotifyWrite (q : Nat) (widx : Word) (s : State) : Out :=
  if hasQueue s q then
    let s1 := setWidx s q widx.toNat
    .next (if dRidx (desc s1 q) = widx.toNat then s1 else setPending s1 q true)
  else .next s

/-! ## The scheduler (R411, R412) -/

/-- A slot extended by a digest: MS := SHA3-512(MS ‖ d), with its journal entry (16 R426). -/
def extendSlot (s : State) (k : Nat) (d : BitVec 512) : State :=
  let ms := (s.checker.ms.getD k 0)
  let s1 : State := { s with checker := { s.checker with
    ms := s.checker.ms.set k (sha3 (leBytes 64 ms.toNat ++ leBytes 64 d.toNat)) } }
  s1.journalF 0x01 0xFFFF [k, d.toNat % 2 ^ 64]

/-- The stacks that a tenant's lines are held in: its private ones, joined with those of every tenant whose mask overlaps (R408). -/
def l2Stacks (s : State) (t : Nat) : Nat :=
  let mine := tenantBits s t 127 120
  s.front.tenants.foldl (fun m e => let x := bitsOf e.2.eff.toNat 127 120; if x &&& mine = 0 then m else m ||| x) mine

/-- The partition of every tenant that has private stacks (08 R196). -/
def l2Want (s : State) : AMap Nat :=
  s.front.tenants.foldl (fun m e => AMap.set 0 m e.1 (l2Stacks s e.1)) []

/-- Start a change of the L2's mode where the records in effect ask for other partitions (08 R196). -/
def askL2 (s : State) : State :=
  let w := l2Want s
  if w = s.msys.l2Changing.getD s.msys.l2Parts then s else { s with msys := { s.msys with l2Changing := some w } }

/-- The priority of a queue, clamped to its tenant's highest: that of the record in effect, or, of a tenant with no queue on a slot,
of the record that mapping the queue brings into effect. -/
def prioOf (s : State) (q : Nat) : Nat :=
  let d := desc s q
  let t := tenantOf s (dTenant d)
  let on := s.front.slots.any (fun e => dTenant (desc s e.2.queue) == dTenant d)
  min (dPrio d) (min 3 (bitsOf (if on then t.eff else t.bits).toNat 146 144))

/-- A pending, IDLE queue of a valid tenant that is on no slot. -/
def candidate (s : State) (q : Nat) : Bool :=
  let d := desc s q
  s.front.pending.get false q && hasWork s q && hasQueue s q && (slotOf s q).isNone && dState d == 0 &&
  tenantValid (dTenant d) (tenantOf s (dTenant d)).bits
def candidates (s : State) : List Nat := (s.front.pending.map Prod.fst).filter (candidate s)

/-- The rings are set and boot has passed, without which no queue is mapped (Table 15.10, 16 R426). -/
def mayMap (s : State) : Bool :=
  s.checker.booted && !s.checker.bootFailed && decide (14 ≤ s.front.jlogn) && decide (s.front.jlogn ≤ 24) &&
  decide (10 ≤ s.front.frlogn) && decide (s.front.frlogn ≤ 20)

/-- The queue that the scan takes: the highest priority, round-robin from the last one mapped. -/
def scanPick (s : State) : Option Nat :=
  [3, 2, 1, 0].findSome? (fun p =>
    let qs := sortBy (fun q => q) ((candidates s).filter (fun q => prioOf s q == p))
    match AMap.find? s.front.lastMapped p with
    | some last => match qs.find? (fun q => decide (last < q)) with
      | some q => some q
      | none => qs.head?
    | none => qs.head?)

/-- Slice length in ns. -/
def sliceNs (s : State) : Nat := s.front.slice * 1000

/-- The first mapping opens the checker's rings; at it, and at the first one after each change of the accepted features, the set
is extended into MS4. -/
def firstMapping (s : State) : State :=
  let s1 : State := { s with front := { s.front with everMapped := true } }
  let s2 := flushFaults s1.checker.fwait.length (flushJournal s1.checker.jwait.length s1)
  if s2.front.featNew then
    extendSlot { s2 with front := { s2.front with featNew := false } } 4 (sha3 (leBytes 16 (accepted s2)))
  else s2

/-- Map a queue on a slot: its tenant's record takes effect, its commands in flight and pre-empted teams return. -/
def mapQueue (s : State) (q k : Nat) : State :=
  let t := dTenant (desc s q)
  let s1 := askL2 (takeRecord (firstMapping s) t)
  let p := prioOf s1 q
  let s2 : State := { (setQState s1 q 1) with front := { (setQState s1 q 1).front with
    slots := s1.front.slots.insert k ({
      queue := q, sliceEnd := s1.time + sliceNs s1, since := s1.time, cmds := s1.front.orphans.get [] q } : Slot)
    orphans := s1.front.orphans.erase q
    lastMapped := AMap.insert s1.front.lastMapped p q } }
  samplePending ((stoppedTeams s2 q).foldl resumeTeam s2) q

def execPendingScan (s : State) : Out :=
  if !mayMap s || (s.front.featNew && s.front.everMapped && s.jfull) then .next s
  else match (List.range 64).find? (fun k => (AMap.find? s.front.slots k).isNone), scanPick s with
    | some k, some q =>
      if dBad (desc s q) then .next (setQState s q 2) else .next (mapQueue s q k)
    | _, _ => .next s

/-- Unmap a slot: its launches' running teams are pre-empted, and the queue stays pending while it has commands, or work that
is not complete. -/
def unmapSlot (s : State) (k : Nat) : State :=
  match AMap.find? s.front.slots k with
  | none => s
  | some x =>
    let q := x.queue
    let s1 := (s.teams.filter (fun e => e.2.running && (s.la e.2.lid).queue == q &&
      ((s.la e.2.lid).st == .running || (s.la e.2.lid).st == .ending))).foldl (fun s e => s.preempt e.1) s
    let s2 := setQState (freeQSlot s1 k) q 0
    takeRecord (samplePending s2 q) (dTenant (desc s2 q))

/-- Slots whose slice has ended, the lowest priority first and then the oldest mapping. -/
def expired (s : State) : List Nat :=
  let es := s.front.slots.filter (fun e => decide (e.2.sliceEnd ≤ s.time))
  (sortBy (fun e => prioOf s e.2.queue) (sortBy (fun e => e.2.since) es)).map Prod.fst

def execTimeSliceEnd (slot : Nat) (s : State) : Out :=
  match AMap.find? s.front.slots slot with
  | none => .next s
  | some x =>
    if s.time < x.sliceEnd then .next s
    else
      let d := desc s x.queue
      let waits := (candidates s).filter (fun q => decide (prioOf s x.queue ≤ prioOf s q))
      let free := 64 - s.front.slots.length
      if (dWidx d = dRidx d && (liveCmds s x.queue).isEmpty) ||
        (free == 0 && ((expired s).take waits.length).contains slot) then .next (unmapSlot s slot)
      else .next { s with front := { s.front with
        slots := s.front.slots.map (fun e => if e.1 = slot then (e.1, { e.2 with sliceEnd := s.time + sliceNs s }) else e) } }

/-! ## The event ring (R421, R422) -/

/-- HEAD moves: held events are posted in order, and stalled contexts go on. -/
def setEqHead (s : State) (v : Word) : State :=
  let s1 : State := { s with front := { s.front with eqhead := v } }
  let s2 : State := if s1.ringUsed < 2 ^ s1.front.eqk - 1 then { s1 with front := { s1.front with overflowed := false } } else s1
  s2.settleRing

def execEqheadWrite (val : Word) (s : State) : Out := .next (setEqHead s val)

/-! ## Features (R420) -/

/-- Bits that stepping A1 publishes. -/
def published : Nat := 0x3FF

/-- A 32-bit write of FEATACC: only while no queue is mapped, and of published bits. -/
def setFeat (s : State) (idx : Nat) (v : Word) : State :=
  if !s.front.slots.isEmpty then s
  else
    let x := s.front.feataccLo
    let y := (x - bitsOf x (32 * idx + 31) (32 * idx) * 2 ^ (32 * idx) + v.toNat * 2 ^ (32 * idx)) &&& published
    { s with front := { s.front with feataccLo := y, featNew := s.front.featNew || decide (y ≠ x) } }

def execFeataccWrite (idx : BitVec 2) (val : Word) (s : State) : Out := .next (setFeat s idx.toNat val)

/-! ## The checker's rings (R424; 16 R436-R438) -/

def ackJournal (s : State) (v : Nat) : State :=
  if v < s.checker.jrseq || s.checker.jwseq < v then s
  else (flushJournal s.checker.jwait.length { s with checker := { s.checker with jrseq := v } }).retireDue.settleRetired

def execJournalAck (val : Nat) (s : State) : Out := .next (ackJournal s val)

def ackFaults (s : State) (v : Nat) : State :=
  if v < s.checker.frridx || s.checker.frwidx < v then s
  else (flushFaults s.checker.fwait.length { s with checker := { s.checker with frridx := v } }).settleRing

def execFaultRecordAck (val : Nat) (s : State) : Out := .next (ackFaults s val)

/-- A write of 1 asks for a checkpoint (16 R437). -/
def askCheckpoint (s : State) (v : DWord) : State :=
  if bitAt v.toNat 0 then { s with checker := { s.checker with ckptDue := s.checker.ckptDue + 1 } } else s

def execCheckpointRequest (val : DWord) (s : State) : Out := .next (askCheckpoint s val)

/-- A checkpoint that is due is written to its slot, its journal entry appended, and then those that waited for it (R424, 16 R437). -/
def execJournalCheckpoint (s : State) : Out :=
  if s.checker.ckptDue = 0 || !s.jringOk || s.jfull then .next s
  else
    let n := s.checker.checkpoints
    let head := leBytes 8 (s.checker.jwseq - 1) ++ leBytes 64 s.chainOf.toNat ++ leBytes 8 s.time
    let body := (head ++ signBy s head ++ List.replicate 8192 0).take 8192
    let s1 := frontStore s (s.localPa (s.front.jckbase + 8192 * (n % 16))) body
    let s2 : State := { s1 with checker := { s1.checker with checkpoints := n + 1, ckptDue := s1.checker.ckptDue - 1 } }
    let s3 := s2.putJournal { kind := 0x0D, tenant := 0xFFFF, time := s2.time, fields := [n], payload := Config.journalPayload 0x0D [n] }
    .next (flushJournal s3.checker.jwait.length s3)

/-! ## Host registers (Tables 15.10 and 17.3) -/

/-- Bits [51:6] of a base, aligned to 64. -/
def base64 (v : Nat) : Nat := bitsOf v 51 6 * 64

/-- Change the registers that are written only before the first mapping. -/
def beforeMapping (s : State) (f : Front → Front) : State := if s.front.everMapped then s else { s with front := f s.front }

/-- A host write of a register; read-only registers and offsets that are not listed ignore it. -/
def writeHostReg (s : State) (off : Nat) (val : DWord) : State :=
  let v := val.toNat
  match off with
  | 0x010 => setFeat (setFeat s 0 (BitVec.ofNat 32 v)) 1 (BitVec.ofNat 32 (v / 2 ^ 32))
  | 0x018 => setFeat (setFeat s 2 (BitVec.ofNat 32 v)) 3 (BitVec.ofNat 32 (v / 2 ^ 32))
  | 0x020 => ({ s with front := { s.front with eqbase := base64 v } } : State).settleRing
  | 0x028 => ({ s with front := { s.front with eqk := v % 32 } } : State).settleRing
  | 0x030 => setEqHead s (BitVec.ofNat 32 v)
  | 0x048 => if 100 ≤ v % 2 ^ 17 && v % 2 ^ 17 ≤ 100000 then { s with front := { s.front with slice := v % 2 ^ 17 } } else s
  | 0x050 => beforeMapping s (fun f => { f with qtbase := base64 v })
  | 0x058 => beforeMapping s (fun f => { f with qtn := v % 2 ^ 17 })
  | 0x060 => beforeMapping s (fun f => { f with jbase := base64 v })
  | 0x068 => beforeMapping s (fun f => { f with jlogn := v % 32 })
  | 0x070 => beforeMapping s (fun f => { f with jckbase := base64 v })
  | 0x080 => ackJournal s v
  | 0x088 => askCheckpoint s val
  | 0x090 => beforeMapping s (fun f => { f with frbase := base64 v })
  | 0x098 => beforeMapping s (fun f => { f with frlogn := v % 32 })
  | 0x0A8 => ackFaults s v
  | 0x0B0 => beforeMapping s (fun f => { f with hwbase := v / 2 ^ 36 * 2 ^ 36 })
  | 0x100 => { s with power := { s.power with plogBase := base64 v } }
  | 0x108 => { s with power := { s.power with trace := bitAt v 8, plogK := v % 32 } }
  | 0x110 => { s with power := { s.power with plogHead := v % 2 ^ 32 } }
  | _ => s

/-- The sensor register of twin pair `n`, 32 bits (17 R454). -/
def readSensor (s : State) (n : Nat) : Word :=
  let p := s.tp (n / 128 / 2 * 4 * 128 + n / 128 % 2 * 128 + n % 128)
  BitVec.ofNat 32 (p.upperT.toNat * 2 ^ 16 + p.lowerT.toNat)

/-- What a 64-bit host read of a register answers. -/
def readHostReg (s : State) (off : Nat) : DWord :=
  let n := off / 8
  BitVec.ofNat 64 (match off with
  | 0x000 => published
  | 0x010 => accepted s % 2 ^ 64
  | 0x018 => accepted s / 2 ^ 64
  | 0x020 => s.front.eqbase
  | 0x028 => s.front.eqk
  | 0x030 => s.front.eqhead.toNat
  | 0x038 => s.front.eqtail.toNat
  | 0x040 => 0xE100000000
  | 0x048 => s.front.slice
  | 0x050 => s.front.qtbase
  | 0x058 => s.front.qtn
  | 0x060 => s.front.jbase
  | 0x068 => s.front.jlogn
  | 0x070 => s.front.jckbase
  | 0x078 => s.checker.jwseq
  | 0x080 => s.checker.jrseq
  | 0x090 => s.front.frbase
  | 0x098 => s.front.frlogn
  | 0x0A0 => s.checker.frwidx
  | 0x0A8 => s.checker.frridx
  | 0x0B0 => s.front.hwbase
  | 0x100 => s.power.plogBase
  | 0x108 => s.power.trace.toNat * 256 + s.power.plogK
  | 0x110 => s.power.plogHead
  | 0x118 => s.power.plogTail
  | 0x120 => s.power.pdeny.toNat
  | 0x128 => s.power.plogDrop.toNat
  | _ =>
    if 0x140 ≤ off && off < 0x168 then
      let p := s.poolAt (n - 0x28)
      p.throttled.toNat * 8 + p.point
    else if 0x180 ≤ off && off < 0x280 then
      let c := s.cl (n - 0x30)
      c.memb.toNat * 2 ^ 24 + c.issb.toNat * 2 ^ 16 + c.clock * 2 ^ 13 + c.pool * 2 ^ 10
    else if 0x980 ≤ off && off < 0x1180 then s.power.tfill.get 0 (n - 0x130)
    else if 0x10000 ≤ off && off < 0x12000 then
      (readSensor s ((off - 0x10000) / 4)).toNat + 2 ^ 32 * (readSensor s ((off - 0x10000) / 4 + 1)).toNat
    else 0)
/-- What a 32-bit read answers: a half of the register. -/
def readHostHalf (s : State) (off : Nat) : Word := ((readHostReg s (off / 8 * 8)) >>> (8 * (off % 8))).setWidth 32

/-- A 32-bit write: a word of FEATACC, or one half of a register, the other standing as it reads. -/
def writeHostHalf (s : State) (off : Nat) (v : Word) : State :=
  if 0x010 ≤ off && off < 0x020 then setFeat s ((off - 0x010) / 4) v
  else
    let x := (readHostReg s (off / 8 * 8)).toNat
    let y := if off % 8 = 0 then x / 2 ^ 32 * 2 ^ 32 + v.toNat else v.toNat * 2 ^ 32 + x % 2 ^ 32
    writeHostReg s (off / 8 * 8) (BitVec.ofNat 64 y)

/-- A host write of 64 bits or of 32, aligned to its size. -/
def execHostRegisterWrite (off : Nat) (val : HostData) (s : State) : Out :=
  .next (match val with
    | .dword v => if off % 8 = 0 then writeHostReg s off v else s
    | .word v => if off % 4 = 0 then writeHostHalf s off v else s)

end Sys2Proof.Machine
end

