-- ==== Sys2Proof/Machine/Trust.lean ====
section
/-!
DEFINITION. Sys2Proof/Machine/Trust.lean: the checker's mailbox and its links: the fault-injection write, boot, SPDM, sealed
regions, capabilities, the domain and received flit groups (13 R355, R365; 15 R423; 16 R426-R435).
-/

namespace Sys2Proof.Machine

open Sys2Proof State

/-! ## Fault injection (13 R355) -/

def execWitnessFaultInjectionWrite (val : BitVec 96) (s : State) : Out :=
  if s.jfull then .next s
  else
    let x := val.toNat - bitsOf val.toNat 42 27 * 2 ^ 27
    let s1 : State := { s with checker := { s.checker with inject := BitVec.ofNat 96 x, injected := false } }
    .next (s1.journal 0x0A 0xFFFF (injectPayload x false))

/-! ## Boot (16 R426) -/

/-- The slots that the objects of the boot chain extend, in order: 16 images of base-die firmware come last. -/
def bootOrder : List Nat := [0, 1, 2] ++ List.replicate 16 3

/-- A boot that fails halts where it stands. -/
def haltBoot (s : State) : State := { s with checker := { s.checker with bootFailed := true } }

/-- Objects are verified and measured in the order of Table 16.1, each of at least the fused security version; that of the checker
firmware is the salt of the keys (R428). -/
def bootSteps : List Nat → List BootObject → State → State
  | [], [], s => { s with checker := { s.checker with booted := true } }
  | k :: ks, o :: os, s =>
    if o.slot = k && o.verified && decide (Config.minVersion k ≤ o.version) then
      let s1 : State := if k = 0 then { s with checker := { s.checker with secVer := o.version } } else s
      bootSteps ks os (extendSlot s1 k o.digest)
    else haltBoot s
  | _, _, s => haltBoot s

def execPowerOn (objs : List BootObject) (s : State) : Out :=
  .next (if s.checker.booted || s.checker.bootFailed then s else bootSteps bootOrder objs s)

/-! ## SPDM (16 R427; the layouts are those of DSP0274 1.3, log 101) -/

/-- An answer, signed by the attestation key. -/
def respond (s : State) (code : Nat) (body : List Byte) : State :=
  { s with checker := { s.checker with responses := s.checker.responses ++ [(code, body ++ signBy s body)] } }

/-- SPDM's code of an error response. -/
def rError : Nat := 0x7F

/-- The header of a response: version 1.3, its code, and two parameters. -/
def spdmHead (code p1 p2 : Nat) : List Byte := [0x13, BitVec.ofNat 8 code, BitVec.ofNat 8 p1, BitVec.ofNat 8 p2]
/-- A response whose contents the rule does not give: its header and free bytes. -/
def spdmOpen (s : State) (code p1 p2 : Nat) (nonce : BitVec 256) : List Byte :=
  spdmHead code p1 p2 ++ Config.spdmBody code s.checker.ms nonce

/-- An answer to a request: nothing before the boot, and after a boot that failed only what `always` allows. -/
def spdm (always ok : Bool) (code : Nat) (body : List Byte) (s : State) : Out :=
  if !s.checker.booted && !s.checker.bootFailed then .next s
  else if ok && (always || s.checker.booted) then .next (respond s code body)
  else .next (respond s rError (spdmOpen s rError 0 0 0))

def execGetVersion (s : State) : Out := spdm true true 0x04 (spdmOpen s 0x04 0 0 0) s
def execGetCapabilities (s : State) : Out := spdm true true 0x61 (spdmOpen s 0x61 0 0 0) s

/-- The algorithms selected: measurements in DMTF format with SHA3-512, SHA3-512 as the hash, no listed asymmetric algorithm, and
ML-DSA-87 as an extended one. -/
def algorithms : List Byte :=
  spdmHead 0x63 0 0 ++ leBytes 2 40 ++ [1, 0] ++ leBytes 4 (2 ^ 6) ++ leBytes 4 0 ++ leBytes 4 (2 ^ 5) ++ List.replicate 12 0 ++
  [1, 0, 0, 0] ++ leBytes 4 Config.extAsym.toNat
def execNegotiateAlgorithms (s : State) : Out := spdm false true 0x63 algorithms s

/-- Slot 0 is the only certificate slot: its bit in a mask of slots. -/
def slotMask : Nat := 1
def execGetDigests (s : State) : Out := spdm false true 0x01 (spdmOpen s 0x01 0 slotMask 0) s
def execGetCertificate (certSlot : Nat) (s : State) : Out := spdm false (certSlot == 0) 0x02 (spdmOpen s 0x02 0 0 0) s
def execChallenge (ask : SpdmAsk) (s : State) : Out :=
  spdm false (ask.certSlot == 0) 0x03 (spdmOpen s 0x03 0 slotMask ask.nonce) s

/-- Measurement block `k` + 1: a slot as a raw digest in DMTF format. -/
def measBlock (s : State) (k : Nat) : List Byte :=
  [BitVec.ofNat 8 (k + 1), 1] ++ leBytes 2 67 ++ [Config.measType (k + 1)] ++ leBytes 2 64 ++ leBytes 64 (s.checker.ms.getD k 0).toNat
/-- A measurement record of blocks: their number, their length and the blocks. -/
def measRecord (bs : List (List Byte)) : List Byte := [BitVec.ofNat 8 bs.length] ++ leBytes 3 bs.flatten.length ++ bs.flatten
/-- What an index asks for: 0 the number of blocks, 1 to 8 one block, 255 all of them. -/
def measAnswer (s : State) (index : Nat) : List Byte :=
  if index = 0 then spdmHead 0x60 8 0 ++ measRecord []
  else if index = 255 then spdmHead 0x60 0 0 ++ measRecord ((List.range 8).map (measBlock s))
  else spdmHead 0x60 0 0 ++ measRecord [measBlock s (index - 1)]
def execGetMeasurements (index : Nat) (s : State) : Out := spdm false (decide (index ≤ 8) || index == 255) 0x60 (measAnswer s index) s

/-- A session opens with the key exchange and is whole with its finish. -/
def setSession (s : State) (b : Bool) : State := { s with checker := { s.checker with session := b } }
def execKeyExchange (ask : SpdmAsk) (s : State) : Out :=
  spdm false (ask.certSlot == 0) 0x64 (spdmOpen s 0x64 0 0 ask.nonce)
    (setSession s (s.checker.session || (s.checker.booted && ask.certSlot == 0)))
def execFinish (s : State) : Out := spdm false s.checker.session 0x65 (spdmOpen s 0x65 0 0 0) (setSession s false)

/-! ## Sealed regions (16 R429, R430) -/

/-- The checker serves the driver's mailbox once it has booted (R426). -/
def serves (s : State) : Bool := s.checker.booted && !s.checker.bootFailed && !s.jfull

/-- An import begins: the request must be signed by the owner's key, and its ciphertext carries the content key. -/
def execSealedRegionImport (req : ImportReq) (s : State) : Out :=
  if !serves s || req.signer ≠ some req.ownerKeyHash || req.region = 0 || 255 < req.region || (regionOf s req.region).st ≠ 0 ||
    req.pages = 0 || req.frames.length ≠ req.pages || req.kem.length ≠ 1568 then .next s
  else
    let x : Region := {
      st := 1, size := req.pages, rate := req.rate, burst := req.burst, owner := req.ownerKeyHash, frames := req.frames
      key := Config.decapsulate (kemKey s) req.kem }
    .next ((modRegion s req.region (fun _ => x)).journalF 0x03 0xFFFF [req.region, 1, 0])

/-- The ciphertext of a chunk in its frame, sector by sector (R430). -/
def sealChunk (x : Region) (region f : Nat) (plain : List Byte) : List Byte :=
  (List.range 2048).flatMap (fun k =>
    (Config.xtsSeal (xtsKey x region) (xtsTweak x region (f * 2 ^ 16 + 32 * k)) ((plain.drop (32 * k)).take 32) ++ List.replicate 32 0).take 32)

/-- A chunk is read at its ingress page and decrypted under the content key, its index the nonce. One that verifies reaches its
frame under the region's keys, and only then its ingress page is cleared; the last one makes the region READY, with a full bucket.
One whose tag fails empties the region, whose frames go into quarantine. -/
def execImportChunk (region ingress : Nat) (tagHi tagLo : DWord) (s : State) : Out :=
  let x := regionOf s region
  let a := s.localPa (ingress * 2 ^ 16)
  if !serves s || x.st ≠ 1 || (s.waitOf (.mem a)).isSome then .next s
  else
    let n := x.chunks + 1
    match Config.gcmOpen x.key x.chunks ((List.range (2 ^ 16)).map (fun k => s.byteAt (a + k))) (tagHi ++ tagLo) with
    | none => .next ((modRegion (quarantineFrames s x.frames) region (fun _ => {})).journalF 0x03 0xFFFF [region, 0, x.chunks])
    | some plain =>
      let f := x.frames.getD x.chunks 0
      let s1 := frontStore (frontStore (s.countRead a (2 ^ 16)) (f * 2 ^ 16) (sealChunk x region f plain)) a (List.replicate (2 ^ 16) 0)
      if n < x.size then .next (modRegion s1 region (fun y => { y with chunks := n }))
      else .next ((modRegion s1 region (fun y => { y with
        chunks := n, st := 2, level := x.burst * 10 ^ 9, levelAt := s.time })).journalF 0x03 0xFFFF [region, 2, n])

/-- A revocation that the owner signed: the region is never mapped again. -/
def execRegionRevoke (region : Nat) (signer : Option (BitVec 512)) (s : State) : Out :=
  let x := regionOf s region
  if !serves s || signer ≠ some x.owner || (x.st ≠ 1 && x.st ≠ 2) then .next s
  else .next (freeRevoked ((modRegion s region (fun y => { y with st := 3 })).journalF 0x03 0xFFFF [region, 3, x.chunks]))

/-! ## Capabilities (16 R431) -/

/-- The mailbox's code for a capability, as the model numbers it; SPDM's codes are below 256. -/
def rCapability : Nat := 0x100

/-- A request names a region at least, and the owner of each region that it names has signed it. -/
def ownersSigned (s : State) (mask : Nat) (signers : List (BitVec 512)) : Bool :=
  mask != 0 && (classesOf mask).all (fun r =>
    ((regionOf s r).st == 1 || (regionOf s r).st == 2) && signers.contains (regionOf s r).owner)

/-- A capability is issued on a request that the owners signed: the header, its reserved bits zero, with its signature. Any other
request is refused; both are journalled. -/
def execCapabilityIssue (cap : BitVec 512) (signers : List (BitVec 512)) (s : State) : Out :=
  if !serves s then .next s
  else
    let c := cap.toNat
    let hdr := c - bitsOf c 183 128 * 2 ^ 128 - bitsOf c 63 0
    let ok := ownersSigned s (capMask hdr) signers
    let s1 := if ok then respond s rCapability (leBytes 64 hdr) else s
    .next (s1.journalF 0x04 (bitsOf c 191 184) [capMask hdr, bitsOf c 191 184, (!ok).toNat])

/-! ## The domain (16 R435) -/

/-- The domain table, as measured. -/
def domainDigest (s : State) : BitVec 512 :=
  sha3 (s.checker.peers.flatMap (fun e => leBytes 2 e.1 ++ leBytes 1 (match e.2.mark with | .absent => 0 | .outside => 1 | .member => 2)))

/-- A change of membership: the mark, a new key, the domain table measured into MS5, and the journal entry. Actions: 1 join,
2 leave, 3 key replacement. -/
def changeMember (s : State) (p : Nat) (mark : DomMark) (action : Nat) : State :=
  let s1 := replaceKey (coordinates s) (modPeer s p (fun x => { x with mark := mark }))
  (extendSlot s1 5 (domainDigest s1)).journalF 0x0C 0xFFFF [p, action]

/-- A package is admitted only when `CHALLENGE` and `GET_MEASUREMENTS` were answered truly in both directions, with the same MS0 to MS3
as the coordinator's, which every member's are. -/
def execDomainAdmit (peer : BitVec 12) (proof : PeerProof) (s : State) : Out :=
  let p := peer.toNat
  if s.jfull || !s.checker.booted || p = s.pkg || 3072 ≤ p || (peerOf s p).mark = .member || !proof.authentic ||
    proof.ms.take 4 ≠ s.checker.ms.take 4 then .next s
  else .next (changeMember s p .member 1)

def execDomainKeyReplacement (s : State) : Out :=
  if s.jfull then .next s else .next ((replaceKey (coordinates s) s).journalF 0x0C 0xFFFF [s.pkg, 3])

/-- After 1 ms the old key is accepted no more. -/
def execOldKeyExpiry (s : State) : Out :=
  if s.checker.oldKey.isSome && decide (s.checker.keySince + 1000000 ≤ s.time) then
    .next { s with checker := { s.checker with oldKey := none } }
  else .next s

/-- A package that leaves loses the key at once and is marked outside; of one that leaves itself, every other member is outside. -/
def execDomainLeave (peer : BitVec 12) (s : State) : Out :=
  let p := peer.toNat
  if s.jfull then .next s
  else if p = s.pkg then
    let s1 := replaceKey false { s with checker := { s.checker with
      peers := s.checker.peers.map (fun e => (e.1, if e.2.mark = .member then { e.2 with mark := .outside } else e.2)) } }
    let s2 : State := { s1 with checker := { s1.checker with oldKey := none } }
    .next ((extendSlot s2 5 (domainDigest s2)).journalF 0x0C 0xFFFF [p, 2])
  else if (peerOf s p).mark ≠ .member then .next s
  else .next (changeMember s p .outside 2)

/-! ## Flit groups: what other packages do here (16 R435; 13 R365; 15 R423) -/

/-- Poison marks of written bytes (08 R203). -/
def markPoison (s : State) (pa n : Nat) (p : Bool) : State :=
  if p then { s with poison := (sectors pa n).foldl (fun m k => AMap.set false m k true) s.poison } else s

/-- A member's core or engine has written a page: it becomes domain-only. -/
def memberWrote (s : State) (p f : Nat) : State :=
  if (peerOf s p).mark = .member then { s with msys := { s.msys with domOnly := AMap.set false s.msys.domOnly f true } } else s

/-- May another package reach a physical address of this one, to write it? Only launches of this package write its staging
pages, only its front die host memory (01 R466), and only its checker the checker's rings (16 R436). -/
def linkOpen (s : State) (pa : Nat) : Bool :=
  !s.isStaging (pa / 2 ^ 16) && !isFar s (.mem pa) && !inHostWindow pa && !s.checkerFrame pa

/-- A write from another package; on a page that moves it stalls (08 R200). -/
def linkWrite (s : State) (g : FlitGroup) (addr : Nat) (bytes : List Byte) (poisoned : Bool) : State :=
  let ps := localParts s addr bytes.length
  if partMoves s ps then s
  else ps.foldl (fun s p =>
    if linkOpen s p.1 then
      memberWrote (markPoison (frontStore s p.1 ((bytes.drop (p.1 - s.localPa addr)).take p.2)) p.1 p.2 poisoned) g.sender.toNat (p.1 / 2 ^ 16)
    else s) (countIn s g)

/-- A read by a package outside: what is not released is refused and journalled; the rest passes the buckets of its classes. -/
def outsideRead (s : State) (g : FlitGroup) (addr n : Nat) : State :=
  let p := g.sender.toNat
  let ps := localParts s addr n
  if partMoves s ps then s
  else match ps.mapM (fun q => outsideFrame s q.1 q.2) with
  | none =>
    if s.jfull then s
    else sendOut (countIn (s.journalF 0x08 0xFFFF [g.port + 1, addr]) g) { pkg := p, addr := addr, bytes := none }
  | some parts => startLink (countIn (ps.foldl (fun s q => countOut s q.1 q.2) s) g) (answerOf p addr parts) parts

/-- What a member reads of a part of one frame; `none`: it waits. Of a staging page it gets the newest version with its state, to
which it applies 09 R253 itself (R256, log 72); a WRITING one is for this package's launch alone. -/
def memberFrame (s : State) (pa n : Nat) : Option (State × LinkPart) :=
  let f := pa / 2 ^ 16
  if (s.waitOf (.mem pa)).isSome then none
  else if s.isStaging f then (s.chooseVersion 0 f false true).map (fun v =>
    (s.countFixes v.ecc (f * 2 ^ 16) (pa % 2 ^ 16) n, stagedPart v (pa % 2 ^ 16) n))
  else some (s.countRead pa n, { bytes := (List.range n).map (fun k => s.byteAt (pa + k)), poison := s.memPoison pa n })

/-- The parts that a member reads, in order. -/
def memberParts : List (Nat × Nat) → State → Option (State × List LinkPart)
  | [], s => some (s, [])
  | q :: r, s => match memberFrame s q.1 q.2 with
    | none => none
    | some (s1, x) => (memberParts r s1).map (fun y => (y.1, x :: y.2))

/-- A read by a member; one that obtains nothing waits. -/
def memberRead (s : State) (g : FlitGroup) (addr n : Nat) : State :=
  match memberParts (localParts s addr n) s with
  | none => s
  | some (s1, parts) => sendOut (countIn s1 g) (answerOf g.sender.toNat addr parts)

/-- An operation of a member on an object of this package, at its home; a page that moves makes it wait. -/
def linkObject (s : State) (g : FlitGroup) (addr : Nat) (f : State → Loc → State) : State :=
  let pa := s.localPa addr
  if (s.waitOf (.mem pa)).isSome then s
  else if linkOpen s pa then memberWrote (keepDomain s (f (countIn s g) (.mem pa))) g.sender.toNat (pa / 2 ^ 16)
  else countIn s g

/-- An atomic of a member, performed at its page's home as one (08 R211). -/
def linkAtomic (s : State) (g : FlitGroup) (addr : Nat) (flt : Bool) (op n : Nat) (data : List Word) : State :=
  let pa := s.localPa addr
  let old := s.rdMem pa n
  if (s.waitOf (.mem pa)).isSome then s
  else sendOut (linkWrite (s.countRead pa n) g addr (leBytes n (atomResult flt op n old data)) false)
    { pkg := g.sender.toNat, addr := addr, bytes := some (leBytes n old), poison := s.memPoison pa n }

/-- A member's request at a chunk record of this package (10 R274). -/
def linkChunk (s : State) (g : FlitGroup) (addr : Nat) : State :=
  linkObject s g addr (fun s l =>
    let x := chunkTake s 0 l
    sendOut x.1 { pkg := g.sender.toNat, addr := addr
                  bytes := some (leBytes 8 x.2.1 ++ leBytes 4 x.2.2.1 ++ leBytes 4 x.2.2.2), poison := s.rdPoison 0 l 32 })

/-- A member's wait at a barrier object of this package: it is answered with COUNT once that is 0 or less (10 R277). -/
def linkWait (s : State) (g : FlitGroup) (addr : Nat) : State :=
  let l : Loc := .mem (s.localPa addr)
  if (s.waitOf l).isSome || !decide ((s.countAt l).toInt ≤ 0) then s
  else sendOut (countIn s g) { pkg := g.sender.toNat, addr := addr, bytes := some (leBytes 8 (s.countAt l).toNat) }

/-- A member's collective command arrives at its group record here (10 R271): it joins the open episode, and once every rank has
arrived its answer is the result. For a later episode it waits; a record that does not match it takes no arrival. -/
def linkColl (s : State) (g : FlitGroup) (addr rank : Nat) (src : List Byte) (poisoned : Bool) : State :=
  let l : Loc := .mem (s.localPa addr)
  let read : Option CollEp := (readGroup s l 1).orElse (fun _ => readGroup s l 2)
  let epi : Option CollEp := match episodeAt s l with
    | some e => if e.members.isEmpty then read.map (fun (x : CollEp) => { x with later := e.later }) else some e
    | none => read
  if (s.waitOf l).isSome then s
  else match epi with
    | none => countIn s g
    | some e =>
      if e.npart ≤ rank || src.length ≠ 4 * srcWords e then countIn s g
      else if e.members.any (fun m => m.rank == rank) || e.later.any (fun x => x.2.2 == rank) then s
      else closeEpisode (countIn s g) { e with members := e.members ++ [({
        core := Config.numCores, cmd := 0, rank := rank, src := src, poison := poisoned, dst := [], far := some g.sender.toNat } : CollArr)] }

/-! ## Flit groups: answers to our own requests (09 R256; 14 R402) -/

/-- The state of another package's version reaches this one (09 R256): of a CHECKED or RELEASED version the dependences are
satisfied (R254), and the launches that depend on a FAILED one are discarded (R255), each its own producer (log 72). -/
def linkState (s : State) (page : Nat) (version : Word) : State :=
  let st := version.toNat / 2 ^ 16 % 8
  let num := version.toNat % 2 ^ 16
  if st = 3 || st = 4 then dropEdges s page num
  else if st = 5 then
    (dependents s [(page, num)]).foldl (fun s l =>
      discardAll (s.launches.length + 1) (discardLaunch s l l) l (sealedOf s l)) s
  else s

/-- A reader of staged data of another package obtains a version, by 09 R253: its own package decides by the version's state
whether the read waits. -/
def linkObtains (s : State) (a : PAcc) (version : Word) : Bool :=
  match version.toNat / 2 ^ 16 % 8 with
  | 0 | 3 | 4 => true
  | 2 => (s.launchOf a.tid).accSeal
  | _ => false

/-- The parts of an access that lie in another package. -/
def farPieces (s : State) (a : PAcc) : List (Loc × Nat × Nat) := a.pieces.filter (fun p => isFar s p.1)

/-- The edges that a read of another package's SEALED versions adds (R254), for each of its parts there. -/
def linkEdges (s : State) (a : PAcc) (versions : List Word) : State :=
  ((farPieces s a).zip versions).foldl (fun s x =>
    if x.2.toNat / 2 ^ 16 % 8 = 2 then
      let y := (x.1.1.num / 2 ^ 16, x.2.toNat % 2 ^ 16)
      s.modLaunch (s.lidOf a.tid) (fun l => { l with edges := if l.edges.contains y then l.edges else l.edges ++ [y] })
    else s) s

/-- The bytes of an access: those of its parts in other packages as answered, and those of this package as `near` gives them. -/
def joinPieces (s : State) (near : Loc × Nat × Nat → List Byte) : List (Loc × Nat × Nat) → List Byte → List Byte
  | [], _ => []
  | p :: r, bs =>
    if isFar s p.1 then bs.take p.2.1 ++ joinPieces s near r (bs.drop p.2.1) else near p ++ joinPieces s near r bs

/-- A part of this package that has to wait still. -/
def nearWaits (s : State) (a : PAcc) : Bool :=
  a.pieces.any (fun p => !isFar s p.1 && ((s.waitOf p.1).isSome || (s.waitRead a.tid p.1).isSome))

/-- What a read leaves: of a part of this package its version, its poison and the caches, of one of another the L1 line (08 R190). -/
def farMarks (s : State) (a : PAcc) : State :=
  a.pieces.foldl (fun s p =>
    if isFar s p.1 then (if isAtomic a.op then s else s.cacheRead a.core (s.lidOf a.tid) a.hint p.1)
    else s.readMarks a.core a.tid a.hint p.1 p.2.1) s

/-- The result of a read of another package. -/
def finishFar (s : State) (a : PAcc) (bytes : List Byte) (poisoned : Bool) (versions : List Word) : State :=
  let all := joinPieces s (fun p => s.readPiece a.tid p.1 p.2.1) a.pieces bytes
  let s1 := farMarks (linkEdges (if poisoned then s.setInterval (tagOf a.tid) bPoison else s) a versions) a
  let ws := match a.op with
    | .ver => loadWords 4 false (leNat (all.take 4)) ++ [versions.headD 0]
    | op => answerWords op (leNat all)
  let s2 := if isAtomic a.op then (s1.hitPieces a).keepAtom a ws else s1
  match a.vres with
  | some (c, n) => s2.fillVar c n ws
  | none => s2

/-- The rest of the entry of an `SQPUSH` has come (10 R294). -/
def fillPush (s : State) (id : Nat) (a : PAcc) (bytes : List Byte) (poisoned : Bool) : State :=
  let off (p : Loc × Nat × Nat) : Nat := p.2.2 - a.ea
  let fill (r : SqReq) : SqReq :=
    if r.tag = id then { r with tag := 0, entry := joinPieces s (fun p => (r.entry.drop (off p)).take p.2.1) a.pieces bytes } else r
  let s1 := if poisoned then s.setInterval (tagOf a.tid) bPoison else s
  s1.modLaunch (s1.lidOf a.tid) (fun l => { l with sqs := l.sqs.map (fun q => (q.1, { q.2 with pushes := q.2.pushes.map fill })) })

/-- An answer to one of our tags: the access completes, the monitor is registered, or the wait has found COUNT at 0 or less. One
that comes after its trap finds no tag; one that brings a version which the launch may not obtain leaves the read waiting, and so
does a part of this package that cannot be read yet. -/
def linkResponse (s : State) (g : FlitGroup) (id : Nat) (bytes : List Byte) (poisoned : Bool) (versions : List Word) : State :=
  match s.msys.tags.find? (fun t => t.id == id && t.pkg == g.sender.toNat) with
  | none => countIn s g
  | some t =>
    let a := t.acc
    let s0 := countIn s g
    let s1 : State := { s0 with msys := { s0.msys with tags := s0.msys.tags.filter (fun x => x.id != id) } }
    if !versions.all (linkObtains s a) then s
    else match a.op with
      | .marm => (s1.modThread a.tid (fun x => { x with monitor := a.pieces.head?.map (fun p => p.1.line) })).settleMoves
      | .bbwait =>
        let c : DWord := BitVec.ofNat 64 (leNat (bytes.take 8))
        if decide (c.toInt ≤ 0) then
          s1.modThread a.tid (fun x => match x.park with
            | .bbwait l pd len none => { x with park := .bbwait l pd len (some (c == 0)) }
            | _ => x)
        else s
      | .store | .red _ _ _ => s1.settleMoves
      | .eng cmd =>
        (linkEdges (modCmd s1 a.core cmd (fun c => { c with got := if bytes.isEmpty then c.got else c.got ++ [(t.addr, bytes, poisoned)] }))
          a versions).settleMoves
      | .coll cmd => (farResult s1 a.core cmd bytes poisoned).settleMoves
      | .entry => fillPush (linkEdges s1 a versions) id a bytes poisoned
      | _ => if nearWaits s a then s else (finishFar s1 a bytes poisoned versions).settleMoves

/-! ## A received group -/

/-- What a verified group of a member, or of a package outside, does. -/
def takeGroup (s : State) (g : FlitGroup) (member : Bool) : State :=
  let p := g.sender.toNat
  match g.body with
  | .write addr bytes poisoned => linkWrite s g addr bytes poisoned
  | .read addr n => if member then memberRead s g addr n else outsideRead s g addr n
  | .response id bytes poisoned versions => linkResponse s g id bytes poisoned versions
  | body =>
    if !member then s
    else match body with
      | .atom addr flt op n data => linkAtomic s g addr flt op n data
      | .chunk addr => linkChunk s g addr
      | .bbinit addr c => linkObject s g addr (fun s l => bbInit s 0 l c)
      | .bbadd addr d => linkObject s g addr (fun s l => bbAdd s 0 l d false)
      | .credit addr n => linkObject s g addr (fun s l => bbAdd s 0 l (BitVec.ofInt 64 (-(n : Int))) true)
      | .bbwait addr => linkWait s g addr
      | .monitor addr => sendOut (countIn s g) { pkg := p, addr := addr, bytes := some [] }
      | .coll addr rank src poisoned => linkColl s g addr rank src poisoned
      | .written addr n => (countIn s g).hitLines (linesOf (.mem addr) n)
      | .state page version => linkState (countIn s g) page version
      | _ => s

/-- A received group: one whose tag fails is discarded and counted, and comes again under the link's retry. One behind which the key
must be replaced waits while the journal is full (R436). -/
def execLinkFlitGroupReceive (g : FlitGroup) (s : State) : Out :=
  let p := g.sender.toNat
  let mark := (peerOf s p).mark
  if mark = .absent || p = s.pkg || (s.jfull && (keyNear s 4 || decide (2 ^ 78 ≤ g.counter + 4))) then .next s
  else if !groupOk s g then .next (modPeer s p (fun x => { x with tagFails := x.tagFails + 1 }))
  else .next (takeGroup s g (mark == .member))

end Sys2Proof.Machine
end

