-- ==== Sys2Proof/Machine/Debug.lean ====
section
/-!
DEFINITION. Sys2Proof/Machine/Debug.lean: response watchdogs, the driver's answers, snapshots, paired comparisons, the debugger,
and the loss of dies and links (14 R380, R392-R396, R402-R407).
-/

namespace Sys2Proof.Machine

open Sys2Proof State

/-! ## Watchdogs (R402) -/

/-- The links of a package are marked "recovery pending": tags that wait on it leave their watchdog, counted from the mark. -/
def execLinkRecoveryPending (peer : BitVec 12) (s : State) : Out :=
  let p := peer.toNat
  if (peerOf s p).mark ≠ .member then .next s
  else
    let s1 := modPeer s p (fun x => { x with recovering := true })
    .next { s1 with msys := { s1.msys with tags := s1.msys.tags.map (fun g =>
      if g.pkg = p && !g.recovery then { g with recovery := true, since := s.time } else g) } }

/-- A tag is given up, and with that of a command every other tag of the command. -/
def dropTag (s : State) (g : RespTag) : State :=
  let mate (x : RespTag) : Bool := match g.acc.op with
    | .eng id | .coll id => x.acc.core == g.acc.core && (x.acc.op == .eng id || x.acc.op == .coll id)
    | _ => false
  { s with msys := { s.msys with tags := s.msys.tags.filter (fun x => x.id != g.id && !mate x) } }

/-- The threads at a stage-queue push whose entry a tag was to bring leave its list and take the trap there. -/
def trapPush (s : State) (g : RespTag) (ti : TrapInfo) : State :=
  match (s.th g.acc.tid).park with
  | .sq lid q => match (sqOf s lid q).pushes.find? (fun r => r.tag == g.id) with
    | some r => (r.tids.foldl unparkFor s).takeTrap r.tids { ti with mask := laneMask r.tids } g.acc.pc ((g.acc.pc + r.len) % 2 ^ 52)
        (s.clkOf (s.coreOf g.acc.tid) + 4) none
    | none => s
  | _ => s

/-- A tag that reaches its limit is given up, and its thread takes a trap at its instruction; one parked at an iteration takes it
once the loop is suspended (12 R334). The command whose operation it was faults. -/
def giveUpTag (s : State) (g : RespTag) (code : Nat) : State :=
  let s1 := dropTag s g
  let ti : TrapInfo := { code := code, ad := BitVec.ofNat 64 g.addr, mask := laneMask [g.acc.tid], info := BitVec.ofNat 32 g.pkg }
  (match g.acc.op with
    | .eng id | .coll id => modCmd s1 g.acc.core id (fun c => { c with started := true, waiting := false, fault := some (code, g.pkg, g.addr) })
    | .entry => trapPush s1 g ti
    | _ => match (s.th g.acc.tid).park with
      | .iter => s1.modThread g.acc.tid (fun t => { t with pendTrap := some ti, pendAsync := none, pendPc := some g.acc.pc })
      | _ => trapAlone s1 g.acc.tid ti g.acc.pc (s.th g.acc.tid).pc none).settleMoves

/-- The watchdog of a tag, in the tenant's milliseconds. -/
def execResponseTimeout (id : Nat) (s : State) : Out :=
  match s.msys.tags.find? (fun g => g.id == id) with
  | none => .next s
  | some g =>
    if !g.recovery && !g.held && decide (g.since + wdog s (s.launchOf g.acc.tid).tenant * 1000000 ≤ s.time) then
      .next (giveUpTag s g 0x2A)
    else .next s

/-- The remote-recovery limit, 2 s from the mark. -/
def execRemoteRecoveryTimeout (id : Nat) (s : State) : Out :=
  match s.msys.tags.find? (fun g => g.id == id) with
  | none => .next s
  | some g => if g.recovery && !g.held && decide (g.since + 2000000000 ≤ s.time) then .next (giveUpTag s g 0x2B) else .next s

/-! ## The driver's answer (R380) -/

/-- Threads that wait for the driver with the trap of one of them: its group. -/
def sameTrap (s : State) (tid : Nat) : List Nat :=
  let t := s.th tid
  (s.threads.filter (fun e => e.2.park == t.park && e.2.trap.pc == t.trap.pc && e.2.trap.ad == t.trap.ad &&
    s.lidOf e.1 == s.lidOf tid && s.coreOf e.1 == s.coreOf tid)).map Prod.fst

/-- The preload of a launch is repeated once its source is mapped: its waves receive their registers and start (05 R123). -/
def repeatPreload (s : State) (lid : Nat) : State :=
  let s1 := copyArgs (s.modLaunch lid (fun l => { l with argsDone := false, argsFault := none })) lid
  if !(s1.la lid).argsDone then s
  else (s1.teamsOf lid).foldl (fun s tag =>
    if (s.la lid).argsFault.isSome then preloadFault s tag
    else (s.teamWids tag).foldl (fun s w => (preload s w).modThreads (tidsOf w) (fun _ t =>
      if t.park = .firmware 0x10 then { t with park := .none } else t)) s) s1

/-- The trap that a thread's registers record. -/
def trapOf (t : Thread) : TrapInfo :=
  { code := t.trap.cause.toNat % 256, sub := bitsOf t.trap.cause.toNat 15 8, ad := t.trap.ad, mask := t.trap.mask, info := t.trap.info }

/-- A page that a thread's fault needs is mapped, and its group goes on at its region entry; or the driver declines it, and the
launch ends. -/
def execDriverMapAnswer (tag wave lane : Nat) (mapped : Bool) (s : State) : Out :=
  let tid := tidAt tag wave lane
  let t := s.th tid
  let tids := sameTrap s tid
  match t.park with
  | .firmware code =>
    if code ≠ 0x10 && code ≠ 0x13 then .next s
    else if !mapped then .next (s.abortTrap tids tid (trapOf t) t.trap t.pendAsync)
    else if t.pendTrap.isSome then .next (s.modThreads tids (fun _ x => { x with park := .none }))
    else if (s.launchOf tid).argsFault.isSome then .next (repeatPreload s (s.lidOf tid))
    else .next (tids.foldl (fun s x => s.resumeRegion x (s.clkOf (s.coreOf x))) s)
  | _ => .next s

/-! ## Snapshots (R392) -/

/-- A snapshot that a `SNAP` asks for, or whose interval has elapsed: the team's waves stop, and once what they have outstanding is
complete it is taken. -/
def execSnapshotInterval (tag : Nat) (s : State) : Out :=
  let t := s.tm tag
  let l := s.la t.lid
  let asked := (s.teamWids tag).any (fun w => (s.wv w).snapWait)
  let due := l.snapInt != 0 && decide (t.snapAt + l.snapInt * 1000 ≤ s.time)
  let s1 := s.stopTeam tag
  if t.running && !t.fin && l.snapBase != 0 && (asked || due) then .next (if s1.snapReady tag then s1.takeSnapshot tag else s1) else .next s

/-! ## Paired comparison (R394-R396) -/

/-- CRC-64 by the ECMA-182 polynomial, the highest bit first, with no final XOR. -/
def crcByte (crc : BitVec 64) (b : Byte) : BitVec 64 :=
  (List.range 8).foldl (fun c _ => if c.msb then (c <<< 1) ^^^ 0x42F0E1EBA9EA3693 else c <<< 1)
    (crc ^^^ ((b.zeroExtend 64) <<< 56))
def crc64 (seed : BitVec 64) (bs : List Byte) : BitVec 64 := bs.foldl crcByte seed

/-- The signature of a wave of a copy: the sum over its lanes of the CRC of the lane's records. -/
def signature (s : State) (wid : Nat) : BitVec 64 :=
  (List.range 32).foldl (fun a l =>
    a + crc64 (BitVec.ofNat 64 l) (((s.tm (tagW wid)).records.filter (fun r => r.1 == wid * 32 + l)).flatMap Prod.snd)) 0

/-- A wave of a copy stands at a pair point: before a collective instruction, at a seal point, or at its end. -/
def atPairPoint (s : State) (wid : Nat) : Bool :=
  let live := s.liveTids wid
  !(s.wv wid).pairGo && !(s.wv wid).ended &&
  (if live.isEmpty then !waveBusy s wid
   else live.all (fun t => (s.th t).park == .pair) || live.all (fun t => match (s.th t).park with | .seal _ => true | _ => false))

/-- The held stores of a wave are performed in their order; `none` while one of them waits for a page. -/
def performHeld (wid : Nat) : List HeldStore → State → Option State
  | [], s => some s
  | h :: r, s =>
    if widOf h.tid ≠ wid then performHeld wid r s
    else if (s.waitOf h.loc).isSome then none
    else match s.openPiece h.tid (h.loc, h.bytes.length, 0) with
      | .ok s1 => performHeld wid r (s1.writeNow h.tid 0 h.loc h.bytes h.ea false (some (h.pc, h.stamp)))
      | .park _ => none
      | .exhausted page => some (s.exhaust (s.lidOf h.tid) page)

/-- A wave of a copy goes on past a matched pair point: its records and held stores are done with, and the words in its queues
may leave. -/
def passPair (s : State) (wid : Nat) : State :=
  let s1 := (s.modTeam (tagW wid) (fun t => { t with
    heldStores := t.heldStores.filter (fun h => widOf h.tid != wid), records := t.records.filter (fun r => widOf r.1 != wid)
    mismatches := 0 })).modWave wid (fun w => { w with eqOk := w.eq.map List.length, pairGo := true, pairPoint := w.pairPoint + 1 })
  s1.modThreads (s1.liveTids wid) (fun _ t => if t.park = .pair then { t with park := .none } else t)

/-- Both copies match: the primary's held stores are performed, and each copy is snapshotted. -/
def pairMatch (s : State) (w1 w2 : Nat) : State :=
  match performHeld w1 (s.tm (tagW w1)).heldStores s with
  | none => s
  | some s1 =>
    if (s1.tm (tagW w1)).fin then s1
    else ((passPair (passPair s1 w1) w2).takeSnapshot (tagW w1)).takeSnapshot (tagW w2)

/-- The copies differ: an entry that names both clusters, both charged; the third mismatch in a row aborts the launch. -/
def pairMismatch (s : State) (t1 t2 : Nat) : State :=
  let k1 := clusterOf (s.tm t1).core
  let k2 := clusterOf (s.tm t2).core
  let lid := (s.tm t1).lid
  let n := (s.tm t1).mismatches + 1
  let s1 := ((s.faultRecord (uCluster k1) kPairedMismatch [lid, uCluster k2]).chargeCluster k1).chargeCluster k2
  if 3 ≤ n then (s1.abortLaunch lid 0xC4 [BitVec.ofNat 32 (s.tm t1).index, BitVec.ofNat 32 k1, BitVec.ofNat 32 k2]).settleRetired
  else
    let s2 := (s1.replaceTeam t1).replaceTeam t2
    ((s2.modTeam t1 (fun t => { t with mismatches := n })).modTeam t2 (fun t => { t with mismatches := n })).settleRetired

/-- Both copies stand at a pair point. What they have outstanding completes first, their waves stopped (R392). -/
def execPairPointCompare (tag wave : Nat) (s : State) : Out :=
  let t := s.tm tag
  match t.secondary with
  | none => .next s
  | some tag2 =>
    let w1 := widAt tag wave
    let w2 := widAt tag2 wave
    if !t.running || !(s.tm tag2).running || !atPairPoint s w1 || !atPairPoint s w2 then .next s
    else if !s.snapReady tag || !s.snapReady tag2 then .next ((s.stopTeam tag).stopTeam tag2)
    else if signature s w1 = signature s w2 then .next (pairMatch s w1 w2).settleMoves
    else .next (pairMismatch s tag tag2).settleMoves

/-! ## The debugger (R2, R387, R403-R405) -/

/-- An attach is refused while the journal is full (16 R436). -/
def execDebuggerAttach (die : Nat) (s : State) : Out :=
  if s.jfull || (s.di die).debugger || Config.numDies ≤ die then .next s
  else .next ((s.modDie die (fun d => { d with debugger := true })).journalF 0x02 0xFFFF [die, aAttach])

/-- Tracing runs only while a debugger is attached. -/
def execDebuggerDetach (die : Nat) (s : State) : Out :=
  if s.jfull || !(s.di die).debugger then .next s
  else .next ((s.modDie die (fun d => { d with debugger := false, traceCores := [] })).journalF 0x02 0xFFFF [die, aDetach])

def execDebuggerHalt (die : Nat) (s : State) : Out :=
  if s.jfull || !(s.di die).debugger || (s.di die).halted then .next s else .next (s.haltDie die)

/-- Every tag that is held no more completes the episodes whose count it has reached. -/
def settleTags (s : State) : State :=
  s.launches.foldl (fun s l => l.2.rtags.foldl (fun s r => settleTag s l.1 r.1 2) s) s

/-- The die runs on: hold bits clear, held tags restart their watchdog with the full limit, and groups stopped at a `BRK` go on
behind it. -/
def execDebuggerResume (die : Nat) (s : State) : Out :=
  if s.jfull || !(s.di die).debugger || !(s.di die).halted then .next s
  else
    let s1 := s.modDie die (fun d => { d with halted := false, step := none })
    let s2 : State := { s1 with
      msys := { s1.msys with tags := s1.msys.tags.map (fun g =>
        if g.held && g.acc.op != .bbwait && dieOf g.acc.core == die then { g with held := false, since := s.time } else g) }
      threads := s1.threads.map (fun e => match e.2.park with
        | .brk len => if dieOf (s.coreOf e.1) = die then
            (e.1, { e.2 with park := .none, pc := (e.2.pc + len) % 2 ^ 52, inTable := false }) else e
        | _ => e) }
    .next ((settleTags s2.holdTags).journalF 0x02 0xFFFF [die, aResume])

/-- A step of one wave of a halted die, whose launch has its debug bit set; any other request is refused. A wave stopped at a
`BRK` goes on behind it. -/
def execDebuggerStep (core slot : Nat) (s : State) : Out :=
  let d := s.di (dieOf core)
  match (s.co core).slots.find? slot with
  | none => .next s
  | some wid =>
    if !d.debugger || !d.halted || d.step.isSome || !(s.la (s.tm (tagW wid)).lid).debug then .next s
    else
      let s1 := (s.setStep core (some (core, wid, false)) 0).modThreads (s.liveTids wid) (fun _ t => match t.park with
        | .brk len => { t with park := .none, pc := (t.pc + len) % 2 ^ 52, inTable := false }
        | _ => t)
      .next { s1 with agenda := .run core :: s1.agenda }

def execTraceConfig (die : Nat) (cores : List Nat) (lnch slot : Option Nat) (s : State) : Out :=
  if !(s.di die).debugger then .next s
  else .next (s.modDie die (fun d => { d with
    traceCores := cores.filter (fun c => dieOf c == die), traceLid := lnch, traceSlot := slot }))

/-! ## The loss of a die or a link (R406, R407) -/

/-- The licences of a lost die pass to the twins of its cores. -/
def passLicences (s : State) (die : Nat) : State :=
  (s.pairs.filter (fun p => dieOf p.1 == die || dieOf (twinOf p.1) == die)).foldl (fun s p =>
    let lost := dieOf p.1 != die
    let mine := match p.2.arb with | .free => false | .wake u _ | .held u | .drain u => u == lost
    if !mine then s
    else
      let s1 := s.modPair p.1 (fun x => { x with arb := .free })
      if s1.sideWaits p.1 (!lost) then s1.startWake p.1 (!lost) else s1) s

/-- One launch that lost teams: its teams are rolled back and re-placed; an unchecked one of which a lost team has written
outside since its snapshot is aborted, and the fault lists the teams that ended. -/
def recoverLaunch (s : State) (lid : Nat) (tags : List Nat) : State :=
  let l := s.la lid
  if !l.stagingOnly && tags.any (fun t => (s.tm t).extWrite) then
    let m := (List.range 256).foldl (fun m t => if l.ended.contains t then m ||| 2 ^ t else m) 0
    s.abortLaunch lid 0xC5 ((List.range 8).map (fun k => BitVec.ofNat 32 (m >>> (32 * k))) ++ [BitVec.ofNat 32 l.ended.length])
  else (bothCopies s tags).foldl replaceTeam s

/-- A die whose teams cannot be reached. -/
def cutOff (s : State) (die : Nat) : State :=
  let tags := s.dieTeams die
  let s1 := s.modDie die (fun d => { d with lost := true, online := false })
  let s2 := ((tags.map (fun t => (s.tm t).lid)).dedup).foldl (fun s lid =>
    recoverLaunch s lid (tags.filter (fun t => (s.tm t).lid == lid))) s1
  settleMoves (passLicences s2 die)

def execDieFailure (die : Nat) (reachable : Bool) (s : State) : Out :=
  if (s.di die).lost || Config.numDies ≤ die then .next s
  else if reachable then .next ((s.modDie die (fun d => { d with lost := true, online := false })).evacuate die)
  else .next (cutOff s die)

/-- The fabric link of a die fails: its teams are cut off. -/
def execLinkFailure (die : Nat) (s : State) : Out :=
  if (s.di die).lost || Config.numDies ≤ die then .next s else .next (cutOff s die)

end Sys2Proof.Machine
end

