-- ==== Sys2Proof/Machine/Power.lean ====
section
/-!
DEFINITION. Sys2Proof/Machine/Power.lean: the power manager's steps: samples and the pools' controllers, transitions, the
current slope with its fillers, and the sensors with throttle, steering and emergencies (17 R440-R457; 11 R310).
-/

namespace Sys2Proof.Machine

open Sys2Proof State

/-! ## Transitions (R446-R448) -/

/-- A voltage step ends, 5 µs after it started: the transition goes on toward the target as it is now. A lowering step waits while the slope's
remainder is deferred (R452). -/
def execVoltageStepComplete (cluster : Nat) (s : State) : Out :=
  let c := s.cl cluster
  if (c.phase = 1 || (c.phase = 3 && !s.power.deferred)) && decide (c.since + 5000 ≤ s.time) then
    let v := if c.phase = 1 then c.volt + 1 else c.volt - 1
    let s1 := s.powerLog 2 cluster c.src c.target 0 0 0 (pointMv v)
    .next (s1.modCluster cluster (fun x => nextTransition s.time { x with volt := v }))
  else .next s

/-- A clock switch ends, and the cluster's pause of 1 µs with it. The largest occupancy of its crossing FIFO in the pause, at most
its 32 entries (R448), comes with the event (log 97). -/
def execClockSwitchComplete (cluster : Nat) (fifoMax : BitVec 8) (s : State) : Out :=
  let c := s.cl cluster
  if c.phase = 2 && decide (c.since + 1000 ≤ s.time) then
    let n := min fifoMax.toNat 32
    let s1 := s.powerLog 3 cluster c.src c.target 0 0 n (pointMhz c.swTo)
    .next (s1.modCluster cluster (fun x => nextTransition s.time { x with clock := c.swTo, fifoMax := BitVec.ofNat 8 n }))
  else .next s

/-! ## Samples and decisions (R444, R445, R449) -/

/-- A fraction of the active core-clks in 256ths. -/
def share (n active : Nat) : Nat := min 255 (256 * n / active)

/-- The point that a pool's rules ask for; `none` asks for one below P0. -/
def decision (k : Nat) (p : Pool) (sample : Option (Nat × Nat)) : Option Nat :=
  let low := classLow k
  if p.rising && p.point < low then some (p.point + 1)
  else match k, sample with
    | 1, some (memb, issb) =>
      some (max low (min (classHigh 1) (if 128 ≤ issb then p.point + 1 else if 128 ≤ memb && issb < 64 then p.point - 1 else p.point)))
    | 2, some (memb, _) =>
      if memb < 64 then some (min (classHigh 2) (p.point + 1))
      else if 128 ≤ memb then (if p.point = 0 then none else some (p.point - 1))
      else some p.point
    | _, _ => some p.point

/-- The memory-bound, issue-bound and active core-clks that a cluster has counted (R444). -/
def countsOf (s : State) (c : Nat) : Nat × Nat × Nat := ((s.cl c).memN, (s.cl c).issN, (s.cl c).actN)

/-- The controller of one class pool at a sample. -/
def controlPool (s : State) (k : Nat) : State :=
  let p := s.poolAt k
  let cs := s.poolClusters k
  if cs.isEmpty || cs.any (fun c => (s.cl c).phase != 0) then s
  else
    let sum := cs.foldl (fun a c => let x := countsOf s c; (a.1 + x.1, a.2.1 + x.2.1, a.2.2 + x.2.2)) (0, 0, 0)
    let sample := if sum.2.2 = 0 then none else some (share sum.1 sum.2.2, share sum.2.1 sum.2.2)
    match decision k p sample with
    | some q =>
      let q := if p.throttled then min q (classFloor k) else q
      (s.setPoint k q).modPool k (fun x => { x with rising := x.rising && decide (q < classLow k) })
    | none =>
      if p.denied then s
      else
        let s1 := s.powerLog 4 (cs.headD 0) p.point noPoint 0 0 0 450
        { (s1.modPool k (fun x => { x with denied := true })) with power := { (s1.modPool k (fun x => { x with denied := true })).power with
            pdeny := if s1.power.pdeny = 0xFFFFFFFF then s1.power.pdeny else s1.power.pdeny + 1 } }

/-- The sample of one cluster, where it has one. -/
def sampleCluster (s : State) (c : Nat) : State :=
  let x := countsOf s c
  if x.2.2 = 0 then s
  else
    let m := share x.1 x.2.2
    let i := share x.2.1 x.2.2
    let s1 := s.modCluster c (fun y => { y with memb := BitVec.ofNat 8 m, issb := BitVec.ofNat 8 i })
    if s.power.trace then s1.powerLog 1 c noPoint noPoint m i 0 0 else s1

/-- The sample of a tick, 10 µs of front-die time each, once the tick has come: each cluster's, then the controllers'; the
clusters count anew. -/
def execPoolSample (tick : Nat) (s : State) : Out :=
  if s.time < tick * 10000 || tick * 10000 ≤ s.power.sampleAt then .next s
  else
    let s1 := (List.range 4).foldl controlPool ((List.range 32).foldl sampleCluster s)
    .next { s1 with
      clusters := s1.clusters.map (fun e => (e.1, { e.2 with actN := 0, issN := 0, memN := 0 }))
      power := { s1.power with sampleAt := tick * 10000 } }

/-! ## The current slope (R452, R453; 11 R310) -/

/-- A core whose unit may run fillers: its queue is empty, and its pair is free (then the side the arbiter would choose) or
it holds the licence. -/
def fillerCore (s : State) (p : Nat) : Option Nat :=
  let x := s.tp p
  let ok (c : Nat) : Bool := (s.co c).mx.isEmpty && (s.di (dieOf c)).online && !(s.di (dieOf c)).lost
  match x.arb with
  | .free => let c := sideCore p (s.chosenSide p); if ok c then some c else none
  | .held u => let c := sideCore p u; if ok c then some c else none
  | _ => none

/-- The lower core of twin pair `n`, and the number of a lower core's pair (17 R450). -/
def pairCore (n : Nat) : Nat := (n / 128 / 2 * 4 + n / 128 % 2) * 128 + n % 128
def pairNum (m : Nat) : Nat := (m / 128 / 4 * 2 + m / 128 % 2) * 128 + m % 128

/-- The units that run fillers become those of these pairs; clusters whose number changes are logged. -/
def setFillers (s : State) (ps : List Nat) : State :=
  let s1 : State := { s with pairs := s.pairs.map (fun e => (e.1, { e.2 with fillers := none })) }
  let s2 := ps.foldl (fun t p => t.modPair p (fun x => { x with fillers := fillerCore s p })) s1
  (List.range 32).foldl (fun t k =>
    let a := s.fillerUnits k
    let b := s2.fillerUnits k
    if a < b then t.powerLog 0x0B k noPoint noPoint 0 0 0 b
    else if b < a then t.powerLog 0x0C k noPoint noPoint 0 0 0 b
    else t) s2

/-- The estimate of one µs. A fall of more than 400 A calls for fillers on as many units as the manager finds (a free value
of the shortage); what they cannot hold is deferred. -/
def execCurrentEstimate (milliAmps tenant : Nat) (s : State) : Out :=
  let short := s.power.current - 400000 - milliAmps
  let want := if short = 0 then 0 else Config.fillerUnits short
  let can := (List.range 2048).filter (fun n => (fillerCore s (pairCore n)).isSome)
  let run := (can.take want).map pairCore
  let s1 := if want = 0 && s.pairs.all (fun e => e.2.fillers.isNone) then s else setFillers s run
  let who := if short = 0 then s1.power.fillTenant else tenant
  .next { s1 with power := { s1.power with
      current := milliAmps
      fillTenant := who
      deferred := decide (can.length < want)
      tfill := if run.isEmpty then s1.power.tfill
        else AMap.set 0 s1.power.tfill who (s1.power.tfill.get 0 who + Config.fillerEnergy run.length) } }

/-! ## Temperature (R454-R457) -/

/-- Has every sensor of a pool's clusters been at 412 or below for 100 readings in a row? -/
def poolCool (s : State) (k : Nat) : Bool :=
  (s.poolClusters k).all (fun c => (List.range 128).all (fun i =>
    let m := c * 128 + i
    let p := s.tp (pairOf m)
    decide (100 ≤ (if isUpper m then p.upCool else p.loCool))))

/-- A pool enters throttle, or extends it (R455). -/
def throttleStart (s : State) (k reading : Nat) : State :=
  let p := s.poolAt k
  let c := (s.poolClusters k).headD 0
  if p.throttled then s
  else
    let again := match p.lastEntry with | some t => p.ended && decide (s.time < t + 500000) | none => false
    let s1 := if again then s.powerLog 8 c noPoint noPoint 0 0 0 reading else s.powerLog 6 c noPoint noPoint 0 0 0 reading
    let s2 := s1.modPool k (fun x => { x with
      throttled := true, ended := false, rising := false, lastEntry := if again then x.lastEntry else some s.time })
    s2.setPoint k (min p.point (classFloor k))

/-- Throttle ends once its sensors have cooled (R455). -/
def throttleEnd (s : State) (k reading : Nat) : State :=
  let p := s.poolAt k
  if p.throttled && poolCool s k then
    (s.powerLog 7 ((s.poolClusters k).headD 0) noPoint noPoint 0 0 0 reading).modPool k (fun x => { x with
      throttled := false, ended := true, rising := true })
  else s

/-- The counts of readings in a row, after a reading of the pair. -/
def countPair (p : TwinPair) (u l : Nat) : TwinPair :=
  let diff := max u l - min u l
  { p with
    upCool := if u ≤ 412 then p.upCool + 1 else 0, loCool := if l ≤ 412 then p.loCool + 1 else 0
    upCold := if u ≤ 380 then p.upCold + 1 else 0, loCold := if l ≤ 380 then p.loCold + 1 else 0
    steerCount := if diff ≤ 48 then p.steerCount + 1 else 0 }

/-- Steering of a pair at a reading: it starts, ends, or follows the hotter side (R456); an entry comes at most once in
500 µs, and a reading before that extends the same steering. -/
def steer (s : State) (m : Nat) : State :=
  let p := s.tp m
  let u := p.upperT.toNat
  let l := p.lowerT.toNat
  let diff := max u l - min u l
  let cool := decide (u < l)
  match p.steered with
  | none =>
    if diff < 56 then s
    else
      let again := match p.steerLast with | some t => decide (s.time < t + 500000) | none => false
      let s1 := if again then s else s.powerLog 9 (dieOf (sideCore m (!cool))) noPoint noPoint 0 0 0 (pairNum m)
      let s2 := s1.modPair m (fun x => { x with
        steered := some cool, steerCount := 0, steerLast := if again then x.steerLast else some s.time })
      s2.revokeSide (sideCore m (!cool))
  | some old =>
    if 100 ≤ p.steerCount then
      (s.powerLog 0x0A (dieOf (sideCore m (!old))) noPoint noPoint 0 0 0 (pairNum m)).modPair m (fun x => { x with steered := none })
    else if u = l || cool == old then s
    else
      let s1 := s.modPair m (fun x => { x with steered := some cool })
      s1.revokeSide (sideCore m (!cool))

/-- A die goes out of service: its cores stop, its teams move, and its licences pass on (R457). -/
def dieOffline (s : State) (die reading : Nat) : State :=
  if !(s.di die).online then s
  else
    let s1 := (s.powerLog 0x0D die noPoint noPoint 0 0 0 reading).modDie die (fun d => { d with online := false })
    s1.evacuate die

/-- Every sensor of a die has been at 380 or below for a millisecond. -/
def dieCold (s : State) (die : Nat) : Bool :=
  (List.range 256).all (fun i =>
    let m := die * 256 + i
    let p := s.tp (pairOf m)
    decide (1000 ≤ (if isUpper m then p.upCold else p.loCold)))

/-- An offline die returns to service; a lost or retired die does not (R457, 16 R439). -/
def dieOnline (s : State) (die reading : Nat) : State :=
  let d := s.di die
  if !d.online && !d.lost && !d.retired && dieCold s die then
    settleMoves ((s.powerLog 0x0E die noPoint noPoint 0 0 0 reading).modDie die (fun d => { d with online := true }))
  else s

/-- The die that an emergency reading takes offline: that of the hotter side, the lower one of two equal (R457). -/
def emergencyDie (m u l : Nat) : Option (Nat × Nat) :=
  let diff := max u l - min u l
  let up := dieOf (sideCore m true)
  let lo := dieOf m
  if 460 ≤ u || 460 ≤ l || 80 ≤ diff then
    some (if l < u then (up, u) else if u < l then (lo, l) else (min up lo, l))
  else none

/-- A reading of one pair: throttle of the two sides' pools, steering, an emergency, and a die's return. -/
def execSensorReading (pair : Nat) (upper lower : BitVec 12) (s : State) : Out :=
  if 2048 ≤ pair then .next s
  else
    let m := pairCore pair
    let u := upper.toNat
    let l := lower.toNat
    let s1 := s.modPair m (fun p => { countPair p u l with upperT := upper, lowerT := lower, sampled := true })
    let lowPool := (s1.cl (clusterOf m)).pool
    let upPool := (s1.cl (clusterOf (twinOf m))).pool
    let thr (s : State) (k r : Nat) : State := if k = 4 then s else if 420 ≤ r then throttleStart s k r else throttleEnd s k r
    let s2 := steer (thr (thr s1 lowPool l) upPool u) m
    let s3 := match emergencyDie m u l with
      | some (d, r) => dieOffline s2 d r
      | none => s2
    .next (dieOnline (dieOnline s3 (dieOf m) l) (dieOf (twinOf m)) u)

end Sys2Proof.Machine
end

