-- ==== Sys2Proof/Machine/Dispatch.lean ====
section
/-!
DEFINITION. Sys2Proof/Machine/Dispatch.lean: the meaning of each instruction, one arm for each constructor of Instr.
-/

namespace Sys2Proof.Machine

open Sys2Proof

/-- One instruction form or one event of the machine, executed. -/
def exec (i : Instr) (s : State) : Host.Outcome State Fault Refusal :=
  match i with
  | .bra h off => Sys2Proof.Machine.execBra h off s
  | .call h off => Sys2Proof.Machine.execCall h off s
  | .bri h a => Sys2Proof.Machine.execBri h a s
  | .calli h a => Sys2Proof.Machine.execCalli h a s
  | .ret h => Sys2Proof.Machine.execRet h s
  | .exit h => Sys2Proof.Machine.execExit h s
  | .nop h => Sys2Proof.Machine.execNop h s
  | .stall h n => Sys2Proof.Machine.execStall h n s
  | .yield h n => Sys2Proof.Machine.execYield h n s
  | .coll h => Sys2Proof.Machine.execColl h s
  | .region h => Sys2Proof.Machine.execRegion h s
  | .marm h m hint => Sys2Proof.Machine.execMarm h m hint s
  | .mwaitT h n => Sys2Proof.Machine.execMwaitT h n s
  | .mwaitP h pd n => Sys2Proof.Machine.execMwaitP h pd n s
  | .waitsb h mask => Sys2Proof.Machine.execWaitsb h mask s
  | .iadd h d a b sat zx co => Sys2Proof.Machine.execIadd h d a b sat zx co s
  | .isub h d a b sat zx co => Sys2Proof.Machine.execIsub h d a b sat zx co s
  | .iaddc h d a b pi co => Sys2Proof.Machine.execIaddc h d a b pi co s
  | .imul h d a b sat zx => Sys2Proof.Machine.execImul h d a b sat zx s
  | .imulh h d a b zx => Sys2Proof.Machine.execImulh h d a b zx s
  | .imad h d a b c sat zx => Sys2Proof.Machine.execImad h d a b c sat zx s
  | .imadw h d a b c zx => Sys2Proof.Machine.execImadw h d a b c zx s
  | .iadd64 h d a b co => Sys2Proof.Machine.execIadd64 h d a b co s
  | .isub64 h d a b co => Sys2Proof.Machine.execIsub64 h d a b co s
  | .imin h d a b zx => Sys2Proof.Machine.execImin h d a b zx s
  | .imax h d a b zx => Sys2Proof.Machine.execImax h d a b zx s
  | .iabs h d a => Sys2Proof.Machine.execIabs h d a s
  | .ineg h d a => Sys2Proof.Machine.execIneg h d a s
  | .and h d a b => Sys2Proof.Machine.execAnd h d a b s
  | .or h d a b => Sys2Proof.Machine.execOr h d a b s
  | .xor h d a b => Sys2Proof.Machine.execXor h d a b s
  | .andn h d a b => Sys2Proof.Machine.execAndn h d a b s
  | .not h d a => Sys2Proof.Machine.execNot h d a s
  | .shl h d a b wrap => Sys2Proof.Machine.execShl h d a b wrap s
  | .shr h d a b wrap => Sys2Proof.Machine.execShr h d a b wrap s
  | .sar h d a b wrap => Sys2Proof.Machine.execSar h d a b wrap s
  | .rotl h d a b => Sys2Proof.Machine.execRotl h d a b s
  | .shfL h d a b c => Sys2Proof.Machine.execShfL h d a b c s
  | .shfR h d a b c => Sys2Proof.Machine.execShfR h d a b c s
  | .bfe h d a b zx => Sys2Proof.Machine.execBfe h d a b zx s
  | .bfi h d a b c => Sys2Proof.Machine.execBfi h d a b c s
  | .popc h d a => Sys2Proof.Machine.execPopc h d a s
  | .clz h d a => Sys2Proof.Machine.execClz h d a s
  | .ctz h d a => Sys2Proof.Machine.execCtz h d a s
  | .brev h d a => Sys2Proof.Machine.execBrev h d a s
  | .prmb h d a b c => Sys2Proof.Machine.execPrmb h d a b c s
  | .isetp h pd a b pc cond comb cneg => Sys2Proof.Machine.execIsetp h pd a b pc cond comb cneg s
  | .isetp64 h pd a b pc cond comb cneg => Sys2Proof.Machine.execIsetp64 h pd a b pc cond comb cneg s
  | .isel h d a b pc sneg => Sys2Proof.Machine.execIsel h d a b pc sneg s
  | .lea h d a b off zx scale idx64 => Sys2Proof.Machine.execLea h d a b off zx scale idx64 s
  | .mov h d a => Sys2Proof.Machine.execMov h d a s
  | .mov64 h d a => Sys2Proof.Machine.execMov64 h d a s
  | .movi h d imm => Sys2Proof.Machine.execMovi h d imm s
  | .movi64 h d imm => Sys2Proof.Machine.execMovi64 h d imm s
  | .plop h pd pa pb pc lut => Sys2Proof.Machine.execPlop h pd pa pb pc lut s
  | .pmovTo h d => Sys2Proof.Machine.execPmovTo h d s
  | .pmovFrom h a b => Sys2Proof.Machine.execPmovFrom h a b s
  | .getsr h d num => Sys2Proof.Machine.execGetsr h d num s
  | .fadd h d a b rm ftz => Sys2Proof.Machine.execFadd h d a b rm ftz s
  | .fsub h d a b rm ftz => Sys2Proof.Machine.execFsub h d a b rm ftz s
  | .fmul h d a b rm ftz => Sys2Proof.Machine.execFmul h d a b rm ftz s
  | .ffma h d a b c rm ftz => Sys2Proof.Machine.execFfma h d a b c rm ftz s
  | .fmin h d a b ftz => Sys2Proof.Machine.execFmin h d a b ftz s
  | .fmax h d a b ftz => Sys2Proof.Machine.execFmax h d a b ftz s
  | .fsetp h pd a b pc cond comb cneg ftz => Sys2Proof.Machine.execFsetp h pd a b pc cond comb cneg ftz s
  | .fclass h pd a mask => Sys2Proof.Machine.execFclass h pd a mask s
  | .frnd h d a rm ftz => Sys2Proof.Machine.execFrnd h d a rm ftz s
  | .frndX h d a rm ftz => Sys2Proof.Machine.execFrndX h d a rm ftz s
  | .fscalb h d a b rm ftz => Sys2Proof.Machine.execFscalb h d a b rm ftz s
  | .fdscl h d a b rm ftz => Sys2Proof.Machine.execFdscl h d a b rm ftz s
  | .fadd2 h d a b bf rm ftz => Sys2Proof.Machine.execFadd2 h d a b bf rm ftz s
  | .fmul2 h d a b bf rm ftz => Sys2Proof.Machine.execFmul2 h d a b bf rm ftz s
  | .ffma2 h d a b c bf rm ftz => Sys2Proof.Machine.execFfma2 h d a b c bf rm ftz s
  | .fdot4 h kind d a b c rm ftz => Sys2Proof.Machine.execFdot4 h kind d a b c rm ftz s
  | .idot4 h kind d a b c sat => Sys2Proof.Machine.execIdot4 h kind d a b c sat s
  | .frcp h d a rm ftz => Sys2Proof.Machine.execFrcp h d a rm ftz s
  | .frsq h d a ftz => Sys2Proof.Machine.execFrsq h d a ftz s
  | .fsqrt h d a rm ftz => Sys2Proof.Machine.execFsqrt h d a rm ftz s
  | .fexp2 h d a ftz => Sys2Proof.Machine.execFexp2 h d a ftz s
  | .flog2 h d a ftz => Sys2Proof.Machine.execFlog2 h d a ftz s
  | .fsin h d a ftz => Sys2Proof.Machine.execFsin h d a ftz s
  | .fcos h d a ftz => Sys2Proof.Machine.execFcos h d a ftz s
  | .ftanh h d a ftz => Sys2Proof.Machine.execFtanh h d a ftz s
  | .cvt h d a el dt st rm ftz inf => Sys2Proof.Machine.execCvt h d a el dt st rm ftz inf s
  | .cvtx h pd d a el dt st rm ftz inf => Sys2Proof.Machine.execCvtx h pd d a el dt st rm ftz inf s
  | .cvtp h d a b bytes dt rm ftz inf => Sys2Proof.Machine.execCvtp h d a b bytes dt rm ftz inf s
  | .cvts h d a b c slot rm ftz inf => Sys2Proof.Machine.execCvts h d a b c slot rm ftz inf s
  | .cvtsAuto h d a b c slot rm ftz inf => Sys2Proof.Machine.execCvtsAuto h d a b c slot rm ftz inf s
  | .cvtsDec h d a c slot rm ftz inf => Sys2Proof.Machine.execCvtsDec h d a c slot rm ftz inf s
  | .rnd h d => Sys2Proof.Machine.execRnd h d s
  | .shflIdx h d a b segw zf => Sys2Proof.Machine.execShflIdx h d a b segw zf s
  | .shflUp h d a b segw zf => Sys2Proof.Machine.execShflUp h d a b segw zf s
  | .shflDown h d a b segw zf => Sys2Proof.Machine.execShflDown h d a b segw zf s
  | .shflXor h d a b segw zf => Sys2Proof.Machine.execShflXor h d a b segw zf s
  | .voteAll h pd pa neg => Sys2Proof.Machine.execVoteAll h pd pa neg s
  | .voteAny h pd pa neg => Sys2Proof.Machine.execVoteAny h pd pa neg s
  | .voteUni h pd pa neg => Sys2Proof.Machine.execVoteUni h pd pa neg s
  | .ballot h d pa neg => Sys2Proof.Machine.execBallot h d pa neg s
  | .ballotExec h d => Sys2Proof.Machine.execBallotExec h d s
  | .ballotLive h d => Sys2Proof.Machine.execBallotLive h d s
  | .reduce h d a op rm ftz => Sys2Proof.Machine.execReduce h d a op rm ftz s
  | .scan h d a op rm ftz => Sys2Proof.Machine.execScan h d a op rm ftz s
  | .scanExcl h d a op rm ftz => Sys2Proof.Machine.execScanExcl h d a op rm ftz s
  | .matchLanes h kind d a => Sys2Proof.Machine.execMatchLanes h kind d a s
  | .compress h d a pm neg z => Sys2Proof.Machine.execCompress h d a pm neg z s
  | .expand h d a pm neg z => Sys2Proof.Machine.execExpand h d a pm neg z s
  | .elect h pd => Sys2Proof.Machine.execElect h pd s
  | .electIdx h d => Sys2Proof.Machine.execElectIdx h d s
  | .ld h d m w sx hint => Sys2Proof.Machine.execLd h d m w sx hint s
  | .st h c m w hint => Sys2Proof.Machine.execSt h c m w hint s
  | .ldv h d m w hint => Sys2Proof.Machine.execLdv h d m w hint s
  | .stv h c m w hint => Sys2Proof.Machine.execStv h c m w hint s
  | .ldver h d m hint => Sys2Proof.Machine.execLdver h d m hint s
  | .atom h d base off qual c aop scope ord w => Sys2Proof.Machine.execAtom h d base off qual c aop scope ord w s
  | .atomf h d base off qual c fop scope ord => Sys2Proof.Machine.execAtomf h d base off qual c fop scope ord s
  | .red h flt base off qual c op scope ord w => Sys2Proof.Machine.execRed h flt base off qual c op scope ord w s
  | .fenceAcq h scope => Sys2Proof.Machine.execFenceAcq h scope s
  | .fenceRel h scope => Sys2Proof.Machine.execFenceRel h scope s
  | .fenceAr h scope => Sys2Proof.Machine.execFenceAr h scope s
  | .fenceSc h scope => Sys2Proof.Machine.execFenceSc h scope s
  | .ptest h pd m => Sys2Proof.Machine.execPtest h pd m s
  | .claim h d m c => Sys2Proof.Machine.execClaim h d m c s
  | .regclm h n => Sys2Proof.Machine.execRegclm h n s
  | .regrel h n => Sys2Proof.Machine.execRegrel h n s
  | .cctlWb h m hint level => Sys2Proof.Machine.execCctlWb h m hint level s
  | .cctlInv h m hint level => Sys2Proof.Machine.execCctlInv h m hint level s
  | .cctlWbinv h m hint level => Sys2Proof.Machine.execCctlWbinv h m hint level s
  | .cctlRet h m hint level => Sys2Proof.Machine.execCctlRet h m hint level s
  | .pref h m hint level => Sys2Proof.Machine.execPref h m hint level s
  | .qpush h e a => Sys2Proof.Machine.execQpush h e a s
  | .qpop h d e => Sys2Proof.Machine.execQpop h d e s
  | .qtry h d e pd => Sys2Proof.Machine.execQtry h d e pd s
  | .copy h bb src dst size imm => Sys2Proof.Machine.execCopy h bb src dst size imm s
  | .copyFill h bb pattern dst size imm => Sys2Proof.Machine.execCopyFill h bb pattern dst size imm s
  | .gather h bb src idx dst count esz imm => Sys2Proof.Machine.execGather h bb src idx dst count esz imm s
  | .scatter h bb src idx dst count esz imm => Sys2Proof.Machine.execScatter h bb src idx dst count esz imm s
  | .collr h bb src dst group rank imm => Sys2Proof.Machine.execCollr h bb src dst group rank imm s
  | .collg h bb src dst group rank imm => Sys2Proof.Machine.execCollg h bb src dst group rank imm s
  | .chunk h d base off => Sys2Proof.Machine.execChunk h d base off s
  | .bar h rtag => Sys2Proof.Machine.execBar h rtag s
  | .bara h rtag => Sys2Proof.Machine.execBara h rtag s
  | .barw h rtag => Sys2Proof.Machine.execBarw h rtag s
  | .bbinit h base off c => Sys2Proof.Machine.execBbinit h base off c s
  | .bbadd h base off c => Sys2Proof.Machine.execBbadd h base off c s
  | .bbwait h base off => Sys2Proof.Machine.execBbwait h base off s
  | .bbwaitP h pd base off => Sys2Proof.Machine.execBbwaitP h pd base off s
  | .sqpush h q a => Sys2Proof.Machine.execSqpush h q a s
  | .sqpop h q a pd => Sys2Proof.Machine.execSqpop h q a pd s
  | .sqclose h q => Sys2Proof.Machine.execSqclose h q s
  | .mma h d a b c slot strides => Sys2Proof.Machine.execMma h d a b c slot strides s
  | .mmaf h kind d a b c slot => Sys2Proof.Machine.execMmaf h kind d a b c slot s
  | .mzero h d tid => Sys2Proof.Machine.execMzero h d tid s
  | .mld h d base tid c slot stride => Sys2Proof.Machine.execMld h d base tid c slot stride s
  | .mst h t base c slot rm inf stride => Sys2Proof.Machine.execMst h t base c slot rm inf stride s
  | .mstAuto h t base c slot rm inf stride => Sys2Proof.Machine.execMstAuto h t base c slot rm inf stride s
  | .mcvt h d t slot => Sys2Proof.Machine.execMcvt h d t slot s
  | .mtrn h d t => Sys2Proof.Machine.execMtrn h d t s
  | .madd h d a b => Sys2Proof.Machine.execMadd h d a b s
  | .maddI h d a b => Sys2Proof.Machine.execMaddI h d a b s
  | .mscl h d t f => Sys2Proof.Machine.execMscl h d t f s
  | .msync h => Sys2Proof.Machine.execMsync h s
  | .mrow h d t row => Sys2Proof.Machine.execMrow h d t row s
  | .mlicAcq h => Sys2Proof.Machine.execMlicAcq h s
  | .mlicTry h pd => Sys2Proof.Machine.execMlicTry h pd s
  | .mlicRel h => Sys2Proof.Machine.execMlicRel h s
  | .mlicGive h => Sys2Proof.Machine.execMlicGive h s
  | .twin h slot b => Sys2Proof.Machine.execTwin h slot b s
  | .twinOff h => Sys2Proof.Machine.execTwinOff h s
  | .txch h d y pat => Sys2Proof.Machine.execTxch h d y pat s
  | .mpoly h d x n slot => Sys2Proof.Machine.execMpoly h d x n slot s
  | .miter h kind x w limit pd slot wide pf => Sys2Proof.Machine.execMiter h kind x w limit pd slot wide pf s
  | .mres h kind d x w slot wide => Sys2Proof.Machine.execMres h kind d x w slot wide s
  | .mcoef h n base off cnt => Sys2Proof.Machine.execMcoef h n base off cnt s
  | .mcoefS h n a => Sys2Proof.Machine.execMcoefS h n a s
  | .mls h d => Sys2Proof.Machine.execMls h d s
  | .mlsw h a => Sys2Proof.Machine.execMlsw h a s
  | .wbegin h cls cnt => Sys2Proof.Machine.execWbegin h cls cnt s
  | .wemit h a => Sys2Proof.Machine.execWemit h a s
  | .wend h => Sys2Proof.Machine.execWend h s
  | .wendR h => Sys2Proof.Machine.execWendR h s
  | .wdigAdd h a => Sys2Proof.Machine.execWdigAdd h a s
  | .wdigEmit h => Sys2Proof.Machine.execWdigEmit h s
  | .wdigClr h => Sys2Proof.Machine.execWdigClr h s
  | .stgseal h d => Sys2Proof.Machine.execStgseal h d s
  | .chkerr h d => Sys2Proof.Machine.execChkerr h d s
  | .chkerrClr h d => Sys2Proof.Machine.execChkerrClr h d s
  | .rlogOn h => Sys2Proof.Machine.execRlogOn h s
  | .rlogOff h => Sys2Proof.Machine.execRlogOff h s
  | .relreq h d m c => Sys2Proof.Machine.execRelreq h d m c s
  | .vstat h d m => Sys2Proof.Machine.execVstat h d m s
  | .trap h code imm => Sys2Proof.Machine.execTrap h code imm s
  | .rftNext h => Sys2Proof.Machine.execRftNext h s
  | .rftRegion h => Sys2Proof.Machine.execRftRegion h s
  | .rftRetry h => Sys2Proof.Machine.execRftRetry h s
  | .brk h code => Sys2Proof.Machine.execBrk h code s
  | .snap h => Sys2Proof.Machine.execSnap h s
  | .setsr h num b => Sys2Proof.Machine.execSetsr h num b s
  | .tlbinvPage h base off => Sys2Proof.Machine.execTlbinvPage h base off s
  | .tlbinvRange h base off c => Sys2Proof.Machine.execTlbinvRange h base off c s
  | .tlbinvCtx h => Sys2Proof.Machine.execTlbinvCtx h s
  | .quiesce h => Sys2Proof.Machine.execQuiesce h s
  | .pairWord stall s0 s1 => Sys2Proof.Machine.execPairWord stall s0 s1 s
  | .unassignedMajor len w => Sys2Proof.Machine.execUnassignedMajor len w s
  | .waveSlotFree core slot => Sys2Proof.Machine.execWaveSlotFree core slot s
  | .mwaitWake tag wave lane => Sys2Proof.Machine.execMwaitWake tag wave lane s
  | .mwaitLimit tag wave lane => Sys2Proof.Machine.execMwaitLimit tag wave lane s
  | .variableResultCommit core id => Sys2Proof.Machine.execVariableResultCommit core id s
  | .barrierRelease lnch rtag => Sys2Proof.Machine.execBarrierRelease lnch rtag s
  | .bbwaitWake addr => Sys2Proof.Machine.execBbwaitWake addr s
  | .stageQueueServe lnch q => Sys2Proof.Machine.execStageQueueServe lnch q s
  | .arrayPhaseStart core => Sys2Proof.Machine.execArrayPhaseStart core s
  | .arrayPhaseEnd core => Sys2Proof.Machine.execArrayPhaseEnd core s
  | .pinGrant slice => Sys2Proof.Machine.execPinGrant slice s
  | .licenceWakeEnd pair => Sys2Proof.Machine.execLicenceWakeEnd pair s
  | .licenceDrainEnd pair => Sys2Proof.Machine.execLicenceDrainEnd pair s
  | .twinLineRefilled tag wave reg => Sys2Proof.Machine.execTwinLineRefilled tag wave reg s
  | .iterationStepEnd core => Sys2Proof.Machine.execIterationStepEnd core s
  | .sealPoint lnch => Sys2Proof.Machine.execSealPoint lnch s
  | .regroupBoundary core => Sys2Proof.Machine.execRegroupBoundary core s
  | .convergenceTimeout tag wave => Sys2Proof.Machine.execConvergenceTimeout tag wave s
  | .engineCommandAccept core slot q => Sys2Proof.Machine.execEngineCommandAccept core slot q s
  | .engineCopy core id => Sys2Proof.Machine.execEngineCopy core id s
  | .engineFill core id => Sys2Proof.Machine.execEngineFill core id s
  | .engineCopy2d core id => Sys2Proof.Machine.execEngineCopy2d core id s
  | .engineGather core id => Sys2Proof.Machine.execEngineGather core id s
  | .engineScatter core id => Sys2Proof.Machine.execEngineScatter core id s
  | .collectiveReduce core id => Sys2Proof.Machine.execCollectiveReduce core id s
  | .collectiveGather core id => Sys2Proof.Machine.execCollectiveGather core id s
  | .engineChunk core id => Sys2Proof.Machine.execEngineChunk core id s
  | .stagePushFromMemory core id => Sys2Proof.Machine.execStagePushFromMemory core id s
  | .stageClose core id => Sys2Proof.Machine.execStageClose core id s
  | .stagePopToMemory core id => Sys2Proof.Machine.execStagePopToMemory core id s
  | .byteLanding core id idx => Sys2Proof.Machine.execByteLanding core id idx s
  | .engineCommandComplete core id => Sys2Proof.Machine.execEngineCommandComplete core id s
  | .engineFault core id => Sys2Proof.Machine.execEngineFault core id s
  | .engineFaultTaken tag wave lane => Sys2Proof.Machine.execEngineFaultTaken tag wave lane s
  | .registerLineRefill tag wave reg => Sys2Proof.Machine.execRegisterLineRefill tag wave reg s
  | .stagingReadResume page => Sys2Proof.Machine.execStagingReadResume page s
  | .frameFreeWriteResume page => Sys2Proof.Machine.execFrameFreeWriteResume page s
  | .launch slot => Sys2Proof.Machine.execLaunch slot s
  | .teamPlace lnch => Sys2Proof.Machine.execTeamPlace lnch s
  | .noiseHealthFail core => Sys2Proof.Machine.execNoiseHealthFail core s
  | .pageDrainEnd page => Sys2Proof.Machine.execPageDrainEnd page s
  | .pageCopyComplete page => Sys2Proof.Machine.execPageCopyComplete page s
  | .scoreboardMismatch core => Sys2Proof.Machine.execScoreboardMismatch core s
  | .hbmMaskedWrite sector => Sys2Proof.Machine.execHbmMaskedWrite sector s
  | .quiescencePublish => Sys2Proof.Machine.execQuiescencePublish s
  | .sealedBoundRoom lnch => Sys2Proof.Machine.execSealedBoundRoom lnch s
  | .epochPass lnch epoch => Sys2Proof.Machine.execEpochPass lnch epoch s
  | .versionChecked page num => Sys2Proof.Machine.execVersionChecked page num s
  | .epochFail lnch epoch => Sys2Proof.Machine.execEpochFail lnch epoch s
  | .discardedLaunchRerun lnch => Sys2Proof.Machine.execDiscardedLaunchRerun lnch s
  | .releaseGrant id => Sys2Proof.Machine.execReleaseGrant id s
  | .hostRead addr n => Sys2Proof.Machine.execHostRead addr n s
  | .egressTransfer id => Sys2Proof.Machine.execEgressTransfer id s
  | .stallEpisodeEnd cls => Sys2Proof.Machine.execStallEpisodeEnd cls s
  | .notifyWrite q widx => Sys2Proof.Machine.execNotifyWrite q widx s
  | .pendingScan => Sys2Proof.Machine.execPendingScan s
  | .timeSliceEnd slot => Sys2Proof.Machine.execTimeSliceEnd slot s
  | .routeTagGrant lnch => Sys2Proof.Machine.execRouteTagGrant lnch s
  | .argumentCopyComplete lnch => Sys2Proof.Machine.execArgumentCopyComplete lnch s
  | .launchComplete lnch => Sys2Proof.Machine.execLaunchComplete lnch s
  | .waitv slot => Sys2Proof.Machine.execWaitv slot s
  | .waitvConditionHolds slot => Sys2Proof.Machine.execWaitvConditionHolds slot s
  | .signalWrite slot => Sys2Proof.Machine.execSignalWrite slot s
  | .signalAtomicAdd slot => Sys2Proof.Machine.execSignalAtomicAdd slot s
  | .signalBbadd slot => Sys2Proof.Machine.execSignalBbadd slot s
  | .tenantRecordWrite slot => Sys2Proof.Machine.execTenantRecordWrite slot s
  | .tenantReset slot => Sys2Proof.Machine.execTenantReset slot s
  | .copyq slot => Sys2Proof.Machine.execCopyq slot s
  | .release slot => Sys2Proof.Machine.execRelease slot s
  | .barq slot => Sys2Proof.Machine.execBarq slot s
  | .nopq slot => Sys2Proof.Machine.execNopq slot s
  | .eqheadWrite val => Sys2Proof.Machine.execEqheadWrite val s
  | .feataccWrite idx val => Sys2Proof.Machine.execFeataccWrite idx val s
  | .hostRegisterWrite off val => Sys2Proof.Machine.execHostRegisterWrite off val s
  | .journalAck val => Sys2Proof.Machine.execJournalAck val s
  | .faultRecordAck val => Sys2Proof.Machine.execFaultRecordAck val s
  | .checkpointRequest val => Sys2Proof.Machine.execCheckpointRequest val s
  | .journalCheckpoint => Sys2Proof.Machine.execJournalCheckpoint s
  | .witnessFaultInjectionWrite val => Sys2Proof.Machine.execWitnessFaultInjectionWrite val s
  | .powerOn objs => Sys2Proof.Machine.execPowerOn objs s
  | .getVersion => Sys2Proof.Machine.execGetVersion s
  | .getCapabilities => Sys2Proof.Machine.execGetCapabilities s
  | .negotiateAlgorithms => Sys2Proof.Machine.execNegotiateAlgorithms s
  | .getDigests => Sys2Proof.Machine.execGetDigests s
  | .getCertificate certSlot => Sys2Proof.Machine.execGetCertificate certSlot s
  | .challenge ask => Sys2Proof.Machine.execChallenge ask s
  | .getMeasurements index => Sys2Proof.Machine.execGetMeasurements index s
  | .keyExchange ask => Sys2Proof.Machine.execKeyExchange ask s
  | .finish => Sys2Proof.Machine.execFinish s
  | .sealedRegionImport req => Sys2Proof.Machine.execSealedRegionImport req s
  | .importChunk region ingress tagHi tagLo => Sys2Proof.Machine.execImportChunk region ingress tagHi tagLo s
  | .regionRevoke region signer => Sys2Proof.Machine.execRegionRevoke region signer s
  | .capabilityIssue cap signers => Sys2Proof.Machine.execCapabilityIssue cap signers s
  | .domainAdmit peer proof => Sys2Proof.Machine.execDomainAdmit peer proof s
  | .domainKeyReplacement => Sys2Proof.Machine.execDomainKeyReplacement s
  | .oldKeyExpiry => Sys2Proof.Machine.execOldKeyExpiry s
  | .domainLeave peer => Sys2Proof.Machine.execDomainLeave peer s
  | .linkFlitGroupReceive g => Sys2Proof.Machine.execLinkFlitGroupReceive g s
  | .linkRecoveryPending peer => Sys2Proof.Machine.execLinkRecoveryPending peer s
  | .responseTimeout id => Sys2Proof.Machine.execResponseTimeout id s
  | .remoteRecoveryTimeout id => Sys2Proof.Machine.execRemoteRecoveryTimeout id s
  | .driverMapAnswer tag wave lane mapped => Sys2Proof.Machine.execDriverMapAnswer tag wave lane mapped s
  | .snapshotInterval tag => Sys2Proof.Machine.execSnapshotInterval tag s
  | .pairPointCompare tag wave => Sys2Proof.Machine.execPairPointCompare tag wave s
  | .debuggerAttach die => Sys2Proof.Machine.execDebuggerAttach die s
  | .debuggerDetach die => Sys2Proof.Machine.execDebuggerDetach die s
  | .debuggerHalt die => Sys2Proof.Machine.execDebuggerHalt die s
  | .debuggerResume die => Sys2Proof.Machine.execDebuggerResume die s
  | .debuggerStep core slot => Sys2Proof.Machine.execDebuggerStep core slot s
  | .traceConfig die cores lnch slot => Sys2Proof.Machine.execTraceConfig die cores lnch slot s
  | .dieFailure die reachable => Sys2Proof.Machine.execDieFailure die reachable s
  | .linkFailure die => Sys2Proof.Machine.execLinkFailure die s
  | .sensorReading pair upper lower => Sys2Proof.Machine.execSensorReading pair upper lower s
  | .poolSample tick => Sys2Proof.Machine.execPoolSample tick s
  | .voltageStepComplete cluster => Sys2Proof.Machine.execVoltageStepComplete cluster s
  | .clockSwitchComplete cluster fifoMax => Sys2Proof.Machine.execClockSwitchComplete cluster fifoMax s
  | .currentEstimate milliAmps tenant => Sys2Proof.Machine.execCurrentEstimate milliAmps tenant s
  | .hostWrite addr bytes => Sys2Proof.Machine.execHostWrite addr bytes s
  | .l2ModeChangeComplete => Sys2Proof.Machine.execL2ModeChangeComplete s

end Sys2Proof.Machine
end

