-- ==== Sys2Proof/Machine/Policy.lean ====
section
/-!
DEFINITION. Sys2Proof/Machine/Policy.lean: who moves next when the agenda names nobody (log 3).
-/

namespace Sys2Proof.Machine

open Sys2Proof

/-- A step of the machine that no word encodes. -/
def isEvent : Instr → Bool
  | .waveSlotFree _ _ | .mwaitWake _ _ _ | .mwaitLimit _ _ _ | .variableResultCommit _ _ | .barrierRelease _ _
  | .bbwaitWake _ | .stageQueueServe _ _ | .arrayPhaseStart _ | .arrayPhaseEnd _ | .pinGrant _ | .licenceWakeEnd _
  | .licenceDrainEnd _ | .twinLineRefilled _ _ _ | .iterationStepEnd _ | .sealPoint _ | .regroupBoundary _
  | .convergenceTimeout _ _ | .engineCommandAccept _ _ _ | .engineCopy _ _ | .engineFill _ _ | .engineCopy2d _ _
  | .engineGather _ _ | .engineScatter _ _ | .collectiveReduce _ _ | .collectiveGather _ _ | .engineChunk _ _
  | .stagePushFromMemory _ _ | .stageClose _ _ | .stagePopToMemory _ _ | .byteLanding _ _ _
  | .engineCommandComplete _ _ | .engineFault _ _ | .engineFaultTaken _ _ _ | .registerLineRefill _ _ _
  | .stagingReadResume _ | .frameFreeWriteResume _ | .launch _ | .teamPlace _ | .noiseHealthFail _ | .pageDrainEnd _
  | .pageCopyComplete _ | .scoreboardMismatch _ | .hbmMaskedWrite _ | .quiescencePublish | .sealedBoundRoom _
  | .epochPass _ _ | .versionChecked _ _ | .epochFail _ _ | .discardedLaunchRerun _ | .releaseGrant _ | .hostRead _ _
  | .egressTransfer _ | .stallEpisodeEnd _ | .notifyWrite _ _ | .pendingScan | .timeSliceEnd _ | .routeTagGrant _
  | .argumentCopyComplete _ | .launchComplete _ | .waitv _ | .waitvConditionHolds _ | .signalWrite _
  | .signalAtomicAdd _ | .signalBbadd _ | .tenantRecordWrite _ | .tenantReset _ | .copyq _ | .release _ | .barq _
  | .nopq _ | .eqheadWrite _ | .feataccWrite _ _ | .hostRegisterWrite _ _ | .journalAck _ | .faultRecordAck _
  | .checkpointRequest _ | .journalCheckpoint | .witnessFaultInjectionWrite _ | .powerOn _ | .getVersion
  | .getCapabilities | .negotiateAlgorithms | .getDigests | .getCertificate _ | .challenge _ | .getMeasurements _
  | .keyExchange _ | .finish | .sealedRegionImport _ | .importChunk _ _ _ _ | .regionRevoke _ _ | .capabilityIssue _ _
  | .domainAdmit _ _ | .domainKeyReplacement | .oldKeyExpiry | .domainLeave _ | .linkFlitGroupReceive _
  | .linkRecoveryPending _ | .responseTimeout _ | .remoteRecoveryTimeout _ | .driverMapAnswer _ _ _ _
  | .snapshotInterval _ | .pairPointCompare _ _ | .debuggerAttach _ | .debuggerDetach _ | .debuggerHalt _
  | .debuggerResume _ | .debuggerStep _ _ | .traceConfig _ _ _ _ | .dieFailure _ _ | .linkFailure _
  | .sensorReading _ _ _ | .poolSample _ | .voltageStepComplete _ | .clockSwitchComplete _ _ | .currentEstimate _ _
  | .hostWrite _ _ | .l2ModeChangeComplete => true
  | _ => false

namespace State

/-- The core that is behind the others in clk among those that hold waves or array entries, else the focus core. -/
def laggard (s : State) : Nat :=
  (sortBy (fun c => s.clkOf c) ((s.cores.filter (fun e => (!e.2.slots.isEmpty || !e.2.mx.isEmpty) && !s.coreStops e.1)).map
    Prod.fst)).headD s.focus.core

/-- Wall-clock time passes. -/
def passTime (s : State) (ns : Nat) : State := { s with time := s.time + ns }

/-- The event of an engine command that has not read its sources yet. -/
def commandEvent (core : Nat) (c : Cmd) : Instr :=
  match c.q, hOp (c.words.headD 0) with
  | 0, 1 => .engineCopy core c.id
  | 0, 2 => .engineFill core c.id
  | 0, _ => .engineCopy2d core c.id
  | 1, 1 => .engineGather core c.id
  | 1, _ => .engineScatter core c.id
  | 2, 1 => .collectiveReduce core c.id
  | 2, _ => .collectiveGather core c.id
  | 3, _ => .engineChunk core c.id
  | 4, 1 => .stagePushFromMemory core c.id
  | 4, _ => .stageClose core c.id
  | _, _ => .stagePopToMemory core c.id

/-- The steps that the engine commands of a core may take. -/
def commandEvents (core : Nat) (k : Core) : List Instr :=
  k.cmds.flatMap (fun c =>
    if !c.lands.isEmpty then c.lands.map (fun l => .byteLanding core c.id l.1)
    else if c.fault.isSome then [.engineFault core c.id]
    else if c.started then [.engineCommandComplete core c.id]
    else [commandEvent core c])

/-- The steps that the threads' waits may end with. -/
def parkEvents (tid : Nat) (t : Thread) : List Instr :=
  let tag := tagOf tid
  let wave := widxW (widOf tid)
  (match t.park with
    | .mwait _ _ _ => [if t.hit then .mwaitWake tag wave (laneOf tid) else .mwaitLimit tag wave (laneOf tid)]
    | .barrier lid rt _ (some _) => [.barrierRelease lid rt]
    | .bbwait l _ _ (some _) => [.bbwaitWake l.num]
    | .sq lid q => [.stageQueueServe lid q]
    | .refill wid reg => [.registerLineRefill (tagW wid) (widxW wid) reg, .twinLineRefilled (tagW wid) (widxW wid) reg]
    | .staging p => [.stagingReadResume p]
    | .frame p => [.frameFreeWriteResume p]
    | _ => []) ++ (if t.faults.isEmpty then [] else [.engineFaultTaken tag wave (laneOf tid)])

/-- The steps of the machine inside its launches that may be due. -/
def dueEvents (s : State) : List Instr :=
  (s.vres.filter (fun r => r.ready)).map (fun r => .variableResultCommit r.core r.id) ++
  s.threads.flatMap (fun e => if e.2.live then parkEvents e.1 e.2 else []) ++
  s.cores.flatMap (fun c => commandEvents c.1 c.2 ++
    (if c.2.mx.isEmpty then [] else [.arrayPhaseStart c.1, .arrayPhaseEnd c.1, .iterationStepEnd c.1]) ++
    c.2.slots.flatMap (fun k =>
      ((List.range 8).filter (fun q => !((s.wv k.2).eq.getD q []).isEmpty)).map (fun q => .engineCommandAccept c.1 k.1 (BitVec.ofNat 3 q)) ++
      (if (s.liveTids k.2).isEmpty then [.waveSlotFree c.1 k.1]
       else if (s.wv k.2).timerOn.isSome then [.convergenceTimeout (tagW k.2) (widxW k.2)] else []))) ++
  s.msys.pinq.map (fun q => .pinGrant q.1) ++
  s.pairs.flatMap (fun p => match p.2.arb with
    | .wake _ _ => [.licenceWakeEnd p.1]
    | .drain _ => [.licenceDrainEnd p.1]
    | _ => []) ++
  (s.launches.filter (fun l => l.2.st == .running)).flatMap (fun l => [.teamPlace l.1, .sealPoint l.1])

/-- The next move of an empty agenda: a step that may be due and the core that is behind, in turn (log 3). -/
def policy (s : State) : Move :=
  let es := s.dueEvents
  if es.isEmpty || s.turn % 2 = 0 then .run s.laggard
  else match es[s.turn / 2 % es.length]? with
    | some i => .event i
    | none => .run s.laggard

/-- The launch record of a placed program: one team of one wave with 256 registers, the handler at 0x100, thread-local
regions of 1 KiB from 0x8000 with the return-spill area at 512, privileged. -/
def placedRec : List Nat :=
  [0, 0x100, 2 ^ 48 + 2 ^ 32 + 2 ^ 16 + 1, 256, 0, 0x8000, 512 * 2 ^ 32 + 1024] ++ List.replicate 8 0 ++ [2 ^ 11] ++
  List.replicate 16 0

/-- A program of one wave on core 0, ready to issue at PC 0: its launch is running with every feature accepted, its page at
address 0 is in the core's translation buffer, and `bs` stand at physical address 0 of the package (log 10). -/
def placeProgram (s : State) (bs : List Byte) : State :=
  let lid := s.front.nextLid
  let tag := s.front.nextTag
  let wid := tag * 32
  let tids := tidsOf wid
  let la : Launch := { recW := placedRec, feats := 2 ^ 128 - 1, st := .running, nextTeam := 1, argsDone := true, run := 1 }
  let thread : Thread := { live := true }
  let k := s.co 0
  let core : Core := { k with
    slots := [(0, wid)], groups := [{ pc := 0, formed := k.clk, members := tids }], arithAt := 0, memAt := 0, sfuAt := 0, rndAt := 0
    tlb := [(bitsOf (s.front.tenants.get {} 0).eff.toNat 115 64, 0, 16, s.pkg * 2 ^ 40 + 0x63)] }
  let die : Die := { (s.di 0) with online := true, lost := false, halted := false }
  { s.writeMem (s.localPa 0) bs with
    agenda := [.run 0]
    launches := AMap.set {} s.launches lid la
    teams := AMap.set {} s.teams tag { lid := lid, running := true }
    waves := AMap.set {} s.waves wid { regs := 256, resident := true }
    threads := tids.foldl (fun m t => AMap.set {} m t thread) s.threads
    cores := AMap.set {} s.cores 0 core
    dies := AMap.set {} s.dies 0 die
    front := { s.front with nextLid := lid + 1, nextTag := tag + 1 } }

end State

end Sys2Proof.Machine
end

