-- ==== Sys2Proof/Machine/Step.lean ====
section
/-!
DEFINITION. Sys2Proof/Machine/Step.lean: one step of the machine: the agent whose turn it is moves.
-/

namespace Sys2Proof.Machine

open Sys2Proof

/-- One move: an event takes place, a core issues or its clk passes, or time passes. -/
def doMove (m : Move) (s : State) : Host.Outcome State Fault Refusal :=
  match m with
  | .event i => if isEvent i then exec i s else .next s
  | .wait ns => .next (s.passTime ns)
  | .run c =>
    match s.coreNext c with
    | .inl (i, s1) => exec i s1
    | .inr s1 => .next s1

/-- A move, after which the threads that have come to a PC are in the PC table or wait for it (04 R86). -/
def settled (s : State) (o : Host.Outcome State Fault Refusal) : Host.Outcome State Fault Refusal :=
  match o with
  | .next t => .next (s.settlePcs t)
  | x => x

/-- One step: the first move of the agenda, or the default policy's. -/
def step (s : State) : Host.Outcome State Fault Refusal :=
  match s.agenda with
  | m :: r => settled s (doMove m { s with agenda := r })
  | [] => settled s (doMove s.policy { s with turn := s.turn + 1 })

/-- The state with an instruction placed as the whole of a program that is about to issue (log 10). -/
def State.withFetchWord (s : State) (nbits w : Nat) : State := s.placeProgram (leBytes 16 (w % 2 ^ nbits))

end Sys2Proof.Machine
end

