-- ==== Sys2Proof/Safety.lean ====
section
/-!
DEFINITION. Sys2Proof/Safety.lean: what a safe run is: every step answers a next state.
-/

namespace Sys2Proof

open Sys2Proof.Machine

/-- A step from `s` answers a next state. -/
def Safe (s : State) : Prop := ∃ t, step s = .next t

/-- Every one of the first `n` steps from `s` answers a next state. -/
def SafeFor : Nat → State → Prop
  | 0, _ => True
  | n + 1, s => ∃ t, step s = .next t ∧ SafeFor n t

end Sys2Proof
end

