-- ==== Sys2Proof/Certificates/Slice0/Obligations.lean ====
section
/-!
DEFINITION. Sys2Proof/Certificates/Slice0/Obligations.lean: the statements for the provers. The definitions of the
namespace Sys2Proof.Claims say, once for many statements, what an issue leaves as it was, how the issuing threads go on,
and what each arithmetic instruction computes in one lane, written from the tables of spec/ and not from the meanings.
-/

namespace Sys2Proof.Claims

open Sys2Proof Sys2Proof.Machine Sys2Proof.Machine.State

/-! ## What an issue leaves as it was -/

/-- The frame of an issue: every register, predicate and special register, all memory with its check codes and its poison, every staging page, scratchpad and
accumulator tile, every launch, team, twin pair, cluster and memory-system field is as before. Of a wave only its
convergence timer and its pair-point mark, of a core only its formed groups and the clk at which its ports and units are
free, and of a die only its trace may differ. -/
structure Kept (s t : State) : Prop where
  pkg : t.pkg = s.pkg
  time : t.time = s.time
  vregs : t.vregs = s.vregs
  preds : t.preds = s.preds
  sregs : t.sregs = s.sregs
  scratch : t.scratch = s.scratch
  tiles : t.tiles = s.tiles
  mem : t.mem = s.mem
  poison : t.poison = s.poison
  codes : t.codes = s.codes
  ecc : t.ecc = s.ecc
  stage : t.stage = s.stage
  teams : t.teams = s.teams
  launches : t.launches = s.launches
  pairs : t.pairs = s.pairs
  clusters : t.clusters = s.clusters
  msys : t.msys = s.msys
  front : t.front = s.front
  power : t.power = s.power
  checker : t.checker = s.checker
  held : t.held = s.held
  focus : t.focus = s.focus
  agenda : t.agenda = s.agenda
  turn : t.turn = s.turn
  draws : t.draws = s.draws
  waves : ∀ w, t.wv w = { s.wv w with
    timer := (t.wv w).timer, timerOn := (t.wv w).timerOn, timerRun := (t.wv w).timerRun, pairGo := (t.wv w).pairGo }
  cores : ∀ c, t.co c = { s.co c with
    groups := (t.co c).groups, arithAt := (t.co c).arithAt, memAt := (t.co c).memAt, sfuAt := (t.co c).sfuAt, rndAt := (t.co c).rndAt }
  otherCores : ∀ c, c ≠ s.focus.core → t.co c = s.co c
  dies : ∀ d, t.di d = { s.di d with trace := (t.di d).trace, traceLost := (t.di d).traceLost }

/-- The threads of the group go on to the next instruction, `len` bytes further, not before the stall count has passed
(02 R47); every other thread is as before. -/
def Moves (h : Hdr) (len : Nat) (s t : State) : Prop :=
  (∀ x ∈ s.grp, t.th x = { s.th x with
    pc := ((s.th x).pc + len) % 2 ^ 52, readyAt := s.now + max h.stall.toNat 1, lastIssue := s.now, inTable := false }) ∧
  ∀ x, x ∉ s.grp → t.th x = s.th x

/-- The group can issue: its threads are distinct, and the checks that come before an issue pass. -/
def Ready (u : Uses) (s : State) : Prop := s.gate u = .go ∧ s.grp.Nodup

/-- The instruction names no `e` operand and pushes no words. -/
def NoQueue (u : Uses) : Prop := u.popQ = none ∧ u.pushQ = []

/-- The executing threads with what each of them computes. -/
def lanes (u : Uses) (f : State → Pops → Nat → LaneOut) (s : State) : List (Nat × LaneOut) :=
  (s.xs u.h).map (fun x => (x, f s (s.popsOf u) x))

/-- The pending writes of results that commit `lat` clk after this one, each with the wave that issues it. -/
def dueIn (lat : Nat) (ws : List (Tgt × Word)) (s : State) : List PWrite :=
  ws.map (fun w => {
    core := s.focus.core, due := s.now + lat, tgt := w.1, val := w.2, wid := s.writerOf w.1, issue := s.now })

/-- An arithmetic instruction issues: its results are on their way, due `lat` clk on, and nothing else changes. -/
def Computes (i : Instr) (lat : Nat) (d : Option Opnd) (f : State → Pops → Nat → LaneOut) (s : State) : Prop :=
  ∃ t, exec i s = .next t ∧ Kept s t ∧ Moves (usesOf i).h (usesOf i).len s t ∧ t.vres = s.vres ∧
    t.pend = s.pend ++ dueIn lat (s.outWrites d (lanes (usesOf i) f s)) s

/-- The latency of an instruction of the arithmetic port: its class's, or 6 through a crossbar pattern (02 Table 2.8). -/
def latOf (i : Instr) (cls : Nat) : Nat := if (usesOf i).patterned then max cls 6 else cls

/-! ## The integer instructions, lane by lane (05) -/

/-- What an arithmetic instruction writes and computes: its destination, and a lane's result. -/
abbrev Form := Option Opnd × (State → Pops → Nat → LaneOut)

/-- One result word; a 64-bit result, low word first; a predicate. -/
def w1 (x : Word) : LaneOut := { ws := [x] }
def w2 (x : DWord) : LaneOut := { ws := [x.extractLsb' 0 32, x.extractLsb' 32 32] }
def pr (p : Pred) (b : Bool) : LaneOut := { ps := [(p, b)] }

/-- An exact integer held to the signed or the unsigned range of 32 bits. -/
def clampS (k : Int) : Word := if 2147483647 < k then 0x7FFFFFFF else if k < -2147483648 then 0x80000000 else BitVec.ofInt 32 k
def clampU (k : Int) : Word := if 4294967295 < k then 0xFFFFFFFF else if k < 0 then 0 else BitVec.ofInt 32 k

/-- The 64-bit product of two words, as signed or as unsigned numbers. -/
def wide (zx : Bool) (x y : Word) : DWord := if zx then x.setWidth 64 * y.setWidth 64 else x.signExtend 64 * y.signExtend 64

/-- Additions, subtractions, products, extremes (R130-R132). -/
def arithForm : Instr → Option Form
  | .iadd _ d a b sat zx co => some (some d, fun s p t =>
      let x := s.rd p t a
      let y := s.rdB p t b
      { ws := [if !sat then x + y else if zx then clampU (x.toNat + y.toNat) else clampS (x.toInt + y.toInt)]
        ps := [(co, decide (2 ^ 32 ≤ x.toNat + y.toNat))] })
  | .isub _ d a b sat zx co => some (some d, fun s p t =>
      let x := s.rd p t a
      let y := s.rdB p t b
      { ws := [if !sat then x - y else if zx then (if x < y then 0 else x - y) else clampS (x.toInt - y.toInt)]
        ps := [(co, decide (x < y))] })
  | .iaddc _ d a b pi co => some (some d, fun s p t =>
      let n := (s.rd p t a).toNat + (s.rdB p t b).toNat + (if s.pred t pi then 1 else 0)
      { ws := [BitVec.ofNat 32 n], ps := [(co, decide (2 ^ 32 ≤ n))] })
  | .imul _ d a b sat zx => some (some d, fun s p t =>
      let x := s.rd p t a
      let y := s.rdB p t b
      w1 (if !sat then x * y else if zx then clampU (x.toNat * y.toNat) else clampS (x.toInt * y.toInt)))
  | .imulh _ d a b zx => some (some d, fun s p t => w1 ((wide zx (s.rd p t a) (s.rdB p t b)).extractLsb' 32 32))
  | .imad _ d a b c sat zx => some (some d, fun s p t =>
      let x := s.rd p t a
      let y := s.rdB p t b
      let z := s.rd p t c
      w1 (if !sat then x * y + z else if zx then clampU (x.toNat * y.toNat + z.toNat) else clampS (x.toInt * y.toInt + z.toInt)))
  | .imadw _ d a b c zx => some (some d, fun s p t => w2 (wide zx (s.rd p t a) (s.rdB p t b) + s.rd64 p t c))
  | .iadd64 _ d a b co => some (some d, fun s p t =>
      let x := s.rd64 p t a
      let y := s.rdB64 p t b
      { ws := (w2 (x + y)).ws, ps := [(co, decide (2 ^ 64 ≤ x.toNat + y.toNat))] })
  | .isub64 _ d a b co => some (some d, fun s p t =>
      let x := s.rd64 p t a
      let y := s.rdB64 p t b
      { ws := (w2 (x - y)).ws, ps := [(co, decide (x < y))] })
  | .imin _ d a b zx => some (some d, fun s p t =>
      let x := s.rd p t a
      let y := s.rdB p t b
      w1 (if (if zx then y < x else y.slt x) then y else x))
  | .imax _ d a b zx => some (some d, fun s p t =>
      let x := s.rd p t a
      let y := s.rdB p t b
      w1 (if (if zx then x < y else x.slt y) then y else x))
  | .iabs _ d a => some (some d, fun s p t => w1 (if (s.rd p t a).msb then 0 - s.rd p t a else s.rd p t a))
  | .ineg _ d a => some (some d, fun s p t => w1 (0 - s.rd p t a))
  | _ => none

/-- Byte `k` of a word. -/
def byteK (w : Word) (k : Nat) : BitVec 8 := w.extractLsb' (8 * k) 8

/-- A byte that `PRMB` picks from `c:a` under a control byte (Table 5.6). -/
def permByte (a c : Word) (ctl : BitVec 8) : BitVec 8 :=
  let k := ctl.toNat % 8
  let x := if k < 4 then byteK a k else byteK c (k - 4)
  let y : BitVec 8 := match (ctl.extractLsb' 3 2).toNat with
    | 0 => x
    | 1 => 0
    | 2 => if x.msb then 0xFF else 0
    | _ => if x = 0 then 0 else 0xFF
  if ctl.getLsbD 5 then ~~~ y else y

/-- Logic, shifts, fields, counts and bytes (R133-R137). A shift by 32 or more gives 0, or copies of the sign. -/
def bitForm : Instr → Option Form
  | .and _ d a b => some (some d, fun s p t => w1 (s.rd p t a &&& s.rdB p t b))
  | .or _ d a b => some (some d, fun s p t => w1 (s.rd p t a ||| s.rdB p t b))
  | .xor _ d a b => some (some d, fun s p t => w1 (s.rd p t a ^^^ s.rdB p t b))
  | .andn _ d a b => some (some d, fun s p t => w1 (s.rd p t a &&& ~~~ s.rdB p t b))
  | .not _ d a => some (some d, fun s p t => w1 (~~~ s.rd p t a))
  | .shl _ d a b wrap => some (some d, fun s p t =>
      w1 (s.rd p t a <<< (if wrap then (s.rdB p t b).toNat % 32 else (s.rdB p t b).toNat)))
  | .shr _ d a b wrap => some (some d, fun s p t =>
      w1 (s.rd p t a >>> (if wrap then (s.rdB p t b).toNat % 32 else (s.rdB p t b).toNat)))
  | .sar _ d a b wrap => some (some d, fun s p t =>
      w1 ((s.rd p t a).sshiftRight (if wrap then (s.rdB p t b).toNat % 32 else (s.rdB p t b).toNat)))
  | .rotl _ d a b => some (some d, fun s p t =>
      let x := s.rd p t a
      let n := (s.rdB p t b).toNat % 32
      w1 ((x <<< n) ||| (x >>> (32 - n))))
  | .shfL _ d a b c => some (some d, fun s p t =>
      w1 (((s.rd p t c ++ s.rd p t a) <<< ((s.rdB p t b).toNat % 64)).extractLsb' 32 32))
  | .shfR _ d a b c => some (some d, fun s p t =>
      w1 (((s.rd p t c ++ s.rd p t a) >>> ((s.rdB p t b).toNat % 64)).extractLsb' 0 32))
  | .bfe _ d a b zx => some (some d, fun s p t =>
      let pos := (byteK (s.rdB p t b) 0).toNat
      let len := min (byteK (s.rdB p t b) 1).toNat 32
      let x : BitVec 64 := if zx then (s.rd p t a).setWidth 64 else (s.rd p t a).signExtend 64
      -- the field moved to the top of 64 bits and back
      let f := (x.sshiftRight pos) <<< (64 - len)
      w1 ((if zx then f >>> (64 - len) else f.sshiftRight (64 - len)).setWidth 32))
  | .bfi _ d a b c => some (some d, fun s p t =>
      let pos := (byteK (s.rdB p t b) 0).toNat
      let len := min (byteK (s.rdB p t b) 1).toNat 32
      let m : Word := (((1 : BitVec 64) <<< len) - 1).setWidth 32 <<< pos
      w1 ((s.rd p t c &&& ~~~ m) ||| ((s.rd p t a <<< pos) &&& m)))
  | .popc _ d a => some (some d, fun s p t =>
      w1 (BitVec.ofNat 32 ((List.range 32).map (fun k => if (s.rd p t a).getLsbD k then 1 else 0)).sum))
  | .clz _ d a => some (some d, fun s p t =>
      w1 (BitVec.ofNat 32 (((List.range 32).find? (fun k => (s.rd p t a).getMsbD k)).getD 32)))
  | .ctz _ d a => some (some d, fun s p t =>
      w1 (BitVec.ofNat 32 (((List.range 32).find? (fun k => (s.rd p t a).getLsbD k)).getD 32)))
  | .brev _ d a => some (some d, fun s p t => w1 (s.rd p t a).reverse)
  | .prmb _ d a b c => some (some d, fun s p t =>
      let x (k : Nat) : BitVec 8 := permByte (s.rd p t a) (s.rd p t c) (byteK (s.rdB p t b) k)
      w1 (x 3 ++ x 2 ++ x 1 ++ x 0))
  | _ => none

/-- The conditions of a comparison (Table 5.7), at either width. -/
def holds {n : Nat} (cond : BitVec 4) (x y : BitVec n) : Bool :=
  match cond.toNat with
  | 0 => x == y
  | 1 => x != y
  | 2 => x.slt y
  | 3 => x.sle y
  | 4 => y.slt x
  | 5 => y.sle x
  | 6 => x.ult y
  | 7 => x.ule y
  | 8 => y.ult x
  | 9 => y.ule x
  | 10 => false
  | 11 => true
  | 12 => (x &&& y) != 0
  | _ => (x &&& y) == 0

/-- The fold of a comparison with a predicate: none, and, or, xor. -/
def folded (comb : BitVec 2) (r q : Bool) : Bool := if comb = 0 then r else if comb = 1 then r && q else if comb = 2 then r || q else r != q

/-- Comparisons, selections, moves, addresses and predicates (R138-R143). -/
def moveForm : Instr → Option Form
  | .isetp _ pd a b pc cond comb cneg => some (none, fun s p t =>
      pr pd (folded comb (holds cond (s.rd p t a) (s.rdB p t b)) (s.pred t pc != cneg)))
  | .isetp64 _ pd a b pc cond comb cneg => some (none, fun s p t =>
      pr pd (folded comb (holds cond (s.rd64 p t a) (s.rdB64 p t b)) (s.pred t pc != cneg)))
  | .isel _ d a b pc sneg => some (some d, fun s p t => w1 (if s.pred t pc = sneg then s.rd p t b else s.rd p t a))
  | .lea _ d a b off zx scale idx64 => some (some d, fun s p t =>
      let x : DWord := if idx64 then s.rd64 p t b else if zx then (s.rd p t b).setWidth 64 else (s.rd p t b).signExtend 64
      w2 (s.rd64 p t a + x * 2 ^ scale.toNat + off.signExtend 64))
  | .mov _ d a => some (some d, fun s p t => w1 (s.rd p t a))
  | .mov64 _ d a => some (some d, fun s p t => w2 (s.rd64 p t a))
  | .movi _ d imm => some (some d, fun _ _ _ => w1 imm)
  | .movi64 _ d imm => some (some d, fun _ _ _ => w2 (imm.signExtend 64))
  | .plop _ pd pa pb pc lut => some (none, fun s _ t =>
      let k := (if s.pred t pa then 1 else 0) + (if s.pred t pb then 2 else 0) + (if s.pred t pc then 4 else 0)
      pr pd (lut.getLsbD k))
  | .pmovTo _ d => some (some d, fun s _ t =>
      w1 (BitVec.ofNat 32 ((List.range 16).map (fun k => if s.pred t (BitVec.ofNat 4 k) then 2 ^ k else 0)).sum))
  | _ => none

end Sys2Proof.Claims

namespace Sys2Proof.Claims

open Sys2Proof Sys2Proof.Machine Sys2Proof.Machine.State

/-! ## The floating-point instructions, lane by lane (06) -/

/-- A result word with the IEEE conditions that it raises. -/
def wf (r : Nat × Nat) : LaneOut := { ws := [BitVec.ofNat 32 r.1], conds := r.2 }

/-- A source as an exact value; under FTZ a subnormal one is a zero of its sign (R71, R148). -/
def exactOf (f : Fmt) (ftz : Bool) (x : Nat) : FV := f.decode (if ftz && f.subnormal x then f.signed (bitAt x (f.expBits + f.fracBits)) 0 else x)

/-- An exact result rounded once, its invalid condition kept (R69-R71, R151). -/
def onceRounded (f : Fmt) (rm : BitVec 2) (ftz : Bool) (x : FV × Nat) : Nat × Nat :=
  ((f.roundFtz rm.toNat ftz x.1).1, (f.roundFtz rm.toNat ftz x.1).2 ||| x.2)

/-- FP32 arithmetic, comparison, rounding and scaling (R151-R156). -/
def floatForm : Instr → Option Form
  | .fadd _ d a b rm ftz => some (some d, fun s p t =>
      wf (onceRounded fp32 rm ftz (fAdd rm.toNat (exactOf fp32 ftz (s.rd p t a).toNat) (exactOf fp32 ftz (s.rdB p t b).toNat))))
  | .fsub _ d a b rm ftz => some (some d, fun s p t =>
      wf (onceRounded fp32 rm ftz (fAdd rm.toNat (exactOf fp32 ftz (s.rd p t a).toNat) (exactOf fp32 ftz (s.rdB p t b).toNat).neg)))
  | .fmul _ d a b rm ftz => some (some d, fun s p t =>
      wf (onceRounded fp32 rm ftz (fMul (exactOf fp32 ftz (s.rd p t a).toNat) (exactOf fp32 ftz (s.rdB p t b).toNat))))
  | .ffma _ d a b c rm ftz => some (some d, fun s p t =>
      let ab := fMul (exactOf fp32 ftz (s.rd p t a).toNat) (exactOf fp32 ftz (s.rdB p t b).toNat)
      let x := fAdd rm.toNat ab.1 (exactOf fp32 ftz (s.rd p t c).toNat)
      wf (onceRounded fp32 rm ftz (x.1, ab.2 ||| x.2)))
  | .fmin _ d a b ftz => some (some d, fun s p t => wf (fminmax false ftz (s.rd p t a) (s.rdB p t b)))
  | .fmax _ d a b ftz => some (some d, fun s p t => wf (fminmax true ftz (s.rd p t a) (s.rdB p t b)))
  | .fsetp _ pd a b pc cond comb cneg ftz => some (none, fun s p t =>
      pr pd (folded comb (floatCond cond.toNat (exactOf fp32 ftz (s.rd p t a).toNat) (exactOf fp32 ftz (s.rdB p t b).toNat))
        (s.pred t pc != cneg)))
  | .fclass _ pd a mask => some (none, fun s p t => pr pd (mask.getLsbD (classOf (s.rd p t a).toNat)))
  | .frnd _ d a rm ftz => some (some d, fun s p t => wf ((frndResult rm.toNat ftz false (s.rd p t a)).1, 0))
  | .frndX _ d a rm ftz => some (some d, fun s p t =>
      let r := (frndResult rm.toNat ftz true (s.rd p t a)).1
      wf (r, if !(exactOf fp32 ftz (s.rd p t a).toNat).isNan && r ≠ fp32.flushIn ftz (s.rd p t a).toNat then cInexact else 0))
  | .fscalb _ d a b rm ftz => some (some d, fun s p t => wf (fscale Q.pow2 500 rm.toNat ftz (s.rd p t a) (s.rd p t b)))
  | .fdscl _ d a b rm ftz => some (some d, fun s p t => wf (fscale Q.pow10 150 rm.toNat ftz (s.rd p t a) (s.rd p t b)))
  | _ => none

/-- The packed format, and half `k` of a word as an exact value (R157). -/
def pf (bf : Bool) : Fmt := if bf then bf16 else fp16
def halfOf (bf ftz : Bool) (w : Word) (k : Nat) : FV := exactOf (pf bf) ftz (w.extractLsb' (16 * k) 16).toNat
/-- The two halves of a packed result. -/
def halves (lo hi : Nat × Nat) : LaneOut := { ws := [BitVec.ofNat 16 hi.1 ++ BitVec.ofNat 16 lo.1], conds := lo.2 ||| hi.2 }

/-- Packed arithmetic and dot products (R157-R159). -/
def packForm : Instr → Option Form
  | .fadd2 _ d a b bf rm ftz => some (some d, fun s p t =>
      let r (k : Nat) := onceRounded (pf bf) rm ftz (fAdd rm.toNat (halfOf bf ftz (s.rd p t a) k) (halfOf bf ftz (s.rdB p t b) k))
      halves (r 0) (r 1))
  | .fmul2 _ d a b bf rm ftz => some (some d, fun s p t =>
      let r (k : Nat) := onceRounded (pf bf) rm ftz (fMul (halfOf bf ftz (s.rd p t a) k) (halfOf bf ftz (s.rdB p t b) k))
      halves (r 0) (r 1))
  | .ffma2 _ d a b c bf rm ftz => some (some d, fun s p t =>
      let r (k : Nat) := onceRounded (pf bf) rm ftz
        (fFma rm.toNat (halfOf bf ftz (s.rd p t a) k) (halfOf bf ftz (s.rdB p t b) k) (halfOf bf ftz (s.rd p t c) k))
      halves (r 0) (r 1))
  | .fdot4 _ kind d a b c rm ftz => some (some d, fun s p t =>
      let x := if kind = 3 then (s.rd p t a).setWidth 64 else s.rd64 p t a
      let y := if kind = 3 then (s.rd p t b).setWidth 64 else s.rd64 p t b
      wf (onceRounded fp32 rm ftz (exactSum (dotTerms kind.toNat ftz x y ++ [(exactOf fp32 ftz (s.rd p t c).toNat, 0)]))))
  | .idot4 _ kind d a b c sat => some (some d, fun s p t =>
      let sa := kind = 0 || kind = 2
      let sb := kind = 0 || kind = 3
      let el (sg : Bool) (w : Word) (k : Nat) : Int := if sg then (byteK w k).toInt else (byteK w k).toNat
      let x := s.rd p t a
      let y := s.rd p t b
      let n : Int := (s.rd p t c).toInt + el sa x 0 * el sb y 0 + el sa x 1 * el sb y 1 + el sa x 2 * el sb y 2 + el sa x 3 * el sb y 3
      w1 (if sat then clampS n else BitVec.ofInt 32 n))
  | _ => none

/-- The special functions (R160, R161): each over the flushed source, with its own table of exact cases. -/
def sfuForm : Instr → Option Form
  | .frcp _ d a rm ftz => some (some d, fun s p t => wf (sfuBits (s.rd p t a) (sfuRcp (exactOf fp32 ftz (s.rd p t a).toNat)) rm.toNat ftz))
  | .frsq _ d a ftz => some (some d, fun s p t => wf (sfuBits (s.rd p t a) (sfuRsq (exactOf fp32 ftz (s.rd p t a).toNat)) 0 ftz))
  | .fsqrt _ d a rm ftz => some (some d, fun s p t => wf (sfuBits (s.rd p t a) (sfuSqrt (exactOf fp32 ftz (s.rd p t a).toNat)) rm.toNat ftz))
  | .fexp2 _ d a ftz => some (some d, fun s p t => wf (sfuBits (s.rd p t a) (sfuExp2 (exactOf fp32 ftz (s.rd p t a).toNat)) 0 ftz))
  | .flog2 _ d a ftz => some (some d, fun s p t => wf (sfuBits (s.rd p t a) (sfuLog2 (exactOf fp32 ftz (s.rd p t a).toNat)) 0 ftz))
  | .fsin _ d a ftz => some (some d, fun s p t => wf (sfuBits (s.rd p t a) (sfuSin (exactOf fp32 ftz (s.rd p t a).toNat)) 0 ftz))
  | .fcos _ d a ftz => some (some d, fun s p t => wf (sfuBits (s.rd p t a) (sfuCos (exactOf fp32 ftz (s.rd p t a).toNat)) 0 ftz))
  | .ftanh _ d a ftz => some (some d, fun s p t => wf (sfuBits (s.rd p t a) (sfuTanh (exactOf fp32 ftz (s.rd p t a).toNat)) 0 ftz))
  | _ => none

/-- A 32-bit or a 64-bit source by its type (Table 6.7). -/
def typed (s : State) (p : Pops) (t : Nat) (sr : BitVec 4) (a : Src) : DWord :=
  if sr.toNat < 10 then (s.rd p t a).setWidth 64 else s.rd64 p t a
/-- A result of a type: a word, or a pair for 64 bits. -/
def typedWords (dt : BitVec 4) (r : Nat) : List Word := if dt.toNat < 10 then [BitVec.ofNat 32 r] else (w2 (BitVec.ofNat 64 r)).ws

/-- Conversions of one element and packed conversions (R163-R165). -/
def cvtForm : Instr → Option Form
  | .cvt _ d a el dt sr rm ftz inf => some (some d, fun s p t =>
      let r := cvtResult dt.toNat sr.toNat el.toNat rm.toNat ftz inf (typed s p t sr a)
      { ws := typedWords dt r.1, conds := r.2 })
  | .cvtx _ pd d a el dt sr rm ftz inf => some (some d, fun s p t =>
      let x := typed s p t sr a
      let r := cvtResult dt.toNat sr.toNat el.toNat rm.toNat ftz inf x
      { ws := typedWords dt r.1, conds := r.2, ps := [(pd, cvtExact dt.toNat sr.toNat el.toNat r.1 x)] })
  | .cvtp _ d a b bytes dt rm ftz inf => some (some d, fun s p t =>
      let c (w : Word) : Nat × Nat := convert dt.toNat rm.toNat ftz inf (exactOf fp32 ftz w.toNat)
      if bytes then
        let a0 := c ((s.rd64 p t a).extractLsb' 0 32)
        let a1 := c ((s.rd64 p t a).extractLsb' 32 32)
        let b0 := c ((s.rd64 p t b).extractLsb' 0 32)
        let b1 := c ((s.rd64 p t b).extractLsb' 32 32)
        { ws := [BitVec.ofNat 32 (a0.1 + a1.1 * 2 ^ 8 + b0.1 * 2 ^ 16 + b1.1 * 2 ^ 24)], conds := a0.2 ||| a1.2 ||| b0.2 ||| b1.2 }
      else
        let x := c (s.rd p t a)
        let y := c (s.rd p t b)
        { ws := [BitVec.ofNat 32 (x.1 + y.1 * 2 ^ 16)], conds := x.2 ||| y.2 })
  | _ => none

/-! ## The cross-lane instructions (07) -/

/-- The executing threads of the wave of a thread (07 R174), its value in lane `m` of that wave, a predicate or its negation. -/
def setX (s : State) (h : Hdr) (t : Nat) : List Nat := s.grp.filter (fun u => s.execs h u && widOf u == widOf t)
def atLane (s : State) (t m : Nat) (a : Src) : Word := s.rd [] (widOf t * 32 + m) a
def q (s : State) (u : Nat) (p : Pred) (neg : Bool) : Bool := s.pred u p != neg
/-- A mask of lanes: bit `l` is set when a thread of the list has lane `l`. -/
def maskOf (ts : List Nat) : Word := BitVec.ofNat 32 ((List.range 32).map (fun l => if ts.any (fun u => laneOf u == l) then 2 ^ l else 0)).sum

/-- A shuffle: the value of the source lane in the reader's segment, or the lane's own value (or 0) without one. -/
def shuffled (s : State) (t : Nat) (a : Src) (src : Option Nat) (zf : Bool) : LaneOut :=
  match src with
  | some m => w1 (atLane s t m a)
  | none => w1 (if zf then 0 else s.rd [] t a)

/-- Shuffles, votes, ballots and elections (R177-R180). -/
def crossForm : Instr → Option Form
  | .shflIdx _ d a b segw zf => some (some d, fun s _ t =>
      let seg := 2 ^ segw.toNat
      shuffled s t a (some (laneOf t / seg * seg + (s.rd [] t b).toNat % seg)) zf)
  | .shflUp _ d a b segw zf => some (some d, fun s _ t =>
      let n := (s.rd [] t b).toNat
      shuffled s t a (if laneOf t % 2 ^ segw.toNat < n then none else some (laneOf t - n)) zf)
  | .shflDown _ d a b segw zf => some (some d, fun s _ t =>
      let n := (s.rd [] t b).toNat
      shuffled s t a (if 2 ^ segw.toNat ≤ laneOf t % 2 ^ segw.toNat + n then none else some (laneOf t + n)) zf)
  | .shflXor _ d a b segw zf => some (some d, fun s _ t =>
      let seg := 2 ^ segw.toNat
      shuffled s t a (some (laneOf t / seg * seg + (laneOf t % seg ^^^ (s.rd [] t b).toNat % seg))) zf)
  | .voteAll h pd pa neg => some (none, fun s _ t => pr pd ((setX s h t).all (fun u => q s u pa neg)))
  | .voteAny h pd pa neg => some (none, fun s _ t => pr pd (!(setX s h t).all (fun u => !q s u pa neg)))
  | .voteUni h pd pa neg => some (none, fun s _ t =>
      pr pd (!((setX s h t).any (fun u => q s u pa neg) && (setX s h t).any (fun u => !q s u pa neg))))
  | .ballot h d pa neg => some (some d, fun s _ t => w1 (maskOf ((setX s h t).filter (fun u => q s u pa neg))))
  | .ballotExec h d => some (some d, fun s _ t => w1 (maskOf (setX s h t)))
  | .ballotLive _ d => some (some d, fun s _ t => w1 (maskOf ((tidsOf (widOf t)).filter (fun u => (s.th u).live))))
  | .elect h pd => some (none, fun s _ t => pr pd (!(setX s h t).any (fun u => decide (laneOf u < laneOf t))))
  | .electIdx h d => some (some d, fun s _ t =>
      w1 (BitVec.ofNat 32 (((List.range 32).find? (fun l => (setX s h t).any (fun u => laneOf u == l))).getD (laneOf t))))
  | _ => none

/-- Reductions, scans, matches, compress and expand (R181-R185). -/
def treeForm : Instr → Option Form
  | .reduce h d a op rm ftz => some (some d, fun s _ t =>
      let r := reduceTree op.toNat rm.toNat ftz (treeStart s h t a op.toNat ftz)
      { ws := [(r.1.getD (laneOf t) none).getD 0], conds := r.2 })
  | .scan h d a op rm ftz => some (some d, fun s _ t =>
      let r := scanTree op.toNat rm.toNat ftz (treeStart s h t a op.toNat ftz)
      { ws := [(r.1.getD (laneOf t) none).getD 0], conds := r.2 })
  | .scanExcl h d a op rm ftz => some (some d, fun s _ t =>
      let r := scanTree op.toNat rm.toNat ftz (treeStart s h t a op.toNat ftz)
      { ws := [((if laneOf t = 0 then none else r.1.getD (laneOf t - 1) none)).getD (emptyResult op.toNat)], conds := r.2 })
  | .matchLanes h kind d a => some (some d, fun s _ t =>
      w1 (maskOf ((setX s h t).filter (fun u => u == t ||
        (if kind = 1 then (fp32.decode (s.rd [] t a).toNat).same (fp32.decode (s.rd [] u a).toNat)
         else if kind = 2 then s.rd64 [] t a == s.rd64 [] u a
         else s.rd [] t a == s.rd [] u a)))))
  | .compress h d a pm neg z => some (some d, fun s _ t =>
      match ((setX s h t).filter (fun u => q s u pm neg))[laneOf t]? with
      | some u => w1 (s.rd [] u a)
      | none => if z then w1 0 else {})
  | .expand h d a pm neg z => some (some d, fun s _ t =>
      if q s t pm neg then
        w1 (atLane s t ((setX s h t).filter (fun u => q s u pm neg && decide (laneOf u < laneOf t))).length a)
      else if z then w1 0 else {})
  | _ => none

/-- Every instruction of the arithmetic port that the lane tables describe, with its class's latency (02 Table 2.8). -/
def formOf (i : Instr) : Option (Nat × Form) :=
  match arithForm i, bitForm i, moveForm i, floatForm i, packForm i, sfuForm i, cvtForm i, crossForm i, treeForm i with
  | some f, _, _, _, _, _, _, _, _ => some (2, f)
  | _, some f, _, _, _, _, _, _, _ => some (2, f)
  | _, _, some f, _, _, _, _, _, _ => some (2, f)
  | _, _, _, some f, _, _, _, _, _ => some (4, f)
  | _, _, _, _, some f, _, _, _, _ => some (4, f)
  | _, _, _, _, _, some f, _, _, _ => some (8, f)
  | _, _, _, _, _, _, some f, _, _ => some (4, f)
  | _, _, _, _, _, _, _, some f, _ => some (6, f)
  | _, _, _, _, _, _, _, _, some f => some (6, f)
  | _, _, _, _, _, _, _, _, _ => none

/-- No executing lane raises a condition that the launch enables a trap for (06 R147). -/
def NoArithTrap (u : Uses) (f : State → Pops → Nat → LaneOut) (s : State) : Prop :=
  ∀ o ∈ lanes u f s, o.2.conds &&& s.launchF.atEn = 0

end Sys2Proof.Claims

/-! ## Statements: the arithmetic port -/

open Sys2Proof Sys2Proof.Machine Sys2Proof.Machine.State Sys2Proof.Claims

/-- Additions, subtractions, products and extremes issue, deliver the values of R130-R132 and change nothing else.

Logic, shifts, fields, counts and byte permutations (R133-R137) likewise.

Comparisons, selections, moves, addresses and predicate logic (R138-R143) likewise.

`PMOV` from registers writes `p1` to `p15` where the second source has a bit, with the first source's bits (R141). Its
checks take in the predicates that it writes in some executing lane.

It says where these forms complete: `iadd`, `isub`, `iaddc`, `imul`, `imulh`, `imad`, `imadw`, `iadd64`, `isub64`, `imin`,
`imax`, `iabs`, `ineg`, `and`, `or`, `xor`, `andn`, `not`, `shl`, `shr`, `sar`, `rotl`, `shfL`, `shfR`, `bfe`, `bfi`, `popc`,
`clz`, `ctz`, `brev`, `prmb`, `isetp`, `isetp64`, `isel`, `lea`, `mov`, `mov64`, `movi`, `movi64`, `plop`, `pmovTo`,
`pmovFrom`. -/
def Obligations.IntegerInstructions : Prop :=
  (∀ i d f s, arithForm i = some (d, f) → Ready (usesOf i) s → NoQueue (usesOf i) → Computes i (latOf i 2) d f s) ∧
  (∀ i d f s, bitForm i = some (d, f) → Ready (usesOf i) s → NoQueue (usesOf i) → Computes i (latOf i 2) d f s) ∧
  (∀ i d f s, moveForm i = some (d, f) → Ready (usesOf i) s → NoQueue (usesOf i) → Computes i (latOf i 2) d f s) ∧
  (∀ h a b s,
     let pds := (List.range 16).filter (fun k => k ≠ 0 && (s.xs h).any (fun x => (s.rd [] x b).getLsbD k))
     let u := { usesOf (.pmovFrom h a b) with pdsts := pds.map (BitVec.ofNat 4) }
     Ready u s → NoQueue u →
     ∃ t, exec (.pmovFrom h a b) s = .next t ∧ Kept s t ∧ Moves h h.len.bytes s t ∧ t.vres = s.vres ∧
       t.pend = s.pend ++ dueIn (if u.patterned then 6 else 2)
         ((s.xs h).flatMap (fun x => ((List.range 16).filter (fun k => k ≠ 0 && (s.rd [] x b).getLsbD k)).map (fun k =>
           ((Tgt.p x k), if (s.rd [] x a).getLsbD k then (1 : Word) else 0)))) s)

/-- FP32 arithmetic, extremes, comparison, classes, rounding to integers and scaling (R151-R156), where no enabled
arithmetic trap arises.

Packed arithmetic and dot products (R157-R159) likewise.

Conversions of one element and packed conversions (R163-R165) likewise.

It says where these forms complete: `fadd`, `fsub`, `fmul`, `ffma`, `fmin`, `fmax`, `fsetp`, `fclass`, `frnd`, `frndX`,
`fscalb`, `fdscl`, `fadd2`, `fmul2`, `ffma2`, `fdot4`, `idot4`, `cvt`, `cvtx`, `cvtp`. -/
def Obligations.FloatingPointInstructions : Prop :=
  (∀ i d f s, floatForm i = some (d, f) → Ready (usesOf i) s → NoQueue (usesOf i) → NoArithTrap (usesOf i) f s →
     Computes i (latOf i 4) d f s) ∧
  (∀ i d f s, packForm i = some (d, f) → Ready (usesOf i) s → NoQueue (usesOf i) → NoArithTrap (usesOf i) f s →
     Computes i (latOf i 4) d f s) ∧
  (∀ i d f s, cvtForm i = some (d, f) → Ready (usesOf i) s → NoQueue (usesOf i) → NoArithTrap (usesOf i) f s →
     Computes i (latOf i 4) d f s)

namespace Sys2Proof.Claims

open Sys2Proof Sys2Proof.Machine Sys2Proof.Machine.State

/-- The operands of the slot conversions: whether the exponent is chosen, destination, source, block index, exponents,
slot, rounding, saturation. -/
structure CvtsOps where
  auto : Bool
  d : Opnd
  a : Src
  b : Opnd
  c : Opnd
  slot : BitVec 3
  rm : BitVec 2
  ftz : Bool
  inf : Bool

/-- The encoding forms of `CVTS`. -/
def cvtsOps : Instr → Option CvtsOps
  | .cvts _ d a b c slot rm ftz inf => some ⟨false, d, a, b, c, slot, rm, ftz, inf⟩
  | .cvtsAuto _ d a b c slot rm ftz inf => some ⟨true, d, a, b, c, slot, rm, ftz, inf⟩
  | _ => none

/-- The slot of the launch that an instruction names, what the instruction uses for the slot's block, and what the waves
with an executing lane compute (R166, R167). -/
def CvtsOps.fslot (o : CvtsOps) (s : State) : FSlot := FSlot.ofBits (s.launchF.slotBits o.slot.toNat)
def CvtsOps.uses (o : CvtsOps) (i : Instr) (s : State) : Uses :=
  let u := usesOf i
  { u with
    srcs := (if o.auto then u.srcs.filter (fun x => x.1 != srcOf o.c) else u.srcs).map (fun x =>
      if x.1 == o.a then (x.1, elemsPerLane (o.fslot s)) else x)
    dsts := if o.auto then u.dsts ++ [(o.c, 1)] else u.dsts }
def CvtsOps.waves (o : CvtsOps) (h : Hdr) (s : State) : List (Nat × CvtsWave) :=
  (s.wavesX h).map (fun w => (w, cvtsEncode s [] w (s.xsW h w) (o.fslot s) o.slot.toNat o.auto o.a (s.sVal w o.b).toNat
    (s.sVal w o.c).toNat o.rm.toNat o.ftz o.inf))

end Sys2Proof.Claims

/-- The encoding slot conversions (R166, R167): every wave's codes are delivered, `.auto` delivers the chosen exponents of
the wave's blocks in its `s` register, and where the slot asks for it the count of each converted block, marked valid, is on
its way to the wave's underflow buffer and commits with the codes (03 R79); no count of the slot may be on its way at variable
latency, for which a conversion waits (02 R48).

The decoding slot conversion (R167): each executing lane receives the FP32 values of its elements.

It says where these forms complete: `cvts`, `cvtsAuto`, `cvtsDec`. -/
def Obligations.FormatSlotConversions : Prop :=
  (∀ i o s, cvtsOps i = some o → cvtsIllegal (o.fslot s) o.auto false o.a o.c o.inf o.d = false →
     (o.auto = true → ∃ n, o.c = .s n) →
     Ready (o.uses i s) s → NoQueue (o.uses i s) →
     ((o.fslot s).uflow = true → ∀ r ∈ s.vres, ∀ w ∈ r.writes, ∀ v n, w.1 = .u v n →
       v ∉ s.wavesX (usesOf i).h ∨ n / 8 ≠ o.slot.toNat) →
     (∀ e ∈ o.waves (usesOf i).h s, ∀ x ∈ e.2.outs, x.2.conds &&& s.launchF.atEn = 0) →
     ∃ t, exec i s = .next t ∧ Kept s t ∧ Moves (usesOf i).h (usesOf i).len s t ∧ t.vres = s.vres ∧
       t.pend = s.pend ++
         dueIn (o.uses i s).latency (s.outWrites (some o.d) ((o.waves (usesOf i).h s).flatMap (fun e => e.2.outs))) s ++
         dueIn (o.uses i s).latency ((o.waves (usesOf i).h s).flatMap (fun e =>
           (if (o.fslot s).uflow then e.2.counts.map (fun c =>
             (Tgt.u e.1 (o.slot.toNat * 8 + ((s.sVal e.1 o.b).toNat + c.1) % 8), BitVec.ofNat 32 (128 + c.2))) else []) ++
           (if o.auto then (match o.c with
             | .s n => [(Tgt.s e.1 n.toNat, BitVec.ofNat 32 ((e.2.exps.map (fun x => (x.2 % 256).toNat * 2 ^ (8 * x.1))).sum))]
             | _ => []) else []))) s) ∧
  (∀ h d a c slot rm ftz inf s,
     let fs := FSlot.ofBits (s.launchF.slotBits slot.toNat)
     let u := { usesOf (.cvtsDec h d a c slot rm ftz inf) with dsts := [(d, elemsPerLane fs)] }
     let f : State → Pops → Nat → LaneOut := fun s p x =>
       cvtsDecode fs (laneOf x) (s.rd p x a).toNat (s.sVal (widOf x) c).toNat rm.toNat ftz
     cvtsIllegal fs false true a c inf d = false → Ready u s → NoQueue u → NoArithTrap u f s →
     Computes (.cvtsDec h d a c slot rm ftz inf) (latOf (.cvtsDec h d a c slot rm ftz inf) 4) (some d) f s)

/-- The special functions (R160, R161) likewise, in 8 clk. Where the manual only bounds a result, the value is a free one
held to that bound (log 8): the statement holds for every one of them.

`RND` (R168-R171): with a healthy source and room in the log, each executing lane receives the log's value for its call
index, or fresh bits, which the log then holds where logging is on; its call index rises by one. Fresh bits are free values
(log 8). The call index holds 32 lanes in every reachable state.

It says where these forms complete: `frcp`, `frsq`, `fsqrt`, `fexp2`, `flog2`, `fsin`, `fcos`, `ftanh`, `rnd`. -/
def Obligations.SpecialFunctionsAndRandomNumbers : Prop :=
  (∀ i d f s, sfuForm i = some (d, f) → Ready (usesOf i) s → NoQueue (usesOf i) → NoArithTrap (usesOf i) f s →
     ∃ t, exec i s = .next t ∧ Kept s t ∧ Moves (usesOf i).h (usesOf i).len s t ∧ t.vres = s.vres ∧
       t.pend = s.pend ++ dueIn (latOf i 8) (s.outWrites d (lanes (usesOf i) f s)) s ∧
       (t.co s.focus.core).sfuAt = s.now + 4) ∧
  (∀ h d s, Ready (usesOf (.rnd h d)) s → NoQueue (usesOf (.rnd h d)) → (s.co s.focus.core).noiseFailed = false →
     (∀ x ∈ s.xs h, (s.tm (tagOf x)).isSecond = false) →
     (∀ x ∈ s.xs h, rndLogs s x = true → rndIndex s x < rndRoom (s.launchOf x) (s.tm (tagOf x)).index (widxW (widOf x))) →
     (∀ x ∈ s.xs h, (s.wv (widOf x)).rci.length = 32) →
     ∃ t, ∃ val : Nat → Word, exec (.rnd h d) s = .next t ∧
       Kept s { t with waves := s.waves, launches := s.launches, draws := s.draws } ∧ Moves h h.len.bytes s t ∧ t.vres = s.vres ∧
       t.pend = s.pend ++ dueIn 8 (s.outWrites (some d) ((s.xs h).map (fun x => (x, w1 (val x))))) s ∧
       (∀ x ∈ s.xs h, if rndLogs s x then
           (t.launchOf x).rnd.find? (rndKey (s.tm (tagOf x)).index (widxW (widOf x)) (rndIndex s x) (laneOf x)) = some (val x) ∧
             ∀ v, rndLogged s x = some v → val x = v
         else ∃ n, s.draws ≤ n ∧ n < t.draws ∧ val x = Config.freshBits n) ∧
       (∀ x ∈ s.xs h, (t.wv (widOf x)).rci.getD (laneOf x) 0 = (s.wv (widOf x)).rci.getD (laneOf x) 0 + 1) ∧
       (∀ x, x ∉ s.xs h → (t.wv (widOf x)).rci.getD (laneOf x) 0 = (s.wv (widOf x)).rci.getD (laneOf x) 0) ∧
       ∀ l, t.la l = { s.la l with rnd := (t.la l).rnd })

/-- Shuffles, votes, ballots and elections (R177-R180), in 6 clk.

Reductions, scans, matches, compress and expand (R181-R185), in 6 clk.

It says where these forms complete: `shflIdx`, `shflUp`, `shflDown`, `shflXor`, `voteAll`, `voteAny`, `voteUni`, `ballot`,
`ballotExec`, `ballotLive`, `reduce`, `scan`, `scanExcl`, `matchLanes`, `compress`, `expand`, `elect`, `electIdx`. -/
def Obligations.CrossLaneInstructions : Prop :=
  (∀ i d f s, crossForm i = some (d, f) → Ready (usesOf i) s → NoQueue (usesOf i) → Computes i 6 d f s) ∧
  (∀ i d f s, treeForm i = some (d, f) → Ready (usesOf i) s → NoQueue (usesOf i) → NoArithTrap (usesOf i) f s →
     Computes i 6 d f s)

namespace Sys2Proof.Claims

open Sys2Proof Sys2Proof.Machine Sys2Proof.Machine.State

/-- A pair-word slot's operation in a lane (02 Table 2.12), in the terms of the instructions it stands for. -/
def slotForm (s : State) (x : PSlot) (t : Nat) : LaneOut :=
  let a := s.opnd [] t x.sa
  let b := s.opnd [] t x.sb
  let c := s.opnd [] t x.sc
  let rm : BitVec 2 := x.smod.extractLsb' 4 2
  let ftz := x.smod.getLsbD 3
  let e (w : Word) : FV := exactOf fp32 ftz w.toNat
  match x.sop.toNat with
  | 0x01 => wf (onceRounded fp32 rm ftz (fAdd rm.toNat (e a) (e b)))
  | 0x02 => wf (onceRounded fp32 rm ftz (fAdd rm.toNat (e a) (e b).neg))
  | 0x03 => wf (onceRounded fp32 rm ftz (fMul (e a) (e b)))
  | 0x04 => wf (onceRounded fp32 rm ftz (fFma rm.toNat (e a) (e b) (e c)))
  | 0x05 => wf (fminmax false ftz a b)
  | 0x06 => wf (fminmax true ftz a b)
  | 0x07 =>
    let r (k : Nat) := onceRounded fp16 rm ftz (fAdd rm.toNat (halfOf false ftz a k) (halfOf false ftz b k))
    halves (r 0) (r 1)
  | 0x08 =>
    let r (k : Nat) := onceRounded fp16 rm ftz (fMul (halfOf false ftz a k) (halfOf false ftz b k))
    halves (r 0) (r 1)
  | 0x09 =>
    let r (k : Nat) := onceRounded fp16 rm ftz (fFma rm.toNat (halfOf false ftz a k) (halfOf false ftz b k) (halfOf false ftz c k))
    halves (r 0) (r 1)
  | 0x10 => w1 (a + b)
  | 0x11 => w1 (a - b)
  | 0x12 => w1 (a * b)
  | 0x13 => w1 (a * b + c)
  | 0x14 => w1 (if b.slt a then b else a)
  | 0x15 => w1 (if a.slt b then b else a)
  | 0x16 => w1 (a &&& b)
  | 0x17 => w1 (a ||| b)
  | 0x18 => w1 (a ^^^ b)
  | 0x19 => w1 (a &&& ~~~ b)
  | 0x1A => w1 (a <<< b.toNat)
  | 0x1B => w1 (a >>> b.toNat)
  | 0x1C => w1 (a.sshiftRight b.toNat)
  | 0x1D => w1 ((a <<< (b.toNat % 32)) ||| (a >>> (32 - b.toNat % 32)))
  | 0x20 => wf (cvtResult 0 8 0 rm.toNat ftz false (a.setWidth 64))
  | 0x21 => wf (cvtResult 8 0 0 rm.toNat ftz false (a.setWidth 64))
  | 0x22 => wf (cvtResult 0 9 0 rm.toNat ftz false (a.setWidth 64))
  | 0x23 => wf (cvtResult 9 0 0 rm.toNat ftz false (a.setWidth 64))
  | 0x24 => cvtPack 1 16 rm.toNat ftz false [a, b]
  | 0x25 => cvtPack 2 16 rm.toNat ftz false [a, b]
  | 0x30 => w1 a
  | _ => {}

/-- A slot's guard in a thread, and the threads of the group that it lets execute. -/
def slotXs (s : State) (x : PSlot) : List Nat := s.grp.filter (fun t => (s.th t).live && (s.pred t x.guard != x.gneg))
/-- What a slot writes: nothing for an empty slot (R53). -/
def slotWrites (s : State) (x : PSlot) : List (Tgt × Word) :=
  if x.isOp then s.outWrites (some x.sd) ((slotXs s x).map (fun t => (t, slotForm s x t))) else []
/-- The latency of a slot's class: 4 for floating point and conversions, else 2. -/
def slotLat (x : PSlot) : Nat := if x.sop.toNat ≤ 9 ∨ (0x20 ≤ x.sop.toNat ∧ x.sop.toNat ≤ 0x25) then 4 else 2

end Sys2Proof.Claims

/-- A pair word (02 R51-R54): both slots read before either writes, each in the lanes of its own guard; slot 1 commits no
earlier than slot 0 when slot 0 holds an operation.

It says where these forms complete: `pairWord`. -/
def Obligations.PairWords : Prop :=
  ∀ stall s0 s1 s,
    let u := usesOf (.pairWord stall s0 s1)
    let lat1 := if s0.isOp then max (slotLat s0) (slotLat s1) else slotLat s1
    s.overAlloc u = false → s.gate (slotUses stall s0) = .go →
    s.gate { slotUses stall s1 with lat := lat1 } = .go → s.grp.Nodup →
    (∀ x ∈ [s0, s1], ∀ t ∈ slotXs s x, (slotForm s x t).conds &&& s.launchF.atEn = 0) →
    ∃ t, exec (.pairWord stall s0 s1) s = .next t ∧ Kept s t ∧ Moves u.h 16 s t ∧ t.vres = s.vres ∧
      t.pend = s.pend ++ dueIn (slotLat s0) (slotWrites s s0) s ++ dueIn lat1 (slotWrites s s1) s

/-! ## Statements: before and after an issue -/

namespace Sys2Proof.Claims

open Sys2Proof Sys2Proof.Machine Sys2Proof.Machine.State

/-- Every operand of an instruction with the registers it names. -/
def opnds (u : Uses) : List (Opnd × Nat) := u.srcs.map (fun a => (a.1.reg, a.2)) ++ u.dsts

/-- A twin-window operand that its wave reaches: mapped, the target wave not ended, resident on the twin core, allocated. -/
def TwinReached (s : State) (w m : Nat) : Prop :=
  ∃ x, (s.wv w).twin = some x ∧ (s.wv (x.tag * 32 + x.widx)).ended = false ∧ (s.tm x.tag).running = true ∧
    (s.wv (x.tag * 32 + x.widx)).core = twinOf (s.wv w).core ∧ x.base + m < (s.wv (x.tag * 32 + x.widx)).regs ∧
    (x.base + m) ∉ (s.wv (x.tag * 32 + x.widx)).evicted

/-- Nothing of the issue but the frame: no result is on its way that was not, and none committed. -/
def Still (s t : State) : Prop := Kept s t ∧ t.pend = s.pend ∧ t.vres = s.vres

/-- A thread of the group after a transfer: at its target, ready under 04 R93, or past the instruction. -/
def jumped (s : State) (h : Hdr) (target : Option Nat) (x : Thread) : Thread :=
  match target with
  | some a => { x with pc := a, readyAt := s.now + max h.stall.toNat 4, lastIssue := s.now, inTable := false }
  | none => { x with
      pc := (x.pc + h.len.bytes) % 2 ^ 52, readyAt := s.now + max h.stall.toNat 1, lastIssue := s.now, inTable := false }

/-- A pending write is aimed at a thread: its register, predicate or special register, or its wave's `s` register or
underflow buffer. -/
def aimedAt (x : Nat) : Tgt → Bool
  | .v y _ | .p y _ | .sr y _ => y == x
  | .s w _ | .u w _ => w == widOf x

/-- A pending write is not of an underflow count of a wave. -/
def notCount (w : Nat) : Tgt → Bool
  | .u v _ => v != w
  | _ => true

/-- The open record of a wave as it ends, with its CRC (13 R350, R353). -/
def ended (s : State) (r : WRec) (mal : Bool) : WRec := sealRec { r with mal := r.mal || mal, epoch := (s.la r.lid).sealPoints + 1 }

/-- No thread of a wave is live once its executing threads have ended. -/
def lastEnds (s : State) (h : Hdr) (w : Nat) : Prop := ∀ x ∈ tidsOf w, (s.th x).live = true → x ∈ s.xs h

/-- A word-aligned address inside the 52-bit space. -/
def Target (a : DWord) : Prop := a.toNat % 4 = 0 ∧ a.toNat < 2 ^ 52

/-- The trap registers that a user trap at the issuing instruction leaves in a thread (14 Table 14.2). -/
def trapImage (s : State) (x : Nat) (code sub : Nat) (mask info : Word) (len : Nat) : TrapRegs :=
  { cause := BitVec.ofNat 32 ((if (s.th x).rvalid then 2 ^ 16 else 0) + sub * 2 ^ 8 + code)
    pc := s.focus.pc, npc := (s.focus.pc + len) % 2 ^ 52, ad := 0, mask := mask, info := info
    rpc := (s.th x).rpc, rcnt := (s.th x).rcount, rdep := (s.th x).rdepth, wds := 0, inTrap := true, scr := (s.th x).trap.scr }

/-- The group's threads have entered their launch's handler (14 R379): the trap registers are written, INTRAP is set, and
the handler's first instruction is ready at `max(s, 4)` clk. -/
def InHandler (s t : State) (h : Hdr) (code sub : Nat) (mask info : Word) : Prop :=
  (∀ x ∈ s.grp, t.th x = { s.th x with
    pc := (s.launchOf x).handler % 2 ^ 52, readyAt := s.now + max h.stall.toNat 4, inTable := false, park := .none
    pendTrap := none, pendAsync := none, pendPc := none, trap := trapImage s x code sub mask info h.len.bytes }) ∧
  ∀ x, x ∉ s.grp → t.th x = s.th x

/-- A trap event of a launch is held by a die (15 R422, R425): the launch's tag and tenant with the trap code and kind 0x03, its
queue and its identifier. -/
def TrapEvent (s t : State) (die lid code : Nat) : Prop :=
  ∃ e ∈ (t.di die).events, e.2.take 3 =
    [BitVec.ofNat 32 ((s.la lid).cmdTag * 2 ^ 24 + (s.la lid).tenant * 2 ^ 16 + code * 2 ^ 8 + 3), BitVec.ofNat 32 (s.la lid).queue,
     BitVec.ofNat 32 lid]

/-- The threads of the group can take a user trap: live, not in a handler, with a handler to go to. -/
def CanTrap (s : State) : Prop := ∀ x ∈ s.grp, (s.th x).live = true ∧ (s.th x).trap.inTrap = false ∧ (s.launchOf x).handler ≠ 0

end Sys2Proof.Claims

/-- An issue passes its checks when: every `v` operand is allocated, an array instruction has its whole wave, a collective one
of a paired launch has its pair point, no register line is away, no variable-latency result is pending, its queues have
words and room, no port wait or fence holds it, a release has no matrix access or far access of its group to wait for, its unit
is free, a region entry has no command of its region in flight, no checked stall count is short, and its `y` operands are
reached (02 R41, R48, R49; 04 R95; 06 R145; 09 R236, R247; 10 R262, R285; 11 R312; 14 R390, R394). Every condition is one on the
state and the operands alone: with it, a statement that assumes the checks passed says where the instruction completes. -/
def Obligations.IssueConditions : Prop :=
  ∀ (u : Uses) (s : State),
    (∀ o ∈ opnds u, ∀ k, o.1 = .v k → ∀ w ∈ s.wavesF, k.toNat + o.2 ≤ (s.wv w).regs) →
    (u.all32 = true → ∀ w ∈ s.wavesF, ∀ x ∈ tidsOf w, x ∈ s.grp ∧ (s.th x).live = true ∧ (s.pred x u.h.guard != u.h.gneg) = true) →
    (u.collective = true → s.launchF.paired = true → ∀ w ∈ s.wavesF, (s.wv w).pairGo = true) →
    (∀ w ∈ s.wavesF, (s.wv w).evicted = []) →
    s.vres = [] →
    (∀ w ∈ s.wavesX u.h, (∀ k, u.popQ = some k → (s.wv w).er.getD k [] ≠ []) ∧
      ∀ e ∈ u.pushQ, ((s.wv w).eq.getD e.1 []).length + e.2 ≤ 16) →
    (u.memPort = true → s.msys.l2Changing = none ∧
      ∀ x ∈ s.grp, (s.th x).memHold = none ∧ (s.th x).fenceId = 0 ∧ (s.th x).fenceTag = 0) →
    (u.rel = true → (∀ w ∈ s.wavesF, ∀ e ∈ (s.co s.focus.core).mx ++ (s.wv w).saved, e.wid = w →
        e.outs = [] ∧ (e.mem = none → e.srcs = [])) ∧ ∀ g ∈ s.msys.tags, g.acc.tid ∉ s.grp) →
    (u.pairRel = true → ∀ p ∈ s.pend, isForeign p = false) →
    ((∃ o ∈ u.dsts, ∃ m, o.1 = .y m) → ∀ x ∈ s.grp, (s.th x).fencePair = false) →
    (u.region = true → ∀ x ∈ s.xs u.h, (∀ c ∈ (s.co (s.coreOf x)).cmds, c.tid = x → c.rcount ≠ (s.th x).rcount) ∧
      ∀ q ∈ (s.wv (widOf x)).eqHdr, ∀ r ∈ q.2, r.tid = x → r.rcount ≠ (s.th x).rcount) →
    (u.unit = 1 → (s.co s.focus.core).sfuAt ≤ s.now) → (u.unit = 2 → (s.co s.focus.core).rndAt ≤ s.now) →
    (s.launchF.sbchk = true → s.pend = [] ∧ ∀ w ∈ s.wavesX u.h, (s.wv w).twinNext = none) →
    (∀ o ∈ opnds u, ∀ m, o.1 = .y m → ∀ w ∈ s.wavesX u.h, TwinReached s w m.toNat) →
    s.gate u = .go

/-- A group that is not ready keeps its place: its threads wait for the next clk, and nothing else changes (04 R90). A group
that its gate parks waits there; one that its gate traps takes the trap. No form of the arithmetic port does anything else.

A `v` operand at or above the allocation of a wave of the group is illegal encoding, with the word recorded, whatever
else the instruction would meet (02 R41, 14 R378). -/
def Obligations.IssueChecks : Prop :=
  (∀ i cls d f s, formOf i = some (cls, (d, f)) →
     (s.gate (usesOf i) = .hold → s.grp.Nodup → ∃ t, exec i s = .next t ∧ Still s t ∧
       (∀ x ∈ s.grp, t.th x = { s.th x with readyAt := max (s.th x).readyAt (s.now + 1) }) ∧
       (∀ x, x ∉ s.grp → t.th x = s.th x)) ∧
     (∀ p, s.gate (usesOf i) = .park p → s.grp.Nodup → ∃ t, exec i s = .next t ∧ Still s t ∧
       (∀ x ∈ s.grp, t.th x = { s.th x with park := p }) ∧ ∀ x, x ∉ s.grp → t.th x = s.th x) ∧
     (∀ ti, s.gate (usesOf i) = .trap ti → exec i s = .next (s.raise (usesOf i).h (usesOf i).len ti))) ∧
  (∀ i cls d f s o k w, formOf i = some (cls, (d, f)) → o ∈ opnds (usesOf i) → o.1 = .v k → w ∈ s.wavesF →
     (s.wv w).regs < k.toNat + o.2 →
     exec i s = .next (s.raise (usesOf i).h (usesOf i).len { code := 0x01, mask := laneMask s.grp, words := s.focus.word }))

/-- Where a lane reads a source (02 R40, R43-R45, Tables 2.4-2.6): its own register or the register of the lane its pattern
names, its wave's `s` register, the register its twin window reaches, the popped word of its wave, or a constant; a pair
reads its low word first; IMM stands in place of source B, sign-extended to 64 bits.

A lane that does not execute writes nothing (02 R46): every register or predicate that an arithmetic instruction writes
is an executing thread's, its wave's `s` register, or the register that its twin window reaches; `p0` is never written. -/
def Obligations.OperandsAndGuards : Prop :=
  (∀ (s : State) (p : Pops) (x : Nat),
     (∀ n pat, s.rd p x ⟨.v n, pat⟩ = s.vreg (widOf x * 32 + (match pat with
       | .ident => laneOf x
       | .rot k => (laneOf x + k.toNat) % 32
       | .bc k => k.toNat
       | .xor k => (BitVec.ofNat 5 (laneOf x) ^^^ k).toNat
       | .mir k => laneOf x ^^^ (2 ^ k.toNat - 1))) n.toNat) ∧
     (∀ n, s.rd p x ⟨.s n, .ident⟩ = s.sreg (widOf x) n.toNat) ∧
     (∀ n m, (s.wv (widOf x)).twin = some m →
       s.rd p x ⟨.y n, .ident⟩ = s.vreg ((m.tag * 32 + m.widx) * 32 + laneOf x) (m.base + n.toNat)) ∧
     (∀ k, s.rd p x ⟨.e k, .ident⟩ = AMap.get 0 p (widOf x * 8 + k.toNat)) ∧
     (s.rd p x ⟨.c 0, .ident⟩ = 0 ∧ s.rd p x ⟨.c 2, .ident⟩ = 0xFFFFFFFF ∧ s.rd p x ⟨.c 5, .ident⟩ = 0x3F800000 ∧
       s.rd p x ⟨.c 8, .ident⟩ = BitVec.ofNat 32 (laneOf x) ∧ s.rd p x ⟨.c 10, .ident⟩ = BitVec.ofNat 32 (widxW (widOf x))) ∧
     (∀ n, n.toNat < 255 → s.rd64 p x ⟨.v n, .ident⟩ =
       s.vreg (widOf x * 32 + laneOf x) (n.toNat + 1) ++ s.vreg (widOf x * 32 + laneOf x) n.toNat) ∧
     (∀ k, s.rd64 p x ⟨.c k, .ident⟩ = (if k = 2 then 0xFFFFFFFF else 0 : Word) ++ s.constVal x k) ∧
     (∀ w, s.rdB p x (.imm w) = w ∧ s.rdB64 p x (.imm w) = w.signExtend 64)) ∧
  (∀ i cls d f (s : State), formOf i = some (cls, (d, f)) → ∀ w ∈ s.outWrites d (lanes (usesOf i) f s),
     ∃ x ∈ s.xs (usesOf i).h, (s.th x).live = true ∧ (s.pred x (usesOf i).h.guard != (usesOf i).h.gneg) = true ∧
       match w.1 with
       | .v y n => y = x ∨ ∃ m, (s.wv (widOf x)).twin = some m ∧ y = (m.tag * 32 + m.widx) * 32 + laneOf x ∧ m.base ≤ n
       | .s v _ => v = widOf x
       | .p y k => y = x ∧ k ≠ 0
       | .sr _ _ | .u _ _ => False)

/-- When a core's clk passes, exactly its results that are due commit (02 R47): each register and predicate then holds the
value on its way to it, every other register is as before, and what is not due yet waits on. -/
def Obligations.FixedLatencyCommit : Prop :=
  ∀ (s : State) (c : Nat), (∀ w ∈ s.pend, match w.tgt with
      | .v _ n => n < 256
      | .s _ n => n < 64
      | .p _ n => 0 < n ∧ n < 16
      | .sr _ _ => True
      | .u v n => n < (s.wv v).ufbuf.length) →
    (s.pend.map PWrite.tgt).Nodup →
    (∀ w ∈ s.pend, w.core = c → w.due ≤ s.clkOf c + 1 → match w.tgt with
      | .v x n => (s.tickClk c).vreg x n = w.val
      | .s v n => (s.tickClk c).sreg v n = w.val
      | .p x n => (s.tickClk c).pred x (BitVec.ofNat 4 n) = (w.val != 0)
      | .sr x n => n = 0x2F → ((s.tickClk c).th x).trap.scr = w.val
      | .u v n => ((s.tickClk c).wv v).ufbuf.getD n 0 = w.val.setWidth 8) ∧
    (∀ x n, n < 256 → (∀ w ∈ s.pend, w.core = c → w.due ≤ s.clkOf c + 1 → w.tgt ≠ .v x n) → (s.tickClk c).vreg x n = s.vreg x n) ∧
    (∀ v n, n < 64 → (∀ w ∈ s.pend, w.core = c → w.due ≤ s.clkOf c + 1 → w.tgt ≠ .s v n) → (s.tickClk c).sreg v n = s.sreg v n) ∧
    (∀ x (p : Pred), (∀ w ∈ s.pend, w.core = c → w.due ≤ s.clkOf c + 1 → w.tgt ≠ .p x p.toNat) → (s.tickClk c).pred x p = s.pred x p) ∧
    (s.tickClk c).pend = s.pend.filter (fun w => !(w.core == c && decide (w.due ≤ s.clkOf c + 1))) ∧
    (s.tickClk c).clkOf c = s.clkOf c + 1 ∧ (s.tickClk c).mem = s.mem

/-- The `e` operands (10 R262): a pop takes the oldest word of each wave with an executing lane and delivers the result at
variable latency; a push appends the word of the lowest executing lane, queue by queue, to queues `e0` to `e5`. -/
def Obligations.QueueOperands : Prop :=
  (∀ i cls d f s k, formOf i = some (cls, (d, f)) → Ready (usesOf i) s → (usesOf i).popQ = some k → (usesOf i).pushQ = [] →
    NoArithTrap (usesOf i) f s →
    ∃ t, exec i s = .next t ∧ Moves (usesOf i).h (usesOf i).len s t ∧ t.pend = s.pend ∧ t.mem = s.mem ∧ t.vregs = s.vregs ∧
      (∀ w, (t.wv w).er.getD k [] = if w ∈ s.wavesX (usesOf i).h then ((s.wv w).er.getD k []).drop 1 else (s.wv w).er.getD k []) ∧
      t.vres.map (fun r => r.writes) = s.vres.map (fun r => r.writes) ++
        (if (s.outWrites d (lanes (usesOf i) f s)).isEmpty then [] else [s.outWrites d (lanes (usesOf i) f s)])) ∧
  (∀ i cls f s k, formOf i = some (cls, (some (.e k), f)) → k.toNat < 6 → Ready (usesOf i) s → (usesOf i).popQ = none →
    NoArithTrap (usesOf i) f s → s.grp.Pairwise (fun x y => x < y) → (∀ w ∈ s.wavesF, (s.wv w).eq.length = 8) →
    ∃ t, exec i s = .next t ∧ Moves (usesOf i).h (usesOf i).len s t ∧ t.mem = s.mem ∧ t.vregs = s.vregs ∧
      t.pend = s.pend ++ dueIn (latOf i cls) (s.outWrites (some (.e k)) (lanes (usesOf i) f s)) s ∧
      ∀ w ∈ s.wavesX (usesOf i).h, ∀ x, (s.xsW (usesOf i).h w).head? = some x →
        (t.wv w).eq.getD k.toNat [] = (s.wv w).eq.getD k.toNat [] ++ (f s [] x).ws.take 1)

/-- An enabled IEEE condition in some executing lane is the arithmetic trap (06 R147, 14 Table 14.3): it names the lanes that
met an enabled condition, SUB holds every condition that arose, and no result of the instruction is on its way. -/
def Obligations.ArithmeticTraps : Prop :=
  ∀ i cls d f s, formOf i = some (cls, (d, f)) → Ready (usesOf i) s →
    ¬ NoArithTrap (usesOf i) f s →
    ∃ ti, exec i s = .next (s.raise (usesOf i).h (usesOf i).len ti) ∧ ti.code = 0x20 ∧
      ti.sub = (lanes (usesOf i) f s).foldl (fun a o => a ||| o.2.conds) 0 ∧
      ti.mask = laneMask (((lanes (usesOf i) f s).filter (fun o => decide (o.2.conds &&& s.launchF.atEn ≠ 0))).map Prod.fst)

/-! ## Statements: control -/

/-- Branches and calls whose targets are word-aligned and inside the space (04 R93, R108, R109): executing threads are at
their target, the others go on; a call first pushes the address behind it, on a stack with room.

It says where these forms complete: `bra`, `call`, `bri`, `calli`. -/
def Obligations.BranchesAndCalls : Prop :=
  ∀ i (tgt : State → Nat → DWord) call s, ((∃ h off, (i = .bra h off ∧ call = false ∨ i = .call h off ∧ call = true) ∧
          tgt = fun s _ => BitVec.ofNat 64 s.focus.pc + off.signExtend 64) ∨
       (∃ h a, (i = .bri h a ∧ call = false ∨ i = .calli h a ∧ call = true) ∧ tgt = fun s x => s.rd64 [] x a)) →
    Ready (usesOf i) s → (∀ x ∈ s.xs (usesOf i).h, Target (tgt s x)) →
    (call = true → ∀ x ∈ s.xs (usesOf i).h, (s.th x).stack.length < 8 ∧ (s.th x).spilled < 2 ^ 24 - 9) →
    ∃ t, exec i s = .next t ∧ Still s t ∧
      (∀ x ∈ s.grp, t.th x = jumped s (usesOf i).h (if x ∈ s.xs (usesOf i).h then some (tgt s x).toNat else none) { s.th x with
        stack := if call ∧ x ∈ s.xs (usesOf i).h then ((s.focus.pc + (usesOf i).len) % 2 ^ 52) :: (s.th x).stack else (s.th x).stack }) ∧
      ∀ x, x ∉ s.grp → t.th x = s.th x

/-- `RET` with an on-chip entry in every executing thread (04 R110): each goes to its newest return address, which it pops; a
pop below the region's depth clears RVALID (R103).

A push on a full on-chip stack (04 R98): the oldest entry goes to the spill area, 8 bytes in device memory at RSPTR, which
moves on by 8; the new entry is the newest of eight. A pop of an empty one takes the newest spilled entry back. Both for a thread
of an unpaired team, in this package's memory and on a page that does not move (R99; 08 R200).

It says where these forms complete: `ret`. -/
def Obligations.ReturnInstructions : Prop :=
  (∀ h s (ra : Nat → Nat), Ready (usesOf (.ret h)) s →
     (∀ x ∈ s.xs h, (s.th x).stack.head? = some (ra x) ∧ Target (BitVec.ofNat 64 (ra x)) ∧ ra x < 2 ^ 64) →
     ∃ t, exec (.ret h) s = .next t ∧ Still s t ∧
       (∀ x ∈ s.grp, t.th x = jumped s h (if x ∈ s.xs h then some (ra x) else none) { s.th x with
         stack := if x ∈ s.xs h then (s.th x).stack.tail else (s.th x).stack
         rvalid := if x ∈ s.xs h ∧ (s.th x).spilled + (s.th x).stack.length ≤ (s.th x).rdepth then false else (s.th x).rvalid }) ∧
       ∀ x, x ∉ s.grp → t.th x = s.th x) ∧
  ((∀ (s : State) x pa ord pte b, (s.th x).stack = [] → (s.th x).spilled ≠ 0 →
     s.waitOf (.mem pa) = none → pa / 2 ^ 40 = s.pkg → (s.tm (tagOf x)).heldStores = [] →
     s.spillPlace x (((s.th x).rsptr + 2 ^ 52 - 8) % 2 ^ 52) .read = .ok ⟨.mem pa, ord, pte, b⟩ →
     ∃ t, s.popRet x = .inl (BitVec.ofNat 64 (s.rdMem pa 8), t) ∧ (t.th x).stack = [] ∧ (t.th x).spilled = (s.th x).spilled - 1 ∧
       (t.th x).rsptr = ((s.th x).rsptr + 2 ^ 52 - 8) % 2 ^ 52 ∧ t.mem = s.mem ∧ t.vregs = s.vregs) ∧
   ∀ (s : State) x ra pa ord pte b, (s.th x).stack.length = 8 →
     s.waitOf (.mem pa) = none → pa / 2 ^ 40 = s.pkg → s.isPaired (tagOf x) = false →
     s.spillPlace x (s.th x).rsptr .write = .ok ⟨.mem pa, ord, pte, b⟩ →
     ∃ t, s.pushRet x ra = .ok t ∧ (t.th x).stack = ra :: (s.th x).stack.dropLast ∧
       (t.th x).rsptr = ((s.th x).rsptr + 8) % 2 ^ 52 ∧ (t.th x).spilled = (s.th x).spilled + 1 ∧
       (t.rdMem pa 8 = (s.th x).stack.getLastD 0 % 2 ^ 64) ∧
       (∀ a, a < pa ∨ pa + 8 ≤ a → t.byteAt a = s.byteAt a) ∧ t.vregs = s.vregs ∧ t.sregs = s.sregs ∧ t.preds = s.preds)

/-- `NOP` and `COLL` change no state but the program counters and the issue bookkeeping (04 R112, R114).

`STALL` holds the executing threads `n` clk or the stall count, whichever is longer (R112); `YIELD` holds them until a
later regroup boundary (R113); `WAITSB` until their results of the named classes have committed (R118).

It says where these forms complete: `nop`, `stall`, `yield`, `coll`, `waitsb`. -/
def Obligations.NopsAndHolds : Prop :=
  (∀ i h s, (i = .nop h ∨ i = .coll h) → Ready (usesOf i) s →
     ∃ t, exec i s = .next t ∧ Still s t ∧ Moves h h.len.bytes s t) ∧
  (∀ (s : State) h,
     (∀ n, Ready (usesOf (.stall h n)) s → ∃ t, exec (.stall h n) s = .next t ∧ Still s t ∧
       (∀ x ∈ s.grp, t.th x = { s.th x with
         pc := ((s.th x).pc + h.len.bytes) % 2 ^ 52, lastIssue := s.now, inTable := false
         readyAt := s.now + (if x ∈ s.xs h then max (max h.stall.toNat n.toNat) 1 else max h.stall.toNat 1) }) ∧
       ∀ x, x ∉ s.grp → t.th x = s.th x) ∧
     (∀ n, Ready (usesOf (.yield h n)) s → ∃ t, exec (.yield h n) s = .next t ∧ Still s t ∧
       (∀ x ∈ s.grp, t.th x = { jumped s h none (s.th x) with
         park := if x ∈ s.xs h then .yield n.toNat else (s.th x).park }) ∧
       ∀ x, x ∉ s.grp → t.th x = s.th x) ∧
     (∀ mask, Ready (usesOf (.waitsb h mask)) s → ∃ t, exec (.waitsb h mask) s = .next t ∧ Still s t ∧
       (∀ x ∈ s.grp, t.th x = { jumped s h none (s.th x) with
         park := if x ∈ s.xs h ∧ s.vres.any (fun r => mask.getLsbD r.cls && r.writes.any (fun w => aimedAt x w.1)) = true then .waitsb mask.toNat else (s.th x).park }) ∧
       ∀ x, x ∉ s.grp → t.th x = s.th x))

/-- `EXIT` ends the executing threads, drops their monitors and return stacks, and lets the others go on; the records of a
wave whose last thread has ended join its launch's stream, an open one last and malformed, which sets WERR (04 R111, 13 R353,
R354). Nothing else changes.

It says where these forms complete: `exit`. -/
def Obligations.ExitEndsThreads : Prop :=
  ∀ h s, Ready (usesOf (.exit h)) s →
    ∃ t, exec (.exit h) s = .next t ∧ t.pend = s.pend ∧ t.vres = s.vres ∧
      Kept s { t with waves := s.waves, launches := s.launches, teams := s.teams } ∧
      (∀ x ∈ s.grp, t.th x = if x ∈ s.xs h then
          { jumped s h none (s.th x) with live := false, monitor := none, armed := false, hit := false, stack := [] }
        else jumped s h none (s.th x)) ∧
      (∀ x, x ∉ s.grp → t.th x = s.th x) ∧
      (∀ w, (w ∈ s.wavesX h → lastEnds s h w → t.wv w = { s.wv w with openRec := none, held := [] }) ∧
        ((w ∉ s.wavesX h ∨ ¬ lastEnds s h w) → t.wv w = s.wv w)) ∧
      (∀ g, t.tm g = { s.tm g with interval := (t.tm g).interval, shadow := (t.tm g).shadow } ∧
        ((∃ w ∈ s.wavesX h, lastEnds s h w ∧ tagW w = g ∧ (s.wv w).openRec.isSome = true) →
          (t.tm g).interval = (s.tm g).interval ||| 4 ∧ (t.tm g).shadow = (s.tm g).shadow ||| 4) ∧
        ((∀ w ∈ s.wavesX h, lastEnds s h w → tagW w = g → (s.wv w).openRec = none) → t.tm g = s.tm g)) ∧
      (∀ l, t.la l = { s.la l with stream := (t.la l).stream }) ∧
      (∀ w ws, s.wavesX h = w :: ws → (∀ v ∈ ws, ¬ lastEnds s h v) → lastEnds s h w →
        (t.la (s.tm (tagW w)).lid).stream = (s.la (s.tm (tagW w)).lid).stream ++ (s.wv w).held ++
          ((s.wv w).openRec.map (fun r => ended s r true)).toList) ∧
      ∀ r, (∃ w ∈ s.wavesX h, lastEnds s h w ∧ r ∈ (s.wv w).held) → ∃ l, r ∈ (t.la l).stream

/-- `REGION` (04 R102, R115; 06 R171; 13 R354, R370): the wave's counter rises once, each executing thread's region record
names this instruction, the wave keeps its copies, that of the underflow buffer with the counts on their way to it (03 R80),
and its held records join the stream. It waits while commands of the
region are in flight (10 R285), which its checks exclude.

It says where these forms complete: `region`. -/
def Obligations.RegionEntries : Prop :=
  ∀ h s, Ready (usesOf (.region h)) s →
    ∃ t, exec (.region h) s = .next t ∧ t.pend = s.pend ∧ t.vres = s.vres ∧
      Kept s { t with waves := s.waves, launches := s.launches } ∧
      (∀ x ∈ s.grp, t.th x = if x ∈ s.xs h then
          { jumped s h none (s.th x) with
            rpc := s.focus.pc, rcount := (s.wv (widOf x)).rgncnt + 1, rdepth := (s.th x).spilled + (s.th x).stack.length, rvalid := true }
        else jumped s h none (s.th x)) ∧
      (∀ x, x ∉ s.grp → t.th x = s.th x) ∧
      (∀ w, t.wv w = if w ∈ s.wavesX h then { s.wv w with
          rgncnt := (s.wv w).rgncnt + 1, ufbufR := (List.range 64).map (fun n => BitVec.ofNat 8 (s.ufEntry w n)), hashR := (s.wv w).hash, seqR := (s.wv w).seq, held := []
          rciR := ((s.xsW h w).map laneOf).foldl (fun m l => m.set l ((s.wv w).rci.getD l 0)) (s.wv w).rciR }
        else s.wv w) ∧
      ∀ l, t.la l = { s.la l with stream := (s.la l).stream ++
        ((s.wavesX h).filter (fun w => (s.tm (tagW w)).lid == l)).flatMap (fun w => (s.wv w).held) }

/-- `MWAIT` (04 R117): an executing thread whose hit flag is set, or that has executed no `MARM`, goes on with the flag cleared
and, in the predicate form, writes 1; the others park until the flag or the limit, `n` units of 1,024 clk.

It says where these forms complete: `mwaitT`, `mwaitP`. -/
def Obligations.MonitorWaits : Prop :=
  ∀ i h (pd : Option Pred) n s, (i = .mwaitT h n ∧ pd = none ∨ ∃ p, i = .mwaitP h p n ∧ pd = some p) → Ready (usesOf i) s →
    ∃ t, exec i s = .next t ∧ Kept s t ∧ t.vres = s.vres ∧
      (∀ x ∈ s.grp, t.th x = if x ∈ s.xs h then
          if (s.th x).hit = true ∨ (s.th x).armed = false then { jumped s h none (s.th x) with hit := false, late := false }
          else { jumped s h none (s.th x) with park := .mwait (s.now + n.toNat * 1024) pd n.toNat }
        else jumped s h none (s.th x)) ∧
      (∀ x, x ∉ s.grp → t.th x = s.th x) ∧
      t.pend = s.pend ++ match pd with
        | some p => if p = 0 then [] else dueIn 2 (((s.xs h).filter (fun x => (s.th x).hit || !(s.th x).armed)).map (fun x =>
            (Tgt.p x p.toNat, (1 : Word)))) s
        | none => []

/-! ## Statements: traps and the system instructions -/

/-- `TRAP` takes the software trap in every thread of its group, guard-false threads included (14 R378, R379, R385).

`BRK` (14 R387): a debug launch on a die with a debugger halts its die with the group stopped at it, and the halt is
journalled once; any other launch takes the breakpoint trap.

It says where these forms complete: `trap`, `brk`. -/
def Obligations.TrapAndBreakpointInstructions : Prop :=
  (∀ h code imm s, Ready (usesOf (.trap h code imm)) s → CanTrap s →
     ∃ t, exec (.trap h code imm) s = .next t ∧ Still s t ∧ InHandler s t h 0x21 code.toNat (laneMask (s.xs h)) imm) ∧
  (∀ h code s, Ready (usesOf (.brk h code)) s →
     (s.launchF.debug = true → (s.di (dieOf s.focus.core)).debugger = true → s.jfull = false →
       ∃ t, exec (.brk h code) s = .next t ∧ (t.di (dieOf s.focus.core)).halted = true ∧ t.vregs = s.vregs ∧ t.sregs = s.sregs ∧
         t.preds = s.preds ∧
         (∀ x ∈ s.grp, (t.th x).park = .brk h.len.bytes ∧ (t.th x).pc = (s.th x).pc) ∧
         t.checker.jwseq + t.checker.jwait.length = s.checker.jwseq + s.checker.jwait.length + 1) ∧
     (s.launchF.debug = false ∨ (s.di (dieOf s.focus.core)).debugger = false → CanTrap s →
       ∃ t, exec (.brk h code) s = .next t ∧ Still s t ∧ InHandler s t h 0x22 code.toNat (laneMask (s.xs h)) 0))

/-- `RFT.next` and `RFT.retry` in threads that are in their handlers (14 R386): each goes to its continuation, or for a retry
of a synchronous trap to the trapping instruction, and leaves the handler.

`RFT.region` in one executing thread whose trap recorded a valid region (14 R386, 04 R104, 13 R354, R370): the thread is at
the region's entry with its return stack cut to the region's depth, out of its handler; its wave's open and held records are
dropped, its underflow counts on their way with them (03 R80), and its hash, sequence number and underflow buffer are the
entry's copies.

It says where these forms complete: `rftNext`, `rftRegion`, `rftRetry`. -/
def Obligations.TrapReturns : Prop :=
  (∀ i h retry s, (i = .rftNext h ∧ retry = false ∨ i = .rftRetry h ∧ retry = true) → Ready (usesOf i) s →
     (∀ x ∈ s.xs h, (s.th x).trap.inTrap = true ∧ (s.th x).trap.pc < 2 ^ 52 ∧ (s.th x).trap.npc < 2 ^ 52 ∧
       (s.th x).trap.pc % 4 = 0 ∧ (s.th x).trap.npc % 4 = 0) →
     ∃ t, exec i s = .next t ∧ Still s t ∧
       (∀ x ∈ s.grp, t.th x = if x ∈ s.xs h then
           { jumped s h (some (if retry ∧ (s.th x).trap.cause.getLsbD 17 = false then (s.th x).trap.pc else (s.th x).trap.npc)) (s.th x) with
             trap := { (s.th x).trap with inTrap := false } }
         else jumped s h none (s.th x)) ∧
       ∀ x, x ∉ s.grp → t.th x = s.th x) ∧
  (∀ h s x, Ready (usesOf (.rftRegion h)) s → s.xs h = [x] → (s.th x).trap.inTrap = true → (s.th x).trap.cause.getLsbD 16 = true →
     ∃ t, exec (.rftRegion h) s = .next t ∧ t.pend = s.pend.filter (fun w => notCount (widOf x) w.tgt) ∧
       t.vres = s.vres.map (fun r => { r with writes := r.writes.filter (fun w => notCount (widOf x) w.1) }) ∧
       Kept s { t with waves := s.waves } ∧
       (t.th x).pc = (s.th x).trap.rpc % 2 ^ 52 ∧ (t.th x).readyAt = s.now + max h.stall.toNat 4 ∧ (t.th x).trap.inTrap = false ∧
       (t.th x).spilled = min (s.th x).spilled (s.th x).trap.rdep ∧
       (t.th x).spilled + (t.th x).stack.length = min ((s.th x).spilled + (s.th x).stack.length) (s.th x).trap.rdep ∧
       (∃ k, (t.th x).stack = (s.th x).stack.drop k) ∧
       (t.wv (widOf x)).openRec = none ∧ (t.wv (widOf x)).held = [] ∧ (t.wv (widOf x)).hash = (s.wv (widOf x)).hashR ∧
       (t.wv (widOf x)).seq = (s.wv (widOf x)).seqR ∧ (t.wv (widOf x)).ufbuf = (s.wv (widOf x)).ufbufR ∧
       (∀ w, w ≠ widOf x → t.wv w = s.wv w) ∧
       (∀ y ∈ s.grp, y ≠ x → t.th y = jumped s h none (s.th y)) ∧ ∀ y, y ∉ s.grp → t.th y = s.th y)

/-- `SNAP` and `QUIESCE` (14 R388, R391): the live threads of each wave with an executing lane wait, for a snapshot where the
launch reserves an area, and until Q passes the stamp of the issue, as its core's copy of the stamp has it. The wave itself is
marked as waiting, so that a thread of it that waits for something else goes on no earlier.

It says where these forms complete: `snap`, `quiesce`. -/
def Obligations.SnapAndQuiesce : Prop :=
  ∀ i h s, (i = .snap h ∨ i = .quiesce h) → Ready (usesOf i) s →
    let park : Park := if i = .snap h then .snap else .quiesce s.msys.copy
    ∃ t, exec i s = .next t ∧ Kept s { t with waves := s.waves } ∧ t.pend = s.pend ∧ t.vres = s.vres ∧
      (∀ w, t.wv w = { s.wv w with
        timer := (t.wv w).timer, timerOn := (t.wv w).timerOn, timerRun := (t.wv w).timerRun, pairGo := (t.wv w).pairGo
        snapWait := (s.wv w).snapWait || decide (i = .snap h ∧ s.launchF.snapBase ≠ 0 ∧ w ∈ s.wavesX h)
        quiet := if i = .quiesce h ∧ w ∈ s.wavesX h then some s.msys.copy else (s.wv w).quiet }) ∧
      ∀ x, t.th x = { (if x ∈ s.grp then jumped s h none (s.th x) else s.th x) with
        park := if (i = .snap h → s.launchF.snapBase ≠ 0) ∧ widOf x ∈ s.wavesX h ∧ (s.th x).live = true ∧ (s.th x).park = .none then park
          else (s.th x).park }

/-- `GETSR` delivers the special register's value as it stands at the issue; a read of `CLKLO` also latches the high half of
the core's clk count into each executing thread's `CLKHI` (R125, R144).

`SETSR` of a register that it may write (14 R389): each executing thread's value is on its way, for 2 clk; a write of `TNPC`
outside a handler is dropped when it commits, and `TSCR` takes any value.

It says where these forms complete: `getsr`, `setsr`. -/
def Obligations.SpecialRegisters : Prop :=
  (∀ h d num s, Ready (usesOf (.getsr h d num)) s → NoQueue (usesOf (.getsr h d num)) →
     ∃ t, exec (.getsr h d num) s = .next t ∧ Kept s t ∧ t.vres = s.vres ∧
       t.pend = s.pend ++ dueIn 2 (s.outWrites (some d) ((s.xs h).map (fun x => (x, w1 (s.special x num.toNat))))) s ∧
       (∀ x ∈ s.grp, t.th x = { s.th x with
         pc := ((s.th x).pc + h.len.bytes) % 2 ^ 52, readyAt := s.now + max h.stall.toNat 1, lastIssue := s.now, inTable := false
         clkhi := if num = 0 ∧ x ∈ s.xs h then BitVec.ofNat 32 ((s.co (s.wv (widOf x)).core).clk / 2 ^ 32) else (s.th x).clkhi }) ∧
       ∀ x, x ∉ s.grp → t.th x = s.th x) ∧
  ((∀ h num b s, num.toNat ∈ [0x10, 0x11, 0x12, 0x23, 0x24, 0x2F] → Ready (usesOf (.setsr h num b)) s → NoQueue (usesOf (.setsr h num b)) →
     ∃ t, exec (.setsr h num b) s = .next t ∧ Kept s t ∧ Moves h h.len.bytes s t ∧ t.vres = s.vres ∧
       t.pend = s.pend ++ dueIn 2 ((s.xs h).map (fun x => (Tgt.sr x num.toNat, s.rdB [] x b))) s) ∧
   ∀ (s : State) x w,
     ((s.setSpecial x 0x2F w).th x = { s.th x with trap := { (s.th x).trap with scr := w } }) ∧
     ((s.th x).trap.inTrap = false → (s.setSpecial x 0x23 w).th x = s.th x ∧ (s.setSpecial x 0x24 w).th x = s.th x) ∧
     ((s.th x).trap.inTrap = true → ((s.setSpecial x 0x23 w).th x).trap.npc % 2 ^ 32 = w.toNat) ∧
     ((s.setSpecial x 0x11 w).th x).rsptr % 2 ^ 32 = w.toNat / 8 * 8)

/-- `TLBINV` (14 R390): no buffer of the package holds a covered translation of the launch's root any more, every other one
stays, the monitors on lines with a covered translation are hit and no other one is (04 R116), and the wave's threads hold
their port instructions until Q passes the stamp of the issue. The hypothesis excludes an address that does not decode.

The privilege rule (14 R383): of a launch whose record lacks the privilege bit, a fetched `TLBINV` or `QUIESCE` is illegal
instruction with SUB 1, after the feature check and whatever its guard; of a privileged launch it is not.

It says where these forms complete: `tlbinvPage`, `tlbinvRange`, `tlbinvCtx`. -/
def Obligations.PrivilegedInstructions : Prop :=
  (∀ i h s (cover : Nat → Option (Nat × Nat)), Ready (usesOf i) s →
     ((∃ base off, i = .tlbinvPage h base off ∧ cover = (fun w => some ((baseAddr s w base off).toNat, (baseAddr s w base off).toNat + 1)) ∧
         ∀ w ∈ s.wavesX h, decodeFault s (leader s h w) (baseAddr s w base off).toNat = none) ∨
      (∃ base off c, i = .tlbinvRange h base off c ∧ cover = (fun w => some ((baseAddr s w base off).toNat,
           (baseAddr s w base off).toNat + (s.rd [] (leader s h w) (srcOf c)).toNat)) ∧
         ∀ w ∈ s.wavesX h, decodeFault s (leader s h w) (baseAddr s w base off).toNat = none) ∨
      (i = .tlbinvCtx h ∧ cover = fun _ => none)) →
     let hit (e : Nat × Nat × Nat × Nat) : Prop := e.1 = s.spaceOf s.lidF ∧ ∃ w ∈ s.wavesX h, match cover w with
       | some (lo, hi) => lo < hi ∧ e.2.1 < hi ∧ lo < e.2.1 + 2 ^ e.2.2.1
       | none => True
     ∃ t, exec i s = .next t ∧ t.pend = s.pend ∧ t.vres = s.vres ∧ Kept s { t with cores := s.cores, clusters := s.clusters } ∧
       (∀ c, t.co c = { s.co c with groups := (t.co c).groups, memAt := (t.co c).memAt, tlb := (t.co c).tlb }) ∧
       (∀ k, t.cl k = { s.cl k with tlb := (t.cl k).tlb }) ∧
       (∀ c e, e ∈ (t.co c).tlb ↔ e ∈ (s.co c).tlb ∧ ¬ hit e) ∧ (∀ k e, e ∈ (t.cl k).tlb ↔ e ∈ (s.cl k).tlb ∧ ¬ hit e) ∧
       (∀ x, (s.th x).monitor.isSome = true → (∃ e, monEntry s x = some e ∧ hit e) → (t.th x).hit = true) ∧
       (∀ x, ((s.th x).monitor = none ∨ ∀ e, monEntry s x = some e → ¬ hit e) →
         (t.th x).hit = (s.th x).hit ∧ (t.th x).late = (s.th x).late) ∧
       ∀ x, t.th x = { (if x ∈ s.grp then jumped s h none (s.th x) else s.th x) with
         hit := (t.th x).hit, late := (t.th x).late
         memHold := if (s.th x).live = true ∧ widOf x ∈ s.wavesX h ∧ (cover (widOf x)).all (fun r => decide (r.1 < r.2)) = true
           then some s.msys.stamp else (s.th x).memHold }) ∧
  (∀ (s : State) lid l w i, decodeWord l w = .ok i → (bitsOf w 18 11 = 0xED ∨ bitsOf w 18 11 = 0xEE) →
     (∀ k ∈ wordFeatures l w, (s.la lid).feat k = true) →
     s.decodeFor lid l w = if (s.la lid).priv then .ok i (wordsOf (l.bytes / 4) w)
       else .trap { code := 0x02, sub := 1, words := wordsOf (l.bytes / 4) w } l.bytes)

/-- A user trap that cannot enter its handler (14 R379): a second trap inside the handler is the double trap, and a launch
without a handler is aborted; both end the launch with a trap event, when the die's event buffer and the fault record have room.
While the event ring is full the event is held by the die (15 R422), and the context stalls at its instruction until it is posted,
when the launch ends.

A word that is no instruction (02 R35, R56) ends its launch: the system trap, illegal encoding, or illegal instruction for a
reserved major, aborts it with an event to its tenant (14 R377, R380). That entry is what such a word does on every path: it has no
effect of its own. The event is held by the die until the host's ring takes it (15 R422).

It says where these forms complete: `unassignedMajor`. -/
def Obligations.TrapsThatAbort : Prop :=
  (∀ (s : State) x ti pc npc at_ a, (s.di (dieOf (s.coreOf x))).events.length < 16 → s.recordFull = false →
     ((s.th x).trap.inTrap = true ∨ (s.launchOf x).handler = 0) →
     let t := s.userTrap [x] ti pc npc at_ a x
     (s.eventRoom = true →
       (t.la (s.lidOf x)).st = .aborted ∧ (∀ tag ∈ s.teamsOf (s.lidOf x), (t.tm tag).fin = true) ∧
       (s.ringOk = false → TrapEvent s t (dieOf (s.coreOf x)) (s.lidOf x) (if (s.th x).trap.inTrap then 0x2C else ti.code))) ∧
     (s.eventRoom = false → (t.tm (tagOf x)).ring = true ∧ (t.la (s.lidOf x)).stopDue = true ∧
       (t.la (s.lidOf x)).st = (s.la (s.lidOf x)).st)) ∧
  (∀ len w s, s.grp ≠ [] → (∀ x ∈ s.grp, s.lidOf x = s.lidF ∧ s.coreOf x = s.focus.core) →
     (s.di (dieOf s.focus.core)).events.length < 16 → s.recordFull = false → s.eventRoom = true →
     ∃ t, exec (.unassignedMajor len w) s = .next t ∧ (t.la s.lidF).st = .aborted ∧
       (∀ tag ∈ s.teamsOf s.lidF, (t.tm tag).fin = true) ∧ t.vregs = s.vregs ∧ t.sregs = s.sregs ∧
       (s.ringOk = false → TrapEvent s t (dieOf s.focus.core) s.lidF
         (if len ≠ 0 ∧ 0xF0 ≤ bitsOf w.toNat 18 11 ∧ bitsOf w.toNat 18 11 ≤ 0xFE then 0x02 else 0x01)))

/-! ## Statements: memory (08) -/

namespace Sys2Proof.Claims

open Sys2Proof Sys2Proof.Machine Sys2Proof.Machine.State

/-- Registers, predicates, tiles, scratchpad and memory are as before. -/
def SameData (s t : State) : Prop :=
  t.vregs = s.vregs ∧ t.preds = s.preds ∧ t.sregs = s.sregs ∧ t.tiles = s.tiles ∧ t.scratch = s.scratch ∧ t.mem = s.mem ∧ t.stage = s.stage

/-- The pieces of an access: where each lies, its bytes, its address. -/
abbrev Pieces := List (Loc × Nat × Nat)

/-- Every accessing thread's access is aligned (08 R207), lies in this package's memory or in a window, meets no absent line,
no evicted line and no moving page (R191, R195, R200), belongs to no paired copy, its wave has no array instruction whose
memory work is still to come (11 R298), the thread has no strongly ordered access under way (09 R226), and a register that it
reaches through the register window has no result on its way (R241). -/
structure Reaches (s : State) (u : Uses) (ea : Nat → DWord) (align : Nat) (ps : Nat → Pieces) : Prop where
  aligned : ∀ x ∈ s.accessors u, (ea x).toNat % align = 0
  here : ∀ x ∈ s.accessors u, ∀ p ∈ ps x, ∀ pa, p.1 = .mem pa → pa / 2 ^ 40 = s.pkg
  ready : ∀ x ∈ s.accessors u, ∀ p ∈ ps x, s.waitOf p.1 = none
  single : ∀ x ∈ s.accessors u, s.isPaired (tagOf x) = false ∧ (s.tm (tagOf x)).heldStores = []
  unit : ∀ x ∈ s.accessors u, ∀ e ∈ (s.co (s.wv (widOf x)).core).mx, e.wid ≠ widOf x
  order : ∀ x ∈ s.accessors u, (s.wv (widOf x)).saved = [] ∧ ∀ g ∈ s.msys.tags, g.acc.tid = x → g.acc.so = false
  window : ∀ x ∈ s.accessors u, ∀ p ∈ ps x, s.regBusy x p.1 p.2.1 = false

/-- The pieces lie in plain memory: device memory or scratchpad. -/
def Plain (ps : Pieces) : Prop := ∀ p ∈ ps, (∃ pa, p.1 = .mem pa) ∨ ∃ tag off, p.1 = .scr tag off ∧ off + p.2.1 ≤ 2 ^ 20

/-- A byte of the pieces. -/
def Covers (ps : Pieces) (l : Loc) : Prop := ∃ p ∈ ps, ∃ j, j < p.2.1 ∧ p.1.add j = l

/-- No two pieces share a byte. -/
def Apart (ps : Pieces) : Prop := ps.Pairwise (fun p q => ∀ j k, j < p.2.1 → k < q.2.1 → p.1.add j ≠ q.1.add k)

/-- The bytes of pieces, as launch `lid` reads them. -/
def bytesAt (s : State) (lid : Nat) (ps : Pieces) : List Byte := ps.flatMap (fun p => s.rdBytes lid p.1 p.2.1)

/-- The frame of an access: the issue's frame, but for what the caches and translation buffers hold, the marks, the correction
counts and the byte buckets of the memory system, what a launch has read, a team's check interval and external-write bit, and a core's next result number. -/
def AccessKept (s t : State) : Prop :=
  Kept s { t with cores := s.cores, clusters := s.clusters, msys := s.msys, launches := s.launches, teams := s.teams } ∧
  (∀ c, t.co c = { s.co c with
    groups := (t.co c).groups, arithAt := (t.co c).arithAt, memAt := (t.co c).memAt, tlb := (t.co c).tlb, l1 := (t.co c).l1
    nextId := (t.co c).nextId }) ∧
  (∀ k, t.cl k = { s.cl k with tlb := (t.cl k).tlb }) ∧
  (∀ l, t.la l = { s.la l with reads := (t.la l).reads, edges := (t.la l).edges }) ∧
  (∀ g, t.tm g = { s.tm g with interval := (t.tm g).interval, shadow := (t.tm g).shadow, extWrite := (t.tm g).extWrite }) ∧
  t.msys = { s.msys with
    l2 := t.msys.l2, l2Mask := t.msys.l2Mask, domOnly := t.msys.domOnly, classes := t.msys.classes
    eccCorrected := t.msys.eccCorrected, buckets := t.msys.buckets }

/-- The threads after an access that writes: the group has gone on; of any thread only its hit flag, which is never cleared,
whether it came too late, and a wait at a barrier object may have changed. -/
def MovesHit (h : Hdr) (s t : State) : Prop :=
  (∀ x, t.th x = { (if x ∈ s.grp then jumped s h none (s.th x) else s.th x) with
    hit := (t.th x).hit, late := (t.th x).late, park := (t.th x).park }) ∧
  (∀ x, (s.th x).hit = true → (t.th x).hit = true) ∧
  ∀ x, (∀ l pd n, (s.th x).park ≠ .bbwait l pd n none) → (t.th x).park = (s.th x).park

/-- One more pending result of these writes, if there are any. -/
def OneResult (s t : State) (cls : Nat) (ws : List (Tgt × Word)) : Prop :=
  t.vres = if ws.isEmpty then s.vres else
    s.vres ++ [{ core := s.focus.core, id := (s.co s.focus.core).nextId, cls := cls, writes := ws }]

/-- The loads: header, address, bytes, sign extension, destination with its registers, alignment. -/
def loadForm : Instr → Option (Hdr × MemOp × Nat × Bool × (Opnd × Nat) × Nat)
  | .ld h d m w sx _ => some (h, m, 2 ^ w.toNat, sx, (d, if w = 3 then 2 else 1), 2 ^ w.toNat)
  | .ldv h d m w _ => some (h, m, 2 ^ w.toNat, false, (d, 2 ^ (w.toNat - 2)), min (2 ^ w.toNat) 16)
  | _ => none

/-- The stores: header, data with its registers, address, bytes, alignment. -/
def storeForm : Instr → Option (Hdr × (Src × Nat) × MemOp × Nat × Nat)
  | .st h c m w _ => some (h, (c, if w = 3 then 2 else 1), m, 2 ^ w.toNat, 2 ^ w.toNat)
  | .stv h c m w _ => some (h, (c, 2 ^ (w.toNat - 2)), m, 2 ^ w.toNat, min (2 ^ w.toNat) 16)
  | _ => none

/-- The atomics: header, base, offset, qualifier, data with its registers, floating point, operation, bytes, destination. -/
structure AtomForm where
  h : Hdr
  base : Src
  off : Word
  qual : BitVec 3
  c : Src
  n : Nat
  flt : Bool
  op : Nat
  bytes : Nat
  d : Option (Opnd × Nat)

def atomForm : Instr → Option AtomForm
  | .atom h d base off qual c aop _ _ w =>
    some ⟨h, base, off, qual, c, if aop = 9 then 2 * 2 ^ (w.toNat - 2) else 2 ^ (w.toNat - 2), false, aop.toNat, 2 ^ w.toNat,
      some (d, 2 ^ (w.toNat - 2))⟩
  | .atomf h d base off qual c fop _ _ => some ⟨h, base, off, qual, c, 1, true, fop.toNat, 4, some (d, 1)⟩
  | .red h flt base off qual c op _ _ w => some ⟨h, base, off, qual, c, 2 ^ (w.toNat - 2), flt, op.toNat, 2 ^ w.toNat, none⟩
  | _ => none

end Sys2Proof.Claims

/-- Loads (08 R204-R210): each accessing thread receives its bytes, little-endian, extended as its form says; `LDVER` receives
the word and the version word of the version that it read. Nothing in memory changes.

It says where these forms complete: `ld`, `ldv`, `ldver`. -/
def Obligations.Loads : Prop :=
  (∀ i h m n sx d align s ps, loadForm i = some (h, m, n, sx, d, align) → Ready (usesOf i) s →
    (∀ x ∈ s.accessors (usesOf i), s.piecesOf x m.qual.toNat (s.effAddr x m) n .read = .ok (ps x)) →
    Reaches s (usesOf i) (fun x => s.effAddr x m) align ps →
    (∀ x ∈ s.accessors (usesOf i), ∀ p ∈ ps x, s.waitRead x p.1 = none) →
    ∃ t, exec i s = .next t ∧ AccessKept s t ∧ Moves h h.len.bytes s t ∧ t.pend = s.pend ∧
      OneResult s t 0 ((s.accessors (usesOf i)).flatMap (fun x =>
        (s.laneTgts (s.accessors (usesOf i)) (some d) x).zip (loadWords n sx (leNat (bytesAt s (s.lidOf x) (ps x))))))) ∧
  ∀ h d m hint s ps, Ready (usesOf (.ldver h d m hint)) s →
    (∀ x ∈ s.accessors (usesOf (.ldver h d m hint)), s.piecesOf x m.qual.toNat (s.effAddr x m) 4 .read = .ok (ps x)) →
    Reaches s (usesOf (.ldver h d m hint)) (fun x => s.effAddr x m) 4 ps →
    (∀ x ∈ s.accessors (usesOf (.ldver h d m hint)), ∀ p ∈ ps x, s.waitRead x p.1 = none) →
    ∃ t, exec (.ldver h d m hint) s = .next t ∧ AccessKept s t ∧ Moves h h.len.bytes s t ∧ t.pend = s.pend ∧
      OneResult s t 0 ((s.accessors (usesOf (.ldver h d m hint))).flatMap (fun x =>
        (s.laneTgts (s.accessors (usesOf (.ldver h d m hint))) (some (d, 2)) x).zip
          [BitVec.ofNat 32 (leNat (bytesAt s (s.lidOf x) (ps x))),
           match (ps x).head? with
            | some (.stg page _, _, _) =>
              ((s.chooseVersion (s.lidOf x) page true (s.launchOf x).accSeal).map (fun v =>
                BitVec.ofNat 32 (stateCode v.st * 2 ^ 16 + v.num % 2 ^ 16))).getD 0
            | _ => 0]))

/-- Atomics and reductions on device memory or scratchpad (08 R211-R213, Tables 8.8, 8.9) by one accessing thread: the old value
is delivered (not by `RED`), the new one is stored, nothing else in memory changes.

The threads of a group that add 32-bit words to one word of device memory do so one after the other (08 R211): the word
ends at its old value plus all the addends, and the value that each thread receives is the sum before its own addend.

It says where these forms complete: `atom`, `atomf`, `red`. -/
def Obligations.AtomicInstructions : Prop :=
  (∀ i f s x loc a, atomForm i = some f → Ready (usesOf i) s → s.accessors (usesOf i) = [x] →
     s.atomPieces x f.qual.toNat (s.atomAddr x f.base f.off) f.bytes = .ok [(loc, f.bytes, a)] → Plain [(loc, f.bytes, a)] →
     Reaches s (usesOf i) (fun x => s.atomAddr x f.base f.off) f.bytes (fun _ => [(loc, f.bytes, a)]) →
     ∃ t, exec i s = .next t ∧
       AccessKept s { t with mem := s.mem, poison := s.poison, codes := s.codes, ecc := s.ecc, scratch := s.scratch } ∧ MovesHit f.h s t ∧ t.pend = s.pend ∧
       OneResult s t 4 ((s.laneTgts [x] f.d x).zip (loadWords f.bytes false (leNat (s.rdBytes (s.lidOf x) loc f.bytes)))) ∧
       t.rdBytes (s.lidOf x) loc f.bytes = leBytes f.bytes
         (atomResult f.flt f.op f.bytes (leNat (s.rdBytes (s.lidOf x) loc f.bytes)) (s.dataWords x f.c f.n)) ∧
       (∀ b, ¬ Covers [(loc, f.bytes, a)] (.mem b) → t.byteAt b = s.byteAt b) ∧
       ∀ tag off, off < 2 ^ 20 → ¬ Covers [(loc, f.bytes, a)] (.scr tag off) →
         t.scratch.get 0 (tag * 2 ^ 20 + off) = s.scratch.get 0 (tag * 2 ^ 20 + off)) ∧
  (∀ h n base off c scope ord s pa a,
     let i : Instr := .atom h (.v n) base off 0 c 0 scope ord 2
     Ready (usesOf i) s → s.accessors (usesOf i) ≠ [] →
     (∀ x ∈ s.accessors (usesOf i), s.atomPieces x 0 (s.atomAddr x base off) 4 = .ok [(.mem pa, 4, a)]) →
     Reaches s (usesOf i) (fun x => s.atomAddr x base off) 4 (fun _ => [(.mem pa, 4, a)]) →
     let v (x : Nat) : Word := (s.dataWords x c 1).headD 0
     ∃ t, exec i s = .next t ∧
       BitVec.ofNat 32 (t.rdMem pa 4) = BitVec.ofNat 32 (s.rdMem pa 4) + ((s.accessors (usesOf i)).map v).sum ∧
       OneResult s t 4 ((s.accessors (usesOf i)).zipIdx.map (fun e =>
         (Tgt.v e.1 n.toNat, BitVec.ofNat 32 (s.rdMem pa 4) + (((s.accessors (usesOf i)).take e.2).map v).sum))))

/-- The checks of an access (08 R207; 14 Table 14.3): the lowest failing lane decides; misalignment comes before translation,
and is the user trap 0x11 with that lane's address and the width field; a fault of its address is the system trap 0x10 with
the cause. No lane accesses anything. -/
def Obligations.AccessTraps : Prop :=
  ∀ i h m n sx d align s x pre post, loadForm i = some (h, m, n, sx, d, align) → Ready (usesOf i) s →
    s.accessors (usesOf i) = pre ++ x :: post →
    (∀ y ∈ pre, (s.effAddr y m).toNat % align = 0 ∧ ∃ ps, s.piecesOf y m.qual.toNat (s.effAddr y m) n .read = .ok ps) →
    ((s.effAddr x m).toNat % align ≠ 0 →
      ∃ ti, exec i s = .next (s.raise h h.len.bytes ti) ∧ ti.code = 0x11 ∧ ti.ad = s.effAddr x m ∧
        ti.info = BitVec.ofNat 32 (Nat.log2 n)) ∧
    (∀ k, (s.effAddr x m).toNat % align = 0 → s.piecesOf x m.qual.toNat (s.effAddr x m) n .read = .error k →
      ∃ ti, exec i s = .next (s.raise h h.len.bytes ti) ∧ ti.code = 0x10 ∧ ti.sub = k ∧ ti.ad = s.effAddr x m)

/-- Stores to device memory and scratchpad (08 R204-R209): a thread whose bytes no other thread of the group writes finds its
data there, every byte outside the stored pieces is as before, a written device frame is marked domain-only (13 R365), and a
monitor on a written line is hit (04 R116).

A store by one thread to a staging page that holds no version and has no frame in quarantine (09 R259, 13 R342, R344): it opens
version `largest + 1`, WRITING, with the stored bytes over zeros, and the launch's own reads obtain them (09 R253).

It says where these forms complete: `st`, `stv`. -/
def Obligations.StoreInstructions : Prop :=
  (∀ i h c m n align s ps, storeForm i = some (h, c, m, n, align) → n ≤ 32 → Ready (usesOf i) s →
     (∀ x ∈ s.accessors (usesOf i), s.piecesOf x m.qual.toNat (s.effAddr x m) n .write = .ok (ps x) ∧ Plain (ps x)) →
     Reaches s (usesOf i) (fun x => s.effAddr x m) align ps →
     ∃ t, exec i s = .next t ∧
       AccessKept s { t with mem := s.mem, poison := s.poison, codes := s.codes, ecc := s.ecc, scratch := s.scratch } ∧ MovesHit h s t ∧ t.pend = s.pend ∧ t.vres = s.vres ∧
       (∀ x ∈ s.accessors (usesOf i), Apart (ps x) → (∀ y ∈ s.accessors (usesOf i), y ≠ x → ∀ l, Covers (ps y) l → ¬ Covers (ps x) l) →
         bytesAt t (s.lidOf x) (ps x) = leBytes n (wordsNat (s.dataWords x c.1 c.2) % 2 ^ (8 * n))) ∧
       (∀ a, (∀ x ∈ s.accessors (usesOf i), ¬ Covers (ps x) (.mem a)) → t.byteAt a = s.byteAt a) ∧
       (∀ tag off, off < 2 ^ 20 → (∀ x ∈ s.accessors (usesOf i), ¬ Covers (ps x) (.scr tag off)) →
         t.scratch.get 0 (tag * 2 ^ 20 + off) = s.scratch.get 0 (tag * 2 ^ 20 + off)) ∧
       ∀ x ∈ s.accessors (usesOf i), ∀ p ∈ ps x, (∀ pa, p.1 = .mem pa → t.msys.domOnly.get false (pa / 2 ^ 16) = true) ∧
         ∀ y, (s.th y).monitor = some p.1.line → 0 < p.2.1 → (t.th y).hit = true) ∧
  (∀ (s : State) x page off bs a, (s.pageOf page).versions = [] → (∀ q ∈ s.msys.quarantine, q.1 ≠ page) →
     (s.pageOf page).largest + 1 < 0x10000 → off + bs.length ≤ 2 ^ 16 →
     ∃ t, s.openPieces x [(.stg page off, bs.length, a)] = .ok t ∧
       let t := t.writeNow x 0 (.stg page off) bs
       t.rdBytes (s.lidOf x) (.stg page off) bs.length = bs ∧ t.mem = s.mem ∧
       (∀ k, k < 2 ^ 16 → (k < off ∨ off + bs.length ≤ k) → t.rdBytes (s.lidOf x) (.stg page k) 1 = [0]) ∧
       (∀ lid, lid ≠ s.lidOf x → ∀ acc, t.chooseVersion lid page true acc = none) ∧
       ((t.pageOf page).versions.map (fun v => (v.num, v.st, v.lid))) = [((s.pageOf page).largest + 1, .writing, s.lidOf x)] ∧
       ∀ p, p ≠ page → t.pageOf p = s.pageOf p)

/-- Fences (08 R214; 09 R239, R240, R247): the group goes on; an executing thread's later port instructions wait for its far
accesses so far, after a release also for its core's commands numbered so far, after `.sc` also for its loads so far, and at a
scope that contains the twin its twin-window writes wait with them; an acquire of cluster scope or wider drops the lines of memory
from the core's first-level cache. Nothing else changes.

What waits: no instruction of the memory/engine port passes its checks while a far access of a thread of its group stands below
the thread's fence, or a command that it pushed before its release fence is not complete, or a load or atomic before its `.sc`
fence has not returned; nor does a twin-window write of a thread whose fence holds it.

It says where these forms complete: `fenceAcq`, `fenceRel`, `fenceAr`, `fenceSc`. -/
def Obligations.Fences : Prop :=
  (∀ i h (scope : BitVec 3) rel acq s,
    (i = .fenceAcq h scope ∧ rel = false ∧ acq = true ∨ i = .fenceRel h scope ∧ rel = true ∧ acq = false ∨
      (i = .fenceAr h scope ∨ i = .fenceSc h scope) ∧ rel = true ∧ acq = true) → Ready (usesOf i) s →
    ∃ t, exec i s = .next t ∧ t.pend = s.pend ∧ t.vres = s.vres ∧ Kept s { t with cores := s.cores } ∧
      (∀ c, t.co c = { s.co c with groups := (t.co c).groups, memAt := (t.co c).memAt, l1 := (t.co c).l1 }) ∧
      (∀ c, (t.co c).l1 = if c = s.focus.core ∧ acq = true ∧ 3 ≤ scope.toNat ∧ s.xs h ≠ [] then
          (s.co c).l1.filter (fun e => decide (2 ^ 45 ≤ e.1)) else (s.co c).l1) ∧
      (∀ x ∈ s.grp, t.th x = { jumped s h none (s.th x) with
        fenceTag := if x ∈ s.xs h then s.msys.nextTag else (s.th x).fenceTag
        fenceId := if rel = true ∧ x ∈ s.xs h then (s.co (s.wv (widOf x)).core).nextId else (s.th x).fenceId
        fenceRes := if i = .fenceSc h scope ∧ x ∈ s.xs h then (s.co (s.wv (widOf x)).core).nextId else (s.th x).fenceRes
        fencePair := if x ∈ s.xs h then (scope == 2 || scope == 5 || scope == 6) || ((s.th x).fencePair && s.fenced x)
          else (s.th x).fencePair }) ∧
      ∀ x, x ∉ s.grp → t.th x = s.th x) ∧
  ∀ (u : Uses) (s : State) x, x ∈ s.grp →
    let held := (∃ g ∈ s.msys.tags, g.acc.tid = x ∧ g.id < (s.th x).fenceTag) ∨
      (∃ c ∈ (s.co (s.coreOf x)).cmds, c.tid = x ∧ c.id < (s.th x).fenceId) ∨
      ∃ r ∈ s.vres, r.core = s.coreOf x ∧ (r.cls = 0 ∨ r.cls = 4) ∧ r.id < (s.th x).fenceRes ∧ ∃ w ∈ r.writes, aimedAt x w.1 = true
    held → (u.memPort = true ∨ (s.th x).fencePair = true ∧ ∃ o ∈ u.dsts, ∃ m, o.1 = .y m) → s.gate u ≠ .go

/-- `MARM`, `PTEST`, cache control and prefetch at addresses that decode (04 R116; 08 R215, R218, R219): a monitor is armed on its
line, or hit at once in the register window, or asked for at the package that holds the line (14 R402); the test delivers whether the line is present; the others change only what the
caches and buffers hold. No byte of memory changes.

It says where these forms complete: `marm`, `ptest`, `cctlWb`, `cctlInv`, `cctlWbinv`, `cctlRet`, `pref`. -/
def Obligations.AddressForms : Prop :=
  (∀ h m hint s (pl : Nat → Place), Ready (usesOf (.marm h m hint)) s → (s.accessors (usesOf (.marm h m hint))).Nodup →
    (∀ x ∈ s.accessors (usesOf (.marm h m hint)), s.placeFor x m.qual.toNat (s.effAddr x m).toNat .read = .ok (pl x)) →
    (∀ x ∈ s.accessors (usesOf (.marm h m hint)), isFar s (pl x).loc = false) →
    ∃ t, exec (.marm h m hint) s = .next t ∧ AccessKept s t ∧ t.pend = s.pend ∧ t.vres = s.vres ∧
      (∀ x ∈ s.grp, t.th x = if x ∈ s.accessors (usesOf (.marm h m hint)) then
          (if isReg (pl x).loc then { jumped s h none (s.th x) with monitor := none, armed := true, hit := true, late := false }
           else { jumped s h none (s.th x) with
             monitor := some (pl x).loc.line, monAddr := (s.effAddr x m).toNat / 128 * 128, monVa := vaOf s x m (pl x)
             armed := true, hit := false, late := false })
        else jumped s h none (s.th x)) ∧
      ∀ x, x ∉ s.grp → t.th x = s.th x) ∧
  (∀ h m hint s x p pa, Ready (usesOf (.marm h m hint)) s → s.accessors (usesOf (.marm h m hint)) = [x] →
    s.placeFor x m.qual.toNat (s.effAddr x m).toNat .read = .ok p → p.loc = .mem pa → pa / 2 ^ 40 ≠ s.pkg →
    ∃ t r, exec (.marm h m hint) s = .next t ∧ SameData s t ∧ t.pend = s.pend ∧ t.vres = s.vres ∧
      t.msys = { s.msys with nextTag := s.msys.nextTag + 1, tags := s.msys.tags ++ [r] } ∧
      r.id = s.msys.nextTag ∧ r.pkg = pa / 2 ^ 40 ∧ r.acc.tid = x ∧ r.acc.op = .marm ∧
      (∀ y ∈ s.grp, t.th y = if y = x then { jumped s h none (s.th x) with
          monitor := none, monAddr := (s.effAddr x m).toNat / 128 * 128, monVa := vaOf s x m p, armed := true, hit := false
          late := false, fenceTag := s.msys.nextTag + 1 }
        else jumped s h none (s.th y)) ∧
      ∀ y, y ∉ s.grp → t.th y = s.th y) ∧
  (∀ h pd m s (loc : Nat → Loc), Ready (usesOf (.ptest h pd m)) s →
    (∀ x ∈ s.accessors (usesOf (.ptest h pd m)), ∃ p, s.placeFor x m.qual.toNat (s.effAddr x m).toNat .read = .ok p ∧ p.loc = loc x) →
    ∃ t, exec (.ptest h pd m) s = .next t ∧ AccessKept s t ∧ Moves h h.len.bytes s t ∧ t.vres = s.vres ∧
      t.pend = s.pend ++ if pd = 0 then [] else dueIn 8 ((s.accessors (usesOf (.ptest h pd m))).map (fun x =>
        (Tgt.p x pd.toNat, match loc x with
          | .scr tag off => if (s.tm tag).pending.get 0 (off / 128) = 0 then (1 : Word) else 0
          | _ => 1))) s) ∧
  ∀ i h m hint level s,
    (i = .cctlWb h m hint level ∨ i = .cctlInv h m hint level ∨ i = .cctlWbinv h m hint level ∨ i = .cctlRet h m hint level ∨
      i = .pref h m hint level) → Ready (usesOf i) s →
    (i = .pref h m hint level ∨ ∀ x ∈ s.accessors (usesOf i), ∃ p, s.placeFor x m.qual.toNat (s.effAddr x m).toNat .read = .ok p) →
    (∀ e ∈ s.cores, ∀ x ∈ e.2.mx, x.pins = []) →
    ∃ t, exec i s = .next t ∧ AccessKept s t ∧ Moves h h.len.bytes s t ∧ t.pend = s.pend ∧ t.vres = s.vres ∧
      (i = .cctlInv h m hint 0 ∨ i = .cctlWbinv h m hint 0 → ∀ x ∈ s.accessors (usesOf i), ∀ p k,
        s.placeFor x m.qual.toNat (s.effAddr x m).toNat .read = .ok p → lineNum p.loc = some k → (t.co s.focus.core).l1.find? k = none)

/-- The register pool (08 R193, R217): `REGREL` of an allocation that stays at 8 or more gives its registers back at once, zeroed;
`REGCLM` of one that stays at 256 or less queues the claim and parks the wave at it; `CLAIM` opens one pending result for each
accessing thread (R216).

It says where these forms complete: `claim`, `regclm`, `regrel`. -/
def Obligations.PoolsAndClaims : Prop :=
  (∀ h n s w ws, Ready (usesOf (.regrel h n)) s → s.wavesX h = w :: ws → n.toNat + 8 ≤ (s.wv w).regs → s.pend = [] → s.vres = [] →
    ∃ t, exec (.regrel h n) s = .next t ∧ (t.wv w).regs = (s.wv w).regs - n.toNat ∧
      (t.co s.focus.core).free = (s.co s.focus.core).free + n.toNat ∧
      (∀ x k, widOf x = w → k < 256 → t.vreg x k = if (s.wv w).regs - n.toNat ≤ k ∧ k < (s.wv w).regs then 0 else s.vreg x k) ∧
      (∀ x k, widOf x ≠ w → k < 256 → t.vreg x k = s.vreg x k) ∧ t.mem = s.mem ∧ t.sregs = s.sregs ∧ t.preds = s.preds ∧
      ∀ x ∈ s.grp, (t.th x).pc = ((s.th x).pc + h.len.bytes) % 2 ^ 52 ∧ s.now + 4 ≤ (t.th x).readyAt) ∧
  (∀ h n s w ws, Ready (usesOf (.regclm h n)) s → s.wavesX h = w :: ws → (s.wv w).regs + n.toNat ≤ 256 →
    ∃ t, exec (.regclm h n) s = .next t ∧ (t.wv w).claimN = n.toNat ∧ (t.wv w).regs = (s.wv w).regs ∧
      { wid := w, slot := (s.wv w).slot, n := n.toNat, at_ := s.now } ∈ (t.co s.focus.core).claims ∧ t.vregs = s.vregs ∧ t.mem = s.mem ∧
      ∀ x ∈ s.grp, (t.th x).park = .claim ∧ (t.th x).pc = (s.th x).pc) ∧
  ∀ h d m c s, Ready (usesOf (.claim h d m c)) s → s.msys.claims = [] →
    (∀ x ∈ s.accessors (usesOf (.claim h d m c)), ∀ k, claimPlan s x m (s.rd [] x c).toNat ≠ .fault k) →
    ∃ t, exec (.claim h d m c) s = .next t ∧ Moves h h.len.bytes s t ∧ t.vregs = s.vregs ∧ t.mem = s.mem ∧
      t.vres.length = s.vres.length + (s.accessors (usesOf (.claim h d m c))).length ∧
      (∀ x ∈ s.accessors (usesOf (.claim h d m c)), ∀ k, claimPlan s x m (s.rd [] x c).toNat = .code k →
        (s.laneTgts (s.accessors (usesOf (.claim h d m c))) (some (d, 1)) x).map (fun g => (g, claimStatus k 0)) ∈ t.vres.map (fun r => r.writes))

/-! ## Statements: engines, barriers and stage queues (10) -/

namespace Sys2Proof.Claims

open Sys2Proof Sys2Proof.Machine Sys2Proof.Machine.State

/-- The threads outside the group are as before. -/
def Others (s t : State) : Prop := ∀ x, x ∉ s.grp → t.th x = s.th x

/-- The header word of 10 R290: bits 31-18 of IMM, then BBV, NW and OP. -/
def hdrWord (imm : Word) (bbv : Bool) (nw op : Nat) : Word :=
  (imm &&& 0xFFFC0000) ||| (if bbv then 0x20000 else 0) ||| BitVec.ofNat 32 (256 * nw + op)

/-- The two words of an address of a wave, low first. -/
def two (s : State) (w : Nat) (o : Opnd) : List Word := [(s.sPair w o).extractLsb' 0 32, (s.sPair w o).extractLsb' 32 32]

/-- A whole command: header, the address of its barrier where it has one, body. -/
def command (s : State) (w : Nat) (imm : Word) (bb : Opnd) (op : Nat) (body : List Word) : List Word :=
  (hdrWord imm bb.isS body.length op :: (if bb.isS then two s w bb else [])) ++ body

/-- The queue instructions: the queue and the words that each wave pushes (10 R289, R290, Table 10.3). -/
def pushForm : Instr → Option (Nat × (State → Nat → List Word))
  | .qpush h e a => some (e.toNat, fun s w => [s.rd [] (leader s h w) a])
  | .copy _ bb src dst size imm => some (0, fun s w => command s w imm bb 1 (two s w src ++ two s w dst ++ [s.sVal w size]))
  | .copyFill _ bb pat dst size imm => some (0, fun s w => command s w imm bb 2 ([s.sVal w pat] ++ two s w dst ++ [s.sVal w size]))
  | .gather _ bb src idx dst count esz imm => some (1, fun s w => command s w imm bb 1
      (two s w src ++ two s w idx ++ two s w dst ++ [s.sVal w count, if esz = 0 then 4 else if esz = 1 then 8 else 16]))
  | .scatter _ bb src idx dst count esz imm => some (1, fun s w => command s w imm bb 2
      (two s w src ++ two s w idx ++ two s w dst ++ [s.sVal w count, if esz = 0 then 4 else if esz = 1 then 8 else 16]))
  | .collr _ bb src dst group rank imm => some (2, fun s w => command s w imm bb 1
      (two s w group ++ [s.sVal w rank] ++ two s w src ++ two s w dst))
  | .collg _ bb src dst group rank imm => some (2, fun s w => command s w imm bb 2
      (two s w group ++ [s.sVal w rank] ++ two s w src ++ two s w dst))
  | _ => none

/-- The class that `WAITSB` names a popped word by (04 R118). -/
def popCls (e : BitVec 3) : Nat := if e = 6 then 3 else 1

/-- An object lies at an address: aligned, in this package's memory and not on a UO page or a page that moves, or in a
scratchpad line that is present; no earlier SO access of the thread holds the operation (08 R195, R200; 09 R226; 10 R273, R275). -/
def ObjectAt (s : State) (x : Nat) (ea : DWord) (k : Nat) (l : Loc) : Prop :=
  s.waitOf l = none ∧ soHeld s x ea = false ∧ ea.toNat % 2 ^ k = 0 ∧ ∃ p, s.placeFor x 0 ea.toNat .write = .ok p ∧ p.loc = l ∧ match l with
    | .mem pa => p.ord ≠ 2 ∧ pa / 2 ^ 40 = s.pkg
    | .scr _ off => off + 2 ^ k ≤ 2 ^ 20
    | _ => False

/-- An object of another package at an address, its page not moving, and no earlier SO access of the thread holding it. -/
def FarObjectAt (s : State) (x : Nat) (ea : DWord) (k pa : Nat) : Prop :=
  s.waitOf (.mem pa) = none ∧ soHeld s x ea = false ∧ ea.toNat % 2 ^ k = 0 ∧ pa / 2 ^ 40 ≠ s.pkg ∧
    ∃ p, s.placeFor x 0 ea.toNat .write = .ok p ∧ p.loc = .mem pa ∧ p.ord ≠ 2

/-- Of the cores, an instruction of the memory/engine port changes the formed groups, the ports' clk and the result number. -/
def PortCores (s t : State) : Prop :=
  ∀ c, t.co c = { s.co c with
    groups := (t.co c).groups, arithAt := (t.co c).arithAt, memAt := (t.co c).memAt, nextId := (t.co c).nextId }

/-- The bytes outside the pieces are as before. -/
def OutsideKept (s t : State) (ps : Pieces) : Prop :=
  (∀ a, ¬ Covers ps (.mem a) → t.byteAt a = s.byteAt a) ∧
  ∀ tag off, off < 2 ^ 20 → ¬ Covers ps (.scr tag off) → t.scratch.get 0 (tag * 2 ^ 20 + off) = s.scratch.get 0 (tag * 2 ^ 20 + off)

/-- A 64-bit and a 32-bit field of an object. -/
def field64 (s : State) (l : Loc) (off : Nat) : Nat := leNat (s.rdBytes 0 (l.add off) 8)
def field32 (s : State) (l : Loc) (off : Nat) : Nat := leNat (s.rdBytes 0 (l.add off) 4)

/-- The register form of an entry of a stage queue: every lane's two words (10 R282). -/
def laneWords (s : State) (w n : Nat) : List Byte :=
  (List.range 32).flatMap (fun l => leBytes 4 (s.vreg (w * 32 + l) n).toNat ++ leBytes 4 (s.vreg (w * 32 + l) (n + 1)).toNat)

/-- A thread waits for an episode of a tag of the group's launch that is over when this one is. -/
def WaitsFor (s : State) (rt ep x : Nat) : Prop := ∃ k, (s.th x).park = .barrier s.lidF rt k none ∧ k ≤ ep

/-- The thread has gone on behind its waiting instruction of `len` bytes. -/
def behindIt (len : Nat) (x : Thread) : Thread := { x with park := .none, pc := (x.pc + len) % 2 ^ 52, inTable := false }

end Sys2Proof.Claims

/-- Queue instructions (10 R262, R289, R290): each wave with an executing lane appends its words to its queue: one word of its
lowest executing lane, or a whole command. `QPOP` takes the oldest word of each such wave; `QTRY` takes one where there is one
and says so in its predicate.

It says where these forms complete: `qpush`, `qpop`, `qtry`, `copy`, `copyFill`, `gather`, `scatter`, `collr`, `collg`. -/
def Obligations.QueueInstructions : Prop :=
  (∀ i e f s, pushForm i = some (e, f) → e < 6 → Ready (usesOf i) s → (∀ w ∈ s.wavesF, (s.wv w).eq.length = 8) →
    ∃ t, exec i s = .next t ∧ Kept s { t with waves := s.waves, teams := s.teams, cores := s.cores } ∧ PortCores s t ∧
      Moves (usesOf i).h (usesOf i).len s t ∧ t.pend = s.pend ∧ t.vres = s.vres ∧
      ∀ w, t.wv w = { s.wv w with
        eq := if w ∈ s.wavesX (usesOf i).h then (s.wv w).eq.set e ((s.wv w).eq.getD e [] ++ f s w) else (s.wv w).eq
        eqHdr := (t.wv w).eqHdr, eqRaised := (t.wv w).eqRaised, timer := (t.wv w).timer, timerOn := (t.wv w).timerOn
        timerRun := (t.wv w).timerRun, pairGo := (t.wv w).pairGo }) ∧
  (∀ h d e s, Ready (usesOf (.qpop h d e)) s →
    ∃ t, exec (.qpop h d e) s = .next t ∧ Kept s { t with waves := s.waves, cores := s.cores } ∧ PortCores s t ∧
      Moves h h.len.bytes s t ∧ t.pend = s.pend ∧
      (∀ w, (t.wv w).er = if w ∈ s.wavesX h then (s.wv w).er.set e.toNat (((s.wv w).er.getD e.toNat []).drop 1) else (s.wv w).er) ∧
      OneResult s t (popCls e) (s.dstWrites d ((s.xs h).map (fun x => (x, [((s.wv (widOf x)).er.getD e.toNat []).headD 0]))))) ∧
  ∀ h d e pd s, Ready (usesOf (.qtry h d e pd)) s →
    let has (x : Nat) : Bool := !((s.wv (widOf x)).er.getD e.toNat []).isEmpty
    ∃ t, exec (.qtry h d e pd) s = .next t ∧ Kept s { t with waves := s.waves, cores := s.cores } ∧ PortCores s t ∧
      Moves h h.len.bytes s t ∧ t.pend = s.pend ∧
      (∀ w, (t.wv w).er = if w ∈ s.wavesX h then (s.wv w).er.set e.toNat (((s.wv w).er.getD e.toNat []).drop 1) else (s.wv w).er) ∧
      OneResult s t (popCls e)
        (s.dstWrites d (((s.xs h).filter has).map (fun x => (x, [((s.wv (widOf x)).er.getD e.toNat []).headD 0]))) ++
          if pd = 0 then [] else (s.xs h).map (fun x => (Tgt.p x pd.toNat, if has x then (1 : Word) else 0)))

/-- Byte-count barriers and chunk counters (10 R273-R277, R291, R292). By a group of one wave: `BBINIT` sets COUNT, advances EPOCH
and clears the rest but for UNDER; `BBADD` adds to COUNT and sets UNDER below zero; `CHUNK` takes the next piece of the range.
`BBWAIT` lets a wave go on that finds COUNT at 0 or less, with an acquire (09 R245), and parks the others at the object. At an
object of another package all of them act there under a response tag and change no byte here (14 R402).

It says where these forms complete: `chunk`, `bbinit`, `bbadd`, `bbwait`, `bbwaitP`. -/
def Obligations.BarrierObjects : Prop :=
  (∀ h base off c s w l, let i : Instr := .bbinit h base off c
    Ready (usesOf i) s → s.wavesX h = [w] → ObjectAt s (leader s h w) (baseAddr s w base off) 6 l →
    ∃ t, exec i s = .next t ∧ AccessKept s { t with mem := s.mem, poison := s.poison, codes := s.codes, ecc := s.ecc, scratch := s.scratch } ∧ MovesHit h s t ∧
      t.pend = s.pend ∧ t.vres = s.vres ∧ OutsideKept s t [(l, 64, 0)] ∧
      t.rdBytes 0 l 64 = leBytes 8 (s.sPair w c).toNat ++ leBytes 4 ((field32 s l 8 + 1) % 2 ^ 32) ++
        leBytes 52 (if (s.sPair w c).toInt < 0 then 1 else 0)) ∧
  (∀ h base off c s w l, let i : Instr := .bbadd h base off c
    Ready (usesOf i) s → s.wavesX h = [w] → ObjectAt s (leader s h w) (baseAddr s w base off) 6 l →
    ∃ t, exec i s = .next t ∧ AccessKept s { t with mem := s.mem, poison := s.poison, codes := s.codes, ecc := s.ecc, scratch := s.scratch } ∧ MovesHit h s t ∧
      t.pend = s.pend ∧ t.vres = s.vres ∧ OutsideKept s t [(l, 8, 0), (l.add 12, 4, 0)] ∧
      field64 t l 0 = (field64 s l 0 + (s.sPair w c).toNat) % 2 ^ 64 ∧
      field32 t l 12 = if 2 ^ 63 ≤ field64 t l 0 then field32 s l 12 ||| 1 else field32 s l 12) ∧
  (∀ h d base off s w pa, let i : Instr := .chunk h d base off
    Ready (usesOf i) s → s.wavesX h = [w] → ObjectAt s (leader s h w) (baseAddr s w base off) 5 (.mem pa) →
    let next := field64 s (.mem pa) 0
    let rem := field64 s (.mem pa) 8 - next
    let div := max 1 (field32 s (.mem pa) 20)
    let cnt := min (min rem (max (max 1 (field32 s (.mem pa) 16)) ((rem + div - 1) / div))) (2 ^ 32 - 1)
    ∃ t, exec i s = .next t ∧ MovesHit h s t ∧ t.pend = s.pend ∧ OutsideKept s t [(.mem pa, 8, 0)] ∧ t.vregs = s.vregs ∧ t.sregs = s.sregs ∧
      t.preds = s.preds ∧ field64 t (.mem pa) 0 = (next + cnt) % 2 ^ 64 ∧
      OneResult s t 1 ((s.tgts (w * 32) d 4).zip
        [BitVec.ofNat 32 next, BitVec.ofNat 32 (next % 2 ^ 52 / 2 ^ 32), BitVec.ofNat 32 cnt, BitVec.ofNat 32 (min (rem - cnt) (2 ^ 32 - 1))])) ∧
  (∀ i h (pd : Option Pred) base off s (loc : Nat → Loc),
    (i = .bbwait h base off ∧ pd = none ∨ ∃ p, i = .bbwaitP h p base off ∧ pd = some p) → Ready (usesOf i) s →
    (∀ w ∈ s.wavesX h, ObjectAt s (leader s h w) (baseAddr s w base off) 6 (loc w)) →
    ∃ t, exec i s = .next t ∧ Kept s { t with cores := s.cores } ∧ t.vres = s.vres ∧ Others s t ∧
      (∀ c, t.co c = { s.co c with groups := (t.co c).groups, memAt := (t.co c).memAt, l1 := (t.co c).l1 }) ∧
      (∀ c, (t.co c).l1 = if c = s.focus.core ∧ (∃ w ∈ s.wavesX h, (s.countAt (loc w)).toInt ≤ 0) then
          (s.co c).l1.filter (fun e => decide (2 ^ 45 ≤ e.1)) else (s.co c).l1) ∧
      (∀ x ∈ s.grp, t.th x = if x ∈ s.xs h ∧ 0 < (s.countAt (loc (widOf x))).toInt then
          { jumped s h none (s.th x) with
            park := .bbwait (loc (widOf x)) pd h.len.bytes none, pc := s.focus.pc, bbStamp := s.msys.copy }
        else jumped s h none (s.th x)) ∧
      t.pend = s.pend ++ match pd with
        | some p => if p = 0 then [] else dueIn 2 ((s.wavesX h).flatMap (fun w =>
            if (s.countAt (loc w)).toInt ≤ 0 then (s.xsW h w).map (fun x => (Tgt.p x p.toNat, if s.countAt (loc w) = 0 then (1 : Word) else 0))
            else [])) s
        | none => []) ∧
  (∀ i h base off c s w pa, (i = .bbinit h base off c ∨ i = .bbadd h base off c) → Ready (usesOf i) s → s.wavesX h = [w] →
    FarObjectAt s (leader s h w) (baseAddr s w base off) 6 pa →
    ∃ t r, exec i s = .next t ∧ Kept s { t with teams := s.teams, msys := s.msys } ∧ MovesHit h s t ∧ t.pend = s.pend ∧
      t.vres = s.vres ∧ (∀ g, t.tm g = { s.tm g with extWrite := (t.tm g).extWrite }) ∧
      t.msys = { s.msys with nextTag := s.msys.nextTag + 1, tags := s.msys.tags ++ [r] } ∧ r.pkg = pa / 2 ^ 40 ∧ r.acc.op = .store ∧
      r.acc.tid = leader s h w) ∧
  (∀ h d base off s w pa, Ready (usesOf (.chunk h d base off)) s → s.wavesX h = [w] →
    FarObjectAt s (leader s h w) (baseAddr s w base off) 5 pa →
    ∃ t r, exec (.chunk h d base off) s = .next t ∧ SameData s t ∧ MovesHit h s t ∧ t.pend = s.pend ∧
      t.msys = { s.msys with nextTag := s.msys.nextTag + 1, tags := s.msys.tags ++ [r] } ∧ r.pkg = pa / 2 ^ 40 ∧ r.acc.op = .chunk ∧
      ∃ v, t.vres = s.vres ++ [v] ∧ v.ready = false ∧ v.writes.map Prod.fst = s.tgts (w * 32) d 4) ∧
  ∀ i h (pd : Option Pred) base off s w pa,
    (i = .bbwait h base off ∧ pd = none ∨ ∃ p, i = .bbwaitP h p base off ∧ pd = some p) → Ready (usesOf i) s → s.wavesX h = [w] →
    FarObjectAt s (leader s h w) (baseAddr s w base off) 6 pa →
    ∃ t, exec i s = .next t ∧ SameData s t ∧ t.pend = s.pend ∧ t.vres = s.vres ∧ Others s t ∧
      (∀ x ∈ s.xs h, (t.th x).park = .bbwait (.mem pa) pd h.len.bytes none ∧ (t.th x).pc = s.focus.pc) ∧
      ∃ rs, t.msys.tags = s.msys.tags ++ rs ∧ rs.map (fun r => (r.acc.tid, r.pkg)) = (s.xs h).map (fun x => (x, pa / 2 ^ 40)) ∧
        ∀ r ∈ rs, r.acc.op = .bbwait ∧ r.held = true

/-- Wired barriers (10 R278, R280, R293) of a bound tag that no debugger holds, by unpaired threads of one core: `BAR` and `BARA`
count each executing thread's arrival in the open episode; `BAR` and `BARW` wait for it. The last arrival opens the next
episode, and releases every thread that waits 64 clk of its core on, or 160 when an arrival or a waiter is on another die. A
`BARW` of an episode that is over goes on at once, with the acquire of its release (09 R246). An unbound tag is the trap 0x14 with cause 3.

It says where these forms complete: `bar`, `bara`, `barw`. -/
def Obligations.WiredBarriers : Prop :=
  (∀ i h (rt : BitVec 3) wait s, (i = .bar h rt ∧ wait = true ∨ i = .bara h rt ∧ wait = false) → Ready (usesOf i) s →
    (∀ x ∈ s.xs h, s.lidOf x = s.lidF ∧ s.coreOf x = s.focus.core ∧ (s.tm (tagOf x)).isSecond = false) →
    (∀ x ∈ s.grp, (s.th x).park = .none) →
    let n := s.launchF.tagCount rt.toNat
    let r := rtagOf s s.lidF rt.toNat
    r.hold = false → r.count < n → r.count + (s.xs h).length ≤ n →
    ∃ t, exec i s = .next t ∧ SameData s t ∧ t.pend = s.pend ∧ t.vres = s.vres ∧
      (r.count + (s.xs h).length < n → (rtagOf t s.lidF rt.toNat).count = r.count + (s.xs h).length ∧
        (rtagOf t s.lidF rt.toNat).episode = r.episode ∧ Others s t ∧
        ∀ x ∈ s.grp, t.th x = if x ∈ s.xs h then
            { jumped s h none (s.th x) with
              arrivals := AMap.set 0 (s.th x).arrivals rt.toNat (r.episode + 1)
              park := if wait then .barrier s.lidF rt.toNat r.episode none else .none }
          else jumped s h none (s.th x)) ∧
      (r.count + (s.xs h).length = n → (rtagOf t s.lidF rt.toNat).count = 0 ∧ (rtagOf t s.lidF rt.toNat).episode = r.episode + 1 ∧
        (AMap.sorted s.threads = true → ∃ d,
          ((∃ e ∈ r.dies, e.1 = r.episode ∧ e.2 ≠ dieOf s.focus.core) ∨ (∃ x, WaitsFor s rt.toNat r.episode x ∧
            dieOf (s.coreOf x) ≠ dieOf s.focus.core) → d = 160) ∧
          ((∀ e ∈ r.dies, e.1 = r.episode → e.2 = dieOf s.focus.core) → (∀ x, WaitsFor s rt.toNat r.episode x →
            dieOf (s.coreOf x) = dieOf s.focus.core) → d = 64) ∧
          (∀ x ∈ s.grp, t.th x = if x ∈ s.xs h then
              { jumped s h none (s.th x) with
                arrivals := AMap.set 0 (s.th x).arrivals rt.toNat (r.episode + 1)
                park := if wait then .barrier s.lidF rt.toNat r.episode (some (s.now + d)) else .none }
            else jumped s h none (s.th x)) ∧
          (∀ x k, x ∉ s.grp → (s.th x).park = .barrier s.lidF rt.toNat k none → k ≤ r.episode →
            t.th x = { s.th x with park := .barrier s.lidF rt.toNat k (some (s.clkOf (s.coreOf x) + d)) }) ∧
          ∀ x, x ∉ s.grp → ¬ WaitsFor s rt.toNat r.episode x → t.th x = s.th x))) ∧
  (∀ h (rt : BitVec 3) s, Ready (usesOf (.barw h rt)) s → (∀ x ∈ s.xs h, s.lidOf x = s.lidF) → s.launchF.tagCount rt.toNat ≠ 0 →
    let r := rtagOf s s.lidF rt.toNat
    ∃ t, exec (.barw h rt) s = .next t ∧ Kept s { t with cores := s.cores } ∧ t.pend = s.pend ∧ t.vres = s.vres ∧ Others s t ∧
      (∀ c, t.co c = { s.co c with groups := (t.co c).groups, memAt := (t.co c).memAt, l1 := (t.co c).l1 }) ∧
      (∀ c, (t.co c).l1 = if c = s.focus.core ∧ (∃ x ∈ s.xs h, (t.th x).park = .none) then
          (s.co c).l1.filter (fun e => decide (2 ^ 45 ≤ e.1)) else (s.co c).l1) ∧
      ∀ x ∈ s.grp, t.th x =
        let a := (s.th x).arrivals.get 0 rt.toNat
        if x ∈ s.xs h ∧ (a = 0 ∨ r.episode < a) then
          { jumped s h none (s.th x) with park := .barrier s.lidF rt.toNat (if a = 0 then r.episode else a - 1) none }
        else jumped s h none (s.th x)) ∧
  ∀ i h (rt : BitVec 3) s, (i = .bar h rt ∨ i = .bara h rt ∨ i = .barw h rt) → Ready (usesOf i) s → s.xs h ≠ [] →
    s.launchF.tagCount rt.toNat = 0 →
    exec i s = .next (s.raise h h.len.bytes { code := 0x14, sub := 3, mask := laneMask (s.xs h) })

/-- Stage queues (10 R282, R283, R294), of waves that have no command of `e4` or `e5` before a list: `SQPUSH` and `SQPOP`, in the
register forms and in the memory forms where every address can be reached in this package and no SO access holds them, join their
queue's list, one request for each wave with an executing lane, and park the executing threads at the instruction; `SQCLOSE` joins
the list and goes on. The front die serves a list: an entry is appended or delivered, with 1 in the predicate, and 0 once the queue
is closed and empty.

It says where these forms complete: `sqpush`, `sqpop`, `sqclose`, `stageQueueServe`. -/
def Obligations.StageQueues : Prop :=
  (∀ h (qn : BitVec 4) a s (entry : Nat → List Byte) (ps : Nat → Pieces), Ready (usesOf (.sqpush h qn a)) s →
    (∀ w ∈ s.wavesX h, sqBehind s w = false) → s.launchF.sqDepth qn.toNat ≠ 0 →
    (∀ w ∈ s.wavesX h,
      h.len = .w64 ∧ entry w = laneWords s w (regNum a) ∧ ps w = [] ∨
      h.len ≠ .w64 ∧ entryPieces s (leader s h w) (s.sPair w a) .read = .ok (ps w) ∧
        entry w = bytesAt s (s.lidOf (leader s h w)) (ps w) ∧ (s.tm (tagOf (leader s h w))).heldStores = [] ∧
        soHeld s (leader s h w) (s.sPair w a) = false ∧ soHeld s (leader s h w) (s.sPair w a + 255) = false ∧
        ∀ p ∈ ps w, s.waitOf p.1 = none ∧ s.waitRead (leader s h w) p.1 = none ∧ isFar s p.1 = false) →
    ∃ t, exec (.sqpush h qn a) s = .next t ∧ SameData s t ∧ t.pend = s.pend ∧ t.vres = s.vres ∧ Others s t ∧
      sqOf t s.lidF qn.toNat = { sqOf s s.lidF qn.toNat with
        pushes := (sqOf s s.lidF qn.toNat).pushes ++ (s.wavesX h).map (fun w => {
          wid := w, tids := s.xsW h w, len := h.len.bytes, entry := entry w
          cls := (ps w).foldl (fun k p => k ||| s.classAt s.lidF p.1) 0 }) } ∧
      ∀ x ∈ s.grp, t.th x = if x ∈ s.xs h then
          { jumped s h none (s.th x) with park := .sq s.lidF qn.toNat, pc := s.focus.pc }
        else jumped s h none (s.th x)) ∧
  (∀ h (qn : BitVec 4) a pd s (ps : Nat → Pieces), Ready (usesOf (.sqpop h qn a pd)) s →
    (∀ w ∈ s.wavesX h, sqBehind s w = false) → s.launchF.sqDepth qn.toNat ≠ 0 →
    (∀ w ∈ s.wavesX h, h.len = .w64 ∧ ps w = [] ∨
      h.len ≠ .w64 ∧ entryPieces s (leader s h w) (s.sPair w a) .write = .ok (ps w) ∧
        soHeld s (leader s h w) (s.sPair w a) = false ∧ soHeld s (leader s h w) (s.sPair w a + 255) = false) →
    ∃ t, exec (.sqpop h qn a pd) s = .next t ∧ SameData s t ∧ t.pend = s.pend ∧ t.vres = s.vres ∧ Others s t ∧
      sqOf t s.lidF qn.toNat = { sqOf s s.lidF qn.toNat with
        pops := (sqOf s s.lidF qn.toNat).pops ++ (s.wavesX h).map (fun w => {
          wid := w, tids := s.xsW h w, len := h.len.bytes, reg := if h.len = .w64 then some (regNum a) else none
          pieces := ps w, pd := pd.toNat, stamp := s.msys.copy }) } ∧
      ∀ x ∈ s.grp, t.th x = if x ∈ s.xs h then
          { jumped s h none (s.th x) with park := .sq s.lidF qn.toNat, pc := s.focus.pc }
        else jumped s h none (s.th x)) ∧
  (∀ h (qn : BitVec 4) s, Ready (usesOf (.sqclose h qn)) s → (∀ w ∈ s.wavesX h, sqBehind s w = false) →
    s.launchF.sqDepth qn.toNat ≠ 0 →
    ∃ t, exec (.sqclose h qn) s = .next t ∧ SameData s t ∧ Moves h h.len.bytes s t ∧ t.pend = s.pend ∧ t.vres = s.vres ∧
      sqOf t s.lidF qn.toNat = { sqOf s s.lidF qn.toNat with
        pushes := (sqOf s s.lidF qn.toNat).pushes ++ (s.wavesX h).map (fun w => { wid := w, isClose := true }) }) ∧
  (∀ lid k (s : State) es r, sqOf s lid k = { entries := es, pushes := [r] } → r.cmd = none → r.isClose = false → r.tag = 0 →
    r.tids.Nodup → es.length < (s.la lid).sqDepth k →
    ∃ t, exec (.stageQueueServe lid k) s = .next t ∧ SameData s t ∧
      sqOf t lid k = { entries := es ++ [(r.entry, r.poison, r.cls)] } ∧
      ∀ x, t.th x = if x ∈ r.tids then behindIt r.len (s.th x) else s.th x) ∧
  ∀ lid k (s : State) es closed r n, sqOf s lid k = { entries := es, closed := closed, pops := [r] } → r.cmd = none → r.reg = some n →
    n < 255 → r.tids.Nodup → 0 < r.pd → r.pd < 16 → (s.tm (tagW r.wid)).fin = false → (es = [] → closed = true) →
    ∃ t, exec (.stageQueueServe lid k) s = .next t ∧ t.mem = s.mem ∧ sqOf t lid k = { entries := es.tail, closed := closed } ∧
      (∀ x ∈ r.tids, t.pred x (BitVec.ofNat 4 r.pd) = !es.isEmpty) ∧
      (∀ x ∈ r.tids, ∀ e ∈ es.head?, t.vreg x n = BitVec.ofNat 32 (leNat ((e.1.drop (8 * laneOf x)).take 4)) ∧
        t.vreg x (n + 1) = BitVec.ofNat 32 (leNat ((e.1.drop (8 * laneOf x + 4)).take 4))) ∧
      (∀ x m, m < 256 → (x ∉ r.tids ∨ m ≠ n ∧ m ≠ n + 1 ∨ es = []) → t.vreg x m = s.vreg x m) ∧
      ∀ x, t.th x = if x ∈ r.tids then behindIt r.len (s.th x) else s.th x

/-! ## Statements: the matrix unit and the witness lane (11-13) -/

namespace Sys2Proof.Claims

open Sys2Proof Sys2Proof.Machine Sys2Proof.Machine.State

/-- The array instructions: those that enter the matrix unit's queue (11 Table 11.1; 12 R336-R340). -/
def isArray : Instr → Bool
  | .mma .. | .mmaf .. | .mzero .. | .mld .. | .mst .. | .mstAuto .. | .mcvt .. | .mtrn .. | .madd .. | .maddI .. | .mscl .. | .mrow ..
  | .mpoly .. | .miter .. | .mres .. | .mcoef .. | .mcoefS .. | .mls .. | .mlsw .. => true
  | _ => false

/-- A tile that an array instruction of a context may name: its own, or no one's, and not in its spilled image (11 R302). -/
def TileOk (s : State) (core tag m : Nat) : Prop :=
  ((descOf s core m).owner = 0 ∨ (descOf s core m).owner = tag) ∧ (s.tm tag).spillMask.getLsbD m = false

/-- Nothing of a core's unit or teams waits for an entry to leave: no team is to move, and no wave of the core has saved
entries. -/
def Settled (s : State) (core : Nat) : Prop :=
  (∀ e ∈ s.teams, e.2.moveTo = none) ∧ ∀ e ∈ s.waves, e.2.core = core → (s.wv e.1).saved = []

/-- The running phase of the head entry of a core's unit is over, and no other entry has its number. -/
def PhaseOver (s : State) (core : Nat) (e : MxEntry) (es : List MxEntry) : Prop :=
  (s.co core).mx = e :: es ∧ (∀ x ∈ es, x.id ≠ e.id) ∧ ∃ k, e.started = some k ∧ k + e.lenClk ≤ s.clkOf core

/-- FP32 sum and product, rounded once to nearest (03 R69). -/
def addRn (x y : Word) : Word := BitVec.ofNat 32 (fp32.round 0 (fAdd 0 (exactOf fp32 false x.toNat) (exactOf fp32 false y.toNat)).1).1
def mulRn (x y : Word) : Word := BitVec.ofNat 32 (fp32.round 0 (fMul (exactOf fp32 false x.toNat) (exactOf fp32 false y.toNat)).1).1

/-- The accumulation of a product (03 R83, 11 R317): the sum of each group of inner elements is rounded once, and so is its
addition to the element. -/
def accumulate (k : Nat) (a b : Nat → FV) (n : Nat) (d : Word) : Word :=
  (List.range (k / n)).foldl (fun d g =>
    let sum := (exactSum ((List.range n).map (fun j => fMul (a (n * g + j)) (b (n * g + j))))).1
    BitVec.ofNat 32 (fp32.round 0 (fAdd 0 (exactOf fp32 false d.toNat) (exactOf fp32 false (fp32.round 0 sum).1)).1).1) d

/-- The tile that an array phase writes, with its elements (11 R317-R320): of `MMA`, the unscaled formats FP16, BF16 and
DM8; of `MCVT`, the formats that change nothing; of `MLD`, the formats of 32 bits. -/
def tileForm (s : State) (core : Nat) (e : MxEntry) : Option (Nat × (Nat → Nat → Word)) :=
  let x (m : BitVec 3) := tel (tileArr s core m.toNat)
  let lid := s.lidOf e.tid
  let bs := (e.mem.getD []).toArray
  match e.op with
  | .mzero _ d _ => some (d.toNat, fun _ _ => 0)
  | .mtrn _ d t => some (d.toNat, fun i j => x t j i)
  | .madd _ d a b => some (d.toNat, fun i j => addRn (x a i j) (x b i j))
  | .maddI _ d a b => some (d.toNat, fun i j => x a i j + x b i j)
  | .mscl _ d t _ => some (d.toNat, fun i j => mulRn (x t i j) (e.vals.headD 0))
  | .mcvt _ d t slot =>
    if (slotF s lid slot.toNat).fmt = 0 ∨ (slotF s lid slot.toNat).fmt = 5 then some (d.toNat, x t) else none
  | .mld _ d _ _ _ slot _ =>
    let f := slotF s lid slot.toNat
    if f.fmt = 5 ∨ f.fmt = 0 ∧ f.scale = 0 then some (d.toNat, fun i j =>
      BitVec.ofNat 32 (leNat ((List.range 4).map (fun k => bs.getD ((64 * i + j) * 4 + k) 0)))) else none
  | .mma _ d _ _ _ slot _ =>
    let f := slotF s lid slot.toNat
    if f.scale = 0 ∧ 1 ≤ f.fmt ∧ f.fmt ≤ 3 then
      let k := if f.fmt = 3 then 128 else 64
      let w := if f.fmt = 3 then 1 else 2
      let el (o i n : Nat) : FV := elemValue f (leNat ((List.range w).map (fun b => bs.getD (o + 128 * i + w * n + b) 0))) 0
      some (d.toNat, fun i j => accumulate k (el 0 i) (el 8192 j) (if f.fmt = 3 then 32 else 16) (x d i j))
    else none
  | _ => none

/-- The record that `WBEGIN` opens (13 R353, R369). -/
def opened (s : State) (w cls n : Nat) : WRec :=
  let t := s.tm (tagW w)
  { cls := cls, count := n, mal := n == 0, lid := t.lid, team := t.index, widx := widxW w, seq := (s.wv w).seq
    epoch := (s.la t.lid).sealPoints + 1 }

/-- What a witness instruction makes of a wave with an executing lane, and whether it sets WERR (13 R353, R369-R373). -/
def witForm : Instr → Option (Hdr × (State → Nat → Wave) × (State → Nat → Bool))
  | .wbegin h cls cnt => some (h, fun s w =>
      let n := match cnt with | .lit n => n.toNat | .reg n => (s.sreg w n.toNat).toNat % 4096
      { s.wv w with
        held := (s.wv w).held ++ ((s.wv w).openRec.map (fun r => ended s r true)).toList
        openRec := some (opened s w cls.toNat n), seq := (s.wv w).seq + 1 }, fun s w => (s.wv w).openRec.isSome)
  | .wemit h a => some (h, fun s w =>
      { s.wv w with openRec := (s.wv w).openRec.map (fun r => { r with body := r.body ++ [s.rd [] (leader s h w) a] }) },
      fun s w => (s.wv w).openRec.isNone)
  | .qpush h e a => if e = 6 then some (h, fun s w =>
      { s.wv w with openRec := (s.wv w).openRec.map (fun r => { r with body := r.body ++ [s.rd [] (leader s h w) a] }) },
      fun s w => (s.wv w).openRec.isNone) else none
  | .wend h => some (h, fun s w =>
      { s.wv w with
        held := (s.wv w).held ++ ((s.wv w).openRec.map (fun r => ended s r (r.body.length != r.count))).toList, openRec := none },
      fun s w => (s.wv w).openRec.all (fun r => r.body.length != r.count))
  | .wdigAdd h a => some (h, fun s w =>
      { s.wv w with hash := (s.xsW h w).foldl (fun acc x =>
          (acc * Config.scanPoint s.lidF + (s.rd [] x a).toNat) % (2 ^ 61 - 1)) (s.wv w).hash }, fun _ _ => false)
  | .wdigEmit h => some (h, fun s w =>
      { s.wv w with
        hash := 0
        openRec := (s.wv w).openRec.map (fun r => { r with
          body := r.body ++ [BitVec.ofNat 32 (s.wv w).hash, BitVec.ofNat 32 ((s.wv w).hash / 2 ^ 32)] }) },
      fun s w => (s.wv w).openRec.isNone)
  | .wdigClr h => some (h, fun s w => { s.wv w with hash := 0 }, fun _ _ => false)
  | .rlogOn h => some (h, fun s w => { s.wv w with
      logMode := if (s.wv w).logMode = .replay then .replay else .record }, fun _ _ => false)
  | .rlogOff h => some (h, fun s w => { s.wv w with
      logMode := if (s.wv w).logMode = .replay ∨ (s.la (s.tm (tagW w)).lid).stagingOnly = true then (s.wv w).logMode else .off },
      fun _ _ => false)
  | _ => none

end Sys2Proof.Claims

/-- An array instruction of a wave in HOLD, over tiles of its context and operands that can be reached, enters its unit's queue
with what it read at issue (11 R295, R298, R302, R316; 12 R332, R339): its tiles are its context's, the pieces of its operands
are fetched, a result of it is pending. The wave goes on, or waits at `MPOLY` and `MITER`. An illegal slot, no licence and a
foreign tile are the traps 0x01, 0x19 and 0x18, in this order.

It says where these forms complete: `mma`, `mmaf`, `mzero`, `mld`, `mst`, `mstAuto`, `mcvt`, `mtrn`, `madd`, `maddI`, `mscl`,
`mrow`, `mpoly`, `miter`, `mres`, `mcoef`, `mcoefS`, `mls`, `mlsw`. -/
def Obligations.ArrayIssue : Prop :=
  ∀ i s w, isArray i = true →
    (slotIllegal s s.lidF i = true →
      exec i s = .next (s.raise (usesOf i).h (usesOf i).len { code := 0x01, mask := laneMask s.grp, words := s.focus.word })) ∧
    (slotIllegal s s.lidF i = false → Ready (usesOf i) s → s.wavesF = [w] → (s.co s.focus.core).mx.length < 4 →
      ((s.wv w).lic ≠ .hold → ∃ ti, exec i s = .next (s.raise (usesOf i).h (usesOf i).len ti) ∧ ti.code = 0x19) ∧
      ((s.wv w).lic = .hold → (∃ m ∈ tilesNamed s s.lidF i, m < 8 ∧ ¬ TileOk s s.focus.core (tagW w) m) →
        ∃ ti, exec i s = .next (s.raise (usesOf i).h (usesOf i).len ti) ∧ ti.code = 0x18) ∧
      ∀ srcs outs, (s.wv w).lic = .hold → (∀ m ∈ tilesNamed s s.lidF i, TileOk s s.focus.core (tagW w) m) →
        opdPlaces s (w * 32) s.grp .read (readOpds s s.lidF w i) = .ok srcs →
        opdPlaces s (w * 32) s.grp .write (writeOpds s s.lidF w i) = .ok outs →
        (∀ p ∈ srcs ++ outs, s.waitOf p.1 = none) → (∀ p ∈ srcs, s.waitRead (w * 32) p.1 = none ∧ isFar s p.1 = false) →
        s.isPaired (tagW w) = false → (s.tm (tagW w)).heldStores = [] →
        awaitsUnit s w true (srcs.map (fun p => (p.1, p.2.1))) = false → (∀ x ∈ s.grp, s.soBusy x = false) →
        (∀ e ∈ (s.co s.focus.core).mx, e.id < (s.co s.focus.core).nextId) →
        ∃ t e, exec i s = .next t ∧ SameData s t ∧ t.pend = s.pend ∧ Others s t ∧
          t.vres = s.vres ++ (match arrayDst i with
            | some d => [{ core := s.focus.core, id := (s.co s.focus.core).nextId, cls := 2, ready := false
                           writes := (arrayTgts s w d).map (fun g => (g, (0 : Word))) }]
            | none => []) ∧
          (t.co s.focus.core).mx = (s.co s.focus.core).mx ++ [e] ∧ e.op = i ∧ e.wid = w ∧ e.pc = s.focus.pc ∧ e.issued = s.now ∧
          e.started = none ∧ e.srcs = srcs.map (fun p => (p.1, p.2.1)) ∧ e.outs ++ e.scales = outs ∧ e.vals = readVals s w i ∧
          e.mem.isSome = true ∧ (Plain srcs → e.mem = some (bytesAt s s.lidF srcs)) ∧
          (∀ m, descOf t s.focus.core m = { descOf s s.focus.core m with
            owner := if m ∈ tilesNamed s s.lidF i then tagW w else (descOf s s.focus.core m).owner }) ∧
          ∀ x ∈ s.grp, t.th x = if isIter i then { s.th x with park := .iter, lastIssue := s.now }
            else jumped s (usesOf i).h none (s.th x))

/-- The phases of the array (11 R295, R317-R320; 12 R327, R328). The head of a queue starts when its operands are there and the
array is free. When the phase is over the tile is written, every other tile and all memory are as before, and the entry leaves
the queue; an `MST` of FP32 to plain memory stores its rows.

It says where these forms complete: `arrayPhaseStart`, `arrayPhaseEnd`, `pinGrant`. -/
def Obligations.ArrayPhases : Prop :=
  (∀ core s e es, (s.co core).mx = e :: es → (∀ x ∈ e :: es, x.mem.isSome = true) → (∀ x ∈ es, x.id ≠ e.id) → isIter e.op = false →
    e.started = none → (s.co core).mxFree ≤ s.clkOf core → (∀ k ∈ e.lines, k ∈ e.pins) →
    ∃ t, exec (.arrayPhaseStart core) s = .next t ∧ (t.co core).mx = { e with started := some (s.clkOf core) } :: es ∧
      SameData s t ∧ t.threads = s.threads) ∧
  (∀ core s e es d f, PhaseOver s core e es → Settled s core → tileForm s core e = some (d, f) →
    ∃ t, exec (.arrayPhaseEnd core) s = .next t ∧ (t.co core).mx.map MxEntry.id = es.map MxEntry.id ∧
      (∀ i j, i < 64 → j < 64 → tel (tileArr t core d) i j = f i j) ∧
      (∀ c m, m < 8 → (c ≠ core ∨ m ≠ d) → tileArr t c m = tileArr s c m) ∧
      t.mem = s.mem ∧ t.scratch = s.scratch ∧ t.stage = s.stage ∧ t.vregs = s.vregs ∧ t.sregs = s.sregs ∧ t.preds = s.preds ∧ t.threads = s.threads) ∧
  (∀ core s e es h (m : Tile) base c (slot : BitVec 3) rm inf stride, PhaseOver s core e es → Settled s core →
    e.op = .mst h m base c slot rm inf stride → (slotF s (s.lidOf e.tid) slot.toNat).fmt = 0 → (slotF s (s.lidOf e.tid) slot.toNat).scale = 0 →
    Plain e.outs → e.scales = [] → Apart e.outs → (e.outs.map (fun p => p.2.1)).sum = 16384 →
    (∀ p ∈ e.outs, s.waitOf p.1 = none ∧ isFar s p.1 = false) → s.isPaired (tagOf e.tid) = false →
    ∃ t, exec (.arrayPhaseEnd core) s = .next t ∧ OutsideKept s t e.outs ∧ t.tiles = s.tiles ∧ t.vregs = s.vregs ∧
      bytesAt t (s.lidOf e.tid) e.outs = (List.range 64).flatMap (fun i => (List.range 64).flatMap (fun j =>
        leBytes 4 (tel (tileArr s core m.toNat) i j).toNat))) ∧
  (∀ core s e es h (t0 : Tile) row d id, PhaseOver s core e es → Settled s core → e.op = .mrow h d t0 row → e.vres = some id →
    ∀ r ∈ s.vres, r.core = core → r.id = id →
    ∃ t, exec (.arrayPhaseEnd core) s = .next t ∧ t.tiles = s.tiles ∧ t.mem = s.mem ∧ t.vregs = s.vregs ∧
      { r with
        writes := (r.writes.zip ((List.range 32).flatMap (fun l =>
          [tel (tileArr s core t0.toNat) ((e.vals.headD 0).toNat % 64) (2 * l),
           tel (tileArr s core t0.toNat) ((e.vals.headD 0).toNat % 64) (2 * l + 1)]))).map (fun x => (x.1.1, x.2))
        ready := true, after := e.issued + 12 } ∈ t.vres) ∧
  (∀ core s e es, PhaseOver s core e es → Settled s core →
    (∀ h n a, e.op = .mcoefS h n a → ∃ t, exec (.arrayPhaseEnd core) s = .next t ∧
      (t.tm (tagW e.wid)).coefs = (s.tm (tagW e.wid)).coefs.set n.toNat (e.vals.headD 0)) ∧
    (∀ h a, e.op = .mlsw h a → ∃ t, exec (.arrayPhaseEnd core) s = .next t ∧
      (t.tm (tagW e.wid)).loop = loopWritten (BitVec.ofNat 128 (wordsNat e.vals)) ∧ (t.tm (tagW e.wid)).loopWave = some e.wid)) ∧
  ∀ slice (s : State) q e, s.msys.pinq.find? (fun q => q.1 == slice) = some q →
    (s.co q.2.1).mx.find? (fun x => x.id == q.2.2) = some e →
    (pinFits s slice (wantIn s e slice) = false → exec (.pinGrant slice) s = .next s) ∧
    (pinFits s slice (wantIn s e slice) = true → ∃ t e', exec (.pinGrant slice) s = .next t ∧
      (t.co q.2.1).mx.find? (fun x => x.id == q.2.2) = some e' ∧ (∀ k ∈ wantIn s e slice ++ e.pins, k ∈ e'.pins) ∧ SameData s t ∧
      t.threads = s.threads)

/-- The steps of an iteration (12 R331-R333): a fresh start puts the loop state in RUN with COUNT 0; the initial phase of `MPOLY`
puts its leading coefficient on the diagonal of D, and the next step starts; an `MITER` whose residual is at the bound after
its initial phase ends PASSED, with 1 in its predicate, and the wave goes on behind it.

It says where these forms complete: `iterationStepEnd`. -/
def Obligations.IterationSteps : Prop :=
  (∀ core s e es j, (s.co core).mx = e :: es → (∀ x ∈ e :: es, x.mem.isSome = true) → (∀ x ∈ es, x.id ≠ e.id) → jobOf e = some j →
    resumes s e.wid j = false → e.started = none → (s.co core).mxFree ≤ s.clkOf core → (∀ k ∈ e.lines, k ∈ e.pins) →
    ∃ t, exec (.arrayPhaseStart core) s = .next t ∧
      (t.co core).mx = { e with started := some (s.clkOf core), ran := false } :: es ∧ SameData s t ∧ t.threads = s.threads ∧
      (loopOf t e.wid).phase = 1 ∧ (loopOf t e.wid).count = 0 ∧ (loopOf t e.wid).sel = false ∧
      (t.tm (tagW e.wid)).loopWave = some e.wid) ∧
  (∀ core s e es k h (d x : Tile) n slot, (s.co core).mx = e :: es → (∀ y ∈ es, y.id ≠ e.id) → e.op = .mpoly h d x n slot → e.ran = false →
    e.started = some k → k + e.lenClk ≤ s.clkOf core → (loopOf s e.wid).count < (loopOf s e.wid).limit → (s.wv e.wid).lic = .hold →
    e.stop = false → (∀ y ∈ tidsOf e.wid, (s.th y).faults = [] ∧ (s.th y).pendTrap = none) →
    ∃ t, exec (.iterationStepEnd core) s = .next t ∧
      (∀ i j, i < 64 → j < 64 → tel (tileArr t core d.toNat) i j = if i = j then (s.tm (tagW e.wid)).coefs.getD n.toNat 0 else 0) ∧
      (∀ c m, m < 8 → (c ≠ core ∨ m ≠ d.toNat) → tileArr t c m = tileArr s c m) ∧
      (t.co core).mx = { e with started := some (k + e.lenClk), lenClk := 288, ran := true } :: es ∧
      t.mem = s.mem ∧ t.vregs = s.vregs ∧ t.threads = s.threads) ∧
  ∀ core s e es k h (kind : BitVec 2) (x w : Tile) lim pd slot wide pf, (s.co core).mx = e :: es → (∀ y ∈ es, y.id ≠ e.id) → Settled s core →
    e.op = .miter h kind x w lim pd slot wide pf → e.ran = false → e.started = some k → k + e.lenClk ≤ s.clkOf core →
    (loopOf s e.wid).sel = false → pd ≠ 0 →
    let g := iterTiles kind.toNat x.toNat w.toNat wide
    let ts := iterInit kind.toNat (slotF s (s.lidOf e.tid) slot.toNat).fmt g.x w.toNat
      ((g.x ++ (w.toNat :: g.work)).dedup.map (fun m => (m, tileArr s core m)))
    let r := resid (ts.at g.res)
    notFinite r = false → leF r ((s.tm (tagW e.wid)).coefs.getD 15 0) = true →
    ∃ t, exec (.iterationStepEnd core) s = .next t ∧ (loopOf t e.wid).phase = 3 ∧ (loopOf t e.wid).resid = r ∧ t.mem = s.mem ∧
      t.vregs = s.vregs ∧ t.sregs = s.sregs ∧ (t.co core).mx.map MxEntry.id = es.map MxEntry.id ∧ (∀ y ∈ tidsOf e.wid, t.pred y pd = true) ∧
      ∀ y, t.th y = if y ∈ tidsOf e.wid ∧ (s.th y).park = .iter then
          { s.th y with park := .none, pc := ((s.th y).pc + e.len) % 2 ^ 52, readyAt := max (s.th y).readyAt (k + e.lenClk), inTable := false }
        else s.th y

/-- The fillers of a pair do not run, or no power log is kept that would note their end (17 R451). -/
def Sys2Proof.Claims.LogQuiet (s : State) (p : Nat) : Prop :=
  (s.tp p).fillers = none ∨ s.power.plogK < 6 ∨ 16 < s.power.plogK

/-- The licence (11 R307, R308, R322, R323; Table 11.4): with no executing lane these instructions do nothing; `MSYNC` passes a wave
without matrix entries; a wave in HOLD has what it asks for; on a FREE pair the wave waits and its side wakes; on its own
side's HELD pair it is granted at once; `MLIC.try` on the other side's, or while it drains, writes 0; the last wave that leaves drains the
pair. WAKE ends in HELD for every wave that waits; of a side that the pair is steered away from while the other waits that grant is revoked
at once, so its waves wait on and the pair drains (17 R456). DRAIN ends at the other side after a `MLIC.give`, else at the side that waits,
and of two at the one steered to, or the cooler by the latest sample.

It says where these forms complete: `msync`, `mlicAcq`, `mlicTry`, `mlicRel`, `mlicGive`, `licenceWakeEnd`, `licenceDrainEnd`. -/
def Obligations.Licences : Prop :=
  (∀ i h s, (i = .msync h ∨ i = .mlicAcq h ∨ (∃ pd, i = .mlicTry h pd) ∨ i = .mlicRel h ∨ i = .mlicGive h ∨ i = .twinOff h ∨
      (∃ k b, i = .twin h k b) ∨ ∃ d, i = .stgseal h d) → Ready (usesOf i) s → s.wavesX h = [] →
    ∃ t, exec i s = .next t ∧ Still s t ∧ Moves h h.len.bytes s t) ∧
  (∀ h s w ws, Ready (usesOf (.msync h)) s → s.wavesX h = w :: ws → hasEntries s w = false →
    ∃ t, exec (.msync h) s = .next t ∧ Still s t ∧ Moves h h.len.bytes s t) ∧
  (∀ h s w ws, Ready (usesOf (.mlicAcq h)) s → s.wavesX h = w :: ws → (s.wv w).lic = .hold →
    ∃ t, exec (.mlicAcq h) s = .next t ∧ Still s t ∧ Moves h h.len.bytes s t) ∧
  (∀ h pd s w ws (b : Word), Ready (usesOf (.mlicTry h pd)) s → s.wavesX h = w :: ws →
    ((s.wv w).lic = .hold ∧ b = 1 ∨ (s.wv w).lic ≠ .hold ∧ b = 0 ∧
      ((s.tp (pairOf s.focus.core)).arb = .held (!isUpper s.focus.core) ∨ ∃ x, (s.tp (pairOf s.focus.core)).arb = .drain x)) →
    ∃ t, exec (.mlicTry h pd) s = .next t ∧ Kept s t ∧ Moves h h.len.bytes s t ∧ t.vres = s.vres ∧
      t.pend = s.pend ++ if pd = 0 then [] else dueIn 2 ((s.xsW h w).map (fun x => (Tgt.p x pd.toNat, b))) s) ∧
  (∀ i h s w ws, (i = .mlicAcq h ∨ ∃ pd, i = .mlicTry h pd) → Ready (usesOf i) s → s.wavesX h = w :: ws → (s.wv w).lic ≠ .hold →
    (s.wv w).core = s.focus.core → (s.tp (pairOf s.focus.core)).arb = .free → LogQuiet s (pairOf s.focus.core) →
    ∃ t, exec i s = .next t ∧ SameData s t ∧ t.pend = s.pend ∧ t.vres = s.vres ∧ Others s t ∧ (t.wv w).lic = .wait ∧
      (t.tp (pairOf s.focus.core)).arb = .wake (isUpper s.focus.core) (s.clkOf (sideCore (pairOf s.focus.core) (isUpper s.focus.core))) ∧
      ∀ x ∈ s.grp, t.th x = { jumped s h none (s.th x) with park := .licence }) ∧
  (∀ h s w ws, Ready (usesOf (.mlicAcq h)) s → s.wavesX h = w :: ws → (s.wv w).lic ≠ .hold → (s.wv w).core = s.focus.core →
    (s.tp (pairOf s.focus.core)).arb = .held (isUpper s.focus.core) → s.sideWaits (pairOf s.focus.core) (!isUpper s.focus.core) = false →
    (∀ e ∈ s.waves, e.2.core = s.focus.core → (s.wv e.1).saved = []) → (s.wv w).licPd = none → (∀ x ∈ s.grp, widOf x = w) → (∀ x ∈ tidsOf w, (s.th x).park = .none) →
    ∃ t, exec (.mlicAcq h) s = .next t ∧ SameData s t ∧ t.pend = s.pend ∧ t.vres = s.vres ∧ Moves h h.len.bytes s t ∧ (t.wv w).lic = .hold) ∧
  (∀ i h give s w ws, (i = .mlicRel h ∧ give = false ∨ i = .mlicGive h ∧ give = true) → Ready (usesOf i) s → s.wavesX h = w :: ws →
    (s.wv w).lic = .hold → hasEntries s w = false → (s.wv w).core = s.focus.core → AMap.sorted s.waves = true →
    (s.tp (pairOf s.focus.core)).arb = .held (isUpper s.focus.core) → LogQuiet s (pairOf s.focus.core) →
    ∃ t, exec i s = .next t ∧ SameData s t ∧ t.pend = s.pend ∧ t.vres = s.vres ∧ Moves h h.len.bytes s t ∧ (t.wv w).lic = .none ∧
      ((∀ v ∈ s.licWaves s.focus.core .hold, v = w) → (t.tp (pairOf s.focus.core)).arb = .drain (isUpper s.focus.core) ∧
        (t.tp (pairOf s.focus.core)).byGive = give) ∧
      ∀ v ∈ s.licWaves s.focus.core .hold, v ≠ w → (t.tp (pairOf s.focus.core)).arb = .held (isUpper s.focus.core)) ∧
  (∀ p s x k, (s.tp p).arb = .wake x k → k + 64 ≤ s.clkOf (sideCore p x) → pairOf p = p → LogQuiet s p →
    (((s.tp p).steered ≠ some (!x) ∨ s.sideWaits p (!x) = false) →
      ∃ t, exec (.licenceWakeEnd p) s = .next t ∧ t.mem = s.mem ∧ t.vregs = s.vregs ∧
        ∀ w ∈ s.licWaves (sideCore p x) .wait, (t.wv w).lic = .hold ∧ ∀ y ∈ tidsOf w, (t.th y).park ≠ .licence) ∧
    ((s.tp p).steered = some (!x) → s.sideWaits p (!x) = true → AMap.sorted s.waves = true →
      ∃ t, exec (.licenceWakeEnd p) s = .next t ∧ t.mem = s.mem ∧ t.vregs = s.vregs ∧ (t.tp p).arb = .drain x ∧ (t.tp p).byGive = false ∧
        ∀ w ∈ s.licWaves (sideCore p x) .wait, (t.wv w).lic = .wait ∧ ∀ y ∈ tidsOf w, (t.th y).park ≠ .licence)) ∧
  ∀ p s x, (s.tp p).arb = .drain x → (s.co (sideCore p x)).mx = [] → (s.co (sideCore p x)).mxFree ≤ s.clkOf (sideCore p x) →
    LogQuiet s p →
    ∃ t, exec (.licenceDrainEnd p) s = .next t ∧ SameData s t ∧ t.threads = s.threads ∧ t.waves = s.waves ∧
      ((s.sideWaits p x = false ∧ s.sideWaits p (!x) = false) → (t.tp p).arb = .free) ∧
      ((s.sideWaits p x = false ∧ s.sideWaits p (!x) = true) → (t.tp p).arb = .wake (!x) (s.clkOf (sideCore p (!x)))) ∧
      ((s.sideWaits p x = true ∧ s.sideWaits p (!x) = false) → (t.tp p).arb = .wake x (s.clkOf (sideCore p x))) ∧
      ((s.sideWaits p x = true ∧ s.sideWaits p (!x) = true ∧ (s.tp p).byGive = true) →
        (t.tp p).arb = .wake (!x) (s.clkOf (sideCore p (!x)))) ∧
      ((s.sideWaits p x = true ∧ s.sideWaits p (!x) = true ∧ (s.tp p).byGive = false) →
        let u := match (s.tp p).steered with
          | some u => u
          | none => (s.tp p).sampled && decide ((s.tp p).upperT < (s.tp p).lowerT)
        (t.tp p).arb = .wake u (s.clkOf (sideCore p u)))

/-- The twin window (11 R311-R313, R324, R325): `TWIN` maps the wave in the named slot of the twin core, from 2 clk on, or is the
trap 0x1A with the slot and the lanes that executed; `TWIN.off` ends the mapping; `TXCH` exchanges a register with the twin's in both
directions, both read at issue and both written 2 clk later.

It says where these forms complete: `twin`, `twinOff`, `txch`. -/
def Obligations.TwinWindow : Prop :=
  (∀ h slot (b : BitVec 8) s w ws, let k := (match slot with | .lit n => n.toNat | .reg n => (s.sreg w n.toNat).toNat % 32)
    Ready (usesOf (.twin h slot b)) s → s.wavesX h = w :: ws →
    (∀ v, (s.co (twinOf s.focus.core)).slots.find? k = some v → (s.tm (tagW v)).lid = s.lidF →
      ∃ t, exec (.twin h slot b) s = .next t ∧ Kept s { t with waves := s.waves } ∧ Moves h h.len.bytes s t ∧ t.pend = s.pend ∧ t.vres = s.vres ∧
        ∀ x, t.wv x = { s.wv x with
          timer := (t.wv x).timer, timerOn := (t.wv x).timerOn, timerRun := (t.wv x).timerRun, pairGo := (t.wv x).pairGo
          twinNext := if x = w then some (s.now + 2,
              { lid := s.lidF, team := (s.tm (tagW v)).index, widx := widxW v, tag := tagW v, base := b.toNat })
            else (s.wv x).twinNext }) ∧
    ((∀ v, (s.co (twinOf s.focus.core)).slots.find? k = some v → (s.tm (tagW v)).lid ≠ s.lidF) →
      exec (.twin h slot b) s = .next (s.raise h h.len.bytes {
        code := 0x1A, sub := 1, mask := laneMask (s.xsW h w)
        words := [BitVec.ofNat 32 s.focus.pc, BitVec.ofNat 32 k, 1] ++ (match (s.wv w).twin with
          | some m => [BitVec.ofNat 32 m.lid, BitVec.ofNat 32 m.team, BitVec.ofNat 32 m.widx]
          | none => []) }))) ∧
  (∀ h s w ws, Ready (usesOf (.twinOff h)) s → s.wavesX h = w :: ws →
    ∃ t, exec (.twinOff h) s = .next t ∧ Kept s { t with waves := s.waves } ∧ Moves h h.len.bytes s t ∧ t.pend = s.pend ∧ t.vres = s.vres ∧
      ∀ x, t.wv x = { s.wv x with
        timer := (t.wv x).timer, timerOn := (t.wv x).timerOn, timerRun := (t.wv x).timerRun, pairGo := (t.wv x).pairGo
        twin := if x = w then none else (s.wv x).twin, twinNext := if x = w then none else (s.wv x).twinNext }) ∧
  ∀ h (d : BitVec 8) (y : BitVec 5) pat s (m : Nat → TwinMap), Ready (usesOf (.txch h d y pat)) s →
    (∀ x ∈ s.xs h, (s.wv (widOf x)).twin = some (m x) ∧ patLane pat (laneOf x) < 32) →
    let far (x : Nat) : Nat := ((m x).tag * 32 + (m x).widx) * 32 + patLane pat (laneOf x)
    ∃ t, exec (.txch h d y pat) s = .next t ∧ Kept s t ∧ Moves h h.len.bytes s t ∧ t.vres = s.vres ∧
      t.pend = s.pend ++ dueIn 2 ((s.xs h).flatMap (fun x =>
        [(Tgt.v x d.toNat, s.vreg (far x) ((m x).base + y.toNat)), (Tgt.v (far x) ((m x).base + y.toNat), s.vreg x d.toNat)])) s

/-- The witness instructions (13 R353, R369-R373), wave by wave: records are opened, filled and ended with their numbers, digests
hashed, emitted and cleared, the random log switched; a word without a record, a record that ends with another count, and one
that is still open at `WBEGIN` set WERR. `WEND.r` also delivers the receipt.

It says where these forms complete: `wbegin`, `wemit`, `wend`, `wendR`, `wdigAdd`, `wdigEmit`, `wdigClr`, `rlogOn`, `rlogOff`. -/
def Obligations.Records : Prop :=
  (∀ i h f werr s, witForm i = some (h, f, werr) → Ready (usesOf i) s →
    ∃ t, exec i s = .next t ∧ Kept s { t with waves := s.waves, teams := s.teams } ∧ Moves h h.len.bytes s t ∧ t.pend = s.pend ∧ t.vres = s.vres ∧
      (∀ w, t.wv w = { (if w ∈ s.wavesX h then f s w else s.wv w) with
        timer := (t.wv w).timer, timerOn := (t.wv w).timerOn, timerRun := (t.wv w).timerRun, pairGo := (t.wv w).pairGo }) ∧
      ∀ g, t.tm g = { s.tm g with
        interval := if ∃ w ∈ s.wavesX h, tagW w = g ∧ werr s w = true then (s.tm g).interval ||| 4 else (s.tm g).interval
        shadow := if ∃ w ∈ s.wavesX h, tagW w = g ∧ werr s w = true then (s.tm g).shadow ||| 4 else (s.tm g).shadow }) ∧
  ∀ h s, Ready (usesOf (.wendR h)) s → (∀ w ∈ s.wavesX h, ((s.wv w).er.getD 6 []).length < 16) →
    ∃ t, exec (.wendR h) s = .next t ∧ Kept s { t with waves := s.waves, teams := s.teams } ∧ Moves h h.len.bytes s t ∧ t.pend = s.pend ∧
      t.vres = s.vres ∧ ∀ w, t.wv w = { s.wv w with
        timer := (t.wv w).timer, timerOn := (t.wv w).timerOn, timerRun := (t.wv w).timerRun, pairGo := (t.wv w).pairGo
        held := if w ∈ s.wavesX h then
            (s.wv w).held ++ ((s.wv w).openRec.map (fun r => ended s r (r.body.length != r.count))).toList else (s.wv w).held
        openRec := if w ∈ s.wavesX h then none else (s.wv w).openRec
        er := if w ∈ s.wavesX h then (s.wv w).er.set 6 ((s.wv w).er.getD 6 [] ++ [match (s.wv w).openRec with
            | some r => BitVec.ofNat 32 ((if r.mal || r.body.length != r.count then 2 ^ 31 else 0) + r.seq % 2 ^ 27)
            | none => BitVec.ofNat 32 (2 ^ 31 + (s.wv w).seq % 2 ^ 27)])
          else (s.wv w).er }

/-- The check-interval register, seal points, release requests and version states (13 R349, R366, R371, R374, R375).

It says where these forms complete: `stgseal`, `chkerr`, `chkerrClr`, `relreq`, `vstat`. -/
def Obligations.CheckRegisters : Prop :=
  (∀ i h d clr s, (i = .chkerr h d ∧ clr = false ∨ i = .chkerrClr h d ∧ clr = true) → Ready (usesOf i) s →
    ∃ t, exec i s = .next t ∧ Kept s { t with cores := s.cores, teams := s.teams } ∧ PortCores s t ∧ Moves h h.len.bytes s t ∧ t.pend = s.pend ∧
      OneResult s t 3 (s.dstWrites d ((s.xs h).map (fun x => (x, [(s.tm (tagOf x)).interval.setWidth 32])))) ∧
      ∀ g, t.tm g = { s.tm g with
        interval := if clr = true ∧ g ∈ (s.xs h).map tagOf then 0 else (s.tm g).interval }) ∧
  (∀ h d s w ws, Ready (usesOf (.stgseal h d)) s → s.wavesX h = w :: ws → s.launchF.isChecked = true →
    ∃ t, exec (.stgseal h d) s = .next t ∧ Kept s { t with waves := s.waves } ∧ t.pend = s.pend ∧ t.vres = s.vres ∧ Others s t ∧
      (t.wv w).sealCount = (s.wv w).sealCount + 1 ∧ (t.wv w).sealReg = d ∧
      ∀ x ∈ s.grp, t.th x = { jumped s h none (s.th x) with park := .seal ((s.wv w).sealCount + 1) }) ∧
  (∀ h d s w ws, Ready (usesOf (.stgseal h d)) s → s.wavesX h = w :: ws → s.launchF.isChecked = false → s.launchF.paired = false →
    s.grp = (tidsOf w).filter (fun x => (s.th x).live) →
    ∃ t, exec (.stgseal h d) s = .next t ∧ Kept s { t with waves := s.waves, launches := s.launches } ∧ t.pend = s.pend ∧ t.vres = s.vres ∧
      Others s t ∧ (t.wv w).rgncnt = (s.wv w).rgncnt + 1 ∧ (t.wv w).sealCount = (s.wv w).sealCount ∧
      ∀ x ∈ s.grp, t.th x = { jumped s h none (s.th x) with
        rpc := (s.focus.pc + h.len.bytes) % 2 ^ 52, rcount := (s.wv w).rgncnt + 1, rdepth := (s.th x).spilled + (s.th x).stack.length
        rvalid := true }) ∧
  (∀ h d m c s x p pages, Ready (usesOf (.relreq h d m c)) s → s.accessors (usesOf (.relreq h d m c)) = [x] →
    s.placeFor x m.qual.toNat (s.effAddr x m).toNat .read = .ok p → p.xlated = true →
    (∀ r ∈ s.vres, r.id < (s.co s.focus.core).nextId) →
    ((s.rd [] x c).toNat = 0 → ∃ t, exec (.relreq h d m c) s = .next t ∧ Moves h h.len.bytes s t ∧ SameData s t ∧
      t.checker.releases = s.checker.releases ∧
      t.vres.map VRes.writes = s.vres.map VRes.writes ++ [(s.laneTgts [x] (some (d, 1)) x).map (fun g => (g, (0 : Word)))]) ∧
    ((s.rd [] x c).toNat ≠ 0 →
      readPages s (s.coreOf x) (s.lidOf x) (2 ^ 16 + 2) (s.effAddr x m).toNat (min ((s.effAddr x m).toNat + (s.rd [] x c).toNat) (2 ^ 52)) = .ok pages →
      (∃ q ∈ pages, q.2 = true) → (∀ q ∈ pages, q.2 = true → ∀ v ∈ (s.pageOf q.1).versions, ¬ (v.st = .writing ∧ v.lid = s.lidOf x)) →
      ∃ t r, exec (.relreq h d m c) s = .next t ∧ Moves h h.len.bytes s t ∧ SameData s t ∧ t.checker.releases = s.checker.releases ++ [r] ∧
        r.pages = (pages.filter Prod.snd).map Prod.fst ∧ r.done = 0 ∧ r.vres = some (s.focus.core, (s.co s.focus.core).nextId) ∧
        r.code = if ∃ q ∈ pages, q.2 = false then 1 else 0)) ∧
  ∀ h d m s (loc : Nat → Loc), Ready (usesOf (.vstat h d m)) s →
    (∀ x ∈ s.accessors (usesOf (.vstat h d m)), ∃ p, s.placeFor x m.qual.toNat (s.effAddr x m).toNat .read = .ok p ∧ p.loc = loc x) →
    ∃ t, exec (.vstat h d m) s = .next t ∧ AccessKept s t ∧ Moves h h.len.bytes s t ∧ t.pend = s.pend ∧
      OneResult s t 3 ((s.accessors (usesOf (.vstat h d m))).flatMap (fun x =>
        (s.laneTgts (s.accessors (usesOf (.vstat h d m))) (some (d, 1)) x).zip [match loc x with
          | .stg page _ => (((s.pageOf page).versions.getLast?).map (fun v =>
              BitVec.ofNat 32 (stateCode v.st * 2 ^ 16 + v.num % 2 ^ 16))).getD 0
          | _ => 0]))

/-! ## Statements: the steps that no word encodes -/

namespace Sys2Proof.Claims

open Sys2Proof Sys2Proof.Machine Sys2Proof.Machine.State

/-- No team is to move. -/
def NoMoves (s : State) : Prop := ∀ e ∈ s.teams, e.2.moveTo = none

/-- An engine reads `n` bytes of a command at an address: it lies in this package's memory or in a scratchpad, and nothing makes
the read wait (10 R266; 09 R243). -/
def ReadsAt (s : State) (c : Cmd) (a : Nat) (l : Loc) : Prop :=
  (∃ p, engPlace s c a .read = .ok p ∧ p.loc = l) ∧ engWaits s c l = false ∧ match l with
    | .mem pa => pa / 2 ^ 40 = s.pkg
    | .scr _ _ => True
    | _ => False

/-- An engine may write at an address. -/
def WritesAt (s : State) (c : Cmd) (a : Nat) (l : Loc) : Prop :=
  (∃ p, engPlace s c a .write = .ok p ∧ p.loc = l) ∧ match l with
    | .mem pa => pa / 2 ^ 40 = s.pkg ∧ s.waitOf l = none
    | .scr _ _ => True
    | _ => False

/-- A core's private cache has dropped the lines that an acquire drops (09 R245). -/
def acquired (c : Core) : Core := { c with l1 := c.l1.filter (fun e => 2 ^ 45 ≤ e.1) }

/-- What a moving operation does (10 R267, R268): its queue and number, whether it is aligned, its elements with their size,
and of each the address of its index, its source and its destination; a fill has its pattern instead of a source. -/
structure MoveForm where
  q : Nat
  op : Nat
  aligned : Prop
  n : Nat
  size : Nat
  index : Option (Nat → Nat)
  src : (Nat → Nat) → Nat → Option Nat
  dst : (Nat → Nat) → Nat → Nat
  pattern : List Byte

def moveOf (i : Instr) (ws : List Word) : Option MoveForm :=
  let w (k : Nat) : Nat := bodyW ws k
  let a (k : Nat) : Nat := bodyA ws k
  match i with
  | .engineCopy _ _ => some ⟨0, 1, w 0 % 4 = 0 ∧ w 2 % 4 = 0 ∧ w 4 % 4 = 0, w 4 / 4, 4, none, fun _ k => some (a 0 + 4 * k), fun _ k => a 2 + 4 * k, []⟩
  | .engineFill _ _ => some ⟨0, 2, w 1 % 4 = 0 ∧ w 3 % 4 = 0, w 3 / 4, 4, none, fun _ _ => none, fun _ k => a 1 + 4 * k, leBytes 4 (w 0)⟩
  | .engineCopy2d _ _ => some ⟨0, 3, w 0 % 4 = 0 ∧ w 2 % 4 = 0 ∧ w 4 % 4 = 0 ∧ w 6 % 4 = 0 ∧ w 7 % 4 = 0, w 4 / 4 * w 5, 4, none,
      fun _ k => some (a 0 + k / (w 4 / 4) * w 6 + 4 * (k % (w 4 / 4))), fun _ k => a 2 + k / (w 4 / 4) * w 7 + 4 * (k % (w 4 / 4)), []⟩
  | .engineGather _ _ => some ⟨1, 1, a 0 % w 7 = 0 ∧ a 2 % 4 = 0 ∧ a 4 % w 7 = 0, w 6, w 7, some (fun k => a 2 + 4 * k),
      fun j k => some (a 0 + j k * w 7), fun _ k => a 4 + k * w 7, []⟩
  | .engineScatter _ _ => some ⟨1, 2, a 0 % w 7 = 0 ∧ a 2 % 4 = 0 ∧ a 4 % w 7 = 0, w 6, w 7, some (fun k => a 2 + 4 * k),
      fun _ k => some (a 0 + k * w 7), fun j k => a 4 + j k * w 7, []⟩
  | _ => none

end Sys2Proof.Claims

/-- The steps of single threads, waves and cores, each under conditions on the state alone. A hit monitor ends an `MWAIT` with 1
in its predicate; at the limit the predicate form writes 0 and goes on, the other form takes trap 0x0A (04 R117). A result
that is there commits, and only its own registers change (02 R47). A register line that comes back sends on the threads that
waited for it (08 R191, 14 R394). A barrier's release and a barrier object's wake send on the threads whose episode or count
it is, with an acquire (10 R277, R280, 09 R245). A wave whose threads have all ended leaves its slot and gives its registers
back, its team going on with another wave (04 R111). A regroup boundary, every 4 clk of its core, forms groups of live threads
of one PC in lanes of their own (04 R88). A wave's timer above its launch's bound is trap 0x08 of its live threads (04 R96). A
scoreboard mismatch is counted, and what its core has not committed commits as much later as the reissue takes (04 R105). A
noise source that fails its test is marked (06 R168).

It says where these forms complete: `waveSlotFree`, `mwaitWake`, `mwaitLimit`, `variableResultCommit`, `barrierRelease`,
`bbwaitWake`, `twinLineRefilled`, `regroupBoundary`, `convergenceTimeout`, `registerLineRefill`, `noiseHealthFail`,
`scoreboardMismatch`. -/
def Obligations.ThreadEvents : Prop :=
  (∀ tag wave lane s lim pd n, let x := tidAt tag wave lane
    (s.th x).park = .mwait lim pd n → (s.th x).live = true → (s.tm tag).running = true →
    ((s.th x).hit = true → (s.th x).late = false → ∃ t, exec (.mwaitWake tag wave lane) s = .next t ∧ t = { s with threads := t.threads, preds := t.preds } ∧
      (∀ y, t.th y = if y = x then { s.th x with park := .none, hit := false } else s.th y) ∧
      ∀ y k, t.pred y k = if y = x ∧ pd = some k then true else s.pred y k) ∧
    ((s.th x).hit = false ∨ (s.th x).late = true → lim ≤ s.clkOf (s.coreOf x) → (s.tm tag).stopAt = none →
      (∀ p, pd = some p → ∃ t, exec (.mwaitLimit tag wave lane) s = .next t ∧ t = { s with threads := t.threads, preds := t.preds } ∧
        (∀ y, t.th y = if y = x then { s.th x with park := .none, late := false } else s.th y) ∧
        ∀ y k, k ≠ 0 → t.pred y k = if y = x ∧ k = p then false else s.pred y k) ∧
      (pd = none → ∃ ti, exec (.mwaitLimit tag wave lane) s =
          .next (trapAlone (s.modThread x (fun y => { y with late := false })) x ti (((s.th x).pc + 2 ^ 52 - 8) % 2 ^ 52) (s.th x).pc none) ∧
        ti.code = 0x0A ∧ ti.ad = BitVec.ofNat 64 (s.th x).monAddr ∧ ti.info = BitVec.ofNat 32 n))) ∧
  (∀ core id s r, s.vres.find? (fun r => r.core == core && r.id == id && r.ready && decide (r.after ≤ s.clkOf core)) = some r →
    (r.writes.map Prod.fst).Nodup →
    (∀ w ∈ r.writes, match w.1 with | .v _ n => n < 256 | .s _ n => n < 64 | .p _ n => 0 < n ∧ n < 16 | .sr _ _ | .u _ _ => False) →
    ∃ t, exec (.variableResultCommit core id) s = .next t ∧ t.mem = s.mem ∧ t.pend = s.pend ∧
      t.vres = s.vres.filter (fun r => !(r.core == core && r.id == id)) ∧
      (∀ w ∈ r.writes, match w.1 with
        | .v x n => t.vreg x n = w.2
        | .s v n => t.sreg v n = w.2
        | .p x n => t.pred x (BitVec.ofNat 4 n) = (w.2 != 0)
        | .sr _ _ | .u _ _ => True) ∧
      (∀ x n, n < 256 → Tgt.v x n ∉ r.writes.map Prod.fst → t.vreg x n = s.vreg x n) ∧
      ∀ x m, (s.th x).park = .waitsb m → (t.th x).park = if waitsClasses t x m then .waitsb m else .none) ∧
  (∀ tag wave reg s i, (i = .registerLineRefill tag wave reg ∧ (s.tm tag).running = true ∧ reg ∈ (s.wv (widAt tag wave)).evicted ∨
      i = .twinLineRefilled tag wave reg ∧ ((s.tm tag).running = true ∨ (s.wv (widAt tag wave)).ended = true ∨ (s.tm tag).fin = true)) →
    s.held = [] → AMap.sorted s.threads = true →
    ∃ t, exec i s = .next t ∧ t = { s with threads := t.threads, waves := t.waves } ∧
      (∀ w, t.wv w = if w = widAt tag wave then { s.wv w with evicted := (s.wv w).evicted.filter (fun r => r != reg) } else s.wv w) ∧
      ∀ x, t.th x = if (s.th x).park = .refill (widAt tag wave) reg then { s.th x with park := .none } else s.th x) ∧
  (∀ lid rt s,
    let frees (x : Nat) : Prop := ∃ m due, (s.th x).park = .barrier lid rt m (some due) ∧ due ≤ s.clkOf (s.coreOf x)
    ∃ t, exec (.barrierRelease lid rt) s = .next t ∧ t = { s with threads := t.threads, cores := t.cores } ∧
      (∀ x, (frees x → t.th x = { s.th x with park := .none }) ∧ (¬ frees x → t.th x = s.th x)) ∧
      ∀ c, ((∃ x, frees x ∧ s.coreOf x = c) → t.co c = acquired (s.co c)) ∧ ((∀ x, frees x → s.coreOf x ≠ c) → t.co c = s.co c)) ∧
  (∀ addr s, ∃ t, exec (.bbwaitWake addr) s = .next t ∧ t = { s with threads := t.threads, preds := t.preds, cores := t.cores } ∧
    (∀ x l pd n z, (s.th x).park = .bbwait l pd n (some z) → l.num = addr → (s.tm (tagOf x)).running = true →
      t.th x = behindIt n (s.th x) ∧ t.co (s.coreOf x) = acquired (s.co (s.coreOf x)) ∧ ∀ p, pd = some p → p ≠ 0 → t.pred x p = z) ∧
    (∀ c, t.co c = s.co c ∨ t.co c = acquired (s.co c)) ∧
    ∀ x, (∀ l pd n z, (s.th x).park ≠ .bbwait l pd n (some z)) → t.th x = s.th x) ∧
  (∀ core slot s w, (s.co core).slots.find? slot = some w → s.liveTids w = [] → waveBusy s w = false → s.isPaired (tagW w) = false →
    (s.wv w).lic ≠ .hold → (s.wv w).resident = true → (s.wv w).core = core → (s.wv w).slot = slot →
    (∃ v ∈ s.teamWids (tagW w), v ≠ w ∧ (s.wv v).ended = false) →
    ∃ t, exec (.waveSlotFree core slot) s = .next t ∧ SameData s t ∧ t.threads = s.threads ∧ (t.wv w).ended = true ∧
      (t.wv w).resident = false ∧ (t.co core).slots.find? slot = none ∧ (t.co core).free = (s.co core).free + (s.wv w).regs ∧
      ∀ v, v ≠ w → t.wv v = s.wv v) ∧
  (∀ core s, (s.coreStops core = true → exec (.regroupBoundary core) s = .next s) ∧
    (s.coreStops core = false → (s.co core).claims = [] → ∃ t, exec (.regroupBoundary core) s = .next t ∧
      t.clkOf core = (s.clkOf core + 4) / 4 * 4 ∧ t.mem = s.mem ∧ t.scratch = s.scratch ∧ t.stage = s.stage ∧
      ∀ g ∈ (t.co core).groups, (∀ o ∈ (s.co core).groups, o.pc ≠ g.pc) →
        (g.members.map laneOf).Nodup ∧ ∀ x ∈ g.members, (t.th x).pc = g.pc ∧ (t.th x).live = true)) ∧
  (∀ tag wave s, let w := widAt tag wave
    (s.tm tag).running = true → (s.tm tag).stopAt = none → (s.wv w).timerOn.isSome = true → s.liveTids w ≠ [] → (s.la (s.tm tag).lid).convBound < timerOf s w →
    ∃ ti, exec (.convergenceTimeout tag wave) s = .next ((s.modWave w (fun x => { x with timer := 0, timerOn := none, timerRun := false })).takeTrap
        (s.liveTids w) ti (s.wv w).timerPc (s.wv w).timerPc (s.clkOf (s.wv w).core + 4) none) ∧
      ti.code = 0x08 ∧ ti.mask = laneMask (s.liveTids w)) ∧
  ∀ core s,
    (∃ t, exec (.scoreboardMismatch core) s = .next t ∧ t = { s with cores := t.cores, pend := t.pend, threads := t.threads } ∧
      (∀ c, t.co c =
        if c = core then { s.co c with sbmis := if (s.co c).sbmis = 0xFFFFFFFF then 0xFFFFFFFF else (s.co c).sbmis + 1 } else s.co c) ∧
      ((∀ w ∈ s.pend, w.core ≠ core) → t.pend = s.pend ∧ t.threads = s.threads) ∧
      ∀ k, (∃ w ∈ s.pend, w.core = core ∧ w.issue = k) → (∀ w ∈ s.pend, w.core = core → k ≤ w.issue) →
        let d := s.clkOf core + 1 - k
        t.pend = s.pend.map (fun w => if w.core = core then { w with due := w.due + d, issue := w.issue + d } else w) ∧
        ∀ x, (s.th x).live = true ∨ s.coreOf x ≠ core →
          t.th x = if s.coreOf x = core ∧ (s.wv (widOf x)).resident = true ∧ k ≤ (s.th x).lastIssue
            then { s.th x with readyAt := (s.th x).readyAt + d } else s.th x) ∧
    ∃ t, exec (.noiseHealthFail core) s = .next t ∧ t = { s with cores := t.cores } ∧
      ∀ c, t.co c = if c = core then { s.co c with noiseFailed := true } else s.co c

/-- The operations that move data (10 R266-R268): with its operands aligned and in reach, each element's bytes are read, with their
poison and class marks, and are to land at its destination, in rising order; a misaligned operand is the command fault with
cause 1. A landing writes exactly the element (09 R244), counts its bytes where the operation credits bytes (Table 10.3), and
lowers the count of a scratchpad line that is whole.

It says where these forms complete: `engineCopy`, `engineFill`, `engineCopy2d`, `engineGather`, `engineScatter`,
`byteLanding`. -/
def Obligations.EngineMoves : Prop :=
  (∀ i core id s c f (j : Nat → Nat) (ix sl dl : Nat → Loc),
    (i = .engineCopy core id ∨ i = .engineFill core id ∨ i = .engineCopy2d core id ∨ i = .engineGather core id ∨ i = .engineScatter core id) →
    moveOf i c.words = some f → startable s core id f.q f.op = some c →
    (¬ f.aligned → ∃ t, exec i s = .next t ∧ t = { s with cores := t.cores } ∧
      cmdAt t core id = some { c with started := true, fault := some (0x14, 1, 0) }) ∧
    (f.aligned → barrierBad s c = none → (s.tm (tagOf c.tid)).heldStores = [] → c.lands = [] →
      (∀ k, k < f.n → ∀ a, f.index = some a → ReadsAt s c (a k) (ix k) ∧ j k = leNat (s.rdBytes (s.lidOf c.tid) (ix k) 4)) →
      (∀ k, k < f.n → ∀ a, f.src j k = some a → ReadsAt s c a (sl k)) → (∀ k, k < f.n → WritesAt s c (f.dst j k) (dl k)) →
      ∃ t, exec i s = .next t ∧ SameData s t ∧ t.threads = s.threads ∧ t.pend = s.pend ∧ t.vres = s.vres ∧
        cmdAt t core id = some { c with
          started := true, fault := none, short := []
          lands := (List.range f.n).map (fun k => (k, match f.src j k with
            | some _ => ({
                loc := dl k, bytes := s.rdBytes (s.lidOf c.tid) (sl k) f.size
                poison := s.rdPoison (cmdLid s c) (sl k) f.size, cls := classAt s (cmdLid s c) (sl k) } : Land)
            | none => { loc := dl k, bytes := f.pattern })) })) ∧
  (∀ core id idx s c d pa, cmdAt s core id = some c → c.lands.find? (fun e => e.1 == idx) = some (idx, d) → d.loc = .mem pa →
    pa / 2 ^ 40 = s.pkg → s.waitOf d.loc = none → (c.q = 1 → ∀ e ∈ c.lands, e.1 < idx → e.2.loc ≠ d.loc) → cmdBarrier c.words = none →
    s.msys.closing = [] →
    ∃ t, exec (.byteLanding core id idx) s = .next t ∧ OutsideKept s t [(d.loc, d.bytes.length, 0)] ∧ t.vregs = s.vregs ∧
      t.sregs = s.sregs ∧ t.preds = s.preds ∧ t.stage = s.stage ∧ t.rdBytes 0 d.loc d.bytes.length = d.bytes ∧
      cmdAt t core id = some { c with
        lands := c.lands.filter (fun e => e.1 != idx), credited := if c.q < 3 then c.credited + d.bytes.length else c.credited }) ∧
  ∀ core id idx s c d tag off, cmdAt s core id = some c → c.lands.find? (fun e => e.1 == idx) = some (idx, d) → d.loc = .scr tag off →
    off + d.bytes.length ≤ 2 ^ 20 → (s.tm tag).fin = false → (s.tm tag).secondary = none → c.q = 0 → cmdBarrier c.words = none → s.held = [] →
    s.msys.closing = [] → (tag, off / 128) ∈ c.lines → (∀ e ∈ c.lands, e.1 ≠ idx → ∀ g o, e.2.loc = .scr g o → (g, o / 128) ≠ (tag, off / 128)) →
    ∃ t, exec (.byteLanding core id idx) s = .next t ∧ t.mem = s.mem ∧ t.rdBytes 0 d.loc d.bytes.length = d.bytes ∧
      (t.tm tag).pending.get 0 (off / 128) = (s.tm tag).pending.get 0 (off / 128) - 1 ∧
      ((s.tm tag).pending.get 0 (off / 128) ≤ 1 → ∀ x, (t.th x).park ≠ .presence tag (off / 128))

/-- Commands of the engines (10 R263, R266, R271-R274, R283, R285): acceptance off a queue, the chunk engine, the stage commands,
the arrival at a collective episode and its close, completion with the words that it delivers, and faults, which the pusher
holds and takes.

It says where these forms complete: `engineCommandAccept`, `collectiveReduce`, `collectiveGather`, `engineChunk`,
`stagePushFromMemory`, `stageClose`, `stagePopToMemory`, `engineCommandComplete`, `engineFault`, `engineFaultTaken`. -/
def Obligations.EngineCommands : Prop :=
  (∀ core slot (q : BitVec 3) s w ws rest ls, (s.co core).slots.find? slot = some w →
    wholeCmds ((s.wv w).eq.getD q.toNat []) = ws :: rest → ((s.wv w).eqRaised.get [] q.toNat).headD ([], []) = ls →
    (s.co core).cmds.length < 64 → s.isPaired (tagW w) = false → (s.wv w).eq.length = 8 → q.toNat < 6 →
    (s.canRaise ls.2 = false → exec (.engineCommandAccept core slot q) s = .next s) ∧
    (s.canRaise ls.2 = true → ∃ t c, t = { s with waves := t.waves, cores := t.cores, teams := t.teams } ∧
      t.teams = (s.raiseCounts ls.2).teams ∧
      (overlaps t c = false → exec (.engineCommandAccept core slot q) s = .next t) ∧
      (overlaps t c = true → c.fault = none → ∀ u,
        exec (if hOp (ws.headD 0) = 1 then .engineCopy core c.id else .engineCopy2d core c.id) t = .next u →
        (cmdAt u core c.id).any Cmd.started = true → exec (.engineCommandAccept core slot q) s = .next u) ∧
      (t.wv w).eq = (s.wv w).eq.set q.toNat (((s.wv w).eq.getD q.toNat []).drop ws.length) ∧
      (∀ v, v ≠ w → t.wv v = s.wv v) ∧ (t.co core).cmds = (s.co core).cmds ++ [c] ∧ c.q = q.toNat ∧ c.wid = w ∧ c.words = ws ∧
      c.lines = ls.1 ++ ls.2 ∧ c.started = c.fault.isSome ∧ (malformed q.toNat ws = true → c.fault = some (0x14, 0, 0)) ∧
      (malformed q.toNat ws = false → c.fault = if (q = 4 ∨ q = 5) ∧ (s.la (s.tm (tagW w)).lid).sqDepth (bodyW ws 0) = 0
        then some (0x14, 5, 0) else none))) ∧
  (∀ core id s c pa, startable s core id 3 1 = some c → bodyA c.words 0 % 32 = 0 → barrierBad s c = none →
    recordPlace s c (bodyA c.words 0) = .ok (.mem pa) → pa / 2 ^ 40 = s.pkg → engWaits s c (.mem pa) = false → c.result = [] →
    let next := field64 s (.mem pa) 0
    let rem := field64 s (.mem pa) 8 - next
    let div := max 1 (field32 s (.mem pa) 20)
    let cnt := min (min rem (max (max 1 (field32 s (.mem pa) 16)) ((rem + div - 1) / div))) (2 ^ 32 - 1)
    ∃ t, exec (.engineChunk core id) s = .next t ∧ OutsideKept s t [(.mem pa, 8, 0)] ∧ t.vregs = s.vregs ∧
      field64 t (.mem pa) 0 = (next + cnt) % 2 ^ 64 ∧
      cmdAt t core id = some { c with
        started := true
        result := [BitVec.ofNat 32 next, BitVec.ofNat 32 (next % 2 ^ 52 / 2 ^ 32), BitVec.ofNat 32 cnt, BitVec.ofNat 32 (min (rem - cnt) (2 ^ 32 - 1))] }) ∧
  (∀ core id s c (l : Nat → Loc), startable s core id 4 1 = some c → barrierBad s c = none → (s.tm (tagOf c.tid)).heldStores = [] →
    (∀ k, k < 256 → ReadsAt s c (bodyA c.words 1 + k) (l k)) →
    ∃ t r, exec (.stagePushFromMemory core id) s = .next t ∧ SameData s t ∧ t.threads = s.threads ∧
      cmdAt t core id = some { c with started := true, waiting := true } ∧ r.cmd = some (core, id) ∧ r.isClose = false ∧
      r.entry = (List.range 256).flatMap (fun k => s.rdBytes (s.lidOf c.tid) (l k) 1) ∧
      r.poison = (List.range 256).any (fun k => s.rdPoison (cmdLid s c) (l k) 1) ∧
      (sqOf t (cmdLid s c) (bodyW c.words 0)).pushes = (sqOf s (cmdLid s c) (bodyW c.words 0)).pushes ++ [r]) ∧
  (∀ core id s c, startable s core id 4 2 = some c → barrierBad s c = none →
    ∃ t r, exec (.stageClose core id) s = .next t ∧ SameData s t ∧ t.threads = s.threads ∧ r.isClose = true ∧
      cmdAt t core id = some { c with started := true, waiting := true } ∧ r.cmd = some (core, id) ∧
      (sqOf t (cmdLid s c) (bodyW c.words 0)).pushes = (sqOf s (cmdLid s c) (bodyW c.words 0)).pushes ++ [r]) ∧
  (∀ core id s c (l : Nat → Loc), startable s core id 5 1 = some c → barrierBad s c = none → (∀ k, k < 256 → WritesAt s c (bodyA c.words 1 + k) (l k)) →
    ∃ t r, exec (.stagePopToMemory core id) s = .next t ∧ SameData s t ∧ t.threads = s.threads ∧
      cmdAt t core id = some { c with started := true, waiting := true } ∧ r.cmd = some (core, id) ∧
      r.pieces = (List.range 256).map (fun k => (l k, 1, bodyA c.words 1 + k)) ∧
      (sqOf t (cmdLid s c) (bodyW c.words 0)).pops = (sqOf s (cmdLid s c) (bodyW c.words 0)).pops ++ [r]) ∧
  (∀ i core id op s c (l : Nat) e (src dl : Nat → Loc), (i = .collectiveReduce core id ∧ op = 1 ∨ i = .collectiveGather core id ∧ op = 2) →
    startable s core id 2 op = some c → bodyA c.words 0 % 64 = 0 → bodyW c.words 3 % 4 = 0 → bodyW c.words 5 % 4 = 0 →
    barrierBad s c = none → recordPlace s c (bodyA c.words 0) = .ok (.mem l) → l / 2 ^ 40 = s.pkg → engWaits s c (.mem l) = false →
    episodeAt s (.mem l) = none → readGroup s (.mem l) op = some e → bodyW c.words 2 < e.npart → (s.tm (tagOf c.tid)).heldStores = [] →
    c.lands = [] → s.msys.closing = [] →
    let n := if op = 1 then e.count else e.count / 4
    let m := if op = 1 then e.count else e.npart * (e.count / 4)
    (∀ k, k < n → ReadsAt s c (bodyA c.words 3 + 4 * k) (src k)) → (∀ k, k < m → WritesAt s c (bodyA c.words 5 + 4 * k) (dl k)) →
    let own (k : Nat) := s.rdBytes (s.lidOf c.tid) (src k) 4
    (1 < e.npart → ∃ t a, exec i s = .next t ∧ SameData s t ∧ t.threads = s.threads ∧
      cmdAt t core id = some { c with started := true, waiting := true } ∧ a.core = core ∧ a.cmd = id ∧ a.rank = bodyW c.words 2 ∧
      a.src = (List.range n).flatMap own ∧ a.dst = (List.range m).map (fun k => (dl k, 4, bodyA c.words 5 + 4 * k)) ∧
      episodeAt t (.mem l) = some { e with lid := cmdLid s c, members := [a] }) ∧
    (e.npart = 1 → ∃ t c', exec i s = .next t ∧ OutsideKept s t [(.mem (l + 12), 4, 0)] ∧ t.vregs = s.vregs ∧
      (m = 0 → field32 t (.mem l) 12 = (field32 s (.mem l) 12 + 1) % 2 ^ 32) ∧
      (m ≠ 0 → field32 t (.mem l) 12 = field32 s (.mem l) 12 ∧
        t.msys.closing = [{ loc := .mem l, lid := cmdLid s c, cmds := [(core, id)] }]) ∧
      cmdAt t core id = some c' ∧ c'.started = true ∧ c'.waiting = false ∧
      c'.lands.map (fun x => (x.1, x.2.loc, x.2.bytes)) = (List.range m).map (fun k => (k, dl k,
        if op = 1 ∧ 8 ≤ e.op ∧ (fp32.decode (leNat (own k))).isNan = true then leBytes 4 0x7FC00000 else own k)))) ∧
  (∀ core id idx s c d l lid pa, cmdAt s core id = some c → c.lands = [(idx, d)] → d.loc = .mem pa → pa / 2 ^ 40 = s.pkg →
    s.waitOf d.loc = none → cmdBarrier c.words = none → l / 2 ^ 40 = s.pkg → (pa + d.bytes.length ≤ l + 12 ∨ l + 16 ≤ pa) →
    s.msys.closing = [{ loc := .mem l, lid := lid, cmds := [(core, id)] }] →
    ∃ t, exec (.byteLanding core id idx) s = .next t ∧ OutsideKept s t [(d.loc, d.bytes.length, 0), (.mem (l + 12), 4, 0)] ∧
      t.rdBytes 0 d.loc d.bytes.length = d.bytes ∧ field32 t (.mem l) 12 = (field32 s (.mem l) 12 + 1) % 2 ^ 32 ∧ t.msys.closing = []) ∧
  (∀ core id s c, cmdAt s core id = some c → c.started = true → c.fault = none → c.lands = [] → c.waiting = false → c.lines = [] →
    cmdBarrier c.words = none → cmdDead s c = false → (s.tm (tagW c.wid)).secondary = none → NoMoves s → (s.wv c.wid).er.length = 8 → c.q < 6 →
    remoteDone s core id = true → (hRel (c.words.headD 0) = true → c.credit = true ∨ farDone s c = true) →
    let h := c.words.headD 0
    let room := ((s.wv c.wid).er.getD c.q []).length + c.result.length ≤ 16 ∧ (hCpl h = true → ((s.wv c.wid).er.getD 7 []).length < 16)
    (¬ room → ∃ t, exec (.engineCommandComplete core id) s = .next t ∧ SameData s t ∧ t.threads = s.threads ∧ t.waves = s.waves ∧
      cmdAt t core id = some { c with credit := true }) ∧
    (room → ∃ t, exec (.engineCommandComplete core id) s = .next t ∧ SameData s t ∧ t.threads = s.threads ∧ cmdAt t core id = none ∧
      (∀ v, v ≠ c.wid → t.wv v = s.wv v) ∧
      (t.wv c.wid).er.getD c.q [] = (s.wv c.wid).er.getD c.q [] ++ c.result ∧
      (t.wv c.wid).er.getD 7 [] = (s.wv c.wid).er.getD 7 [] ++
        if hCpl h then [BitVec.ofNat 32 (hTag h * 2 ^ 24 + c.q * 2 ^ 20)] else [])) ∧
  (∀ core id s c code sub addr, cmdAt s core id = some c → c.fault = some (code, sub, addr) → c.lands = [] → cmdBarrier c.words = none →
    cmdDead s c = false → (s.th c.tid).live = true → (s.th c.tid).park = .none → NoMoves s → s.msys.closing = [] →
    ∃ t f, exec (.engineFault core id) s = .next t ∧ SameData s t ∧ cmdAt t core id = none ∧ f ∈ (t.th c.tid).faults ∧ f.code = code ∧
      f.sub = (if code = 0x2A ∨ code = 0x2B then 0 else sub) ∧
      f.info = (if code = 0x2A ∨ code = 0x2B then BitVec.ofNat 32 sub else 0) ∧ f.ad = BitVec.ofNat 64 addr ∧ f.pc = c.pc ∧ f.words = c.words ∧ f.tag = hTag (c.words.headD 0) ∧
      f.id = id ∧ ((∀ g ∈ (s.th c.tid).faults, g.id ≤ id) → (t.th c.tid).faults = (s.th c.tid).faults ++ [f]) ∧
      ((∀ g ∈ (s.th c.tid).faults, id < g.id) → (t.th c.tid).faults = f :: (s.th c.tid).faults) ∧
      (t.th c.tid).faults.length = (s.th c.tid).faults.length + 1 ∧
      ∀ x, x ≠ c.tid → t.th x = s.th x) ∧
  ∀ tag wave lane s f rest, let x := tidAt tag wave lane
    (s.th x).faults = f :: rest → (s.th x).live = true → (s.th x).park = .none → (s.tm tag).running = true →
    ∃ ti, exec (.engineFaultTaken tag wave lane) s = .next (((ungroup s x).modThread x (fun y => { y with faults := rest })).takeTrap [x] ti
        (s.th x).pc (s.th x).pc (s.clkOf (s.coreOf x) + 4) (some f)) ∧
      ti.code = f.code ∧ ti.sub = f.sub ∧ ti.ad = f.ad ∧ ti.words = f.words ∧ ti.mask = laneMask [x] ∧
      ti.info = if isUserTrap f.code then BitVec.ofNat 32 f.tag else f.info

/-! ## Statements: the memory system's own steps, the host's accesses and commands, the checker, trust, debug and power (08-17) -/

namespace Sys2Proof.Claims

open Sys2Proof Sys2Proof.Machine Sys2Proof.Machine.State

/-- Entries of the journal so far, those that wait for room among them (16 R436). -/
def journalled (s : State) : Nat := s.checker.jwseq + s.checker.jwait.length

/-- No queue is mapped and no command of one is in flight. -/
def NoQueues (s : State) : Prop := s.front.slots = [] ∧ s.front.orphans = []

/-- Two ranges of addresses share no byte. -/
def Disjoint (a n b m : Nat) : Prop := a + n ≤ b ∨ b + m ≤ a

end Sys2Proof.Claims

/-- The memory system's steps: threads that wait at a staging page, for a version or for a frame, go on (09 R253, 13 R345); a migration drains once no
array line of the page is pinned, and its end moves the bytes and rewrites the entry, nothing else in memory (08 R198, R200); a
masked write leaves L2 and a mode change empties it and hits every monitor (08 R196, R201); Q rises to the oldest access not
performed, ends waits below it and empties the quarantine (09 R257-R260); the host reads what may leave the domain, is refused
the rest with a journal entry, and its writes reach memory but not what is the checker's (13 R365, 16 R433, R436); an access of a
page that moves waits.

It says where these forms complete: `stagingReadResume`, `frameFreeWriteResume`, `pageDrainEnd`, `pageCopyComplete`,
`hbmMaskedWrite`, `quiescencePublish`, `hostRead`, `hostWrite`, `l2ModeChangeComplete`. -/
def Obligations.MemorySystemEvents : Prop :=
  (∀ page s, NoQueues s → AMap.sorted s.threads = true → (∀ a ∈ s.held, (s.th a.tid).park ≠ .staging page) →
    ∃ t, exec (.stagingReadResume page) s = .next t ∧ SameData s t ∧ t.held = s.held ∧
      ∀ x, t.th x = if (s.th x).park = .staging page then { s.th x with park := .none } else s.th x) ∧
  (∀ page s, AMap.sorted s.threads = true → (∀ a ∈ s.held, (s.th a.tid).park ≠ .frame page) →
    ∃ t, exec (.frameFreeWriteResume page) s = .next t ∧ SameData s t ∧ t.held = s.held ∧
      ∀ x, t.th x = if (frames (s.pageOf page)).length + (s.msys.quarantine.filter (fun q => q.1 == page)).length < 4 ∧
          (s.th x).park = .frame page then { s.th x with park := .none } else s.th x) ∧
  (∀ page s m, migrationOf s page = some m →
    let pinned := ∃ c ∈ s.cores, ∃ e ∈ c.2.mx, ∃ k ∈ e.pins, m.page ≤ k * 128 ∧ k * 128 < m.page + m.size
    (pinned → exec (.pageDrainEnd page) s = .next s) ∧
    (¬ pinned → exec (.pageDrainEnd page) s = .next { s with msys := { s.msys with
      migrations := s.msys.migrations.map (fun x => if x = m then { x with drained := true } else x) } })) ∧
  (∀ page s m a, migrationOf s page = some m → m.drained = true → m.ptes = [a] → NoQueues s → s.held = [] → s.msys.claims = [] →
    AMap.sorted s.mem = true → AMap.sorted s.stage = true → m.page % 2 ^ 16 = 0 → m.target % 2 ^ 16 = 0 → m.size % 2 ^ 16 = 0 → 0 < m.size →
    m.target + m.size ≤ 2 ^ 52 → m.page / 2 ^ 40 = s.pkg → Disjoint m.page m.size m.target m.size → Disjoint a 8 m.page m.size → Disjoint a 8 m.target m.size →
    let f := bitsOf (s.rdMem a 8) 51 16
    m.page ≤ f * 2 ^ 16 → f * 2 ^ 16 < m.page + m.size →
    ∃ t, exec (.pageCopyComplete page) s = .next t ∧ t.vregs = s.vregs ∧ t.sregs = s.sregs ∧ t.scratch = s.scratch ∧
      (∀ k, k < m.size → t.byteAt (m.target + k) = s.byteAt (m.page + k)) ∧
      (∀ b, Disjoint b 1 m.page m.size → Disjoint b 1 m.target m.size → Disjoint b 1 a 8 → t.byteAt b = s.byteAt b) ∧
      t.rdMem a 8 = s.rdMem a 8 - f * 2 ^ 16 + (f * 2 ^ 16 - m.page + m.target) ∧
      t.pageOf (m.target / 2 ^ 16) = s.pageOf (m.page / 2 ^ 16) ∧ m ∉ t.msys.migrations ∧
      t.msys.quarantine = s.msys.quarantine ++ (List.range (m.size / 2 ^ 16)).map (fun k => (m.page / 2 ^ 16 + k, s.msys.stamp))) ∧
  (∀ sector s, ∃ t, exec (.hbmMaskedWrite sector) s = .next t ∧ SameData s t ∧ t.threads = s.threads ∧
    ∀ k, t.msys.l2Mask.get 0 k = if k = sector then 0 else s.msys.l2Mask.get 0 k) ∧
  (∀ s parts, s.msys.l2Changing = some parts →
    ∃ t, exec .l2ModeChangeComplete s = .next t ∧ SameData s t ∧ t.msys.l2 = [] ∧ t.msys.l2Mask = [] ∧ t.msys.l2Parts = parts ∧
      t.msys.l2Changing = none ∧
      ∀ x, t.th x = { s.th x with hit := (s.th x).hit || (s.th x).monitor.isSome || (s.th x).armed, late := (t.th x).late }) ∧
  (∀ s, ∃ t, exec .quiescencePublish s = .next t ∧ SameData s t ∧ t.msys.stamp = s.msys.stamp + 16 ∧ t.msys.copy = t.msys.stamp ∧
    s.msys.q ≤ t.msys.q ∧ (t.msys.q = s.msys.q ∨ t.msys.q ≤ s.msys.copy ∧ ∀ k ∈ pendingStamps s, t.msys.q ≤ k) ∧
    (∀ j, j ≤ s.msys.copy → (∀ k ∈ pendingStamps s, j ≤ k) → j ≤ t.msys.q) ∧
    (∀ e ∈ s.msys.quarantine, t.msys.q ≤ e.2 → e ∈ t.msys.quarantine) ∧
    (∀ e ∈ t.msys.quarantine, e ∈ s.msys.quarantine ∧ t.msys.q ≤ e.2 ∨ e.2 = t.msys.stamp) ∧
    ∀ x, t.th x = { s.th x with
      memHold := match (s.th x).memHold with | some k => if k < t.msys.q then none else some k | none => none
      park := match (s.th x).park with | .quiesce k => if k < t.msys.q then .none else .quiesce k | p => p }) ∧
  (∀ addr n s, let pa := s.localPa addr
    pa % 2 ^ 16 + n ≤ 2 ^ 16 → 0 < n → s.checker.bootFailed = false → s.waitOf (.mem pa) = none →
    (s.isStaging (pa / 2 ^ 16) = false → s.msys.domOnly.get false (pa / 2 ^ 16) = false → s.msys.classes.get 0 (pa / 2 ^ 16) = 0 →
      ∃ t, exec (.hostRead addr n) s = .next t ∧ SameData s t ∧ t.threads = s.threads ∧
        t.front.answers = s.front.answers ++ [(addr, some ((List.range n).map (fun k => s.byteAt (pa + k))), s.memPoison pa n)]) ∧
    (∀ v, s.isStaging (pa / 2 ^ 16) = true → (s.pageOf (pa / 2 ^ 16)).versions.reverse.find? (fun v => v.st == .released) = some v → v.cls = 0 →
      ∃ t, exec (.hostRead addr n) s = .next t ∧ SameData s t ∧ t.threads = s.threads ∧ t.front.answers = s.front.answers ++
        [(addr, some ((List.range n).map (fun k => v.bytes.get 0 (pa % 2 ^ 16 + k))), Version.bad v (pa % 2 ^ 16) n)]) ∧
    ((s.isStaging (pa / 2 ^ 16) = false ∧ (s.msys.domOnly.get false (pa / 2 ^ 16) = true ∨ s.msys.classes.get 0 (pa / 2 ^ 16) ≠ 0) ∨
        s.isStaging (pa / 2 ^ 16) = true ∧ ∀ v, (s.pageOf (pa / 2 ^ 16)).versions.reverse.find? (fun v => v.st == .released) = some v → v.cls ≠ 0) →
      s.jfull = false →
      ∃ t, exec (.hostRead addr n) s = .next t ∧ t.vregs = s.vregs ∧ t.front.answers = s.front.answers ++ [(addr, none, false)] ∧
        journalled t = journalled s + 1)) ∧
  ∀ addr bytes s, let moving := partMoves s (localParts s addr bytes.length) = true
    (moving → exec (.hostWrite addr bytes) s = .next s) ∧
    (¬ moving → ∃ t, exec (.hostWrite addr bytes) s = .next t ∧ t.vregs = s.vregs ∧ t.stage = s.stage ∧
      t.msys = { s.msys with eccCorrected := t.msys.eccCorrected } ∧
      ((∀ k, k < bytes.length → s.checkerFrame (s.localPa addr + k) = false) →
        ∀ k, k < bytes.length → t.byteAt (s.localPa addr + k) = bytes.getD k 0) ∧
      ((∀ k, k < bytes.length → s.checkerFrame (s.localPa addr + k) = true) → t.mem = s.mem) ∧
      ∀ a, Disjoint a 1 (s.localPa addr) bytes.length → t.byteAt a = s.byteAt a)

/-- The checker's steps (13 R349, R361-R363, R366, R374; 18 R460-R462): a seal point waits for every wave and for the bound on
SEALED versions, seals the versions of its epoch and submits its records; verdicts are journalled; RESULT 5 is a poisoned or
incomplete epoch; a passed version becomes CHECKED and replaces its elders; a failed epoch fails its versions and the launch runs
again, at the fourth failure it aborts; a discarded launch runs once its producer does; releases go page by page, and a request that
awaits a version that failed waits for the run that follows, or is refused when its launch aborts.

It says where these forms complete: `sealPoint`, `sealedBoundRoom`, `epochPass`, `versionChecked`, `epochFail`,
`discardedLaunchRerun`, `releaseGrant`. -/
def Obligations.CheckerSteps : Prop :=
  (∀ i lid s, (i = .sealPoint lid ∨ i = .sealedBoundRoom lid) →
    let l := s.la lid
    let ws := launchWids s lid
    let open' (v : Version) : Bool := v.lid == lid && v.st == .writing
    ((s.teamsOf lid ≠ [] ∧ ∃ w ∈ ws, (s.wv w).sealCount ≤ l.sealPoints) → exec i s = .next s) ∧
    (l.replayTo ≤ l.sealPoints + 1 → 2 ^ 20 < countVersions s (fun v => v.st == .sealed) + countVersions s open' → exec i s = .next s) ∧
    (l.st = .running → l.nextTeam = l.numTeams → l.isChecked = true → l.paired = false → s.teamsOf lid ≠ [] → ws ≠ [] →
      (∀ w ∈ ws, l.sealPoints < (s.wv w).sealCount) → launchBusy s lid = false → l.sealPoints + 1 < 65536 → l.sealPoints + 1 < l.replayTo →
      ∃ t, exec i s = .next t ∧ t.mem = s.mem ∧ t.vregs = s.vregs ∧ t.scratch = s.scratch ∧ t.tiles = s.tiles ∧
        t.stage = s.stage.map (fun p => (p.1, { p.2 with versions := p.2.versions.filter (fun v => !open' v) })) ∧
        (∀ p ∈ s.stage, ∀ v ∈ p.2.versions, open' v = true → (p.1, s.msys.stamp) ∈ t.msys.quarantine) ∧
        (t.la lid).sealPoints = l.sealPoints + 1 ∧ (t.la lid).epochs = l.epochs ∧ (t.la lid).stream = []) ∧
    (l.st = .running → l.nextTeam = l.numTeams → l.isChecked = true → l.paired = false → s.teamsOf lid ≠ [] → ws ≠ [] →
      (∀ w ∈ ws, l.sealPoints < (s.wv w).sealCount) → launchBusy s lid = false → l.sealPoints + 1 < 65536 → l.replayTo ≤ l.sealPoints + 1 →
      countVersions s (fun v => v.st == .sealed) + countVersions s open' ≤ 2 ^ 20 →
      ∃ t e, exec i s = .next t ∧ t.mem = s.mem ∧ t.vregs = s.vregs ∧ t.scratch = s.scratch ∧ t.tiles = s.tiles ∧
        t.stage = s.stage.map (fun p => (p.1, { p.2 with versions := p.2.versions.map (fun v =>
          if open' v then { v with st := .sealed } else v) })) ∧
        (t.la lid).sealPoints = l.sealPoints + 1 ∧ (t.la lid).epochs = l.epochs ++ [e] ∧ e.num = l.sealPoints + 1 ∧
        e.records = l.stream ++ ws.flatMap (fun w => (s.wv w).held) ∧ e.count = e.records.length ∧ e.verdict = none ∧
        (t.la lid).stream = [] ∧ (∀ k, k ≠ lid → t.la k = s.la k) ∧
        (∀ w ∈ ws, (s.wv w).openRec = none → (∃ x ∈ tidsOf w, (s.th x).live = true ∧ (s.th x).park = .seal (l.sealPoints + 1)) → (t.wv w).seq = 0) ∧
        ∀ w ∈ ws, ∀ x ∈ tidsOf w, (s.th x).live = true → (t.th x).park ≠ .seal (l.sealPoints + 1))) ∧
  (∀ s lid e, let fails := fun r => testRec s lid e r = .fail
    let bad := fun r => testRec s lid e r = .malformed
    (∀ r, r.crc ≠ recCrc r → bad r) ∧
    ((∃ r ∈ e.records, fails r) → (verdictOf s lid e).result = 1) ∧
    ((∀ r ∈ e.records, ¬ fails r) → (∃ r ∈ e.records, bad r) → (verdictOf s lid e).result = 2) ∧
    ((∀ r ∈ e.records, ¬ fails r ∧ ¬ bad r) → e.count ≠ e.records.length → (verdictOf s lid e).result = 3) ∧
    ((∀ r ∈ e.records, ¬ fails r ∧ ¬ bad r ∧ spotFailed s lid e r = false) → e.count = e.records.length →
      (verdictOf s lid e).result = if e.poison ∨ e.werr then 5 else 0)) ∧
  (∀ lid k s e, epochOf s lid k = some e → e.verdict = none → (verdictOf s lid e).result = 0 → s.jfull = false →
    (∀ r ∈ e.records, altered s lid e r = false) →
    ∃ t, exec (.epochPass lid k) s = .next t ∧ t.vregs = s.vregs ∧ t.stage = s.stage ∧ journalled t = journalled s + 1 ∧
      t.la lid = { s.la lid with epochs := (s.la lid).epochs.map (fun x => if x.num = k then { x with verdict := some true } else x) } ∧
      ∀ j, j ≠ lid → t.la j = s.la j) ∧
  (∀ page num s v, (s.pageOf page).versions.find? (fun v => v.num == num && v.st == .sealed) = some v →
    let ok := passedTo (s.la v.lid) v.epoch = true ∧ (s.la v.lid).edges = []
    (¬ ok → exec (.versionChecked page num) s = .next s) ∧
    (ok → ∃ t, exec (.versionChecked page num) s = .next t ∧ SameData { s with stage := t.stage } t ∧ t.threads = s.threads ∧
      (t.pageOf page).versions = ((s.pageOf page).versions.map (fun x => if x.num = num then { x with st := .checked } else x)).filter
        (fun x => !(decide (x.num < num) && (x.st == .checked || x.st == .released))) ∧
      (∀ k, t.la k = { s.la k with edges := (s.la k).edges.filter (fun x => x != (page, num)) }) ∧
      (∀ x ∈ (s.pageOf page).versions, x.num < num → x.st = .checked ∨ x.st = .released → (page, s.msys.stamp) ∈ t.msys.quarantine) ∧
      ∀ p, p ≠ page → t.pageOf p = s.pageOf p)) ∧
  (∀ lid k s e, epochOf s lid k = some e → e.verdict = none → (verdictOf s lid e).result ≠ 0 → (verdictOf s lid e).team = none →
    s.jfull = false → (∀ r ∈ e.records, altered s lid e r = false) → (∀ x ∈ s.launches, x.2.edges = []) →
    ∃ t, exec (.epochFail lid k) s = .next t ∧ t.vregs = s.vregs ∧ journalled t = journalled s + 1 ∧
      (t.la lid).failures = (s.la lid).failures ++ [(e.num, e.dies, (verdictOf s lid e).result)] ∧
      (t.la lid).epochs = (s.la lid).epochs.filter (fun x => x.num < e.num) ∧
      (∀ p, ∀ v ∈ (s.pageOf p).versions, v.lid = lid → v.st = .sealed → e.num ≤ v.epoch →
        { v with st := .failed, bytes := [], poison := [], codes := [], ecc := [], cls := 0 } ∈ (t.pageOf p).versions) ∧
      ((failuresOf (s.la lid) e.num).length < 3 → (t.la lid).run = (s.la lid).run + 1 ∧ (t.la lid).replayTo = e.num ∧
        (t.la lid).nextTeam = 0 ∧ (t.la lid).sealPoints = 0 ∧ ((t.la lid).st = .waiting ∨ (t.la lid).st = .running)) ∧
      (3 ≤ (failuresOf (s.la lid) e.num).length → (t.la lid).st = .aborted)) ∧
  (∀ lid p k s, (s.la lid).st = .discarded → (s.la lid).behind = some (p, k) →
    let ready := k ≤ (s.la p).run ∧ (p = lid ∨ (s.la p).st = .running ∨ (s.la p).st = .ending ∨ (s.la p).st = .done)
    (¬ ready → exec (.discardedLaunchRerun lid) s = .next s) ∧
    (ready → ∃ t, exec (.discardedLaunchRerun lid) s = .next t ∧ t.vregs = s.vregs ∧ (t.la lid).run = (s.la lid).run + 1 ∧
      (t.la lid).edges = [] ∧ (t.la lid).epochs = [] ∧ (t.la lid).replayTo = 0 ∧ (t.la lid).nextTeam = 0 ∧
      ((t.la lid).st = .waiting ∨ (t.la lid).st = .running))) ∧
  (∀ id s r core v, s.checker.releases.find? (fun r => r.id == id) = some r → r.pages = [] → r.vres = some (core, v) →
    ∃ t, exec (.releaseGrant id) s = .next t ∧ SameData s t ∧ t.threads = s.threads ∧
      t.checker.releases = s.checker.releases.filter (fun x => x.id != id) ∧
      t.vres = (s.fillVar core v [BitVec.ofNat 32 (r.code * 2 ^ 30 + r.done)]).vres) ∧
  (∀ id s r page rest v, s.checker.releases.find? (fun r => r.id == id) = some r → r.pages = page :: rest → rest ≠ [] →
    (s.pageOf page).versions.reverse.find? (fun v => v.st != .failed) = some v → (∀ x, r.reached = some x → x.2 ≤ v.num) →
    ∃ t r', exec (.releaseGrant id) s = .next t ∧ SameData { s with stage := t.stage } t ∧ t.threads = s.threads ∧
      t.checker.releases.find? (fun r => r.id == id) = some r' ∧
      (v.st = .checked → r'.pages = rest ∧ r'.done = r.done + 1 ∧ r'.code = r.code ∧
        (t.pageOf page).versions = ((s.pageOf page).versions.map (fun x => if x.num = v.num then { x with st := .released } else x)).filter
          (fun x => !(decide (x.num < v.num) && (x.st == .checked || x.st == .released)))) ∧
      (v.st = .released → r'.pages = rest ∧ r'.done = r.done + 1 ∧ r'.code = r.code ∧ t.stage = s.stage) ∧
      ((v.st = .sealed ∨ v.st = .writing) → (s.la v.lid).st = .aborted → r'.pages = rest ∧ r'.done = r.done ∧ r'.code = 2 ∧
        t.stage = s.stage) ∧
      ((v.st = .sealed ∨ v.st = .writing) → (s.la v.lid).st ≠ .aborted → r'.pages = page :: rest ∧ r'.done = r.done ∧ r'.code = r.code ∧
        t.stage = s.stage)) ∧
  ∀ id s r page rest l n, s.checker.releases.find? (fun r => r.id == id) = some r → r.pages = page :: rest → rest ≠ [] →
    r.reached = some (l, n) → (∀ v ∈ (s.pageOf page).versions, v.st = .failed ∨ v.num < n) →
    ∃ t r', exec (.releaseGrant id) s = .next t ∧ SameData s t ∧ t.threads = s.threads ∧
      t.checker.releases.find? (fun r => r.id == id) = some r' ∧ r'.done = r.done ∧
      ((s.la l).st = .aborted → r'.pages = rest ∧ r'.code = 2) ∧
      ((s.la l).st ≠ .aborted → r'.pages = page :: rest ∧ r'.code = r.code)

namespace Sys2Proof.Claims

open Sys2Proof Sys2Proof.Machine Sys2Proof.Machine.State

/-- The command at a queue's RIDX, as it stands in the ring (15 R410). -/
def ringCmd (s : State) (q : Nat) : QCmd :=
  { idx := dRidx (desc s q), tenant := dTenant (desc s q), words := (List.range 16).map (fun j =>
    BitVec.ofNat 32 (s.rdMem (s.localPa (dBase (desc s q) + 64 * (dRidx (desc s q) % 2 ^ dLogsz (desc s q))) + 4 * j) 4)) }

/-- The queue mapped at a slot holds a command; nothing of the queue is in flight, and the front die has room for an event (15
R410, R414, R422). -/
def NextCmd (s : State) (slot q : Nat) : Prop :=
  (∃ x, AMap.find? s.front.slots slot = some x ∧ x.queue = q) ∧ dWidx (desc s q) ≠ dRidx (desc s q) ∧ s.front.events.length < 256 ∧
  liveCmds s q = []

/-- The next command of the queue is of a kind of Table 15.4, in good form. -/
def Starts (s : State) (slot q k : Nat) : Prop := NextCmd s slot q ∧ cCmd (ringCmd s q) = k ∧ formReject (ringCmd s q) = none

/-- The queue's RIDX is one further and its command is in flight. -/
def taken (s : State) (q : Nat) : State := modQcmds (setRidx s q (dRidx (desc s q) + 1)) q (fun _ => [ringCmd s q])

/-- The command that an event starts: its slot and the code of Table 15.4. -/
def cmdEvent : Instr → Option (Nat × Nat)
  | .launch k => some (k, 1)
  | .waitv k => some (k, 2)
  | .signalWrite k | .signalAtomicAdd k | .signalBbadd k | .tenantRecordWrite k | .tenantReset k => some (k, 3)
  | .copyq k => some (k, 4)
  | .release k => some (k, 5)
  | .barq k => some (k, 6)
  | .nopq k => some (k, 7)
  | _ => none

/-- The conditions of a `WAITV` (15 R414). -/
def Meets (cond m value mask : Nat) : Prop :=
  match cond with
  | 0 => m &&& mask = value
  | 1 => m &&& mask ≠ value
  | 2 => value ≤ m &&& mask
  | 3 => m &&& mask < value
  | _ => m = 0 ∨ 2 ^ 63 ≤ m

/-- A byte of local memory that no migration holds. -/
def Local (s : State) (pa : Nat) : Prop := isFar s (.mem pa) = false ∧ s.waitOf (.mem pa) = none

/-- Every byte outside a range reads as before. -/
def BytesKept (s t : State) (a n : Nat) : Prop := ∀ b, Disjoint b 1 a n → t.byteAt b = s.byteAt b

/-- The registers of the machine and what its cores and its staging pages hold are as before. -/
def CoresKept (s t : State) : Prop :=
  t.vregs = s.vregs ∧ t.preds = s.preds ∧ t.sregs = s.sregs ∧ t.tiles = s.tiles ∧ t.scratch = s.scratch ∧ t.waves = s.waves ∧
  t.teams = s.teams ∧ t.stage = s.stage

end Sys2Proof.Claims

/-- Queue commands (15 R410-R415): nothing starts while the queue is empty, a `WAITV` is in flight, or an ordered command finds
others in flight; a command of bad form is rejected by its first bad word, and a rejection puts the queue in ERROR; completion
takes the command out of its queue and posts its event; `NOPQ` only completes; `BARQ` writes its count; `WAITV` completes exactly
where its condition holds (the base die counts what it corrects in the bytes that are tested, 08 R201); `RELEASE` needs feature 6 and asks the checker.

It says where these forms complete: `waitv`, `waitvConditionHolds`, `release`, `barq`, `nopq`. -/
def Obligations.QueueCommands : Prop :=
  (∀ i slot k s x, cmdEvent i = some (slot, k) → AMap.find? s.front.slots slot = some x →
    (dWidx (desc s x.queue) = dRidx (desc s x.queue) ∨ 256 ≤ s.front.events.length ∨ (∃ c ∈ liveCmds s x.queue, cCmd c = 2) ∨
      (liveCmds s x.queue ≠ [] ∧ (cSer (ringCmd s x.queue) = true ∨ cCmd (ringCmd s x.queue) = 3))) →
    exec i s = .next s) ∧
  (∀ i slot k s q r, cmdEvent i = some (slot, k) → NextCmd s slot q → formReject (ringCmd s q) = some r →
    exec i s = .next (rejectCmd (taken s q) q (ringCmd s q) r)) ∧
  (∀ c r, formReject c = some r → r.cause = 0x80 ∧ ∃ k, k < 16 ∧ r.words = [BitVec.ofNat 32 k] ∧ badWord c k = true ∧
    ∀ j, j < k → badWord c j = false) ∧
  (∀ s q c r, dState (desc (rejectCmd (({ s with front := { s.front with eqk := 0 } } : State)) q c r) q) = 2 ∧
    CoresKept s (rejectCmd s q c r)) ∧
  (∀ s q c f, s.front.events = [] → (∀ e ∈ s.dies, e.2.events = []) → s.ringOk = true → s.ringUsed < 2 ^ s.front.eqk - 1 → cEvt c = true →
    c.tenant < 256 → AMap.sorted s.front.slots = true →
    let a := s.localPa (s.front.eqbase + 64 * (s.front.eqtail.toNat % 2 ^ s.front.eqk))
    let t := completeCmd s q c f
    CoresKept s t ∧ BytesKept s t a 64 ∧ t.front.eqtail = s.front.eqtail + 1 ∧ qcmds t q = (qcmds s q).filter (fun x => x.idx != c.idx) ∧
      t.rdMem a 4 = cTag c * 2 ^ 24 + c.tenant * 2 ^ 16 + 1 ∧ t.rdMem (a + 4) 4 = q % 2 ^ 32 ∧ t.rdMem (a + 8) 4 = c.lid % 2 ^ 32) ∧
  (∀ s q c f, cEvt c = false → AMap.sorted s.front.slots = true → (completeCmd s q c f).mem = s.mem ∧ CoresKept s (completeCmd s q c f) ∧
    qcmds (completeCmd s q c f) q = (qcmds s q).filter (fun x => x.idx != c.idx)) ∧
  (∀ slot s q, Starts s slot q 7 → exec (.nopq slot) s = .next (completeCmd (taken s q) q (ringCmd s q) false)) ∧
  (∀ slot s q, Starts s slot q 6 → let c := ringCmd s q
    (∀ r, objectPlaceQ (taken s q) c 1 (cAddr c 1) = .error r → exec (.barq slot) s = .next (rejectCmd (taken s q) q c r)) ∧
    ∀ p l, objectPlaceQ (taken s q) c 1 (cAddr c 1) = .ok p → p.loc = .mem l → Local (taken s q) l → cEvt c = false →
      ∃ t, exec (.barq slot) s = .next t ∧ CoresKept s t ∧ BytesKept (taken s q) t l 64 ∧ t.rdMem l 8 = (cVal c 3).toNat ∧
        t.rdMem (l + 8) 4 = ((taken s q).rdMem (l + 8) 4 + 1) % 2 ^ 32) ∧
  (∀ slot s q, Starts s slot q 2 → let c := ringCmd s q
    (5 ≤ cWord c 7 → exec (.waitv slot) s = .next (rejectCmd (taken s q) q c ⟨0x86, []⟩)) ∧
    ∀ p l, cWord c 7 ≤ 4 → readPlace (taken s q) c (cAddr c 1) = .ok p →
      (cWord c 7 = 4 → p.ord ≠ 2) → p.loc = .mem l → Local (taken s q) l →
      let ok := Meets (cWord c 7) ((taken s q).rdMem l 8) (cVal c 3).toNat (cVal c 5).toNat
      (ok → exec (.waitv slot) s = .next (completeCmd ((taken s q).countRead l 8) q c false)) ∧
      (¬ ok → exec (.waitv slot) s = .next ((taken s q).countRead l 8))) ∧
  (∀ slot s x c p l, AMap.find? s.front.slots slot = some x → x.cmds.find? (fun c => cCmd c == 2) = some c →
    readPlace s c (cAddr c 1) = .ok p → p.loc = .mem l → Local s l →
    let ok := Meets (cWord c 7) (s.rdMem l 8) (cVal c 3).toNat (cVal c 5).toNat
    (ok → exec (.waitvConditionHolds slot) s = .next (completeCmd (s.countRead l 8) x.queue c false)) ∧
    (¬ ok → exec (.waitvConditionHolds slot) s = .next (s.countRead l 8))) ∧
  ∀ slot s q, Starts s slot q 5 → let c := ringCmd s q
    (bitAt s.front.feataccLo 6 = false → exec (.release slot) s = .next (rejectCmd (taken s q) q c ⟨0x81, [6]⟩)) ∧
    ∀ x f off w, bitAt s.front.feataccLo 6 = true → rangePlaces (readPlace (taken s q) c) (cAddr c 1) (cWord c 3) = .ok [x] →
      x.2.2.loc = .stg f off → bytePlaces (taken s q) c 4 (cAddr c 4) 4 = .ok w →
      (∀ v ∈ (s.pageOf f).versions, ¬ (v.st = .writing ∧ v.lid = 0)) →
      ∃ t r, exec (.release slot) s = .next t ∧ CoresKept s t ∧ t.mem = (taken s q).mem ∧ t.checker.releases = s.checker.releases ++ [r] ∧
        r.pages = [f] ∧ r.done = 0 ∧ r.code = 0 ∧ r.cmd = some (q, (ringCmd s q).idx) ∧ r.vres = none

/-- `SIGNAL` and `COPYQ` (15 R408, R409, R413, R414; 16 R433, R434): a signal writes, adds or adds to a barrier; through the aperture
it writes a tenant record, or resets a tenant: its launches end, its versions that are not RELEASED go; a local copy moves its
bytes and makes its page domain-only; what may not leave the domain is rejected and journalled; a metered transfer moves what its
buckets hold; a stall episode ends after 100 us without a wait.

It says where these forms complete: `egressTransfer`, `stallEpisodeEnd`, `signalWrite`, `signalAtomicAdd`, `signalBbadd`,
`tenantRecordWrite`, `tenantReset`, `copyq`. -/
def Obligations.SignalsAndCopies : Prop :=
  (∀ i slot s q, (i = .signalWrite slot ∨ i = .signalAtomicAdd slot ∨ i = .signalBbadd slot ∨ i = .tenantRecordWrite slot ∨
      i = .tenantReset slot) → Starts s slot q 3 → cWord (ringCmd s q) 5 = 3 →
    exec i s = .next (rejectCmd (taken s q) q (ringCmd s q) ⟨0x86, []⟩)) ∧
  (∀ slot s q l, Starts s slot q 3 → let c := ringCmd s q
    let s' := taken s q
    apertureOff s' c = none → sigBytes s' c = .ok ((List.range 8).map (fun k => .mem (l + k))) → (∀ k, k < 8 → Local s' (l + k)) →
    cEvt c = false →
    (cWord c 5 = 0 → ∃ t, exec (.signalWrite slot) s = .next t ∧ CoresKept s t ∧ BytesKept s' t l 8 ∧ t.rdMem l 8 = (cVal c 3).toNat) ∧
    (cWord c 5 = 1 → ∃ t, exec (.signalAtomicAdd slot) s = .next t ∧ CoresKept s t ∧ BytesKept s' t l 8 ∧
      t.rdMem l 8 = (s'.rdMem l 8 + (cVal c 3).toNat) % 2 ^ 64)) ∧
  (∀ slot s q p l, Starts s slot q 3 → let c := ringCmd s q
    let s' := taken s q
    cWord c 5 = 2 → objectPlaceQ s' c 1 (cAddr c 1) = .ok p → p.loc = .mem l → Local s' l → cEvt c = false →
    ∃ t, exec (.signalBbadd slot) s = .next t ∧ CoresKept s t ∧ BytesKept s' t l 16 ∧
      t.rdMem l 8 = (s'.rdMem l 8 + (cVal c 3).toNat) % 2 ^ 64 ∧ t.rdMem (l + 8) 4 = s'.rdMem (l + 8) 4) ∧
  (∀ slot s q off, Starts s slot q 3 → let c := ringCmd s q
    apertureOff (taken s q) c = some off → off % 32 ≤ 24 → off < 0x2000 → cWord c 5 = 0 → cEvt c = false →
    ∃ t, exec (.tenantRecordWrite slot) s = .next t ∧ CoresKept s t ∧ t.mem = (taken s q).mem ∧
      (∀ k, (tenantOf t k).eff = (tenantOf s k).eff) ∧ (∀ k, k ≠ off / 32 → tenantOf t k = tenantOf s k) ∧
      ∀ j, j < 256 → (tenantOf t (off / 32)).bits.getLsbD j =
        if 8 * (off % 32) ≤ j ∧ j < 8 * (off % 32) + 64 then (cVal c 3).getLsbD (j - 8 * (off % 32)) else (tenantOf s (off / 32)).bits.getLsbD j) ∧
  (∀ slot s q, Starts s slot q 3 → let c := ringCmd s q
    let v := (cVal c 3).toNat
    apertureOff (taken s q) c = some 0x2000 → cWord c 5 = 0 →
    ((v = 0 ∨ 255 < v) → exec (.tenantReset slot) s = .next (completeCmd (taken s q) q c false)) ∧
    (1 ≤ v → v ≤ 255 → AMap.sorted s.launches = true → ∃ t, exec (.tenantReset slot) s = .next t ∧ t.vregs = s.vregs ∧
      (∀ e ∈ s.launches, e.2.tenant = v → e.2.st ≠ .done → (t.la e.1).st = .aborted ∧ (e.2.st ≠ .aborted → (t.la e.1).rnd = [] ∧ (t.la e.1).epochs = [])) ∧
      (∀ e ∈ s.launches, e.2.tenant ≠ v → e.2.edges = [] → (t.la e.1).st = e.2.st) ∧
      ∀ f, ∀ x ∈ (t.pageOf f).versions, (s.la x.lid).tenant = v → x.st = .released)) ∧
  (∀ slot s q x y a b, Starts s slot q 4 → let c := ringCmd s q
    let s' := taken s q
    let n := cWord c 5
    cAddr c 6 = 0 → 0 < n → copyPlaces s' c = .ok ([(cAddr c 1, n, x)], [(cAddr c 3, n, y)], none) → x.loc = .mem a → y.loc = .mem b →
    Local s' a → Local s' b → leavesDomain s' (.mem b) = false → egressOf s q c.idx = none → cEvt c = false →
    ∃ t, exec (.copyq slot) s = .next t ∧ CoresKept s t ∧ BytesKept s' t b n ∧ t.msys.domOnly.get false (b / 2 ^ 16) = true ∧
      ∀ k, k < n → t.byteAt (b + k) = s'.byteAt (a + k)) ∧
  (∀ slot s q src dst bar va, Starts s slot q 4 → let c := ringCmd s q
    copyPlaces (taken s q) c = .ok (src, dst, bar) → (∃ p ∈ dst, leavesDomain (taken s q) p.2.2.loc = true) →
    unreleased (taken s q) src = some va → (taken s q).jfull = false → egressOf s q c.idx = none →
    exec (.copyq slot) s = .next ((rejectCmd (taken s q) q c ⟨0x87, [addrLo va, addrHi va]⟩).journalF 0x08 c.tenant [0, va])) ∧
  (∀ id s e c x y a b, s.checker.egress.find? (fun e => e.id == id) = some e → (qcmds s e.queue).find? (fun c => c.idx == e.idx) = some c →
    let n := cWord c 5 - c.copied
    let m := s.msys.classes.get 0 ((a + c.copied) / 2 ^ 16)
    let k := roomFor s m n
    copyPlaces s c = .ok ([(cAddr c 1, cWord c 5, x)], [(cAddr c 3, cWord c 5, y)], none) → x.loc = .mem a → y.loc = .mem b →
    c.copied < cWord c 5 → Local s (a + c.copied) → Local s (b + c.copied) → leavesDomain s (.mem (b + c.copied)) = true →
    egressOf s e.queue c.idx = some e → s.msys.domOnly.get false ((a + c.copied) / 2 ^ 16) = false → m ≠ 0 → s.jfull = false → (∀ r ∈ classesOf m, (regionOf s r).stalled = true) → k < n →
    ∃ t, exec (.egressTransfer id) s = .next t ∧ CoresKept s t ∧ BytesKept s t (b + c.copied) k ∧
      (∀ j, j < k → t.byteAt (b + c.copied + j) = s.byteAt (a + c.copied + j)) ∧
      ∀ r ∈ classesOf m, bucketNow t r = bucketNow s r - k * 10 ^ 9) ∧
  ∀ cls s, let x := regionOf s cls
    let ends := x.stalled = true ∧ s.jfull = false ∧ x.lastWait + 100000 ≤ s.time ∧ ∀ m ∈ waitMasks s, bitAt m cls = false
    (¬ ends → exec (.stallEpisodeEnd cls) s = .next s) ∧
    (ends → ∃ t, exec (.stallEpisodeEnd cls) s = .next t ∧ CoresKept s t ∧ journalled t = journalled s + 1 ∧ (regionOf t cls).stalled = false)

/-- Launches (05 R123; 10 R279; 15 R413, R416-R418): a record whose word breaks its rule is rejected with 0x83 and the word; an
accepted one becomes a launch with the next identifier, running at once where no tags wait, and its argument block is copied at once; tags go
to the oldest waiting run; a copy that had to wait is made later, or its fault kept; a team starts on the core chosen for it, with a context
number of its own, its threads at ENTRY and its first registers from the arguments; a launch that ends writes its signal and completes its command.

It says where these forms complete: `launch`, `teamPlace`, `routeTagGrant`, `argumentCopyComplete`, `launchComplete`. -/
def Obligations.LaunchLifecycle : Prop :=
  (∀ s tenant l k, (∀ j, j < k → recWordBad s tenant l j = false) → recWordBad s tenant l k = true → k < 7 →
    ∀ c bytes, launchOfBytes s c bytes = l → c.tenant = tenant → launchCheck s c bytes = .error ⟨0x83, [BitVec.ofNat 32 k]⟩) ∧
  (∀ slot s q p a r, Starts s slot q 1 → let c := ringCmd s q
    let s' := taken s q
    readPlace s' c (cAddr c 1) = .ok p → p.loc = .mem a → Local s' a →
    launchCheck s' c ((List.range 256).map (fun k => s'.byteAt (a + k))) = .error r → r.cause ≠ 0x85 →
    exec (.launch slot) s = .next (rejectCmd (s'.countRead a 256) q c r)) ∧
  (∀ slot s q p a l, Starts s slot q 1 → let c := ringCmd s q
    let s' := taken s q
    let n := s.front.nextLid
    readPlace s' c (cAddr c 1) = .ok p → p.loc = .mem a → Local s' a →
    launchCheck s' c ((List.range 256).map (fun k => s'.byteAt (a + k))) = .ok l → l.cap = 0 → injectWaits s = false → tagsNeeded l = 0 →
    s.front.routeWait = [] →
    ∃ t, exec (.launch slot) s = .next t ∧ CoresKept s t ∧ t.mem = s'.mem ∧
      t.la n = { l with
        queue := q, st := .running, tagsGiven := true, args := (t.la n).args, argsDone := (t.la n).argsDone
        argsPoison := (t.la n).argsPoison, argsFault := (t.la n).argsFault, argBuf := (t.la n).argBuf, edges := (t.la n).edges, reads := (t.la n).reads } ∧
      (l.argSize = 0 → (t.la n).argsDone = true ∧ (t.la n).args = [] ∧ (t.la n).argsFault = none) ∧
      (∀ p b, 0 < l.argSize → l.argAddr % 2 ^ 16 + l.argSize ≤ 2 ^ 16 → t.translate Config.numCores n l.argAddr .read = .ok p → p.loc = .mem b →
        Local t b → plainCause l.argAddr = none → t.offVault l.argAddr p.loc = false → (t.la n).argsDone = true ∧ (t.la n).argsFault = none ∧
        (t.la n).args = (List.range l.argSize).map (fun k => t.byteAt (b + k))) ∧
      (∀ k, k ≠ n → t.la k = s.la k) ∧
      t.front.nextLid = (if (n + 1) % 2 ^ 32 = 0 then 1 else (n + 1) % 2 ^ 32)) ∧
  (∀ lid rest s, s.front.routeWait = lid :: rest → (s.la lid).st = .waiting →
    let n := tagsNeeded (s.la lid)
    (n ≤ s.front.routeFree → ∃ t, exec (.routeTagGrant lid) s = .next t ∧ CoresKept s t ∧ t.mem = s.mem ∧
      t.la lid = { s.la lid with st := .running, tagsGiven := true } ∧ t.front.routeFree = s.front.routeFree - n ∧
      lid ∉ t.front.routeWait) ∧
    (s.front.routeFree < n → exec (.routeTagGrant lid) s = .next s) ∧
    ∀ k, k ≠ lid → tagsNeeded (s.la k) ≠ 0 → exec (.routeTagGrant k) s = .next s) ∧
  (∀ lid s, let l := s.la lid
    (l.st = .waiting ∨ l.st = .running) → l.run ≠ 0 → l.argsDone = false → l.argBuf = [] → 0 < l.argSize → l.argAddr % 2 ^ 16 + l.argSize ≤ 2 ^ 16 →
    (∀ p a, s.translate Config.numCores lid l.argAddr .read = .ok p → p.loc = .mem a → Local s a → plainCause l.argAddr = none →
      s.offVault l.argAddr p.loc = false → ∃ t, exec (.argumentCopyComplete lid) s = .next t ∧ CoresKept s t ∧ t.mem = s.mem ∧
        t.la lid = { l with
          args := (List.range l.argSize).map (fun k => s.byteAt (a + k)), argsDone := true
          argsPoison := s.memPoison a (min l.argSize 256), argsFault := none, argBuf := (t.la lid).argBuf }) ∧
    ∀ c, (plainCause l.argAddr = some c ∨ plainCause l.argAddr = none ∧ s.translate Config.numCores lid l.argAddr .read = .error c) →
      ∃ t, exec (.argumentCopyComplete lid) s = .next t ∧ CoresKept s t ∧ t.mem = s.mem ∧
        t.la lid = { l with argsDone := true, argsFault := some (c, l.argAddr) }) ∧
  (∀ lid s core, let l := s.la lid
    let tag := freeTag s (2 ^ 16) s.front.nextTag
    l.st = .running → mayPlace s l = true → l.argsDone = true → l.nextTeam < l.numTeams → oldCommands s lid = false →
    stoppedTeams s l.queue = [] → (∀ e ∈ s.threads, ∀ k, e.2.park ≠ .firmware k) → l.paired = false → l.argsFault = none →
    l.argsPoison = false → 1 ≤ l.numWaves → l.numWaves ≤ 32 → 8 ≤ l.regs → coreFor s lid tag l.nextTeam (fun _ => true) = some core →
    (∀ e ∈ s.threads, tagOf e.1 ≠ tag) → (∀ e ∈ s.waves, tagW e.1 ≠ tag) →
    ∃ t, exec (.teamPlace lid) s = .next t ∧ t.vregs = s.vregs ∧ t.preds = s.preds ∧ t.stage = s.stage ∧
      (t.la lid).nextTeam = l.nextTeam + 1 ∧ t.front.nextTag = tag + 1 ∧ (t.tm tag).lid = lid ∧ (t.tm tag).index = l.nextTeam ∧
      (t.tm tag).core = core ∧ (t.tm tag).running = true ∧
      (∀ k, k < l.numWaves → (t.wv (tag * 32 + k)).core = core ∧ (t.wv (tag * 32 + k)).resident = true ∧
        (t.wv (tag * 32 + k)).regs = l.regs ∧
        (∀ i, i < min l.args.length 256 / 4 →
          t.sreg (tag * 32 + k) i = BitVec.ofNat 32 (leNat ((l.args.drop (4 * i)).take 4))) ∧
        ∀ x ∈ tidsOf (tag * 32 + k), (t.th x).pc = l.entry ∧ (t.th x).live = true ∧ (t.th x).park = .none ∧ (t.th x).rpc = l.entry ∧
          (t.th x).rsptr = (l.tlsOf l.nextTeam k (laneOf x) + l.rsOff) % 2 ^ 52) ∧
      ∀ x, tagOf x ≠ tag → t.th x = s.th x) ∧
  ∀ lid s c, let l := s.la lid
    let ends := l.st = .ending ∧ l.edges = [] ∧ launchBusy s lid = false
    (¬ ends → exec (.launchComplete lid) s = .next s) ∧
    (ends → l.cap = 0 → launchCmd s lid = some c → cEvt c = false → s.checker.regions = [] →
      (l.sigAddr = 0 → AMap.sorted s.front.slots = true → ∃ t, exec (.launchComplete lid) s = .next t ∧ CoresKept s t ∧ t.mem = s.mem ∧ t.la lid = { l with st := .done } ∧
        c ∉ qcmds t l.queue) ∧
      ∀ a, l.sigAddr ≠ 0 → bytePlaces s c 3 l.sigAddr 8 = .ok ((List.range 8).map (fun k => .mem (a + k))) → (∀ k, k < 8 → Local s (a + k)) →
        ∃ t, exec (.launchComplete lid) s = .next t ∧ CoresKept s t ∧ BytesKept s t a 8 ∧ t.rdMem a 8 = l.sigVal.toNat ∧
          t.la lid = { l with st := .done })

namespace Sys2Proof.Claims

open Sys2Proof Sys2Proof.Machine Sys2Proof.Machine.State

/-- What the host registers that are written only before the first mapping keep of a value (15 Table 15.10). -/
def ringReg (off : Nat) (v : DWord) : Option DWord :=
  match off with
  | 0x050 | 0x060 | 0x070 | 0x090 => some (v &&& 0xFFFFFFFFFFFC0)
  | 0x058 => some (v &&& 0x1FFFF)
  | 0x068 | 0x098 => some (v &&& 0x1F)
  | 0x0B0 => some (v &&& 0xFFFFFFF000000000)
  | _ => none

/-- What the power manager's host registers keep of a value (17 Table 17.3). -/
def powerReg (off : Nat) (v : DWord) : Option DWord :=
  match off with
  | 0x100 => some (v &&& 0xFFFFFFFFFFFC0)
  | 0x108 => some (v &&& 0x11F)
  | 0x110 => some (v &&& 0xFFFFFFFF)
  | _ => none

/-- No event is held anywhere. -/
def NoEvents (s : State) : Prop := s.front.events = [] ∧ ∀ e ∈ s.dies, e.2.events = []

/-- No launch is to end as soon as its event is posted (15 R422). -/
def NoStops (s : State) : Prop := ∀ l ∈ s.launches, l.2.stopDue = false

/-- No unit waits for the journal to be retired, and no retired die is still in service (16 R436, R439). -/
def NothingDue (s : State) : Prop :=
  (∀ e ∈ s.checker.attrib, e.2.length < 3) ∧ ∀ d ∈ s.dies, d.2.retired = false ∨ d.2.online = false

end Sys2Proof.Claims

/-- The host's side of the front die (15 R410-R412, R420-R424; 16 R436-R438): a notify write posts WIDX; the scan maps the pending
queue of the highest priority, round-robin, on the first free slot, its pending bit set as long as it has work; a slice ends by unmapping an
idle queue or, with a slot free or none waiting, by a new slice; HEAD frees the ring and what stalled for it; FEATACC takes published bits
while nothing is mapped; ring registers are fixed at the first mapping; a 32-bit write changes its half of a register; the rings are
acknowledged; a checkpoint is written to its slot and journalled.

It says where these forms complete: `notifyWrite`, `pendingScan`, `timeSliceEnd`, `eqheadWrite`, `feataccWrite`,
`hostRegisterWrite`, `journalAck`, `faultRecordAck`, `checkpointRequest`, `journalCheckpoint`. -/
def Obligations.HostEvents : Prop :=
  (∀ q w s, (hasQueue s q = false → exec (.notifyWrite q w) s = .next s) ∧
    (hasQueue s q = true → ∃ t, exec (.notifyWrite q w) s = .next t ∧ CoresKept s t ∧ BytesKept s t (descAddr s q) 64 ∧
      dWidx (desc t q) = w.toNat ∧ dRidx (desc t q) = dRidx (desc s q) ∧ dState (desc t q) = dState (desc s q) ∧
      dBase (desc t q) = dBase (desc s q) ∧
      t.front.pending.get false q = (s.front.pending.get false q || decide (dRidx (desc s q) ≠ w.toNat)))) ∧
  (∀ s q, scanPick s = some q → q ∈ candidates s ∧ (∀ c ∈ candidates s, prioOf s c ≤ prioOf s q) ∧
    ∀ c ∈ candidates s, prioOf s c = prioOf s q → match AMap.find? s.front.lastMapped (prioOf s q) with
      | some last => (last < c → last < q ∧ q ≤ c) ∧ (q ≤ last → q ≤ c)
      | none => q ≤ c) ∧
  (∀ s, (mayMap s = false ∨ candidates s = [] ∨ ∀ k, k < 64 → (AMap.find? s.front.slots k).isSome = true) →
    exec .pendingScan s = .next s) ∧
  (∀ s q k, mayMap s = true → s.front.featNew = false → s.front.everMapped = true → s.checker.jwait = [] → s.checker.fwait = [] →
    s.teams = [] → scanPick s = some q → k < 64 → AMap.find? s.front.slots k = none →
    (∀ j, j < k → (AMap.find? s.front.slots j).isSome = true) →
    (dBad (desc s q) = true → ∃ t, exec .pendingScan s = .next t ∧ CoresKept s t ∧ BytesKept s t (descAddr s q) 64 ∧
      dState (desc t q) = 2 ∧ t.front.slots = s.front.slots ∧ t.front.pending.get false q = true) ∧
    (dBad (desc s q) = false → ∃ t, exec .pendingScan s = .next t ∧ CoresKept s t ∧ BytesKept s t (descAddr s q) 64 ∧
      dState (desc t q) = 1 ∧ t.front.pending.get false q = true ∧
      AMap.find? t.front.slots k = some {
        queue := q, sliceEnd := s.time + s.front.slice * 1000, since := s.time, cmds := s.front.orphans.get [] q } ∧
      (∀ j, j ≠ k → AMap.find? t.front.slots j = AMap.find? s.front.slots j) ∧
      (tenantOf t (dTenant (desc s q))).eff = (tenantOf s (dTenant (desc s q))).bits)) ∧
  (∀ slot s x, AMap.find? s.front.slots slot = some x →
    (s.time < x.sliceEnd → exec (.timeSliceEnd slot) s = .next s) ∧
    (x.sliceEnd ≤ s.time → dWidx (desc s x.queue) = dRidx (desc s x.queue) → liveCmds s x.queue = [] → s.teams = [] →
      AMap.sorted s.front.slots = true → (∀ e ∈ s.front.slots, e.2.queue = x.queue → e.1 = slot) →
      ∃ t, exec (.timeSliceEnd slot) s = .next t ∧ CoresKept s t ∧ BytesKept s t (descAddr s x.queue) 64 ∧
        dState (desc t x.queue) = 0 ∧ t.front.pending.get false x.queue = false ∧ AMap.find? t.front.slots slot = none ∧
        ∀ j, j ≠ slot → AMap.find? t.front.slots j = AMap.find? s.front.slots j) ∧
    (x.sliceEnd ≤ s.time → dWidx (desc s x.queue) ≠ dRidx (desc s x.queue) → (candidates s = [] ∨ s.front.slots.length < 64) →
      ∃ t, exec (.timeSliceEnd slot) s = .next t ∧ CoresKept s t ∧ t.mem = s.mem ∧
        AMap.find? t.front.slots slot = some { x with sliceEnd := s.time + s.front.slice * 1000 } ∧
        ∀ j, j ≠ slot → AMap.find? t.front.slots j = AMap.find? s.front.slots j)) ∧
  (∀ v s, NoEvents s → NoStops s → ∃ t, exec (.eqheadWrite v) s = .next t ∧ CoresKept s { t with teams := s.teams } ∧ t.mem = s.mem ∧
    t.front.eqhead = v ∧ t.front.eqtail = s.front.eqtail ∧ (∀ g, t.tm g = { s.tm g with ring := (t.tm g).ring }) ∧
    ∀ x, ((s.th x).park = .ring → s.recordFull = false → t.th x = { s.th x with park := .none } ∧ (t.tm (tagOf x)).ring = false) ∧
      ((s.th x).park ≠ .ring ∨ s.recordFull = true → t.th x = s.th x)) ∧
  (∀ v s e, s.front.events = [e] → (∀ e ∈ s.dies, e.2.events = []) → NoStops s → s.ringOk = true → (s.front.eqtail - v).toNat < 2 ^ s.front.eqk - 1 →
    e.2.length = 16 →
    let a := s.localPa (s.front.eqbase + 64 * (s.front.eqtail.toNat % 2 ^ s.front.eqk))
    ∃ t, exec (.eqheadWrite v) s = .next t ∧ CoresKept s { t with teams := s.teams } ∧ BytesKept s t a 64 ∧ t.front.eqtail = s.front.eqtail + 1 ∧
      t.front.events = [] ∧ ∀ k, k < 16 → t.rdMem (a + 4 * k) 4 = (e.2.getD k 0).toNat) ∧
  (∀ (n : BitVec 2) v s, (s.front.slots ≠ [] → exec (.feataccWrite n v) s = .next s) ∧
    (s.front.slots = [] → ∃ t, exec (.feataccWrite n v) s = .next t ∧ CoresKept s t ∧ t.mem = s.mem ∧ t.front.slots = [] ∧
      ∀ j, bitAt t.front.feataccLo j = (decide (j < 10) &&
        if 32 * n.toNat ≤ j ∧ j < 32 * n.toNat + 32 then v.getLsbD (j - 32 * n.toNat) else bitAt s.front.feataccLo j))) ∧
  (∀ off v x s, ringReg off v = some x →
    (s.front.everMapped = true → exec (.hostRegisterWrite off (.dword v)) s = .next s) ∧
    (s.front.everMapped = false → ∃ t, exec (.hostRegisterWrite off (.dword v)) s = .next t ∧ CoresKept s t ∧ t.mem = s.mem ∧
      readHostReg t off = x ∧ ∀ o, o ≠ off → readHostReg t o = readHostReg s o)) ∧
  (∀ off v x s, powerReg off v = some x → ∃ t, exec (.hostRegisterWrite off (.dword v)) s = .next t ∧ CoresKept s t ∧ t.mem = s.mem ∧
    readHostReg t off = x ∧ ∀ o, o ≠ off → readHostReg t o = readHostReg s o) ∧
  (∀ (v : DWord) s, let n := (v &&& 0x1FFFF).toNat
    ((n < 100 ∨ 100000 < n) → exec (.hostRegisterWrite 0x048 (.dword v)) s = .next s) ∧
    (100 ≤ n → n ≤ 100000 → exec (.hostRegisterWrite 0x048 (.dword v)) s = .next { s with front := { s.front with slice := n } })) ∧
  (∀ off v s, ringReg off v = none → powerReg off v = none →
    off ∉ [0x010, 0x018, 0x020, 0x028, 0x030, 0x048, 0x080, 0x088, 0x0A8] → exec (.hostRegisterWrite off (.dword v)) s = .next s) ∧
  (∀ off (w : Word) s, off % 8 = 0 → ¬ (0x010 ≤ off ∧ off < 0x020) → let x := readHostReg s off
    exec (.hostRegisterWrite off (.word w)) s = exec (.hostRegisterWrite off (.dword (x.extractLsb' 32 32 ++ w))) s ∧
    exec (.hostRegisterWrite (off + 4) (.word w)) s = exec (.hostRegisterWrite off (.dword (w ++ x.extractLsb' 0 32))) s) ∧
  (∀ (n : BitVec 2) (w : Word) s, exec (.hostRegisterWrite (0x010 + 4 * n.toNat) (.word w)) s = exec (.feataccWrite n w) s) ∧
  (∀ n s, let c := s.checker
    ((n < c.jrseq ∨ c.jwseq < n) → exec (.journalAck n) s = .next s) ∧
    (c.jrseq ≤ n → n ≤ c.jwseq → c.jwait = [] → NothingDue s → exec (.journalAck n) s = .next { s with checker := { c with jrseq := n } }) ∧
    (∀ e, c.jrseq ≤ n → n ≤ c.jwseq → c.jwait = [e] → c.ckptDue = 0 → NothingDue s → s.jringOk = true → c.jwseq - n < 2 ^ s.front.jlogn →
      ∃ t, exec (.journalAck n) s = .next t ∧ CoresKept s t ∧ t.checker.jrseq = n ∧ t.checker.jwait = [] ∧ t.checker.jwseq = c.jwseq + 1 ∧
        BytesKept s t (s.localPa (s.front.jbase + 64 * (c.jwseq % 2 ^ s.front.jlogn))) 64) ∧
    ((n < c.frridx ∨ c.frwidx < n) → exec (.faultRecordAck n) s = .next s) ∧
    (c.frridx ≤ n → n ≤ c.frwidx → c.fwait = [] → NoEvents s → NoStops s → (∀ x ∈ s.threads, x.2.park ≠ .ring) → exec (.faultRecordAck n) s = .next { s with checker := { c with frridx := n } })) ∧
  (∀ v s, exec (.checkpointRequest v) s =
    .next (if v.getLsbD 0 then { s with checker := { s.checker with ckptDue := s.checker.ckptDue + 1 } } else s)) ∧
  ∀ s, let c := s.checker
    ((c.ckptDue = 0 ∨ s.jringOk = false ∨ s.jfull = true) → exec .journalCheckpoint s = .next s) ∧
    let slot := s.localPa (s.front.jckbase + 8192 * (c.checkpoints % 16))
    (0 < c.ckptDue → s.jringOk = true → s.jfull = false → c.jwait = [] →
      Disjoint slot 8192 (s.localPa (s.front.jbase + 64 * (c.jwseq % 2 ^ s.front.jlogn))) 64 →
      ∃ t, exec .journalCheckpoint s = .next t ∧ CoresKept s t ∧ t.checker.checkpoints = c.checkpoints + 1 ∧
        t.checker.jwseq = c.jwseq + 1 ∧ t.rdMem slot 8 = (c.jwseq - 1) % 2 ^ 64 ∧ t.rdMem (slot + 72) 8 = s.time % 2 ^ 64)

namespace Sys2Proof.Claims

open Sys2Proof Sys2Proof.Machine Sys2Proof.Machine.State

/-- A measurement slot extended by a digest (16 R426). -/
def extended (m d : BitVec 512) : BitVec 512 := sha3 (leBytes 64 m.toNat ++ leBytes 64 d.toNat)

/-- A response of SPDM (16 R427) as DSP0274 lays it out: version, code and parameters, and what Config leaves open (log 101). -/
def spdmFree (s : State) (code p2 : Nat) (nonce : BitVec 256) : List Byte :=
  [0x13, BitVec.ofNat 8 code, 0, BitVec.ofNat 8 p2] ++ Config.spdmBody code s.checker.ms nonce

/-- Measurement block `k`: index, DMTF format, size, type, size of the digest, and the slot's SHA3-512 digest (16 R427). -/
def dmtfBlock (s : State) (k : Nat) : List Byte :=
  [BitVec.ofNat 8 k, 1] ++ leBytes 2 67 ++ [Config.measType k] ++ leBytes 2 64 ++ leBytes 64 (s.checker.ms.getD (k - 1) 0).toNat

/-- The answer to `GET_MEASUREMENTS`: the number of blocks for index 0, one block, or all eight for 255 (log 101). -/
def measured (s : State) (k : Nat) : List Byte :=
  if k = 0 then [0x13, 0x60, 8, 0] ++ [0] ++ leBytes 3 0
  else if k = 255 then [0x13, 0x60, 0, 0] ++ [8] ++ leBytes 3 (8 * 71) ++ ([1, 2, 3, 4, 5, 6, 7, 8].flatMap (dmtfBlock s))
  else [0x13, 0x60, 0, 0] ++ [1] ++ leBytes 3 71 ++ dmtfBlock s k

/-- The requests of SPDM (16 R427): whether a package that failed to boot answers them, whether they are well formed, the answer,
and the session behind it: it opens with a key exchange on a booted package, and `FINISH` needs it and ends it. The codes and
layouts, and the bodies that Config leaves open, are the model's (logs 34 and 101). -/
def spdmForm (s : State) : Instr → Option (Bool × Bool × Nat × List Byte × Bool)
  | .getVersion => some (true, true, 0x04, spdmFree s 0x04 0 0, s.checker.session)
  | .getCapabilities => some (true, true, 0x61, spdmFree s 0x61 0 0, s.checker.session)
  | .negotiateAlgorithms => some (false, true, 0x63,
      [0x13, 0x63, 0, 0] ++ leBytes 2 40 ++ [1, 0] ++ leBytes 4 0x40 ++ leBytes 4 0 ++ leBytes 4 0x20 ++ List.replicate 12 0 ++
      [1, 0, 0, 0] ++ leBytes 4 Config.extAsym.toNat, s.checker.session)
  | .getDigests => some (false, true, 0x01, spdmFree s 0x01 1 0, s.checker.session)
  | .getCertificate k => some (false, k == 0, 0x02, spdmFree s 0x02 0 0, s.checker.session)
  | .challenge q => some (false, q.certSlot == 0, 0x03, spdmFree s 0x03 1 q.nonce, s.checker.session)
  | .getMeasurements k => some (false, decide (k ≤ 8) || k == 255, 0x60, measured s k, s.checker.session)
  | .keyExchange q => some (false, q.certSlot == 0, 0x64, spdmFree s 0x64 0 q.nonce,
      s.checker.session || (s.checker.booted && q.certSlot == 0))
  | .finish => some (false, s.checker.session, 0x65, spdmFree s 0x65 0 0, false)
  | _ => none

/-- Objects that a boot passes: in the order of Table 16.1, verified, and of at least the fused security version (16 R426). -/
def Passes (objs : List BootObject) : Prop :=
  objs.map BootObject.slot = ([0, 1, 2] ++ List.replicate 16 3).take objs.length ∧
  ∀ o ∈ objs, o.verified = true ∧ Config.minVersion o.slot ≤ o.version

/-- The checker serves its mailbox: the package has booted, and the journal has room (16 R426, R436). -/
def Serving (s : State) : Prop := s.checker.booted = true ∧ s.checker.bootFailed = false ∧ s.jfull = false

/-- The regions that a capability header names, its bytes 24 to 27 that are not 0 (16 Table 16.2). -/
def namedIn (c : BitVec 512) : List Nat := ([0, 1, 2, 3].map (fun k => (c.extractLsb' (192 + 8 * k) 8).toNat)).filter (fun r => r != 0)

/-- Everything but the checker, the journal's writes to memory and the waiters that see them is as before. -/
def TrustKept (s t : State) : Prop := CoresKept s t ∧ t.front = s.front ∧ t.launches = s.launches ∧ t.power = s.power ∧ t.dies = s.dies

/-- A domain key is new: the counters of every member start again on every port, and a coordinator has the key encapsulated for
each member (16 R435). -/
def Rekeyed (s t : State) : Prop :=
  t.checker.keyGen = s.checker.keyGen + 1 ∧ t.checker.keySince = s.time ∧
  (∀ p, (peerOf t p).inCtr = [] ∧ (peerOf t p).outCtr = []) ∧
  (coordinates s = true → ∀ p, (peerOf t p).mark = .member →
    (peerOf t p).keyCt = Config.encapsulate p (Config.domainKey t.checker.keyGen))

/-- The link counters are far from the end of their range. -/
def CountersLow (s : State) (g : FlitGroup) : Prop :=
  g.counter + 4 < 2 ^ 78 ∧ ∀ e ∈ s.checker.peers, ∀ c ∈ e.2.inCtr ++ e.2.outCtr, c.2 + 4 < 2 ^ 78

end Sys2Proof.Claims

/-- The checker's mailbox and links (13 R355; 16 R426-R435): the injection register keeps its bits but the reserved ones; boot
extends a slot for each object and stops at the first that fails; SPDM requests are answered after a boot, with a signature; sealed
regions go from EMPTY through IMPORTING to READY and REVOKED, each step journalled; capabilities are issued with reserved bits
zero; the domain admits packages of the same measurements, and every change replaces its key; groups whose tag fails are only
counted, writes, atomics and credits reach memory but not the host window, refused reads are journalled, answers complete their
access.

It says where these forms complete: `witnessFaultInjectionWrite`, `powerOn`, `getVersion`, `getCapabilities`,
`negotiateAlgorithms`, `getDigests`, `getCertificate`, `challenge`, `getMeasurements`, `keyExchange`, `finish`,
`sealedRegionImport`, `importChunk`, `regionRevoke`, `capabilityIssue`, `domainAdmit`, `domainKeyReplacement`, `oldKeyExpiry`,
`domainLeave`, `linkFlitGroupReceive`. -/
def Obligations.TrustEvents : Prop :=
  (∀ x s, (s.jfull = true → exec (.witnessFaultInjectionWrite x) s = .next s) ∧
    (s.jfull = false → ∃ t, exec (.witnessFaultInjectionWrite x) s = .next t ∧ TrustKept s t ∧ journalled t = journalled s + 1 ∧
      t.checker.injected = false ∧ ∀ j, t.checker.inject.getLsbD j = (x.getLsbD j && !(decide (27 ≤ j) && decide (j ≤ 42))))) ∧
  (∀ s (objs : List BootObject), ((s.checker.booted = true ∨ s.checker.bootFailed = true) → exec (.powerOn objs) s = .next s) ∧
    (s.checker.booted = false → s.checker.bootFailed = false →
      let slots (good : List BootObject) : List (BitVec 512) :=
        good.foldl (fun ms o => ms.set o.slot (extended (ms.getD o.slot 0) o.digest)) s.checker.ms
      (Passes objs → objs.length = 19 →
        ∃ t, exec (.powerOn objs) s = .next t ∧ TrustKept s t ∧ t.checker.booted = true ∧ t.checker.bootFailed = false ∧
          journalled t = journalled s + 19 ∧ t.checker.ms = slots objs ∧ ∀ o r, objs = o :: r → t.checker.secVer = o.version) ∧
      ∀ good rest, objs = good ++ rest → Passes good →
        (rest = [] ∧ good.length < 19 ∨ ∃ o r, rest = o :: r ∧ ¬ Passes (good ++ [o])) →
        ∃ t, exec (.powerOn objs) s = .next t ∧ TrustKept s t ∧ t.checker.booted = false ∧ t.checker.bootFailed = true ∧
          journalled t = journalled s + good.length ∧ t.checker.ms = slots good)) ∧
  (∀ i s always ok code body se, spdmForm s i = some (always, ok, code, body, se) →
    let u : State := { s with checker := { s.checker with session := se } }
    (s.checker.booted = false → s.checker.bootFailed = false → exec i s = .next u) ∧
    ((s.checker.booted = true ∨ s.checker.bootFailed = true ∧ always = true) → ok = true →
      exec i s = .next { u with checker := { u.checker with responses := s.checker.responses ++ [(code, body ++ signBy s body)] } }) ∧
    ((s.checker.booted = true ∧ ok = false ∨ s.checker.booted = false ∧ s.checker.bootFailed = true ∧ (ok = false ∨ always = false)) →
      ∃ b, exec i s = .next { u with checker := { u.checker with responses := s.checker.responses ++ [(0x7F, b)] } })) ∧
  (∀ r s, let ok := Serving s ∧ r.signer = some r.ownerKeyHash ∧ 1 ≤ r.region ∧ r.region ≤ 255 ∧ (regionOf s r.region).st = 0 ∧
      r.pages ≠ 0 ∧ r.frames.length = r.pages ∧ r.kem.length = 1568
    (¬ ok → exec (.sealedRegionImport r) s = .next s) ∧
    (ok → ∃ t, exec (.sealedRegionImport r) s = .next t ∧ TrustKept s t ∧ journalled t = journalled s + 1 ∧
      regionOf t r.region = { st := 1, size := r.pages, rate := r.rate, burst := r.burst, owner := r.ownerKeyHash, frames := r.frames
                              key := Config.decapsulate (kemKey s) r.kem } ∧
      ∀ k, k ≠ r.region → regionOf t k = regionOf s k)) ∧
  (∀ r ing (hi lo : DWord) s, let x := regionOf s r
    let i := Instr.importChunk r ing hi lo
    let a := s.localPa (ing * 2 ^ 16)
    let opened := Config.gcmOpen x.key x.chunks ((List.range (2 ^ 16)).map (fun k => s.byteAt (a + k))) (hi ++ lo)
    ((¬ Serving s ∨ x.st ≠ 1 ∨ (s.waitOf (.mem a)).isSome = true) → exec i s = .next s) ∧
    (Serving s → x.st = 1 → s.waitOf (.mem a) = none → opened = none → ∃ t, exec i s = .next t ∧ TrustKept s t ∧
      journalled t = journalled s + 1 ∧ regionOf t r = {} ∧
      t.msys.quarantine = s.msys.quarantine ++ x.frames.map (fun f => (f, s.msys.stamp)) ∧ ∀ f ∈ x.frames, t.msys.classes.get 0 f = 0) ∧
    (∀ plain, Serving s → x.st = 1 → s.waitOf (.mem a) = none → opened = some plain → let f := x.frames.getD x.chunks 0
      (x.chunks + 1 < x.size → Disjoint (f * 2 ^ 16) (2 ^ 16) a (2 ^ 16) →
        ∃ t, exec i s = .next t ∧ TrustKept s t ∧ regionOf t r = { x with chunks := x.chunks + 1 } ∧
          (∀ k, k < 2 ^ 16 → t.byteAt (f * 2 ^ 16 + k) = (sealChunk x r f plain).getD k 0 ∧ t.byteAt (a + k) = 0) ∧
          ∀ b, Disjoint b 1 (f * 2 ^ 16) (2 ^ 16) → Disjoint b 1 a (2 ^ 16) → t.byteAt b = s.byteAt b) ∧
      (x.size ≤ x.chunks + 1 → ∃ t, exec i s = .next t ∧ TrustKept s t ∧ journalled t = journalled s + 1 ∧
        regionOf t r = { x with chunks := x.chunks + 1, st := 2, level := x.burst * 10 ^ 9, levelAt := s.time }))) ∧
  (∀ r signer s, let x := regionOf s r
    let ok := Serving s ∧ signer = some x.owner ∧ (x.st = 1 ∨ x.st = 2)
    (¬ ok → exec (.regionRevoke r signer) s = .next s) ∧
    (ok → ∃ t, exec (.regionRevoke r signer) s = .next t ∧ TrustKept s t ∧ journalled t = journalled s + 1 ∧ (regionOf t r).st = 3)) ∧
  (∀ c signers s, let ok := namedIn c ≠ [] ∧ ∀ r ∈ namedIn c, ((regionOf s r).st = 1 ∨ (regionOf s r).st = 2) ∧ (regionOf s r).owner ∈ signers
    (¬ Serving s → exec (.capabilityIssue c signers) s = .next s) ∧
    (Serving s → ∃ t, exec (.capabilityIssue c signers) s = .next t ∧ TrustKept s t ∧ journalled t = journalled s + 1 ∧
      (¬ ok → t.checker.responses = s.checker.responses) ∧
      (ok → ∃ h : BitVec 512, t.checker.responses = s.checker.responses ++
          [(0x100, leBytes 64 h.toNat ++ signBy s (leBytes 64 h.toNat))] ∧
        ∀ j, j < 512 → h.getLsbD j = (c.getLsbD j && !(decide (j < 64) || (decide (128 ≤ j) && decide (j ≤ 183))))))) ∧
  (∀ (p : BitVec 12) (x : PeerProof) s, let ok := s.jfull = false ∧ s.checker.booted = true ∧ p.toNat ≠ s.pkg ∧ p.toNat < 3072 ∧
      (peerOf s p.toNat).mark ≠ .member ∧ x.authentic = true ∧ x.ms.take 4 = s.checker.ms.take 4
    (¬ ok → exec (.domainAdmit p x) s = .next s) ∧
    (ok → ∃ t, exec (.domainAdmit p x) s = .next t ∧ TrustKept s t ∧ Rekeyed s t ∧ t.checker.oldKey = some s.checker.keyGen ∧
      (∀ k, (peerOf t k).mark = if k = p.toNat then .member else (peerOf s k).mark) ∧ journalled t = journalled s + 2)) ∧
  (∀ s, (s.jfull = true → exec .domainKeyReplacement s = .next s) ∧
    (s.jfull = false → ∃ t, exec .domainKeyReplacement s = .next t ∧ TrustKept s t ∧ Rekeyed s t ∧
      t.checker.oldKey = some s.checker.keyGen ∧ (∀ k, (peerOf t k).mark = (peerOf s k).mark) ∧ journalled t = journalled s + 1)) ∧
  (∀ s, ((s.checker.oldKey = none ∨ s.time < s.checker.keySince + 1000000) → exec .oldKeyExpiry s = .next s) ∧
    (s.checker.keySince + 1000000 ≤ s.time → exec .oldKeyExpiry s = .next { s with checker := { s.checker with oldKey := none } })) ∧
  (∀ (p : BitVec 12) s,
    ((s.jfull = true ∨ (p.toNat ≠ s.pkg ∧ (peerOf s p.toNat).mark ≠ .member)) → exec (.domainLeave p) s = .next s) ∧
    (s.jfull = false → p.toNat ≠ s.pkg → (peerOf s p.toNat).mark = .member → ∃ t, exec (.domainLeave p) s = .next t ∧ TrustKept s t ∧
      Rekeyed s t ∧ (∀ k, (peerOf t k).mark = if k = p.toNat then .outside else (peerOf s k).mark) ∧ journalled t = journalled s + 2) ∧
    (s.jfull = false → p.toNat = s.pkg → ∃ t, exec (.domainLeave p) s = .next t ∧ TrustKept s t ∧ Rekeyed s t ∧ t.checker.oldKey = none ∧
      (∀ k, (peerOf t k).mark = if (peerOf s k).mark = .member then .outside else (peerOf s k).mark) ∧ journalled t = journalled s + 2)) ∧
  ∀ g s, let p := g.sender.toNat
    let i := Instr.linkFlitGroupReceive g
    let member := (peerOf s p).mark = .member
    let mine := groupOk s g = true ∧ CountersLow s g ∧ p ≠ s.pkg ∧ (peerOf s p).mark ≠ .absent
    ((p = s.pkg ∨ (peerOf s p).mark = .absent) → exec i s = .next s) ∧
    (p ≠ s.pkg → (peerOf s p).mark ≠ .absent → groupOk s g = false → (s.jfull = false ∨ CountersLow s g) →
      ∃ t, exec i s = .next t ∧ TrustKept s t ∧ t.mem = s.mem ∧ t.msys = s.msys ∧
        peerOf t p = { peerOf s p with tagFails := (peerOf s p).tagFails + 1 }) ∧
    (∀ addr bytes poi, let a := s.localPa addr
      g.body = .write addr bytes poi → mine → bytes ≠ [] → a % 2 ^ 16 + bytes.length ≤ 2 ^ 16 →
      ((s.waitOf (.mem a)).isSome = true → exec i s = .next s) ∧
      (s.waitOf (.mem a) = none → linkOpen s a = false → ∃ t, exec i s = .next t ∧ TrustKept s t ∧ t.mem = s.mem) ∧
      (s.waitOf (.mem a) = none → linkOpen s a = true → ∃ t, exec i s = .next t ∧ TrustKept s t ∧ BytesKept s t a bytes.length ∧
        (∀ k, k < bytes.length → t.byteAt (a + k) = bytes.getD k 0) ∧
        t.msys.domOnly.get false (a / 2 ^ 16) = (decide member || s.msys.domOnly.get false (a / 2 ^ 16)))) ∧
    (∀ addr n, let a := s.localPa addr
      let bytes := (List.range n).map (fun k => s.byteAt (a + k))
      let cls := s.msys.classes.get 0 (a / 2 ^ 16)
      let dom := s.msys.domOnly.get false (a / 2 ^ 16)
      g.body = .read addr n → mine → 0 < n → a % 2 ^ 16 + n ≤ 2 ^ 16 →
      ((s.waitOf (.mem a)).isSome = true → exec i s = .next s) ∧
      (s.waitOf (.mem a) = none → s.isStaging (a / 2 ^ 16) = false →
        (member ∨ dom = false ∧ (cls = 0 ∨ s.jfull = false ∧ n ≤ roomFor s cls n)) →
        ∃ t, exec i s = .next t ∧ TrustKept s t ∧ t.mem = s.mem ∧
          t.msys.linkOut = s.msys.linkOut ++ [{ pkg := p, addr := addr, bytes := some bytes, poison := s.memPoison a n }] ∧
          (¬ member → ∀ r, r < 256 → bitAt cls r = true → (regionOf t r).level = bucketNow s r - n * 10 ^ 9)) ∧
      (s.waitOf (.mem a) = none → ¬ member → s.jfull = false →
        (s.isStaging (a / 2 ^ 16) = false ∧ dom = true ∨ s.isStaging (a / 2 ^ 16) = true ∧ releasedVersion s (a / 2 ^ 16) = none) →
        ∃ t, exec i s = .next t ∧ TrustKept s t ∧ t.msys.linkOut = s.msys.linkOut ++ [{ pkg := p, addr := addr, bytes := none }] ∧
          journalled t = journalled s + 1)) ∧
    (∀ addr data, let a := s.localPa addr
      g.body = .atom addr false 0 4 data → mine → a % 2 ^ 16 + 4 ≤ 2 ^ 16 →
      ((¬ member ∨ (s.waitOf (.mem a)).isSome = true) → exec i s = .next s) ∧
      (member → s.waitOf (.mem a) = none → linkOpen s a = true → ∃ t, exec i s = .next t ∧ TrustKept s t ∧ BytesKept s t a 4 ∧
        t.rdMem a 4 = (s.rdMem a 4 + (data.headD 0).toNat) % 2 ^ 32 ∧
        t.msys.linkOut = s.msys.linkOut ++ [{
          pkg := p, addr := addr, bytes := some (leBytes 4 (s.rdMem a 4)), poison := s.memPoison a 4 }])) ∧
    (∀ addr n, let a := s.localPa addr
      let l : Loc := .mem a
      g.body = .credit addr n → mine → member → s.waitOf l = none → linkOpen s a = true → a % 64 = 0 →
      ∃ t, exec i s = .next t ∧ TrustKept s t ∧ OutsideKept s t [(l, 8, 0), (l.add 12, 4, 0)] ∧
        field64 t l 0 = (field64 s l 0 + (BitVec.ofInt 64 (-(n : Int))).toNat) % 2 ^ 64 ∧
        field32 t l 12 = if 2 ^ 63 ≤ field64 t l 0 then field32 s l 12 ||| 3 else field32 s l 12 ||| 2) ∧
    ∀ id bytes vs tag c n l va, g.body = .response id bytes false vs → mine → NoMoves s →
      (∀ v ∈ vs, v.toNat / 2 ^ 16 % 8 ∈ [0, 3, 4]) →
      s.msys.tags.find? (fun t => t.id == id && t.pkg == p) = some tag → tag.acc.vres = some (c, n) → tag.acc.op = .load 4 false →
      tag.acc.pieces = [(l, 4, va)] → isFar s l = true → bytes.length = 4 →
      ∃ t, exec i s = .next t ∧ TrustKept s t ∧ t.mem = s.mem ∧ (∀ x ∈ t.msys.tags, x.id ≠ id) ∧
        t.vres = (s.fillVar c n [BitVec.ofNat 32 (leNat bytes)]).vres

/-- Watchdogs, snapshots, comparisons, the debugger and losses (14 R380, R387, R392-R396, R402-R407): pending recovery takes tags
out of their watchdog; a tag at its limit gives its thread trap 0x2A, after 2 s of recovery 0x2B; a mapped page sends the group to
its region entry; a snapshot holds registers and scratchpad; copies that match go on and copies that differ are counted and
recorded, the third time aborting; the debugger's requests need an attached debugger and are journalled; a lost die is out of
service, and ends an unchecked launch that has written outside there.

It says where these forms complete: `linkRecoveryPending`, `responseTimeout`, `remoteRecoveryTimeout`, `driverMapAnswer`,
`snapshotInterval`, `pairPointCompare`, `debuggerAttach`, `debuggerDetach`, `debuggerHalt`, `debuggerResume`, `debuggerStep`,
`traceConfig`, `dieFailure`, `linkFailure`. -/
def Obligations.ReliabilityAndDebug : Prop :=
  (∀ (p : BitVec 12) s,
    ((peerOf s p.toNat).mark ≠ .member → exec (.linkRecoveryPending p) s = .next s) ∧
    ((peerOf s p.toNat).mark = .member → ∃ t, exec (.linkRecoveryPending p) s = .next t ∧ CoresKept s t ∧ t.mem = s.mem ∧
      t.threads = s.threads ∧ (peerOf t p.toNat).recovering = true ∧ t.msys.tags = s.msys.tags.map (fun g =>
        if g.pkg = p.toNat ∧ g.recovery = false then { g with recovery := true, since := s.time } else g))) ∧
  (∀ id s g, s.msys.tags.find? (fun g => g.id == id) = some g →
    let x := g.acc.tid
    let off : State := { s with msys := { s.msys with tags := s.msys.tags.filter (fun x => x.id != g.id) } }
    let ti (code : Nat) : TrapInfo := { code := code, ad := BitVec.ofNat 64 g.addr, mask := laneMask [x], info := BitVec.ofNat 32 g.pkg }
    let fails (id code : Nat) : State :=
      (modCmd { s with msys := { s.msys with tags := s.msys.tags.filter (fun y => y.id != g.id && !(y.acc.core == g.acc.core &&
          (y.acc.op == .eng id || y.acc.op == .coll id))) } } g.acc.core id (fun c => { c with
        started := true, waiting := false, fault := some (code, g.pkg, g.addr) })).settleMoves
    let due (code : Nat) : State := match g.acc.op with
      | .eng id | .coll id => fails id code
      | .entry => (trapPush off g (ti code)).settleMoves
      | _ =>
        if (s.th x).park = .iter then (off.modThread x (fun y => { y with
          pendTrap := some (ti code), pendAsync := none, pendPc := some g.acc.pc })).settleMoves
        else (trapAlone off x (ti code) g.acc.pc (s.th x).pc none).settleMoves
    let limit := wdog s (s.launchOf g.acc.tid).tenant * 1000000
    ((g.recovery = true ∨ g.held = true ∨ s.time < g.since + limit) → exec (.responseTimeout id) s = .next s) ∧
    (g.recovery = false → g.held = false → g.since + limit ≤ s.time → exec (.responseTimeout id) s = .next (due 0x2A)) ∧
    ((g.recovery = false ∨ g.held = true ∨ s.time < g.since + 2000000000) → exec (.remoteRecoveryTimeout id) s = .next s) ∧
    (g.recovery = true → g.held = false → g.since + 2000000000 ≤ s.time → exec (.remoteRecoveryTimeout id) s = .next (due 0x2B))) ∧
  (∀ tag wave lane s code, let x := tidAt tag wave lane
    let xs := sameTrap s x
    let late (g : Tgt) : Bool := isCount g && xs.any (fun y => widOf y == tgtWid g)
    (s.th x).park = .firmware code →
    (code ≠ 0x10 → code ≠ 0x13 → ∀ m, exec (.driverMapAnswer tag wave lane m) s = .next s) ∧
    ((code = 0x10 ∨ code = 0x13) → x ∈ xs ∧
      ((s.th x).pendTrap.isSome = true → ∃ t, exec (.driverMapAnswer tag wave lane true) s = .next t ∧ SameData s t ∧ t.waves = s.waves ∧
        ∀ y, t.th y = if y ∈ xs then { s.th y with park := .none } else s.th y) ∧
      ((s.th x).pendTrap = none → (s.launchOf x).argsFault = none → ∃ t, exec (.driverMapAnswer tag wave lane true) s = .next t ∧
        SameData s t ∧ t.pend = s.pend.filter (fun w => !late w.tgt) ∧
        t.vres = s.vres.map (fun r => { r with writes := r.writes.filter (fun w => !late w.1) }) ∧
        (∀ y, y ∉ xs → t.th y = s.th y) ∧
        ∀ y ∈ xs, (t.th y).pc = (s.th y).trap.rpc % 2 ^ 52 ∧ (t.th y).park = .none ∧
          (t.th y).spilled = min (s.th y).spilled (s.th y).trap.rdep ∧ (t.wv (widOf y)).openRec = none ∧ (t.wv (widOf y)).held = []) ∧
      exec (.driverMapAnswer tag wave lane false) s = .next (s.abortTrap xs x (trapOf (s.th x)) (s.th x).trap (s.th x).pendAsync))) ∧
  (∀ tag s, let k := s.tm tag
    let l := s.la k.lid
    let ok := k.running = true ∧ k.fin = false ∧ l.snapBase ≠ 0 ∧
      ((∃ w ∈ s.teamWids tag, (s.wv w).snapWait = true) ∨ l.snapInt ≠ 0 ∧ k.snapAt + l.snapInt * 1000 ≤ s.time)
    (¬ ok → exec (.snapshotInterval tag) s = .next s) ∧
    (ok → s.snapReady tag = false → ∃ t, exec (.snapshotInterval tag) s = .next t ∧ SameData s t ∧ t.threads = s.threads ∧
      (t.tm tag).stopAt.isSome = true ∧ ∀ g, g ≠ tag → t.tm g = s.tm g) ∧
    (ok → s.snapReady tag = true → (∀ w ∈ s.pend, tgtTag w.tgt ≠ tag ∧ tagW w.wid ≠ tag) → ∃ t z, exec (.snapshotInterval tag) s = .next t ∧ SameData s t ∧
      (t.tm tag).snapNew = some z ∧ (t.tm tag).snapOld = k.snapNew ∧ (t.tm tag).extWrite = false ∧ (t.tm tag).snapAt = s.time ∧
      (t.tm tag).stopAt = none ∧ z.pending = k.pending ∧ (∀ w ∈ s.teamWids tag, (t.wv w).snapWait = false) ∧
      z.scratch = s.scratch.filter (fun e => e.1 / 2 ^ 20 == tag) ∧ z.loop = k.loop ∧ z.loopWave = k.loopWave ∧ z.threads.map (fun i => i.tid) = s.teamTids tag ∧
      (∀ i ∈ z.threads, i.vregs = s.vregs.filter (fun e => e.1 / 256 == i.tid) ∧ i.preds = s.preds.filter (fun e => e.1 / 16 == i.tid)) ∧
      (∀ x ∈ s.teamTids tag, (s.th x).park = .snap → (t.th x).park = .none) ∧ ∀ g, g ≠ tag → t.tm g = s.tm g)) ∧
  (∀ tag wave s, (s.tm tag).secondary = none → exec (.pairPointCompare tag wave) s = .next s) ∧
  (∀ tag tag2 wave s, (s.tm tag).secondary = some tag2 → tag2 ≠ tag → wave < 32 →
    let w1 := tag * 32 + wave
    let w2 := tag2 * 32 + wave
    let stand := (s.tm tag).running = true ∧ (s.tm tag2).running = true ∧ atPairPoint s w1 = true ∧ atPairPoint s w2 = true
    let meet := stand ∧ s.snapReady tag = true ∧ s.snapReady tag2 = true
    (¬ stand → exec (.pairPointCompare tag wave) s = .next s) ∧
    (stand → ¬ meet → ∃ t, exec (.pairPointCompare tag wave) s = .next t ∧ SameData s t ∧ t.threads = s.threads ∧
      (t.tm tag).stopAt.isSome = true ∧ (t.tm tag2).stopAt.isSome = true ∧ ∀ g, g ≠ tag → g ≠ tag2 → t.tm g = s.tm g) ∧
    (meet → signature s w1 = signature s w2 → (s.tm tag).heldStores = [] → (s.tm tag).fin = false → NoMoves s →
      ∃ t, exec (.pairPointCompare tag wave) s = .next t ∧ t.mem = s.mem ∧ t.scratch = s.scratch ∧ t.stage = s.stage ∧
        (t.wv w1).pairGo = true ∧ (t.wv w2).pairGo = true ∧ (t.wv w1).pairPoint = (s.wv w1).pairPoint + 1 ∧
        (t.wv w2).pairPoint = (s.wv w2).pairPoint + 1 ∧ (t.tm tag).mismatches = 0 ∧ (t.tm tag2).mismatches = 0 ∧
        ∀ r ∈ (t.tm tag).records, widOf r.1 ≠ w1) ∧
    (meet → signature s w1 ≠ signature s w2 → ∃ t, exec (.pairPointCompare tag wave) s = .next t ∧
      t.checker.frwidx + t.checker.fwait.length =
        s.checker.frwidx + s.checker.fwait.length + (if (s.tm tag).mismatches < 2 then 1 else 2) ∧
      ((s.tm tag).mismatches < 2 → (t.tm tag).mismatches = (s.tm tag).mismatches + 1 ∧ (t.tm tag2).mismatches = (s.tm tag).mismatches + 1) ∧
      (2 ≤ (s.tm tag).mismatches → (t.la (s.tm tag).lid).st = .aborted))) ∧
  (∀ die s, let d := s.di die
    ((s.jfull = true ∨ d.debugger = true ∨ 16 ≤ die) → exec (.debuggerAttach die) s = .next s) ∧
    (s.jfull = false → d.debugger = false → die < 16 → ∃ t, exec (.debuggerAttach die) s = .next t ∧ CoresKept s t ∧
      journalled t = journalled s + 1 ∧ ∀ k, t.di k = if k = die then { d with debugger := true } else s.di k) ∧
    ((s.jfull = true ∨ d.debugger = false) → exec (.debuggerDetach die) s = .next s) ∧
    (s.jfull = false → d.debugger = true → ∃ t, exec (.debuggerDetach die) s = .next t ∧ CoresKept s t ∧
      journalled t = journalled s + 1 ∧ ∀ k, t.di k = if k = die then { d with debugger := false, traceCores := [] } else s.di k) ∧
    ((s.jfull = true ∨ d.debugger = false ∨ d.halted = true) → exec (.debuggerHalt die) s = .next s) ∧
    (s.jfull = false → d.debugger = true → d.halted = false → ∃ t, exec (.debuggerHalt die) s = .next t ∧ CoresKept s t ∧
      journalled t = journalled s + 1 ∧ (∀ k, t.di k = if k = die then { d with halted := true, step := none } else s.di k) ∧
      t.msys.tags = s.msys.tags.map (fun g => if dieOf g.acc.core = die then { g with held := true } else g)) ∧
    ((s.jfull = true ∨ d.debugger = false ∨ d.halted = false) → exec (.debuggerResume die) s = .next s) ∧
    (s.jfull = false → d.debugger = true → d.halted = true → (∀ l ∈ s.launches, l.2.rtags = []) →
      ∃ t, exec (.debuggerResume die) s = .next t ∧ CoresKept s t ∧ journalled t = journalled s + 1 ∧
        (∀ k, t.di k = if k = die then { d with halted := false, step := none } else s.di k) ∧
        (∀ x n, (s.th x).park = .brk n → dieOf (s.coreOf x) = die → (t.th x).park = .none ∧ (t.th x).pc = ((s.th x).pc + n) % 2 ^ 52) ∧
        t.msys.tags = s.msys.tags.map (fun g =>
          if g.held = true ∧ g.acc.op ≠ .bbwait ∧ dieOf g.acc.core = die then { g with held := false, since := s.time } else g)) ∧
    (∀ cores l k, d.debugger = false → exec (.traceConfig die cores l k) s = .next s) ∧
    ∀ cores l k, d.debugger = true → ∃ t, exec (.traceConfig die cores l k) s = .next t ∧ CoresKept s t ∧ t.mem = s.mem ∧
      t.threads = s.threads ∧ ∀ j, t.di j =
        if j = die then { d with traceCores := cores.filter (fun c => dieOf c == die), traceLid := l, traceSlot := k } else s.di j) ∧
  (∀ core slot s w, (s.co core).slots.find? slot = some w →
    let d := s.di (dieOf core)
    let ok := d.debugger = true ∧ d.halted = true ∧ d.step = none ∧ (s.la (s.tm (tagW w)).lid).debug = true
    (¬ ok → exec (.debuggerStep core slot) s = .next s) ∧
    (ok → ∃ t, exec (.debuggerStep core slot) s = .next t ∧ CoresKept s t ∧ t.mem = s.mem ∧ t.agenda = .run core :: s.agenda ∧
      (t.di (dieOf core)).step = some (core, w, false) ∧ (t.di (dieOf core)).stepInfo = 0 ∧
      ∀ x, t.th x = match (s.th x).park with
        | .brk n => if x ∈ tidsOf w ∧ (s.th x).live = true then
            { s.th x with park := .none, pc := ((s.th x).pc + n) % 2 ^ 52, inTable := false } else s.th x
        | _ => s.th x)) ∧
  ∀ i die s, (i = .linkFailure die ∨ ∃ r, i = .dieFailure die r) →
    (((s.di die).lost = true ∨ 16 ≤ die) → exec i s = .next s) ∧
    ((s.di die).lost = false → die < 16 → ∃ t, exec i s = .next t ∧ (t.di die).lost = true ∧ (t.di die).online = false ∧
      ((∀ e ∈ s.teams, e.2.secondary = none ∧ e.2.isSecond = false) → i ≠ .dieFailure die true →
        ∀ g ∈ s.dieTeams die, (s.la (s.tm g).lid).stagingOnly = false → (s.tm g).extWrite = true → (t.la (s.tm g).lid).st = .aborted))

/-- The power manager (17 R443-R457). A voltage step that ends moves the voltage by one point and a clock switch that ends sets
the clock, and the transition goes on: a lower clock before a lower voltage, a higher voltage before a higher clock, and no
falling step while falls are deferred; nothing else moves. A sample publishes each active cluster's memory-wait and issue
shares, and moves a pool of one cluster whose transition is over, neither throttled nor rising, by its class's rule. A current
estimate is kept; fillers run only on the units that may run them, and none runs when the current falls by no more than 400 A.
A sensor reading of a pair is kept: from 420 on it throttles the pools of its hot sides, whose point comes down to their
class's floor where no emergency is read; in an emergency, a reading of 460 or, above 380, a difference of 80, the die of the
hotter side, or of two equal ones the lower, is out of service; a difference of 56 steers a pair that is not steered; a cool
reading with a small difference changes neither threads, waves, memory nor pools.

It says where these forms complete: `sensorReading`, `poolSample`, `voltageStepComplete`, `clockSwitchComplete`,
`currentEstimate`. -/
def Obligations.PowerEvents : Prop :=
  (∀ k s, let c := s.cl k
    let done := c.since + 5000 ≤ s.time
    let rising := c.phase = 1 ∧ done
    let falling := c.phase = 3 ∧ s.power.deferred = false ∧ done
    (¬ rising → ¬ falling → exec (.voltageStepComplete k) s = .next s) ∧
    (rising ∨ falling → ∃ t, exec (.voltageStepComplete k) s = .next t ∧ CoresKept s t ∧ t.front = s.front ∧
      (∀ j, j ≠ k → t.cl j = s.cl j) ∧ (t.cl k).volt = (if c.phase = 1 then c.volt + 1 else c.volt - 1) ∧ (t.cl k).clock = c.clock ∧
      (t.cl k).phase = if c.target < c.clock then 2 else if (t.cl k).volt < c.target then 1 else if c.target < (t.cl k).volt then 3
        else if c.clock < c.target then 2 else 0)) ∧
  (∀ k f s, let c := s.cl k
    ((c.phase ≠ 2 ∨ s.time < c.since + 1000) → exec (.clockSwitchComplete k f) s = .next s) ∧
    (c.phase = 2 → c.since + 1000 ≤ s.time → ∃ t, exec (.clockSwitchComplete k f) s = .next t ∧ CoresKept s t ∧ t.front = s.front ∧ (∀ j, j ≠ k → t.cl j = s.cl j) ∧
      (t.cl k).clock = c.swTo ∧ (t.cl k).volt = c.volt ∧ (t.cl k).fifoMax.toNat = min f.toNat 32 ∧
      (t.cl k).phase = if c.target < c.swTo then 2 else if c.volt < c.target then 1 else if c.target < c.volt then 3
        else if c.swTo < c.target then 2 else 0)) ∧
  (∀ n s, (s.time < n * 10000 ∨ n * 10000 ≤ s.power.sampleAt) → exec (.poolSample n) s = .next s) ∧
  (∀ n s, s.power.sampleAt < n * 10000 → n * 10000 ≤ s.time → ∃ t, exec (.poolSample n) s = .next t ∧ CoresKept s t ∧ t.front = s.front ∧
    t.power.sampleAt = n * 10000 ∧ (∀ k, (t.cl k).actN = 0 ∧ (t.cl k).issN = 0 ∧ (t.cl k).memN = 0) ∧
    (∀ k, k < 32 → let c := s.cl k
      0 < c.actN → (t.cl k).memb = BitVec.ofNat 8 (min 255 (256 * c.memN / c.actN)) ∧
        (t.cl k).issb = BitVec.ofNat 8 (min 255 (256 * c.issN / c.actN))) ∧
    (∀ k, (s.cl k).actN = 0 → (t.cl k).memb = (s.cl k).memb ∧ (t.cl k).issb = (s.cl k).issb) ∧
    ∀ j k, let p := s.poolAt j
      let mb := min 255 (256 * (s.cl k).memN / (s.cl k).actN)
      let is := min 255 (256 * (s.cl k).issN / (s.cl k).actN)
      s.power.pools.length = 5 → s.poolClusters j = [k] → (s.cl k).phase = 0 → p.throttled = false → p.rising = false →
      0 < (s.cl k).actN →
      (j = 0 ∨ j = 3 → (t.poolAt j).point = p.point) ∧
      (j = 1 → (t.poolAt j).point = max 2 (min 7 (if 128 ≤ is then p.point + 1 else if 128 ≤ mb ∧ is < 64 then p.point - 1 else p.point))) ∧
      (j = 2 → (mb < 64 → (t.poolAt j).point = min 5 (p.point + 1)) ∧ (64 ≤ mb → mb < 128 → (t.poolAt j).point = p.point) ∧
        (128 ≤ mb → (t.poolAt j).point = p.point - 1 ∧ (p.point = 0 → (t.poolAt j).denied = true ∧
          (p.denied = false → t.power.pdeny = if s.power.pdeny = 0xFFFFFFFF then s.power.pdeny else s.power.pdeny + 1))))) ∧
  (∀ ma tenant s, ∃ t, exec (.currentEstimate ma tenant) s = .next t ∧ CoresKept s t ∧ t.front = s.front ∧ t.power.current = ma ∧
    (s.power.current ≤ 400000 + ma → t.power.deferred = false ∧ (∀ p, (t.tp p).fillers = none) ∧ t.power.tfill = s.power.tfill) ∧
    (400000 + ma < s.power.current → t.power.fillTenant = tenant ∧
      ∀ p c, (t.tp p).fillers = some c → (∃ n, n < 2048 ∧ p = Sys2Proof.Machine.pairCore n) ∧ fillerCore s p = some c)) ∧
  ∀ n (u l : BitVec 12) s, (2048 ≤ n → exec (.sensorReading n u l) s = .next s) ∧
    (n < 2048 → s.power.pools.length = 5 → let m := pairCore n
      let hot := max u.toNat l.toNat
      let diff := hot - min u.toNat l.toNat
      ∃ t, exec (.sensorReading n u l) s = .next t ∧ t.front = s.front ∧ (t.tp m).upperT = u ∧ (t.tp m).lowerT = l ∧
        (t.tp m).sampled = true ∧
        (∀ k, k < 4 → 420 ≤ l.toNat → (s.cl (clusterOf m)).pool = k → (t.poolAt k).throttled = true) ∧
        (∀ k, k < 4 → 420 ≤ u.toNat → (s.cl (clusterOf (twinOf m))).pool = k → (t.poolAt k).throttled = true) ∧
        (∀ k, k < 4 → 420 ≤ l.toNat → (s.cl (clusterOf m)).pool = k → (s.poolAt k).throttled = false → hot < 460 → diff < 80 →
          (∀ d, (s.di d).online = true) → (t.poolAt k).point ≤ classFloor k) ∧
        (460 ≤ hot ∨ 80 ≤ diff ∧ 380 < hot → (t.di (if l < u then dieOf (twinOf m) else if u < l then dieOf m else
          min (dieOf (twinOf m)) (dieOf m))).online = false) ∧
        (56 ≤ diff → (s.tp m).steered = none → (t.tp m).steered = some (decide (u < l))) ∧
        (hot < 420 → diff < 56 → (s.tp m).steered = none → (∀ k, (s.poolAt k).throttled = false) → (∀ d, (s.di d).online = true) →
          t.mem = s.mem ∧ t.threads = s.threads ∧ t.waves = s.waves ∧ t.power = s.power))

/-! ## Statements: words, steps, reset and what every step keeps -/

/-- The worked encodings of 02, 04 to 08 and 10 to 14, one or more for each family, decode to the instructions that they
stand for. -/
def Obligations.WordsDecode : Prop :=
  decodeTableWord 128 0xFFFFFFC0000000000000000000000483 = some (.bra ⟨.w128, 0, 2, true⟩ 0xFFFFFFC0) ∧
  decodeTableWord 64 0x4000000100186001 = some (.mwaitP ⟨.w64, 0, 0, false⟩ 3 16) ∧
  decodeTableWord 128 0x0000100000000000000000003019004B = some (.iadd ⟨.w128, 2, 1, false⟩ (.v 3) ⟨.v 3, .ident⟩ (.imm 0x1000) false false 0) ∧
  decodeTableWord 96 0x000000070000C160502298D2 = some (.ffma ⟨.w96, 4, 3, false⟩ (.v 4) ⟨.v 5, .xor 1⟩ (.reg ⟨.v 6, .ident⟩) ⟨.v 7, .ident⟩ 0 false) ∧
  decodeTableWord 96 0x004C0003000040001012B002 = some (.fsetp ⟨.w96, 0, 0, false⟩ 2 ⟨.v 1, .ident⟩ (.reg ⟨.v 2, .ident⟩) 3 2 1 true false) ∧
  decodeTableWord 64 0x40000000204C2859 = some (.matchLanes ⟨.w64, 6, 1, false⟩ 1 (.v 9) ⟨.v 2, .ident⟩) ∧
  decodeTableWord 128 0x00000040440000000000601020248003 = some (.ld ⟨.w128, 0, 0, false⟩ (.v 4) ⟨⟨.s 2, .ident⟩, ⟨.v 3, .ident⟩, 0x40, 2, false, 0⟩ 2 false 0) ∧
  decodeTableWord 128 0x21B400000000010A0021001068659803 = some (.copy ⟨.w128, 0, 0, false⟩ (.s 12) (.s 6) (.s 8) (.s 10) 0x21B40000) ∧
  decodeTableWord 96 0x600000000020C01040160002 = some (.mma ⟨.w96, 0, 0, false⟩ 2 (.s 4) (.s 6) (.v 0) 3 0) ∧
  decodeTableWord 64 0xC000000000065801 = some (.mlicGive ⟨.w64, 0, 0, false⟩) ∧
  decodeTableWord 96 0x20000001000280004006C802 = some (.miter ⟨.w96, 0, 0, false⟩ 0 0 4 (.lit 20) 1 1 false false) ∧
  decodeTableWord 64 0x4000000000071001 = some (.wendR ⟨.w64, 0, 0, false⟩) ∧
  decodeTableWord 64 0x0000000000072001 = some (.stgseal ⟨.w64, 0, 0, false⟩ none) ∧
  decodeTableWord 64 0x0000000070074001 = some (.trap ⟨.w64, 0, 0, false⟩ 7 0) ∧
  decodeTableWord 64 0x4000000000074801 = some (.rftRegion ⟨.w64, 0, 0, false⟩) ∧
  decodeTableWord 64 0x0020A00230076001 = some (.setsr ⟨.w64, 0, 0, false⟩ 0x23 (.reg ⟨.s 5, .ident⟩)) ∧
  decodeTableWord 128 0x000005A608092000006020082027F80B = some (.pairWord 2 ⟨0, false, 0, .v 3, .v 2, .v 1, .v 8, 4⟩ ⟨0, false, 0, .v 0, .c 1, .s 4, .v 9, 16⟩)

/-- A step of a core runs what it fetches. The agenda names the core, the core runs, no debugger steps it and no thread of
it is still to enter a handler; its next group is `g`; the PC of `g` is at a place in memory that no migration holds and whose bytes decode, and they
lie within one fetch block of 32 bytes; the launch has the features of the word, and the privilege where the word asks for
it. Then the step is the execution of the decoded instruction for that group (02 R35, 04 R89, R90), after which the threads that
have come to a PC may be marked as in the PC table, and nothing else changes (04 R86). A step that the agenda
names runs likewise, and an empty agenda takes the default policy's move (log 3: the model's choice). -/
def Obligations.StepRunsTheDecodedInstruction : Prop :=
  (∀ (s : State) (c : Nat) (rest : List Move) (g : Group) (p : Place) (pa n : Nat) (i : Instr),
    let s0 := { s with agenda := rest }
    let lid := s0.lidOf (g.members.headD 0)
    let bs := (List.range n).map (fun k => s0.byteAt (pa + k))
    let w := leNat bs
    s.agenda = .run c :: rest → s0.coreStops c = false → s0.stepping c = none → s0.pendingTrap (s0.coreTids c) = none →
    s0.nextGroup c = some g → s0.fetchPlace c lid g.pc = .ok p → p.loc = .mem pa → s0.waitOf p.loc = none →
    decodeBytes bs = .ok (i, []) → g.pc % 32 + n ≤ 32 →
    (∀ l, lenOf w = some l →
      (∀ k ∈ wordFeatures l w, (s0.la lid).feat k = true) ∧
      ((bitsOf w 18 11 = 0xED ∨ bitsOf w 18 11 = 0xEE) → (s0.la lid).priv = true)) →
    step s = settled s (exec i (((if p.xlated then s0.fillTlb c lid g.pc else s0).fillL2 lid 0 p.loc).focusOn c g.pc g.members (wordsOf (n / 4) w)))) ∧
  (∀ (s : State) (i : Instr) (rest : List Move), s.agenda = .event i :: rest → isEvent i = true →
    step s = settled s (exec i { s with agenda := rest })) ∧
  (∀ (s : State) (ns : Nat) (rest : List Move), s.agenda = .wait ns :: rest →
    step s = settled s (.next { s with agenda := rest, time := s.time + ns })) ∧
  (∀ s : State, s.agenda = [] → step s = settled s (doMove s.policy { s with turn := s.turn + 1 })) ∧
  ∀ s t : State, ∃ u, settled s (.next t) = .next u ∧ u = { t with threads := u.threads } ∧
    ∀ x, u.th x = { t.th x with inTable := (u.th x).inTable } ∧ ((t.th x).inTable = true → (u.th x).inTable = true)

/-- What reset leaves where the spec gives a value: the host registers of Tables 15.10 and 17.3, every tenant record of
Table 15.1 (a watchdog limit of 10 ms, all else zero), the measurement slots, and memory with nothing listed, of which every
byte reads zero (log 5: the model's choice). -/
def Obligations.ResetValues : Prop :=
  (∀ off ∈ [0x010, 0x018, 0x020, 0x028, 0x030, 0x038, 0x050, 0x058, 0x060, 0x068, 0x070, 0x078, 0x080, 0x090, 0x098, 0x0A0, 0x0A8, 0x0B0],
    readHostReg State.reset off = 0) ∧
  readHostReg State.reset 0x048 = 1000 ∧
  (∀ off ∈ [0x100, 0x108, 0x110, 0x118, 0x120, 0x128], readHostReg State.reset off = 0) ∧
  (∀ p, p < 5 → readHostReg State.reset (0x140 + 8 * p) = 0) ∧
  (∀ t, t < 256 → readHostReg State.reset (0x980 + 8 * t) = 0) ∧
  (∀ t, t < 256 → (State.reset.front.tenants.get {} t).bits = BitVec.ofNat 256 (10 * 2 ^ 128)) ∧
  State.reset.checker.ms = List.replicate 8 0 ∧
  Memory.wf State.reset.mem = true ∧ ∀ a, State.reset.byteAt a = 0

/-- Decoding takes back what encoding wrote: every instruction that some word encodes is read from the bytes of its word,
whatever bytes follow. -/
def Obligations.DecodeTakesBackEncode : Prop :=
  ∀ (i : Instr) (rest : List Byte), i.wf = true → decodeBytes (encodeBytes i ++ rest) = .ok (i, rest)

/-- Each word has one meaning: whatever bytes the decoder accepts, they are the bytes of the word of the instruction that
it reads, and that instruction meets the operand rules of its entry. So no bit of an accepted word is ignored. -/
def Obligations.AcceptedWordsAreEncodings : Prop :=
  ∀ (bs rest : List Byte) (i : Instr), decodeBytes bs = .ok (i, rest) → i.wf = true ∧ bs = encodeBytes i ++ rest

/-- Every step keeps memory in its canonical form. -/
def Obligations.MemoryKeepsItsForm : Prop :=
  ∀ s t : State, Memory.wf s.mem = true → step s = .next t → Memory.wf t.mem = true
end

