-- ==== Sys2Proof/Laws/Memory.lean ====
section
/-!
SUPPORT. Sys2Proof/Laws/Memory.lean: the laws of the sparse map and of memory: a read after a write, and that writes keep the
canonical form.
-/

namespace Sys2Proof

namespace AMap

variable {α : Type}

/-! ## Reading after a change -/

@[simp] theorem find?_nil (k : Nat) : find? ([] : AMap α) k = none := rfl

theorem find?_cons (j : Nat) (x : α) (r : AMap α) (k : Nat) :
    find? ((j, x) :: r) k = if j = k then some x else find? r k := rfl

theorem find?_insert_same (m : AMap α) (k : Nat) (x : α) : find? (insert m k x) k = some x := by
  induction m with
  | nil => simp [insert, find?]
  | cons e r ih =>
    obtain ⟨j, y⟩ := e
    by_cases h1 : k < j
    · simp [insert, h1, find?]
    · by_cases h2 : j = k
      · simp [insert, h2, find?]
      · simp [insert, h1, h2, find?, ih]

theorem find?_insert_other (m : AMap α) (k j : Nat) (x : α) (h : j ≠ k) : find? (insert m k x) j = find? m j := by
  induction m with
  | nil => simp [insert, find?, Ne.symm h]
  | cons e r ih =>
    obtain ⟨i, y⟩ := e
    by_cases h1 : k < i
    · simp [insert, h1, find?, Ne.symm h]
    · by_cases h2 : i = k
      · subst h2; simp [insert, find?, Ne.symm h]
      · simp [insert, h1, h2, find?, ih]

theorem find?_erase_other (m : AMap α) (k j : Nat) (h : j ≠ k) : find? (erase m k) j = find? m j := by
  induction m with
  | nil => rfl
  | cons e r ih =>
    obtain ⟨i, y⟩ := e
    by_cases h2 : i = k
    · subst h2; simp [erase, find?, Ne.symm h, ih]
    · simp [erase, h2, find?, ih]

theorem sorted_tail {e : Nat × α} {r : AMap α} (h : sorted (e :: r) = true) : sorted r = true := by
  cases r with
  | nil => rfl
  | cons f t => obtain ⟨i, x⟩ := e; obtain ⟨j, y⟩ := f; simp [sorted] at h; exact h.2

theorem sorted_above {e : Nat × α} {r : AMap α} (h : sorted (e :: r) = true) : Above e.1 r := by
  induction r generalizing e with
  | nil => intro f hf; cases hf
  | cons g t ih =>
    obtain ⟨i, x⟩ := e
    obtain ⟨j, y⟩ := g
    simp [sorted] at h
    intro f hf
    rcases List.mem_cons.mp hf with rfl | hf
    · exact h.1
    · exact lt_trans h.1 (ih h.2 f hf)

theorem sorted_cons {e : Nat × α} {r : AMap α} (h : Above e.1 r) (hr : sorted r = true) : sorted (e :: r) = true := by
  cases r with
  | nil => rfl
  | cons f t =>
    obtain ⟨i, x⟩ := e
    obtain ⟨j, y⟩ := f
    have := h (j, y) (List.mem_cons_self ..)
    simp only [sorted, Bool.and_eq_true, decide_eq_true_eq]
    exact ⟨this, hr⟩

theorem find?_erase_same (m : AMap α) (k : Nat) : find? (erase m k) k = none := by
  induction m with
  | nil => rfl
  | cons e r ih =>
    obtain ⟨i, y⟩ := e
    by_cases h2 : i = k
    · simp [erase, h2, ih]
    · simp [erase, h2, find?, ih]

/-- A read after a write to another key. -/
theorem get_set_other [DecidableEq α] (d : α) (m : AMap α) (k j : Nat) (x : α) (h : j ≠ k) :
    get d (set d m k x) j = get d m j := by
  unfold get set
  split
  · rw [find?_erase_other m k j h]
  · rw [find?_insert_other m k j x h]

/-- A read after a write to the same key. -/
@[simp] theorem get_set_same [DecidableEq α] (d : α) (m : AMap α) (k : Nat) (x : α) : get d (set d m k x) k = x := by
  unfold get set
  split
  · next hx => simp [find?_erase_same m k, hx]
  · simp [find?_insert_same]

/-! ## The canonical form -/

theorem mem_insert {m : AMap α} {k : Nat} {x : α} {e : Nat × α} (h : e ∈ insert m k x) : e = (k, x) ∨ e ∈ m := by
  induction m with
  | nil => simpa [insert] using h
  | cons f r ih =>
    obtain ⟨j, y⟩ := f
    by_cases h1 : k < j
    · simpa [insert, h1] using h
    · by_cases h2 : j = k
      · simp [insert, h2] at h
        rcases h with h | h
        · exact .inl h
        · exact .inr (List.mem_cons_of_mem _ h)
      · simp [insert, h1, h2] at h
        rcases h with h | h
        · exact .inr (h ▸ List.mem_cons_self ..)
        · exact (ih h).imp_right (List.mem_cons_of_mem _)

theorem mem_erase {m : AMap α} {k : Nat} {e : Nat × α} (h : e ∈ erase m k) : e ∈ m := by
  induction m with
  | nil => simp [erase] at h
  | cons f r ih =>
    obtain ⟨j, y⟩ := f
    by_cases h2 : j = k
    · simp [erase, h2] at h
      exact List.mem_cons_of_mem _ (ih h)
    · simp [erase, h2] at h
      rcases h with h | h
      · exact h ▸ List.mem_cons_self ..
      · exact List.mem_cons_of_mem _ (ih h)

theorem sorted_insert (m : AMap α) (k : Nat) (x : α) (h : sorted m = true) : sorted (insert m k x) = true := by
  induction m with
  | nil => rfl
  | cons f r ih =>
    obtain ⟨j, y⟩ := f
    by_cases h1 : k < j
    · simp only [insert, h1, if_true]
      refine sorted_cons (fun e he => ?_) h
      rcases List.mem_cons.mp he with rfl | he
      · exact h1
      · exact lt_trans h1 (sorted_above h e he)
    · by_cases h2 : j = k
      · subst h2
        simp only [insert, if_true, lt_irrefl, if_false]
        exact sorted_cons (e := (j, x)) (sorted_above (e := (j, y)) h) (sorted_tail (e := (j, y)) h)
      · simp only [insert, h1, h2, if_false]
        refine sorted_cons (fun e he => ?_) (ih (sorted_tail h))
        rcases mem_insert he with rfl | he
        · simp; omega
        · exact sorted_above h e he

theorem sorted_erase (m : AMap α) (k : Nat) (h : sorted m = true) : sorted (erase m k) = true := by
  induction m with
  | nil => rfl
  | cons f r ih =>
    obtain ⟨j, y⟩ := f
    by_cases h2 : j = k
    · simp only [erase, h2, if_true]
      exact ih (sorted_tail h)
    · simp only [erase, h2, if_false]
      exact sorted_cons (fun e he => sorted_above h e (mem_erase he)) (ih (sorted_tail h))

/-- A write keeps the canonical form. -/
theorem wf_set [DecidableEq α] (d : α) (m : AMap α) (k : Nat) (x : α) (h : wf d m = true) : wf d (set d m k x) = true := by
  simp only [wf, Bool.and_eq_true, List.all_eq_true, decide_eq_true_eq] at h ⊢
  unfold set
  split
  · exact ⟨sorted_erase m k h.1, fun e he => h.2 e (mem_erase he)⟩
  · next hx =>
    refine ⟨sorted_insert m k x h.1, fun e he => ?_⟩
    rcases mem_insert he with rfl | he
    · exact hx
    · exact h.2 e he

theorem wf_nil [DecidableEq α] (d : α) : wf d ([] : AMap α) = true := rfl

/-- An insertion of a value that is not the unlisted one keeps the canonical form. -/
theorem wf_insert [DecidableEq α] (d : α) (m : AMap α) (k : Nat) (x : α) (h : wf d m = true) (hx : x ≠ d) :
    wf d (insert m k x) = true := by
  have := wf_set d m k x h
  simpa [set, hx] using this

theorem wf_filter [DecidableEq α] (d : α) (m : AMap α) (p : Nat × α → Bool) (h : wf d m = true) : wf d (m.filter p) = true := by
  simp only [wf, Bool.and_eq_true, List.all_eq_true, decide_eq_true_eq] at h ⊢
  refine ⟨?_, fun e he => h.2 e (List.mem_filter.mp he).1⟩
  have hs := h.1
  clear h
  induction m with
  | nil => rfl
  | cons f r ih =>
    simp only [List.filter_cons]
    split
    · exact sorted_cons (fun e he => sorted_above hs e (List.mem_filter.mp he).1) (ih (sorted_tail hs))
    · exact ih (sorted_tail hs)

end AMap

namespace Machine

/-! ## Memory -/

theorem memory_wf_set (m : List Host.Cell) (pa : Nat) (b : Byte) (h : Memory.wf m = true) :
    Memory.wf (AMap.set 0 m pa b) = true := AMap.wf_set 0 m pa b h

theorem memory_wf_putMem (bs : List Byte) (m : List Host.Cell) (pa : Nat) (h : Memory.wf m = true) :
    Memory.wf (State.putMem m pa bs) = true := by
  induction bs generalizing m pa with
  | nil => exact h
  | cons b r ih => exact ih _ _ (memory_wf_set m pa b h)

theorem memory_wf_putCells (s : State) (bs : List Byte) (m : List Host.Cell) (pa : Nat) (h : Memory.wf m = true) :
    Memory.wf (s.putCells m pa bs) = true := by
  induction bs generalizing m pa with
  | nil => exact h
  | cons b r ih => exact ih _ _ (memory_wf_set m _ b h)

theorem writeMem_wf (s : State) (pa : Nat) (bs : List Byte) (h : Memory.wf s.mem = true) :
    Memory.wf (s.writeMem pa bs).mem = true := memory_wf_putCells s bs s.mem pa h

/-- Different addresses have different cells. -/
theorem cell_inj (s : State) {a b : Nat} (h : s.cell a = s.cell b) : a = b := by
  simp only [State.cell] at h
  split at h <;> split at h <;> (try split at h) <;> (try split at h) <;>
    simp_all [State.inHostWindow, -Nat.reducePow] <;> omega

/-- Bytes outside a write read as before. -/
theorem putMem_other (bs : List Byte) (m : List Host.Cell) (pa a : Nat) (h : a < pa ∨ pa + bs.length ≤ a) :
    AMap.get 0 (State.putMem m pa bs) a = AMap.get 0 m a := by
  induction bs generalizing m pa with
  | nil => rfl
  | cons b r ih =>
    simp only [List.length_cons] at h
    rw [State.putMem, ih _ _ (by omega), AMap.get_set_other _ _ _ _ _ (by omega)]

/-- Bytes of a write read as written. -/
theorem putMem_same (bs : List Byte) (m : List Host.Cell) (pa k : Nat) (h : k < bs.length) :
    AMap.get 0 (State.putMem m pa bs) (pa + k) = bs[k] := by
  induction bs generalizing m pa k with
  | nil => simp at h
  | cons b r ih =>
    cases k with
    | zero =>
      rw [State.putMem, putMem_other _ _ _ _ (by omega)]
      simp
    | succ n =>
      have := ih (AMap.set 0 m pa b) (pa + 1) n (by simpa using h)
      rw [State.putMem]
      simpa [Nat.add_assoc, Nat.add_comm 1 n] using this

theorem putCells_other (s : State) (bs : List Byte) (m : List Host.Cell) (pa a : Nat) (h : a < pa ∨ pa + bs.length ≤ a) :
    AMap.get 0 (s.putCells m pa bs) (s.cell a) = AMap.get 0 m (s.cell a) := by
  induction bs generalizing m pa with
  | nil => rfl
  | cons b r ih =>
    simp only [List.length_cons] at h
    rw [State.putCells, ih _ _ (by omega), AMap.get_set_other _ _ _ _ _ (fun e => by have := cell_inj s e; omega)]

theorem putCells_same (s : State) (bs : List Byte) (m : List Host.Cell) (pa k : Nat) (h : k < bs.length) :
    AMap.get 0 (s.putCells m pa bs) (s.cell (pa + k)) = bs[k] := by
  induction bs generalizing m pa k with
  | nil => simp at h
  | cons b r ih =>
    cases k with
    | zero =>
      rw [State.putCells, putCells_other _ _ _ _ _ (by omega)]
      simp
    | succ n =>
      have := ih (AMap.set 0 m (s.cell pa) b) (pa + 1) n (by simpa using h)
      rw [State.putCells]
      simpa [Nat.add_assoc, Nat.add_comm 1 n] using this

theorem byteAt_writeMem_other (s : State) (pa a : Nat) (bs : List Byte) (h : a < pa ∨ pa + bs.length ≤ a) :
    (s.writeMem pa bs).byteAt a = s.byteAt a := putCells_other s bs s.mem pa a h

theorem byteAt_writeMem_same (s : State) (pa k : Nat) (bs : List Byte) (h : k < bs.length) :
    (s.writeMem pa bs).byteAt (pa + k) = bs[k] := putCells_same s bs s.mem pa k h

theorem reset_memory_wf : Memory.wf State.reset.mem = true := rfl

theorem hitLines_mem (s : State) (ls : List Loc) : (s.hitLines ls).mem = s.mem := rfl
theorem modPage_mem (s : State) (page : Nat) (f : StagePage → StagePage) : (s.modPage page f).mem = s.mem := rfl
theorem modWriting_mem (s : State) (lid page : Nat) (f : Version → Version) : (s.modWriting lid page f).mem = s.mem := rfl

/-- Counting corrections touches no byte. -/
theorem countMerge_mem (s : State) (line : Nat) (ecc : AMap Nat) (a n : Nat) : (s.countMerge line ecc a n).mem = s.mem := by
  unfold State.countMerge State.countEcc
  split <;> rfl

/-- A write to a register, the scratchpad or a staging page reaches no byte of memory. -/
theorem wrByte_wf (s : State) (l : Loc) (b : Byte) (h : Memory.wf s.mem = true) : Memory.wf (s.wrByte l b).mem = true := by
  cases l with
  | mem pa => exact writeMem_wf s pa [b] h
  | scr t o => exact h
  | reg w n l k => exact h
  | arg l o => exact h
  | stg p o => exact h
  | sealed r o => exact h

theorem foldl_wrByte_wf (l : Loc) (xs : List (Byte × Nat)) (s : State) (h : Memory.wf s.mem = true) :
    Memory.wf (xs.foldl (fun s e => s.wrByte (l.add e.2) e.1) s).mem = true := by
  induction xs generalizing s with
  | nil => exact h
  | cons e r ih => exact ih _ (wrByte_wf s (l.add e.2) e.1 h)

/-- A thread's or an engine's write keeps memory in its canonical form. -/
theorem wrBytes_wf (s : State) (lid : Nat) (l : Loc) (bs : List Byte) (h : Memory.wf s.mem = true) :
    Memory.wf (s.wrBytes lid l bs).mem = true := by
  cases l with
  | mem pa => exact writeMem_wf _ pa bs ((countMerge_mem ..).symm ▸ h)
  | scr t o => exact h
  | stg p o => exact (countMerge_mem ..).symm ▸ h
  | sealed r o => exact h
  | reg w n la k => exact foldl_wrByte_wf (.reg w n la k) bs.zipIdx s h
  | arg l o => exact h

end Machine
end Sys2Proof
end

