-- ==== Sys2Proof/Laws/State.lean ====
section
/-!
SUPPORT. Sys2Proof/Laws/State.lean: for each update of a part of the state, one law for each field and each accessor.
-/

namespace Sys2Proof.Machine.State

open Sys2Proof

/-! ### modThreads -/

@[simp] theorem modThreads_pkg (s : State) (ts : List Nat) (f : Nat → Thread → Thread) : (s.modThreads ts f).pkg = s.pkg := rfl
@[simp] theorem modThreads_time (s : State) (ts : List Nat) (f : Nat → Thread → Thread) : (s.modThreads ts f).time = s.time := rfl
@[simp] theorem modThreads_vregs (s : State) (ts : List Nat) (f : Nat → Thread → Thread) : (s.modThreads ts f).vregs = s.vregs := rfl
@[simp] theorem modThreads_preds (s : State) (ts : List Nat) (f : Nat → Thread → Thread) : (s.modThreads ts f).preds = s.preds := rfl
@[simp] theorem modThreads_waves (s : State) (ts : List Nat) (f : Nat → Thread → Thread) : (s.modThreads ts f).waves = s.waves := rfl
@[simp] theorem modThreads_sregs (s : State) (ts : List Nat) (f : Nat → Thread → Thread) : (s.modThreads ts f).sregs = s.sregs := rfl
@[simp] theorem modThreads_teams (s : State) (ts : List Nat) (f : Nat → Thread → Thread) : (s.modThreads ts f).teams = s.teams := rfl
@[simp] theorem modThreads_scratch (s : State) (ts : List Nat) (f : Nat → Thread → Thread) : (s.modThreads ts f).scratch = s.scratch := rfl
@[simp] theorem modThreads_cores (s : State) (ts : List Nat) (f : Nat → Thread → Thread) : (s.modThreads ts f).cores = s.cores := rfl
@[simp] theorem modThreads_tiles (s : State) (ts : List Nat) (f : Nat → Thread → Thread) : (s.modThreads ts f).tiles = s.tiles := rfl
@[simp] theorem modThreads_pend (s : State) (ts : List Nat) (f : Nat → Thread → Thread) : (s.modThreads ts f).pend = s.pend := rfl
@[simp] theorem modThreads_held (s : State) (ts : List Nat) (f : Nat → Thread → Thread) : (s.modThreads ts f).held = s.held := rfl
@[simp] theorem modThreads_vres (s : State) (ts : List Nat) (f : Nat → Thread → Thread) : (s.modThreads ts f).vres = s.vres := rfl
@[simp] theorem modThreads_pairs (s : State) (ts : List Nat) (f : Nat → Thread → Thread) : (s.modThreads ts f).pairs = s.pairs := rfl
@[simp] theorem modThreads_clusters (s : State) (ts : List Nat) (f : Nat → Thread → Thread) : (s.modThreads ts f).clusters = s.clusters := rfl
@[simp] theorem modThreads_dies (s : State) (ts : List Nat) (f : Nat → Thread → Thread) : (s.modThreads ts f).dies = s.dies := rfl
@[simp] theorem modThreads_mem (s : State) (ts : List Nat) (f : Nat → Thread → Thread) : (s.modThreads ts f).mem = s.mem := rfl
@[simp] theorem modThreads_poison (s : State) (ts : List Nat) (f : Nat → Thread → Thread) : (s.modThreads ts f).poison = s.poison := rfl
@[simp] theorem modThreads_codes (s : State) (ts : List Nat) (f : Nat → Thread → Thread) : (s.modThreads ts f).codes = s.codes := rfl
@[simp] theorem modThreads_ecc (s : State) (ts : List Nat) (f : Nat → Thread → Thread) : (s.modThreads ts f).ecc = s.ecc := rfl
@[simp] theorem modThreads_stage (s : State) (ts : List Nat) (f : Nat → Thread → Thread) : (s.modThreads ts f).stage = s.stage := rfl
@[simp] theorem modThreads_msys (s : State) (ts : List Nat) (f : Nat → Thread → Thread) : (s.modThreads ts f).msys = s.msys := rfl
@[simp] theorem modThreads_launches (s : State) (ts : List Nat) (f : Nat → Thread → Thread) : (s.modThreads ts f).launches = s.launches := rfl
@[simp] theorem modThreads_front (s : State) (ts : List Nat) (f : Nat → Thread → Thread) : (s.modThreads ts f).front = s.front := rfl
@[simp] theorem modThreads_power (s : State) (ts : List Nat) (f : Nat → Thread → Thread) : (s.modThreads ts f).power = s.power := rfl
@[simp] theorem modThreads_checker (s : State) (ts : List Nat) (f : Nat → Thread → Thread) : (s.modThreads ts f).checker = s.checker := rfl
@[simp] theorem modThreads_focus (s : State) (ts : List Nat) (f : Nat → Thread → Thread) : (s.modThreads ts f).focus = s.focus := rfl
@[simp] theorem modThreads_agenda (s : State) (ts : List Nat) (f : Nat → Thread → Thread) : (s.modThreads ts f).agenda = s.agenda := rfl
@[simp] theorem modThreads_turn (s : State) (ts : List Nat) (f : Nat → Thread → Thread) : (s.modThreads ts f).turn = s.turn := rfl
@[simp] theorem modThreads_draws (s : State) (ts : List Nat) (f : Nat → Thread → Thread) : (s.modThreads ts f).draws = s.draws := rfl
@[simp] theorem wv_modThreads (s : State) (ts : List Nat) (f : Nat → Thread → Thread) (k : Nat) : (s.modThreads ts f).wv k = s.wv k := rfl
@[simp] theorem tm_modThreads (s : State) (ts : List Nat) (f : Nat → Thread → Thread) (k : Nat) : (s.modThreads ts f).tm k = s.tm k := rfl
@[simp] theorem co_modThreads (s : State) (ts : List Nat) (f : Nat → Thread → Thread) (k : Nat) : (s.modThreads ts f).co k = s.co k := rfl
@[simp] theorem la_modThreads (s : State) (ts : List Nat) (f : Nat → Thread → Thread) (k : Nat) : (s.modThreads ts f).la k = s.la k := rfl
@[simp] theorem tp_modThreads (s : State) (ts : List Nat) (f : Nat → Thread → Thread) (k : Nat) : (s.modThreads ts f).tp k = s.tp k := rfl
@[simp] theorem cl_modThreads (s : State) (ts : List Nat) (f : Nat → Thread → Thread) (k : Nat) : (s.modThreads ts f).cl k = s.cl k := rfl
@[simp] theorem di_modThreads (s : State) (ts : List Nat) (f : Nat → Thread → Thread) (k : Nat) : (s.modThreads ts f).di k = s.di k := rfl
@[simp] theorem vreg_modThreads (s : State) (ts : List Nat) (f : Nat → Thread → Thread) (k j : Nat) : (s.modThreads ts f).vreg k j = s.vreg k j := rfl
@[simp] theorem sreg_modThreads (s : State) (ts : List Nat) (f : Nat → Thread → Thread) (k j : Nat) : (s.modThreads ts f).sreg k j = s.sreg k j := rfl
@[simp] theorem pred_modThreads (s : State) (ts : List Nat) (f : Nat → Thread → Thread) (k : Nat) (q : Pred) : (s.modThreads ts f).pred k q = s.pred k q := rfl
@[simp] theorem byteAt_modThreads (s : State) (ts : List Nat) (f : Nat → Thread → Thread) (k : Nat) : (s.modThreads ts f).byteAt k = s.byteAt k := rfl
@[simp] theorem grp_modThreads (s : State) (ts : List Nat) (f : Nat → Thread → Thread) : (s.modThreads ts f).grp = s.grp := rfl

/-! ### modThread -/

@[simp] theorem modThread_pkg (s : State) (t : Nat) (f : Thread → Thread) : (s.modThread t f).pkg = s.pkg := rfl
@[simp] theorem modThread_time (s : State) (t : Nat) (f : Thread → Thread) : (s.modThread t f).time = s.time := rfl
@[simp] theorem modThread_vregs (s : State) (t : Nat) (f : Thread → Thread) : (s.modThread t f).vregs = s.vregs := rfl
@[simp] theorem modThread_preds (s : State) (t : Nat) (f : Thread → Thread) : (s.modThread t f).preds = s.preds := rfl
@[simp] theorem modThread_waves (s : State) (t : Nat) (f : Thread → Thread) : (s.modThread t f).waves = s.waves := rfl
@[simp] theorem modThread_sregs (s : State) (t : Nat) (f : Thread → Thread) : (s.modThread t f).sregs = s.sregs := rfl
@[simp] theorem modThread_teams (s : State) (t : Nat) (f : Thread → Thread) : (s.modThread t f).teams = s.teams := rfl
@[simp] theorem modThread_scratch (s : State) (t : Nat) (f : Thread → Thread) : (s.modThread t f).scratch = s.scratch := rfl
@[simp] theorem modThread_cores (s : State) (t : Nat) (f : Thread → Thread) : (s.modThread t f).cores = s.cores := rfl
@[simp] theorem modThread_tiles (s : State) (t : Nat) (f : Thread → Thread) : (s.modThread t f).tiles = s.tiles := rfl
@[simp] theorem modThread_pend (s : State) (t : Nat) (f : Thread → Thread) : (s.modThread t f).pend = s.pend := rfl
@[simp] theorem modThread_held (s : State) (t : Nat) (f : Thread → Thread) : (s.modThread t f).held = s.held := rfl
@[simp] theorem modThread_vres (s : State) (t : Nat) (f : Thread → Thread) : (s.modThread t f).vres = s.vres := rfl
@[simp] theorem modThread_pairs (s : State) (t : Nat) (f : Thread → Thread) : (s.modThread t f).pairs = s.pairs := rfl
@[simp] theorem modThread_clusters (s : State) (t : Nat) (f : Thread → Thread) : (s.modThread t f).clusters = s.clusters := rfl
@[simp] theorem modThread_dies (s : State) (t : Nat) (f : Thread → Thread) : (s.modThread t f).dies = s.dies := rfl
@[simp] theorem modThread_mem (s : State) (t : Nat) (f : Thread → Thread) : (s.modThread t f).mem = s.mem := rfl
@[simp] theorem modThread_poison (s : State) (t : Nat) (f : Thread → Thread) : (s.modThread t f).poison = s.poison := rfl
@[simp] theorem modThread_codes (s : State) (t : Nat) (f : Thread → Thread) : (s.modThread t f).codes = s.codes := rfl
@[simp] theorem modThread_ecc (s : State) (t : Nat) (f : Thread → Thread) : (s.modThread t f).ecc = s.ecc := rfl
@[simp] theorem modThread_stage (s : State) (t : Nat) (f : Thread → Thread) : (s.modThread t f).stage = s.stage := rfl
@[simp] theorem modThread_msys (s : State) (t : Nat) (f : Thread → Thread) : (s.modThread t f).msys = s.msys := rfl
@[simp] theorem modThread_launches (s : State) (t : Nat) (f : Thread → Thread) : (s.modThread t f).launches = s.launches := rfl
@[simp] theorem modThread_front (s : State) (t : Nat) (f : Thread → Thread) : (s.modThread t f).front = s.front := rfl
@[simp] theorem modThread_power (s : State) (t : Nat) (f : Thread → Thread) : (s.modThread t f).power = s.power := rfl
@[simp] theorem modThread_checker (s : State) (t : Nat) (f : Thread → Thread) : (s.modThread t f).checker = s.checker := rfl
@[simp] theorem modThread_focus (s : State) (t : Nat) (f : Thread → Thread) : (s.modThread t f).focus = s.focus := rfl
@[simp] theorem modThread_agenda (s : State) (t : Nat) (f : Thread → Thread) : (s.modThread t f).agenda = s.agenda := rfl
@[simp] theorem modThread_turn (s : State) (t : Nat) (f : Thread → Thread) : (s.modThread t f).turn = s.turn := rfl
@[simp] theorem modThread_draws (s : State) (t : Nat) (f : Thread → Thread) : (s.modThread t f).draws = s.draws := rfl
@[simp] theorem wv_modThread (s : State) (t : Nat) (f : Thread → Thread) (k : Nat) : (s.modThread t f).wv k = s.wv k := rfl
@[simp] theorem tm_modThread (s : State) (t : Nat) (f : Thread → Thread) (k : Nat) : (s.modThread t f).tm k = s.tm k := rfl
@[simp] theorem co_modThread (s : State) (t : Nat) (f : Thread → Thread) (k : Nat) : (s.modThread t f).co k = s.co k := rfl
@[simp] theorem la_modThread (s : State) (t : Nat) (f : Thread → Thread) (k : Nat) : (s.modThread t f).la k = s.la k := rfl
@[simp] theorem tp_modThread (s : State) (t : Nat) (f : Thread → Thread) (k : Nat) : (s.modThread t f).tp k = s.tp k := rfl
@[simp] theorem cl_modThread (s : State) (t : Nat) (f : Thread → Thread) (k : Nat) : (s.modThread t f).cl k = s.cl k := rfl
@[simp] theorem di_modThread (s : State) (t : Nat) (f : Thread → Thread) (k : Nat) : (s.modThread t f).di k = s.di k := rfl
@[simp] theorem vreg_modThread (s : State) (t : Nat) (f : Thread → Thread) (k j : Nat) : (s.modThread t f).vreg k j = s.vreg k j := rfl
@[simp] theorem sreg_modThread (s : State) (t : Nat) (f : Thread → Thread) (k j : Nat) : (s.modThread t f).sreg k j = s.sreg k j := rfl
@[simp] theorem pred_modThread (s : State) (t : Nat) (f : Thread → Thread) (k : Nat) (q : Pred) : (s.modThread t f).pred k q = s.pred k q := rfl
@[simp] theorem byteAt_modThread (s : State) (t : Nat) (f : Thread → Thread) (k : Nat) : (s.modThread t f).byteAt k = s.byteAt k := rfl
@[simp] theorem grp_modThread (s : State) (t : Nat) (f : Thread → Thread) : (s.modThread t f).grp = s.grp := rfl

/-! ### modWave -/

@[simp] theorem modWave_pkg (s : State) (w : Nat) (f : Wave → Wave) : (s.modWave w f).pkg = s.pkg := rfl
@[simp] theorem modWave_time (s : State) (w : Nat) (f : Wave → Wave) : (s.modWave w f).time = s.time := rfl
@[simp] theorem modWave_threads (s : State) (w : Nat) (f : Wave → Wave) : (s.modWave w f).threads = s.threads := rfl
@[simp] theorem modWave_vregs (s : State) (w : Nat) (f : Wave → Wave) : (s.modWave w f).vregs = s.vregs := rfl
@[simp] theorem modWave_preds (s : State) (w : Nat) (f : Wave → Wave) : (s.modWave w f).preds = s.preds := rfl
@[simp] theorem modWave_sregs (s : State) (w : Nat) (f : Wave → Wave) : (s.modWave w f).sregs = s.sregs := rfl
@[simp] theorem modWave_teams (s : State) (w : Nat) (f : Wave → Wave) : (s.modWave w f).teams = s.teams := rfl
@[simp] theorem modWave_scratch (s : State) (w : Nat) (f : Wave → Wave) : (s.modWave w f).scratch = s.scratch := rfl
@[simp] theorem modWave_cores (s : State) (w : Nat) (f : Wave → Wave) : (s.modWave w f).cores = s.cores := rfl
@[simp] theorem modWave_tiles (s : State) (w : Nat) (f : Wave → Wave) : (s.modWave w f).tiles = s.tiles := rfl
@[simp] theorem modWave_pend (s : State) (w : Nat) (f : Wave → Wave) : (s.modWave w f).pend = s.pend := rfl
@[simp] theorem modWave_held (s : State) (w : Nat) (f : Wave → Wave) : (s.modWave w f).held = s.held := rfl
@[simp] theorem modWave_vres (s : State) (w : Nat) (f : Wave → Wave) : (s.modWave w f).vres = s.vres := rfl
@[simp] theorem modWave_pairs (s : State) (w : Nat) (f : Wave → Wave) : (s.modWave w f).pairs = s.pairs := rfl
@[simp] theorem modWave_clusters (s : State) (w : Nat) (f : Wave → Wave) : (s.modWave w f).clusters = s.clusters := rfl
@[simp] theorem modWave_dies (s : State) (w : Nat) (f : Wave → Wave) : (s.modWave w f).dies = s.dies := rfl
@[simp] theorem modWave_mem (s : State) (w : Nat) (f : Wave → Wave) : (s.modWave w f).mem = s.mem := rfl
@[simp] theorem modWave_poison (s : State) (w : Nat) (f : Wave → Wave) : (s.modWave w f).poison = s.poison := rfl
@[simp] theorem modWave_codes (s : State) (w : Nat) (f : Wave → Wave) : (s.modWave w f).codes = s.codes := rfl
@[simp] theorem modWave_ecc (s : State) (w : Nat) (f : Wave → Wave) : (s.modWave w f).ecc = s.ecc := rfl
@[simp] theorem modWave_stage (s : State) (w : Nat) (f : Wave → Wave) : (s.modWave w f).stage = s.stage := rfl
@[simp] theorem modWave_msys (s : State) (w : Nat) (f : Wave → Wave) : (s.modWave w f).msys = s.msys := rfl
@[simp] theorem modWave_launches (s : State) (w : Nat) (f : Wave → Wave) : (s.modWave w f).launches = s.launches := rfl
@[simp] theorem modWave_front (s : State) (w : Nat) (f : Wave → Wave) : (s.modWave w f).front = s.front := rfl
@[simp] theorem modWave_power (s : State) (w : Nat) (f : Wave → Wave) : (s.modWave w f).power = s.power := rfl
@[simp] theorem modWave_checker (s : State) (w : Nat) (f : Wave → Wave) : (s.modWave w f).checker = s.checker := rfl
@[simp] theorem modWave_focus (s : State) (w : Nat) (f : Wave → Wave) : (s.modWave w f).focus = s.focus := rfl
@[simp] theorem modWave_agenda (s : State) (w : Nat) (f : Wave → Wave) : (s.modWave w f).agenda = s.agenda := rfl
@[simp] theorem modWave_turn (s : State) (w : Nat) (f : Wave → Wave) : (s.modWave w f).turn = s.turn := rfl
@[simp] theorem modWave_draws (s : State) (w : Nat) (f : Wave → Wave) : (s.modWave w f).draws = s.draws := rfl
@[simp] theorem th_modWave (s : State) (w : Nat) (f : Wave → Wave) (k : Nat) : (s.modWave w f).th k = s.th k := rfl
@[simp] theorem tm_modWave (s : State) (w : Nat) (f : Wave → Wave) (k : Nat) : (s.modWave w f).tm k = s.tm k := rfl
@[simp] theorem co_modWave (s : State) (w : Nat) (f : Wave → Wave) (k : Nat) : (s.modWave w f).co k = s.co k := rfl
@[simp] theorem la_modWave (s : State) (w : Nat) (f : Wave → Wave) (k : Nat) : (s.modWave w f).la k = s.la k := rfl
@[simp] theorem tp_modWave (s : State) (w : Nat) (f : Wave → Wave) (k : Nat) : (s.modWave w f).tp k = s.tp k := rfl
@[simp] theorem cl_modWave (s : State) (w : Nat) (f : Wave → Wave) (k : Nat) : (s.modWave w f).cl k = s.cl k := rfl
@[simp] theorem di_modWave (s : State) (w : Nat) (f : Wave → Wave) (k : Nat) : (s.modWave w f).di k = s.di k := rfl
@[simp] theorem vreg_modWave (s : State) (w : Nat) (f : Wave → Wave) (k j : Nat) : (s.modWave w f).vreg k j = s.vreg k j := rfl
@[simp] theorem sreg_modWave (s : State) (w : Nat) (f : Wave → Wave) (k j : Nat) : (s.modWave w f).sreg k j = s.sreg k j := rfl
@[simp] theorem pred_modWave (s : State) (w : Nat) (f : Wave → Wave) (k : Nat) (q : Pred) : (s.modWave w f).pred k q = s.pred k q := rfl
@[simp] theorem byteAt_modWave (s : State) (w : Nat) (f : Wave → Wave) (k : Nat) : (s.modWave w f).byteAt k = s.byteAt k := rfl
@[simp] theorem grp_modWave (s : State) (w : Nat) (f : Wave → Wave) : (s.modWave w f).grp = s.grp := rfl

/-! ### modTeam -/

@[simp] theorem modTeam_pkg (s : State) (t : Nat) (f : Team → Team) : (s.modTeam t f).pkg = s.pkg := rfl
@[simp] theorem modTeam_time (s : State) (t : Nat) (f : Team → Team) : (s.modTeam t f).time = s.time := rfl
@[simp] theorem modTeam_threads (s : State) (t : Nat) (f : Team → Team) : (s.modTeam t f).threads = s.threads := rfl
@[simp] theorem modTeam_vregs (s : State) (t : Nat) (f : Team → Team) : (s.modTeam t f).vregs = s.vregs := rfl
@[simp] theorem modTeam_preds (s : State) (t : Nat) (f : Team → Team) : (s.modTeam t f).preds = s.preds := rfl
@[simp] theorem modTeam_waves (s : State) (t : Nat) (f : Team → Team) : (s.modTeam t f).waves = s.waves := rfl
@[simp] theorem modTeam_sregs (s : State) (t : Nat) (f : Team → Team) : (s.modTeam t f).sregs = s.sregs := rfl
@[simp] theorem modTeam_scratch (s : State) (t : Nat) (f : Team → Team) : (s.modTeam t f).scratch = s.scratch := rfl
@[simp] theorem modTeam_cores (s : State) (t : Nat) (f : Team → Team) : (s.modTeam t f).cores = s.cores := rfl
@[simp] theorem modTeam_tiles (s : State) (t : Nat) (f : Team → Team) : (s.modTeam t f).tiles = s.tiles := rfl
@[simp] theorem modTeam_pend (s : State) (t : Nat) (f : Team → Team) : (s.modTeam t f).pend = s.pend := rfl
@[simp] theorem modTeam_held (s : State) (t : Nat) (f : Team → Team) : (s.modTeam t f).held = s.held := rfl
@[simp] theorem modTeam_vres (s : State) (t : Nat) (f : Team → Team) : (s.modTeam t f).vres = s.vres := rfl
@[simp] theorem modTeam_pairs (s : State) (t : Nat) (f : Team → Team) : (s.modTeam t f).pairs = s.pairs := rfl
@[simp] theorem modTeam_clusters (s : State) (t : Nat) (f : Team → Team) : (s.modTeam t f).clusters = s.clusters := rfl
@[simp] theorem modTeam_dies (s : State) (t : Nat) (f : Team → Team) : (s.modTeam t f).dies = s.dies := rfl
@[simp] theorem modTeam_mem (s : State) (t : Nat) (f : Team → Team) : (s.modTeam t f).mem = s.mem := rfl
@[simp] theorem modTeam_poison (s : State) (t : Nat) (f : Team → Team) : (s.modTeam t f).poison = s.poison := rfl
@[simp] theorem modTeam_codes (s : State) (t : Nat) (f : Team → Team) : (s.modTeam t f).codes = s.codes := rfl
@[simp] theorem modTeam_ecc (s : State) (t : Nat) (f : Team → Team) : (s.modTeam t f).ecc = s.ecc := rfl
@[simp] theorem modTeam_stage (s : State) (t : Nat) (f : Team → Team) : (s.modTeam t f).stage = s.stage := rfl
@[simp] theorem modTeam_msys (s : State) (t : Nat) (f : Team → Team) : (s.modTeam t f).msys = s.msys := rfl
@[simp] theorem modTeam_launches (s : State) (t : Nat) (f : Team → Team) : (s.modTeam t f).launches = s.launches := rfl
@[simp] theorem modTeam_front (s : State) (t : Nat) (f : Team → Team) : (s.modTeam t f).front = s.front := rfl
@[simp] theorem modTeam_power (s : State) (t : Nat) (f : Team → Team) : (s.modTeam t f).power = s.power := rfl
@[simp] theorem modTeam_checker (s : State) (t : Nat) (f : Team → Team) : (s.modTeam t f).checker = s.checker := rfl
@[simp] theorem modTeam_focus (s : State) (t : Nat) (f : Team → Team) : (s.modTeam t f).focus = s.focus := rfl
@[simp] theorem modTeam_agenda (s : State) (t : Nat) (f : Team → Team) : (s.modTeam t f).agenda = s.agenda := rfl
@[simp] theorem modTeam_turn (s : State) (t : Nat) (f : Team → Team) : (s.modTeam t f).turn = s.turn := rfl
@[simp] theorem modTeam_draws (s : State) (t : Nat) (f : Team → Team) : (s.modTeam t f).draws = s.draws := rfl
@[simp] theorem th_modTeam (s : State) (t : Nat) (f : Team → Team) (k : Nat) : (s.modTeam t f).th k = s.th k := rfl
@[simp] theorem wv_modTeam (s : State) (t : Nat) (f : Team → Team) (k : Nat) : (s.modTeam t f).wv k = s.wv k := rfl
@[simp] theorem co_modTeam (s : State) (t : Nat) (f : Team → Team) (k : Nat) : (s.modTeam t f).co k = s.co k := rfl
@[simp] theorem la_modTeam (s : State) (t : Nat) (f : Team → Team) (k : Nat) : (s.modTeam t f).la k = s.la k := rfl
@[simp] theorem tp_modTeam (s : State) (t : Nat) (f : Team → Team) (k : Nat) : (s.modTeam t f).tp k = s.tp k := rfl
@[simp] theorem cl_modTeam (s : State) (t : Nat) (f : Team → Team) (k : Nat) : (s.modTeam t f).cl k = s.cl k := rfl
@[simp] theorem di_modTeam (s : State) (t : Nat) (f : Team → Team) (k : Nat) : (s.modTeam t f).di k = s.di k := rfl
@[simp] theorem vreg_modTeam (s : State) (t : Nat) (f : Team → Team) (k j : Nat) : (s.modTeam t f).vreg k j = s.vreg k j := rfl
@[simp] theorem sreg_modTeam (s : State) (t : Nat) (f : Team → Team) (k j : Nat) : (s.modTeam t f).sreg k j = s.sreg k j := rfl
@[simp] theorem pred_modTeam (s : State) (t : Nat) (f : Team → Team) (k : Nat) (q : Pred) : (s.modTeam t f).pred k q = s.pred k q := rfl
@[simp] theorem byteAt_modTeam (s : State) (t : Nat) (f : Team → Team) (k : Nat) : (s.modTeam t f).byteAt k = s.byteAt k := rfl
@[simp] theorem grp_modTeam (s : State) (t : Nat) (f : Team → Team) : (s.modTeam t f).grp = s.grp := rfl

/-! ### modCore -/

@[simp] theorem modCore_pkg (s : State) (c : Nat) (f : Core → Core) : (s.modCore c f).pkg = s.pkg := rfl
@[simp] theorem modCore_time (s : State) (c : Nat) (f : Core → Core) : (s.modCore c f).time = s.time := rfl
@[simp] theorem modCore_threads (s : State) (c : Nat) (f : Core → Core) : (s.modCore c f).threads = s.threads := rfl
@[simp] theorem modCore_vregs (s : State) (c : Nat) (f : Core → Core) : (s.modCore c f).vregs = s.vregs := rfl
@[simp] theorem modCore_preds (s : State) (c : Nat) (f : Core → Core) : (s.modCore c f).preds = s.preds := rfl
@[simp] theorem modCore_waves (s : State) (c : Nat) (f : Core → Core) : (s.modCore c f).waves = s.waves := rfl
@[simp] theorem modCore_sregs (s : State) (c : Nat) (f : Core → Core) : (s.modCore c f).sregs = s.sregs := rfl
@[simp] theorem modCore_teams (s : State) (c : Nat) (f : Core → Core) : (s.modCore c f).teams = s.teams := rfl
@[simp] theorem modCore_scratch (s : State) (c : Nat) (f : Core → Core) : (s.modCore c f).scratch = s.scratch := rfl
@[simp] theorem modCore_tiles (s : State) (c : Nat) (f : Core → Core) : (s.modCore c f).tiles = s.tiles := rfl
@[simp] theorem modCore_pend (s : State) (c : Nat) (f : Core → Core) : (s.modCore c f).pend = s.pend := rfl
@[simp] theorem modCore_held (s : State) (c : Nat) (f : Core → Core) : (s.modCore c f).held = s.held := rfl
@[simp] theorem modCore_vres (s : State) (c : Nat) (f : Core → Core) : (s.modCore c f).vres = s.vres := rfl
@[simp] theorem modCore_pairs (s : State) (c : Nat) (f : Core → Core) : (s.modCore c f).pairs = s.pairs := rfl
@[simp] theorem modCore_clusters (s : State) (c : Nat) (f : Core → Core) : (s.modCore c f).clusters = s.clusters := rfl
@[simp] theorem modCore_dies (s : State) (c : Nat) (f : Core → Core) : (s.modCore c f).dies = s.dies := rfl
@[simp] theorem modCore_mem (s : State) (c : Nat) (f : Core → Core) : (s.modCore c f).mem = s.mem := rfl
@[simp] theorem modCore_poison (s : State) (c : Nat) (f : Core → Core) : (s.modCore c f).poison = s.poison := rfl
@[simp] theorem modCore_codes (s : State) (c : Nat) (f : Core → Core) : (s.modCore c f).codes = s.codes := rfl
@[simp] theorem modCore_ecc (s : State) (c : Nat) (f : Core → Core) : (s.modCore c f).ecc = s.ecc := rfl
@[simp] theorem modCore_stage (s : State) (c : Nat) (f : Core → Core) : (s.modCore c f).stage = s.stage := rfl
@[simp] theorem modCore_msys (s : State) (c : Nat) (f : Core → Core) : (s.modCore c f).msys = s.msys := rfl
@[simp] theorem modCore_launches (s : State) (c : Nat) (f : Core → Core) : (s.modCore c f).launches = s.launches := rfl
@[simp] theorem modCore_front (s : State) (c : Nat) (f : Core → Core) : (s.modCore c f).front = s.front := rfl
@[simp] theorem modCore_power (s : State) (c : Nat) (f : Core → Core) : (s.modCore c f).power = s.power := rfl
@[simp] theorem modCore_checker (s : State) (c : Nat) (f : Core → Core) : (s.modCore c f).checker = s.checker := rfl
@[simp] theorem modCore_focus (s : State) (c : Nat) (f : Core → Core) : (s.modCore c f).focus = s.focus := rfl
@[simp] theorem modCore_agenda (s : State) (c : Nat) (f : Core → Core) : (s.modCore c f).agenda = s.agenda := rfl
@[simp] theorem modCore_turn (s : State) (c : Nat) (f : Core → Core) : (s.modCore c f).turn = s.turn := rfl
@[simp] theorem modCore_draws (s : State) (c : Nat) (f : Core → Core) : (s.modCore c f).draws = s.draws := rfl
@[simp] theorem th_modCore (s : State) (c : Nat) (f : Core → Core) (k : Nat) : (s.modCore c f).th k = s.th k := rfl
@[simp] theorem wv_modCore (s : State) (c : Nat) (f : Core → Core) (k : Nat) : (s.modCore c f).wv k = s.wv k := rfl
@[simp] theorem tm_modCore (s : State) (c : Nat) (f : Core → Core) (k : Nat) : (s.modCore c f).tm k = s.tm k := rfl
@[simp] theorem la_modCore (s : State) (c : Nat) (f : Core → Core) (k : Nat) : (s.modCore c f).la k = s.la k := rfl
@[simp] theorem tp_modCore (s : State) (c : Nat) (f : Core → Core) (k : Nat) : (s.modCore c f).tp k = s.tp k := rfl
@[simp] theorem cl_modCore (s : State) (c : Nat) (f : Core → Core) (k : Nat) : (s.modCore c f).cl k = s.cl k := rfl
@[simp] theorem di_modCore (s : State) (c : Nat) (f : Core → Core) (k : Nat) : (s.modCore c f).di k = s.di k := rfl
@[simp] theorem vreg_modCore (s : State) (c : Nat) (f : Core → Core) (k j : Nat) : (s.modCore c f).vreg k j = s.vreg k j := rfl
@[simp] theorem sreg_modCore (s : State) (c : Nat) (f : Core → Core) (k j : Nat) : (s.modCore c f).sreg k j = s.sreg k j := rfl
@[simp] theorem pred_modCore (s : State) (c : Nat) (f : Core → Core) (k : Nat) (q : Pred) : (s.modCore c f).pred k q = s.pred k q := rfl
@[simp] theorem byteAt_modCore (s : State) (c : Nat) (f : Core → Core) (k : Nat) : (s.modCore c f).byteAt k = s.byteAt k := rfl
@[simp] theorem grp_modCore (s : State) (c : Nat) (f : Core → Core) : (s.modCore c f).grp = s.grp := rfl

/-! ### modLaunch -/

@[simp] theorem modLaunch_pkg (s : State) (l : Nat) (f : Launch → Launch) : (s.modLaunch l f).pkg = s.pkg := rfl
@[simp] theorem modLaunch_time (s : State) (l : Nat) (f : Launch → Launch) : (s.modLaunch l f).time = s.time := rfl
@[simp] theorem modLaunch_threads (s : State) (l : Nat) (f : Launch → Launch) : (s.modLaunch l f).threads = s.threads := rfl
@[simp] theorem modLaunch_vregs (s : State) (l : Nat) (f : Launch → Launch) : (s.modLaunch l f).vregs = s.vregs := rfl
@[simp] theorem modLaunch_preds (s : State) (l : Nat) (f : Launch → Launch) : (s.modLaunch l f).preds = s.preds := rfl
@[simp] theorem modLaunch_waves (s : State) (l : Nat) (f : Launch → Launch) : (s.modLaunch l f).waves = s.waves := rfl
@[simp] theorem modLaunch_sregs (s : State) (l : Nat) (f : Launch → Launch) : (s.modLaunch l f).sregs = s.sregs := rfl
@[simp] theorem modLaunch_teams (s : State) (l : Nat) (f : Launch → Launch) : (s.modLaunch l f).teams = s.teams := rfl
@[simp] theorem modLaunch_scratch (s : State) (l : Nat) (f : Launch → Launch) : (s.modLaunch l f).scratch = s.scratch := rfl
@[simp] theorem modLaunch_cores (s : State) (l : Nat) (f : Launch → Launch) : (s.modLaunch l f).cores = s.cores := rfl
@[simp] theorem modLaunch_tiles (s : State) (l : Nat) (f : Launch → Launch) : (s.modLaunch l f).tiles = s.tiles := rfl
@[simp] theorem modLaunch_pend (s : State) (l : Nat) (f : Launch → Launch) : (s.modLaunch l f).pend = s.pend := rfl
@[simp] theorem modLaunch_held (s : State) (l : Nat) (f : Launch → Launch) : (s.modLaunch l f).held = s.held := rfl
@[simp] theorem modLaunch_vres (s : State) (l : Nat) (f : Launch → Launch) : (s.modLaunch l f).vres = s.vres := rfl
@[simp] theorem modLaunch_pairs (s : State) (l : Nat) (f : Launch → Launch) : (s.modLaunch l f).pairs = s.pairs := rfl
@[simp] theorem modLaunch_clusters (s : State) (l : Nat) (f : Launch → Launch) : (s.modLaunch l f).clusters = s.clusters := rfl
@[simp] theorem modLaunch_dies (s : State) (l : Nat) (f : Launch → Launch) : (s.modLaunch l f).dies = s.dies := rfl
@[simp] theorem modLaunch_mem (s : State) (l : Nat) (f : Launch → Launch) : (s.modLaunch l f).mem = s.mem := rfl
@[simp] theorem modLaunch_poison (s : State) (l : Nat) (f : Launch → Launch) : (s.modLaunch l f).poison = s.poison := rfl
@[simp] theorem modLaunch_codes (s : State) (l : Nat) (f : Launch → Launch) : (s.modLaunch l f).codes = s.codes := rfl
@[simp] theorem modLaunch_ecc (s : State) (l : Nat) (f : Launch → Launch) : (s.modLaunch l f).ecc = s.ecc := rfl
@[simp] theorem modLaunch_stage (s : State) (l : Nat) (f : Launch → Launch) : (s.modLaunch l f).stage = s.stage := rfl
@[simp] theorem modLaunch_msys (s : State) (l : Nat) (f : Launch → Launch) : (s.modLaunch l f).msys = s.msys := rfl
@[simp] theorem modLaunch_front (s : State) (l : Nat) (f : Launch → Launch) : (s.modLaunch l f).front = s.front := rfl
@[simp] theorem modLaunch_power (s : State) (l : Nat) (f : Launch → Launch) : (s.modLaunch l f).power = s.power := rfl
@[simp] theorem modLaunch_checker (s : State) (l : Nat) (f : Launch → Launch) : (s.modLaunch l f).checker = s.checker := rfl
@[simp] theorem modLaunch_focus (s : State) (l : Nat) (f : Launch → Launch) : (s.modLaunch l f).focus = s.focus := rfl
@[simp] theorem modLaunch_agenda (s : State) (l : Nat) (f : Launch → Launch) : (s.modLaunch l f).agenda = s.agenda := rfl
@[simp] theorem modLaunch_turn (s : State) (l : Nat) (f : Launch → Launch) : (s.modLaunch l f).turn = s.turn := rfl
@[simp] theorem modLaunch_draws (s : State) (l : Nat) (f : Launch → Launch) : (s.modLaunch l f).draws = s.draws := rfl
@[simp] theorem th_modLaunch (s : State) (l : Nat) (f : Launch → Launch) (k : Nat) : (s.modLaunch l f).th k = s.th k := rfl
@[simp] theorem wv_modLaunch (s : State) (l : Nat) (f : Launch → Launch) (k : Nat) : (s.modLaunch l f).wv k = s.wv k := rfl
@[simp] theorem tm_modLaunch (s : State) (l : Nat) (f : Launch → Launch) (k : Nat) : (s.modLaunch l f).tm k = s.tm k := rfl
@[simp] theorem co_modLaunch (s : State) (l : Nat) (f : Launch → Launch) (k : Nat) : (s.modLaunch l f).co k = s.co k := rfl
@[simp] theorem tp_modLaunch (s : State) (l : Nat) (f : Launch → Launch) (k : Nat) : (s.modLaunch l f).tp k = s.tp k := rfl
@[simp] theorem cl_modLaunch (s : State) (l : Nat) (f : Launch → Launch) (k : Nat) : (s.modLaunch l f).cl k = s.cl k := rfl
@[simp] theorem di_modLaunch (s : State) (l : Nat) (f : Launch → Launch) (k : Nat) : (s.modLaunch l f).di k = s.di k := rfl
@[simp] theorem vreg_modLaunch (s : State) (l : Nat) (f : Launch → Launch) (k j : Nat) : (s.modLaunch l f).vreg k j = s.vreg k j := rfl
@[simp] theorem sreg_modLaunch (s : State) (l : Nat) (f : Launch → Launch) (k j : Nat) : (s.modLaunch l f).sreg k j = s.sreg k j := rfl
@[simp] theorem pred_modLaunch (s : State) (l : Nat) (f : Launch → Launch) (k : Nat) (q : Pred) : (s.modLaunch l f).pred k q = s.pred k q := rfl
@[simp] theorem byteAt_modLaunch (s : State) (l : Nat) (f : Launch → Launch) (k : Nat) : (s.modLaunch l f).byteAt k = s.byteAt k := rfl
@[simp] theorem grp_modLaunch (s : State) (l : Nat) (f : Launch → Launch) : (s.modLaunch l f).grp = s.grp := rfl

/-! ### modPair -/

@[simp] theorem modPair_pkg (s : State) (p : Nat) (f : TwinPair → TwinPair) : (s.modPair p f).pkg = s.pkg := rfl
@[simp] theorem modPair_time (s : State) (p : Nat) (f : TwinPair → TwinPair) : (s.modPair p f).time = s.time := rfl
@[simp] theorem modPair_threads (s : State) (p : Nat) (f : TwinPair → TwinPair) : (s.modPair p f).threads = s.threads := rfl
@[simp] theorem modPair_vregs (s : State) (p : Nat) (f : TwinPair → TwinPair) : (s.modPair p f).vregs = s.vregs := rfl
@[simp] theorem modPair_preds (s : State) (p : Nat) (f : TwinPair → TwinPair) : (s.modPair p f).preds = s.preds := rfl
@[simp] theorem modPair_waves (s : State) (p : Nat) (f : TwinPair → TwinPair) : (s.modPair p f).waves = s.waves := rfl
@[simp] theorem modPair_sregs (s : State) (p : Nat) (f : TwinPair → TwinPair) : (s.modPair p f).sregs = s.sregs := rfl
@[simp] theorem modPair_teams (s : State) (p : Nat) (f : TwinPair → TwinPair) : (s.modPair p f).teams = s.teams := rfl
@[simp] theorem modPair_scratch (s : State) (p : Nat) (f : TwinPair → TwinPair) : (s.modPair p f).scratch = s.scratch := rfl
@[simp] theorem modPair_cores (s : State) (p : Nat) (f : TwinPair → TwinPair) : (s.modPair p f).cores = s.cores := rfl
@[simp] theorem modPair_tiles (s : State) (p : Nat) (f : TwinPair → TwinPair) : (s.modPair p f).tiles = s.tiles := rfl
@[simp] theorem modPair_pend (s : State) (p : Nat) (f : TwinPair → TwinPair) : (s.modPair p f).pend = s.pend := rfl
@[simp] theorem modPair_held (s : State) (p : Nat) (f : TwinPair → TwinPair) : (s.modPair p f).held = s.held := rfl
@[simp] theorem modPair_vres (s : State) (p : Nat) (f : TwinPair → TwinPair) : (s.modPair p f).vres = s.vres := rfl
@[simp] theorem modPair_clusters (s : State) (p : Nat) (f : TwinPair → TwinPair) : (s.modPair p f).clusters = s.clusters := rfl
@[simp] theorem modPair_dies (s : State) (p : Nat) (f : TwinPair → TwinPair) : (s.modPair p f).dies = s.dies := rfl
@[simp] theorem modPair_mem (s : State) (p : Nat) (f : TwinPair → TwinPair) : (s.modPair p f).mem = s.mem := rfl
@[simp] theorem modPair_poison (s : State) (p : Nat) (f : TwinPair → TwinPair) : (s.modPair p f).poison = s.poison := rfl
@[simp] theorem modPair_codes (s : State) (p : Nat) (f : TwinPair → TwinPair) : (s.modPair p f).codes = s.codes := rfl
@[simp] theorem modPair_ecc (s : State) (p : Nat) (f : TwinPair → TwinPair) : (s.modPair p f).ecc = s.ecc := rfl
@[simp] theorem modPair_stage (s : State) (p : Nat) (f : TwinPair → TwinPair) : (s.modPair p f).stage = s.stage := rfl
@[simp] theorem modPair_msys (s : State) (p : Nat) (f : TwinPair → TwinPair) : (s.modPair p f).msys = s.msys := rfl
@[simp] theorem modPair_launches (s : State) (p : Nat) (f : TwinPair → TwinPair) : (s.modPair p f).launches = s.launches := rfl
@[simp] theorem modPair_front (s : State) (p : Nat) (f : TwinPair → TwinPair) : (s.modPair p f).front = s.front := rfl
@[simp] theorem modPair_power (s : State) (p : Nat) (f : TwinPair → TwinPair) : (s.modPair p f).power = s.power := rfl
@[simp] theorem modPair_checker (s : State) (p : Nat) (f : TwinPair → TwinPair) : (s.modPair p f).checker = s.checker := rfl
@[simp] theorem modPair_focus (s : State) (p : Nat) (f : TwinPair → TwinPair) : (s.modPair p f).focus = s.focus := rfl
@[simp] theorem modPair_agenda (s : State) (p : Nat) (f : TwinPair → TwinPair) : (s.modPair p f).agenda = s.agenda := rfl
@[simp] theorem modPair_turn (s : State) (p : Nat) (f : TwinPair → TwinPair) : (s.modPair p f).turn = s.turn := rfl
@[simp] theorem modPair_draws (s : State) (p : Nat) (f : TwinPair → TwinPair) : (s.modPair p f).draws = s.draws := rfl
@[simp] theorem th_modPair (s : State) (p : Nat) (f : TwinPair → TwinPair) (k : Nat) : (s.modPair p f).th k = s.th k := rfl
@[simp] theorem wv_modPair (s : State) (p : Nat) (f : TwinPair → TwinPair) (k : Nat) : (s.modPair p f).wv k = s.wv k := rfl
@[simp] theorem tm_modPair (s : State) (p : Nat) (f : TwinPair → TwinPair) (k : Nat) : (s.modPair p f).tm k = s.tm k := rfl
@[simp] theorem co_modPair (s : State) (p : Nat) (f : TwinPair → TwinPair) (k : Nat) : (s.modPair p f).co k = s.co k := rfl
@[simp] theorem la_modPair (s : State) (p : Nat) (f : TwinPair → TwinPair) (k : Nat) : (s.modPair p f).la k = s.la k := rfl
@[simp] theorem cl_modPair (s : State) (p : Nat) (f : TwinPair → TwinPair) (k : Nat) : (s.modPair p f).cl k = s.cl k := rfl
@[simp] theorem di_modPair (s : State) (p : Nat) (f : TwinPair → TwinPair) (k : Nat) : (s.modPair p f).di k = s.di k := rfl
@[simp] theorem vreg_modPair (s : State) (p : Nat) (f : TwinPair → TwinPair) (k j : Nat) : (s.modPair p f).vreg k j = s.vreg k j := rfl
@[simp] theorem sreg_modPair (s : State) (p : Nat) (f : TwinPair → TwinPair) (k j : Nat) : (s.modPair p f).sreg k j = s.sreg k j := rfl
@[simp] theorem pred_modPair (s : State) (p : Nat) (f : TwinPair → TwinPair) (k : Nat) (q : Pred) : (s.modPair p f).pred k q = s.pred k q := rfl
@[simp] theorem byteAt_modPair (s : State) (p : Nat) (f : TwinPair → TwinPair) (k : Nat) : (s.modPair p f).byteAt k = s.byteAt k := rfl
@[simp] theorem grp_modPair (s : State) (p : Nat) (f : TwinPair → TwinPair) : (s.modPair p f).grp = s.grp := rfl

/-! ### modCluster -/

@[simp] theorem modCluster_pkg (s : State) (c : Nat) (f : Cluster → Cluster) : (s.modCluster c f).pkg = s.pkg := rfl
@[simp] theorem modCluster_time (s : State) (c : Nat) (f : Cluster → Cluster) : (s.modCluster c f).time = s.time := rfl
@[simp] theorem modCluster_threads (s : State) (c : Nat) (f : Cluster → Cluster) : (s.modCluster c f).threads = s.threads := rfl
@[simp] theorem modCluster_vregs (s : State) (c : Nat) (f : Cluster → Cluster) : (s.modCluster c f).vregs = s.vregs := rfl
@[simp] theorem modCluster_preds (s : State) (c : Nat) (f : Cluster → Cluster) : (s.modCluster c f).preds = s.preds := rfl
@[simp] theorem modCluster_waves (s : State) (c : Nat) (f : Cluster → Cluster) : (s.modCluster c f).waves = s.waves := rfl
@[simp] theorem modCluster_sregs (s : State) (c : Nat) (f : Cluster → Cluster) : (s.modCluster c f).sregs = s.sregs := rfl
@[simp] theorem modCluster_teams (s : State) (c : Nat) (f : Cluster → Cluster) : (s.modCluster c f).teams = s.teams := rfl
@[simp] theorem modCluster_scratch (s : State) (c : Nat) (f : Cluster → Cluster) : (s.modCluster c f).scratch = s.scratch := rfl
@[simp] theorem modCluster_cores (s : State) (c : Nat) (f : Cluster → Cluster) : (s.modCluster c f).cores = s.cores := rfl
@[simp] theorem modCluster_tiles (s : State) (c : Nat) (f : Cluster → Cluster) : (s.modCluster c f).tiles = s.tiles := rfl
@[simp] theorem modCluster_pend (s : State) (c : Nat) (f : Cluster → Cluster) : (s.modCluster c f).pend = s.pend := rfl
@[simp] theorem modCluster_held (s : State) (c : Nat) (f : Cluster → Cluster) : (s.modCluster c f).held = s.held := rfl
@[simp] theorem modCluster_vres (s : State) (c : Nat) (f : Cluster → Cluster) : (s.modCluster c f).vres = s.vres := rfl
@[simp] theorem modCluster_pairs (s : State) (c : Nat) (f : Cluster → Cluster) : (s.modCluster c f).pairs = s.pairs := rfl
@[simp] theorem modCluster_dies (s : State) (c : Nat) (f : Cluster → Cluster) : (s.modCluster c f).dies = s.dies := rfl
@[simp] theorem modCluster_mem (s : State) (c : Nat) (f : Cluster → Cluster) : (s.modCluster c f).mem = s.mem := rfl
@[simp] theorem modCluster_poison (s : State) (c : Nat) (f : Cluster → Cluster) : (s.modCluster c f).poison = s.poison := rfl
@[simp] theorem modCluster_codes (s : State) (c : Nat) (f : Cluster → Cluster) : (s.modCluster c f).codes = s.codes := rfl
@[simp] theorem modCluster_ecc (s : State) (c : Nat) (f : Cluster → Cluster) : (s.modCluster c f).ecc = s.ecc := rfl
@[simp] theorem modCluster_stage (s : State) (c : Nat) (f : Cluster → Cluster) : (s.modCluster c f).stage = s.stage := rfl
@[simp] theorem modCluster_msys (s : State) (c : Nat) (f : Cluster → Cluster) : (s.modCluster c f).msys = s.msys := rfl
@[simp] theorem modCluster_launches (s : State) (c : Nat) (f : Cluster → Cluster) : (s.modCluster c f).launches = s.launches := rfl
@[simp] theorem modCluster_front (s : State) (c : Nat) (f : Cluster → Cluster) : (s.modCluster c f).front = s.front := rfl
@[simp] theorem modCluster_power (s : State) (c : Nat) (f : Cluster → Cluster) : (s.modCluster c f).power = s.power := rfl
@[simp] theorem modCluster_checker (s : State) (c : Nat) (f : Cluster → Cluster) : (s.modCluster c f).checker = s.checker := rfl
@[simp] theorem modCluster_focus (s : State) (c : Nat) (f : Cluster → Cluster) : (s.modCluster c f).focus = s.focus := rfl
@[simp] theorem modCluster_agenda (s : State) (c : Nat) (f : Cluster → Cluster) : (s.modCluster c f).agenda = s.agenda := rfl
@[simp] theorem modCluster_turn (s : State) (c : Nat) (f : Cluster → Cluster) : (s.modCluster c f).turn = s.turn := rfl
@[simp] theorem modCluster_draws (s : State) (c : Nat) (f : Cluster → Cluster) : (s.modCluster c f).draws = s.draws := rfl
@[simp] theorem th_modCluster (s : State) (c : Nat) (f : Cluster → Cluster) (k : Nat) : (s.modCluster c f).th k = s.th k := rfl
@[simp] theorem wv_modCluster (s : State) (c : Nat) (f : Cluster → Cluster) (k : Nat) : (s.modCluster c f).wv k = s.wv k := rfl
@[simp] theorem tm_modCluster (s : State) (c : Nat) (f : Cluster → Cluster) (k : Nat) : (s.modCluster c f).tm k = s.tm k := rfl
@[simp] theorem co_modCluster (s : State) (c : Nat) (f : Cluster → Cluster) (k : Nat) : (s.modCluster c f).co k = s.co k := rfl
@[simp] theorem la_modCluster (s : State) (c : Nat) (f : Cluster → Cluster) (k : Nat) : (s.modCluster c f).la k = s.la k := rfl
@[simp] theorem tp_modCluster (s : State) (c : Nat) (f : Cluster → Cluster) (k : Nat) : (s.modCluster c f).tp k = s.tp k := rfl
@[simp] theorem di_modCluster (s : State) (c : Nat) (f : Cluster → Cluster) (k : Nat) : (s.modCluster c f).di k = s.di k := rfl
@[simp] theorem vreg_modCluster (s : State) (c : Nat) (f : Cluster → Cluster) (k j : Nat) : (s.modCluster c f).vreg k j = s.vreg k j := rfl
@[simp] theorem sreg_modCluster (s : State) (c : Nat) (f : Cluster → Cluster) (k j : Nat) : (s.modCluster c f).sreg k j = s.sreg k j := rfl
@[simp] theorem pred_modCluster (s : State) (c : Nat) (f : Cluster → Cluster) (k : Nat) (q : Pred) : (s.modCluster c f).pred k q = s.pred k q := rfl
@[simp] theorem byteAt_modCluster (s : State) (c : Nat) (f : Cluster → Cluster) (k : Nat) : (s.modCluster c f).byteAt k = s.byteAt k := rfl
@[simp] theorem grp_modCluster (s : State) (c : Nat) (f : Cluster → Cluster) : (s.modCluster c f).grp = s.grp := rfl

/-! ### modDie -/

@[simp] theorem modDie_pkg (s : State) (d : Nat) (f : Die → Die) : (s.modDie d f).pkg = s.pkg := rfl
@[simp] theorem modDie_time (s : State) (d : Nat) (f : Die → Die) : (s.modDie d f).time = s.time := rfl
@[simp] theorem modDie_threads (s : State) (d : Nat) (f : Die → Die) : (s.modDie d f).threads = s.threads := rfl
@[simp] theorem modDie_vregs (s : State) (d : Nat) (f : Die → Die) : (s.modDie d f).vregs = s.vregs := rfl
@[simp] theorem modDie_preds (s : State) (d : Nat) (f : Die → Die) : (s.modDie d f).preds = s.preds := rfl
@[simp] theorem modDie_waves (s : State) (d : Nat) (f : Die → Die) : (s.modDie d f).waves = s.waves := rfl
@[simp] theorem modDie_sregs (s : State) (d : Nat) (f : Die → Die) : (s.modDie d f).sregs = s.sregs := rfl
@[simp] theorem modDie_teams (s : State) (d : Nat) (f : Die → Die) : (s.modDie d f).teams = s.teams := rfl
@[simp] theorem modDie_scratch (s : State) (d : Nat) (f : Die → Die) : (s.modDie d f).scratch = s.scratch := rfl
@[simp] theorem modDie_cores (s : State) (d : Nat) (f : Die → Die) : (s.modDie d f).cores = s.cores := rfl
@[simp] theorem modDie_tiles (s : State) (d : Nat) (f : Die → Die) : (s.modDie d f).tiles = s.tiles := rfl
@[simp] theorem modDie_pend (s : State) (d : Nat) (f : Die → Die) : (s.modDie d f).pend = s.pend := rfl
@[simp] theorem modDie_held (s : State) (d : Nat) (f : Die → Die) : (s.modDie d f).held = s.held := rfl
@[simp] theorem modDie_vres (s : State) (d : Nat) (f : Die → Die) : (s.modDie d f).vres = s.vres := rfl
@[simp] theorem modDie_pairs (s : State) (d : Nat) (f : Die → Die) : (s.modDie d f).pairs = s.pairs := rfl
@[simp] theorem modDie_clusters (s : State) (d : Nat) (f : Die → Die) : (s.modDie d f).clusters = s.clusters := rfl
@[simp] theorem modDie_mem (s : State) (d : Nat) (f : Die → Die) : (s.modDie d f).mem = s.mem := rfl
@[simp] theorem modDie_poison (s : State) (d : Nat) (f : Die → Die) : (s.modDie d f).poison = s.poison := rfl
@[simp] theorem modDie_codes (s : State) (d : Nat) (f : Die → Die) : (s.modDie d f).codes = s.codes := rfl
@[simp] theorem modDie_ecc (s : State) (d : Nat) (f : Die → Die) : (s.modDie d f).ecc = s.ecc := rfl
@[simp] theorem modDie_stage (s : State) (d : Nat) (f : Die → Die) : (s.modDie d f).stage = s.stage := rfl
@[simp] theorem modDie_msys (s : State) (d : Nat) (f : Die → Die) : (s.modDie d f).msys = s.msys := rfl
@[simp] theorem modDie_launches (s : State) (d : Nat) (f : Die → Die) : (s.modDie d f).launches = s.launches := rfl
@[simp] theorem modDie_front (s : State) (d : Nat) (f : Die → Die) : (s.modDie d f).front = s.front := rfl
@[simp] theorem modDie_power (s : State) (d : Nat) (f : Die → Die) : (s.modDie d f).power = s.power := rfl
@[simp] theorem modDie_checker (s : State) (d : Nat) (f : Die → Die) : (s.modDie d f).checker = s.checker := rfl
@[simp] theorem modDie_focus (s : State) (d : Nat) (f : Die → Die) : (s.modDie d f).focus = s.focus := rfl
@[simp] theorem modDie_agenda (s : State) (d : Nat) (f : Die → Die) : (s.modDie d f).agenda = s.agenda := rfl
@[simp] theorem modDie_turn (s : State) (d : Nat) (f : Die → Die) : (s.modDie d f).turn = s.turn := rfl
@[simp] theorem modDie_draws (s : State) (d : Nat) (f : Die → Die) : (s.modDie d f).draws = s.draws := rfl
@[simp] theorem th_modDie (s : State) (d : Nat) (f : Die → Die) (k : Nat) : (s.modDie d f).th k = s.th k := rfl
@[simp] theorem wv_modDie (s : State) (d : Nat) (f : Die → Die) (k : Nat) : (s.modDie d f).wv k = s.wv k := rfl
@[simp] theorem tm_modDie (s : State) (d : Nat) (f : Die → Die) (k : Nat) : (s.modDie d f).tm k = s.tm k := rfl
@[simp] theorem co_modDie (s : State) (d : Nat) (f : Die → Die) (k : Nat) : (s.modDie d f).co k = s.co k := rfl
@[simp] theorem la_modDie (s : State) (d : Nat) (f : Die → Die) (k : Nat) : (s.modDie d f).la k = s.la k := rfl
@[simp] theorem tp_modDie (s : State) (d : Nat) (f : Die → Die) (k : Nat) : (s.modDie d f).tp k = s.tp k := rfl
@[simp] theorem cl_modDie (s : State) (d : Nat) (f : Die → Die) (k : Nat) : (s.modDie d f).cl k = s.cl k := rfl
@[simp] theorem vreg_modDie (s : State) (d : Nat) (f : Die → Die) (k j : Nat) : (s.modDie d f).vreg k j = s.vreg k j := rfl
@[simp] theorem sreg_modDie (s : State) (d : Nat) (f : Die → Die) (k j : Nat) : (s.modDie d f).sreg k j = s.sreg k j := rfl
@[simp] theorem pred_modDie (s : State) (d : Nat) (f : Die → Die) (k : Nat) (q : Pred) : (s.modDie d f).pred k q = s.pred k q := rfl
@[simp] theorem byteAt_modDie (s : State) (d : Nat) (f : Die → Die) (k : Nat) : (s.modDie d f).byteAt k = s.byteAt k := rfl
@[simp] theorem grp_modDie (s : State) (d : Nat) (f : Die → Die) : (s.modDie d f).grp = s.grp := rfl

/-! ### setVreg -/

@[simp] theorem setVreg_pkg (s : State) (t n : Nat) (x : Word) : (s.setVreg t n x).pkg = s.pkg := rfl
@[simp] theorem setVreg_time (s : State) (t n : Nat) (x : Word) : (s.setVreg t n x).time = s.time := rfl
@[simp] theorem setVreg_threads (s : State) (t n : Nat) (x : Word) : (s.setVreg t n x).threads = s.threads := rfl
@[simp] theorem setVreg_preds (s : State) (t n : Nat) (x : Word) : (s.setVreg t n x).preds = s.preds := rfl
@[simp] theorem setVreg_waves (s : State) (t n : Nat) (x : Word) : (s.setVreg t n x).waves = s.waves := rfl
@[simp] theorem setVreg_sregs (s : State) (t n : Nat) (x : Word) : (s.setVreg t n x).sregs = s.sregs := rfl
@[simp] theorem setVreg_teams (s : State) (t n : Nat) (x : Word) : (s.setVreg t n x).teams = s.teams := rfl
@[simp] theorem setVreg_scratch (s : State) (t n : Nat) (x : Word) : (s.setVreg t n x).scratch = s.scratch := rfl
@[simp] theorem setVreg_cores (s : State) (t n : Nat) (x : Word) : (s.setVreg t n x).cores = s.cores := rfl
@[simp] theorem setVreg_tiles (s : State) (t n : Nat) (x : Word) : (s.setVreg t n x).tiles = s.tiles := rfl
@[simp] theorem setVreg_pend (s : State) (t n : Nat) (x : Word) : (s.setVreg t n x).pend = s.pend := rfl
@[simp] theorem setVreg_held (s : State) (t n : Nat) (x : Word) : (s.setVreg t n x).held = s.held := rfl
@[simp] theorem setVreg_vres (s : State) (t n : Nat) (x : Word) : (s.setVreg t n x).vres = s.vres := rfl
@[simp] theorem setVreg_pairs (s : State) (t n : Nat) (x : Word) : (s.setVreg t n x).pairs = s.pairs := rfl
@[simp] theorem setVreg_clusters (s : State) (t n : Nat) (x : Word) : (s.setVreg t n x).clusters = s.clusters := rfl
@[simp] theorem setVreg_dies (s : State) (t n : Nat) (x : Word) : (s.setVreg t n x).dies = s.dies := rfl
@[simp] theorem setVreg_mem (s : State) (t n : Nat) (x : Word) : (s.setVreg t n x).mem = s.mem := rfl
@[simp] theorem setVreg_poison (s : State) (t n : Nat) (x : Word) : (s.setVreg t n x).poison = s.poison := rfl
@[simp] theorem setVreg_codes (s : State) (t n : Nat) (x : Word) : (s.setVreg t n x).codes = s.codes := rfl
@[simp] theorem setVreg_ecc (s : State) (t n : Nat) (x : Word) : (s.setVreg t n x).ecc = s.ecc := rfl
@[simp] theorem setVreg_stage (s : State) (t n : Nat) (x : Word) : (s.setVreg t n x).stage = s.stage := rfl
@[simp] theorem setVreg_msys (s : State) (t n : Nat) (x : Word) : (s.setVreg t n x).msys = s.msys := rfl
@[simp] theorem setVreg_launches (s : State) (t n : Nat) (x : Word) : (s.setVreg t n x).launches = s.launches := rfl
@[simp] theorem setVreg_front (s : State) (t n : Nat) (x : Word) : (s.setVreg t n x).front = s.front := rfl
@[simp] theorem setVreg_power (s : State) (t n : Nat) (x : Word) : (s.setVreg t n x).power = s.power := rfl
@[simp] theorem setVreg_checker (s : State) (t n : Nat) (x : Word) : (s.setVreg t n x).checker = s.checker := rfl
@[simp] theorem setVreg_focus (s : State) (t n : Nat) (x : Word) : (s.setVreg t n x).focus = s.focus := rfl
@[simp] theorem setVreg_agenda (s : State) (t n : Nat) (x : Word) : (s.setVreg t n x).agenda = s.agenda := rfl
@[simp] theorem setVreg_turn (s : State) (t n : Nat) (x : Word) : (s.setVreg t n x).turn = s.turn := rfl
@[simp] theorem setVreg_draws (s : State) (t n : Nat) (x : Word) : (s.setVreg t n x).draws = s.draws := rfl
@[simp] theorem th_setVreg (s : State) (t n : Nat) (x : Word) (k : Nat) : (s.setVreg t n x).th k = s.th k := rfl
@[simp] theorem wv_setVreg (s : State) (t n : Nat) (x : Word) (k : Nat) : (s.setVreg t n x).wv k = s.wv k := rfl
@[simp] theorem tm_setVreg (s : State) (t n : Nat) (x : Word) (k : Nat) : (s.setVreg t n x).tm k = s.tm k := rfl
@[simp] theorem co_setVreg (s : State) (t n : Nat) (x : Word) (k : Nat) : (s.setVreg t n x).co k = s.co k := rfl
@[simp] theorem la_setVreg (s : State) (t n : Nat) (x : Word) (k : Nat) : (s.setVreg t n x).la k = s.la k := rfl
@[simp] theorem tp_setVreg (s : State) (t n : Nat) (x : Word) (k : Nat) : (s.setVreg t n x).tp k = s.tp k := rfl
@[simp] theorem cl_setVreg (s : State) (t n : Nat) (x : Word) (k : Nat) : (s.setVreg t n x).cl k = s.cl k := rfl
@[simp] theorem di_setVreg (s : State) (t n : Nat) (x : Word) (k : Nat) : (s.setVreg t n x).di k = s.di k := rfl
@[simp] theorem sreg_setVreg (s : State) (t n : Nat) (x : Word) (k j : Nat) : (s.setVreg t n x).sreg k j = s.sreg k j := rfl
@[simp] theorem pred_setVreg (s : State) (t n : Nat) (x : Word) (k : Nat) (q : Pred) : (s.setVreg t n x).pred k q = s.pred k q := rfl
@[simp] theorem byteAt_setVreg (s : State) (t n : Nat) (x : Word) (k : Nat) : (s.setVreg t n x).byteAt k = s.byteAt k := rfl
@[simp] theorem grp_setVreg (s : State) (t n : Nat) (x : Word) : (s.setVreg t n x).grp = s.grp := rfl

/-! ### setSreg -/

@[simp] theorem setSreg_pkg (s : State) (w n : Nat) (x : Word) : (s.setSreg w n x).pkg = s.pkg := rfl
@[simp] theorem setSreg_time (s : State) (w n : Nat) (x : Word) : (s.setSreg w n x).time = s.time := rfl
@[simp] theorem setSreg_threads (s : State) (w n : Nat) (x : Word) : (s.setSreg w n x).threads = s.threads := rfl
@[simp] theorem setSreg_vregs (s : State) (w n : Nat) (x : Word) : (s.setSreg w n x).vregs = s.vregs := rfl
@[simp] theorem setSreg_preds (s : State) (w n : Nat) (x : Word) : (s.setSreg w n x).preds = s.preds := rfl
@[simp] theorem setSreg_waves (s : State) (w n : Nat) (x : Word) : (s.setSreg w n x).waves = s.waves := rfl
@[simp] theorem setSreg_teams (s : State) (w n : Nat) (x : Word) : (s.setSreg w n x).teams = s.teams := rfl
@[simp] theorem setSreg_scratch (s : State) (w n : Nat) (x : Word) : (s.setSreg w n x).scratch = s.scratch := rfl
@[simp] theorem setSreg_cores (s : State) (w n : Nat) (x : Word) : (s.setSreg w n x).cores = s.cores := rfl
@[simp] theorem setSreg_tiles (s : State) (w n : Nat) (x : Word) : (s.setSreg w n x).tiles = s.tiles := rfl
@[simp] theorem setSreg_pend (s : State) (w n : Nat) (x : Word) : (s.setSreg w n x).pend = s.pend := rfl
@[simp] theorem setSreg_held (s : State) (w n : Nat) (x : Word) : (s.setSreg w n x).held = s.held := rfl
@[simp] theorem setSreg_vres (s : State) (w n : Nat) (x : Word) : (s.setSreg w n x).vres = s.vres := rfl
@[simp] theorem setSreg_pairs (s : State) (w n : Nat) (x : Word) : (s.setSreg w n x).pairs = s.pairs := rfl
@[simp] theorem setSreg_clusters (s : State) (w n : Nat) (x : Word) : (s.setSreg w n x).clusters = s.clusters := rfl
@[simp] theorem setSreg_dies (s : State) (w n : Nat) (x : Word) : (s.setSreg w n x).dies = s.dies := rfl
@[simp] theorem setSreg_mem (s : State) (w n : Nat) (x : Word) : (s.setSreg w n x).mem = s.mem := rfl
@[simp] theorem setSreg_poison (s : State) (w n : Nat) (x : Word) : (s.setSreg w n x).poison = s.poison := rfl
@[simp] theorem setSreg_codes (s : State) (w n : Nat) (x : Word) : (s.setSreg w n x).codes = s.codes := rfl
@[simp] theorem setSreg_ecc (s : State) (w n : Nat) (x : Word) : (s.setSreg w n x).ecc = s.ecc := rfl
@[simp] theorem setSreg_stage (s : State) (w n : Nat) (x : Word) : (s.setSreg w n x).stage = s.stage := rfl
@[simp] theorem setSreg_msys (s : State) (w n : Nat) (x : Word) : (s.setSreg w n x).msys = s.msys := rfl
@[simp] theorem setSreg_launches (s : State) (w n : Nat) (x : Word) : (s.setSreg w n x).launches = s.launches := rfl
@[simp] theorem setSreg_front (s : State) (w n : Nat) (x : Word) : (s.setSreg w n x).front = s.front := rfl
@[simp] theorem setSreg_power (s : State) (w n : Nat) (x : Word) : (s.setSreg w n x).power = s.power := rfl
@[simp] theorem setSreg_checker (s : State) (w n : Nat) (x : Word) : (s.setSreg w n x).checker = s.checker := rfl
@[simp] theorem setSreg_focus (s : State) (w n : Nat) (x : Word) : (s.setSreg w n x).focus = s.focus := rfl
@[simp] theorem setSreg_agenda (s : State) (w n : Nat) (x : Word) : (s.setSreg w n x).agenda = s.agenda := rfl
@[simp] theorem setSreg_turn (s : State) (w n : Nat) (x : Word) : (s.setSreg w n x).turn = s.turn := rfl
@[simp] theorem setSreg_draws (s : State) (w n : Nat) (x : Word) : (s.setSreg w n x).draws = s.draws := rfl
@[simp] theorem th_setSreg (s : State) (w n : Nat) (x : Word) (k : Nat) : (s.setSreg w n x).th k = s.th k := rfl
@[simp] theorem wv_setSreg (s : State) (w n : Nat) (x : Word) (k : Nat) : (s.setSreg w n x).wv k = s.wv k := rfl
@[simp] theorem tm_setSreg (s : State) (w n : Nat) (x : Word) (k : Nat) : (s.setSreg w n x).tm k = s.tm k := rfl
@[simp] theorem co_setSreg (s : State) (w n : Nat) (x : Word) (k : Nat) : (s.setSreg w n x).co k = s.co k := rfl
@[simp] theorem la_setSreg (s : State) (w n : Nat) (x : Word) (k : Nat) : (s.setSreg w n x).la k = s.la k := rfl
@[simp] theorem tp_setSreg (s : State) (w n : Nat) (x : Word) (k : Nat) : (s.setSreg w n x).tp k = s.tp k := rfl
@[simp] theorem cl_setSreg (s : State) (w n : Nat) (x : Word) (k : Nat) : (s.setSreg w n x).cl k = s.cl k := rfl
@[simp] theorem di_setSreg (s : State) (w n : Nat) (x : Word) (k : Nat) : (s.setSreg w n x).di k = s.di k := rfl
@[simp] theorem vreg_setSreg (s : State) (w n : Nat) (x : Word) (k j : Nat) : (s.setSreg w n x).vreg k j = s.vreg k j := rfl
@[simp] theorem pred_setSreg (s : State) (w n : Nat) (x : Word) (k : Nat) (q : Pred) : (s.setSreg w n x).pred k q = s.pred k q := rfl
@[simp] theorem byteAt_setSreg (s : State) (w n : Nat) (x : Word) (k : Nat) : (s.setSreg w n x).byteAt k = s.byteAt k := rfl
@[simp] theorem grp_setSreg (s : State) (w n : Nat) (x : Word) : (s.setSreg w n x).grp = s.grp := rfl

/-! ### modPage -/

@[simp] theorem modPage_pkg (s : State) (p : Nat) (f : StagePage → StagePage) : (s.modPage p f).pkg = s.pkg := rfl
@[simp] theorem modPage_time (s : State) (p : Nat) (f : StagePage → StagePage) : (s.modPage p f).time = s.time := rfl
@[simp] theorem modPage_threads (s : State) (p : Nat) (f : StagePage → StagePage) : (s.modPage p f).threads = s.threads := rfl
@[simp] theorem modPage_vregs (s : State) (p : Nat) (f : StagePage → StagePage) : (s.modPage p f).vregs = s.vregs := rfl
@[simp] theorem modPage_preds (s : State) (p : Nat) (f : StagePage → StagePage) : (s.modPage p f).preds = s.preds := rfl
@[simp] theorem modPage_waves (s : State) (p : Nat) (f : StagePage → StagePage) : (s.modPage p f).waves = s.waves := rfl
@[simp] theorem modPage_sregs (s : State) (p : Nat) (f : StagePage → StagePage) : (s.modPage p f).sregs = s.sregs := rfl
@[simp] theorem modPage_teams (s : State) (p : Nat) (f : StagePage → StagePage) : (s.modPage p f).teams = s.teams := rfl
@[simp] theorem modPage_scratch (s : State) (p : Nat) (f : StagePage → StagePage) : (s.modPage p f).scratch = s.scratch := rfl
@[simp] theorem modPage_cores (s : State) (p : Nat) (f : StagePage → StagePage) : (s.modPage p f).cores = s.cores := rfl
@[simp] theorem modPage_tiles (s : State) (p : Nat) (f : StagePage → StagePage) : (s.modPage p f).tiles = s.tiles := rfl
@[simp] theorem modPage_pend (s : State) (p : Nat) (f : StagePage → StagePage) : (s.modPage p f).pend = s.pend := rfl
@[simp] theorem modPage_held (s : State) (p : Nat) (f : StagePage → StagePage) : (s.modPage p f).held = s.held := rfl
@[simp] theorem modPage_vres (s : State) (p : Nat) (f : StagePage → StagePage) : (s.modPage p f).vres = s.vres := rfl
@[simp] theorem modPage_pairs (s : State) (p : Nat) (f : StagePage → StagePage) : (s.modPage p f).pairs = s.pairs := rfl
@[simp] theorem modPage_clusters (s : State) (p : Nat) (f : StagePage → StagePage) : (s.modPage p f).clusters = s.clusters := rfl
@[simp] theorem modPage_dies (s : State) (p : Nat) (f : StagePage → StagePage) : (s.modPage p f).dies = s.dies := rfl
@[simp] theorem modPage_mem (s : State) (p : Nat) (f : StagePage → StagePage) : (s.modPage p f).mem = s.mem := rfl
@[simp] theorem modPage_poison (s : State) (p : Nat) (f : StagePage → StagePage) : (s.modPage p f).poison = s.poison := rfl
@[simp] theorem modPage_codes (s : State) (p : Nat) (f : StagePage → StagePage) : (s.modPage p f).codes = s.codes := rfl
@[simp] theorem modPage_ecc (s : State) (p : Nat) (f : StagePage → StagePage) : (s.modPage p f).ecc = s.ecc := rfl
@[simp] theorem modPage_msys (s : State) (p : Nat) (f : StagePage → StagePage) : (s.modPage p f).msys = s.msys := rfl
@[simp] theorem modPage_launches (s : State) (p : Nat) (f : StagePage → StagePage) : (s.modPage p f).launches = s.launches := rfl
@[simp] theorem modPage_front (s : State) (p : Nat) (f : StagePage → StagePage) : (s.modPage p f).front = s.front := rfl
@[simp] theorem modPage_power (s : State) (p : Nat) (f : StagePage → StagePage) : (s.modPage p f).power = s.power := rfl
@[simp] theorem modPage_checker (s : State) (p : Nat) (f : StagePage → StagePage) : (s.modPage p f).checker = s.checker := rfl
@[simp] theorem modPage_focus (s : State) (p : Nat) (f : StagePage → StagePage) : (s.modPage p f).focus = s.focus := rfl
@[simp] theorem modPage_agenda (s : State) (p : Nat) (f : StagePage → StagePage) : (s.modPage p f).agenda = s.agenda := rfl
@[simp] theorem modPage_turn (s : State) (p : Nat) (f : StagePage → StagePage) : (s.modPage p f).turn = s.turn := rfl
@[simp] theorem modPage_draws (s : State) (p : Nat) (f : StagePage → StagePage) : (s.modPage p f).draws = s.draws := rfl
@[simp] theorem th_modPage (s : State) (p : Nat) (f : StagePage → StagePage) (k : Nat) : (s.modPage p f).th k = s.th k := rfl
@[simp] theorem wv_modPage (s : State) (p : Nat) (f : StagePage → StagePage) (k : Nat) : (s.modPage p f).wv k = s.wv k := rfl
@[simp] theorem tm_modPage (s : State) (p : Nat) (f : StagePage → StagePage) (k : Nat) : (s.modPage p f).tm k = s.tm k := rfl
@[simp] theorem co_modPage (s : State) (p : Nat) (f : StagePage → StagePage) (k : Nat) : (s.modPage p f).co k = s.co k := rfl
@[simp] theorem la_modPage (s : State) (p : Nat) (f : StagePage → StagePage) (k : Nat) : (s.modPage p f).la k = s.la k := rfl
@[simp] theorem tp_modPage (s : State) (p : Nat) (f : StagePage → StagePage) (k : Nat) : (s.modPage p f).tp k = s.tp k := rfl
@[simp] theorem cl_modPage (s : State) (p : Nat) (f : StagePage → StagePage) (k : Nat) : (s.modPage p f).cl k = s.cl k := rfl
@[simp] theorem di_modPage (s : State) (p : Nat) (f : StagePage → StagePage) (k : Nat) : (s.modPage p f).di k = s.di k := rfl
@[simp] theorem vreg_modPage (s : State) (p : Nat) (f : StagePage → StagePage) (k j : Nat) : (s.modPage p f).vreg k j = s.vreg k j := rfl
@[simp] theorem sreg_modPage (s : State) (p : Nat) (f : StagePage → StagePage) (k j : Nat) : (s.modPage p f).sreg k j = s.sreg k j := rfl
@[simp] theorem pred_modPage (s : State) (p : Nat) (f : StagePage → StagePage) (k : Nat) (q : Pred) : (s.modPage p f).pred k q = s.pred k q := rfl
@[simp] theorem byteAt_modPage (s : State) (p : Nat) (f : StagePage → StagePage) (k : Nat) : (s.modPage p f).byteAt k = s.byteAt k := rfl
@[simp] theorem grp_modPage (s : State) (p : Nat) (f : StagePage → StagePage) : (s.modPage p f).grp = s.grp := rfl

/-! ### sched -/

@[simp] theorem sched_pkg (s : State) (lat : Nat) (ws : List (Tgt × Word)) : (s.sched lat ws).pkg = s.pkg := rfl
@[simp] theorem sched_time (s : State) (lat : Nat) (ws : List (Tgt × Word)) : (s.sched lat ws).time = s.time := rfl
@[simp] theorem sched_threads (s : State) (lat : Nat) (ws : List (Tgt × Word)) : (s.sched lat ws).threads = s.threads := rfl
@[simp] theorem sched_vregs (s : State) (lat : Nat) (ws : List (Tgt × Word)) : (s.sched lat ws).vregs = s.vregs := rfl
@[simp] theorem sched_preds (s : State) (lat : Nat) (ws : List (Tgt × Word)) : (s.sched lat ws).preds = s.preds := rfl
@[simp] theorem sched_waves (s : State) (lat : Nat) (ws : List (Tgt × Word)) : (s.sched lat ws).waves = s.waves := rfl
@[simp] theorem sched_sregs (s : State) (lat : Nat) (ws : List (Tgt × Word)) : (s.sched lat ws).sregs = s.sregs := rfl
@[simp] theorem sched_teams (s : State) (lat : Nat) (ws : List (Tgt × Word)) : (s.sched lat ws).teams = s.teams := rfl
@[simp] theorem sched_scratch (s : State) (lat : Nat) (ws : List (Tgt × Word)) : (s.sched lat ws).scratch = s.scratch := rfl
@[simp] theorem sched_cores (s : State) (lat : Nat) (ws : List (Tgt × Word)) : (s.sched lat ws).cores = s.cores := rfl
@[simp] theorem sched_tiles (s : State) (lat : Nat) (ws : List (Tgt × Word)) : (s.sched lat ws).tiles = s.tiles := rfl
@[simp] theorem sched_held (s : State) (lat : Nat) (ws : List (Tgt × Word)) : (s.sched lat ws).held = s.held := rfl
@[simp] theorem sched_vres (s : State) (lat : Nat) (ws : List (Tgt × Word)) : (s.sched lat ws).vres = s.vres := rfl
@[simp] theorem sched_pairs (s : State) (lat : Nat) (ws : List (Tgt × Word)) : (s.sched lat ws).pairs = s.pairs := rfl
@[simp] theorem sched_clusters (s : State) (lat : Nat) (ws : List (Tgt × Word)) : (s.sched lat ws).clusters = s.clusters := rfl
@[simp] theorem sched_dies (s : State) (lat : Nat) (ws : List (Tgt × Word)) : (s.sched lat ws).dies = s.dies := rfl
@[simp] theorem sched_mem (s : State) (lat : Nat) (ws : List (Tgt × Word)) : (s.sched lat ws).mem = s.mem := rfl
@[simp] theorem sched_poison (s : State) (lat : Nat) (ws : List (Tgt × Word)) : (s.sched lat ws).poison = s.poison := rfl
@[simp] theorem sched_codes (s : State) (lat : Nat) (ws : List (Tgt × Word)) : (s.sched lat ws).codes = s.codes := rfl
@[simp] theorem sched_ecc (s : State) (lat : Nat) (ws : List (Tgt × Word)) : (s.sched lat ws).ecc = s.ecc := rfl
@[simp] theorem sched_stage (s : State) (lat : Nat) (ws : List (Tgt × Word)) : (s.sched lat ws).stage = s.stage := rfl
@[simp] theorem sched_msys (s : State) (lat : Nat) (ws : List (Tgt × Word)) : (s.sched lat ws).msys = s.msys := rfl
@[simp] theorem sched_launches (s : State) (lat : Nat) (ws : List (Tgt × Word)) : (s.sched lat ws).launches = s.launches := rfl
@[simp] theorem sched_front (s : State) (lat : Nat) (ws : List (Tgt × Word)) : (s.sched lat ws).front = s.front := rfl
@[simp] theorem sched_power (s : State) (lat : Nat) (ws : List (Tgt × Word)) : (s.sched lat ws).power = s.power := rfl
@[simp] theorem sched_checker (s : State) (lat : Nat) (ws : List (Tgt × Word)) : (s.sched lat ws).checker = s.checker := rfl
@[simp] theorem sched_focus (s : State) (lat : Nat) (ws : List (Tgt × Word)) : (s.sched lat ws).focus = s.focus := rfl
@[simp] theorem sched_agenda (s : State) (lat : Nat) (ws : List (Tgt × Word)) : (s.sched lat ws).agenda = s.agenda := rfl
@[simp] theorem sched_turn (s : State) (lat : Nat) (ws : List (Tgt × Word)) : (s.sched lat ws).turn = s.turn := rfl
@[simp] theorem sched_draws (s : State) (lat : Nat) (ws : List (Tgt × Word)) : (s.sched lat ws).draws = s.draws := rfl
@[simp] theorem th_sched (s : State) (lat : Nat) (ws : List (Tgt × Word)) (k : Nat) : (s.sched lat ws).th k = s.th k := rfl
@[simp] theorem wv_sched (s : State) (lat : Nat) (ws : List (Tgt × Word)) (k : Nat) : (s.sched lat ws).wv k = s.wv k := rfl
@[simp] theorem tm_sched (s : State) (lat : Nat) (ws : List (Tgt × Word)) (k : Nat) : (s.sched lat ws).tm k = s.tm k := rfl
@[simp] theorem co_sched (s : State) (lat : Nat) (ws : List (Tgt × Word)) (k : Nat) : (s.sched lat ws).co k = s.co k := rfl
@[simp] theorem la_sched (s : State) (lat : Nat) (ws : List (Tgt × Word)) (k : Nat) : (s.sched lat ws).la k = s.la k := rfl
@[simp] theorem tp_sched (s : State) (lat : Nat) (ws : List (Tgt × Word)) (k : Nat) : (s.sched lat ws).tp k = s.tp k := rfl
@[simp] theorem cl_sched (s : State) (lat : Nat) (ws : List (Tgt × Word)) (k : Nat) : (s.sched lat ws).cl k = s.cl k := rfl
@[simp] theorem di_sched (s : State) (lat : Nat) (ws : List (Tgt × Word)) (k : Nat) : (s.sched lat ws).di k = s.di k := rfl
@[simp] theorem vreg_sched (s : State) (lat : Nat) (ws : List (Tgt × Word)) (k j : Nat) : (s.sched lat ws).vreg k j = s.vreg k j := rfl
@[simp] theorem sreg_sched (s : State) (lat : Nat) (ws : List (Tgt × Word)) (k j : Nat) : (s.sched lat ws).sreg k j = s.sreg k j := rfl
@[simp] theorem pred_sched (s : State) (lat : Nat) (ws : List (Tgt × Word)) (k : Nat) (q : Pred) : (s.sched lat ws).pred k q = s.pred k q := rfl
@[simp] theorem byteAt_sched (s : State) (lat : Nat) (ws : List (Tgt × Word)) (k : Nat) : (s.sched lat ws).byteAt k = s.byteAt k := rfl
@[simp] theorem grp_sched (s : State) (lat : Nat) (ws : List (Tgt × Word)) : (s.sched lat ws).grp = s.grp := rfl

/-! ### What an update leaves at its own key and at the others -/

@[simp] theorem th_modThread_same (s : State) (t : Nat) (f : Thread → Thread) : (s.modThread t f).th t = f (s.th t) := AMap.get_set_same ..
theorem th_modThread_other (s : State) (t : Nat) (f : Thread → Thread) (j : Nat) (h : j ≠ t) : (s.modThread t f).th j = s.th j := AMap.get_set_other _ _ _ _ _ h
@[simp] theorem wv_modWave_same (s : State) (w : Nat) (f : Wave → Wave) : (s.modWave w f).wv w = f (s.wv w) := AMap.get_set_same ..
theorem wv_modWave_other (s : State) (w : Nat) (f : Wave → Wave) (j : Nat) (h : j ≠ w) : (s.modWave w f).wv j = s.wv j := AMap.get_set_other _ _ _ _ _ h
@[simp] theorem tm_modTeam_same (s : State) (t : Nat) (f : Team → Team) : (s.modTeam t f).tm t = f (s.tm t) := AMap.get_set_same ..
theorem tm_modTeam_other (s : State) (t : Nat) (f : Team → Team) (j : Nat) (h : j ≠ t) : (s.modTeam t f).tm j = s.tm j := AMap.get_set_other _ _ _ _ _ h
@[simp] theorem co_modCore_same (s : State) (c : Nat) (f : Core → Core) : (s.modCore c f).co c = f (s.co c) := AMap.get_set_same ..
theorem co_modCore_other (s : State) (c : Nat) (f : Core → Core) (j : Nat) (h : j ≠ c) : (s.modCore c f).co j = s.co j := AMap.get_set_other _ _ _ _ _ h
@[simp] theorem la_modLaunch_same (s : State) (l : Nat) (f : Launch → Launch) : (s.modLaunch l f).la l = f (s.la l) := AMap.get_set_same ..
theorem la_modLaunch_other (s : State) (l : Nat) (f : Launch → Launch) (j : Nat) (h : j ≠ l) : (s.modLaunch l f).la j = s.la j := AMap.get_set_other _ _ _ _ _ h
@[simp] theorem tp_modPair_same (s : State) (p : Nat) (f : TwinPair → TwinPair) : (s.modPair p f).tp p = f (s.tp p) := AMap.get_set_same ..
theorem tp_modPair_other (s : State) (p : Nat) (f : TwinPair → TwinPair) (j : Nat) (h : j ≠ p) : (s.modPair p f).tp j = s.tp j := AMap.get_set_other _ _ _ _ _ h
@[simp] theorem cl_modCluster_same (s : State) (c : Nat) (f : Cluster → Cluster) : (s.modCluster c f).cl c = f (s.cl c) := AMap.get_set_same ..
theorem cl_modCluster_other (s : State) (c : Nat) (f : Cluster → Cluster) (j : Nat) (h : j ≠ c) : (s.modCluster c f).cl j = s.cl j := AMap.get_set_other _ _ _ _ _ h
@[simp] theorem di_modDie_same (s : State) (d : Nat) (f : Die → Die) : (s.modDie d f).di d = f (s.di d) := AMap.get_set_same ..
theorem di_modDie_other (s : State) (d : Nat) (f : Die → Die) (j : Nat) (h : j ≠ d) : (s.modDie d f).di j = s.di j := AMap.get_set_other _ _ _ _ _ h

@[simp] theorem vreg_setVreg_same (s : State) (t n : Nat) (x : Word) : (s.setVreg t n x).vreg t n = x := AMap.get_set_same ..
theorem vreg_setVreg_other (s : State) (t n : Nat) (x : Word) (u m : Nat) (h : u * 256 + m ≠ t * 256 + n) :
    (s.setVreg t n x).vreg u m = s.vreg u m := AMap.get_set_other _ _ _ _ _ h
@[simp] theorem sreg_setSreg_same (s : State) (w n : Nat) (x : Word) : (s.setSreg w n x).sreg w n = x := AMap.get_set_same ..
theorem sreg_setSreg_other (s : State) (w n : Nat) (x : Word) (u m : Nat) (h : u * 64 + m ≠ w * 64 + n) :
    (s.setSreg w n x).sreg u m = s.sreg u m := AMap.get_set_other _ _ _ _ _ h

/-- A write to `p0` changes nothing (05 R120). -/
@[simp] theorem setPred_zero (s : State) (t : Nat) (b : Bool) : s.setPred t 0 b = s := rfl

theorem pred_setPred_same (s : State) (t : Nat) (p : Pred) (b : Bool) (h : p ≠ 0) : (s.setPred t p b).pred t p = b := by
  have hp : (p == 0) = false := by simpa using h
  have e : (s.setPred t p b).preds = AMap.set false s.preds (t * 16 + p.toNat) b := by unfold setPred; rw [if_neg h]
  rw [pred, e, hp, Bool.false_or, AMap.get_set_same]

/-! ### A change of several threads -/

theorem get_foldl_set {α : Type} [DecidableEq α] (d : α) (f : Nat → α → α) (ts : List Nat) (m : AMap α) (k : Nat)
    (h : ts.Nodup) :
    AMap.get d (ts.foldl (fun m t => AMap.set d m t (f t (AMap.get d m t))) m) k =
      if k ∈ ts then f k (AMap.get d m k) else AMap.get d m k := by
  induction ts generalizing m with
  | nil => simp
  | cons t r ih =>
    have hr := List.nodup_cons.mp h
    rw [List.foldl_cons, ih _ hr.2]
    by_cases hk : k = t
    · subst hk
      simp [hr.1]
    · simp [hk, AMap.get_set_other d m t k _ hk]

/-- A thread that is not in the list keeps its state. -/
theorem get_foldl_set_other {α : Type} [DecidableEq α] (d : α) (f : Nat → α → α) (ts : List Nat) (m : AMap α) (k : Nat)
    (h : k ∉ ts) : AMap.get d (ts.foldl (fun m t => AMap.set d m t (f t (AMap.get d m t))) m) k = AMap.get d m k := by
  induction ts generalizing m with
  | nil => rfl
  | cons t r ih =>
    simp only [List.mem_cons, not_or] at h
    rw [List.foldl_cons, ih _ h.2, AMap.get_set_other d m t k _ h.1]

theorem th_modThreads (s : State) (ts : List Nat) (f : Nat → Thread → Thread) (k : Nat) (h : ts.Nodup) :
    (s.modThreads ts f).th k = if k ∈ ts then f k (s.th k) else s.th k := get_foldl_set ({} : Thread) f ts s.threads k h

theorem th_modThreads_other (s : State) (ts : List Nat) (f : Nat → Thread → Thread) (k : Nat) (h : k ∉ ts) :
    (s.modThreads ts f).th k = s.th k := get_foldl_set_other ({} : Thread) f ts s.threads k h

end Sys2Proof.Machine.State
end

