-- ==== Sys2Proof/Laws/Commit.lean ====
section
/-!
SUPPORT. Sys2Proof/Laws/Commit.lean: what committing results, dropping versions, releasing barriers and entering the PC table can
change.
-/

namespace Sys2Proof.Machine.State

open Sys2Proof

/-- What results can change: registers, predicates, threads and waves. -/
def SameButResults (s t : State) : Prop := ∃ v p r x w, t = { s with vregs := v, preds := p, sregs := r, threads := x, waves := w }

theorem sameButResults_trans {s t u : State} (h : SameButResults s t) (k : SameButResults t u) : SameButResults s u := by
  obtain ⟨_, _, _, _, _, rfl⟩ := h
  obtain ⟨_, _, _, _, _, rfl⟩ := k
  exact ⟨_, _, _, _, _, rfl⟩

theorem applyWrite_frame (s : State) (w : PWrite) : SameButResults s (s.applyWrite w) := by
  unfold applyWrite
  split
  · exact ⟨_, _, _, _, _, rfl⟩
  · exact ⟨_, _, _, _, _, rfl⟩
  · unfold setPred
    split <;> exact ⟨_, _, _, _, _, rfl⟩
  · exact ⟨_, _, _, _, _, rfl⟩
  · exact ⟨_, _, _, _, _, rfl⟩

theorem foldl_applyWrite_frame (ws : List PWrite) (s : State) : SameButResults s (ws.foldl applyWrite s) := by
  induction ws generalizing s with
  | nil => exact ⟨_, _, _, _, _, rfl⟩
  | cons w r ih => exact sameButResults_trans (applyWrite_frame s w) (ih _)

/-- A commit changes what results are written to, and takes results off the list of those on their way. -/
theorem commitWrites_frame (s : State) (p : PWrite → Bool) :
    ∃ q, SameButResults { s with pend := q } (s.commitWrites p) ∧ ∀ w ∈ q, w ∈ s.pend ∧ p w = false := by
  obtain ⟨_, _, _, _, _, h⟩ := foldl_applyWrite_frame (sortBy (fun w => 2 * w.due + (!isForeign w).toNat)
    ((s.pend.filter p).filter (fun w => !(isCount w.tgt && (s.pend.filter p).any (fun o => o.tgt == w.tgt && decide (w.issue < o.issue)))))) s
  refine ⟨(s.commitWrites p).pend, ?_, ?_⟩
  · simp only [commitWrites, h]
    exact ⟨_, _, _, _, _, rfl⟩
  · simp only [commitWrites, h, List.mem_filter, Bool.and_eq_true, Bool.not_eq_true']
    exact fun w hw => ⟨hw.1, hw.2.1.1⟩

/-- Versions that leave their page leave the staging pages, and the others stay; their frames go into quarantine. -/
theorem dropVersions_frame (s : State) (p : Nat → Version → Bool) :
    ∃ q, s.dropVersions p = { s with
      stage := s.stage.map (fun e => (e.1, { e.2 with versions := e.2.versions.filter (fun v => !p e.1 v) }))
      msys := { s.msys with quarantine := s.msys.quarantine ++ q } } := ⟨_, rfl⟩

/-- A barrier's release changes threads, and what the private caches hold. -/
theorem freeBarriers_frame (s : State) (p : Nat → Bool) : ∃ x c, s.freeBarriers p = { s with threads := x, cores := c } := by
  have h (cs : List Nat) (s : State) : ∃ c, cs.foldl (fun s c => s.modCore c Core.acquire) s = { s with cores := c } := by
    induction cs generalizing s with
    | nil => exact ⟨_, rfl⟩
    | cons c r ih =>
      obtain ⟨k, hk⟩ := ih (s.modCore c Core.acquire)
      exact ⟨k, hk⟩
  obtain ⟨c, hc⟩ := h ((((s.threads.map Prod.fst).filter (fun t => p t && s.barrierDue t)).map s.coreOf).dedup)
    (s.modThreads ((s.threads.map Prod.fst).filter (fun t => p t && s.barrierDue t)) (fun _ x => { x with park := .none }))
  exact ⟨_, c, hc⟩

/-- Entering the PC table changes threads only. -/
theorem reachPc_frame (s : State) (c tid : Nat) : ∃ x, s.reachPc c tid = { s with threads := x } := by
  unfold reachPc
  dsimp only
  split <;> exact ⟨_, rfl⟩

end Sys2Proof.Machine.State
end

