-- ==== Sys2Proof/Laws/Issue.lean ====
section
/-!
SUPPORT. Sys2Proof/Laws/Issue.lean: what the shared operations of an issue can do: the gate's four outcomes, leaving the
formed groups, the trace, the issue itself, moving on and scheduling a result.
-/

namespace Sys2Proof.Machine.State

open Sys2Proof Sys2Proof.Claims

/-! ### The frame of an issue composes -/

theorem kept_refl (s : State) : Kept s s := by
  refine ⟨rfl, rfl, rfl, rfl, rfl, rfl, rfl, rfl, rfl, rfl, rfl, rfl, rfl, rfl, rfl, rfl, rfl, rfl, rfl, rfl, rfl, rfl, rfl, rfl, rfl,
    ?_, ?_, ?_, ?_⟩ <;> intros <;> rfl

theorem kept_trans {s t u : State} (h : Kept s t) (k : Kept t u) : Kept s u where
  pkg := k.pkg.trans h.pkg
  time := k.time.trans h.time
  vregs := k.vregs.trans h.vregs
  preds := k.preds.trans h.preds
  sregs := k.sregs.trans h.sregs
  scratch := k.scratch.trans h.scratch
  tiles := k.tiles.trans h.tiles
  mem := k.mem.trans h.mem
  poison := k.poison.trans h.poison
  codes := k.codes.trans h.codes
  ecc := k.ecc.trans h.ecc
  stage := k.stage.trans h.stage
  teams := k.teams.trans h.teams
  launches := k.launches.trans h.launches
  pairs := k.pairs.trans h.pairs
  clusters := k.clusters.trans h.clusters
  msys := k.msys.trans h.msys
  front := k.front.trans h.front
  power := k.power.trans h.power
  checker := k.checker.trans h.checker
  held := k.held.trans h.held
  focus := k.focus.trans h.focus
  agenda := k.agenda.trans h.agenda
  turn := k.turn.trans h.turn
  draws := k.draws.trans h.draws
  waves := fun w => by rw [k.waves w, h.waves w]
  cores := fun c => by rw [k.cores c, h.cores c]
  otherCores := fun c hc => (k.otherCores c (by rw [h.focus]; exact hc)).trans (h.otherCores c hc)
  dies := fun d => by rw [k.dies d, h.dies d]

/-! ### The parts of an issue -/

/-- A change of a core's formed groups and of the clk at which its ports and units are free, for the core in focus. -/
theorem kept_modCore (s : State) (f : Core → Core)
    (h : ∀ c, f c = { c with
      groups := (f c).groups, arithAt := (f c).arithAt, memAt := (f c).memAt, sfuAt := (f c).sfuAt, rndAt := (f c).rndAt }) :
    Kept s (s.modCore s.focus.core f) := by
  refine ⟨rfl, rfl, rfl, rfl, rfl, rfl, rfl, rfl, rfl, rfl, rfl, rfl, rfl, rfl, rfl, rfl, rfl, rfl, rfl, rfl, rfl, rfl, rfl, rfl, rfl,
    fun _ => rfl, fun c => ?_, fun c hc => co_modCore_other _ _ _ _ hc, fun _ => rfl⟩
  by_cases hc : c = s.focus.core
  · subst hc
    rw [co_modCore_same]
    exact h _
  · rw [co_modCore_other _ _ _ _ hc]

theorem kept_leave (s : State) : Kept s s.leave := kept_modCore s _ (fun _ => rfl)

theorem kept_modDie (s : State) (d : Nat) (g : Die → List TraceEntry) (n : Die → Nat) :
    Kept s (s.modDie d (fun x => { x with trace := g x, traceLost := n x })) := by
  refine ⟨rfl, rfl, rfl, rfl, rfl, rfl, rfl, rfl, rfl, rfl, rfl, rfl, rfl, rfl, rfl, rfl, rfl, rfl, rfl, rfl, rfl, rfl, rfl, rfl, rfl,
    fun _ => rfl, fun _ => rfl, fun _ _ => rfl, fun k => ?_⟩
  by_cases hk : k = d
  · subst hk
    rw [di_modDie_same]
  · rw [di_modDie_other _ _ _ _ hk]

theorem kept_trace (s : State) (mem : Bool) (code : Nat) : Kept s (s.trace mem code) := by
  unfold trace
  split
  · exact kept_refl s
  · exact kept_modDie s _ _ _

theorem kept_takePort (s : State) (mem : Bool) : Kept s (s.takePort mem) :=
  kept_modCore s _ (fun c => by cases mem <;> rfl)

/-- A change of convergence timers and pair points of waves is within the frame of an issue. -/
theorem kept_modWaves (f : Wave → Wave)
    (h : ∀ x, f x = { x with timer := (f x).timer, timerOn := (f x).timerOn, timerRun := (f x).timerRun, pairGo := (f x).pairGo })
    (ws : List Nat) (s : State) : Kept s (ws.foldl (fun s w => s.modWave w f) s) := by
  induction ws generalizing s with
  | nil => exact kept_refl s
  | cons w r ih =>
    refine kept_trans ?_ (ih _)
    refine ⟨rfl, rfl, rfl, rfl, rfl, rfl, rfl, rfl, rfl, rfl, rfl, rfl, rfl, rfl, rfl, rfl, rfl, rfl, rfl, rfl, rfl, rfl, rfl, rfl, rfl,
      fun k => ?_, fun _ => rfl, fun _ _ => rfl, fun _ => rfl⟩
    by_cases hk : k = w
    · subst hk
      rw [wv_modWave_same]
      exact h _
    · rw [wv_modWave_other _ _ _ _ hk]

/-- The issuing core's port is taken, and its unit busy. -/
def portTaken (s : State) (u : Uses) : State :=
  (s.leave.modCore s.focus.core (fun c =>
    if u.unit = 1 then { c with sfuAt := c.clk + 4 } else if u.unit = 2 then { c with rndAt := c.clk + 4 } else c)).takePort u.memPort

/-- Pair points of waves are left behind. -/
def pairsReset (s : State) (ws : List Nat) : State := ws.foldl (fun s w => s.modWave w (fun x => { x with pairGo := false })) s

theorem issued_eq (s : State) (u : Uses) :
    s.issued u = (if u.collective then ((s.portTaken u).resetTimers s.wavesF).pairsReset s.wavesF else s.portTaken u).trace u.memPort 0 := rfl

theorem kept_portTaken (s : State) (u : Uses) : Kept s (s.portTaken u) :=
  kept_trans (kept_trans (kept_leave s) (kept_modCore s.leave _ (fun c => by
    by_cases h1 : u.unit = 1 <;> by_cases h2 : u.unit = 2 <;> simp [h1, h2]))) (kept_takePort _ _)

/-- An issue changes only what its frame allows. -/
theorem kept_issued (s : State) (u : Uses) : Kept s (s.issued u) := by
  rw [issued_eq]
  split
  · exact kept_trans (kept_trans (kept_trans (kept_portTaken s u) (kept_modWaves _ (fun _ => rfl) _ _))
      (kept_modWaves _ (fun _ => rfl) _ _)) (kept_trace _ _ _)
  · exact kept_trans (kept_portTaken s u) (kept_trace _ _ _)

/-- The threads and the results on their way. -/
def Flight (s t : State) : Prop := t.threads = s.threads ∧ t.pend = s.pend ∧ t.vres = s.vres

/-- No part of an issue touches a thread or a result on its way. -/
theorem trace_flight (s : State) (mem : Bool) (code : Nat) : Flight s (s.trace mem code) := by
  unfold trace
  split <;> exact ⟨rfl, rfl, rfl⟩

theorem modWaves_flight (f : Wave → Wave) (ws : List Nat) (s : State) : Flight s (ws.foldl (fun s w => s.modWave w f) s) := by
  induction ws generalizing s with
  | nil => exact ⟨rfl, rfl, rfl⟩
  | cons w r ih => exact ih (s.modWave w f)

theorem flight_trans {s t u : State} (h : Flight s t) (k : Flight t u) : Flight s u :=
  ⟨k.1.trans h.1, k.2.1.trans h.2.1, k.2.2.trans h.2.2⟩

theorem issued_flight (s : State) (u : Uses) : Flight s (s.issued u) := by
  have h : Flight s (s.portTaken u) := ⟨rfl, rfl, rfl⟩
  rw [issued_eq]
  split
  · exact flight_trans (flight_trans (flight_trans h (modWaves_flight _ _ _)) (modWaves_flight _ _ _)) (trace_flight _ _ _)
  · exact flight_trans h (trace_flight _ _ _)

@[simp] theorem issued_th (s : State) (u : Uses) (x : Nat) : (s.issued u).th x = s.th x := by
  unfold th
  rw [(issued_flight s u).1]

/-! ### Threads and results -/

/-- A change of threads alone is within the frame of an issue. -/
theorem kept_modThreads (s : State) (ts : List Nat) (f : Nat → Thread → Thread) : Kept s (s.modThreads ts f) :=
  ⟨rfl, rfl, rfl, rfl, rfl, rfl, rfl, rfl, rfl, rfl, rfl, rfl, rfl, rfl, rfl, rfl, rfl, rfl, rfl, rfl, rfl, rfl, rfl, rfl, rfl,
    fun _ => rfl, fun _ => rfl, fun _ _ => rfl, fun _ => rfl⟩

theorem kept_sched (s : State) (lat : Nat) (ws : List (Tgt × Word)) : Kept s (s.sched lat ws) :=
  ⟨rfl, rfl, rfl, rfl, rfl, rfl, rfl, rfl, rfl, rfl, rfl, rfl, rfl, rfl, rfl, rfl, rfl, rfl, rfl, rfl, rfl, rfl, rfl, rfl, rfl,
    fun _ => rfl, fun _ => rfl, fun _ _ => rfl, fun _ => rfl⟩

/-- Moving on moves exactly the group's threads. -/
theorem moves_advance (s : State) (h : Hdr) (len : Nat) (hn : s.grp.Nodup) : Moves h len s (s.advance h len) := by
  refine ⟨fun x hx => ?_, fun x hx => ?_⟩
  · unfold advance
    rw [th_modThreads _ _ _ _ hn, if_pos hx]
  · unfold advance
    rw [th_modThreads_other _ _ _ _ hx]

/-- A group that is not ready waits for the next clk, and nothing else changes. -/
theorem holdGroup_th (s : State) (hn : s.grp.Nodup) (x : Nat) :
    s.holdGroup.th x = if x ∈ s.grp then { s.th x with readyAt := max (s.th x).readyAt (s.now + 1) } else s.th x := by
  simp only [holdGroup, th_modCore]
  rw [th_modThreads _ _ _ _ hn]

/-! ### The gate -/

theorem byGate_go {s : State} {u : Uses} (go : State → Host.Outcome State Fault Refusal) (h : s.gate u = .go) :
    s.byGate u go = go s := by
  unfold byGate
  rw [h]

theorem byGate_hold {s : State} {u : Uses} (go : State → Host.Outcome State Fault Refusal) (h : s.gate u = .hold) :
    s.byGate u go = .next s.holdGroup := by
  unfold byGate
  rw [h]

theorem byGate_park {s : State} {u : Uses} {p : Park} (go : State → Host.Outcome State Fault Refusal) (h : s.gate u = .park p) :
    s.byGate u go = .next (s.leave.modThreads s.grp (fun _ t => { t with park := p })) := by
  unfold byGate
  rw [h]

theorem byGate_trap {s : State} {u : Uses} {ti : TrapInfo} (go : State → Host.Outcome State Fault Refusal)
    (h : s.gate u = .trap ti) : s.byGate u go = .next (s.raise u.h u.len ti) := by
  unfold byGate
  rw [h]

/-- An arithmetic instruction that its gate lets through traps on its lane results, or is done with them. -/
theorem alu_go {u : Uses} (d : Option Opnd) (f : State → Pops → Nat → LaneOut) {s : State} (h : s.gate u = .go) :
    alu u d f s = match s.arithTrap (s.laneOuts u f) with
      | some t => .next (s.raise u.h u.len t)
      | none => .next (s.aluDone u d (s.laneOuts u f)) := by
  unfold alu
  exact byGate_go _ h

/-- There is no arithmetic trap exactly where no lane meets an enabled condition. -/
theorem arithTrap_none (s : State) (outs : List (Nat × LaneOut)) :
    s.arithTrap outs = none ↔ ∀ o ∈ outs, o.2.conds &&& s.launchF.atEn = 0 := by
  simp [arithTrap, List.filter_eq_nil_iff]

end Sys2Proof.Machine.State
end

