-- ==== Sys2Proof/Tests/Slice0.lean ====
section
/-!
SUPPORT. Sys2Proof/Tests/Slice0.lean: the model's own tests: words written from the encoding tables, ill-formed terms, single
steps with results worked from the spec, and for each statement of Certificates/Slice0/Obligations.lean states and operands that
meet the hypotheses of its clauses.
-/

namespace Sys2Proof.Tests

open Sys2Proof

/-- The header of the words below: a stall count of 9, guard `!p6`. -/
def hdr (l : Len) : Hdr := ⟨l, 9, 6, true⟩

/-- Each word is decoded as the instruction beside it. -/
def reads (xs : List (Nat × Nat × Instr)) : Bool := xs.all (fun x => decodeTableWord x.1 x.2.1 == some x.2.2)

/-- Words assembled by hand from 04 Table 4.6 in the frame of 02 Tables 2.1 to 2.3. -/
theorem test_words_control_1 : reads [
    (128, 0xFFFFFFF00000000000000000000005A7, .bra (hdr .w128) 0xFFFFFFF0),
    (128, 0x000000400000000000000000000015A7, .call (hdr .w128) 0x40),
    (64, 0x0000076040000DA5, .bri (hdr .w64) ⟨.v 4, .xor 7⟩),
    (64, 0x0000001060001DA5, .calli (hdr .w64) ⟨.s 6, .ident⟩),
    (64, 0x00000000000025A5, .ret (hdr .w64)),
    (64, 0x0000000000002DA5, .exit (hdr .w64)),
    (96, 0x0000000000000000000035A6, .nop (hdr .w96)),
    (64, 0x0000080010003DA5, .stall (hdr .w64) 0x8001),
    (64, 0x00000002500045A5, .yield (hdr .w64) 37),
    (64, 0x0000000000004DA5, .coll (hdr .w64)),
    (64, 0x00000000000055A5, .region (hdr .w64)),
    (128, 0x89ABCDEF049800000000401040005DA7, .marm (hdr .w128) ⟨⟨.s 4, .ident⟩, ⟨.v 2, .ident⟩, 0x89abcdef, 2, false, 4⟩ 3)] = true := by decide +kernel

/-- Words assembled by hand from 04 Table 4.6 in the frame of 02 Tables 2.1 to 2.3. -/
theorem test_words_control_2 : reads [
    (64, 0x00000040000065A5, .mwaitT (hdr .w64) 1024),
    (64, 0x40000000304865A5, .mwaitP (hdr .w64) 9 3),
    (64, 0x0000000120006DA5, .waitsb (hdr .w64) 0b10010)] = true := by decide +kernel

/-- Words assembled by hand from 05 Tables 5.4 and 5.5 in the frame of 02 Tables 2.1 to 2.3. -/
theorem test_words_integer_1 : reads [
    (96, 0xD60000000B104010903905A6, .iadd (hdr .w96) (.v 7) ⟨.s 9, .ident⟩ (.reg ⟨.v 130, .mir 5⟩) true true 11),
    (128, 0x89ABCDEF8C00000000001F482A190DA7, .isub (hdr .w128) (.y 3) ⟨.v 130, .bc 31⟩ (.imm 0x89abcdef) true false 6),
    (96, 0x0400000D0B104010903915A6, .iaddc (hdr .w96) (.v 7) ⟨.s 9, .ident⟩ (.reg ⟨.v 130, .mir 5⟩) 13 2),
    (128, 0x89ABCDEFC000000000001F482A191DA7, .imul (hdr .w128) (.y 3) ⟨.v 130, .bc 31⟩ (.imm 0x89abcdef) true true),
    (96, 0x400000000B104010903925A6, .imulh (hdr .w96) (.v 7) ⟨.s 9, .ident⟩ (.reg ⟨.v 130, .mir 5⟩) true),
    (96, 0x800092FB0B10401090392DA6, .imad (hdr .w96) (.v 7) ⟨.s 9, .ident⟩ (.reg ⟨.v 130, .mir 5⟩) ⟨.v 251, .rot 9⟩ true false),
    (96, 0x4000013E00104010904135A6, .imadw (hdr .w96) (.v 8) ⟨.s 9, .ident⟩ (.reg ⟨.v 130, .ident⟩) ⟨.s 62, .ident⟩ true),
    (96, 0x0600000000104010C0413DA6, .iadd64 (hdr .w96) (.v 8) ⟨.s 12, .ident⟩ (.reg ⟨.v 130, .ident⟩) 3),
    (64, 0x002D4010C04145A5, .isub64 (hdr .w64) (.v 8) ⟨.s 12, .ident⟩ (.reg ⟨.c 2, .ident⟩) 0),
    (64, 0x0B10401090394DA5, .imin (hdr .w64) (.v 7) ⟨.s 9, .ident⟩ (.reg ⟨.v 130, .mir 5⟩) false),
    (96, 0x400000000B104010903955A6, .imax (hdr .w96) (.v 7) ⟨.s 9, .ident⟩ (.reg ⟨.v 130, .mir 5⟩) true),
    (64, 0x000001682B115DA5, .iabs (hdr .w64) (.e 2) ⟨.v 130, .xor 1⟩)] = true := by decide +kernel

/-- Words assembled by hand from 05 Tables 5.4 and 5.5 in the frame of 02 Tables 2.1 to 2.3. -/
theorem test_words_integer_2 : reads [
    (64, 0x000001682B1165A5, .ineg (hdr .w64) (.e 2) ⟨.v 130, .xor 1⟩),
    (64, 0x000001682B118DA5, .not (hdr .w64) (.e 2) ⟨.v 130, .xor 1⟩),
    (64, 0x000001682B11CDA5, .popc (hdr .w64) (.e 2) ⟨.v 130, .xor 1⟩),
    (64, 0x000001682B11D5A5, .clz (hdr .w64) (.e 2) ⟨.v 130, .xor 1⟩),
    (64, 0x000001682B11DDA5, .ctz (hdr .w64) (.e 2) ⟨.v 130, .xor 1⟩),
    (64, 0x000001682B11E5A5, .brev (hdr .w64) (.e 2) ⟨.v 130, .xor 1⟩),
    (64, 0x0B10401090396DA5, .and (hdr .w64) (.v 7) ⟨.s 9, .ident⟩ (.reg ⟨.v 130, .mir 5⟩)),
    (64, 0x0B104010903975A5, .or (hdr .w64) (.v 7) ⟨.s 9, .ident⟩ (.reg ⟨.v 130, .mir 5⟩)),
    (64, 0x0B10401090397DA5, .xor (hdr .w64) (.v 7) ⟨.s 9, .ident⟩ (.reg ⟨.v 130, .mir 5⟩)),
    (64, 0x0B104010903985A5, .andn (hdr .w64) (.v 7) ⟨.s 9, .ident⟩ (.reg ⟨.v 130, .mir 5⟩)),
    (64, 0x0B1040109039ADA5, .rotl (hdr .w64) (.v 7) ⟨.s 9, .ident⟩ (.reg ⟨.v 130, .mir 5⟩)),
    (96, 0x200000000B104010903995A6, .shl (hdr .w96) (.v 7) ⟨.s 9, .ident⟩ (.reg ⟨.v 130, .mir 5⟩) true)] = true := by decide +kernel

/-- Words assembled by hand from 05 Tables 5.4 and 5.5 in the frame of 02 Tables 2.1 to 2.3. -/
theorem test_words_integer_3 : reads [
    (96, 0x200000000B10401090399DA6, .shr (hdr .w96) (.v 7) ⟨.s 9, .ident⟩ (.reg ⟨.v 130, .mir 5⟩) true),
    (96, 0x200000000B1040109039A5A6, .sar (hdr .w96) (.v 7) ⟨.s 9, .ident⟩ (.reg ⟨.v 130, .mir 5⟩) true),
    (96, 0x000000FB0B1040109039B5A6, .shfL (hdr .w96) (.v 7) ⟨.s 9, .ident⟩ (.reg ⟨.v 130, .mir 5⟩) ⟨.v 251, .ident⟩),
    (128, 0x89ABCDEF000000FB40001F482A19B5A7, .shfR (hdr .w128) (.y 3) ⟨.v 130, .bc 31⟩ (.imm 0x89abcdef) ⟨.v 251, .ident⟩),
    (128, 0x89ABCDEF4000000000001F482A19BDA7, .bfe (hdr .w128) (.y 3) ⟨.v 130, .bc 31⟩ (.imm 0x89abcdef) true),
    (96, 0x000000FB0B1040109039C5A6, .bfi (hdr .w96) (.v 7) ⟨.s 9, .ident⟩ (.reg ⟨.v 130, .mir 5⟩) ⟨.v 251, .ident⟩),
    (96, 0x000000FB0B1040109039EDA6, .prmb (hdr .w96) (.v 7) ⟨.s 9, .ident⟩ (.reg ⟨.v 130, .mir 5⟩) ⟨.v 251, .ident⟩),
    (96, 0x01B40003001040109071F5A6, .isetp (hdr .w96) 14 ⟨.s 9, .ident⟩ (.reg ⟨.v 130, .ident⟩) 3 13 2 true),
    (128, 0x89ABCDEF00C00000400000082009F5A7, .isetp64 (hdr .w128) 1 ⟨.v 130, .ident⟩ (.imm 0x89abcdef) 0 6 0 false),
    (96, 0x01000005001040109039FDA6, .isel (hdr .w96) (.v 7) ⟨.s 9, .ident⟩ ⟨.v 130, .ident⟩ 5 true),
    (128, 0x89ABCDEF4100000000104010404205A7, .lea (hdr .w128) (.v 8) ⟨.s 4, .ident⟩ ⟨.v 130, .ident⟩ 0x89abcdef true 4 false),
    (64, 0x0000000FB03A0DA5, .mov (hdr .w64) (.v 7) ⟨.v 251, .ident⟩)] = true := by decide +kernel

/-- Words assembled by hand from 05 Tables 5.4 and 5.5 in the frame of 02 Tables 2.1 to 2.3. -/
theorem test_words_integer_4 : reads [
    (64, 0x40000010A0420DA5, .mov64 (hdr .w64) (.v 8) ⟨.s 10, .ident⟩),
    (128, 0x89ABCDEF0000000000000000003A15A7, .movi (hdr .w128) (.v 7) 0x89abcdef),
    (128, 0x89ABCDEF0000000040000000084215A7, .movi64 (hdr .w128) (.s 8) 0x89abcdef),
    (96, 0x01D000090000A00030121DA6, .plop (hdr .w96) 2 3 5 9 0xE8),
    (64, 0x00000000003A25A5, .pmovTo (hdr .w64) (.v 7)),
    (64, 0x40104010900225A5, .pmovFrom (hdr .w64) ⟨.s 9, .ident⟩ ⟨.v 130, .ident⟩),
    (64, 0x00000002F03A2DA5, .getsr (hdr .w64) (.v 7) 0x2F)] = true := by decide +kernel

/-- Words assembled by hand from 06 Tables 6.2 and 6.3 in the frame of 02 Tables 2.1 to 2.3. -/
theorem test_words_float_1 : reads [
    (96, 0xA00000000B104010903A85A6, .fadd (hdr .w96) (.v 7) ⟨.s 9, .ident⟩ (.reg ⟨.v 130, .mir 5⟩) 2 true),
    (64, 0x0B104010903A8DA5, .fsub (hdr .w64) (.v 7) ⟨.s 9, .ident⟩ (.reg ⟨.v 130, .mir 5⟩) 0 false),
    (128, 0x89ABCDEFC000000000001F482A1A95A7, .fmul (hdr .w128) (.y 3) ⟨.v 130, .bc 31⟩ (.imm 0x89abcdef) 3 false),
    (96, 0xA00000FB0B104010903A9DA6, .ffma (hdr .w96) (.v 7) ⟨.s 9, .ident⟩ (.reg ⟨.v 130, .mir 5⟩) ⟨.v 251, .ident⟩ 2 true),
    (64, 0x0B104010903AA5A5, .fmin (hdr .w64) (.v 7) ⟨.s 9, .ident⟩ (.reg ⟨.v 130, .mir 5⟩) false),
    (96, 0x200000000B104010903AADA6, .fmax (hdr .w96) (.v 7) ⟨.s 9, .ident⟩ (.reg ⟨.v 130, .mir 5⟩) true),
    (96, 0x218C0003001040109072B5A6, .fsetp (hdr .w96) 14 ⟨.s 9, .ident⟩ (.reg ⟨.v 130, .ident⟩) 3 12 1 true true),
    (96, 0x000000000054A0109022BDA6, .fclass (hdr .w96) 4 ⟨.s 9, .ident⟩ 0x2A5),
    (96, 0xA000000000000010903AC5A6, .frnd (hdr .w96) (.v 7) ⟨.s 9, .ident⟩ 2 true),
    (96, 0x4000000040000010903AC5A6, .frndX (hdr .w96) (.v 7) ⟨.s 9, .ident⟩ 1 false),
    (96, 0xA000000000104010903ACDA6, .fscalb (hdr .w96) (.v 7) ⟨.s 9, .ident⟩ ⟨.v 130, .ident⟩ 2 true),
    (64, 0x00104010903AD5A5, .fdscl (hdr .w64) (.v 7) ⟨.s 9, .ident⟩ ⟨.v 130, .ident⟩ 0 false)] = true := by decide +kernel

/-- Words assembled by hand from 06 Tables 6.2 and 6.3 in the frame of 02 Tables 2.1 to 2.3. -/
theorem test_words_float_2 : reads [
    (96, 0xA00000004B104010903ADDA6, .fadd2 (hdr .w96) (.v 7) ⟨.s 9, .ident⟩ (.reg ⟨.v 130, .mir 5⟩) true 2 true),
    (64, 0x0B104010903AE5A5, .fmul2 (hdr .w64) (.v 7) ⟨.s 9, .ident⟩ (.reg ⟨.v 130, .mir 5⟩) false 0 false),
    (96, 0xA00000FB4B104010903AEDA6, .ffma2 (hdr .w96) (.v 7) ⟨.s 9, .ident⟩ (.reg ⟨.v 130, .mir 5⟩) ⟨.v 251, .ident⟩ true 2 true),
    (96, 0xA00000FB8003C010803AF5A6, .fdot4 (hdr .w96) 2 (.v 7) ⟨.s 8, .ident⟩ ⟨.v 30, .ident⟩ ⟨.v 251, .ident⟩ 2 true),
    (96, 0x010000FBC0104010903AFDA6, .idot4 (hdr .w96) 3 (.v 7) ⟨.s 9, .ident⟩ ⟨.v 130, .ident⟩ ⟨.v 251, .ident⟩ true),
    (96, 0xA000000000000010903B05A6, .frcp (hdr .w96) (.v 7) ⟨.s 9, .ident⟩ 2 true),
    (64, 0x00000010903B15A5, .fsqrt (hdr .w64) (.v 7) ⟨.s 9, .ident⟩ 0 false),
    (96, 0x2000000000000010903B0DA6, .frsq (hdr .w96) (.v 7) ⟨.s 9, .ident⟩ true),
    (96, 0x2000000000000010903B1DA6, .fexp2 (hdr .w96) (.v 7) ⟨.s 9, .ident⟩ true),
    (96, 0x2000000000000010903B25A6, .flog2 (hdr .w96) (.v 7) ⟨.s 9, .ident⟩ true),
    (96, 0x2000000000000010903B2DA6, .fsin (hdr .w96) (.v 7) ⟨.s 9, .ident⟩ true),
    (96, 0x2000000000000010903B35A6, .fcos (hdr .w96) (.v 7) ⟨.s 9, .ident⟩ true)] = true := by decide +kernel

/-- Words assembled by hand from 06 Tables 6.2 and 6.3 in the frame of 02 Tables 2.1 to 2.3. -/
theorem test_words_float_3 : reads [
    (96, 0x2000000000000010903B3DA6, .ftanh (hdr .w96) (.v 7) ⟨.s 9, .ident⟩ true),
    (96, 0xB068000080000010903B45A6, .cvt (hdr .w96) (.v 7) ⟨.s 9, .ident⟩ 2 3 4 2 true true),
    (96, 0x0100000000018010903B5DA6, .cvtx (hdr .w96) 12 (.v 7) ⟨.s 9, .ident⟩ 0 8 0 0 false false),
    (96, 0x106000004003C010403B55A6, .cvtp (hdr .w96) (.v 7) ⟨.s 4, .ident⟩ ⟨.v 30, .ident⟩ true 3 0 false true),
    (96, 0xAA0001140020600100434DA6, .cvts (hdr .w96) (.v 8) ⟨.v 16, .ident⟩ (.s 3) (.s 20) 5 2 true false),
    (96, 0x1C000114402D200100434DA6, .cvtsAuto (hdr .w96) (.v 8) ⟨.v 16, .ident⟩ (.c 1) (.s 20) 6 0 false true),
    (96, 0x0E0001148000000100434DA6, .cvtsDec (hdr .w96) (.v 8) ⟨.v 16, .ident⟩ (.s 20) 7 0 false false),
    (64, 0x00000000003B65A5, .rnd (hdr .w64) (.v 7))] = true := by decide +kernel

/-- Words assembled by hand from 07 Tables 7.1 and 7.2 in the frame of 02 Tables 2.1 to 2.3. -/
theorem test_words_crosslane_1 : reads [
    (96, 0x00E0000000104010903C05A6, .shflIdx (hdr .w96) (.v 7) ⟨.s 9, .ident⟩ ⟨.v 130, .ident⟩ 3 true),
    (64, 0x40104010903C05A5, .shflUp (hdr .w64) (.v 7) ⟨.s 9, .ident⟩ ⟨.v 130, .ident⟩ 5 false),
    (96, 0x00E0000080104010903C05A6, .shflDown (hdr .w96) (.v 7) ⟨.s 9, .ident⟩ ⟨.v 130, .ident⟩ 3 true),
    (96, 0x00E00000C0104010903C05A6, .shflXor (hdr .w96) (.v 7) ⟨.s 9, .ident⟩ ⟨.v 130, .ident⟩ 3 true),
    (64, 0x00000001A01C0DA5, .voteAll (hdr .w64) 3 10 true),
    (64, 0x40000001A01C0DA5, .voteAny (hdr .w64) 3 10 true),
    (64, 0x80000001A01C0DA5, .voteUni (hdr .w64) 3 10 true),
    (64, 0x00000001A03C15A5, .ballot (hdr .w64) (.v 7) 10 true),
    (64, 0x40000000003C15A5, .ballotExec (hdr .w64) (.v 7)),
    (64, 0x80000000003C15A5, .ballotLive (hdr .w64) (.v 7)),
    (96, 0xB400000000000010903C1DA6, .reduce (hdr .w96) (.v 7) ⟨.s 9, .ident⟩ 10 2 true),
    (96, 0x0600000000000010903C25A6, .scan (hdr .w96) (.v 7) ⟨.s 9, .ident⟩ 3 0 false)] = true := by decide +kernel

/-- Words assembled by hand from 07 Tables 7.1 and 7.2 in the frame of 02 Tables 2.1 to 2.3. -/
theorem test_words_crosslane_2 : reads [
    (96, 0x5000000040000010903C25A6, .scanExcl (hdr .w96) (.v 7) ⟨.s 9, .ident⟩ 8 1 false),
    (64, 0x80000001E03C2DA5, .matchLanes (hdr .w64) 2 (.v 7) ⟨.v 30, .ident⟩),
    (64, 0x4002A008203C35A5, .compress (hdr .w64) (.v 7) ⟨.v 130, .ident⟩ 5 true true),
    (64, 0x0000A008203C3DA5, .expand (hdr .w64) (.v 7) ⟨.v 130, .ident⟩ 5 false false),
    (64, 0x00000000007C45A5, .elect (hdr .w64) 15),
    (64, 0x40000000003C45A5, .electIdx (hdr .w64) (.v 7))] = true := by decide +kernel

/-- Words assembled by hand from 08 Tables 8.6 to 8.9 in the frame of 02 Tables 2.1 to 2.3. -/
theorem test_words_memory_1 : reads [
    (128, 0x89ABCDEF3790000000004010403C85A7, .ld (hdr .w128) (.v 7) ⟨⟨.s 4, .ident⟩, ⟨.v 2, .ident⟩, 0x89abcdef, 3, true, 4⟩ 1 true 2),
    (96, 0x64A800080000401040048DA6, .st (hdr .w96) ⟨.v 8, .ident⟩ ⟨⟨.s 4, .ident⟩, ⟨.v 2, .ident⟩, 0x0, 2, false, 5⟩ 3 1),
    (96, 0xA020000000004010408495A6, .ldv (hdr .w96) (.v 16) ⟨⟨.s 4, .ident⟩, ⟨.v 2, .ident⟩, 0x0, 0, false, 1⟩ 5 0),
    (96, 0x804001040000401040049DA6, .stv (hdr .w96) ⟨.s 4, .ident⟩ ⟨⟨.s 4, .ident⟩, ⟨.v 2, .ident⟩, 0x0, 0, false, 2⟩ 4 0),
    (96, 0x40380000000040104044F5A6, .ldver (hdr .w96) (.v 8) ⟨⟨.s 4, .ident⟩, ⟨.v 2, .ident⟩, 0x0, 0, false, 1⟩ 3),
    (128, 0x89ABCDEF60660014000B20104044A5A7, .atom (hdr .w128) (.v 8) ⟨.s 4, .ident⟩ 0x89abcdef 3 ⟨.v 20, .ident⟩ 9 5 3 3),
    (96, 0x40240015000C8010403CADA6, .atomf (hdr .w96) (.v 7) ⟨.s 4, .ident⟩ 0 1 ⟨.v 21, .ident⟩ 4 6 2),
    (96, 0x40020015400240104004B5A6, .red (hdr .w96) true ⟨.s 4, .ident⟩ 0 0 ⟨.v 21, .ident⟩ 2 1 1 2),
    (64, 0x000000006004BDA5, .fenceAcq (hdr .w64) 6),
    (64, 0x400000005004BDA5, .fenceRel (hdr .w64) 5),
    (64, 0x800000004004BDA5, .fenceAr (hdr .w64) 4),
    (64, 0xC00000003004BDA5, .fenceSc (hdr .w64) 3)] = true := by decide +kernel

/-- Words assembled by hand from 08 Tables 8.6 to 8.9 in the frame of 02 Tables 2.1 to 2.3. -/
theorem test_words_memory_2 : reads [
    (96, 0x0280000000004010405CC5A6, .ptest (hdr .w96) 11 ⟨⟨.s 4, .ident⟩, ⟨.v 2, .ident⟩, 0x0, 1, false, 4⟩),
    (96, 0x0080016900004010403CCDA6, .claim (hdr .w96) (.v 7) ⟨⟨.s 4, .ident⟩, ⟨.v 2, .ident⟩, 0x0, 0, false, 4⟩ ⟨.c 1, .ident⟩),
    (64, 0x0000000F8004D5A5, .regclm (hdr .w64) 248),
    (64, 0x000000008004DDA5, .regrel (hdr .w64) 8),
    (96, 0x000C0000000040104004E5A6, .cctlWb (hdr .w96) ⟨⟨.s 4, .ident⟩, ⟨.v 2, .ident⟩, 0x0, 0, false, 0⟩ 1 2),
    (96, 0x000C0000400040104004E5A6, .cctlInv (hdr .w96) ⟨⟨.s 4, .ident⟩, ⟨.v 2, .ident⟩, 0x0, 0, false, 0⟩ 1 2),
    (96, 0x000C0000800040104004E5A6, .cctlWbinv (hdr .w96) ⟨⟨.s 4, .ident⟩, ⟨.v 2, .ident⟩, 0x0, 0, false, 0⟩ 1 2),
    (96, 0x000C0000C00040104004E5A6, .cctlRet (hdr .w96) ⟨⟨.s 4, .ident⟩, ⟨.v 2, .ident⟩, 0x0, 0, false, 0⟩ 1 2),
    (96, 0x00120000000040104004EDA6, .pref (hdr .w96) ⟨⟨.s 4, .ident⟩, ⟨.v 2, .ident⟩, 0x0, 0, false, 0⟩ 2 1)] = true := by decide +kernel

/-- Words assembled by hand from 10 Table 10.10 in the frame of 02 Tables 2.1 to 2.3. -/
theorem test_words_engine_1 : reads [
    (64, 0x0000022FBB3585A5, .qpush (hdr .w64) 6 ⟨.v 251, .rot 2⟩),
    (64, 0x00000016703D8DA5, .qpop (hdr .w64) (.v 7) 7),
    (64, 0x0000A016303D95A5, .qtry (hdr .w64) (.v 7) 3 5),
    (128, 0x006400000000016B0020C01048159DA7, .copy (hdr .w128) (.s 2) (.s 4) (.s 6) (.c 3) 0x640000),
    (128, 0x00640000000001094020C0105B459DA7, .copyFill (hdr .w128) (.c 0) (.s 5) (.s 6) (.s 9) 0x640000),
    (128, 0x0064000085C001080020C0104815A5A7, .gather (hdr .w128) (.s 2) (.s 4) (.s 6) (.s 8) (.s 11) 2 0x640000),
    (128, 0x0064000085C001080020C0104815ADA7, .scatter (hdr .w128) (.s 2) (.s 4) (.s 6) (.s 8) (.s 11) 2 0x640000),
    (128, 0x00640000858001080020C0104815B5A7, .collr (hdr .w128) (.s 2) (.s 4) (.s 6) (.s 8) (.s 11) 0x640000),
    (128, 0x00640000858001080020C0104815BDA7, .collg (hdr .w128) (.s 2) (.s 4) (.s 6) (.s 8) (.s 11) 0x640000),
    (128, 0x89ABCDEF00000000000000104845C5A7, .chunk (hdr .w128) (.s 8) (.s 4) 0x89abcdef),
    (64, 0x000000005005CDA5, .bar (hdr .w64) 5),
    (64, 0x400000005005CDA5, .bara (hdr .w64) 5)] = true := by decide +kernel

/-- Words assembled by hand from 10 Table 10.10 in the frame of 02 Tables 2.1 to 2.3. -/
theorem test_words_engine_2 : reads [
    (64, 0x800000005005CDA5, .barw (hdr .w64) 5),
    (96, 0x00000106000000104005D5A6, .bbinit (hdr .w96) (.s 4) 0 (.s 6)),
    (128, 0x89ABCDEF0000016B000000104005DDA7, .bbadd (hdr .w128) (.s 4) 0x89abcdef (.c 3)),
    (96, 0x00000000000000104005E5A6, .bbwait (hdr .w96) (.s 4) 0),
    (128, 0x000000080000000040000010403DE5A7, .bbwaitP (hdr .w128) 7 (.s 4) 8),
    (64, 0x00018001E005EDA5, .sqpush (hdr .w64) 12 (.v 30)),
    (96, 0x0000000000018010404DF5A6, .sqpop (hdr .w96) 12 (.s 4) 9),
    (64, 0x0001800090F5F5A5, .sqpop (hdr .w64) 12 (.v 30) 9),
    (64, 0x0001E0000005FDA5, .sqclose (hdr .w64) 15)] = true := by decide +kernel

/-- Words assembled by hand from 11 Table 11.7 in the frame of 02 Tables 2.1 to 2.3. -/
theorem test_words_matrix_1 : reads [
    (128, 0x00020004600001080020C010401605A7, .mma (hdr .w128) 2 (.s 4) (.s 6) (.s 8) 3 0x20004),
    (96, 0x600001084000A01040160DA6, .mmaf (hdr .w96) 1 2 (.s 4) (.v 5) (.s 8) 3),
    (64, 0x00000010902E15A5, .mzero (hdr .w64) 5 (.s 9)),
    (128, 0x000001A0C0000108002D2010402E1DA7, .mld (hdr .w128) 5 (.s 4) (.c 1) (.s 8) 6 0x1A0),
    (96, 0xD400010800000010402E25A6, .mst (hdr .w96) 5 (.s 4) (.s 8) 6 2 true 0),
    (96, 0xC800010840000010402E25A6, .mstAuto (hdr .w96) 5 (.s 4) (.s 8) 6 1 false 0),
    (96, 0xE000000000000000302E2DA6, .mcvt (hdr .w96) 5 3 7),
    (64, 0x00000000302E35A5, .mtrn (hdr .w64) 5 3),
    (96, 0x000000000000C000302E3DA6, .madd (hdr .w96) 5 3 6),
    (96, 0x000000004000C000302E3DA6, .maddI (hdr .w96) 5 3 6),
    (96, 0x000000000001A000302E45A6, .mscl (hdr .w96) 5 3 (.coef 13)),
    (96, 0x000000004021A000302E45A6, .mscl (hdr .w96) 5 3 (.scalar (.s 13)))] = true := by decide +kernel

/-- Words assembled by hand from 11 Table 11.7 in the frame of 02 Tables 2.1 to 2.3. -/
theorem test_words_matrix_2 : reads [
    (64, 0x0000000000064DA5, .msync (hdr .w64)),
    (96, 0x000000000020E000304655A6, .mrow (hdr .w96) (.v 8) 3 (.s 7)),
    (64, 0x0000000000065DA5, .mlicAcq (hdr .w64)),
    (64, 0x8000000000065DA5, .mlicRel (hdr .w64)),
    (64, 0xC000000000065DA5, .mlicGive (hdr .w64)),
    (64, 0x4000000000265DA5, .mlicTry (hdr .w64) 4),
    (64, 0x00190001100665A5, .twin (hdr .w64) (.lit 17) 200),
    (64, 0x40080010900665A5, .twin (hdr .w64) (.reg 9) 64),
    (64, 0x80000000000665A5, .twinOff (hdr .w64)),
    (64, 0x00000334626E6DA5, .txch (hdr .w64) 77 6 (.rot 3))] = true := by decide +kernel

/-- Words assembled by hand from 12 Tables 12.6 and 12.7 in the frame of 02 Tables 2.1 to 2.3. -/
theorem test_words_iteration : reads [
    (96, 0x4000000000012000302EC5A6, .mpoly (hdr .w96) 5 3 9 2),
    (96, 0x58000006415780004016CDA6, .miter (hdr .w96) 1 2 4 (.lit 0xABC) 6 2 true true),
    (96, 0x44000006C0228000400ECDA6, .miter (hdr .w96) 3 1 4 (.reg 20) 6 2 false false),
    (96, 0x500000000000800028F6D5A6, .mres (hdr .w96) 0 (.s 30) 2 4 2 true),
    (128, 0x89ABCDEF000000000000E010404EDDA7, .mcoef (hdr .w128) 9 (.s 4) 0x89abcdef 7),
    (96, 0x0000000040000010504EDDA6, .mcoefS (hdr .w96) 9 (.s 5)),
    (64, 0x000000000846E5A5, .mls (hdr .w64) (.s 8)),
    (64, 0x000000108006EDA5, .mlsw (hdr .w64) (.s 8))] = true := by decide +kernel

/-- Words assembled by hand from 13 Table 13.10 in the frame of 02 Tables 2.1 to 2.3. -/
theorem test_words_witness_1 : reads [
    (96, 0xABC0000000000000400705A6, .wbegin (hdr .w96) 4 (.lit 0xABC)),
    (96, 0x0000000040228000300705A6, .wbegin (hdr .w96) 3 (.reg 20)),
    (64, 0x0000016FB0070DA5, .wemit (hdr .w64) ⟨.v 251, .xor 1⟩),
    (64, 0x00000000000715A5, .wend (hdr .w64)),
    (64, 0x40000000000715A5, .wendR (hdr .w64)),
    (64, 0x0000000FB0071DA5, .wdigAdd (hdr .w64) ⟨.v 251, .ident⟩),
    (64, 0x4000000000071DA5, .wdigEmit (hdr .w64)),
    (64, 0x8000000000071DA5, .wdigClr (hdr .w64)),
    (64, 0x00000000000725A5, .stgseal (hdr .w64) none),
    (96, 0x0000000000000000083F25A6, .stgseal (hdr .w96) (some 7)),
    (64, 0x00000000003F2DA5, .chkerr (hdr .w64) (.v 7)),
    (64, 0x40000000083F2DA5, .chkerrClr (hdr .w64) (.s 7))] = true := by decide +kernel

/-- Words assembled by hand from 13 Table 13.10 in the frame of 02 Tables 2.1 to 2.3. -/
theorem test_words_witness_2 : reads [
    (64, 0x8000000000072DA5, .rlogOn (hdr .w64)),
    (64, 0xC000000000072DA5, .rlogOff (hdr .w64)),
    (128, 0x89ABCDEF0400016900004010403F35A7, .relreq (hdr .w128) (.v 7) ⟨⟨.s 4, .ident⟩, ⟨.v 2, .ident⟩, 0x89abcdef, 2, false, 0⟩ ⟨.c 1, .ident⟩),
    (96, 0x0100000000004010403F3DA6, .vstat (hdr .w96) (.v 7) ⟨⟨.s 4, .ident⟩, ⟨.v 2, .ident⟩, 0x0, 0, true, 0⟩)] = true := by decide +kernel

/-- Words assembled by hand from 14 Table 14.4 in the frame of 02 Tables 2.1 to 2.3. -/
theorem test_words_system : reads [
    (128, 0x89ABCDEF0000000000000000700745A7, .trap (hdr .w128) 7 0x89abcdef),
    (64, 0x0000000000074DA5, .rftNext (hdr .w64)),
    (64, 0x4000000000074DA5, .rftRegion (hdr .w64)),
    (64, 0x8000000000074DA5, .rftRetry (hdr .w64)),
    (64, 0x0000000C800755A5, .brk (hdr .w64) 200),
    (64, 0x0000000000075DA5, .snap (hdr .w64)),
    (128, 0x89ABCDEF0000000000000002400765A7, .setsr (hdr .w128) 0x24 (.imm 0x89abcdef)),
    (96, 0x000000000000001040076DA6, .tlbinvPage (hdr .w96) (.s 4) 0),
    (128, 0x89ABCDEF0000016B4000001040076DA7, .tlbinvRange (hdr .w128) (.s 4) 0x89abcdef (.c 3)),
    (96, 0x000000008000000000076DA6, .tlbinvCtx (hdr .w96)),
    (64, 0x00000000000775A5, .quiesce (hdr .w64))] = true := by decide +kernel

/-- The worked pair word of 02 Table 2.13's chapter, and words of unassigned majors (02 Table 2.14). -/
theorem test_words_pairs_and_unassigned : reads [
    (128, 0x000005A608092000006020082027F80B, .pairWord 2 ⟨0, false, 0, .v 3, .v 2, .v 1, .v 8, 4⟩ ⟨0, false, 0, .v 0, .c 1, .s 4, .v 9, 16⟩),
    (128, 0x8000000000000000000000000007A803, .unassignedMajor 3 0x8000000000000000000000000007A803),
    (64, 0x0000050000007001, .unassignedMajor 1 0x50000007001),
    (32, 0, .unassignedMajor 0 0)] = true := by decide +kernel

/-! ## Ill-formed terms: each breaks one operand rule of its entry (02 R36-R43, R51-R53 and the encoding tables) -/

def h64 : Hdr := ⟨.w64, 1, 0, false⟩
def h96 : Hdr := ⟨.w96, 1, 0, false⟩
def h128 : Hdr := ⟨.w128, 1, 0, false⟩
def vs (n : BitVec 8) : Src := ⟨.v n, .ident⟩
def ss (n : BitVec 6) : Src := ⟨.s n, .ident⟩
def vr (n : BitVec 8) : SrcB := .reg (vs n)
/-- The address `[s4 + v2]`, of the given qualifier. -/
def adr (q : BitVec 3) : MemOp := ⟨ss 4, vs 2, 0, 0, false, q⟩
def illFormed (xs : List Instr) : Bool := xs.all (fun i => !i.wf)

/-- Word lengths that the entry does not have; a modifier, an offset or a strided form at the wrong length. -/
theorem test_illformed_lengths : illFormed [.bra h64 0, .call h96 0, .bri h96 (ss 4), .exit h96, .stall h128 5, .mwaitT h96 4, .waitsb h96 1,
    .iadd h64 (.v 8) (vs 2) (vr 3) true false 0, .iaddc h64 (.v 8) (vs 2) (vr 3) 0 0, .iadd h128 (.v 8) (vs 2) (vr 3) false false 0,
    .iadd h96 (.v 8) (vs 2) (.imm 5) false false 0, .mov h96 (.v 8) (vs 2), .movi h64 (.v 8) 7, .plop h64 1 2 3 4 0, .fadd h64 (.v 8) (vs 2) (vr 3) 1 false,
    .fclass h64 1 (vs 2) 1, .frcp h128 (.v 8) (vs 2) 0 false, .cvt h64 (.v 8) (vs 2) 0 0 0 0 false false, .shflIdx h64 (.v 8) (vs 2) (vs 3) 4 false,
    .reduce h64 (.v 8) (vs 2) 0 0 false, .ld h64 (.v 8) (adr 0) 2 false 0, .ld h96 (.v 8) { adr 0 with off := 4 } 2 false 0, .fenceAcq h96 1,
    .copy h96 (.s 4) (.s 6) (.s 8) (.s 10) 0, .mma h96 0 (.s 4) (.s 6) (.v 0) 0 1, .mzero h96 0 (.s 4), .miter h64 0 0 4 (.lit 5) 1 1 false false,
    .wbegin h64 3 (.lit 4), .stgseal h64 (some 8), .stgseal h96 none, .trap h64 1 9, .setsr h96 0x2F (vr 2), .tlbinvCtx h64] = true := by decide

/-- Misaligned pairs and quads, patterns that are illegal or stand on an `s`, constants and `e7` as destinations. -/
theorem test_illformed_registers : illFormed [.bri h64 (ss 5), .iadd64 h64 (.v 7) (vs 2) (vr 4) 0, .iadd64 h64 (.v 8) (vs 3) (vr 4) 0,
    .mov h64 (.v 8) ⟨.s 4, .rot 1⟩, .mov h64 (.v 8) ⟨.v 4, .mir 0⟩, .mov h64 (.v 8) ⟨.v 4, .mir 6⟩, .mov h64 (.c 0) (vs 2), .mov h64 (.e 7) (vs 2),
    .mov h64 (.e 0) ⟨.e 3, .ident⟩, .mov h64 (.v 8) ⟨.e 0, .ident⟩, .ld h96 (.v 9) (adr 0) 3 false 0, .ldv h96 (.v 10) (adr 0) 4 0,
    .ld h96 (.e 0) (adr 0) 2 false 0, .ld h96 (.v 8) { adr 0 with base := ss 5 } 2 false 0, .ld h96 (.v 8) { adr 0 with base := ⟨.c 1, .ident⟩ } 2 false 0,
    .st h96 ⟨.y 3, .ident⟩ (adr 0) 2 0, .chunk h96 (.s 6) (.s 4) 0, .mls h64 (.s 6), .mrow h96 (.v 3) 0 (.c 0), .copy h128 (.s 5) (.s 6) (.s 8) (.s 10) 0,
    .copy h128 (.c 1) (.s 6) (.s 8) (.s 10) 0, .sqpush h64 0 (.v 3), .sqpush h64 0 (.s 4), .sqpop h96 0 (.v 4) 1, .chkerr h64 (.e 0),
    .wdigAdd h64 (ss 4), .imad h96 (.v 8) ⟨.e 3, .ident⟩ (vr 3) ⟨.e 5, .ident⟩ false false] = true := by decide

/-- Fields with values that the entry does not allow. -/
theorem test_illformed_fields : illFormed [.mwaitT h64 0, .mwaitT h64 1025, .waitsb h64 0, .iadd h96 (.v 8) (vs 2) (vr 3) false true 0,
    .isetp h96 1 (vs 2) (vr 3) 0 14 0 false, .isetp h96 1 (vs 2) (vr 3) 1 0 0 false, .isetp h96 1 (vs 2) (vr 3) 0 0 0 true,
    .lea h96 (.v 8) (vs 2) (vs 4) 0 false 5 false, .lea h96 (.v 8) (vs 2) (vs 4) 0 true 0 true, .getsr h64 (.v 8) 0x1E, .getsr h64 (.v 8) 0x30,
    .setsr h64 0x13 (vr 2), .cvt h96 (.v 8) (vs 2) 0 12 0 0 false false, .cvt h96 (.v 8) (vs 2) 2 0 1 0 false false,
    .cvt h96 (.v 8) (vs 2) 1 0 0 0 false false, .cvt h96 (.v 8) (vs 2) 0 1 0 0 false true, .cvtp h96 (.v 8) (vs 2) (vs 4) true 1 0 false false,
    .cvtp h96 (.v 8) (vs 2) (vs 4) false 3 0 false false, .shflUp h96 (.v 8) (vs 2) (vs 3) 0 false, .shflUp h96 (.v 8) (vs 2) (vs 3) 6 false,
    .reduce h96 (.v 8) (vs 2) 11 0 false, .reduce h96 (.v 8) (vs 2) 0 1 false, .matchLanes h64 3 (.v 8) (vs 2),
    .ld h96 (.v 8) { adr 0 with scale := 5 } 2 false 0, .ld h96 (.v 8) (adr 6) 2 false 0, .ld h96 (.v 8) (adr 0) 4 false 0, .ld h96 (.v 8) (adr 0) 2 true 0,
    .ldv h96 (.v 8) (adr 0) 2 0, .ldver h96 (.v 8) (adr 2) 0, .atom h96 (.v 8) (ss 4) 0 0 (vs 6) 12 0 0 2, .atom h96 (.v 8) (ss 4) 0 0 (vs 6) 0 0 0 4,
    .atom h96 (.v 8) (ss 4) 0 0 (vs 6) 0 7 0 2, .atomf h96 (.v 8) (ss 4) 0 0 (vs 6) 5 0 0, .red h96 false (ss 4) 0 0 (vs 6) 8 0 0 2,
    .red h96 true (ss 4) 0 0 (vs 6) 0 0 0 3, .fenceRel h64 7, .claim h96 (.v 8) (adr 2) (vs 6), .regclm h64 0, .regclm h64 12, .regrel h64 256,
    .pref h96 (adr 0) 0 3] = true := by decide

/-- Fields of the engine, matrix, iteration, witness and system instructions; events, which no word encodes. -/
theorem test_illformed_units : illFormed [.qpush h64 7 (vs 2), .qpop h64 (.v 8) 0, .qtry h64 (.v 8) 4 1, .copy h128 (.s 4) (.s 6) (.s 8) (.s 10) 1,
    .copy h128 (.s 4) (.s 6) (.s 8) (.s 10) 0xE00000, .gather h128 (.c 0) (.s 4) (.s 6) (.s 8) (.c 1) 3 0, .bbinit h96 (.s 4) 8 (.s 6), .bbwait h96 (.c 0) 0,
    .mmaf h96 3 1 (.v 2) (.v 3) (.v 0) 1, .mmaf h96 0 1 (.s 4) (.s 6) (.v 0) 1, .mmaf h96 2 1 (.v 8) (.v 3) (.v 0) 1, .mld h128 1 (.s 4) (.c 0) (.v 0) 0 16,
    .twin h64 (.lit 5) 4, .twin h64 (.lit 5) 232, .txch h64 4 3 (.mir 0), .mpoly h96 1 1 3 1, .miter h96 2 0 4 (.lit 5) 1 1 true false,
    .miter h96 0 1 4 (.lit 5) 1 1 true false, .miter h96 0 4 4 (.lit 5) 1 1 false false, .miter h96 0 1 7 (.lit 5) 1 1 false false,
    .mres h96 0 (.v 8) 1 4 1 false, .mcoef h96 3 (.s 4) 0 0, .mcoef h96 14 (.s 4) 0 3, .wbegin h96 2 (.lit 4), .wbegin h96 6 (.lit 4), .wbegin h96 3 (.lit 0),
    .relreq h96 (.v 8) (adr 2) (vs 6), .vstat h96 (.v 8) (adr 4), .pendingScan, .quiescencePublish, .getVersion] = true := by decide

def slot0 : PSlot := ⟨0, false, 0, .v 3, .v 2, .v 1, .v 8, 4⟩
def slot1 : PSlot := ⟨0, false, 0, .v 0, .c 1, .s 4, .v 9, 16⟩
/-- Pair words: an unassigned slot opcode, one that its slot does not have, a used field where none is read, SMOD where there is none,
a slot NOP with a guard, a queue operand, two registers of one bank, one destination twice; and words that are assigned. -/
theorem test_illformed_pairs_and_words : illFormed [.pairWord 0 { slot0 with sop := 0x0A } slot1, .pairWord 0 { slot0 with sop := 0x24 } slot1,
    .pairWord 0 slot0 { slot1 with sop := 4 }, .pairWord 0 slot0 { slot1 with sc := .v 5 }, .pairWord 0 slot0 { slot1 with smod := 8 },
    .pairWord 0 { slot0 with smod := 1 } slot1, .pairWord 0 ⟨1, false, 0, .v 0, .v 0, .v 0, .v 0, 0⟩ slot1, .pairWord 0 { slot0 with sa := .e 3 } slot1,
    .pairWord 0 { slot0 with sb := .v 9 } slot1, .pairWord 0 slot0 { slot1 with sd := .v 8 }, .pairWord 0 { slot0 with sd := .c 0 } slot1,
    .unassignedMajor 1 0x2DA5, .unassignedMajor 2 0x7001, .unassignedMajor 1 0x10000000000007001, .unassignedMajor 0 0xFFFFFFFC] = true := by decide

set_option Elab.async false

open Sys2Proof.Machine Sys2Proof.Machine.State Sys2Proof.Claims

/-! ## Small states -/

/-- A wave of 32 threads on core 0, about to issue: 256 registers, all features, a handler at 0x100, its page at address 0
mapped to the bottom of the package's memory. Its launch is number 1, its team has tag 1, its threads are 1024 to 1055. -/
def base : State := (State.reset.placeProgram []).focusOn 0 0 (tidsOf 32) []

/-- Changes of the small state: its threads, its wave, its team, its launch, a word of the launch record, core 0. -/
def onThreads (f : Thread → Thread) (s : State) : State := s.modThreads (tidsOf 32) (fun _ => f)
def onWave (f : Wave → Wave) (s : State) : State := s.modWave 32 f
def onTeam (f : Team → Team) (s : State) : State := s.modTeam 1 f
def onLaunch (f : Launch → Launch) (s : State) : State := s.modLaunch 1 f
def recWord (k x : Nat) (s : State) : State := s.modLaunch 1 (fun l => { l with recW := l.recW.set k x })
def onCore (f : Core → Core) (s : State) : State := s.modCore 0 f
/-- Only lane 0 issues. -/
def alone (s : State) : State := s.focusOn 0 0 [1024] []

/-- The checks before an issue pass, as a Bool. -/
def goes (s : State) (u : Uses) : Bool := decide (s.gate u = .go) && decide s.grp.Nodup
theorem ready_of_goes {s : State} {u : Uses} (h : goes s u = true) : Ready u s := by
  simpa [goes, Ready] using h

/-! ## One step on a small state; the results are the spec's, or worked by hand from its rules -/

def after (i : Instr) (s : State) : State := match exec i s with | .next t => t | _ => s
/-- The values on their way after an instruction, in the order of the lanes. -/
def out (i : Instr) (s : State) : List Word := (after i s).pend.map PWrite.val
/-- Lane 0 alone, with `v2`, `v3` and `v4`. -/
def one (a b c : Word) : State := alone (((base.setVreg 1024 2 a).setVreg 1024 3 b).setVreg 1024 4 c)

/-- 05 R130, R133: sums that wrap, clamp and carry; shifts by 32 or more. -/
theorem test_integer_corners :
    out (.iadd h96 (.v 8) (vs 2) (vr 3) false false 1) (one 0xFFFFFFFF 2 0) = [1, 1] ∧
    out (.iadd h96 (.v 8) (vs 2) (vr 3) true false 0) (one 0x7FFFFFFF 1 0) = [0x7FFFFFFF] ∧
    out (.isub h96 (.v 8) (vs 2) (vr 3) true true 1) (one 3 5 0) = [0, 1] ∧
    out (.imulh h96 (.v 8) (vs 2) (vr 3) true) (one 0xFFFFFFFF 0xFFFFFFFF 0) = [0xFFFFFFFE] ∧
    out (.imulh h96 (.v 8) (vs 2) (vr 3) false) (one 0xFFFFFFFF 0xFFFFFFFF 0) = [0] ∧
    out (.shl h96 (.v 8) (vs 2) (vr 3) false) (one 5 32 0) = [0] ∧ out (.shl h96 (.v 8) (vs 2) (vr 3) true) (one 5 33 0) = [10] ∧
    out (.sar h96 (.v 8) (vs 2) (vr 3) false) (one 0x80000000 40 0) = [0xFFFFFFFF] ∧
    out (.clz h64 (.v 8) (vs 2)) (one 0 0 0) = [32] ∧ out (.brev h64 (.v 8) (vs 2)) (one 2 0 0) = [0x40000000] := by decide +kernel

/-- The four control words of 05 R137. -/
theorem test_prmb_worked :
    out (.prmb h96 (.v 8) (vs 2) (vr 3) (vs 4)) (one 0x8A0B0C0D 0x00010203 0x11223344) = [0x0D0C0B8A] ∧
    out (.prmb h96 (.v 8) (vs 2) (vr 3) (vs 4)) (one 0x8A0B0C0D 0x04040404 0x11223344) = [0x44444444] ∧
    out (.prmb h96 (.v 8) (vs 2) (vr 3) (vs 4)) (one 0x8A0B0C0D 0x13131313 0x11223344) = [0xFFFFFFFF] ∧
    out (.prmb h96 (.v 8) (vs 2) (vr 3) (vs 4)) (one 0x8A0B0C0D 0x28282828 0x11223344) = [0xFFFFFFFF] := by decide +kernel

/-- 05 Table 5.7: -1 is below 1 as a signed number and above it as an unsigned one; the fold with `p2`, which is 0. -/
theorem test_isetp_folds :
    out (.isetp h96 1 (vs 2) (vr 3) 0 2 0 false) (one 0xFFFFFFFF 1 0) = [1] ∧ out (.isetp h96 1 (vs 2) (vr 3) 0 6 0 false) (one 0xFFFFFFFF 1 0) = [0] ∧
    out (.isetp h96 1 (vs 2) (vr 3) 2 2 1 false) (one 0xFFFFFFFF 1 0) = [0] ∧ out (.isetp h96 1 (vs 2) (vr 3) 2 2 1 true) (one 0xFFFFFFFF 1 0) = [1] := by
  decide +kernel

/-- 06 R151, R155: 1 + 2^-24 is a tie, to the even 1 and up to the next; 2^24 * 2^-149 is exact; 0.5 rounds to 0 and 1.5 to 2. -/
theorem test_float_rounding :
    out (.fadd h96 (.v 8) (vs 2) (vr 3) 0 false) (one 0x3F800000 0x33800000 0) = [0x3F800000] ∧
    out (.ffma h96 (.v 8) (vs 2) (vr 3) (vs 4) 0 false) (one 0x3F800001 0x3F800001 0xBF800002) = [0x28800000] ∧
    out (.fmul h96 (.v 8) (vs 2) (vr 3) 0 false) (one 0x4B800000 0x00000001 0) = [0x00800000 + 0x00800000] ∧
    out (.fmul h96 (.v 8) (vs 2) (vr 3) 0 true) (one 0x4B800000 0x00000001 0) = [0] ∧
    out (.frnd h96 (.v 8) (vs 2) 0 false) (one 0x3FC00000 0 0) = [0x40000000] ∧ out (.frnd h96 (.v 8) (vs 2) 0 false) (one 0x3F000000 0 0) = [0] ∧
    out (.fsqrt h64 (.v 8) (vs 2) 0 false) (one 0x40800000 0 0) = [0x40000000] := by decide +kernel

/-- 03 Table 3.3, from FP32: 1, 3.25, -0.03, 250000, 97.1875, 6e8, 4e10 without and with `.inf`, and -0. -/
theorem test_dm8_worked :
    [0x3F800000, 0x40500000, 0xBCF5C28F, 0x48742400, 0x42C26000, 0x4E0F0D18, 0x51150B91, 0x80000000].map (fun (x : Word) =>
      out (.cvt h96 (.v 8) (vs 2) 0 3 0 0 false false) (one x 0 0)) = [[0x40], [0x44], [0xA4], [0x75], [0x60], [0x7D], [0x7E], [0x00]] ∧
    out (.cvt h96 (.v 8) (vs 2) 0 3 0 0 false true) (one 0x51150B91 0 0) = [0x7F] := by decide +kernel

/-- The wave of 07 Table 7.4: lanes 8 to 31 have exited, lane 5 has its guard false. -/
def lanes8 : State :=
  let s := (onThreads (fun x => x) base).modThreads ((tidsOf 32).drop 8) (fun _ x => { x with live := false })
  let v2 : List Word := [0, 0x80000000, 0x3F800000, 0x7FC00000, 0x3F800000, 0x3F800000, 0x7FC00000, 0x40000000]
  ((List.range 8).foldl (fun s k => (((s.setVreg (1024 + k) 2 (v2.getD k 0)).setVreg (1024 + k) 3 (BitVec.ofNat 32 (100 + k))).setPred (1024 + k) 1
    (k != 5)).setPred (1024 + k) 2 ([1, 2, 4, 5, 7].contains k)) s).focusOn 0 0 ((tidsOf 32).take 8) []
def g64 : Hdr := ⟨.w64, 1, 1, false⟩
def g96 : Hdr := ⟨.w96, 1, 1, false⟩
/-- The lanes that an instruction writes, and what. -/
def rows (i : Instr) : List (Nat × Nat) := (after i lanes8).pend.map (fun w => (match w.tgt with | .v x _ => x - 1024 | .p x _ => x - 1024 | _ => 99, w.val.toNat))
def atX (xs : List Nat) : List (Nat × Nat) := [0, 1, 2, 3, 4, 6, 7].zip xs

/-- 07 Table 7.5, first rows. -/
theorem test_crosslane_worked_1 :
    rows (.matchLanes g64 0 (.v 9) (vs 2)) = atX [0x01, 0x02, 0x14, 0x48, 0x14, 0x48, 0x80] ∧
    rows (.matchLanes g64 1 (.v 9) (vs 2)) = atX [0x03, 0x03, 0x14, 0x08, 0x14, 0x40, 0x80] ∧
    rows (.ballot g64 (.v 9) 2 false) = atX [0x96, 0x96, 0x96, 0x96, 0x96, 0x96, 0x96] ∧
    rows (.voteAny g64 4 2 false) = atX [1, 1, 1, 1, 1, 1, 1] ∧ rows (.voteAll g64 4 2 false) = atX [0, 0, 0, 0, 0, 0, 0] ∧
    rows (.elect g64 4) = atX [1, 0, 0, 0, 0, 0, 0] ∧
    rows (.shflDown g64 (.v 9) (vs 3) ⟨.c 1, .ident⟩ 5 false) = atX [101, 102, 103, 104, 105, 107, 0] := by decide +kernel

/-- 07 Table 7.5, last rows. -/
theorem test_crosslane_worked_2 :
    rows (.reduce g96 (.v 9) (vs 3) 0 0 false) = atX [723, 723, 723, 723, 723, 723, 723] ∧
    rows (.scan g96 (.v 9) (vs 3) 0 0 false) = atX [100, 201, 303, 406, 510, 616, 723] ∧
    rows (.scanExcl g96 (.v 9) (vs 3) 0 0 false) = atX [0, 100, 201, 303, 406, 510, 616] ∧
    rows (.compress g64 (.v 9) (vs 3) 2 false true) = atX [101, 102, 104, 107, 0, 0, 0] ∧
    rows (.compress g64 (.v 9) (vs 3) 2 false false) = [(0, 101), (1, 102), (2, 104), (3, 107)] ∧
    rows (.expand g64 (.v 9) (vs 3) 2 false true) = atX [0, 100, 101, 0, 102, 0, 103] := by decide +kernel

/-- `words`' address is 0x400 + 4 * lane; bytes 0x80, 0x81, ... stand there. -/
def wordsM : State := { (((((base.setSreg 32 4 0x400).setVreg 1024 2 0).setVreg 1025 2 4).setVreg 1025 6 0x11223344).focusOn 0 0 [1024, 1025] []) with
  mem := putMem [] 0x400 ((List.range 8).map (fun k => BitVec.ofNat 8 (0x80 + k))) }
/-- 08 R204, R208: little-endian, sign-extended bytes; a store of a halfword writes two bytes. -/
theorem test_loads_and_stores :
    (after (.ld h96 (.v 8) (adr 0) 2 false 0) wordsM).vres.map (fun r => r.writes.map (fun w => w.2)) = [[0x83828180, 0x87868584]] ∧
    (after (.ld h96 (.v 8) (adr 0) 0 true 0) wordsM).vres.map (fun r => r.writes.map (fun w => w.2)) = [[0xFFFFFF80, 0xFFFFFF84]] ∧
    (List.range 8).map (after (.st h96 (vs 6) (adr 0) 1 0) wordsM |>.byteAt <| 0x400 + ·) = [0, 0, 0x82, 0x83, 0x44, 0x33, 0x86, 0x87] := by decide +kernel

/-- 08 R211: two lanes add to one word, one after the other. -/
theorem test_atomic_order :
    let s := { (wordsM.setVreg 1024 6 5).setVreg 1025 6 7 with mem := putMem [] 0x400 [10] }
    let t := after (.atom h96 (.v 8) (ss 4) 0 0 (vs 6) 0 0 0 2) s
    t.rdMem 0x400 4 = 22 ∧ t.vres.map (fun r => r.writes.map (fun w => w.2)) = [[10, 15]] := by decide +kernel

/-- 04 R108: a branch back by 64 bytes; a call pushes the address behind its 16 bytes. -/
theorem test_branch_and_call :
    ((after (.bra h128 0xFFFFFFC0) (base.focusOn 0 0x100 (tidsOf 32) [])).th 1024).pc = 0xC0 ∧
    ((after (.call h128 0x40) (base.focusOn 0 0x100 (tidsOf 32) [])).th 1055).stack = [0x110] := by decide +kernel

/-- 14 R378, R379, Table 14.2: the software trap saves its code and PC and goes to the handler at 0x100; `RFT.next` goes behind it. -/
theorem test_trap_and_return :
    let t := after (.trap h128 7 9) base
    (t.th 1024).pc = 0x100 ∧ (t.th 1024).trap.cause = 0x10721 ∧ (t.th 1024).trap.npc = 16 ∧ (t.th 1024).trap.inTrap = true ∧ (t.th 1024).trap.info = 9 ∧
    ((after (.rftNext h64) (onCore (fun c => { c with clk := 8 }) t |>.focusOn 0 0x100 (tidsOf 32) [])).th 1024).pc = 16 := by decide +kernel

/-- 10 R290: `COPY` pushes its header, NW 5 and OP 1, and its operands; 10 R274: `BBADD` below zero sets UNDER. -/
theorem test_engine_words_and_barrier :
    let s := ((base.setSreg 32 4 0x400).setSreg 32 6 0x800).setSreg 32 8 64
    ((after (.copy h128 (.c 0) (.s 4) (.s 6) (.s 8) 0x2A000000) s).wv 32).eq.head? = some [0x2A000501, 0x400, 0, 0x800, 0, 64] ∧
    (after (.bbadd h96 (.s 4) 0 (.c 1)) s).rdMem 0x40C 4 = 0 ∧ (after (.bbadd h96 (.s 4) 0 (.c 2)) s).rdMem 0x40C 4 = 1 := by decide +kernel

/-- The check words of the digits 1 to 9 under the published parameters of the T10-DIF code (08 R202) and of CRC-32C (13 R350), and
the SHA3-512 digest of "abc" (FIPS 202). -/
theorem test_check_codes_and_digest :
    t10 [0x31, 0x32, 0x33, 0x34, 0x35, 0x36, 0x37, 0x38, 0x39] = 0xD0DB ∧ crc32c [0x31, 0x32, 0x33, 0x34, 0x35, 0x36, 0x37, 0x38, 0x39] = 0xE3069283 ∧
    sha3 [0x61, 0x62, 0x63] = 0xf053ec4e27f89265a5d508f44c0b34574093e34776c57e1ac9f32a19e916e1102e71d240025d4f880df744748221f6086e096b4b92cd93568a16571a0b8551b7 := by
  decide +kernel

/-- A program of two instructions at reset (log 10): after one step its threads are at the second. -/
theorem test_step_from_placed_program :
    (match step (State.reset.placeProgram (encodeBytes (.nop h64) ++ encodeBytes (.exit h64))) with
      | .next t => (t.th 1024).pc == 8 && (t.th 1024).live
      | _ => false) = true := by decide +kernel

/-! ## Witnesses: for each clause of a statement, a state and operands that meet its hypotheses -/

/-- The forms of the arithmetic port over plain registers. -/
def plainInt : List Instr := [
  .iadd h96 (.v 8) (vs 2) (vr 3) true true 1, .isub h96 (.v 8) (vs 2) (vr 3) false false 1, .iaddc h96 (.v 8) (vs 2) (vr 3) 1 2,
  .imul h64 (.v 8) (vs 2) (vr 3) false false, .imulh h64 (.v 8) (vs 2) (vr 3) false, .imad h96 (.v 8) (vs 2) (vr 3) (vs 4) true false,
  .imadw h96 (.v 8) (vs 2) (vr 3) (vs 4) true, .iadd64 h96 (.v 8) (vs 2) (vr 4) 1, .isub64 h96 (.v 8) (vs 2) (vr 4) 1,
  .imin h96 (.v 8) (vs 2) (vr 3) true, .imax h96 (.v 8) (vs 2) (vr 3) false, .iabs h64 (.v 8) (vs 2), .ineg h64 (.v 8) (vs 2),
  .and h64 (.v 8) (vs 2) (vr 3), .or h64 (.v 8) (vs 2) (vr 3), .xor h64 (.v 8) (vs 2) (vr 3), .andn h64 (.v 8) (vs 2) (vr 3),
  .not h64 (.v 8) (vs 2), .shl h96 (.v 8) (vs 2) (vr 3) true, .shr h64 (.v 8) (vs 2) (vr 3) false, .sar h96 (.v 8) (vs 2) (vr 3) true,
  .rotl h64 (.v 8) (vs 2) (vr 3), .shfL h96 (.v 8) (vs 2) (vr 3) (vs 4), .shfR h96 (.v 8) (vs 2) (vr 3) (vs 4),
  .bfe h96 (.v 8) (vs 2) (vr 3) true, .bfi h96 (.v 8) (vs 2) (vr 3) (vs 4), .popc h64 (.v 8) (vs 2), .clz h64 (.v 8) (vs 2),
  .ctz h64 (.v 8) (vs 2), .brev h64 (.v 8) (vs 2), .prmb h96 (.v 8) (vs 2) (vr 3) (vs 4),
  .isetp h96 1 (vs 2) (vr 3) 2 2 1 true, .isetp64 h96 1 (vs 2) (vr 4) 2 13 3 false, .isel h96 (.v 8) (vs 2) (vs 3) 1 true,
  .lea h128 (.v 8) (vs 2) (vs 4) 16 false 4 true, .mov h64 (.v 8) (vs 2), .mov64 h64 (.s 8) (vs 2), .movi h128 (.v 8) 7,
  .movi64 h128 (.v 8) 0xFFFFFFFF, .plop h96 1 2 3 4 0x80, .pmovTo h64 (.v 8)]
def plainFloat : List Instr := [
  .fadd h96 (.v 8) (vs 2) (vr 3) 1 true, .fsub h64 (.v 8) (vs 2) (vr 3) 0 false, .fmul h96 (.v 8) (vs 2) (vr 3) 2 false,
  .ffma h96 (.v 8) (vs 2) (vr 3) (vs 4) 3 false, .fmin h96 (.v 8) (vs 2) (vr 3) true, .fmax h64 (.v 8) (vs 2) (vr 3) false,
  .fsetp h96 1 (vs 2) (vr 3) 2 5 1 false true, .fclass h96 1 (vs 2) 0x3FF, .frnd h96 (.v 8) (vs 2) 1 false, .frndX h96 (.v 8) (vs 2) 1 true,
  .fscalb h96 (.v 8) (vs 2) (vs 3) 0 false, .fdscl h96 (.v 8) (vs 2) (vs 3) 0 true,
  .fadd2 h96 (.v 8) (vs 2) (vr 3) true 0 false, .fmul2 h96 (.v 8) (vs 2) (vr 3) false 1 true, .ffma2 h96 (.v 8) (vs 2) (vr 3) (vs 4) true 0 false,
  .fdot4 h96 0 (.v 8) (vs 2) (vs 4) (vs 6) 0 false, .fdot4 h96 3 (.v 8) (vs 2) (vs 3) (vs 4) 0 true, .idot4 h96 2 (.v 8) (vs 2) (vs 3) (vs 4) true,
  .cvt h96 (.v 8) (vs 2) 1 8 2 1 false false, .cvtx h96 1 (.v 8) (vs 2) 0 3 0 0 true true, .cvtp h96 (.v 8) (vs 2) (vs 4) true 3 0 false false,
  .cvtp h96 (.v 8) (vs 2) (vs 3) false 1 1 true false]
def plainSfu : List Instr := [.frcp h96 (.v 8) (vs 2) 1 true, .frsq h96 (.v 8) (vs 2) false, .fsqrt h64 (.v 8) (vs 2) 0 false,
  .fexp2 h64 (.v 8) (vs 2) false, .flog2 h96 (.v 8) (vs 2) true, .fsin h64 (.v 8) (vs 2) false, .fcos h64 (.v 8) (vs 2) false,
  .ftanh h64 (.v 8) (vs 2) false]
def plainCross : List Instr := [
  .shflIdx h96 (.v 8) (vs 2) (vs 3) 3 true, .shflUp h64 (.v 8) (vs 2) (vs 3) 5 false, .shflDown h96 (.v 8) (vs 2) (vs 3) 2 false,
  .shflXor h96 (.v 8) (vs 2) (vs 3) 4 true, .voteAll h64 1 2 true, .voteAny h64 1 2 false, .voteUni h64 1 2 false, .ballot h64 (.s 8) 2 true,
  .ballotExec h64 (.v 8), .ballotLive h64 (.v 8), .elect h64 1, .electIdx h64 (.v 8),
  .reduce h96 (.v 8) (vs 2) 9 1 true, .scan h96 (.v 8) (vs 2) 0 0 false, .scanExcl h96 (.v 8) (vs 2) 4 0 false, .matchLanes h64 2 (.v 8) (vs 2),
  .compress h64 (.v 8) (vs 2) 1 true true, .expand h64 (.v 8) (vs 2) 1 false false]

/-- A form of a lane table that issues in a state, names no `e` operand and raises no enabled condition. -/
def formGoes (s : State) (i : Instr) : Bool :=
  i.wf && goes s (usesOf i) && (usesOf i).popQ.isNone && (usesOf i).pushQ.isEmpty && (match formOf i with
    | some (_, _, f) => (lanes (usesOf i) f s).all (fun o => o.2.conds &&& s.launchF.atEn == 0)
    | none => false)

theorem witness_IntegerInstructions_1 : plainInt.all (fun i => formGoes base i &&
    ((arithForm i).isSome || (bitForm i).isSome || (moveForm i).isSome)) = true := by decide +kernel

/-- The second source has bits 0, 1 and 15 in lane 3. -/
theorem witness_IntegerInstructions_2 :
    let s := base.setVreg 1027 3 0x8003
    let pds := (List.range 16).filter (fun k => k ≠ 0 && (s.xs h64).any (fun x => (s.rd [] x (vs 3)).getLsbD k))
    let u := { usesOf (.pmovFrom h64 (vs 2) (vs 3)) with pdsts := pds.map (BitVec.ofNat 4) }
    pds = [1, 15] ∧ Ready u s ∧ NoQueue u := ⟨by decide +kernel, ready_of_goes (by decide +kernel), rfl, rfl⟩

theorem witness_FloatingPointInstructions : plainFloat.all (fun i => formGoes base i &&
    ((floatForm i).isSome || (packForm i).isSome || (cvtForm i).isSome)) = true := by decide +kernel

/-- Slots that bind FP16 in blocks of 32 elements: with scales, and without them. -/
def slots : State := recWord 8 0x51 (recWord 9 0x41 base)

theorem witness_FormatSlotConversions :
    (∀ i ∈ [Instr.cvts h96 (.v 8) (vs 2) (.s 4) (.v 0) 2 0 false false, .cvts h96 (.v 8) (vs 2) (.s 4) (.s 6) 1 1 true false,
        .cvtsAuto h96 (.v 8) (vs 2) (.s 4) (.s 6) 1 0 false false],
      (match cvtsOps i with
        | some o => slots.vres.isEmpty && !(cvtsIllegal (o.fslot slots) o.auto false o.a o.c o.inf o.d) && (!o.auto || o.c.isS) && goes slots (o.uses i slots) &&
            (o.uses i slots).popQ.isNone && (o.uses i slots).pushQ.isEmpty &&
            (o.waves (usesOf i).h slots).all (fun e => e.2.outs.all (fun x => x.2.conds &&& slots.launchF.atEn == 0))
        | none => false) = true) ∧
    (let fs := FSlot.ofBits (slots.launchF.slotBits 1)
     let u := { usesOf (.cvtsDec h96 (.v 8) (vs 2) (.s 6) 1 0 false false) with dsts := [(.v 8, elemsPerLane fs)] }
     cvtsIllegal fs false true (vs 2) (.s 6) false (.v 8) = false ∧ Ready u slots ∧ NoQueue u ∧
       NoArithTrap u (fun s p x => cvtsDecode fs (laneOf x) (s.rd p x (vs 2)).toNat (s.sVal (widOf x) (.s 6)).toNat 0 false) slots) := by
  exact ⟨by decide +kernel, by decide +kernel, ready_of_goes (by decide +kernel), ⟨rfl, rfl⟩, by unfold NoArithTrap; decide +kernel⟩

theorem witness_SpecialFunctionsAndRandomNumbers_1 : plainSfu.all (fun i => formGoes base i && (sfuForm i).isSome) = true := by decide +kernel

/-- A wave that records its random numbers, with an empty log. -/
theorem witness_SpecialFunctionsAndRandomNumbers_2 :
    let s := onWave (fun w => { w with logMode := .record }) (recWord 15 (2 ^ 28 * 7 + 2 ^ 7) base)
    let i := Instr.rnd h64 (.v 8)
    Ready (usesOf i) s ∧ NoQueue (usesOf i) ∧ (s.co s.focus.core).noiseFailed = false ∧
    (∀ x ∈ s.xs h64, (s.tm (tagOf x)).isSecond = false) ∧
    (∀ x ∈ s.xs h64, rndLogs s x = true ∧ rndIndex s x < rndRoom (s.launchOf x) (s.tm (tagOf x)).index (widxW (widOf x))) ∧
    ∀ x ∈ s.xs h64, (s.wv (widOf x)).rci.length = 32 :=
  ⟨ready_of_goes (by decide +kernel), ⟨rfl, rfl⟩, by decide +kernel, by decide +kernel, by decide +kernel, by decide +kernel⟩

theorem witness_CrossLaneInstructions : plainCross.all (fun i => formGoes (base.focusOn 0 0 [1024, 1025] []) i &&
    ((crossForm i).isSome || (treeForm i).isSome)) = true := by decide +kernel

def pairS0 : PSlot := ⟨8, false, 0, .v 3, .v 2, .v 1, .v 8, 4⟩
def pairS1 : PSlot := ⟨0, true, 1, .v 0, .v 4, .s 4, .v 9, 16⟩
/-- With an operation in slot 0, and with none. -/
theorem witness_PairWords : ∀ s0 ∈ [pairS0, { pairS0 with sop := 0 }],
    base.overAlloc (usesOf (.pairWord 2 s0 pairS1)) = false ∧ base.gate (slotUses 2 s0) = .go ∧
    base.gate { slotUses 2 pairS1 with lat := if s0.isOp then max (slotLat s0) (slotLat pairS1) else slotLat pairS1 } = .go ∧ base.grp.Nodup ∧
    ∀ x ∈ [s0, pairS1], ∀ t ∈ slotXs base x, (slotForm base x t).conds &&& base.launchF.atEn = 0 := by decide +kernel

/-- Two waves of one launch on the cores 0 and 256, a twin pair, the first with its window on the second. -/
def twins : State :=
  let s := base.modWave 32 (fun w => { w with twin := some { lid := 1, team := 1, widx := 0, tag := 2, base := 16 } })
  { ((s.modWave 64 (fun w => { w with core := twinOf 0, regs := 64, resident := true })).modTeam 2 (fun t => { t with
    lid := 1, index := 1, core := twinOf 0, running := true })).modCore (twinOf 0) (fun c => { c with slots := [(5, 64)] }) with
    threads := s.threads ++ (tidsOf 64).map (fun x => (x, { live := true })) }

/-- A `y` operand among them, and no condition that rules an operand out. -/
theorem witness_IssueConditions :
    let u := usesOf (.iadd h96 (.v 8) ⟨.y 3, .ident⟩ (vr 3) false false 1)
    (∀ o ∈ opnds u, ∀ k, o.1 = .v k → ∀ w ∈ twins.wavesF, k.toNat + o.2 ≤ (twins.wv w).regs) ∧ u.all32 = false ∧ twins.launchF.paired = false ∧
    (∀ w ∈ twins.wavesF, (twins.wv w).evicted = []) ∧ twins.vres = [] ∧ u.popQ = none ∧ u.pushQ = [] ∧ u.memPort = false ∧ u.rel = false ∧
    u.pairRel = false ∧ (∀ o ∈ u.dsts, (match o.1 with | .y _ => false | _ => true) = true) ∧ u.region = false ∧ u.unit = 0 ∧ twins.launchF.sbchk = false ∧ TwinReached twins 32 3 ∧ twins.wavesX u.h = [32] := by
  refine ⟨?_, by decide +kernel, by decide +kernel, by decide +kernel, rfl, rfl, rfl, rfl, rfl, rfl, by decide +kernel, rfl, rfl,
    by decide +kernel, ?_, by decide +kernel⟩
  · intro o ho k hk w hw
    have h : ∀ w ∈ twins.wavesF, (twins.wv w).regs = 256 := by decide +kernel
    have h2 : ∀ o ∈ opnds (usesOf (.iadd h96 (.v 8) ⟨.y 3, .ident⟩ (vr 3) false false 1)), (match o.1 with | .v k => k.toNat + o.2 | _ => 0) ≤ 256 := by
      decide +kernel
    have h3 := h2 o ho
    rw [hk] at h3
    rw [h w hw]
    exact h3
  · exact ⟨{ lid := 1, team := 1, widx := 0, tag := 2, base := 16 }, by decide +kernel⟩

/-- The same of a region entry with a command of another region in flight, of a fence whose scope contains the twin, of a release,
and of a write through the window. -/
theorem witness_IssueConditions_2 :
    let s := onCore (fun k => { k with cmds := [{ id := 1, q := 0, wid := 32, tid := 1024, pc := 0, rpc := 0, rcount := 7, rdepth := 0, words := [] }] }) twins
    s.vres = [] ∧ s.msys.l2Changing = none ∧ s.msys.tags = [] ∧ s.pend = [] ∧ (s.co s.focus.core).mx = [] ∧
    (∀ x ∈ s.grp, (s.th x).memHold = none ∧ (s.th x).fenceId = 0 ∧ (s.th x).fenceTag = 0 ∧ (s.th x).fencePair = false) ∧
    (∀ w ∈ s.wavesF, (s.wv w).evicted = [] ∧ (s.wv w).saved = [] ∧ (s.wv w).eqHdr = [] ∧ (s.wv w).twinNext = none) ∧
    (let u := usesOf (.region h64)
     u.region = true ∧ u.all32 = false ∧ u.unit = 0 ∧ (∀ x ∈ s.xs u.h, ∀ c ∈ (s.co (s.coreOf x)).cmds, c.tid = x → c.rcount ≠ (s.th x).rcount) ∧
       s.gate u = .go) ∧
    (let u := usesOf (.fenceRel h64 2)
     u.pairRel = true ∧ u.memPort = true ∧ u.all32 = false ∧ s.gate u = .go) ∧
    (usesOf (.bar h64 0)).rel = true ∧ s.gate (usesOf (.bar h64 0)) = .go ∧
    (let u := usesOf (.mov h64 (.y 3) (vs 2))
     (∃ o ∈ u.dsts, o.1 = .y 3) ∧ s.gate u = .go) := by decide +kernel

/-- A group that waits for a result, one that waits for a register line, one whose stall count was short. -/
theorem witness_IssueChecks :
    let i := Instr.mov h64 (.v 8) (vs 2)
    (formOf i).isSome = true ∧ base.grp.Nodup ∧
    ({ base with vres := [{ core := 0, id := 1, cls := 0, writes := [(.v 1024 2, 0)] }] } : State).gate (usesOf i) = .hold ∧
    (onWave (fun w => { w with evicted := [2] }) base).gate (usesOf i) = .park (.refill 32 2) ∧
    ({ recWord 15 64 base with pend := [{ core := 0, due := 3, tgt := .v 1024 2, val := 0 }] } : State).gate (usesOf i) =
      .trap { code := 0x09, mask := 1, info := 2 } ∧
    (Opnd.v 8, 1) ∈ opnds (usesOf i) ∧ 32 ∈ base.wavesF ∧ ((onWave (fun w => { w with regs := 8 }) base).wv 32).regs < 8 + 1 := by
  decide +kernel

/-- An executing lane writes; a lane whose guard is false does not. -/
theorem witness_OperandsAndGuards :
    let i := Instr.mov ⟨.w64, 1, 1, false⟩ (.v 8) (vs 2)
    let s := base.setPred 1025 1 true
    (twins.wv 32).twin.isSome = true ∧ ∃ cls d f, formOf i = some (cls, d, f) ∧ s.outWrites d (lanes (usesOf i) f s) = [(.v 1025 8, 0)] :=
  ⟨by decide +kernel, _, _, _, rfl, by decide +kernel⟩

/-- Of five results of core 0 four are due at the next clk. -/
theorem witness_FixedLatencyCommit :
    let s : State := { base with pend := [{ core := 0, due := 1, tgt := .v 1024 8, val := 5 }, { core := 0, due := 1, tgt := .p 1024 15, val := 1 },
      { core := 0, due := 2, tgt := .s 32 63, val := 7 }, { core := 0, due := 1, tgt := .sr 1024 0x2F, val := 9 },
      { core := 0, due := 1, tgt := .u 32 63, val := 0x81 }] }
    s.pend.all (fun w => match w.tgt with
      | .v _ n => n < 256 | .s _ n => n < 64 | .p _ n => 0 < n && n < 16 | .sr _ _ => true | .u v n => n < (s.wv v).ufbuf.length) = true ∧
    (s.pend.map PWrite.tgt).Nodup ∧ s.clkOf 0 + 1 = 1 := by decide +kernel

theorem witness_QueueOperands :
    (let i := Instr.mov h64 (.v 8) ⟨.e 3, .ident⟩
     let s := onWave (fun w => { w with er := w.er.set 3 [5, 6] }) base
     (formOf i).isSome = true ∧ goes s (usesOf i) = true ∧ (usesOf i).popQ = some 3 ∧ (usesOf i).pushQ = []) ∧
    (let i := Instr.mov h64 (.e 5) (vs 2)
     (∃ cls f, formOf i = some (cls, some (.e 5), f)) ∧ goes base (usesOf i) = true ∧ (usesOf i).popQ = none ∧
       base.grp.Pairwise (fun x y => x < y) ∧ ∀ w ∈ base.wavesF, (base.wv w).eq.length = 8) :=
  ⟨by decide +kernel, ⟨_, _, rfl⟩, by decide +kernel⟩

/-- 1 / 0 with the trap of divide-by-zero enabled. -/
theorem witness_ArithmeticTraps :
    let i := Instr.frcp h64 (.v 8) (vs 2) 0 false
    let s := recWord 15 (2 ^ 15) base
    goes s (usesOf i) = true ∧ ∃ cls d f, formOf i = some (cls, d, f) ∧ (∃ o ∈ lanes (usesOf i) f s, o.2.conds &&& s.launchF.atEn ≠ 0) :=
  ⟨by decide +kernel, _, _, _, rfl, by decide +kernel⟩

theorem witness_BranchesAndCalls :
    (∀ i ∈ [Instr.bra h128 64, .call h128 0xFFFFFFFC, .bri h64 (ss 4), .calli h64 (ss 4)], goes (base.setSreg 32 4 0x100) (usesOf i) = true) ∧
    (∀ x ∈ (base.setSreg 32 4 0x100).xs h64, Target ((base.setSreg 32 4 0x100).rd64 [] x (ss 4))) ∧
    Target (BitVec.ofNat 64 (base.setSreg 32 4 0x100).focus.pc + (64 : Word).signExtend 64) ∧
    ∀ x ∈ base.xs h64, (base.th x).stack.length < 8 ∧ (base.th x).spilled < 2 ^ 24 - 9 := by
  unfold Target; decide +kernel

theorem witness_ReturnInstructions :
    (let s := onThreads (fun x => { x with stack := [0x40, 0x80] }) base
     Ready (usesOf (.ret h64)) s ∧ ∀ x ∈ s.xs h64, (s.th x).stack.head? = some 0x40) ∧
    (let s := onThreads (fun x => { x with rsptr := 0x8008, spilled := 1 }) base
     (s.th 1024).stack = [] ∧ (s.th 1024).spilled ≠ 0 ∧ s.waitOf (.mem 0x8000) = none ∧ 0x8000 / 2 ^ 40 = s.pkg ∧
       (s.tm (tagOf 1024)).heldStores = [] ∧
       (s.spillPlace 1024 (((s.th 1024).rsptr + 2 ^ 52 - 8) % 2 ^ 52) .read).toOption.map Place.loc = some (.mem 0x8000)) ∧
    (let s := onThreads (fun x => { x with rsptr := 0x8008, stack := List.replicate 8 4 }) base
     (s.th 1024).stack.length = 8 ∧ s.waitOf (.mem 0x8008) = none ∧ 0x8008 / 2 ^ 40 = s.pkg ∧ s.isPaired (tagOf 1024) = false ∧
       (s.spillPlace 1024 (s.th 1024).rsptr .write).toOption.map Place.loc = some (.mem 0x8008)) :=
  ⟨⟨ready_of_goes (by decide +kernel), by decide +kernel⟩, by decide +kernel, by decide +kernel⟩

/-- The forms whose statements ask only for the checks before an issue. -/
theorem witness_plain_issues : ∀ i ∈ [Instr.nop h64, .coll h64, .stall h64 9, .yield h64 2, .waitsb h64 3, .exit h64, .region h64, .mwaitT h64 4,
    .mwaitP h64 3 4, .snap h64, .quiesce h64, .getsr h64 (.v 8) 0, .setsr h64 0x2F (vr 2), .setsr h128 0x11 (.imm 8), .tlbinvCtx h96,
    .fenceAcq h64 4, .fenceRel h64 0, .fenceAr h64 3, .fenceSc h64 6, .msync h64, .mlicAcq h64, .mlicTry h64 1, .mlicRel h64, .mlicGive h64,
    .twinOff h64, .twin h64 (.lit 5) 8, .stgseal h64 none, .wbegin h96 3 (.lit 4), .wemit h64 (vs 2), .qpush h64 6 (vs 2), .wend h64,
    .wdigAdd h64 (vs 2), .wdigEmit h64, .wdigClr h64, .rlogOn h64, .rlogOff h64, .wendR h64, .chkerr h64 (.v 8), .chkerrClr h64 (.s 8)],
    i.wf = true ∧ goes base (usesOf i) = true := by decide +kernel

/-- The wave has an open record as all its threads end; a wave of which other threads stay live. -/
theorem witness_ExitEndsThreads :
    let r : WRec := { cls := 3, count := 0, lid := 1, team := 0, widx := 0, seq := 0, epoch := 1 }
    let s := onWave (fun w => { w with openRec := some r, held := [r] }) base
    goes s (usesOf (.exit h64)) = true ∧ s.wavesX h64 = [32] ∧ Sys2Proof.Claims.lastEnds s h64 32 ∧ tagW 32 = 1 ∧
    (s.wv 32).openRec.isSome = true ∧ (s.wv 32).held ≠ [] ∧ (base.wv 32).openRec = none ∧
    ¬ Sys2Proof.Claims.lastEnds (alone s) h64 32 := by
  unfold Sys2Proof.Claims.lastEnds; decide +kernel

theorem witness_RegionEntries : base.xs h64 = tidsOf 32 ∧ Ready (usesOf (.region h64)) base := ⟨by decide +kernel, ready_of_goes (by decide +kernel)⟩

theorem witness_TrapAndBreakpointInstructions :
    Ready (usesOf (.trap h128 7 9)) base ∧ CanTrap base ∧ Ready (usesOf (.brk h64 3)) base ∧ base.launchF.debug = false ∧
    (let s := (recWord 15 4096 base).modDie 0 (fun d => { d with debugger := true })
     Ready (usesOf (.brk h64 3)) s ∧ s.launchF.debug = true ∧ (s.di (dieOf s.focus.core)).debugger = true ∧ s.jfull = false) :=
  ⟨ready_of_goes (by decide +kernel), by unfold CanTrap; decide +kernel, ready_of_goes (by decide +kernel), by decide +kernel,
    ready_of_goes (by decide +kernel), by decide +kernel⟩

/-- Threads in their handlers: the trap came from address 0x10. -/
def handlers : State := onThreads (fun x => { x with
  stack := [8, 4], trap := { cause := 0x10021, pc := 0x10, npc := 0x18, rpc := 0, rdep := 1, inTrap := true } }) base

theorem witness_TrapReturns :
    (∀ i ∈ [Instr.rftNext h64, .rftRetry h64], goes handlers (usesOf i) = true) ∧
    (∀ x ∈ handlers.xs h64, (handlers.th x).trap.inTrap = true ∧ (handlers.th x).trap.pc < 2 ^ 52 ∧ (handlers.th x).trap.npc < 2 ^ 52 ∧
      (handlers.th x).trap.pc % 4 = 0 ∧ (handlers.th x).trap.npc % 4 = 0) ∧
    (let s := alone handlers
     goes s (usesOf (.rftRegion h64)) = true ∧ s.xs h64 = [1024] ∧ (s.th 1024).trap.inTrap = true ∧
       (s.th 1024).trap.cause.getLsbD 16 = true) := by decide +kernel

theorem witness_SpecialRegisters :
    NoQueue (usesOf (.getsr h64 (.v 8) 0)) ∧ NoQueue (usesOf (.setsr h64 0x2F (vr 2))) ∧
    (handlers.th 1024).trap.inTrap = true ∧ (base.th 1024).trap.inTrap = false := ⟨⟨rfl, rfl⟩, ⟨rfl, rfl⟩, by decide +kernel⟩

theorem witness_PrivilegedInstructions :
    (let s := base.setSreg 32 6 0x10000
     (∀ i ∈ [Instr.tlbinvPage h96 (.s 4) 0, .tlbinvRange h128 (.s 4) 8 (.s 6), .tlbinvCtx h96], goes s (usesOf i) = true) ∧
       ∀ w ∈ s.wavesX h96, decodeFault s (leader s h96 w) (baseAddr s w (.s 4) 8).toNat = none) ∧
    (let w := encode (.quiesce h64)
     decodeWord .w64 w = .ok (.quiesce h64) ∧ bitsOf w 18 11 = 0xEE ∧ (∀ k ∈ wordFeatures .w64 w, (base.la 1).feat k = true) ∧
       (base.la 1).priv = true ∧ ((recWord 15 0 base).la 1).priv = false) := by decide +kernel

theorem witness_TrapsThatAbort :
    (base.di (dieOf (base.coreOf 1024))).events.length < 16 ∧ base.recordFull = false ∧ base.eventRoom = true ∧
    ({ base with front := { base.front with eqk := 6, eqtail := 63 } } : State).eventRoom = false ∧ (handlers.th 1024).trap.inTrap = true ∧
    ((recWord 1 0 base).launchOf 1024).handler = 0 ∧ base.grp ≠ [] ∧
    (∀ x ∈ base.grp, base.lidOf x = base.lidF ∧ base.coreOf x = base.focus.core) ∧ base.ringOk = false := by decide +kernel

/-- Four lanes issue, each with its own word: `s4:s5` = 0x400, `v2` = 4 * lane. -/
def words : State :=
  (((((base.setSreg 32 4 0x400).setVreg 1024 2 0).setVreg 1025 2 4).setVreg 1026 2 8).setVreg 1027 2 12).focusOn 0 0 [1024, 1025, 1026, 1027] []

/-- What `Reaches` asks of an access, as a Bool, with the pieces read from `piecesOf` or `atomPieces`. -/
def reachesB (s : State) (u : Uses) (ea : Nat → DWord) (align : Nat) (ps : Nat → Pieces) : Bool :=
  (s.accessors u).all (fun x => (ea x).toNat % align == 0 && (ps x).all (fun p =>
      (match p.1 with | .mem pa => pa / 2 ^ 40 == s.pkg | _ => true) && (s.waitOf p.1).isNone) &&
    !(s.isPaired (tagOf x)) && (s.tm (tagOf x)).heldStores.isEmpty && (s.co (s.wv (widOf x)).core).mx.all (fun e => e.wid != widOf x) &&
    (s.wv (widOf x)).saved.isEmpty && s.msys.tags.isEmpty && (ps x).all (fun p => !(s.regBusy x p.1 p.2.1)))
theorem reaches_of {s : State} {u : Uses} {ea : Nat → DWord} {align : Nat} {ps : Nat → Pieces} (h : reachesB s u ea align ps = true) :
    Reaches s u ea align ps := by
  simp only [reachesB, List.all_eq_true, Bool.and_eq_true, beq_iff_eq, Option.isNone_iff_eq_none, Bool.not_eq_true', bne_iff_ne,
    List.isEmpty_iff] at h
  exact ⟨fun x hx => (h x hx).1.1.1.1.1.1.1,
    fun x hx p hp pa hpa => by have := ((h x hx).1.1.1.1.1.1.2 p hp).1; rw [hpa] at this; simpa using this,
    fun x hx p hp => ((h x hx).1.1.1.1.1.1.2 p hp).2, fun x hx => ⟨(h x hx).1.1.1.1.1.2, (h x hx).1.1.1.1.2⟩, fun x hx => (h x hx).1.1.1.2,
    fun x hx => ⟨(h x hx).1.1.2, fun g hg => absurd hg (by rw [(h x hx).1.2]; exact List.not_mem_nil)⟩, fun x hx => (h x hx).2⟩

/-- The pieces of a thread's access, or none. -/
def okPieces (x : Except Nat Pieces) : Pieces := match x with | .ok ps => ps | .error _ => []
def isOk {ε α : Type} (x : Except ε α) : Bool := match x with | .ok _ => true | .error _ => false

def loadGoes (s : State) (i : Instr) : Bool :=
  match loadForm i with
  | some (_, m, n, _, _, align) =>
    let get (x : Nat) : Except Nat Pieces := s.piecesOf x m.qual.toNat (s.effAddr x m) n .read
    goes s (usesOf i) && !(s.accessors (usesOf i)).isEmpty &&
      (s.accessors (usesOf i)).all (fun x => isOk (get x) && !(okPieces (get x)).isEmpty && (okPieces (get x)).all (fun p => (s.waitRead x p.1).isNone)) &&
      reachesB s (usesOf i) (fun x => s.effAddr x m) align (fun x => okPieces (get x))
  | none => false

theorem witness_Loads_1 : (loadGoes words (.ld h96 (.v 8) (adr 0) 2 false 0) && loadGoes words (.ld h96 (.v 8) (adr 1) 0 true 0) &&
    loadGoes base (.ldv h96 (.v 8) (adr 0) 3 0)) = true := by decide +kernel

theorem witness_Loads_2 :
    let i := Instr.ldver h96 (.v 8) (adr 0) 0
    let get (x : Nat) : Except Nat Pieces := words.piecesOf x 0 (words.effAddr x (adr 0)) 4 .read
    (goes words (usesOf i) && (words.accessors (usesOf i)).all (fun x => isOk (get x) && (okPieces (get x)).all (fun p => (words.waitRead x p.1).isNone)) &&
      reachesB words (usesOf i) (fun x => words.effAddr x (adr 0)) 4 (fun x => okPieces (get x))) = true := by decide +kernel

def atomGoes (s : State) (i : Instr) : Bool :=
  match atomForm i with
  | some f => match s.atomPieces 1024 f.qual.toNat (s.atomAddr 1024 f.base f.off) f.bytes with
    | .ok [(loc, n, _)] => n == f.bytes && (match loc with | .mem _ => true | .scr _ off => off + n ≤ 2 ^ 20 | _ => false) &&
        goes s (usesOf i) && (s.accessors (usesOf i)) == [1024] &&
        reachesB s (usesOf i) (fun x => s.atomAddr x f.base f.off) f.bytes (fun _ => [(loc, n, 0)])
    | _ => false
  | none => false

theorem witness_AtomicInstructions_1 : [Instr.atom h96 (.v 8) (ss 4) 0 0 (vs 6) 0 6 0 2, .atom h96 (.v 8) (ss 4) 0 1 (vs 4) 9 3 3 3,
    .atomf h96 (.v 8) (ss 4) 0 0 (vs 6) 1 6 0, .red h96 true (ss 4) 0 0 (vs 6) 2 6 0 2, .red h96 false (ss 4) 0 0 (vs 6) 5 0 0 3].all
    (atomGoes (alone words)) = true := by decide +kernel

theorem witness_AtomicInstructions_2 :
    let i : Instr := .atom h96 (.v 8) (ss 4) 0 0 (vs 6) 0 6 0 2
    goes words (usesOf i) = true ∧ words.accessors (usesOf i) = [1024, 1025, 1026, 1027] ∧
    (∀ x ∈ words.accessors (usesOf i), okPieces (words.atomPieces x 0 (words.atomAddr x (ss 4) 0) 4) = [(.mem 0x400, 4, 0x400)]) ∧
    reachesB words (usesOf i) (fun x => words.atomAddr x (ss 4) 0) 4 (fun _ => [(.mem 0x400, 4, 0x400)]) = true := by decide +kernel

/-- Lane 2 is the first that fails: by its alignment, or by an address behind the mapped page. -/
theorem witness_AccessTraps :
    let i := Instr.ld h96 (.v 8) (adr 0) 2 false 0
    let s := words.setVreg 1026 2 1
    let t := words.setVreg 1026 2 0x20000
    goes s (usesOf i) = true ∧ goes t (usesOf i) = true ∧ s.accessors (usesOf i) = [1024, 1025] ++ 1026 :: [1027] ∧
    ([1024, 1025].all (fun y => (s.effAddr y (adr 0)).toNat % 4 == 0 && isOk (s.piecesOf y 0 (s.effAddr y (adr 0)) 4 .read))) = true ∧
    (s.effAddr 1026 (adr 0)).toNat % 4 = 1 ∧ (t.effAddr 1026 (adr 0)).toNat % 4 = 0 ∧
    isOk (t.piecesOf 1026 0 (t.effAddr 1026 (adr 0)) 4 .read) = false := by decide +kernel

def storeGoes (s : State) (i : Instr) : Bool :=
  match storeForm i with
  | some (_, _, m, n, align) =>
    let get (x : Nat) : Except Nat Pieces := s.piecesOf x m.qual.toNat (s.effAddr x m) n .write
    n ≤ 32 && goes s (usesOf i) && (s.accessors (usesOf i)).all (fun x => isOk (get x) && !(okPieces (get x)).isEmpty &&
        (okPieces (get x)).all (fun p => match p.1 with | .mem _ => true | .scr _ off => off + p.2.1 ≤ 2 ^ 20 | _ => false)) &&
      reachesB s (usesOf i) (fun x => s.effAddr x m) align (fun x => okPieces (get x))
  | none => false

theorem witness_StoreInstructions_1 : (storeGoes words (.st h96 (vs 6) (adr 0) 2 0) && storeGoes words (.st h96 (vs 6) (adr 1) 0 0) &&
    storeGoes (alone base) (.stv h96 (vs 8) (adr 0) 3 0)) = true := by decide +kernel

/-- Every lane stores to its own word; and page 9 holds no version and has none in quarantine. -/
theorem witness_StoreInstructions_2 :
    ((words.accessors (usesOf (.st h96 (vs 6) (adr 0) 2 0))).map (fun x => okPieces (words.piecesOf x 0 (words.effAddr x (adr 0)) 4 .write)) =
      [[(.mem 0x400, 4, 0x400)], [(.mem 0x404, 4, 0x404)], [(.mem 0x408, 4, 0x408)], [(.mem 0x40C, 4, 0x40C)]]) ∧
    (base.pageOf 9).versions = [] ∧ (∀ q ∈ base.msys.quarantine, q.1 ≠ 9) ∧ (base.pageOf 9).largest + 1 < 0x10000 := by decide +kernel

/-- Package 5 has a mark in the domain table. -/
def withPeer (m : DomMark) (s : State) : State := { s with checker := { s.checker with peers := [(5, { mark := m })] } }
/-- `s4:s5` = 0x10000, where a page of package 5, a member, is mapped. -/
def away : State := withPeer .member (onCore (fun c => { c with tlb := c.tlb ++ [(0, 0x10000, 16, 5 * 2 ^ 40 + 0x63)] }) (base.setSreg 32 4 0x10000))

theorem witness_AddressForms :
    (∀ i ∈ [Instr.marm h96 (adr 0) 0, .ptest h96 1 (adr 1), .cctlWb h96 (adr 0) 0 0, .cctlInv h96 (adr 0) 0 0, .cctlWbinv h96 (adr 0) 0 0,
        .cctlRet h96 (adr 0) 0 1, .pref h96 (adr 0) 0 2], goes words (usesOf i) = true) ∧
    (words.accessors (usesOf (.marm h96 (adr 0) 0))).Nodup ∧
    (∀ x ∈ words.accessors (usesOf (.marm h96 (adr 0) 0)), ((words.placeFor x 0 (words.effAddr x (adr 0)).toNat .read).toOption.map Place.loc) =
      some (.mem (0x400 + 4 * (x - 1024))) ∧ isFar words (.mem (0x400 + 4 * (x - 1024))) = false) ∧
    (let i := Instr.marm h96 (adr 0) 0
     let s := alone away
     goes s (usesOf i) = true ∧ s.accessors (usesOf i) = [1024] ∧ 5 * 2 ^ 40 / 2 ^ 40 ≠ s.pkg ∧
       ((s.placeFor 1024 0 (s.effAddr 1024 (adr 0)).toNat .read).toOption.map Place.loc) = some (.mem (5 * 2 ^ 40))) ∧
    (∀ x ∈ words.accessors (usesOf (.ptest h96 1 (adr 1))), ((words.placeFor x 1 (words.effAddr x (adr 1)).toNat .read).toOption.map Place.loc).isSome = true) ∧
    ∀ e ∈ words.cores, ∀ x ∈ e.2.mx, x.pins = [] := by decide +kernel

theorem witness_PoolsAndClaims :
    (goes base (usesOf (.regrel h64 248)) = true ∧ base.wavesX h64 = [32] ∧ 248 + 8 ≤ (base.wv 32).regs ∧ base.pend = [] ∧ base.vres = []) ∧
    (let s := onWave (fun w => { w with regs := 64 }) base
     goes s (usesOf (.regclm h64 192)) = true ∧ s.wavesX h64 = [32] ∧ (s.wv 32).regs + 192 ≤ 256) ∧
    (let i := Instr.claim h96 (.v 8) (adr 0) (vs 6)
     goes words (usesOf i) = true ∧ words.msys.claims = [] ∧
       ∀ x ∈ words.accessors (usesOf i), (match claimPlan words x (adr 0) (words.rd [] x (vs 6)).toNat with | .fault _ => false | _ => true) = true) := by
  decide +kernel

/-- The addresses in `s4:s5` and `s6:s7`. -/
def scalars : State := (base.setSreg 32 4 0x400).setSreg 32 6 0x800

theorem witness_QueueInstructions :
    ([Instr.qpush h64 2 (vs 2), .copy h128 (.s 4) (.s 6) (.s 8) (.c 1) 0, .copyFill h128 (.c 0) (.s 2) (.s 6) (.s 8) 0x40000,
      .gather h128 (.c 0) (.s 4) (.s 6) (.s 8) (.c 1) 2 0, .scatter h128 (.s 4) (.s 6) (.s 8) (.s 10) (.s 2) 1 0,
      .collr h128 (.c 0) (.s 4) (.s 6) (.s 8) (.c 0) 0, .collg h128 (.c 0) (.s 4) (.s 6) (.s 8) (.s 2) 0].all (fun i =>
        i.wf && goes scalars (usesOf i) && (match pushForm i with | some (e, _) => e < 6 | none => false))) = true ∧
    (∀ w ∈ scalars.wavesF, (scalars.wv w).eq.length = 8) ∧
    goes (onWave (fun w => { w with er := w.er.set 7 [5] }) base) (usesOf (.qpop h64 (.v 8) 7)) = true ∧
    goes base (usesOf (.qtry h64 (.v 8) 7 1)) = true := by decide +kernel

/-- An object lies at an address, as a Bool. -/
def objectB (s : State) (x : Nat) (ea : DWord) (k : Nat) (l : Loc) : Bool :=
  (s.waitOf l).isNone && !(soHeld s x ea) && ea.toNat % 2 ^ k == 0 && (match s.placeFor x 0 ea.toNat .write with
    | .ok p => p.loc == l && (match l with | .mem pa => p.ord != 2 && pa / 2 ^ 40 == s.pkg | .scr _ off => decide (off + 2 ^ k ≤ 2 ^ 20) | _ => false)
    | .error _ => false)

theorem witness_BarrierObjects :
    ([Instr.bbinit h96 (.s 4) 0 (.s 6), .bbadd h128 (.s 4) 0 (.c 1), .chunk h96 (.s 8) (.s 4) 0, .bbwait h96 (.s 4) 0, .bbwaitP h96 2 (.s 4) 0].all
      (fun i => i.wf && goes scalars (usesOf i))) = true ∧
    scalars.wavesX h96 = [32] ∧ objectB scalars (leader scalars h96 32) (baseAddr scalars 32 (.s 4) 0) 6 (.mem 0x400) = true ∧
    ([Instr.bbinit h96 (.s 4) 0 (.s 6), .bbadd h128 (.s 4) 0 (.c 1), .chunk h96 (.s 8) (.s 4) 0, .bbwait h96 (.s 4) 0, .bbwaitP h96 2 (.s 4) 0].all
      (fun i => goes away (usesOf i))) = true ∧
    away.wavesX h96 = [32] ∧ away.waitOf (.mem (5 * 2 ^ 40)) = none ∧
    soHeld away (leader away h96 32) (baseAddr away 32 (.s 4) 0) = false ∧ (baseAddr away 32 (.s 4) 0).toNat % 2 ^ 6 = 0 ∧ 5 * 2 ^ 40 / 2 ^ 40 ≠ away.pkg ∧
    (match away.placeFor (leader away h96 32) 0 (baseAddr away 32 (.s 4) 0).toNat .write with
      | .ok p => p.loc == .mem (5 * 2 ^ 40) && p.ord != 2 | .error _ => false) = true := by decide +kernel

/-- Thread 1024 fenced behind a far access, or behind its own command. -/
theorem witness_Fences_2 :
    let s : State := onThreads (fun x => { x with fenceTag := 1, fencePair := true }) { base with msys := { base.msys with tags := [{
      id := 0, acc := { core := 0, tid := 1024, pc := 0, op := .load 4 false, pieces := [] }, pkg := 5, addr := 5 * 2 ^ 40 }] } }
    let c := onThreads (fun x => { x with fenceId := 2, fencePair := true }) (onCore (fun k => { k with cmds := [{
      id := 1, q := 0, wid := 32, tid := 1024, pc := 0, rpc := 0, rcount := 0, rdepth := 0, words := [] }] }) base)
    let r := onThreads (fun x => { x with fenceRes := 2 }) { base with vres := [{ core := 0, id := 1, cls := 0, writes := [(.v 1024 8, 0)] }] }
    1024 ∈ s.grp ∧ (∃ g ∈ s.msys.tags, g.acc.tid = 1024 ∧ g.id < (s.th 1024).fenceTag) ∧
    (∃ v ∈ r.vres, v.core = r.coreOf 1024 ∧ (v.cls = 0 ∨ v.cls = 4) ∧ v.id < (r.th 1024).fenceRes ∧ ∃ w ∈ v.writes, aimedAt 1024 w.1 = true) ∧
    (∃ k ∈ (c.co (c.coreOf 1024)).cmds, k.tid = 1024 ∧ k.id < (c.th 1024).fenceId) ∧
    (usesOf (.ld h96 (.v 8) (adr 0) 2 false 0)).memPort = true ∧ (s.th 1024).fencePair = true ∧
    ∃ o ∈ (usesOf (.mov h64 (.y 3) (vs 2))).dsts, o.1 = .y 3 := by decide +kernel

/-- Tags with 64 and with 32 arrivals, and a tag of no one. -/
theorem witness_WiredBarriers :
    let s := recWord 22 (64 + 32 * 2 ^ 32) base
    (∀ i ∈ [Instr.bar h64 0, .bara h64 1, .barw h64 1, .bar h64 7, .bara h64 7, .barw h64 7], goes s (usesOf i) = true) ∧
    (∀ x ∈ s.xs h64, s.lidOf x = s.lidF ∧ s.coreOf x = s.focus.core ∧ (s.tm (tagOf x)).isSecond = false) ∧
    (∀ x ∈ s.grp, (s.th x).park = .none) ∧ (∀ k ∈ [0, 1], (rtagOf s s.lidF k).hold = false ∧ (rtagOf s s.lidF k).count = 0) ∧
    s.launchF.tagCount 0 = 64 ∧ s.launchF.tagCount 1 = 32 ∧ s.launchF.tagCount 7 = 0 ∧ (s.xs h64).length = 32 ∧
    AMap.sorted s.threads = true ∧
    (let w := s.modThread 1056 (fun x => { x with park := .barrier 1 1 0 none })
     w.lidF = 1 ∧ (∃ k, (w.th 1056).park = .barrier w.lidF 1 k none ∧ k ≤ (rtagOf w 1 1).episode) ∧ 1056 ∉ w.grp) := by
  refine ⟨?_, ?_, ?_, ?_, ?_, ?_, ?_, ?_, ?_, ?_, ⟨0, ?_⟩, ?_⟩ <;> decide +kernel

theorem witness_StageQueues_1 :
    let s := recWord 26 4 scalars
    (∀ i ∈ [Instr.sqpush h64 0 (.v 2), .sqpush h96 0 (.s 4), .sqpop h64 0 (.v 2) 1, .sqpop h96 0 (.s 4) 1, .sqclose h64 0],
      i.wf = true ∧ goes s (usesOf i) = true) ∧
    s.wavesX h64 = [32] ∧ s.wavesX h96 = [32] ∧ sqBehind s 32 = false ∧ s.launchF.sqDepth 0 = 4 ∧ (s.tm (tagOf (leader s h96 32))).heldStores = [] ∧
    soHeld s (leader s h96 32) (s.sPair 32 (.s 4)) = false ∧ soHeld s (leader s h96 32) (s.sPair 32 (.s 4) + 255) = false ∧
    isOk (entryPieces s (leader s h96 32) (s.sPair 32 (.s 4)) .write) = true ∧
    (match entryPieces s (leader s h96 32) (s.sPair 32 (.s 4)) .read with
      | .ok ps => !ps.isEmpty && ps.all (fun p => (s.waitOf p.1).isNone && (s.waitRead 1024 p.1).isNone && !(isFar s p.1))
      | .error _ => false) = true := by decide +kernel

/-- A queue of two entries with a push to serve, one with a pop, and a closed empty one with a pop. -/
theorem witness_StageQueues_2 :
    let r : SqReq := { wid := 32, tids := tidsOf 32, len := 8, entry := List.replicate 256 7 }
    let p : SqReq := { wid := 32, tids := tidsOf 32, len := 8, reg := some 254, pd := 15 }
    let q (x : StageQ) : State := (recWord 26 4 base).modLaunch 1 (fun l => { l with sqs := [(0, x)] })
    (sqOf (q { entries := [([], false, 0), ([], true, 8)], pushes := [r] }) 1 0 = { entries := [([], false, 0), ([], true, 8)], pushes := [r] } ∧ r.cmd = none ∧ r.isClose = false ∧
      r.tag = 0 ∧ r.tids.Nodup ∧ 2 < ((q {}).la 1).sqDepth 0) ∧
    (sqOf (q { entries := [(List.replicate 256 7, true, 8)], pops := [p] }) 1 0 = { entries := [(List.replicate 256 7, true, 8)], pops := [p] } ∧
      sqOf (q { closed := true, pops := [p] }) 1 0 = { closed := true, pops := [p] } ∧ p.tids.Nodup ∧ ((q {}).tm (tagW p.wid)).fin = false) := by
  decide +kernel

theorem witness_ArrayIssue :
    let s := recWord 7 5 (recWord 8 1 <| recWord 9 0x51 (onWave (fun w => { w with lic := .hold }) scalars))
    (∀ i ∈ [Instr.mma h96 1 (.s 4) (.s 6) (.v 0) 1 0, .mmaf h96 2 1 (.v 2) (.v 3) (.v 0) 1, .mzero h64 1 (.s 4), .mld h96 1 (.s 4) (.c 0) (.v 0) 0 0,
        .mst h96 1 (.s 4) (.v 0) 0 0 false 0, .mstAuto h96 1 (.s 4) (.s 6) 2 0 false 0, .mcvt h96 1 2 1, .mtrn h64 1 2, .madd h96 1 2 3, .maddI h96 1 2 3, .mscl h96 1 2 (.coef 3), .mrow h96 (.v 2) 1 (.c 0),
        .mpoly h96 1 2 3 1, .miter h96 0 1 4 (.lit 5) 1 1 false false, .mres h96 0 (.s 8) 1 4 1 false, .mcoef h96 3 (.s 4) 0 1, .mcoefS h96 3 (.c 5),
        .mls h64 (.s 8), .mlsw h64 (.s 8)],
      (i.wf && isArray i && !(slotIllegal s s.lidF i) && goes s (usesOf i) &&
        (tilesNamed s s.lidF i).all (fun m => (descOf s s.focus.core m).owner == 0 && !(s.tm 1).spillMask.getLsbD m) &&
        (match opdPlaces s 1024 s.grp .read (readOpds s s.lidF 32 i), opdPlaces s 1024 s.grp .write (writeOpds s s.lidF 32 i) with
          | .ok srcs, .ok outs => (srcs ++ outs).all (fun p => (s.waitOf p.1).isNone) &&
              srcs.all (fun p => (s.waitRead 1024 p.1).isNone && !(isFar s p.1)) && !(awaitsUnit s 32 true (srcs.map (fun p => (p.1, p.2.1))))
          | _, _ => false)) = true) ∧
    s.wavesF = [32] ∧ (∀ x ∈ s.grp, s.soBusy x = false) ∧ (s.wv 32).lic = .hold ∧ (s.co s.focus.core).mx = [] ∧ s.isPaired 1 = false ∧ (s.tm 1).heldStores = [] ∧
    slotIllegal base base.lidF (.mma h96 1 (.s 4) (.s 6) (.v 0) 1 0) = true ∧ (base.wv 32).lic ≠ .hold ∧ goes base (usesOf (.mtrn h64 1 2)) = true ∧
    (let t := onCore (fun c => { c with tiles := [(2, { owner := 9 })] }) (onWave (fun w => { w with lic := .hold }) base)
     (descOf t 0 2).owner = 9 ∧ goes t (usesOf (.mtrn h64 1 2)) = true) := by decide +kernel

/-- An entry whose phase is over at clk 400, and the unit of core 0 with one entry at that clk. -/
def entryOf (i : Instr) : MxEntry := {
  id := 1, op := i, wid := 32, tid := 1024, pc := 0, len := 8, issued := 0, lenClk := 272, started := some 100, mem := some [] }
def unit (e : MxEntry) : State := onCore (fun c => { c with clk := 400, mx := [e], nextId := 2 }) base

theorem witness_ArrayPhases_1 :
    let e := { entryOf (.mtrn h64 1 2) with started := none }
    (((unit e).co 0).mx = [e] ∧ e.mem.isSome = true ∧ e.started = none ∧ e.lines = [] ∧ isIter e.op = false) ∧ ((unit e).co 0).mxFree ≤ (unit e).clkOf 0 := by
  decide +kernel

/-- Each form whose tile the statement gives; the operands of `MLD` and `MMA` are all zero. -/
theorem witness_ArrayPhases_2 : ∀ i ∈ [Instr.mzero h64 1 (.s 4), .mtrn h64 1 2, .madd h96 1 2 3, .maddI h96 1 2 3, .mscl h96 1 2 (.coef 3),
    .mscl h96 1 2 (.scalar (.s 4)), .mcvt h96 1 2 0, .mld h96 1 (.s 4) (.c 0) (.v 0) 0 0, .mma h96 1 (.s 4) (.s 6) (.v 0) 1 0],
    let s := recWord 8 1 (unit (entryOf i))
    (s.co 0).mx.map (fun e => (tileForm s 0 e).isSome) = [true] ∧ (∀ e ∈ s.teams, e.2.moveTo = none) ∧
    (∀ e ∈ s.waves, e.2.core = 0 → (s.wv e.1).saved = []) ∧ 100 + 272 ≤ s.clkOf 0 := by decide +kernel

theorem witness_ArrayPhases_3 :
    let e : MxEntry := { entryOf (.mst h96 1 (.s 4) (.v 0) 0 0 false 0) with
      outs := (List.range 64).map (fun i => (.mem (0x400 + 256 * i), 256, 0x400 + 256 * i)) }
    let s := unit e
    (s.co 0).mx = [e] ∧ (slotF s (s.lidOf e.tid) 0).fmt = 0 ∧ (slotF s (s.lidOf e.tid) 0).scale = 0 ∧ (e.outs.map (fun p => p.2.1)).sum = 16384 ∧
    e.outs.Pairwise (fun p q => (match p.1, q.1 with | .mem a, .mem b => decide (a + p.2.1 ≤ b) | _, _ => false) = true) ∧
    (∀ p ∈ e.outs, s.waitOf p.1 = none ∧ isFar s p.1 = false) ∧ s.isPaired (tagOf e.tid) = false := by decide +kernel

theorem witness_ArrayPhases_4 :
    (let s : State := { unit { entryOf (.mrow h96 (.v 2) 1 (.c 0)) with vres := some 1 } with
      vres := [{ core := 0, id := 1, cls := 2, ready := false, writes := [] }] }
     (∀ r ∈ s.vres, r.core = 0 ∧ r.id = 1) ∧ (s.co 0).mx.length = 1) ∧
    ∀ i ∈ [Instr.mcoefS h96 3 (.c 5), .mlsw h64 (.s 8)], ((unit (entryOf i)).co 0).mx = [entryOf i] ∧
      (∀ e ∈ (unit (entryOf i)).teams, e.2.moveTo = none) ∧ ∀ e ∈ (unit (entryOf i)).waves, e.2.core = 0 → ((unit (entryOf i)).wv e.1).saved = [] := by
  decide +kernel

theorem witness_ArrayPhases_5 :
    let s0 : State := unit { entryOf (.mma h96 1 (.s 4) (.s 6) (.v 0) 1 0) with started := none, lines := [8, 9] }
    let s : State := { s0 with msys := { s0.msys with pinq := [(s0.sliceOf 1 8, 0, 1)] } }
    s.msys.pinq.find? (fun q => q.1 == s.sliceOf 1 8) = some (s.sliceOf 1 8, 0, 1) ∧ ((s.co 0).mx.find? (fun x => x.id == 1)).isSome = true ∧
    (∀ e ∈ (s.co 0).mx, pinFits s (s.sliceOf 1 8) (wantIn s e (s.sliceOf 1 8)) = true ∧ 8 ∈ wantIn s e (s.sliceOf 1 8)) := by decide +kernel

theorem witness_IterationSteps_1 : ∀ i ∈ [Instr.mpoly h96 1 2 3 1, .miter h96 0 1 4 (.lit 5) 1 1 false false],
    let e := { entryOf i with started := none }
    (jobOf e).any (fun j => !(resumes (unit e) e.wid j)) = true ∧ e.lines = [] ∧ ((unit e).co 0).mx = [e] ∧
    ((unit e).co 0).mxFree ≤ (unit e).clkOf 0 := by decide +kernel

theorem witness_IterationSteps_2 :
    let s := onWave (fun w => { w with lic := .hold }) (onTeam (fun t => { t with loop := BitVec.ofNat 128 (2 ^ 72 * 5) })
      (unit (entryOf (.mpoly h96 1 2 3 1))))
    (s.co 0).mx = [entryOf (.mpoly h96 1 2 3 1)] ∧ (entryOf (.mpoly h96 1 2 3 1)).ran = false ∧ 100 + 272 ≤ s.clkOf 0 ∧
    (loopOf s 32).count < (loopOf s 32).limit ∧ (s.wv 32).lic = .hold ∧
    (entryOf (.mpoly h96 1 2 3 1)).stop = false ∧ ∀ y ∈ tidsOf 32, (s.th y).faults = [] ∧ (s.th y).pendTrap = none := by decide +kernel

theorem getD_rangeArray {α : Type} (n k : Nat) (f : Nat → α) (d : α) : ((List.range n).map f).toArray.getD k d = if k < n then f k else d := by
  by_cases h : k < n <;> simp [Array.getD, h]
theorem tel_tileOf_zero (i j : Nat) : tel (tileOf (fun _ _ => 0)) i j = 0 := by
  rw [tel, tileOf, getD_rangeArray]
  split <;> rfl
theorem tel_tileArr_none (s : State) (hs : s.tiles = []) (core m i j : Nat) : tel (tileArr s core m) i j = 0 := by
  rw [tel, tileArr, getD_rangeArray, hs]
  split <;> rfl
theorem fedTile_zero (t : Array Word) (h : ∀ i j, tel t i j = 0) (i j : Nat) : (fedTile 1 t).el i j = .zero false := by
  have h1 : feedback 1 (0 : Word).toNat = .zero false := by decide +kernel
  simp only [fedTile, matOf, Mat.el, h, h1]
  rw [getD_rangeArray]
  split <;> rfl
theorem prodXXt_zero (t : Array Word) (h : ∀ i j, tel t i j = 0) : prodXXt 1 [t] = tileOf (fun _ _ => 0) := by
  have h1 : accFloat (groupLen 1) (64 * 1 / groupLen 1) (fun _ => .zero false) (fun _ => .zero false) 0 = 0 := by decide +kernel
  have h2 : ∀ i k : Nat, ((#[fedTile 1 t] : Array Mat).getD (k / 64) ⟨64, #[]⟩).el i (k % 64) = .zero false := by
    intro i k
    rcases Nat.eq_zero_or_pos (k / 64) with h3 | h3
    · rw [h3]; exact fedTile_zero t h i _
    · obtain ⟨n, hn⟩ : ∃ n, k / 64 = n + 1 := ⟨k / 64 - 1, by omega⟩
      rw [hn]; rfl
  simp only [prodXXt, iterProduct, List.map_cons, List.map_nil, List.length_cons, List.length_nil, Nat.zero_add]
  congr 1
  funext i j
  rw [← h1]
  congr 1 <;> funext k <;> exact h2 _ k
theorem resid_zero (t : Array Word) (h : ∀ i j, tel t i j = 0) : resid t = 0x42800000 := by
  have h1 : ∀ i j, telF t i j = .zero false := fun i j => by simp only [telF, h]; decide +kernel
  simp only [resid, h1]
  decide +kernel

/-- A tile of zeros has the residual 64, which a bound of 64 takes. -/
def iterating : State := recWord 8 1 (onTeam (fun t => { t with coefs := t.coefs.set 15 0x42800000 })
  (unit { entryOf (.miter h96 0 1 4 (.lit 5) 1 1 false false) with vals := [5] }))
theorem witness_IterationSteps_3 :
    let e := { entryOf (.miter h96 0 1 4 (.lit 5) 1 1 false false) with vals := [5] }
    let g := iterTiles 0 1 4 false
    let ts := iterInit 0 (slotF iterating (iterating.lidOf e.tid) 1).fmt g.x 4
      ((g.x ++ (4 :: g.work)).dedup.map (fun m => (m, tileArr iterating 0 m)))
    ((iterating.co 0).mx = [e] ∧ e.ran = false ∧ 100 + e.lenClk ≤ iterating.clkOf 0 ∧ (loopOf iterating e.wid).sel = false) ∧
    notFinite (resid (ts.at g.res)) = false ∧ leF (resid (ts.at g.res)) ((iterating.tm (tagW e.wid)).coefs.getD 15 0) = true := by
  refine ⟨by decide +kernel, ?_⟩
  have hr : resid ((iterInit 0 1 [1] 4 ([1, 4, 5].map (fun m => (m, tileArr iterating 0 m)))).at 4) = 0x42800000 := by
    refine resid_zero _ (fun i j => ?_)
    have : (iterInit 0 1 [1] 4 ([1, 4, 5].map (fun m => (m, tileArr iterating 0 m)))).at 4 = prodXXt 1 [tileArr iterating 0 1] := rfl
    rw [this, prodXXt_zero _ (tel_tileArr_none iterating rfl 0 1)]
    exact tel_tileOf_zero i j
  have hk : (slotF iterating (iterating.lidOf 1024) 1).fmt = 1 := by decide +kernel
  have hg : (iterTiles 0 1 4 false).x = [1] ∧ (iterTiles 0 1 4 false).res = 4 ∧
      ([1] ++ (4 :: (iterTiles 0 1 4 false).work)).dedup = [1, 4, 5] := by decide +kernel
  simp only [entryOf, hg.1, hg.2.1, hk, hg.2.2]
  rw [hr]
  decide +kernel

/-- The licence of the pair of core 0. -/
def pair (a : Arb) (s : State) : State := s.modPair 0 (fun p => { p with arb := a })
def holding : State := pair (.held false) (onWave (fun w => { w with lic := .hold }) base)

theorem witness_Licences_1 :
    (let s := base.focusOn 0 0 [] []
     (∀ i ∈ [Instr.msync h64, .mlicAcq h64, .mlicTry h64 1, .mlicRel h64, .mlicGive h64, .twinOff h64, .twin h64 (.lit 5) 8, .stgseal h64 none],
        goes s (usesOf i) = true) ∧ s.wavesX h64 = []) ∧
    base.wavesX h64 = [32] ∧ hasEntries base 32 = false ∧ (base.wv 32).core = base.focus.core ∧ pairOf base.focus.core = 0 ∧
    (base.tp 0).arb = .free ∧ (base.tp 0).fillers = none ∧ (base.wv 32).lic ≠ .hold ∧ ((pair (.drain true) base).tp 0).arb = .drain true ∧ ((pair (.held true) base).tp 0).arb = .held (!isUpper 0) := by decide +kernel

theorem witness_Licences_2 :
    (∀ i ∈ [Instr.mlicAcq h64, .mlicTry h64 1, .mlicRel h64, .mlicGive h64], goes holding (usesOf i) = true) ∧
    (holding.wv 32).lic = .hold ∧ hasEntries holding 32 = false ∧ AMap.sorted holding.waves = true ∧ (holding.tp 0).arb = .held (isUpper 0) ∧ (holding.tp 0).fillers = none ∧
    (let s := pair (.held false) base
     goes s (usesOf (.mlicAcq h64)) = true ∧ (s.wv 32).lic ≠ .hold ∧ (s.tp 0).arb = .held (isUpper 0) ∧ s.sideWaits 0 (!isUpper 0) = false ∧
       (∀ e ∈ s.waves, e.2.core = s.focus.core → (s.wv e.1).saved = []) ∧ (s.wv 32).licPd = none ∧ (∀ x ∈ s.grp, widOf x = 32) ∧ ∀ x ∈ tidsOf 32, (s.th x).park = .none) := by decide +kernel

theorem witness_Licences_3 :
    (let s := onCore (fun c => { c with clk := 64 }) (onThreads (fun x => { x with park := .licence })
       (onWave (fun w => { w with lic := .wait }) (pair (.wake false 0) base)))
     (s.tp 0).arb = .wake false 0 ∧ 0 + 64 ≤ s.clkOf (sideCore 0 false) ∧ pairOf 0 = 0 ∧ (s.tp 0).fillers = none ∧
       s.licWaves (sideCore 0 false) .wait = [32] ∧ s.sideWaits 0 true = false) ∧
    (let s := onCore (fun c => { c with clk := 64 }) <| (twins.modWave 64 (fun w => { w with lic := .wait })).modPair 0 (fun p => { p with arb := .wake false 0, steered := some true })
     (s.tp 0).arb = .wake false 0 ∧ 0 + 64 ≤ s.clkOf (sideCore 0 false) ∧ (s.tp 0).fillers = none ∧ AMap.sorted s.waves = true ∧
       (s.tp 0).steered = some (!false) ∧ s.sideWaits 0 (!false) = true) ∧
    (let s := pair (.drain false) base
     (s.tp 0).arb = .drain false ∧ (s.tp 0).fillers = none ∧ (s.co (sideCore 0 false)).mx = [] ∧ (s.co (sideCore 0 false)).mxFree ≤ s.clkOf (sideCore 0 false) ∧
       s.sideWaits 0 false = false ∧ s.sideWaits 0 true = false ∧ (onWave (fun w => { w with lic := .wait }) s).sideWaits 0 false = true) ∧
    (let both := (twins.modWave 64 (fun w => { w with lic := .wait })).modWave 32 (fun w => { w with lic := .wait })
     (∀ p ∈ [{ arb := .drain false, byGive := true }, { arb := .drain false, steered := some false }, { arb := .drain false }],
       let s := both.modPair 0 (fun _ => p)
       (s.tp 0).arb = .drain false ∧ s.sideWaits 0 false = true ∧ s.sideWaits 0 true = true ∧ (s.tp 0).byGive = p.byGive)) := by
  decide +kernel

theorem witness_TwinWindow :
    (∀ i ∈ [Instr.twin h64 (.lit 5) 8, .twin h64 (.lit 6) 8, .twinOff h64, .txch h64 4 3 .ident, .txch h64 4 3 (.xor 1)], goes twins (usesOf i) = true) ∧
    twins.wavesX h64 = [32] ∧ (twins.co (twinOf twins.focus.core)).slots.find? 5 = some 64 ∧ (twins.tm (tagW 64)).lid = twins.lidF ∧
    (twins.co (twinOf twins.focus.core)).slots.find? 6 = none ∧
    ∀ x ∈ twins.xs h64, (twins.wv (widOf x)).twin = some { lid := 1, team := 1, widx := 0, tag := 2, base := 16 } ∧ patLane (.xor 1) (laneOf x) < 32 := by
  decide +kernel

theorem witness_Records :
    ([Instr.wbegin h96 3 (.lit 4), .wemit h64 (vs 2), .qpush h64 6 (vs 2), .wend h64, .wdigAdd h64 (vs 2), .wdigEmit h64, .wdigClr h64, .rlogOn h64,
      .rlogOff h64].all (fun i => (witForm i).isSome && goes base (usesOf i))) = true ∧
    goes base (usesOf (.wendR h64)) = true ∧ ∀ w ∈ base.wavesX h64, ((base.wv w).er.getD 6 []).length < 16 := by decide +kernel

/-- `s4:s5` = 0x10000, where a staging page is mapped on frame 9 that holds a SEALED version. -/
def staged : State := onCore (fun c => { c with tlb := c.tlb ++ [(0, 0x10000, 16, 0x90000 + 0x73)] })
  { base.setSreg 32 4 0x10000 with stage := [(9, { largest := 1, versions := [{ num := 1, st := .sealed, lid := 7, epoch := 1 }] })] }

theorem witness_CheckRegisters_1 :
    (goes base (usesOf (.chkerr h64 (.v 8))) = true ∧ goes base (usesOf (.chkerrClr h64 (.s 8))) = true) ∧
    (let s := recWord 15 1 base
     goes s (usesOf (.stgseal h96 (some 8))) = true ∧ s.wavesX h96 = [32] ∧ s.launchF.isChecked = true) ∧
    (goes base (usesOf (.stgseal h64 none)) = true ∧ base.wavesX h64 = [32] ∧ base.launchF.isChecked = false ∧ base.launchF.paired = false ∧
      base.grp = (tidsOf 32).filter (fun x => (base.th x).live)) := by decide +kernel

theorem witness_CheckRegisters_2 :
    let s := alone staged
    let i := Instr.relreq h96 (.v 8) (adr 0) (vs 6)
    goes s (usesOf i) = true ∧ s.accessors (usesOf i) = [1024] ∧ s.vres = [] ∧
    (match s.placeFor 1024 0 (s.effAddr 1024 (adr 0)).toNat .read with | .ok p => p.xlated && p.loc == .stg 9 0 | .error _ => false) = true ∧
    (s.rd [] 1024 (vs 6)).toNat = 0 ∧
    (let t := s.setVreg 1024 6 0x100
     (t.rd [] 1024 (vs 6)).toNat ≠ 0 ∧
       (match readPages t (t.coreOf 1024) (t.lidOf 1024) (2 ^ 16 + 2) 0x10000 (min (0x10000 + 0x100) (2 ^ 52)) with
         | .ok pages => pages == [(9, true)] | .error _ => false) = true ∧
       ∀ v ∈ (t.pageOf 9).versions, ¬ (v.st = .writing ∧ v.lid = t.lidOf 1024)) := by decide +kernel

theorem witness_CheckRegisters_3 :
    let s := alone staged
    let i := Instr.vstat h96 (.v 8) (adr 0)
    goes s (usesOf i) = true ∧ s.accessors (usesOf i) = [1024] ∧
    (match s.placeFor 1024 0 (s.effAddr 1024 (adr 0)).toNat .read with | .ok p => p.loc == .stg 9 0 | .error _ => false) = true := by decide +kernel

theorem witness_ThreadEvents_1 :
    (let s := onThreads (fun x => { x with park := .mwait 0 (some 3) 4, hit := true }) base
     (s.th (tidAt 1 0 5)).park = .mwait 0 (some 3) 4 ∧ (s.th (tidAt 1 0 5)).live = true ∧ (s.tm 1).running = true ∧ (s.th (tidAt 1 0 5)).hit = true ∧
       (s.th (tidAt 1 0 5)).late = false) ∧
    (∀ pd ∈ [some 3, none], ∀ h ∈ [false, true], let s := onThreads (fun x => { x with park := .mwait 0 pd 4, hit := h, late := h }) base
     (s.th (tidAt 1 0 5)).park = .mwait 0 pd 4 ∧ (s.th (tidAt 1 0 5)).live = true ∧
       (s.tm 1).stopAt = none ∧ ((s.th (tidAt 1 0 5)).hit = false ∨ (s.th (tidAt 1 0 5)).late = true) ∧ 0 ≤ s.clkOf (s.coreOf (tidAt 1 0 5))) ∧
    (let r : VRes := { core := 0, id := 4, cls := 0, writes := [(.v 1024 255, 5), (.s 32 63, 6), (.p 1024 15, 1)] }
     let s : State := { base with vres := [r] }
     s.vres.find? (fun r => r.core == 0 && r.id == 4 && r.ready && decide (r.after ≤ s.clkOf 0)) = some r ∧ (r.writes.map Prod.fst).Nodup) := by
  decide +kernel

theorem witness_ThreadEvents_2 :
    (let s := onWave (fun w => { w with evicted := [2, 9] }) (onThreads (fun x => { x with park := .refill 32 9 }) base)
     (s.tm 1).running = true ∧ 9 ∈ (s.wv (widAt 1 0)).evicted ∧ s.held = [] ∧ AMap.sorted s.threads = true) ∧
    (let s := onWave (fun w => { w with ended := true }) (onThreads (fun x => { x with park := .refill 32 9 }) base)
     (s.wv (widAt 1 0)).ended = true ∧ s.held = [] ∧ AMap.sorted s.threads = true) ∧
    (let s := onThreads (fun x => { x with park := .barrier 1 0 3 (some 0) }) base
     (s.th 1024).park = .barrier 1 0 3 (some 0) ∧ 0 ≤ s.clkOf (s.coreOf 1024)) ∧
    (let s := onThreads (fun x => { x with park := .bbwait (.mem 0x400) (some 2) 12 (some true) }) base
     (s.th 1024).park = .bbwait (.mem 0x400) (some 2) 12 (some true) ∧ (Loc.mem 0x400).num = 0x400 ∧ (s.tm (tagOf 1024)).running = true) ∧
    (let s := (onThreads (fun x => { x with live := false }) base).modWave 33 (fun w => { w with resident := true, slot := 1 })
     (s.co 0).slots.find? 0 = some 32 ∧ s.liveTids 32 = [] ∧ waveBusy s 32 = false ∧ s.isPaired (tagW 32) = false ∧ (s.wv 32).lic ≠ .hold ∧
       (s.wv 32).resident = true ∧ (s.wv 32).core = 0 ∧ (s.wv 32).slot = 0 ∧ ∃ v ∈ s.teamWids (tagW 32), v ≠ 32 ∧ (s.wv v).ended = false) ∧
    (base.coreStops 0 = false ∧ (base.co 0).claims = [] ∧ (base.modDie 0 (fun d => { d with halted := true })).coreStops 0 = true) ∧
    (let s : State := { base with pend := [{ core := 0, due := 3, tgt := .v 1024 8, val := 5, wid := 32, issue := 1 },
       { core := 0, due := 4, tgt := .v 1024 9, val := 5, wid := 32, issue := 2 }] }
     (∃ w ∈ s.pend, w.core = 0 ∧ w.issue = 1) ∧ (∀ w ∈ s.pend, w.core = 0 → 1 ≤ w.issue) ∧ (s.th 1024).live = true ∧ s.coreOf 1024 = 0) ∧
    (let s := onWave (fun w => { w with timer := 2 ^ 20 + 1, timerOn := some 0 }) base
     (s.tm 1).running = true ∧ (s.tm 1).stopAt = none ∧ (s.wv (widAt 1 0)).timerOn.isSome = true ∧ s.liveTids (widAt 1 0) ≠ [] ∧
       (s.la (s.tm 1).lid).convBound < timerOf s (widAt 1 0)) := by decide +kernel

/-- A command in flight on core 0: its queue and words; it has number 1. -/
def cmdOf (q : Nat) (ws : List Word) : Cmd := { id := 1, q := q, wid := 32, tid := 1024, pc := 0, rpc := 0, rcount := 0, rdepth := 0, words := ws }
def withCmd (c : Cmd) (s : State) : State := onCore (fun k => { k with cmds := [c] }) s

/-- The bytes that a command of so many reads or writes lie in this package's memory, from address `a` on. -/
def engReads (s : State) (c : Cmd) (n a : Nat) : Bool := (List.range n).all (fun k => !(engWaits s c (.mem (a + k))) &&
  (match engPlace s c (a + k) .read with | .ok p => p.loc == .mem (a + k) && (a + k) / 2 ^ 40 == s.pkg | .error _ => false))
def engWrites (s : State) (c : Cmd) (n a : Nat) : Bool := (List.range n).all (fun k => (s.waitOf (.mem (a + k))).isNone &&
  (match engPlace s c (a + k) .write with | .ok p => p.loc == .mem (a + k) && (a + k) / 2 ^ 40 == s.pkg | .error _ => false))

/-- Each moving operation, over 0x400 and 0x800, aligned; and one that is not. -/
theorem witness_EngineMoves_1 : ∀ x ∈ [(Instr.engineCopy 0 1, 0, [0x501, 0x400, 0, 0x800, 0, 12]), (.engineFill 0 1, 0, [0x402, 7, 0x800, 0, 12]),
    (.engineCopy2d 0 1, 0, [0x803, 0x400, 0, 0x800, 0, 8, 2, 32, 16]), (.engineGather 0 1, 1, [0x801, 0x400, 0, 0x600, 0, 0x800, 0, 2, 4]),
    (.engineScatter 0 1, 1, [0x802, 0x400, 0, 0x600, 0, 0x800, 0, 2, 4])],
    let c := cmdOf x.2.1 (x.2.2.map (BitVec.ofNat 32))
    let s := withCmd c base
    (match moveOf x.1 c.words with
      | some f => (startable s 0 1 f.q f.op).isSome && decide (0 < f.n)
      | none => false) = true ∧ barrierBad s c = none ∧ malformed c.q c.words = false ∧ (s.tm (tagOf c.tid)).heldStores = [] ∧ c.lands = [] ∧
    engReads s c 48 0x400 = true ∧ engReads s c 8 0x600 = true ∧ engWrites s c 48 0x800 = true := by decide +kernel
theorem witness_EngineMoves_2 : ∃ f, moveOf (.engineCopy 0 1) [0x501, 0x402, 0, 0x800, 0, 12] = some f ∧ ¬ f.aligned :=
  ⟨_, rfl, by decide⟩

theorem witness_EngineMoves_3 :
    (let d : Land := { loc := .mem 0x800, bytes := [1, 2, 3, 4] }
     let c := { cmdOf 0 [0x501, 0x400, 0, 0x800, 0, 4] with started := true, lands := [(0, d)] }
     let s := withCmd c base
     cmdAt s 0 1 = some c ∧ c.lands.find? (fun e => e.1 == 0) = some (0, d) ∧ s.waitOf d.loc = none ∧ c.q ≠ 1 ∧ cmdBarrier c.words = none ∧ s.msys.closing = []) ∧
    (let d : Land := { loc := .scr 1 0x100, bytes := [1, 2, 3, 4] }
     let c := { cmdOf 0 [0x501, 0x400, 0, 0x800, 0, 4] with started := true, lands := [(0, d)], lines := [(1, 2)] }
     let s := onTeam (fun t => { t with pending := [(2, 1)] }) (withCmd c base)
     cmdAt s 0 1 = some c ∧ 0x100 + d.bytes.length ≤ 2 ^ 20 ∧ (s.tm 1).fin = false ∧ (s.tm 1).secondary = none ∧ s.held = [] ∧
       s.msys.closing = [] ∧ (1, 0x100 / 128) ∈ c.lines ∧ ∀ e ∈ c.lands, e.1 = 0) := by decide +kernel

theorem witness_EngineCommands_1 :
    (let ws : List Word := [0x501, 0x400, 0, 0x800, 0, 12]
     let s := onWave (fun w => { w with eq := w.eq.set 0 (ws ++ [0x501]), eqRaised := [(0, [([], [])])] }) base
     (s.co 0).slots.find? 0 = some 32 ∧ wholeCmds ((s.wv 32).eq.getD 0 []) = [ws] ∧ ((s.wv 32).eqRaised.get [] 0).headD ([], []) = ([], []) ∧ s.canRaise [] = true ∧
       (s.co 0).cmds.length < 64 ∧ s.isPaired (tagW 32) = false ∧ (s.wv 32).eq.length = 8 ∧ malformed 0 ws = false) ∧
    (let s := onTeam (fun t => { t with pending := [(2, 15)] }) (onWave (fun w => { w with
       eq := w.eq.set 0 [0x501, 0x400, 0, 0x800, 0, 12], eqRaised := [(0, [([], [(1, 2)])])] }) base)
     ((s.wv 32).eqRaised.get [] 0).headD ([], []) = ([], [(1, 2)]) ∧ s.canRaise [(1, 2)] = false) ∧
    (let s := onWave (fun w => { w with eq := w.eq.set 0 [0x501, 0x400, 0, 0x404, 0, 12] }) base
     (match execEngineCommandAccept 0 0 0 s with
       | .next u => (u.co 0).cmds.map (fun c => (overlaps u c, c.fault.isNone, c.started)) == [(true, true, true)]
       | _ => false) = true) ∧
    malformed 0 [0x601, 0x400, 0, 0x800, 0, 12] = true ∧
    (let c := cmdOf 3 [0x201, 0x400, 0]
     let s := withCmd c base
     startable s 0 1 3 1 = some c ∧ bodyA c.words 0 = 0x400 ∧ barrierBad s c = none ∧
       (recordPlace s c 0x400).toOption = some (.mem 0x400) ∧ engWaits s c (.mem 0x400) = false ∧ c.result = []) ∧
    (let c := cmdOf 4 [0x301, 0, 0x400, 0]
     startable (withCmd c base) 0 1 4 1 = some c ∧ barrierBad (withCmd c base) c = none ∧ bodyA c.words 1 = 0x400 ∧
       engReads (withCmd c base) c 256 0x400 = true) ∧
    (let c := cmdOf 4 [0x102, 0]
     startable (withCmd c base) 0 1 4 2 = some c ∧ barrierBad (withCmd c base) c = none) ∧
    (let c := cmdOf 5 [0x301, 0, 0x400, 0]
     startable (withCmd c base) 0 1 5 1 = some c ∧ barrierBad (withCmd c base) c = none ∧ bodyA c.words 1 = 0x400 ∧
       engWrites (withCmd c base) c 256 0x400 = true) := by decide +kernel

/-- A collective of two participants over two words, and of one. -/
theorem witness_EngineCommands_2 : ∀ n ∈ [1, 2], ∀ op ∈ [1, 2],
    let c := cmdOf 2 [BitVec.ofNat 32 (0x700 + op), 0x400, 0, 0, 0x600, 0, 0x800, 0]
    let s : State := withCmd c { base with mem := AMap.set 0 (AMap.set 0 (if op = 2 then [(0x408, 0x10)] else []) 0x400 (BitVec.ofNat 8 n)) 0x404 (if op = 1 then 2 else 8) }
    startable s 0 1 2 op = some c ∧ bodyA c.words 0 = 0x400 ∧ bodyW c.words 3 = 0x600 ∧ bodyW c.words 5 = 0x800 ∧ barrierBad s c = none ∧
    (recordPlace s c 0x400).toOption = some (.mem 0x400) ∧ engWaits s c (.mem 0x400) = false ∧ episodeAt s (.mem 0x400) = none ∧
    (readGroup s (.mem 0x400) op).map (fun e => (e.npart, e.count)) = some (n, if op = 1 then 2 else 8) ∧ bodyW c.words 2 < n ∧ c.lands = [] ∧
    s.msys.closing = [] ∧
    (s.tm (tagOf c.tid)).heldStores = [] ∧ engReads s c 8 0x600 = true ∧ engWrites s c 16 0x800 = true := by decide +kernel

theorem witness_EngineCommands_3 :
    (let c := { cmdOf 3 [0x2A040201, 0x400, 0] with started := true, result := [1, 2, 3, 4] }
     let s := withCmd c base
     cmdAt s 0 1 = some c ∧ cmdBarrier c.words = none ∧ cmdDead s c = false ∧ (s.tm (tagW c.wid)).secondary = none ∧
       (∀ e ∈ s.teams, e.2.moveTo = none) ∧ (s.wv c.wid).er.length = 8 ∧ ((s.wv c.wid).er.getD 3 []).length + c.result.length ≤ 16 ∧
       remoteDone s 0 1 = true ∧ hRel (c.words.headD 0) = false ∧
       ((s.wv c.wid).er.getD 7 []).length < 16 ∧ hCpl (c.words.headD 0) = true ∧
       (let t := onWave (fun w => { w with er := w.er.set 7 (List.replicate 16 0) }) s
        (t.wv c.wid).er.length = 8 ∧ 16 ≤ ((t.wv c.wid).er.getD 7 []).length)) ∧
    (let d : Land := { loc := .mem 0x800, bytes := [1, 2, 3, 4] }
     let c := { cmdOf 2 [0x701, 0x400, 0, 0, 0x600, 0, 0x800, 0] with started := true, lands := [(1, d)] }
     let s0 := withCmd c base
     let s : State := { s0 with msys := { s0.msys with closing := [{ loc := .mem 0x400, lid := 1, cmds := [(0, 1)] }] } }
     cmdAt s 0 1 = some c ∧ c.lands = [(1, d)] ∧ s.waitOf d.loc = none ∧ cmdBarrier c.words = none ∧ 0x400 / 2 ^ 40 = s.pkg ∧ 0x400 + 16 ≤ 0x800) ∧
    (let c := { cmdOf 0 [0x501, 0x400, 0, 0x800, 0, 12] with started := true, fault := some (0x13, 3, 0x400) }
     let s := withCmd c base
     cmdAt s 0 1 = some c ∧ cmdBarrier c.words = none ∧ cmdDead s c = false ∧ (s.th c.tid).live = true ∧ (s.th c.tid).park = .none ∧
       (∀ e ∈ s.teams, e.2.moveTo = none) ∧ s.msys.closing = []) ∧
    (let f : HeldFault := { id := 1, code := 0x13, sub := 3, ad := 0x400, tag := 0, pc := 0, rpc := 0, rcount := 0, rdepth := 0, words := [] }
     let s := onThreads (fun x => { x with faults := [f] }) base
     (s.th (tidAt 1 0 5)).faults = [f] ∧ (s.th (tidAt 1 0 5)).live = true ∧ (s.th (tidAt 1 0 5)).park = .none ∧ (s.tm 1).running = true) := by
  decide +kernel

/-- Tables at address 0: the first GiB maps itself; the second GiB starts with the checker's aperture; the third the host's memory; at 3 GiB a
staging page on frame 9. -/
def tables : List Host.Cell :=
  [(0, 0x1001), (0x1000, 0x63), (0x1008, 0x4001), (0x1010, 0xF000000063), (0x1018, 0x2001), (0x2000, 0x3001), (0x3000, 0x90073), (0x4000, 0x5001),
    (0x5000, 0xE100000063)].foldl (fun m e => putMem m e.1 (leBytes 8 e.2)) []
def mapped : State := { base with mem := tables }

theorem witness_MemorySystemEvents_1 :
    (NoQueues base ∧ AMap.sorted base.threads = true ∧ base.held = [] ∧ ((onThreads (fun x => { x with park := .staging 9 }) base).th 1024).park = .staging 9 ∧
      (frames (base.pageOf 9)).length < 4) ∧
    (let m : Migration := { page := 0x20000, size := 0x10000, target := 0x40000, ptes := [0x60000], drained := true }
     let s : State := { base with msys := { base.msys with migrations := [m] }, mem := putMem [] 0x60000 (leBytes 8 0x20063) }
     migrationOf s 2 = some m ∧ NoQueues s ∧ s.held = [] ∧ s.msys.claims = [] ∧ AMap.sorted s.mem = true ∧ AMap.sorted s.stage = true ∧
       m.page / 2 ^ 40 = s.pkg ∧ m.page % 2 ^ 16 = 0 ∧ m.target % 2 ^ 16 = 0 ∧ m.size % 2 ^ 16 = 0 ∧ 0 < m.size ∧ m.target + m.size ≤ 2 ^ 52 ∧
       Sys2Proof.Claims.Disjoint m.page m.size m.target m.size ∧ Sys2Proof.Claims.Disjoint 0x60000 8 m.page m.size ∧ Sys2Proof.Claims.Disjoint 0x60000 8 m.target m.size ∧
       m.page ≤ bitsOf (s.rdMem 0x60000 8) 51 16 * 2 ^ 16 ∧ bitsOf (s.rdMem 0x60000 8) 51 16 * 2 ^ 16 < m.page + m.size) ∧
    (let s : State := { base with msys := { base.msys with l2Changing := some [(1, 3)] } }
     s.msys.l2Changing = some [(1, 3)]) := by
  unfold NoQueues Sys2Proof.Claims.Disjoint; decide +kernel

theorem witness_MemorySystemEvents_2 :
    (base.localPa 0x400 % 2 ^ 16 + 64 ≤ 2 ^ 16 ∧ base.localPa 0x400 / 2 ^ 16 = 0 ∧ base.checker.bootFailed = false ∧
      base.waitOf (.mem (base.localPa 0x400)) = none ∧ base.isStaging 0 = false ∧ base.msys.domOnly.get false 0 = false ∧
      base.msys.classes.get 0 0 = 0 ∧ base.jfull = false) ∧
    (let s : State := { base with msys := { base.msys with domOnly := [(0, true)] } }
     s.isStaging 0 = false ∧ s.msys.domOnly.get false 0 = true) ∧
    (let s : State := { base with msys := { base.msys with classes := [(0, 8)] } }
     s.isStaging 0 = false ∧ s.msys.domOnly.get false 0 = false ∧ s.msys.classes.get 0 0 ≠ 0) ∧
    (staged.localPa 0x90000 / 2 ^ 16 = 9 ∧ staged.isStaging 9 = true ∧ ∀ v ∈ (staged.pageOf 9).versions, v.st ≠ .released) ∧
    (let v : Version := { num := 1, st := .released, lid := 7, epoch := 1 }
     let s : State := { staged with stage := [(9, { largest := 1, versions := [v] })] }
     s.isStaging 9 = true ∧ (s.pageOf 9).versions.reverse.find? (fun v => v.st == .released) = some v ∧ v.cls = 0) ∧
    (partMoves base (localParts base 0x400 3) = false ∧ ∀ k ∈ [0, 1, 2], base.checkerFrame (base.localPa 0x400 + k) = false) ∧
    (let s : State := { base with front := { base.front with jlogn := 14, everMapped := true, jbase := 0x100000 } }
     partMoves s (localParts s 0x100010 3) = false ∧ ∀ k ∈ [0, 1, 2], s.checkerFrame (s.localPa 0x100010 + k) = true) ∧
    (let m : Migration := { page := 0, size := 0x10000, target := 0x40000, ptes := [0x60000], drained := true }
     let s : State := { base with msys := { base.msys with migrations := [m] } }
     (s.waitOf (.mem (s.localPa 0x400))).isSome = true ∧ partMoves s (localParts s 0x400 3) = true) := by
  decide +kernel

/-- A checked launch whose wave has arrived at its first seal point. -/
def sealing : State := recWord 15 3 (onWave (fun w => { w with sealCount := 1 }) (onThreads (fun x => { x with park := .seal 1 }) mapped))
def sortRec (mal : Bool) : WRec := sealRec {
  cls := 3, count := 10, mal := mal, lid := 1, team := 0, widx := 0, seq := 0, epoch := 1
  body := [0x8000, 0, 0x8100, 0, 0x8200, 0, 0x8300, 0, 2, 1] }
def epoch1 (rs : List WRec) (n : Nat) (poison : Bool) : Epoch := { num := 1, records := rs, count := n, poison := poison, werr := false }
def sealed (e : Epoch) : State := onLaunch (fun l => { l with sealPoints := 1, epochs := [e] }) sealing

theorem witness_CheckerSteps_1 :
    let l := sealing.la 1
    l.st = .running ∧ l.nextTeam = l.numTeams ∧ l.isChecked = true ∧ l.paired = false ∧ sealing.teamsOf 1 ≠ [] ∧ launchWids sealing 1 = [32] ∧
    l.sealPoints < (sealing.wv 32).sealCount ∧ launchBusy sealing 1 = false ∧ l.replayTo ≤ l.sealPoints + 1 ∧
    countVersions sealing (fun v => v.st == .sealed) + countVersions sealing (fun v => v.lid == 1 && v.st == .writing) ≤ 2 ^ 20 ∧
    (base.wv 32).sealCount ≤ (base.la 1).sealPoints ∧
    (sealing.wv 32).openRec = none ∧ (∃ x ∈ tidsOf 32, (sealing.th x).live = true ∧ (sealing.th x).park = .seal 1) ∧
    (let s := onLaunch (fun l => { l with replayTo := 3 }) sealing
     (s.la 1).sealPoints + 1 < (s.la 1).replayTo ∧ launchWids s 1 = [32] ∧ (s.la 1).st = .running ∧ launchBusy s 1 = false) := by decide +kernel

theorem witness_CheckerSteps_2 :
    testRec (sealed (epoch1 [sortRec false] 1 false)) 1 (epoch1 [sortRec false] 1 false) (sortRec false) = .fail ∧
    testRec (sealed (epoch1 [sortRec true] 1 false)) 1 (epoch1 [sortRec true] 1 false) (sortRec true) = .malformed ∧
    ({ sortRec false with crc := (sortRec false).crc + 1 } : WRec).crc ≠ recCrc { sortRec false with crc := (sortRec false).crc + 1 } ∧
    (epoch1 [] 1 false).count ≠ (epoch1 [] 1 false).records.length ∧ (epoch1 [] 0 true).count = (epoch1 [] 0 true).records.length := by
  decide +kernel

theorem witness_CheckerSteps_3 :
    (let s := sealed (epoch1 [] 0 false)
     epochOf s 1 1 = some (epoch1 [] 0 false) ∧ (verdictOf s 1 (epoch1 [] 0 false)).result = 0 ∧ s.jfull = false) ∧
    (let s := sealed (epoch1 [] 0 true)
     epochOf s 1 1 = some (epoch1 [] 0 true) ∧ (verdictOf s 1 (epoch1 [] 0 true)).result ≠ 0 ∧ (verdictOf s 1 (epoch1 [] 0 true)).team = none ∧
       (epoch1 [] 0 true).verdict = none ∧ s.jfull = false ∧ (∀ r ∈ (epoch1 [] 0 true).records, altered s 1 (epoch1 [] 0 true) r = false) ∧
       (failuresOf (s.la 1) 1).length < 3 ∧
       3 ≤ (failuresOf ((onLaunch (fun l => { l with failures := [(1, 0, 1), (1, 0, 1), (1, 0, 1)] }) s).la 1) 1).length ∧
       ∀ x ∈ s.launches, x.2.edges = []) ∧
    (let s := onLaunch (fun l => { l with epochs := [{ epoch1 [] 0 false with verdict := some true }] })
       { base with stage := [(9, { largest := 2, versions := [{ num := 1, st := .checked, lid := 7, epoch := 1 }, { num := 2, st := .sealed, lid := 1, epoch := 1 }] })] }
     ((s.pageOf 9).versions.find? (fun v => v.num == 2 && v.st == .sealed)).map Version.lid = some 1 ∧ passedTo (s.la 1) 1 = true ∧
       (s.la 1).edges = []) := by decide +kernel

theorem witness_CheckerSteps_4 :
    (let s := (onLaunch (fun l => { l with st := .discarded, behind := some (2, 1) }) base).modLaunch 2 (fun l => { l with st := .running, run := 1 })
     (s.la 1).st = .discarded ∧ (s.la 1).behind = some (2, 1) ∧ 1 ≤ (s.la 2).run ∧ (s.la 2).st = .running) ∧
    (let s := onLaunch (fun l => { l with st := .discarded, behind := some (1, 1), run := 1 }) base
     (s.la 1).st = .discarded ∧ (s.la 1).behind = some (1, 1) ∧ 1 ≤ (s.la 1).run) ∧
    (let r : RelReq := { id := 1, pages := [], done := 3, vres := some (0, 4) }
     let s : State := { base with checker := { base.checker with releases := [r] } }
     s.checker.releases.find? (fun r => r.id == 1) = some r) ∧
    (∀ st ∈ [VState.checked, .released, .sealed, .writing], ∀ n ∈ [none, some (7, 1)],
      let r : RelReq := { id := 1, pages := [9, 10], reached := n }
      let s : State := { base with
        checker := { base.checker with releases := [r] }
        stage := [(9, { largest := 1, versions := [{ num := 1, st := st, lid := 7, epoch := 1 }] })] }
      s.checker.releases.find? (fun r => r.id == 1) = some r ∧ (n = none ∨ n = some (7, 1)) ∧
      ((s.pageOf 9).versions.reverse.find? (fun v => v.st != .failed)).map (fun v => (v.st, v.num)) = some (st, 1) ∧ (s.la 7).st ≠ .aborted ∧
      ((s.modLaunch 7 (fun l => { l with st := .aborted })).la 7).st = .aborted) ∧
    (let r : RelReq := { id := 1, pages := [9, 10], reached := some (7, 2) }
     let s : State := { base with
       checker := { base.checker with releases := [r] }
       stage := [(9, { largest := 2, versions := [{ num := 1, st := .checked, lid := 7, epoch := 1 }, { num := 2, st := .failed, lid := 7, epoch := 1 }] })] }
     s.checker.releases.find? (fun r => r.id == 1) = some r ∧ (∀ v ∈ (s.pageOf 9).versions, v.st = .failed ∨ v.num < 2) ∧ (s.la 7).st ≠ .aborted ∧
       ((s.modLaunch 7 (fun l => { l with st := .aborted })).la 7).st = .aborted) := by decide +kernel

/-- Queue 1, mapped on slot 0, with one command in its ring at 0xA000: the words given, the others 0. -/
def queued (ws : List Nat) : State := { mapped with
  mem := putMem (putMem tables 0x8040 (leBytes 64 (2 ^ 160 + 4 * 2 ^ 113 + 0xA000))) 0xA000 (ws.flatMap (leBytes 4))
  front := { mapped.front with qtbase := 0x8000, qtn := 4, everMapped := true, slots := [(0, { queue := 1 })], feataccLo := 0x3FF } }
def starts (s : State) (k : Nat) : Bool :=
  (AMap.find? s.front.slots 0).any (fun x => x.queue == 1) && dWidx (desc s 1) != dRidx (desc s 1) && decide (s.front.events.length < 256) &&
  (liveCmds s 1).isEmpty && cCmd (ringCmd s 1) == k && (formReject (ringCmd s 1)).isNone

theorem witness_QueueCommands_1 :
    starts (queued [7]) 7 = true ∧
    (let s := { queued [7] with mem := tables }
     (AMap.find? s.front.slots 0).isSome = true ∧ dWidx (desc s 1) = dRidx (desc s 1)) ∧
    (let s := queued [0x107]
     NextCmd s 0 1 ∧ (formReject (ringCmd s 1)).isSome = true) := by
  refine ⟨by decide +kernel, by decide +kernel, ⟨⟨_, rfl, rfl⟩, by decide +kernel⟩, by decide +kernel⟩

/-- A ring of 64 events at 0x10000; no event waits. -/
theorem witness_QueueCommands_2 :
    let s := { queued [0x40007] with front := { (queued [0x40007]).front with eqbase := 0x10000, eqk := 6 } }
    s.front.events = [] ∧ (∀ e ∈ s.dies, e.2.events = []) ∧ s.ringOk = true ∧ s.ringUsed < 2 ^ s.front.eqk - 1 ∧ cEvt (ringCmd s 1) = true ∧
    (ringCmd s 1).tenant < 256 ∧ AMap.sorted s.front.slots = true ∧ cEvt (ringCmd (queued [7]) 1) = false := by decide +kernel

/-- A place of a command in local memory that no migration holds. -/
def plainPlace (s : State) (x : Except Machine.Reject Place) (a : Nat) : Bool :=
  match x with
  | .ok p => p.loc == .mem a && !(isFar s (.mem a)) && (s.waitOf (.mem a)).isNone
  | .error _ => false

theorem witness_QueueCommands_3 :
    (let s := queued [6, 0x9000, 0, 5]
     starts s 6 = true ∧ plainPlace (taken s 1) (objectPlaceQ (taken s 1) (ringCmd s 1) 1 (cAddr (ringCmd s 1) 1)) 0x9000 = true ∧
       cEvt (ringCmd s 1) = false) ∧
    (let s := queued [6, 0, 4]
     starts s 6 = true ∧ isOk (objectPlaceQ (taken s 1) (ringCmd s 1) 1 (cAddr (ringCmd s 1) 1)) = false) ∧
    (let s := queued [2, 0x9000, 0, 5, 0, 0xFF, 0, 4]
     (match readPlace (taken s 1) (ringCmd s 1) (cAddr (ringCmd s 1) 1) with | .ok p => decide (p.ord ≠ 2) | .error _ => false) = true) ∧
    (∀ k ∈ [0, 1, 2, 3, 4], let s := queued [2, 0x9000, 0, 5, 0, 0xFF, 0, k]
     starts s 2 = true ∧ cWord (ringCmd s 1) 7 = k ∧ plainPlace (taken s 1) (readPlace (taken s 1) (ringCmd s 1) (cAddr (ringCmd s 1) 1)) 0x9000 = true) ∧
    (let s := queued [2, 0x9000, 0, 0, 0, 0, 0, 5]
     starts s 2 = true ∧ 5 ≤ cWord (ringCmd s 1) 7) ∧
    (let c := ringCmd (queued [2, 0x9000, 0, 5, 0, 0xFF, 0, 2]) 1
     let s := { mapped with front := { mapped.front with slots := [(0, { queue := 1, cmds := [c] })] } }
     (AMap.find? s.front.slots 0).map Slot.cmds = some [c] ∧ plainPlace s (readPlace s c (cAddr c 1)) 0x9000 = true) := by decide +kernel

theorem witness_QueueCommands_4 :
    let s := queued [5, 0xC0000000, 0, 0x100, 0x9000, 0]
    starts s 5 = true ∧ bitAt s.front.feataccLo 6 = true ∧
    (match rangePlaces (readPlace (taken s 1) (ringCmd s 1)) (cAddr (ringCmd s 1) 1) (cWord (ringCmd s 1) 3) with
      | .ok [x] => x.2.2.loc == .stg 9 0 | _ => false) = true ∧
    isOk (bytePlaces (taken s 1) (ringCmd s 1) 4 (cAddr (ringCmd s 1) 4) 4) = true ∧ (s.pageOf 9).versions = [] ∧
    bitAt ({ s with front := { s.front with feataccLo := 0 } } : State).front.feataccLo 6 = false := by decide +kernel

theorem witness_SignalsAndCopies_1 :
    (let s := queued [3, 0x9000, 0, 7, 0, 3]
     starts s 3 = true ∧ cWord (ringCmd s 1) 5 = 3) ∧
    (∀ op ∈ [0, 1], let s := queued [3, 0x9004, 0, 7, 0, op]
     starts s 3 = true ∧ apertureOff (taken s 1) (ringCmd s 1) = none ∧ cEvt (ringCmd s 1) = false ∧ cWord (ringCmd s 1) 5 = op ∧
       (match sigBytes (taken s 1) (ringCmd s 1) with | .ok ls => ls == (List.range 8).map (fun k => .mem (0x9004 + k)) | .error _ => false) = true ∧
       ∀ k ∈ List.range 8, isFar (taken s 1) (.mem (0x9004 + k)) = false ∧ (taken s 1).waitOf (.mem (0x9004 + k)) = none) ∧
    (let s := queued [3, 0x9000, 0, 7, 0, 2]
     starts s 3 = true ∧ plainPlace (taken s 1) (objectPlaceQ (taken s 1) (ringCmd s 1) 1 (cAddr (ringCmd s 1) 1)) 0x9000 = true) ∧
    (let s := queued [3, 0x40000078, 0, 7, 0, 0]
     starts s 3 = true ∧ apertureOff (taken s 1) (ringCmd s 1) = some 0x78) ∧
    (∀ v ∈ [0, 3, 256], let s := queued [3, 0x40002000, 0, v, 0, 0]
     starts s 3 = true ∧ apertureOff (taken s 1) (ringCmd s 1) = some 0x2000 ∧ (cVal (ringCmd s 1) 3).toNat = v ∧ AMap.sorted s.launches = true) := by
  decide +kernel

theorem witness_SignalsAndCopies_2 :
    (let s := queued [4, 0x9000, 0, 0x9800, 0, 64]
     starts s 4 = true ∧ cAddr (ringCmd s 1) 6 = 0 ∧ cEvt (ringCmd s 1) = false ∧ egressOf s 1 (ringCmd s 1).idx = none ∧
       (match copyPlaces (taken s 1) (ringCmd s 1) with
         | .ok ([x], [y], none) => x.1 == 0x9000 && x.2.1 == 64 && x.2.2.loc == .mem 0x9000 && y.1 == 0x9800 && y.2.1 == 64 && y.2.2.loc == .mem 0x9800
         | _ => false) = true ∧
       (∀ a ∈ [0x9000, 0x9800], isFar (taken s 1) (.mem a) = false ∧ (taken s 1).waitOf (.mem a) = none) ∧ leavesDomain (taken s 1) (.mem 0x9800) = false) ∧
    (let t := queued [4, 0x9000, 0, 0x80000000, 0, 64]
     let s : State := { t with msys := { t.msys with domOnly := [(0, true)] } }
     starts s 4 = true ∧ (taken s 1).jfull = false ∧ egressOf s 1 (ringCmd s 1).idx = none ∧
       (match copyPlaces (taken s 1) (ringCmd s 1) with
         | .ok (src, dst, _) => dst.any (fun p => leavesDomain (taken s 1) p.2.2.loc) && unreleased (taken s 1) src == some 0x9000
         | .error _ => false) = true) := by decide +kernel

/-- A transfer of 64 bytes of class 3 whose bucket holds 8. -/
theorem witness_SignalsAndCopies_3 :
    let t := queued [4, 0x9000, 0, 0x80000000, 0, 64]
    let c := ringCmd t 1
    let s : State := { t with
      msys := { t.msys with classes := [(0, 8)] }
      checker := { t.checker with
        egress := [{ id := 1, queue := 1, idx := 0, mask := 8 }]
        regions := [(3, { st := 2, burst := 8, level := 8 * 10 ^ 9, stalled := true })] }
      front := { t.front with slots := [(0, { queue := 1, cmds := [c] })] } }
    s.checker.egress.find? (fun e => e.id == 1) = some { id := 1, queue := 1, idx := 0, mask := 8 } ∧
    (qcmds s 1).find? (fun c => c.idx == 0) = some c ∧ s.msys.classes.get 0 0 = 8 ∧ classesOf 8 = [3] ∧ roomFor s 8 64 = 8 ∧ s.jfull = false ∧
    (regionOf s 3).stalled = true ∧ egressOf s 1 c.idx = some { id := 1, queue := 1, idx := 0, mask := 8 } ∧
    s.msys.domOnly.get false 0 = false ∧
    (match copyPlaces s c with
      | .ok ([x], [y], none) => x.2.1 == 64 && x.2.2.loc == .mem 0x9000 && y.2.1 == 64 && y.2.2.loc == .mem 0xF000000000 && leavesDomain s y.2.2.loc
      | _ => false) = true ∧ c.copied = 0 ∧
    (let r : State := { s with checker := { s.checker with egress := [] }, time := 100000 }
     (regionOf r 3).stalled = true ∧ (regionOf r 3).lastWait + 100000 ≤ r.time) := by decide +kernel

/-- A record of one team of one wave, at 0x9000. -/
def goodRecord (regs : Nat) (size args : Nat := 0) : List Nat :=
  [0x100, 0, 0x200, 0, 0x10001, 0x10001, regs, size, args, 0, 0, 0, 512, 256] ++ List.replicate 19 0 ++ [0x10000, 0, 0, 1, 0]
def launching (ws : List Nat) : State :=
  let s := queued [1, 0x9000, 0]
  { s with mem := putMem s.mem 0x9000 (ws.flatMap (leBytes 4)) }
def recordAt (s : State) : List Byte := (List.range 256).map (fun k => (taken s 1).byteAt (0x9000 + k))
theorem witness_LaunchLifecycle_1 :
    (let s := launching (goodRecord 8)
     starts s 1 = true ∧ plainPlace (taken s 1) (readPlace (taken s 1) (ringCmd s 1) (cAddr (ringCmd s 1) 1)) 0x9000 = true ∧
       (match launchCheck (taken s 1) (ringCmd s 1) (recordAt s) with | .ok l => l.cap == 0 && tagsNeeded l == 0 && l.argSize == 0 | .error _ => false) = true ∧
       injectWaits s = false ∧ s.front.routeWait = []) ∧
    (let s := launching (goodRecord 8 16 0x9800)
     starts s 1 = true ∧ (match launchCheck (taken s 1) (ringCmd s 1) (recordAt s) with
       | .ok l => l.cap == 0 && tagsNeeded l == 0 && l.argSize == 16 && l.argAddr == 0x9800 | .error _ => false) = true ∧
       plainCause 0x9800 = none ∧ s.offVault 0x9800 (.mem 0x9800) = false) ∧
    (let s := launching (goodRecord 12)
     (match launchCheck (taken s 1) (ringCmd s 1) (recordAt s) with | .ok _ => false | .error r => r.cause == 0x83 && r.cause != 0x85) = true ∧
       (let l := launchOfBytes (taken s 1) (ringCmd s 1) (recordAt s)
        recWordBad (taken s 1) 0 l 3 = true ∧ ∀ j ∈ [0, 1, 2], recWordBad (taken s 1) 0 l j = false)) := by decide +kernel

theorem witness_LaunchLifecycle_2 :
    (let s := (recWord 22 64 (onLaunch (fun l => { l with st := .waiting }) base))
     let s : State := { s with front := { s.front with routeWait := [1] } }
     (s.la 1).st = .waiting ∧ tagsNeeded (s.la 1) = 1 ∧ tagsNeeded (s.la 1) ≤ s.front.routeFree ∧
       ({ s with front := { s.front with routeFree := 0 } } : State).front.routeFree < 1) ∧
    (let s := recWord 3 (16 * 2 ^ 32 + 256) (recWord 4 0x9000 (onLaunch (fun l => { l with argsDone := false }) mapped))
     let l := s.la 1
     l.st = .running ∧ l.run ≠ 0 ∧ l.argsDone = false ∧ l.argBuf = [] ∧ 0 < l.argSize ∧ l.argAddr % 2 ^ 16 + l.argSize ≤ 2 ^ 16 ∧
       (match s.translate Config.numCores 1 l.argAddr .read with | .ok p => p.loc == .mem 0x9000 | .error _ => false) = true ∧
       isFar s (.mem 0x9000) = false ∧ s.waitOf (.mem 0x9000) = none ∧ plainCause l.argAddr = none ∧ s.offVault l.argAddr (.mem 0x9000) = false ∧
       (plainCause 0xFFF0000000000).isSome = true ∧ plainCause 0x4000009000 = none ∧
       isOk ((recWord 4 0x4000009000 s).translate Config.numCores 1 0x4000009000 .read) = false) := by decide +kernel

/-- A launch whose one team has not started; the first thread of the placed program belongs to another tag. -/
def unplaced : State := recWord 18 1 (onLaunch (fun l => { l with nextTeam := 0 }) base)
theorem witness_LaunchLifecycle_3 :
    let s := unplaced
    let l := s.la 1
    let tag := freeTag s (2 ^ 16) s.front.nextTag
    l.st = .running ∧ mayPlace s l = true ∧ l.argsDone = true ∧ l.nextTeam < l.numTeams ∧ oldCommands s 1 = false ∧ stoppedTeams s l.queue = [] ∧
    (s.threads.all (fun e => match e.2.park with | .firmware _ => false | _ => true)) = true ∧ l.paired = false ∧ l.argsFault = none ∧
    l.argsPoison = false ∧ 1 ≤ l.numWaves ∧ l.numWaves ≤ 32 ∧ 8 ≤ l.regs ∧ (coreFor s 1 tag l.nextTeam (fun _ => true)).isSome = true ∧
    (∀ e ∈ s.threads, tagOf e.1 ≠ tag) ∧ (∀ e ∈ s.waves, tagW e.1 ≠ tag) := by decide +kernel

/-- A launch whose last seal point has passed: its command is in flight. -/
def ending : State :=
  let c := ringCmd (queued [1, 0x9000, 0]) 1
  onLaunch (fun l => { l with st := .ending, queue := 1 }) { mapped with
    front := { mapped.front with slots := [(0, { queue := 1, cmds := [{ c with lid := 1 }] })] } }
theorem witness_LaunchLifecycle_4 :
    let ends (s : State) : Bool := (s.la 1).st == .ending && (s.la 1).edges.isEmpty && !launchBusy s 1 && decide ((s.la 1).cap = 0) &&
      (launchCmd s 1).any (fun c => !cEvt c) && s.checker.regions.isEmpty
    (ends ending = true ∧ (ending.la 1).sigAddr = 0 ∧ AMap.sorted ending.front.slots = true) ∧
    (let s := onLaunch (fun l => { l with sigAddr := 0x9000 }) ending
     ends s = true ∧ (s.la 1).sigAddr ≠ 0 ∧
       (launchCmd s 1).any (fun c => match bytePlaces s c 3 (s.la 1).sigAddr 8 with
         | .ok ls => ls == (List.range 8).map (fun k => .mem (0x9000 + k)) | .error _ => false) = true ∧
       ∀ k ∈ List.range 8, isFar s (.mem (0x9000 + k)) = false ∧ s.waitOf (.mem (0x9000 + k)) = none) ∧
    ends base = false := by decide +kernel

/-- After reset and boot, before any launch: rings set, four queues whose descriptors are at 0x8000, with the given one as queue 1. -/
def host (d : Nat) : State := { State.reset with
  mem := putMem [] 0x8040 (leBytes 64 d)
  checker := { State.reset.checker with booted := true }
  front := { State.reset.front with
    qtbase := 0x8000, qtn := 4, everMapped := true, featNew := false, jlogn := 14, frlogn := 10, eqbase := 0x10000, eqk := 6, jbase := 0x100000, jckbase := 0x80000
    pending := [(1, true)] } }
/-- A descriptor: a ring of 16 entries at 0xA000 with one command. -/
def good : Nat := 2 ^ 160 + 4 * 2 ^ 113 + 0xA000

theorem witness_HostEvents_1 :
    hasQueue (host good) 4 = false ∧ hasQueue (host good) 1 = true ∧ scanPick (host good) = some 1 ∧
    (∀ d ∈ [good, 2 ^ 160 + 0xA000], let s := host d
     mayMap s = true ∧ s.front.featNew = false ∧ s.front.everMapped = true ∧ s.checker.jwait = [] ∧ s.checker.fwait = [] ∧ s.teams = [] ∧
       scanPick s = some 1 ∧ AMap.find? s.front.slots 0 = none) ∧
    dBad (desc (host good) 1) = false ∧ dBad (desc (host (2 ^ 160 + 0xA000)) 1) = true ∧ mayMap base = false := by decide +kernel

theorem witness_HostEvents_2 :
    let on (d e : Nat) : State := { host d with front := { (host d).front with slots := [(0, { queue := 1, sliceEnd := e })] } }
    AMap.find? (on good 1).front.slots 0 = some { queue := 1, sliceEnd := 1 } ∧ (on good 1).time < 1 ∧
    (let s := on (4 * 2 ^ 113 + 0xA000) 0
     AMap.find? s.front.slots 0 = some { queue := 1, sliceEnd := 0 } ∧ 0 ≤ s.time ∧ dWidx (desc s 1) = dRidx (desc s 1) ∧ liveCmds s 1 = [] ∧
       s.teams = [] ∧ AMap.sorted s.front.slots = true ∧ ∀ e ∈ s.front.slots, e.2.queue = 1 → e.1 = 0) ∧
    (let s := on good 0
     AMap.find? s.front.slots 0 = some { queue := 1, sliceEnd := 0 } ∧ dWidx (desc s 1) ≠ dRidx (desc s 1) ∧ (candidates s = [] ∨ s.front.slots.length < 64)) := by decide +kernel

theorem witness_HostEvents_3 :
    (NoEvents (host good) ∧ NoStops (host good) ∧ (host good).recordFull = false ∧
      ((onThreads (fun x => { x with park := .ring }) base).th 1024).park = .ring) ∧
    (let h := host good
     let s : State := { h with front := { h.front with frbase := 0x200000 }, checker := { h.checker with frwidx := 2 ^ 10 } }
     s.recordFull = true ∧ NoEvents s ∧ NoStops s) ∧
    (let e : Nat × List Word := (1, List.replicate 16 7)
     let s := { host good with front := { (host good).front with events := [e] } }
     s.front.events = [e] ∧ (∀ e ∈ s.dies, e.2.events = []) ∧ NoStops s ∧ s.ringOk = true ∧ (s.front.eqtail - 0).toNat < 2 ^ s.front.eqk - 1 ∧
       e.2.length = 16) ∧
    (host good).front.slots = [] ∧ (queued [7]).front.slots ≠ [] ∧
    ringReg 0x058 5 = some 5 ∧ powerReg 0x108 0x2FF = some 0x1F ∧ ringReg 0x200 5 = none ∧ powerReg 0x200 5 = none ∧
    (State.reset).front.everMapped = false ∧ 0x058 % 8 = 0 ∧ ¬ (0x010 ≤ 0x058 ∧ 0x058 < 0x020) := by
  unfold NoEvents NoStops; decide +kernel

theorem witness_HostEvents_4 :
    (let s := host good
     let c := s.checker
     c.jrseq ≤ 0 ∧ 0 ≤ c.jwseq ∧ c.jwait = [] ∧ c.jwseq < 1 ∧ c.frridx ≤ 0 ∧ 0 ≤ c.frwidx ∧ c.fwait = [] ∧ c.frwidx < 1 ∧
       NothingDue s ∧ NoEvents s ∧ NoStops s ∧ ∀ x ∈ s.threads, x.2.park ≠ .ring) ∧
    (let s := { host good with checker := { (host good).checker with jwait := [{ kind := 4, tenant := 0, time := 0, fields := [] }] } }
     s.checker.jwait = [{ kind := 4, tenant := 0, time := 0, fields := [] }] ∧ s.checker.ckptDue = 0 ∧ NothingDue s ∧ s.jringOk = true ∧
       s.checker.jwseq - 0 < 2 ^ s.front.jlogn) ∧
    (let s := { host good with checker := { (host good).checker with ckptDue := 1 } }
     let c := s.checker
     let slot := s.localPa (s.front.jckbase + 8192 * (c.checkpoints % 16))
     0 < c.ckptDue ∧ s.jringOk = true ∧ s.jfull = false ∧ c.jwait = [] ∧
       Sys2Proof.Claims.Disjoint slot 8192 (s.localPa (s.front.jbase + 64 * (c.jwseq % 2 ^ s.front.jlogn))) 64) ∧
    (host good).checker.ckptDue = 0 := by
  unfold Sys2Proof.Claims.Disjoint NothingDue NoEvents NoStops; decide +kernel

def jfullS (s : State) : State := { s with front := { s.front with jlogn := 14, everMapped := true }, checker := { s.checker with jwseq := 2 ^ 14 } }
def bootObj (k : Nat) (ok : Bool) : BootObject := { slot := k, digest := 7, version := Config.minVersion k, verified := ok }
def importReq : ImportReq :=
  { region := 3, pages := 2, rate := 1, burst := 1, ownerKeyHash := 0, frames := [0x40, 0x41], kem := List.replicate 1568 0, signer := some 0 }

/-- Objects in the order of Table 16.1, each at the fused version of its slot, pass. -/
theorem passes_inOrder (ks : List Nat) (h : ks = ([0, 1, 2] ++ List.replicate 16 3).take ks.length) :
    Passes (ks.map (fun k => bootObj k true)) := by
  refine ⟨by simpa [List.map_map, Function.comp_def, bootObj] using h, fun o ho => ?_⟩
  obtain ⟨k, -, rfl⟩ := List.mem_map.1 ho
  exact ⟨rfl, Nat.le_refl _⟩

theorem witness_TrustEvents_1 :
    base.jfull = false ∧ (jfullS base).jfull = true ∧
    (State.reset.checker.booted = false ∧ State.reset.checker.bootFailed = false ∧ (host good).checker.booted = true) ∧
    (∃ objs, Passes objs ∧ objs.length = 19) ∧
    (Passes [] ∧ ¬ Passes ([] ++ [bootObj 1 true])) ∧
    (∃ objs, Passes objs ∧ objs.length = 2 ∧ ¬ Passes (objs ++ [bootObj 2 false])) ∧
    (Serving (host good) ∧ importReq.signer = some importReq.ownerKeyHash ∧ 1 ≤ importReq.region ∧ importReq.region ≤ 255 ∧
      (regionOf (host good) 3).st = 0 ∧ importReq.pages ≠ 0 ∧ importReq.frames.length = importReq.pages ∧ importReq.kem.length = 1568) ∧
    ¬ Serving State.reset := by
  refine ⟨by decide +kernel, by decide +kernel, by decide +kernel, ⟨_, passes_inOrder ([0, 1, 2] ++ List.replicate 16 3) rfl, rfl⟩,
    ⟨passes_inOrder [] rfl, fun h => absurd h.1 (by decide)⟩,
    ⟨_, passes_inOrder [0, 1] rfl, rfl, fun h => absurd (h.2 (bootObj 2 false) (by simp)).1 (by decide)⟩,
    by unfold Serving; decide +kernel, by unfold Serving; decide +kernel⟩

theorem witness_TrustEvents_2 :
    let s := { host good with checker := { (host good).checker with session := true } }
    let f := { State.reset with checker := { State.reset.checker with bootFailed := true } }
    [Instr.getVersion, .getCapabilities, .negotiateAlgorithms, .getDigests, .getCertificate 0, .challenge ⟨0, 7⟩, .getMeasurements 0, .getMeasurements 1,
      .getMeasurements 255, .keyExchange ⟨0, 7⟩, .finish].all (fun i => (spdmForm s i).any (fun x => x.2.1)) = true ∧
    [Instr.getCertificate 1, .challenge ⟨1, 7⟩, .getMeasurements 9, .keyExchange ⟨1, 7⟩, .finish].all
      (fun i => (spdmForm (host good) i).any (fun x => !x.2.1)) = true ∧ s.checker.booted = true ∧
    [Instr.getVersion, .getCapabilities].all (fun i => (spdmForm f i).any (fun x => x.1 && x.2.1)) = true ∧
    [Instr.getDigests, .negotiateAlgorithms].all (fun i => (spdmForm f i).any (fun x => !x.1)) = true ∧
    f.checker.booted = false ∧ f.checker.bootFailed = true := by
  refine ⟨rfl, rfl, rfl, rfl, rfl, rfl, rfl⟩

/-- Region 3, of two frames: in a state, after so many chunks. -/
def importing (n st : Nat) : State :=
  { host good with checker := { (host good).checker with regions := [(3, { st := st, size := 2, chunks := n, frames := [0x40, 0x41] })] } }
theorem witness_TrustEvents_3 :
    let a := (importing 0 1).localPa (0x50 * 2 ^ 16)
    (∀ n ∈ [0, 1], Serving (importing n 1) ∧ (regionOf (importing n 1) 3).st = 1 ∧ (importing n 1).waitOf (.mem a) = none) ∧
    (∀ k n c tag, Config.gcmOpen k n c tag = none ∨ ∃ p, Config.gcmOpen k n c tag = some p) ∧
    ((regionOf (importing 0 1) 3).chunks + 1 < (regionOf (importing 0 1) 3).size ∧ Sys2Proof.Claims.Disjoint (0x40 * 2 ^ 16) (2 ^ 16) a (2 ^ 16) ∧
      (regionOf (importing 0 1) 3).frames.getD 0 0 = 0x40) ∧
    (regionOf (importing 1 1) 3).size ≤ (regionOf (importing 1 1) 3).chunks + 1 ∧
    (∀ st ∈ [1, 2], Serving (importing 0 st) ∧ some (0 : BitVec 512) = some (regionOf (importing 0 st) 3).owner ∧ (regionOf (importing 0 st) 3).st = st) ∧
    (Serving (importing 0 3) ∧ (regionOf (importing 0 3) 3).st = 3) ∧
    (let c : BitVec 512 := 3 <<< 192
     namedIn c = [3] ∧ (regionOf (importing 0 1) 3).owner ∈ [(0 : BitVec 512)] ∧ namedIn 0 = []) := by
  refine ⟨by unfold Serving; decide +kernel, fun _ _ _ _ => Option.eq_none_or_eq_some _, by unfold Sys2Proof.Claims.Disjoint; decide +kernel,
    by decide +kernel, by unfold Serving; decide +kernel, by unfold Serving; decide +kernel, by decide +kernel⟩

theorem witness_TrustEvents_4 :
    (let s := host good
     s.jfull = false ∧ s.checker.booted = true ∧ 5 ≠ s.pkg ∧ 5 < 3072 ∧ (peerOf s 5).mark ≠ .member ∧ s.checker.ms.take 4 = s.checker.ms.take 4) ∧
    (let s := { host good with checker := { (host good).checker with oldKey := some 0 }, time := 1000000 }
     s.checker.keySince + 1000000 ≤ s.time ∧ s.checker.oldKey ≠ none) ∧
    (host good).checker.oldKey = none ∧ (peerOf (withPeer .member (host good)) 5).mark = .member ∧ (withPeer .member (host good)).jfull = false ∧
    (host good).pkg = 0 := by decide +kernel

def group (b : FlitBody) (ok : Bool) : FlitGroup := { sender := 5, port := 0, counter := 1, key := 0, tagOk := ok, body := b }
def lowB (s : State) (g : FlitGroup) : Bool := groupOk s g && decide (g.counter + 4 < 2 ^ 78) &&
  s.checker.peers.all (fun e => (e.2.inCtr ++ e.2.outCtr).all (fun c => decide (c.2 + 4 < 2 ^ 78))) && decide (g.sender.toNat ≠ s.pkg) &&
  decide ((peerOf s g.sender.toNat).mark ≠ .absent)
theorem witness_TrustEvents_5 :
    (∀ m ∈ [DomMark.member, .outside], let s := withPeer m base
     (∀ b ∈ [FlitBody.write 0x9000 [1, 2, 3] false, .read 0x9000 32, .atom 0x9000 false 0 4 [5]],
       lowB s (group b true) = true ∧ groupOk s (group b false) = false) ∧
     s.isStaging (s.localPa 0x9000 / 2 ^ 16) = false ∧ linkOpen s (s.localPa 0x9000) = true ∧ s.localPa 0x9000 / 2 ^ 40 = s.pkg ∧ s.localPa 0x9000 % 2 ^ 16 + 32 ≤ 2 ^ 16 ∧
     s.waitOf (.mem (s.localPa 0x9000)) = none ∧ s.msys.domOnly.get false (s.localPa 0x9000 / 2 ^ 16) = false ∧
     s.msys.classes.get 0 (s.localPa 0x9000 / 2 ^ 16) = 0 ∧ s.jfull = false ∧ inHostWindow (s.localPa 0x9000) = false ∧
     (∀ b ∈ [FlitBody.credit 0x9000 8, .write 0xF000009000 [1, 2, 3] false], lowB s (group b true) = true) ∧ s.localPa 0x9000 % 64 = 0 ∧
     inHostWindow (s.localPa 0xF000009000) = true ∧ linkOpen s (s.localPa 0xF000009000) = false ∧
     s.waitOf (.mem (s.localPa 0xF000009000)) = none) ∧
    (let s := withPeer .outside { base with
       msys := { base.msys with classes := [(0, 8)] }
       checker := { base.checker with regions := [(3, { st := 2, burst := 64, level := 64 * 10 ^ 9 })] } }
     s.msys.classes.get 0 0 = 8 ∧ s.msys.domOnly.get false 0 = false ∧ s.jfull = false ∧ 32 ≤ roomFor s 8 32) ∧
    (let s := { withPeer .outside base with stage := [(0, { largest := 1, versions := [{ num := 1, st := .checked, lid := 7, epoch := 1 }] })] }
     s.isStaging 0 = true ∧ releasedVersion s 0 = none ∧ s.jfull = false) ∧
    (({ base with msys := { base.msys with domOnly := [(0, true)] } } : State).msys.domOnly.get false 0 = true) ∧
    (peerOf base 5).mark = .absent := by decide +kernel

theorem witness_TrustEvents_6 :
    let tag : RespTag := { id := 9, acc := { core := 0, tid := 1024, pc := 0, op := .load 4 false, pieces := [(.mem (5 * 2 ^ 40), 4, 5 * 2 ^ 40)], vres := some (1, 0) }, pkg := 5, addr := 5 * 2 ^ 40 }
    let s : State := withPeer .member { base with msys := { base.msys with tags := [tag] } }
    (∀ vs ∈ [[], [(0 : Word)]], lowB s (group (.response 9 [1, 2, 3, 4] false vs) true) = true) ∧ (0 : Word).toNat / 2 ^ 16 % 8 ∈ [0, 3, 4] ∧
    tag.acc.pieces = [(.mem (5 * 2 ^ 40), 4, 5 * 2 ^ 40)] ∧ isFar s (.mem (5 * 2 ^ 40)) = true ∧ s.msys.tags.find? (fun t => t.id == 9 && t.pkg == 5) = some tag ∧
    tag.acc.vres = some (1, 0) ∧ tag.acc.op = .load 4 false ∧ (∀ e ∈ s.teams, e.2.moveTo = none) := by decide +kernel

/-- A far access of thread 1024 to package 5, at work since time 0. -/
def farTag : RespTag := { id := 9, acc := { core := 0, tid := 1024, pc := 0, op := .load 4 false, pieces := [(.mem (5 * 2 ^ 40), 4, 5 * 2 ^ 40)] }, pkg := 5, addr := 5 * 2 ^ 40 }
def withTag (g : RespTag) (t : Nat) : State := { base with msys := { base.msys with tags := [g] }, time := t }

theorem witness_ReliabilityAndDebug_1 :
    (peerOf (withPeer .member base) 5).mark = .member ∧ (peerOf base 5).mark ≠ .member ∧
    (let s := withTag farTag 10000000
     s.msys.tags.find? (fun g => g.id == 9) = some farTag ∧ farTag.recovery = false ∧ farTag.held = false ∧
       farTag.since + wdog s (s.launchOf 1024).tenant * 1000000 ≤ s.time) ∧
    (∀ op ∈ [MemDo.eng 3, .coll 3, .entry], let g := { farTag with acc := { farTag.acc with op := op } }
     (withTag g 10000000).msys.tags.find? (fun g => g.id == 9) = some g ∧
       g.since + wdog (withTag g 10000000) ((withTag g 10000000).launchOf 1024).tenant * 1000000 ≤ (withTag g 10000000).time) ∧
    (let s := onThreads (fun x => { x with park := .iter }) (withTag farTag 10000000)
     (s.th 1024).park = .iter ∧ farTag.since + wdog s (s.launchOf 1024).tenant * 1000000 ≤ s.time) ∧
    (let g := { farTag with recovery := true }
     let s := withTag g 2000000000
     s.msys.tags.find? (fun g => g.id == 9) = some g ∧ g.recovery = true ∧ g.held = false ∧ g.since + 2000000000 ≤ s.time) := by decide +kernel

theorem witness_ReliabilityAndDebug_2 :
    tidAt 1 0 0 = 1024 ∧
    (let s := onThreads (fun x => { x with park := .firmware 0x10 }) base
     (s.th 1024).park = .firmware 0x10 ∧ 1024 ∈ sameTrap s 1024 ∧ (s.th 1024).pendTrap = none ∧ (s.launchOf 1024).argsFault = none) ∧
    (let s := onThreads (fun x => { x with park := .firmware 0x13, pendTrap := some { code := 0x13 } }) base
     (s.th 1024).park = .firmware 0x13 ∧ (s.th 1024).pendTrap.isSome = true) ∧
    ((onThreads (fun x => { x with park := .firmware 0x2A }) base).th 1024).park = .firmware 0x2A ∧
    (∀ s ∈ [recWord 17 0x9000 (onWave (fun w => { w with snapWait := true }) (onThreads (fun x => { x with park := .snap }) base)),
        { recWord 17 0x9000 (recWord 16 (2 ^ 32 + 5) base) with time := 5000 }],
      let k := s.tm 1
      k.running = true ∧ k.fin = false ∧ (s.la k.lid).snapBase ≠ 0 ∧
      ((∃ w ∈ s.teamWids 1, (s.wv w).snapWait = true) ∨ (s.la k.lid).snapInt ≠ 0 ∧ k.snapAt + (s.la k.lid).snapInt * 1000 ≤ s.time) ∧
      s.snapReady 1 = true ∧ s.pend = []) ∧
    (let s := withCmd (cmdOf 0 [0x501, 0x400, 0, 0x800, 0, 12]) base
     s.snapReady 1 = false) := by decide +kernel

/-- Two copies of a team, each of one wave at its pair point; the first has done the stores given since the last comparison. -/
def copies (rs : List (Nat × List Byte)) (mm : Nat) : State :=
  let s := onThreads (fun x => { x with park := .pair }) base
  onTeam (fun k => { k with secondary := some 2, records := rs, mismatches := mm }) { s with
    teams := AMap.set {} s.teams 2 { lid := 1, running := true, isSecond := true } }
theorem witness_ReliabilityAndDebug_3 :
    (base.tm 1).secondary = none ∧
    let stand (s : State) : Bool := ((s.tm 1).secondary == some 2) && (s.tm 1).running && (s.tm 2).running && atPairPoint s 32 && atPairPoint s 64
    let meet (s : State) : Bool := stand s && s.snapReady 1 && s.snapReady 2
    (stand (withCmd (cmdOf 0 [0x501, 0x400, 0, 0x800, 0, 12]) (copies [] 0)) = true ∧ meet (withCmd (cmdOf 0 [0x501, 0x400, 0, 0x800, 0, 12]) (copies [] 0)) = false) ∧
    (meet (copies [] 0) = true ∧ signature (copies [] 0) 32 = signature (copies [] 0) 64 ∧ ((copies [] 0).tm 1).heldStores = [] ∧
      ((copies [] 0).tm 1).fin = false) ∧
    (∀ m ∈ [0, 2], let s := copies [(1024, [1])] m
     meet s = true ∧ signature s 32 ≠ signature s 64 ∧ (s.tm 1).mismatches = m) ∧ (∀ e ∈ (copies [] 0).teams, e.2.moveTo = none) := by decide +kernel

def debugged (h : Bool) (s : State) : State := { s with dies := AMap.set {} s.dies 0 { (s.di 0) with debugger := true, halted := h } }
theorem witness_ReliabilityAndDebug_4 :
    (base.jfull = false ∧ (base.di 0).debugger = false) ∧
    (let s := debugged false base
     s.jfull = false ∧ (s.di 0).debugger = true ∧ (s.di 0).halted = false) ∧
    (let s := debugged true base
     s.jfull = false ∧ (s.di 0).debugger = true ∧ (s.di 0).halted = true ∧ ∀ l ∈ s.launches, l.2.rtags = []) ∧
    (let s := recWord 15 0x1000 (debugged true base)
     AMap.find? (s.co 0).slots 0 = some 32 ∧ (s.di (dieOf 0)).debugger = true ∧ (s.di (dieOf 0)).halted = true ∧ (s.di (dieOf 0)).step = none ∧
       (s.la (s.tm (tagW 32)).lid).debug = true) ∧
    (let s := onTeam (fun k => { k with extWrite := true }) base
     (s.di 0).lost = false ∧ (∀ e ∈ s.teams, e.2.secondary = none ∧ e.2.isSecond = false) ∧ s.dieTeams 0 = [1] ∧ (s.la 1).stagingOnly = false ∧
       (s.tm 1).extWrite = true) ∧
    (let s : State := { base with dies := AMap.set {} base.dies 0 { (base.di 0) with lost := true } }
     (s.di 0).lost = true) := by decide +kernel

def clus (k t : Nat) (c : Cluster) : State := { base with clusters := [(k, c)], time := t }
theorem witness_PowerEvents_1 :
    (let s := clus 0 5000 { phase := 1, volt := 2, clock := 2, target := 4 }
     (s.cl 0).phase = 1 ∧ (s.cl 0).since + 5000 ≤ s.time) ∧
    (let s := clus 0 5000 { phase := 3, volt := 4, clock := 2, target := 2 }
     (s.cl 0).phase = 3 ∧ s.power.deferred = false ∧ (s.cl 0).since + 5000 ≤ s.time) ∧
    (let s := clus 0 4999 { phase := 1, volt := 2, clock := 2, target := 4 }
     s.time < (s.cl 0).since + 5000) ∧
    (let s := clus 0 1000 { phase := 2, volt := 4, clock := 2, target := 4, swTo := 4 }
     (s.cl 0).phase = 2 ∧ (s.cl 0).since + 1000 ≤ s.time) ∧
    (clus 0 999 { phase := 2 }).time < ((clus 0 999 { phase := 2 }).cl 0).since + 1000 := by decide +kernel

theorem witness_PowerEvents_2 :
    (∀ j ∈ [0, 1, 2, 3], let s := clus 3 10000 { pool := j, actN := 1, issN := 1, memN := 4 }
     let p := s.poolAt j
     s.power.sampleAt < 1 * 10000 ∧ 1 * 10000 ≤ s.time ∧ s.power.pools.length = 5 ∧ s.poolClusters j = [3] ∧ (s.cl 3).phase = 0 ∧ p.throttled = false ∧
       p.rising = false ∧ 0 < (s.cl 3).actN ∧ (s.cl 0).actN = 0) ∧
    base.power.pools.length = 5 ∧ base.time < 1 * 10000 ∧ 0 * 10000 ≤ base.power.sampleAt ∧
    (∀ ma ∈ [0, 500000], let s : State := { base with power := { base.power with current := 500000 } }
     if ma = 0 then 400000 + ma < s.power.current else s.power.current ≤ 400000 + ma) := by decide +kernel

/-- The reading of pair 0: warm in a class pool, hot on one side, far apart, or cool. -/
theorem witness_PowerEvents_3 :
    let s : State := { base with clusters := [(0, { pool := 1 }), (2, { pool := 3 })] }
    let diff (u l : BitVec 12) : Nat := max u.toNat l.toNat - min u.toNat l.toNat
    (pairCore 0 = 0 ∧ (s.cl (clusterOf (pairCore 0))).pool = 1 ∧ s.power.pools.length = 5) ∧
    (420 ≤ (440 : BitVec 12).toNat ∧ (s.cl (clusterOf (twinOf (pairCore 0)))).pool = 3) ∧
    (420 ≤ (430 : BitVec 12).toNat ∧ (s.poolAt 1).throttled = false ∧ max (440 : BitVec 12).toNat (430 : BitVec 12).toNat < 460 ∧ diff 440 430 < 80 ∧
      ∀ d ∈ List.range 16, (s.di d).online = true) ∧
    (460 ≤ max (460 : BitVec 12).toNat (460 : BitVec 12).toNat ∧ 80 ≤ diff 381 301 ∧ 380 < max (381 : BitVec 12).toNat (301 : BitVec 12).toNat) ∧
    (460 ≤ max (470 : BitVec 12).toNat (300 : BitVec 12).toNat ∧ 56 ≤ diff 470 300 ∧ (s.tp (pairCore 0)).steered = none) ∧
    (max (300 : BitVec 12).toNat (290 : BitVec 12).toNat < 420 ∧ diff 300 290 < 56 ∧ ∀ k ∈ List.range 6, (s.poolAt k).throttled = false) := by
  decide +kernel

/-- `NOP` at address 0. -/
def nopWord : List Byte := encodeBytes (.nop h64)
def running : State := State.reset.placeProgram nopWord
theorem witness_StepRunsTheDecodedInstruction :
    let s := running
    s.agenda = [.run 0] ∧
    (let s0 : State := { s with agenda := [] }
     s0.coreStops 0 = false ∧ s0.stepping 0 = none ∧ s0.pendingTrap (s0.coreTids 0) = none ∧ s0.waitOf (.mem 0) = none ∧ (s0.nextGroup 0).any (fun g => g.pc == 0 &&
       g.members == tidsOf 32) = true ∧
     (match s0.fetchPlace 0 (s0.lidOf 1024) 0 with | .ok p => p.loc == .mem 0 | .error _ => false) = true ∧
     (match decodeBytes ((List.range 8).map (fun k => s0.byteAt (0 + k))) with | .ok (i, []) => i == .nop h64 | _ => false) = true ∧
     (let w := leNat ((List.range 8).map (fun k => s0.byteAt (0 + k)))
      lenOf w = some .w64 ∧ (∀ k ∈ wordFeatures .w64 w, (s0.la 1).feat k = true) ∧ bitsOf w 18 11 ≠ 0xED ∧ bitsOf w 18 11 ≠ 0xEE)) ∧
    isEvent .pendingScan = true := by decide +kernel

theorem witness_DecodeTakesBackEncode : (Instr.nop h64).wf = true := by decide
theorem witness_AcceptedWordsAreEncodings : (match decodeBytes nopWord with | .ok (i, []) => i == .nop h64 | _ => false) = true := by decide +kernel
theorem witness_MemoryKeepsItsForm : Memory.wf State.reset.mem = true ∧ (match step State.reset with | .next _ => true | _ => false) = true := by
  decide +kernel

end Sys2Proof.Tests
end

section
/-! What an arithmetic instruction that is let through its gate leaves behind. -/

namespace Sys2Proof.Machine.State

open Sys2Proof Sys2Proof.Claims

/-! ### What the frame of an issue says about the parts of the state that a result names -/

theorem kept_now {s t : State} (h : Kept s t) : t.now = s.now := by
  rw [now, h.focus, h.cores]
  rfl

theorem kept_grp {s t : State} (h : Kept s t) : t.grp = s.grp := congrArg Focus.members h.focus

theorem kept_slot {s t : State} (h : Kept s t) (w : Nat) : (t.wv w).slot = (s.wv w).slot := by rw [h.waves w]

theorem kept_twin {s t : State} (h : Kept s t) (w : Nat) : (t.wv w).twin = (s.wv w).twin := by rw [h.waves w]

theorem kept_wavesF {s t : State} (h : Kept s t) : t.wavesF = s.wavesF := by
  simp only [wavesF, kept_slot h, kept_grp h]

theorem kept_writerOf {s t : State} (h : Kept s t) (g : Tgt) : t.writerOf g = s.writerOf g := by
  simp only [writerOf, kept_wavesF h, kept_twin h]

/-- Threads that move on from a state inside the frame move on from the state before. -/
theorem moves_of_kept {s t u : State} {h : Hdr} {len : Nat} (hk : Kept s t) (hth : ∀ x, t.th x = s.th x)
    (hm : Moves h len t u) : Moves h len s u := by
  simpa only [Moves, kept_grp hk, kept_now hk, hth] using hm

/-- Results scheduled inside the frame are the results due from the state before. -/
theorem sched_pend_of_kept {s t : State} (hk : Kept s t) (hp : t.pend = s.pend) (lat : Nat) (ws : List (Tgt × Word)) :
    (t.sched lat ws).pend = s.pend ++ dueIn lat ws s := by
  simp only [sched, dueIn, hp, hk.focus, kept_now hk, kept_writerOf hk]

/-! ### Instructions that name no queue -/

/-- A destination that is among an instruction's destinations is no queue where the instruction names none. -/
theorem dstPush_of_noQueue {u : Uses} (hq : NoQueue u) {o : Opnd} {n : Nat} (ho : (o, n) ∈ u.dsts) (s : State)
    (outs : List (Nat × List Word)) : s.dstPush o outs = s := by
  cases o with
  | e q =>
    have hmem : (q.toNat, 1) ∈ u.pushQ := List.mem_append_left _ (List.mem_filterMap.mpr ⟨_, ho, rfl⟩)
    rw [hq.2] at hmem
    exact absurd hmem List.not_mem_nil
  | _ => rfl

theorem dropPops_of_noQueue {u : Uses} (hq : NoQueue u) (s : State) : s.dropPops u = s := by
  simp only [dropPops, hq.1]

theorem popsOf_of_noQueue {u : Uses} (hq : NoQueue u) (s : State) : s.popsOf u = [] := by
  simp only [popsOf, hq.1]

/-- Without queues, an arithmetic instruction that is done has issued, scheduled its results and moved on. -/
theorem aluDone_of_noQueue {u : Uses} (hq : NoQueue u) {d : Option Opnd} (hd : ∀ o ∈ d, ∃ n, (o, n) ∈ u.dsts) (s : State)
    (outs : List (Nat × LaneOut)) :
    s.aluDone u d outs = ((s.issued u).sched u.latency (s.outWrites d outs)).advance u.h u.len := by
  cases d with
  | none => simp only [aluDone, aluDoneWith, dropPops_of_noQueue hq, results, hq.1, List.append_nil]
  | some o =>
    obtain ⟨n, ho⟩ := hd o rfl
    simp only [aluDone, aluDoneWith, dropPops_of_noQueue hq, dstPush_of_noQueue hq ho, results, hq.1, List.append_nil]

/-- An arithmetic instruction that can issue, names no queue and meets no enabled condition: its results are on their way, its
threads move on, and nothing else changes. -/
theorem alu_completes {u : Uses} {d : Option Opnd} {f : State → Pops → Nat → LaneOut} {s : State} (hr : Ready u s)
    (hq : NoQueue u) (hd : ∀ o ∈ d, ∃ n, (o, n) ∈ u.dsts) (hn : NoArithTrap u f s) :
    ∃ t, alu u d f s = .next t ∧ Kept s t ∧ Moves u.h u.len s t ∧ t.vres = s.vres ∧
      t.pend = s.pend ++ dueIn u.latency (s.outWrites d (lanes u f s)) s := by
  obtain ⟨hgate, hnodup⟩ := hr
  have hki : Kept s (s.issued u) := kept_issued s u
  obtain ⟨-, hpend, hvres⟩ := issued_flight s u
  let r := (s.issued u).sched u.latency (s.outWrites d (lanes u f s))
  have hkr : Kept s r := kept_trans hki (kept_sched _ _ _)
  refine ⟨r.advance u.h u.len, ?_, kept_trans hkr (kept_modThreads _ _ _), ?_, hvres, sched_pend_of_kept hki hpend _ _⟩
  · have htrap : s.arithTrap (s.laneOuts u f) = none := (arithTrap_none _ _).mpr hn
    rw [alu_go d f hgate, htrap]
    exact congrArg _ (aluDone_of_noQueue hq hd s _)
  · exact moves_of_kept hkr (issued_th s u) (moves_advance r _ _ ((kept_grp hkr).symm ▸ hnodup))

/-! ### Instructions of the arithmetic mould -/

/-- An instruction of the arithmetic mould: it computes `f` in each executing lane for the destination `d`, with the latency of
its class, lengthened by a crossbar pattern. -/
structure Moulded (i : Instr) (cls : Nat) (d : Option Opnd) (f : State → Pops → Nat → LaneOut) : Prop where
  exec_eq : ∀ s, exec i s = alu (usesOf i) d f s
  lat_eq : (usesOf i).lat = cls
  ownLat_eq : (usesOf i).ownLat = false
  dst_mem : ∀ o ∈ d, ∃ n, (o, n) ∈ (usesOf i).dsts

theorem latency_of_ownLat {u : Uses} (h : u.ownLat = false) : u.latency = if u.patterned then max u.lat 6 else u.lat := by
  simp [Uses.latency, h]

theorem Moulded.latency_eq {i : Instr} {cls : Nat} {d : Option Opnd} {f : State → Pops → Nat → LaneOut}
    (hm : Moulded i cls d f) : (usesOf i).latency = latOf i cls := by
  rw [latency_of_ownLat hm.ownLat_eq, hm.lat_eq, latOf]

theorem Moulded.computes {i : Instr} {cls : Nat} {d : Option Opnd} {f : State → Pops → Nat → LaneOut} {s : State}
    (hm : Moulded i cls d f) (hr : Ready (usesOf i) s) (hq : NoQueue (usesOf i)) (hn : NoArithTrap (usesOf i) f s) :
    Computes i (latOf i cls) d f s := by
  obtain ⟨t, hexec, hrest⟩ := alu_completes hr hq hm.dst_mem hn
  rw [hm.latency_eq] at hrest
  exact ⟨t, (hm.exec_eq s).trans hexec, hrest⟩

/-- Lane results that raise no condition meet no arithmetic trap. -/
theorem noArithTrap_of_conds {u : Uses} {f : State → Pops → Nat → LaneOut} {s : State}
    (hc : ∀ s p x, (f s p x).conds = 0) : NoArithTrap u f s := by
  intro o ho
  obtain ⟨x, -, rfl⟩ := List.mem_map.mp ho
  simp [hc]

theorem Moulded.computes_of_conds {i : Instr} {cls : Nat} {d : Option Opnd} {f : State → Pops → Nat → LaneOut} {s : State}
    (hm : Moulded i cls d f) (hc : ∀ s p x, (f s p x).conds = 0) (hr : Ready (usesOf i) s) (hq : NoQueue (usesOf i)) :
    Computes i (latOf i cls) d f s :=
  hm.computes hr hq (noArithTrap_of_conds hc)

end Sys2Proof.Machine.State
end

section
/-! The results of the integer instructions, word by word: what the meanings compute is what the tables of 05 state. -/

namespace Sys2Proof.Machine

open Sys2Proof Sys2Proof.Claims

/-! ### Exact integers and words (R130-R132) -/

@[simp] theorem out1_eq_w1 (x : Word) : out1 x = w1 x := rfl

@[simp] theorem outP_eq_pr (p : Pred) (b : Bool) : outP p b = pr p b := rfl

theorem setWidth_low (x : DWord) : x.setWidth 32 = x.extractLsb' 0 32 := BitVec.setWidth_eq_extractLsb' (by decide)

theorem setWidth_high (x : DWord) : (x >>> 32).setWidth 32 = x.extractLsb' 32 32 := BitVec.eq_of_toNat_eq (by simp)

@[simp] theorem out2_eq_w2 (x : DWord) : out2 x = w2 x := by
  rw [out2, w2, setWidth_low, setWidth_high]

/-- Reduced modulo its width, the value of a word is the word. -/
@[simp] theorem ofInt_intOf {n : Nat} (zx : Bool) (x : BitVec n) : BitVec.ofInt n (intOf zx x) = x := by
  cases zx <;> simp [intOf]

theorem sat32_signed (k : Int) : sat32 true false k = clampS k := by
  have hsplit : max (-2147483648) (min 2147483647 k) =
      if 2147483647 < k then 2147483647 else if k < -2147483648 then -2147483648 else k := by
    split
    · omega
    · split <;> omega
  simp only [sat32, clampS, hsplit, apply_ite (BitVec.ofInt 32)]
  rfl

theorem sat32_unsigned (k : Int) : sat32 true true k = clampU k := by
  have hsplit : max 0 (min 4294967295 k) = if 4294967295 < k then 4294967295 else if k < 0 then 0 else k := by
    split
    · omega
    · split <;> omega
  simp only [sat32, clampU, hsplit, apply_ite (BitVec.ofInt 32)]
  rfl

/-- A result is the exact value modulo 2^32, or clamped to its range. -/
theorem sat32_eq (sat zx : Bool) (k : Int) :
    sat32 sat zx k = if !sat then BitVec.ofInt 32 k else if zx then clampU k else clampS k := by
  match sat, zx with
  | false, _ => rfl
  | true, false => exact sat32_signed k
  | true, true => exact sat32_unsigned k

theorem ofInt_sub {n : Nat} (j k : Int) : BitVec.ofInt n (j - k) = BitVec.ofInt n j - BitVec.ofInt n k := by
  rw [Int.sub_eq_add_neg, BitVec.ofInt_add, BitVec.ofInt_neg, BitVec.sub_eq_add_neg]

theorem carryOut_natCast (n k : Nat) : carryOut n k = decide (2 ^ n ≤ k) := by
  have hcast : ((2 : Int) ^ n ≤ k) ↔ 2 ^ n ≤ k := by exact_mod_cast Iff.rfl
  simp [carryOut, hcast]

/-- The borrow of a difference of unsigned values. -/
theorem carryOut_sub {n : Nat} (x y : BitVec n) : carryOut n ((x.toNat : Int) - y.toNat) = decide (x < y) := by
  have hx : (x.toNat : Int) < 2 ^ n := by exact_mod_cast x.isLt
  have hle : ¬ (2 : Int) ^ n ≤ x.toNat - y.toNat := by omega
  have hlt : ((x.toNat : Int) - y.toNat < 0) ↔ x < y := by rw [BitVec.lt_def]; omega
  simp [carryOut, hle, hlt]

/-- An unsigned difference held to its range is 0 where it borrows. -/
theorem clampU_sub (x y : Word) : clampU ((x.toNat : Int) - y.toNat) = if x < y then 0 else x - y := by
  have hx := x.isLt
  by_cases h : x < y
  · have hneg : (x.toNat : Int) - y.toNat < 0 := by rw [BitVec.lt_def] at h; omega
    rw [if_pos h, clampU, if_neg (by omega), if_pos hneg]
  · have hnonneg : ¬ (x.toNat : Int) - y.toNat < 0 := by rw [BitVec.lt_def] at h; omega
    rw [if_neg h, clampU, if_neg (by omega), if_neg hnonneg]
    simp [ofInt_sub]

theorem addResult_add (x y : Word) (sat zx : Bool) (co : Pred) :
    addResult (x.toNat + y.toNat) (x.toInt + y.toInt) sat zx co =
      { ws := [if !sat then x + y else if zx then clampU (x.toNat + y.toNat) else clampS (x.toInt + y.toInt)]
        ps := [(co, decide (2 ^ 32 ≤ x.toNat + y.toNat))] } := by
  have hcarry : carryOut 32 ((x.toNat : Int) + y.toNat) = decide (2 ^ 32 ≤ x.toNat + y.toNat) := by
    rw [← Int.natCast_add, carryOut_natCast]
  simp only [addResult, hcarry, sat32_eq]
  cases sat <;> cases zx <;> simp [BitVec.ofInt_add]

theorem addResult_sub (x y : Word) (sat zx : Bool) (co : Pred) :
    addResult (x.toNat - y.toNat) (x.toInt - y.toInt) sat zx co =
      { ws := [if !sat then x - y else if zx then (if x < y then 0 else x - y) else clampS (x.toInt - y.toInt)]
        ps := [(co, decide (x < y))] } := by
  simp only [addResult, carryOut_sub, sat32_eq, ← clampU_sub]
  cases sat <;> cases zx <;> simp [ofInt_sub]

theorem addResult_carry (x y : Word) (c : Bool) (co : Pred) :
    addResult (x.toNat + y.toNat + c.toNat) 0 false false co =
      { ws := [BitVec.ofNat 32 (x.toNat + y.toNat + if c then 1 else 0)]
        ps := [(co, decide (2 ^ 32 ≤ x.toNat + y.toNat + if c then 1 else 0))] } := by
  have hsum : (x.toNat + y.toNat + c.toNat : Int) = (x.toNat + y.toNat + if c then 1 else 0 : Nat) := by cases c <;> simp
  simp only [addResult, hsum, carryOut_natCast, sat32_eq]
  rfl

theorem sat32_mul (sat zx : Bool) (x y : Word) :
    sat32 sat zx (intOf zx x * intOf zx y) =
      if !sat then x * y else if zx then clampU (x.toNat * y.toNat) else clampS (x.toInt * y.toInt) := by
  rw [sat32_eq, BitVec.ofInt_mul, ofInt_intOf, ofInt_intOf]
  cases zx <;> rfl

theorem sat32_mad (sat zx : Bool) (x y z : Word) :
    sat32 sat zx (intOf zx x * intOf zx y + intOf zx z) =
      if !sat then x * y + z else if zx then clampU (x.toNat * y.toNat + z.toNat) else clampS (x.toInt * y.toInt + z.toInt) := by
  rw [sat32_eq, BitVec.ofInt_add, BitVec.ofInt_mul, ofInt_intOf, ofInt_intOf, ofInt_intOf]
  cases zx <;> rfl

theorem wide_eq_ofInt (zx : Bool) (x y : Word) : wide zx x y = BitVec.ofInt 64 (intOf zx x * intOf zx y) := by
  have hzero : ∀ z : Word, z.setWidth 64 = BitVec.ofNat 64 z.toNat := fun z => BitVec.eq_of_toNat_eq (by simp)
  cases zx
  · simp [wide, intOf, BitVec.ofInt_mul, BitVec.signExtend]
  · simp only [wide, intOf, BitVec.ofInt_mul, hzero, BitVec.ofInt_natCast, if_true]

/-- The high word of a 64-bit product is the exact product divided by 2^32. -/
theorem extractLsb'_ofInt_high (k : Int) : (BitVec.ofInt 64 k).extractLsb' 32 32 = BitVec.ofInt 32 (k / 2 ^ 32) := by
  apply BitVec.eq_of_toNat_eq
  simp only [BitVec.extractLsb'_toNat, BitVec.toNat_ofInt, Nat.shiftRight_eq_div_pow]
  omega

theorem intOf_lt_iff (zx : Bool) (x y : Word) : intOf zx x < intOf zx y ↔ if zx then x < y else x.slt y := by
  cases zx <;> simp [intOf, BitVec.slt_eq_decide, BitVec.lt_def]

theorem intOf_min (zx : Bool) (x y : Word) :
    (if intOf zx x ≤ intOf zx y then x else y) = if (if zx then y < x else y.slt x) then y else x := by
  simp only [← intOf_lt_iff, ← Int.not_lt, ite_not]

/-- Words of one value are one word, so either comparison picks the larger one. -/
theorem intOf_max (zx : Bool) (x y : Word) :
    (if intOf zx x ≤ intOf zx y then y else x) = if (if zx then x < y else x.slt y) then y else x := by
  simp only [← intOf_lt_iff]
  by_cases heq : intOf zx x = intOf zx y
  · have hxy : x = y := by rw [← ofInt_intOf zx x, heq, ofInt_intOf]
    simp [hxy]
  · have hle : intOf zx x ≤ intOf zx y ↔ intOf zx x < intOf zx y := by omega
    simp only [hle]

/-- The high word of a product. -/
theorem ofInt_mul_high (zx : Bool) (x y : Word) :
    BitVec.ofInt 32 (intOf zx x * intOf zx y / 2 ^ 32) = (wide zx x y).extractLsb' 32 32 := by
  rw [wide_eq_ofInt, extractLsb'_ofInt_high]

theorem ofNat_natAbs_toInt (x : Word) : BitVec.ofNat 32 x.toInt.natAbs = if x.msb then 0 - x else x := by
  apply BitVec.eq_of_toNat_eq
  have hx := x.isLt
  rw [BitVec.toInt_eq_msb_cond]
  by_cases h : x.msb
  · simp only [h, if_true, BitVec.toNat_ofNat, BitVec.toNat_sub, BitVec.ofNat_eq_ofNat, Nat.zero_mod, Nat.add_zero]
    omega
  · simp [h]

/-! ### Shifts and bit fields (R133-R135) -/

theorem shlResult_eq (x : Word) (n : Nat) : shlResult x n = x <<< n := by
  by_cases h : 32 ≤ n <;> simp [shlResult, h]

theorem shrResult_eq (x : Word) (n : Nat) : shrResult x n = x >>> n := by
  by_cases h : 32 ≤ n
  · simp [shrResult, h, BitVec.ushiftRight_eq_zero h]
  · simp [shrResult, h]

theorem sarResult_eq (x : Word) (n : Nat) : sarResult x n = x.sshiftRight n := by
  ext i hi
  simp only [sarResult, BitVec.getElem_sshiftRight]
  by_cases h : n ≤ 32
  · rw [Nat.min_eq_left h]
  · rw [dif_neg (by omega), dif_neg (by omega)]

theorem rotateLeft_eq (x : Word) (n : Nat) : x.rotateLeft (n % 32) = x <<< (n % 32) ||| x >>> (32 - n % 32) := by
  rw [BitVec.rotateLeft_def, Nat.mod_mod]

theorem byteK_toNat (w : Word) (k : Nat) : (byteK w k).toNat = w.toNat / 2 ^ (8 * k) % 256 := by
  simp [byteK, Nat.shiftRight_eq_div_pow]

/-- The position and the length that `BFE` and `BFI` take from `b`. -/
theorem byteK_zero_toNat (w : Word) : (byteK w 0).toNat = w.toNat % 256 := by simp [byteK_toNat]

theorem byteK_one_toNat (w : Word) : (byteK w 1).toNat = w.toNat / 256 % 256 := by simp [byteK_toNat]

/-- The source of a field extraction at 64 bits, extended as its sign says. -/
def bfeSource (zx : Bool) (x : Word) : DWord := if zx then x.setWidth 64 else x.signExtend 64

/-- The `len` bits of an extended source from `pos` on. -/
def bfeField (x : DWord) (pos len : Nat) : BitVec len := (x.sshiftRight pos).setWidth len

/-- A field as the word that it is extended to. -/
def bfeWord (zx : Bool) {len : Nat} (f : BitVec len) : Word := if zx then f.setWidth 32 else f.signExtend 32

theorem bfeSource_toInt (zx : Bool) (x : Word) : (bfeSource zx x).toInt = intOf zx x := by
  have hx := x.isLt
  cases zx
  · simp [bfeSource, intOf, BitVec.toInt_signExtend_of_le]
  · simp only [bfeSource, intOf, if_true, BitVec.toInt_setWidth]
    exact Int.bmod_eq_of_le (by omega) (by omega)

theorem bfeField_toNat (x : DWord) (pos len : Nat) (hlen : len ≤ 64) :
    ((bfeField x pos len).toNat : Int) = x.toInt / 2 ^ pos % 2 ^ len := by
  have hmod : (0 : Int) ≤ x.toInt / 2 ^ pos % 2 ^ 64 := Int.emod_nonneg _ (by decide)
  have hdvd : (2 : Int) ^ len ∣ 2 ^ 64 := pow_dvd_pow 2 hlen
  simp only [bfeField, BitVec.toNat_setWidth, BitVec.sshiftRight_eq, BitVec.toNat_ofInt, Int.shiftRight_eq_div_pow,
    Int.natCast_emod, Int.natCast_pow, Int.cast_ofNat_Int]
  rw [Int.toNat_of_nonneg hmod, Int.emod_emod_of_dvd _ hdvd]

/-- A field that is extended as a number. -/
theorem bfeWord_eq_ofInt (zx : Bool) {len : Nat} (f : BitVec len) : bfeWord zx f = BitVec.ofInt 32 (intOf zx f) := by
  cases zx
  · rfl
  · exact BitVec.eq_of_toNat_eq (by simp [bfeWord, intOf])

/-- The meaning's field extraction cuts the field out and extends it. -/
theorem bfeResult_eq_bfeWord (x b : Word) (zx : Bool) :
    bfeResult x b zx = bfeWord zx (bfeField (bfeSource zx x) (byteK b 0).toNat (min (byteK b 1).toNat 32)) := by
  simp only [bfeResult, ← byteK_zero_toNat, ← byteK_one_toNat]
  generalize (byteK b 0).toNat = pos
  generalize hl : min (byteK b 1).toNat 32 = len
  have hnat := bfeField_toNat (bfeSource zx x) pos len (by omega)
  rw [bfeSource_toInt] at hnat
  rw [bfeWord_eq_ofInt, ← hnat]
  generalize bfeField (bfeSource zx x) pos len = f
  by_cases h0 : len = 0
  · subst h0
    have hf : f = 0 := Subsingleton.elim _ _
    cases zx <;> simp [hf, intOf]
  · have hhalf : 2 * 2 ^ (len - 1) = 2 ^ len := by rw [← pow_succ', Nat.sub_add_cancel (by omega)]
    have hge : ((2 : Int) ^ (len - 1) ≤ f.toNat) ↔ ¬ 2 * f.toNat < 2 ^ len := by
      rw [← hhalf]; norm_cast; omega
    cases zx
    · simp only [if_neg h0, intOf, BitVec.toInt_eq_toNat_cond, hge]
      by_cases hs : 2 * f.toNat < 2 ^ len <;> simp [hs]
    · simp [if_neg h0, intOf]

/-- A field moved to the top of 64 bits and back is extended. -/
theorem shifted_eq_bfeWord (zx : Bool) (x : DWord) (pos len : Nat) (hlen : len ≤ 32) :
    (if zx then ((x.sshiftRight pos) <<< (64 - len)) >>> (64 - len)
      else ((x.sshiftRight pos) <<< (64 - len)).sshiftRight (64 - len)).setWidth 32 = bfeWord zx (bfeField x pos len) := by
  simp only [bfeWord, bfeField]
  generalize x.sshiftRight pos = y
  ext i hi
  cases zx
  · rw [BitVec.getElem_setWidth, if_neg (by decide), if_neg (by decide), BitVec.getElem_signExtend, BitVec.getLsbD_sshiftRight,
      BitVec.getLsbD_shiftLeft, BitVec.msb_shiftLeft, BitVec.msb_setWidth]
    by_cases h : i < len
    · have hin : 64 - len + i < 64 := by omega
      have hi64 : ¬ 64 ≤ i := by omega
      simp [h, hin, hi64]
    · have hout : ¬ 64 - len + i < 64 := by omega
      have hi64 : ¬ 64 ≤ i := by omega
      have hlast : 64 - 1 - (64 - len) = len - 1 := by omega
      simp [h, hout, hi64, BitVec.getMsbD, hlast]
  · have h : 64 - len + i < 64 ↔ i < len := by omega
    simp [h]

theorem bfeResult_eq (x b : Word) (zx : Bool) :
    bfeResult x b zx =
      (if zx then (((bfeSource zx x).sshiftRight (byteK b 0).toNat) <<< (64 - min (byteK b 1).toNat 32)) >>>
          (64 - min (byteK b 1).toNat 32)
        else (((bfeSource zx x).sshiftRight (byteK b 0).toNat) <<< (64 - min (byteK b 1).toNat 32)).sshiftRight
          (64 - min (byteK b 1).toNat 32)).setWidth 32 := by
  rw [bfeResult_eq_bfeWord, shifted_eq_bfeWord _ _ _ _ (Nat.min_le_right _ 32)]

/-- The mask of `BFI`: `len` bits from `pos` on. -/
def bfiMask (pos len : Nat) : Word := (((1 : BitVec 64) <<< len) - 1).setWidth 32 <<< pos

theorem ofNat_mask (pos len : Nat) (hlen : len ≤ 32) : BitVec.ofNat 32 ((2 ^ len - 1) * 2 ^ pos) = bfiMask pos len := by
  have hpow : 2 ^ len < 2 ^ 64 := Nat.pow_lt_pow_right (by decide) (by omega)
  have hpos : 0 < 2 ^ len := Nat.two_pow_pos len
  have hbits : ((((1 : BitVec 64) <<< len) - 1).setWidth 32).toNat = (2 ^ len - 1) % 2 ^ 32 := by
    simp only [BitVec.toNat_setWidth, BitVec.toNat_sub, BitVec.toNat_shiftLeft, BitVec.ofNat_eq_ofNat, BitVec.toNat_ofNat,
      Nat.shiftLeft_eq]
    omega
  apply BitVec.eq_of_toNat_eq
  rw [bfiMask, BitVec.toNat_shiftLeft, hbits, BitVec.toNat_ofNat, Nat.shiftLeft_eq, Nat.mod_mul_mod]

/-- The mask of an insertion outside the word, or of no bits, is empty. -/
theorem bfiMask_eq_zero {pos len : Nat} (h : 32 ≤ pos ∨ len = 0) : bfiMask pos len = 0 := by
  rcases h with h | rfl
  · exact BitVec.shiftLeft_eq_zero h
  · simp [bfiMask]

theorem bfiResult_eq (x b z : Word) :
    bfiResult x b z =
      (z &&& ~~~ bfiMask (byteK b 0).toNat (min (byteK b 1).toNat 32)) |||
      (x <<< (byteK b 0).toNat &&& bfiMask (byteK b 0).toNat (min (byteK b 1).toNat 32)) := by
  have hshift : ∀ n, BitVec.ofNat 32 (x.toNat * 2 ^ n) = x <<< n := fun n =>
    BitVec.eq_of_toNat_eq (by simp [Nat.shiftLeft_eq])
  simp only [bfiResult, ← byteK_zero_toNat, ← byteK_one_toNat, hshift, ofNat_mask _ _ (Nat.min_le_right _ 32)]
  by_cases h : 32 ≤ (byteK b 0).toNat ∨ min (byteK b 1).toNat 32 = 0
  · rw [bfiMask_eq_zero h, if_pos (by simpa using h)]
    simp only [BitVec.ofNat_eq_ofNat, BitVec.and_zero, BitVec.or_zero]
    exact BitVec.and_allOnes.symm
  · rw [if_neg (by simpa using h)]

/-! ### Counts, reversal and byte permutation (R136, R137) -/

theorem sum_map_filter {α : Type} (p : α → Bool) (f : α → Nat) (l : List α) :
    ((l.filter p).map f).sum = (l.map (fun k => if p k then f k else 0)).sum := by
  induction l with
  | nil => rfl
  | cons a r ih => by_cases h : p a <;> simp [h, ih]

/-- The number of leading places where a predicate fails is the first place where it holds. -/
theorem length_takeWhile_range (p : Nat → Bool) (n : Nat) :
    ((List.range n).takeWhile (fun k => !p k)).length = ((List.range n).find? p).getD n := by
  induction n with
  | zero => rfl
  | succ n ih =>
    rw [List.range_succ, List.takeWhile_append, List.find?_append, ih]
    cases hfind : (List.range n).find? p with
    | none => by_cases h : p n <;> simp [h]
    | some k =>
      have hk : k < n := List.mem_range.mp (List.mem_of_find?_eq_some hfind)
      have hne : ¬ k = n := by omega
      rw [hfind] at ih
      simp [hne, ih]

theorem popcResult_eq (x : Word) :
    popcResult x = BitVec.ofNat 32 ((List.range 32).map (fun k => if x.getLsbD k then 1 else 0)).sum := by
  rw [popcResult, ← sum_map_filter, List.map_const', List.sum_replicate, smul_eq_mul, Nat.mul_one]

theorem clzResult_eq (x : Word) :
    clzResult x = BitVec.ofNat 32 (((List.range 32).find? (fun k => x.getMsbD k)).getD 32) := by
  have hbit : ∀ k ∈ List.range 32, x.getLsbD (31 - k) = x.getMsbD k := fun k hk => by
    simp [BitVec.getMsbD, List.mem_range.mp hk]
  rw [clzResult, length_takeWhile_range (fun k => x.getLsbD (31 - k)), List.find?_congr hbit]

theorem ctzResult_eq (x : Word) :
    ctzResult x = BitVec.ofNat 32 (((List.range 32).find? (fun k => x.getLsbD k)).getD 32) := by
  rw [ctzResult, length_takeWhile_range]

/-- The weighted bits of a number add up to it. -/
theorem sum_testBit (x n : Nat) : ((List.range n).map (fun k => if x.testBit k then 2 ^ k else 0)).sum = x % 2 ^ n := by
  induction n with
  | zero => simp [Nat.mod_one]
  | succ n ih =>
    have hbit : (if x.testBit n then 2 ^ n else 0) = 2 ^ n * (x / 2 ^ n % 2) := by
      rw [← Nat.toNat_testBit]
      cases x.testBit n <;> simp
    rw [List.range_succ, List.map_append, List.sum_append, ih, List.map_singleton, List.sum_singleton, hbit, Nat.mod_pow_succ]

theorem brevResult_eq (x : Word) : brevResult x = x.reverse := by
  have hbit : ∀ i ∈ List.range 32, (if x.getLsbD i then 2 ^ (31 - i) else 0) =
      if x.reverse.toNat.testBit (31 - i) then 2 ^ (31 - i) else 0 := fun i hi => by
    have hlt : 31 - i < 32 := by omega
    have hback : 31 - (31 - i) = i := by have := List.mem_range.mp hi; omega
    rw [BitVec.testBit_toNat, BitVec.getLsbD_reverse]
    simp [BitVec.getMsbD, hlt, hback]
  have hrange : (List.range 32).reverse = (List.range 32).map (31 - ·) := by decide
  have hsum : ((List.range 32).map (fun i => if x.getLsbD i then 2 ^ (31 - i) else 0)).sum = x.reverse.toNat :=
    calc
      _ = ((List.range 32).reverse.map (fun k => if x.reverse.toNat.testBit k then 2 ^ k else 0)).sum := by
        rw [List.map_congr_left hbit, hrange, List.map_map]
        rfl
      _ = x.reverse.toNat % 2 ^ 32 := by rw [List.map_reverse, List.sum_reverse, sum_testBit]
      _ = x.reverse.toNat := Nat.mod_eq_of_lt x.reverse.isLt
  rw [brevResult, sum_map_filter, hsum, BitVec.ofNat_toNat, BitVec.setWidth_eq]

theorem toNat_append_eq_add {m n : Nat} (x : BitVec m) (y : BitVec n) : (x ++ y).toNat = x.toNat * 2 ^ n + y.toNat := by
  rw [BitVec.toNat_append, ← Nat.shiftLeft_add_eq_or_of_lt y.isLt, Nat.shiftLeft_eq]

/-- A byte of the pool `c:a`. -/
theorem byteK_pool (x z : Word) {k : Nat} (hk : k < 8) :
    (z ++ x).toNat / 2 ^ (8 * k) % 256 = (if k < 4 then byteK x k else byteK z (k - 4)).toNat := by
  have hx := x.isLt
  rw [apply_ite BitVec.toNat, byteK_toNat, byteK_toNat, toNat_append_eq_add]
  interval_cases k <;> simp only [Nat.reduceMul, Nat.reduceSub, Nat.reducePow, Nat.reduceLT, if_true, if_false] <;> omega

theorem prmbByte_eq (x z : Word) (ctl : BitVec 8) : prmbByte x z ctl.toNat = (permByte x z ctl).toNat := by
  have hsel := byteK_pool x z (Nat.mod_lt ctl.toNat (by decide : 0 < 8))
  have hmode : (ctl.extractLsb' 3 2).toNat = ctl.toNat / 8 % 4 := by simp [Nat.shiftRight_eq_div_pow]
  have hneg : ctl.getLsbD 5 = bitAt ctl.toNat 5 := by
    rw [bitAt, BitVec.getLsbD, Nat.testBit_eq_decide_div_mod_eq, Nat.shiftRight_eq_div_pow]
    rfl
  have hcompl : ∀ y : BitVec 8, 255 - y.toNat = (~~~ y).toNat := fun y => by simp
  have hsign : ∀ y : BitVec 8, y.msb = decide (128 ≤ y.toNat) := fun y => BitVec.msb_eq_decide y
  have hzero : ∀ y : BitVec 8, y.toNat = 0 ↔ y = 0#8 := fun y => by simp [BitVec.toNat_eq]
  simp only [prmbByte, permByte, hsel, hmode, hneg]
  generalize (if ctl.toNat % 8 < 4 then byteK x (ctl.toNat % 8) else byteK z (ctl.toNat % 8 - 4)) = y
  generalize ctl.toNat / 8 % 4 = mode
  rw [apply_ite BitVec.toNat, ← hcompl]
  match mode with
  | 0 => rfl
  | 1 => rfl
  | 2 => by_cases h : 128 ≤ y.toNat <;> simp [hsign, h]
  | k + 3 => by_cases h : y = 0#8 <;> simp [hzero, h]

/-- A word put together from its bytes, each at its place. -/
theorem toNat_bytes (b3 b2 b1 b0 : BitVec 8) :
    (b3 ++ b2 ++ b1 ++ b0).toNat =
      b0.toNat * 2 ^ (8 * 0) + (b1.toNat * 2 ^ (8 * 1) + (b2.toNat * 2 ^ (8 * 2) + b3.toNat * 2 ^ (8 * 3))) := by
  rw [toNat_append_eq_add, toNat_append_eq_add, toNat_append_eq_add]
  omega

theorem sum_map_range_four (f : Nat → Nat) : ((List.range 4).map f).sum = f 0 + (f 1 + (f 2 + f 3)) := by
  simp [List.range_succ]

theorem prmbByte_byteK (x b z : Word) (k : Nat) :
    prmbByte x z (b.toNat / 2 ^ (8 * k) % 256) = (permByte x z (byteK b k)).toNat := by
  rw [← byteK_toNat, prmbByte_eq]

theorem prmbResult_eq (x b z : Word) :
    prmbResult x b z = permByte x z (byteK b 3) ++ permByte x z (byteK b 2) ++ permByte x z (byteK b 1) ++ permByte x z (byteK b 0) := by
  simp only [prmbResult, prmbByte_byteK]
  rw [sum_map_range_four, ← toNat_bytes, BitVec.ofNat_toNat]
  exact BitVec.setWidth_eq _

/-! ### Comparisons, predicates and addresses (R138-R143) -/

theorem intCond_eq_holds {n : Nat} (cond : BitVec 4) (x y : BitVec n) : intCond cond.toNat x y = holds cond x y := by
  unfold intCond holds
  generalize cond.toNat = c
  match c with
  | 0 | 1 | 2 | 3 | 4 | 5 | 6 | 7 | 8 | 9 | 10 | 11 | 12 => rfl
  | _ + 13 => rfl

theorem combine_eq_folded (comb : BitVec 2) (r q : Bool) : combine comb.toNat r q = folded comb r q := by
  revert comb r q
  decide

theorem cmpOut_eq {n : Nat} (s : State) (t : Nat) (pd pc : Pred) (cond : BitVec 4) (x y : BitVec n) (comb : BitVec 2) (cneg : Bool) :
    cmpOut s t pd pc (intCond cond.toNat x y) comb cneg = pr pd (folded comb (holds cond x y) (s.pred t pc != cneg)) := by
  rw [cmpOut, outP_eq_pr, combine_eq_folded, intCond_eq_holds]

theorem ite_xor {α : Type} (p q : Bool) (x y : α) : (if p ^^ q then x else y) = if p = q then y else x := by
  cases p <;> cases q <;> rfl

/-- The index into the table of `PLOP`. -/
theorem plop_index (p q r : Bool) :
    p.toNat + 2 * q.toNat + 4 * r.toNat = (if p then 1 else 0) + (if q then 2 else 0) + (if r then 4 else 0) := by
  cases p <;> cases q <;> cases r <;> rfl

theorem shiftLeft_eq_mul_pow (x : DWord) (k : Nat) : x <<< k = x * 2 ^ k := by
  induction k with
  | zero => simp
  | succ k ih => rw [BitVec.shiftLeft_add, ih, pow_succ, ← mul_assoc, BitVec.shiftLeft_eq_mul_twoPow]; rfl

theorem toNat_eq_ite (b : Bool) (n : Nat) : b.toNat * n = if b then n else 0 := by
  cases b <;> simp

end Sys2Proof.Machine
end

section
/-! The integer forms: each is of the arithmetic mould, with its lane function as the tables of 05 state it. -/

namespace Sys2Proof.Machine

open Sys2Proof Sys2Proof.Machine.State Sys2Proof.Claims

/-- An arithmetic instruction with one register destination is of the mould. -/
theorem moulded_toReg {i : Instr} {h : Hdr} {cls n : Nat} {d : Opnd} {srcs : List (Src × Nat)} {pdsts psrcs : List Pred}
    {g f : State → Pops → Nat → LaneOut} (hu : usesOf i = usesArith h cls [(d, n)] srcs pdsts psrcs)
    (hexec : ∀ s, exec i s = alu (usesOf i) (some d) g s) (hgf : ∀ s p t, g s p t = f s p t) : Moulded i cls (some d) f where
  exec_eq s := by rw [hexec, funext fun s => funext fun p => funext fun t => hgf s p t]
  lat_eq := by rw [hu]; rfl
  ownLat_eq := by rw [hu]; rfl
  dst_mem o ho := by
    obtain rfl := Option.some.inj ho
    exact ⟨n, by rw [hu]; exact List.mem_singleton_self _⟩

/-- An arithmetic instruction that writes predicates only is of the mould. -/
theorem moulded_toPred {i : Instr} {cls : Nat} {h : Hdr} {srcs : List (Src × Nat)} {pdsts psrcs : List Pred}
    {g f : State → Pops → Nat → LaneOut} (hu : usesOf i = usesArith h cls [] srcs pdsts psrcs)
    (hexec : ∀ s, exec i s = alu (usesOf i) none g s) (hgf : ∀ s p t, g s p t = f s p t) : Moulded i cls none f where
  exec_eq s := by rw [hexec, funext fun s => funext fun p => funext fun t => hgf s p t]
  lat_eq := by rw [hu]; rfl
  ownLat_eq := by rw [hu]; rfl
  dst_mem o ho := nomatch ho

/-- R130-R132. -/
theorem moulded_of_arithForm {i : Instr} {d : Option Opnd} {f : State → Pops → Nat → LaneOut}
    (h : arithForm i = some (d, f)) : Moulded i 2 d f := by
  unfold arithForm at h
  split at h <;> cases h
  · -- `IADD`
    exact moulded_toReg rfl (fun _ => rfl) (fun _ _ _ => addResult_add _ _ _ _ _)
  · -- `ISUB`
    exact moulded_toReg rfl (fun _ => rfl) (fun _ _ _ => addResult_sub _ _ _ _ _)
  · -- `IADDC`
    exact moulded_toReg rfl (fun _ => rfl) (fun _ _ _ => addResult_carry _ _ _ _)
  · -- `IMUL`
    exact moulded_toReg rfl (fun _ => rfl) (fun _ _ _ => congrArg w1 (sat32_mul _ _ _ _))
  · -- `IMULH`
    exact moulded_toReg rfl (fun _ => rfl) (fun _ _ _ => congrArg w1 (ofInt_mul_high _ _ _))
  · -- `IMAD`
    exact moulded_toReg rfl (fun _ => rfl) (fun _ _ _ => congrArg w1 (sat32_mad _ _ _ _ _))
  · -- `IMADW`
    exact moulded_toReg rfl (fun _ => rfl) (fun _ _ _ => by rw [out2_eq_w2, ← wide_eq_ofInt])
  · -- `IADD64`
    exact moulded_toReg rfl (fun _ => rfl) (fun _ _ _ => by simp only [out2_eq_w2, ← Int.natCast_add, carryOut_natCast])
  · -- `ISUB64`
    exact moulded_toReg rfl (fun _ => rfl) (fun _ _ _ => by simp only [out2_eq_w2, carryOut_sub])
  · -- `IMIN`
    exact moulded_toReg rfl (fun _ => rfl) (fun _ _ _ => congrArg w1 (intOf_min _ _ _))
  · -- `IMAX`
    exact moulded_toReg rfl (fun _ => rfl) (fun _ _ _ => congrArg w1 (intOf_max _ _ _))
  · -- `IABS`
    exact moulded_toReg rfl (fun _ => rfl) (fun _ _ _ => congrArg w1 (ofNat_natAbs_toInt _))
  · -- `INEG`
    exact moulded_toReg rfl (fun _ => rfl) (fun _ _ _ => congrArg w1 (BitVec.zero_sub _).symm)

theorem conds_of_arithForm {i : Instr} {d : Option Opnd} {f : State → Pops → Nat → LaneOut}
    (h : arithForm i = some (d, f)) (s : State) (p : Pops) (t : Nat) : (f s p t).conds = 0 := by
  unfold arithForm at h
  split at h <;> cases h <;> rfl

/-- R133-R137. -/
theorem moulded_of_bitForm {i : Instr} {d : Option Opnd} {f : State → Pops → Nat → LaneOut}
    (h : bitForm i = some (d, f)) : Moulded i 2 d f := by
  unfold bitForm at h
  split at h <;> cases h
  · -- `AND`
    exact moulded_toReg rfl (fun _ => rfl) (fun _ _ _ => rfl)
  · -- `OR`
    exact moulded_toReg rfl (fun _ => rfl) (fun _ _ _ => rfl)
  · -- `XOR`
    exact moulded_toReg rfl (fun _ => rfl) (fun _ _ _ => rfl)
  · -- `ANDN`
    exact moulded_toReg rfl (fun _ => rfl) (fun _ _ _ => rfl)
  · -- `NOT`
    exact moulded_toReg rfl (fun _ => rfl) (fun _ _ _ => rfl)
  · -- `SHL`
    exact moulded_toReg rfl (fun _ => rfl) (fun _ _ _ => congrArg w1 (shlResult_eq _ _))
  · -- `SHR`
    exact moulded_toReg rfl (fun _ => rfl) (fun _ _ _ => congrArg w1 (shrResult_eq _ _))
  · -- `SAR`
    exact moulded_toReg rfl (fun _ => rfl) (fun _ _ _ => congrArg w1 (sarResult_eq _ _))
  · -- `ROTL`
    exact moulded_toReg rfl (fun _ => rfl) (fun _ _ _ => congrArg w1 (rotateLeft_eq _ _))
  · -- `SHF.l`
    exact moulded_toReg rfl (fun _ => rfl) (fun _ _ _ => congrArg w1 (setWidth_high _))
  · -- `SHF.r`
    exact moulded_toReg rfl (fun _ => rfl) (fun _ _ _ => congrArg w1 (setWidth_low _))
  · -- `BFE`
    exact moulded_toReg rfl (fun _ => rfl) (fun _ _ _ => congrArg w1 (bfeResult_eq _ _ _))
  · -- `BFI`
    exact moulded_toReg rfl (fun _ => rfl) (fun _ _ _ => congrArg w1 (bfiResult_eq _ _ _))
  · -- `POPC`
    exact moulded_toReg rfl (fun _ => rfl) (fun _ _ _ => congrArg w1 (popcResult_eq _))
  · -- `CLZ`
    exact moulded_toReg rfl (fun _ => rfl) (fun _ _ _ => congrArg w1 (clzResult_eq _))
  · -- `CTZ`
    exact moulded_toReg rfl (fun _ => rfl) (fun _ _ _ => congrArg w1 (ctzResult_eq _))
  · -- `BREV`
    exact moulded_toReg rfl (fun _ => rfl) (fun _ _ _ => congrArg w1 (brevResult_eq _))
  · -- `PRMB`
    exact moulded_toReg rfl (fun _ => rfl) (fun _ _ _ => congrArg w1 (prmbResult_eq _ _ _))

theorem conds_of_bitForm {i : Instr} {d : Option Opnd} {f : State → Pops → Nat → LaneOut}
    (h : bitForm i = some (d, f)) (s : State) (p : Pops) (t : Nat) : (f s p t).conds = 0 := by
  unfold bitForm at h
  split at h <;> cases h <;> rfl

/-- R138-R143. -/
theorem moulded_of_moveForm {i : Instr} {d : Option Opnd} {f : State → Pops → Nat → LaneOut}
    (h : moveForm i = some (d, f)) : Moulded i 2 d f := by
  unfold moveForm at h
  split at h <;> cases h
  · -- `ISETP`
    exact moulded_toPred rfl (fun _ => rfl) (fun _ _ _ => cmpOut_eq _ _ _ _ _ _ _ _ _)
  · -- `ISETP64`
    exact moulded_toPred rfl (fun _ => rfl) (fun _ _ _ => cmpOut_eq _ _ _ _ _ _ _ _ _)
  · -- `ISEL`
    exact moulded_toReg rfl (fun _ => rfl) (fun _ _ _ => congrArg w1 (ite_xor _ _ _ _))
  · -- `LEA`
    exact moulded_toReg rfl (fun _ => rfl) (fun _ _ _ => by rw [out2_eq_w2, shiftLeft_eq_mul_pow]; rfl)
  · -- `MOV`
    exact moulded_toReg rfl (fun _ => rfl) (fun _ _ _ => rfl)
  · -- `MOV64`
    exact moulded_toReg rfl (fun _ => rfl) (fun _ _ _ => out2_eq_w2 _)
  · -- `MOVI`
    exact moulded_toReg rfl (fun _ => rfl) (fun _ _ _ => rfl)
  · -- `MOVI64`
    exact moulded_toReg rfl (fun _ => rfl) (fun _ _ _ => out2_eq_w2 _)
  · -- `PLOP`
    exact moulded_toPred rfl (fun _ => rfl) (fun _ _ _ => by simp only [outP_eq_pr, plop_index])
  · -- `PMOV`
    exact moulded_toReg rfl (fun _ => rfl) (fun _ _ _ => by simp only [out1_eq_w1, toNat_eq_ite])

theorem conds_of_moveForm {i : Instr} {d : Option Opnd} {f : State → Pops → Nat → LaneOut}
    (h : moveForm i = some (d, f)) (s : State) (p : Pops) (t : Nat) : (f s p t).conds = 0 := by
  unfold moveForm at h
  split at h <;> cases h <;> rfl

/-! ### `PMOV` from registers (R141) -/

/-- What `PMOV` from registers computes in a lane: the predicates `p1` to `p15` whose bit the second source has, each with the
first source's bit. -/
def pmovFromLane (a b : Src) (s : State) (p : Pops) (t : Nat) : LaneOut :=
  { ps := ((List.range 16).filter (fun k => k ≠ 0 && (s.rd p t b).getLsbD k)).map
      (fun k => (BitVec.ofNat 4 k, (s.rd p t a).getLsbD k)) }

theorem pmovDsts_of_noQueue {h : Hdr} {a b : Src} (hq : NoQueue (usesOf (.pmovFrom h a b))) (s : State) :
    pmovDsts s h a b = ((List.range 16).filter (fun k => k ≠ 0 && (s.xs h).any (fun x => (s.rd [] x b).getLsbD k))).map
      (BitVec.ofNat 4) := by
  rw [pmovDsts, popsOf_of_noQueue hq]

/-- Of the predicates `p1` to `p15` none is the constant one, and each is written under its own number. -/
theorem predWrites_eq (x : Nat) (q v : Nat → Bool) :
    ((((List.range 16).filter (fun k => k ≠ 0 && q k)).map (fun k => (BitVec.ofNat 4 k, v k))).filter (fun p => p.1 != 0)).map
        (fun p => (Tgt.p x p.1.toNat, if p.2 then (1 : Word) else 0)) =
      ((List.range 16).filter (fun k => k ≠ 0 && q k)).map (fun k => (Tgt.p x k, if v k then (1 : Word) else 0)) := by
  have hnum : ∀ k ∈ (List.range 16).filter (fun k => k ≠ 0 && q k), (BitVec.ofNat 4 k).toNat = k ∧ k ≠ 0 := fun k hk => by
    have hk' : k < 16 ∧ k ≠ 0 ∧ q k = true := by simpa using hk
    exact ⟨by simpa using Nat.mod_eq_of_lt hk'.1, hk'.2.1⟩
  have hpass : ∀ p ∈ ((List.range 16).filter (fun k => k ≠ 0 && q k)).map (fun k => (BitVec.ofNat 4 k, v k)), (p.1 != 0) = true :=
    fun p hp => by
      obtain ⟨k, hk, rfl⟩ := List.mem_map.mp hp
      obtain ⟨hto, hne⟩ := hnum k hk
      exact bne_iff_ne.mpr fun h0 => hne (hto.symm.trans (congrArg BitVec.toNat h0))
  rw [List.filter_eq_self.mpr hpass, List.map_map]
  exact List.map_congr_left fun k hk => by simp only [Function.comp, (hnum k hk).1]

/-- The predicate writes of `PMOV` from registers. -/
theorem pmovFrom_outWrites {u : Uses} (hq : NoQueue u) (a b : Src) (s : State) :
    s.outWrites none (lanes u (pmovFromLane a b) s) =
      (s.xs u.h).flatMap (fun x => ((List.range 16).filter (fun k => k ≠ 0 && (s.rd [] x b).getLsbD k)).map (fun k =>
        (Tgt.p x k, if (s.rd [] x a).getLsbD k then (1 : Word) else 0))) := by
  simp only [outWrites, lanes, List.nil_append, List.flatMap_map, popsOf_of_noQueue hq, pmovFromLane, predWrites_eq]

end Sys2Proof.Machine
end

section
/-! The statement about the integer instructions. -/

namespace Sys2Proof

open Sys2Proof.Machine Sys2Proof.Machine.State Sys2Proof.Claims

/-- Settles O1: each form is of the arithmetic mould and raises no condition, so it completes as `alu_completes` says; `PMOV` from
registers is an arithmetic instruction whose destinations are the predicates that it writes in some executing lane. -/
theorem integerInstructions : Obligations.IntegerInstructions := by
  unfold Obligations.IntegerInstructions
  refine ⟨fun i d f s h hr hq => ?_, fun i d f s h hr hq => ?_, fun i d f s h hr hq => ?_, fun h a b s => ?_⟩
  · exact (moulded_of_arithForm h).computes_of_conds (conds_of_arithForm h) hr hq
  · exact (moulded_of_bitForm h).computes_of_conds (conds_of_bitForm h) hr hq
  · exact (moulded_of_moveForm h).computes_of_conds (conds_of_moveForm h) hr hq
  · intro pds u hr hq
    have hdsts : pmovDsts s h a b = pds.map (BitVec.ofNat 4) := pmovDsts_of_noQueue hq s
    have hexec : exec (.pmovFrom h a b) s = alu u none (pmovFromLane a b) s := by
      change alu { usesOf (.pmovFrom h a b) with pdsts := pmovDsts s h a b } none (pmovFromLane a b) s = _
      rw [hdsts]
    have hlat : u.latency = if u.patterned then 6 else 2 := latency_of_ownLat rfl
    obtain ⟨t, hnext, hkept, hmoves, hvres, hpend⟩ :=
      alu_completes hr hq (d := none) (f := pmovFromLane a b) (fun o ho => nomatch ho) (noArithTrap_of_conds fun _ _ _ => rfl)
    rw [hlat, pmovFrom_outWrites hq] at hpend
    exact ⟨t, hexec.trans hnext, hkept, hmoves, hvres, hpend⟩

end Sys2Proof
end

section
/-! The cross-lane instructions, lane by lane: what the meanings compute over the executing set of a wave is what 07 states. -/

namespace Sys2Proof.Machine

open Sys2Proof Sys2Proof.Claims

/-! ### The executing set and masks of lanes (R174, R179) -/

theorem xsOf_eq_setX (s : State) (h : Hdr) (t : Nat) : xsOf s h t = setX s h t := by
  simp only [xsOf, State.xsW, State.xs, setX, List.filter_filter, Bool.and_comm]

theorem qOf_eq_q (s : State) (u : Nat) (p : Pred) (neg : Bool) : qOf s u p neg = q s u p neg := rfl

theorem inLane_eq_atLane (s : State) (t m : Nat) (a : Src) : inLane s t m a = atLane s t m a := rfl

theorem chosen_eq_filter (s : State) (h : Hdr) (t : Nat) (pm : Pred) (neg : Bool) :
    chosen s h t pm neg = (setX s h t).filter (fun u => q s u pm neg) := by
  simp only [chosen, xsOf_eq_setX, qOf_eq_q]

theorem laneOf_lt (t : Nat) : laneOf t < 32 := Nat.mod_lt t (by decide)

/-- The distinct lanes of a list of threads are the lane numbers that some thread of the list has. -/
theorem dedup_lanes_perm (ts : List Nat) :
    (ts.map laneOf).dedup.Perm ((List.range 32).filter (fun l => ts.any (fun u => laneOf u == l))) := by
  refine (List.perm_ext_iff_of_nodup (List.nodup_dedup _) (List.nodup_range.filter _)).mpr fun l => ?_
  simp only [List.mem_dedup, List.mem_map, List.mem_filter, List.mem_range, List.any_eq_true, beq_iff_eq]
  refine ⟨fun ⟨u, hu, hl⟩ => ⟨hl ▸ laneOf_lt u, u, hu, hl⟩, fun ⟨_, hl⟩ => hl⟩

theorem laneMask_eq_maskOf (ts : List Nat) : State.laneMask ts = maskOf ts := by
  rw [State.laneMask, maskOf, ((dedup_lanes_perm ts).map _).sum_eq, sum_map_filter]

/-! ### Shuffles (R177) -/

theorem shflOut_eq_shuffled (s : State) (t mode : Nat) (a b : Src) (segw : BitVec 3) (zf : Bool) :
    shflOut s t mode a b segw zf = shuffled s t a (shflSrc mode (2 ^ segw.toNat) (laneOf t) (s.rd [] t b).toNat) zf := by
  rw [shflOut]
  cases shflSrc mode (2 ^ segw.toNat) (laneOf t) (s.rd [] t b).toNat <;> rfl

theorem shflSrc_idx (seg l n : Nat) : shflSrc 0 seg l n = some (l / seg * seg + n % seg) := by
  simp only [shflSrc, Nat.div_mul_self_eq_mod_sub_self]

theorem shflSrc_xor (seg l n : Nat) : shflSrc 3 seg l n = some (l / seg * seg + (l % seg ^^^ n % seg)) := by
  simp only [shflSrc, Nat.div_mul_self_eq_mod_sub_self]

/-- Upwards: the source lies `n` lanes below, where the lane's place in its segment reaches that far. -/
theorem shflSrc_up (seg l n : Nat) : shflSrc 1 seg l n = if l % seg < n then none else some (l - n) := by
  have hle : l % seg ≤ l := Nat.mod_le l seg
  by_cases hn : n ≤ l % seg
  · rw [shflSrc, if_pos hn, if_neg (by omega), show l - l % seg + (l % seg - n) = l - n by omega]
  · rw [shflSrc, if_neg hn, if_pos (by omega)]

/-- Downwards: the source lies `n` lanes above, where that is still in the segment. -/
theorem shflSrc_down (seg l n : Nat) : shflSrc 2 seg l n = if seg ≤ l % seg + n then none else some (l + n) := by
  have hle : l % seg ≤ l := Nat.mod_le l seg
  by_cases hn : l % seg + n < seg
  · simp only [shflSrc, if_pos hn, if_neg (Nat.not_le.mpr hn), Nat.sub_add_cancel hle]
  · simp only [shflSrc, if_neg hn, if_pos (Nat.not_lt.mp hn)]

theorem shuffled_conds (s : State) (t : Nat) (a : Src) (src : Option Nat) (zf : Bool) : (shuffled s t a src zf).conds = 0 := by
  cases src <;> rfl

/-! ### Votes and elections (R178, R180) -/

/-- No two votes differ exactly when all are for or all are against. -/
theorem all_or_all_not {α : Type} (p : α → Bool) (l : List α) :
    (l.all p || l.all (fun u => !p u)) = !(l.any p && l.any (fun u => !p u)) := by
  rw [Bool.not_and, Bool.or_comm, ← List.all_eq_not_any_not, ← List.not_any_eq_all_not]

theorem lowest_eq_not_any (xs : List Nat) (t : Nat) : lowest xs t = !xs.any (fun u => decide (laneOf u < laneOf t)) := by
  simp only [lowest, List.not_any_eq_all_not, ← decide_not, Nat.not_lt]

theorem lowest_iff (xs : List Nat) (t : Nat) : lowest xs t = true ↔ ∀ u ∈ xs, laneOf t ≤ laneOf u := by
  simp only [lowest, List.all_eq_true, decide_eq_true_eq]

/-- The lane of a list's lowest thread is the least lane number that some thread of the list has. -/
theorem laneOf_find_lowest (xs : List Nat) (t : Nat) :
    laneOf ((xs.find? (lowest xs)).getD t) =
      ((List.range 32).find? (fun l => xs.any (fun u => laneOf u == l))).getD (laneOf t) := by
  cases hleast : (List.range 32).find? (fun l => xs.any (fun u => laneOf u == l)) with
  | none =>
    have hnil : xs = [] := List.eq_nil_iff_forall_not_mem.mpr fun u hu => by
      have hnone := List.find?_eq_none.mp hleast (laneOf u) (List.mem_range.mpr (laneOf_lt u))
      exact hnone (List.any_eq_true.mpr ⟨u, hu, beq_self_eq_true _⟩)
    rw [hnil]
    rfl
  | some l =>
    obtain ⟨hl, -, hbelow⟩ := List.find?_range_eq_some.mp hleast
    obtain ⟨u, hu, rfl⟩ : ∃ u ∈ xs, laneOf u = l := by simpa using hl
    have hnone : ∀ k < laneOf u, ∀ v ∈ xs, laneOf v ≠ k := by simpa using hbelow
    have hmin : ∀ v ∈ xs, laneOf u ≤ laneOf v := fun v hv => Nat.le_of_not_lt fun hlt => hnone _ hlt v hv rfl
    obtain ⟨v, hfind⟩ := Option.isSome_iff_exists.mp (List.find?_isSome.mpr ⟨u, hu, (lowest_iff xs u).mpr hmin⟩)
    have hle : laneOf v ≤ laneOf u := (lowest_iff xs v).mp (List.find?_some hfind) u hu
    rw [hfind]
    exact Nat.le_antisymm hle (hmin v (List.mem_of_find?_eq_some hfind))

end Sys2Proof.Machine
end

section
/-! The cross-lane forms: each is of the arithmetic mould, with its lane function as 07 states it. -/

namespace Sys2Proof.Machine

open Sys2Proof Sys2Proof.Machine.State Sys2Proof.Claims

/-- A cross-lane instruction with at most one register destination is of the mould, with a latency of 6 clk (R172). -/
theorem moulded_cross {i : Instr} {h : Hdr} {d : Option Opnd} {srcs : List (Src × Nat)} {pdsts psrcs : List Pred}
    {g f : State → Pops → Nat → LaneOut} (hu : usesOf i = usesCross h (d.toList.map (fun o => (o, 1))) srcs pdsts psrcs)
    (hexec : ∀ s, exec i s = alu (usesOf i) d g s) (hgf : ∀ s p t, g s p t = f s p t) : Moulded i 6 d f where
  exec_eq s := by rw [hexec, funext fun s => funext fun p => funext fun t => hgf s p t]
  lat_eq := by rw [hu]; rfl
  ownLat_eq := by rw [hu]; rfl
  dst_mem o ho := ⟨1, by rw [hu]; exact List.mem_map_of_mem (Option.mem_toList.mpr ho)⟩

/-- A crossbar pattern does not lengthen a cross-lane instruction. -/
theorem latOf_six (i : Instr) : latOf i 6 = 6 := ite_self 6

/-- R177-R180. -/
theorem moulded_of_crossForm {i : Instr} {d : Option Opnd} {f : State → Pops → Nat → LaneOut}
    (h : crossForm i = some (d, f)) : Moulded i 6 d f := by
  unfold crossForm at h
  split at h <;> cases h
  · -- `SHFL.idx`
    exact moulded_cross rfl (fun _ => rfl) (fun _ _ _ => by rw [shflOut_eq_shuffled, shflSrc_idx])
  · -- `SHFL.up`
    exact moulded_cross rfl (fun _ => rfl) (fun _ _ _ => by rw [shflOut_eq_shuffled, shflSrc_up])
  · -- `SHFL.down`
    exact moulded_cross rfl (fun _ => rfl) (fun _ _ _ => by rw [shflOut_eq_shuffled, shflSrc_down])
  · -- `SHFL.xor`
    exact moulded_cross rfl (fun _ => rfl) (fun _ _ _ => by rw [shflOut_eq_shuffled, shflSrc_xor])
  · -- `VOTE.all`
    exact moulded_cross rfl (fun _ => rfl) (fun _ _ _ => by simp only [outP_eq_pr, xsOf_eq_setX, qOf_eq_q])
  · -- `VOTE.any`
    exact moulded_cross rfl (fun _ => rfl) (fun _ _ _ => by simp only [outP_eq_pr, xsOf_eq_setX, qOf_eq_q, List.any_eq_not_all_not])
  · -- `VOTE.uni`
    exact moulded_cross rfl (fun _ => rfl) (fun _ _ _ => by simp only [outP_eq_pr, xsOf_eq_setX, qOf_eq_q, all_or_all_not])
  · -- `BALLOT`
    exact moulded_cross rfl (fun _ => rfl) (fun _ _ _ => by simp only [out1_eq_w1, laneMask_eq_maskOf, xsOf_eq_setX, qOf_eq_q])
  · -- `BALLOT.exec`
    exact moulded_cross rfl (fun _ => rfl) (fun _ _ _ => by rw [out1_eq_w1, laneMask_eq_maskOf, xsOf_eq_setX])
  · -- `BALLOT.live`
    exact moulded_cross rfl (fun _ => rfl) (fun _ _ _ => congrArg w1 (laneMask_eq_maskOf _))
  · -- `ELECT`
    exact moulded_cross rfl (fun _ => rfl) (fun _ _ _ => by rw [outP_eq_pr, lowest_eq_not_any, xsOf_eq_setX])
  · -- `ELECT.idx`
    exact moulded_cross rfl (fun _ => rfl) (fun _ _ _ => by rw [out1_eq_w1, laneOf_find_lowest, xsOf_eq_setX])

theorem conds_of_crossForm {i : Instr} {d : Option Opnd} {f : State → Pops → Nat → LaneOut}
    (h : crossForm i = some (d, f)) (s : State) (p : Pops) (t : Nat) : (f s p t).conds = 0 := by
  unfold crossForm at h
  split at h <;> cases h
  case h_1 | h_2 | h_3 | h_4 => exact shuffled_conds _ _ _ _ _
  all_goals rfl

/-- Lanes match as R183 says of the form: by the values, by the 64 bits or by the 32 bits; a lane matches itself. -/
theorem lanesMatch_eq (s : State) (kind : BitVec 2) (a : Src) (t u : Nat) :
    lanesMatch s kind.toNat a t u = (u == t ||
      (if kind = 1 then (fp32.decode (s.rd [] t a).toNat).same (fp32.decode (s.rd [] u a).toNat)
       else if kind = 2 then s.rd64 [] t a == s.rd64 [] u a
       else s.rd [] t a == s.rd [] u a)) := by
  unfold lanesMatch
  rw [BEq.comm]
  congr 1
  match kind with
  | 0 | 1 | 2 | 3 => rfl

/-- R181-R185. -/
theorem moulded_of_treeForm {i : Instr} {d : Option Opnd} {f : State → Pops → Nat → LaneOut}
    (h : treeForm i = some (d, f)) : Moulded i 6 d f := by
  unfold treeForm at h
  split at h <;> cases h
  · -- `REDUCE`
    exact moulded_cross rfl (fun _ => rfl) (fun _ _ _ => rfl)
  · -- `SCAN`
    exact moulded_cross rfl (fun _ => rfl) (fun _ _ _ => rfl)
  · -- `SCAN.excl`
    exact moulded_cross rfl (fun _ => rfl) (fun _ _ _ => rfl)
  · -- `MATCH`
    exact moulded_cross rfl (fun _ => rfl) (fun s _ t => by
      simp only [out1_eq_w1, laneMask_eq_maskOf, xsOf_eq_setX, funext (lanesMatch_eq s _ _ t)])
  · -- `COMPRESS`
    refine moulded_cross rfl (fun _ => rfl) (fun s _ t => ?_)
    simp only [chosen_eq_filter]
    cases ((setX s _ t).filter _)[laneOf t]? <;> rfl
  · -- `EXPAND`
    refine moulded_cross rfl (fun _ => rfl) (fun s _ t => ?_)
    simp only [chosen_eq_filter, List.filter_filter, qOf_eq_q, out1_eq_w1, inLane_eq_atLane, Bool.and_comm]

end Sys2Proof.Machine
end

section
/-! The statement about the cross-lane instructions. -/

namespace Sys2Proof

open Sys2Proof.Machine Sys2Proof.Machine.State Sys2Proof.Claims

/-- Settles O5: each form is of the arithmetic mould with a latency of 6 clk, which no crossbar pattern lengthens; the forms of
R177-R180 raise no condition. -/
theorem crossLaneInstructions : Obligations.CrossLaneInstructions := by
  unfold Obligations.CrossLaneInstructions
  refine ⟨fun i d f s h hr hq => ?_, fun i d f s h hr hq hn => ?_⟩
  · exact latOf_six i ▸ (moulded_of_crossForm h).computes_of_conds (conds_of_crossForm h) hr hq
  · exact latOf_six i ▸ (moulded_of_treeForm h).computes hr hq hn

end Sys2Proof
end

section
/-! What an issue that moves on leaves behind, when it schedules results or changes a wave; the instructions that act once for a
wave, and the twin window. -/

namespace Sys2Proof.Machine

open Sys2Proof Sys2Proof.Machine.State Sys2Proof.Claims

/-! ### Moving on after an issue -/

/-- A state inside the frame of an issue stays inside it with its waves as they were before. -/
theorem kept_withWaves {s t : State} (hk : Kept s t) : Kept s { t with waves := s.waves } :=
  { hk with waves := fun _ => rfl }

/-- A group that moves on from a state inside the frame, in which no thread has changed, stays inside it. -/
theorem kept_moves_advance {s r : State} (hk : Kept s r) (hth : ∀ x, r.th x = s.th x) (hn : s.grp.Nodup) (h : Hdr) (len : Nat) :
    Kept s (r.advance h len) ∧ Moves h len s (r.advance h len) :=
  ⟨kept_trans hk (kept_modThreads _ _ _), moves_of_kept hk hth (moves_advance r h len ((kept_grp hk).symm ▸ hn))⟩

/-- The state of an issue that schedules results and moves on. -/
def issuedResults (s : State) (u : Uses) (ws : List (Tgt × Word)) : State := ((s.issued u).sched u.latency ws).advance u.h u.len

theorem issuedResults_completes {s : State} (hn : s.grp.Nodup) (u : Uses) (ws : List (Tgt × Word)) :
    Kept s (issuedResults s u ws) ∧ Moves u.h u.len s (issuedResults s u ws) ∧ (issuedResults s u ws).vres = s.vres ∧
      (issuedResults s u ws).pend = s.pend ++ dueIn u.latency ws s := by
  have hki : Kept s (s.issued u) := kept_issued s u
  obtain ⟨-, hpend, hvres⟩ := issued_flight s u
  obtain ⟨hkept, hmoves⟩ := kept_moves_advance (kept_trans hki (kept_sched _ u.latency ws)) (issued_th s u) hn u.h u.len
  exact ⟨hkept, hmoves, hvres, sched_pend_of_kept hki hpend _ _⟩

/-- The state of an issue that moves on and changes one wave. -/
def issuedWave (s : State) (u : Uses) (w : Nat) (f : Wave → Wave) : State := ((s.issued u).advance u.h u.len).modWave w f

/-- Apart from its wave, such an issue leaves the machine as any issue does. -/
theorem issuedWave_completes {s : State} (hn : s.grp.Nodup) (u : Uses) (w : Nat) (f : Wave → Wave) :
    Kept s { issuedWave s u w f with waves := s.waves } ∧ Moves u.h u.len s (issuedWave s u w f) ∧
      (issuedWave s u w f).pend = s.pend ∧ (issuedWave s u w f).vres = s.vres := by
  obtain ⟨-, hpend, hvres⟩ := issued_flight s u
  obtain ⟨hkept, hmoves⟩ := kept_moves_advance (kept_issued s u) (issued_th s u) hn u.h u.len
  have hwaves : Kept s { (s.issued u).advance u.h u.len with waves := s.waves } := kept_withWaves hkept
  exact ⟨hwaves, hmoves, hpend, hvres⟩

theorem wv_issuedWave_same (s : State) (u : Uses) (w : Nat) (f : Wave → Wave) :
    (issuedWave s u w f).wv w = f ((s.issued u).wv w) := wv_modWave_same _ _ _

theorem wv_issuedWave_other (s : State) (u : Uses) {w x : Nat} (f : Wave → Wave) (hx : x ≠ w) :
    (issuedWave s u w f).wv x = (s.issued u).wv x := wv_modWave_other _ _ _ _ hx

/-- A collective instruction that its gate lets through acts for the first of its waves with an executing lane. -/
theorem onceExec_go {u : Uses} (go : State → Nat → Out) {s : State} {w : Nat} {ws : List Nat} (hgate : s.gate u = .go)
    (hw : s.wavesX u.h = w :: ws) : onceExec u go s = go s w := by
  rw [onceExec, byGate_go _ hgate, hw]

/-! ### `TWIN` and `TWIN.off` (R311, R324) -/

/-- The slot that a `TWIN` of a wave names. -/
def twinSlot (s : State) (w : Nat) : SlotOp → Nat
  | .lit n => n.toNat
  | .reg n => (s.sreg w n.toNat).toNat % 32

/-- The mapping that `TWIN` makes to a wave, with its base register. -/
def mappingTo (s : State) (v : Nat) (b : BitVec 8) : TwinMap :=
  { lid := s.lidF, team := (s.tm (tagW v)).index, widx := widxW v, tag := tagW v, base := b.toNat }

/-- The trap of a `TWIN` that finds no wave of its launch. -/
def slotGone (s : State) (h : Hdr) (w k : Nat) : TrapInfo :=
  { code := 0x1A, sub := 1, mask := laneMask (s.xsW h w), words := s.twinWords w k 1 }

/-- A wave after a `TWIN` of wave `w`: of `w` the mapping that takes effect next is set. -/
theorem wv_issuedWave_twinNext (s : State) (u : Uses) (w : Nat) (next : Option (Nat × TwinMap)) (x : Nat) :
    let t := issuedWave s u w (fun a => { a with twinNext := next })
    t.wv x = { s.wv x with
      timer := (t.wv x).timer, timerOn := (t.wv x).timerOn, timerRun := (t.wv x).timerRun, pairGo := (t.wv x).pairGo
      twinNext := if x = w then next else (s.wv x).twinNext } := by
  intro t
  rcases eq_or_ne x w with rfl | hx
  · rw [if_pos rfl, wv_issuedWave_same, (kept_issued s u).waves]
  · rw [if_neg hx, wv_issuedWave_other _ _ _ hx, (kept_issued s u).waves]

/-- A wave after a `TWIN.off` of wave `w`: `w` has neither a mapping nor one to come. -/
theorem wv_issuedWave_unmapped (s : State) (u : Uses) (w x : Nat) :
    let t := issuedWave s u w (fun a => { a with twin := none, twinNext := none })
    t.wv x = { s.wv x with
      timer := (t.wv x).timer, timerOn := (t.wv x).timerOn, timerRun := (t.wv x).timerRun, pairGo := (t.wv x).pairGo
      twin := if x = w then none else (s.wv x).twin, twinNext := if x = w then none else (s.wv x).twinNext } := by
  intro t
  rcases eq_or_ne x w with rfl | hx
  · rw [if_pos rfl, if_pos rfl, wv_issuedWave_same, (kept_issued s u).waves]
  · rw [if_neg hx, if_neg hx, wv_issuedWave_other _ _ _ hx, (kept_issued s u).waves]

section
variable {h : Hdr} {slot : SlotOp} {b : BitVec 8} {s : State} {w : Nat} {ws : List Nat}

theorem exec_twin_mapped {v : Nat} (hgate : s.gate (usesOf (.twin h slot b)) = .go) (hw : s.wavesX h = w :: ws)
    (hfind : (s.co (twinOf s.focus.core)).slots.find? (twinSlot s w slot) = some v) (hlid : (s.tm (tagW v)).lid = s.lidF) :
    exec (.twin h slot b) s = .next (issuedWave s (usesOf (.twin h slot b)) w
      (fun x => { x with twinNext := some (s.now + 2, mappingTo s v b) })) := by
  change execTwin h slot b s = _
  rw [execTwin, onceExec_go _ hgate hw]
  cases slot <;> (simp only [twinSlot] at hfind; simp only [hfind, hlid, if_true]; rfl)

theorem exec_twin_trap (hgate : s.gate (usesOf (.twin h slot b)) = .go) (hw : s.wavesX h = w :: ws)
    (hgone : ∀ v, (s.co (twinOf s.focus.core)).slots.find? (twinSlot s w slot) = some v → (s.tm (tagW v)).lid ≠ s.lidF) :
    exec (.twin h slot b) s = .next (s.raise h h.len.bytes (slotGone s h w (twinSlot s w slot))) := by
  change execTwin h slot b s = _
  rw [execTwin, onceExec_go _ hgate hw]
  cases hfind : (s.co (twinOf s.focus.core)).slots.find? (twinSlot s w slot) with
  | none => cases slot <;> (simp only [twinSlot] at hfind; simp only [hfind]; rfl)
  | some v =>
    have hlid := hgone v hfind
    cases slot <;> (simp only [twinSlot] at hfind; simp only [hfind, hlid, if_false]; rfl)

theorem exec_twinOff (hgate : s.gate (usesOf (.twinOff h)) = .go) (hw : s.wavesX h = w :: ws) :
    exec (.twinOff h) s = .next (issuedWave s (usesOf (.twinOff h)) w (fun x => { x with twin := none, twinNext := none })) := by
  change execTwinOff h s = _
  rw [execTwinOff, onceExec_go _ hgate hw]
  rfl

end

/-! ### `TXCH` (R325) -/

/-- A rule that gives its own latency is not lengthened by a crossbar pattern (log 89). -/
theorem latency_eq_lat_of_ownLat {u : Uses} (hown : u.ownLat = true) : u.latency = u.lat := by
  simp [Uses.latency, hown]

theorem widOf_lanesrc {x : Nat} {pat : Pat} (hlane : patLane pat (laneOf x) < 32) : widOf (lanesrc x pat) = widOf x := by
  change lanesrc x pat / 32 = widOf x
  rw [lanesrc]
  omega

theorem laneOf_lanesrc {x : Nat} {pat : Pat} (hlane : patLane pat (laneOf x) < 32) :
    laneOf (lanesrc x pat) = patLane pat (laneOf x) := by
  rw [lanesrc, laneOf, Nat.mul_add_mod_self_right, Nat.mod_eq_of_lt hlane]

/-- Through a mapped window a lane reaches the register of the twin's lane that its pattern names. -/
theorem twinReg_lanesrc {s : State} {x : Nat} {pat : Pat} {m : TwinMap} (hmap : (s.wv (widOf x)).twin = some m)
    (hlane : patLane pat (laneOf x) < 32) (y : Nat) :
    s.twinReg (lanesrc x pat) y = some ((m.tag * 32 + m.widx) * 32 + patLane pat (laneOf x), m.base + y) := by
  simp only [twinReg, widOf_lanesrc hlane, laneOf_lanesrc hlane, hmap]

/-- What a lane of `TXCH` writes: its own register takes the twin's value, and the twin's register, where there is one, its own. -/
def exchanged (s : State) (d : BitVec 8) (y : BitVec 5) (pat : Pat) (x : Nat) : List (Tgt × Word) :=
  (Tgt.v x d.toNat, s.opnd [] (lanesrc x pat) (.y y)) ::
    match s.twinReg (lanesrc x pat) y.toNat with
    | some (t, n) => [(Tgt.v t n, s.vreg x d.toNat)]
    | none => []

theorem exec_txch {h : Hdr} {d : BitVec 8} {y : BitVec 5} {pat : Pat} {s : State} (hgate : s.gate (usesOf (.txch h d y pat)) = .go) :
    exec (.txch h d y pat) s = .next (issuedResults s (usesOf (.txch h d y pat)) ((s.xs h).flatMap (exchanged s d y pat))) := by
  change execTxch h d y pat s = _
  rw [execTxch, byGate_go _ hgate]
  rfl

theorem exchanged_mapped {s : State} {x : Nat} {pat : Pat} {m : TwinMap} (hmap : (s.wv (widOf x)).twin = some m)
    (hlane : patLane pat (laneOf x) < 32) (d : BitVec 8) (y : BitVec 5) :
    exchanged s d y pat x =
      [(Tgt.v x d.toNat, s.vreg ((m.tag * 32 + m.widx) * 32 + patLane pat (laneOf x)) (m.base + y.toNat)),
       (Tgt.v ((m.tag * 32 + m.widx) * 32 + patLane pat (laneOf x)) (m.base + y.toNat), s.vreg x d.toNat)] := by
  simp only [exchanged, opnd, twinReg_lanesrc hmap hlane]

end Sys2Proof.Machine
end

section
/-! The statement about the twin window. -/

namespace Sys2Proof

open Sys2Proof.Machine Sys2Proof.Machine.State Sys2Proof.Claims

/-- Settles O40: `TWIN` and `TWIN.off` act once for their wave and change only its window, or `TWIN` traps; `TXCH` schedules, 2 clk on,
what each lane exchanges with the lane of the twin that its pattern names. -/
theorem twinWindow : Obligations.TwinWindow := by
  unfold Obligations.TwinWindow
  refine ⟨fun h slot b s w ws ⟨hgate, hnodup⟩ hw => ⟨fun v hfind hlid => ?_, fun hgone => ?_⟩,
    fun h s w ws ⟨hgate, hnodup⟩ hw => ?_, fun h d y pat s m ⟨hgate, hnodup⟩ hmap => ?_⟩
  · -- `TWIN` finds a wave of its launch
    obtain ⟨hkept, hmoves, hpend, hvres⟩ := issuedWave_completes hnodup (usesOf (.twin h slot b)) w
      (fun a => { a with twinNext := some (s.now + 2, mappingTo s v b) })
    exact ⟨_, exec_twin_mapped hgate hw hfind hlid, hkept, hmoves, hpend, hvres, wv_issuedWave_twinNext s _ w _⟩
  · -- `TWIN` finds none
    exact exec_twin_trap hgate hw hgone
  · -- `TWIN.off`
    obtain ⟨hkept, hmoves, hpend, hvres⟩ := issuedWave_completes hnodup (usesOf (.twinOff h)) w
      (fun a => { a with twin := none, twinNext := none })
    exact ⟨_, exec_twinOff hgate hw, hkept, hmoves, hpend, hvres, wv_issuedWave_unmapped s _ w⟩
  · -- `TXCH`
    obtain ⟨hkept, hmoves, hvres, hpend⟩ :=
      issuedResults_completes hnodup (usesOf (.txch h d y pat)) ((s.xs h).flatMap (exchanged s d y pat))
    have hlat : (usesOf (.txch h d y pat)).latency = 2 := latency_eq_lat_of_ownLat rfl
    refine ⟨_, exec_txch hgate, hkept, hmoves, hvres, hpend.trans ?_⟩
    rw [hlat, List.flatMap_congr fun x hx => exchanged_mapped (hmap x hx).1 (hmap x hx).2 d y]

end Sys2Proof
end
